-- ==== Sys2Proof/Word.lean ====
section
/-! DEFINITION. The word types of the Bintika X4 and their plainest arithmetic (spec/00_scope.md R6). -/

namespace Sys2Proof

/-- One byte of memory. -/
abbrev Byte := BitVec 8
/-- A 32-bit register lane or code word. -/
abbrev Word := BitVec 32
/-- A 64-bit value of a register pair (R6). -/
abbrev DWord := BitVec 64
/-- A virtual address held in a pointer (R290). -/
abbrev Addr := BitVec 64

/-- The signed value s(x) of a 32-bit pattern (R82). -/
def sval (x : Word) : Int := x.toInt

/-- The unsigned value u(x) of a 32-bit pattern (R82). -/
def uval (x : Word) : Nat := x.toNat

/-- Bits [hi:lo] of a natural number, both ends included (R6). -/
def bits (w hi lo : Nat) : Nat := (w / 2 ^ lo) % 2 ^ (hi + 1 - lo)

/-- A register pair: the even register holds bits [31:0] (R6). -/
def pairOf (lo hi : Word) : DWord := hi ++ lo

/-- The low half of a pair (R6). -/
def loHalf (x : DWord) : Word := x.setWidth 32

/-- The high half of a pair (R6). -/
def hiHalf (x : DWord) : Word := (x >>> 32).setWidth 32

end Sys2Proof
end

