-- ==== Sys2Proof/Syntax.lean ====
section
/-! DEFINITION. The instructions and steps of the X4: one constructor for each row of spec/opcode_table.json. The first 152
are operation words with their decoded fields (spec/01_words.md R16 to R36): `u` is U, `la` and `lb` the last-read bits
(R20), `d`, `a`, `b` and `base` register fields (R18). The other 82 are the machine's steps that no word encodes
(spec/95_what_each_step_holds.md); their operands name the object the step acts on or what an outside agent supplies. -/

namespace Sys2Proof

/-- Combining mode of a compare (R27). -/
inductive CombMode where
  | set | and | or
  deriving DecidableEq, Repr

/-- ICMP conditions (R27). -/
inductive IntCond where
  | eq | ne | lt | le | gt | ge | lo | ls | hi | hs
  deriving DecidableEq, Repr

/-- FCMP and DCMP conditions (R27). -/
inductive FltCond where
  | eq | ne | lt | le | gt | ge | ord | uno
  deriving DecidableEq, Repr

/-- Types of DIGITS, SIB, MEAN and CHKD (R26). -/
inductive SibType where
  | f32 | f64 | f16 | bf16
  deriving DecidableEq, Repr

/-- Block formats of QBX and DQBX (R33). -/
inductive BxFmt where
  | bx8 | bx6 | bx4
  deriving DecidableEq, Repr

/-- Hadamard options (R33). -/
inductive Hadamard where
  | none | h16 | h32
  deriving DecidableEq, Repr

/-- Operand forms of MMA and MMAG (R33). -/
inductive MmaForm where
  | bx8 | bx8h16 | bx8h32 | bx6 | bx6h16 | bx6h32 | bx4 | bx4h16 | bx4h32 | f16 | bf16 | f32
  deriving DecidableEq, Repr

/-- Source of A in MMA and MMAG: registers (.V) or the cluster store (.S) (R33). -/
inductive ASource where
  | v | s
  deriving DecidableEq, Repr

/-- Access sizes of format M (R30). -/
inductive MemSize where
  | b8 | b16 | b32 | b64 | b128 | s8 | s16
  deriving DecidableEq, Repr

/-- The order field of LD and ST: plain, acquire or release, streaming (R30). -/
inductive MemOrder where
  | plain | sync | str
  deriving DecidableEq, Repr

/-- Atomic operations (R31). -/
inductive AtomOp where
  | add32 | add64 | smin32 | smax32 | umin32 | umax32 | and32 | or32 | xor32 | exch32 | exch64 | cas32 | cas64
  | fadd32 | fmin32 | fmax32
  deriving DecidableEq, Repr

/-- Atomic uses (R31). -/
inductive AtomUse where
  | unp | comm | nord | quant | spec
  deriving DecidableEq, Repr

/-- Where a doorbell write comes from (R250, R358): a control core, a front port, or an attached host. -/
inductive DoorbellOrigin where
  | control | front | host
  deriving DecidableEq, Repr

/-- Where a frozen flight resumes (R289): at the trapping operation or at the next one. -/
inductive ResumeHow where
  | retry | next
  deriving DecidableEq, Repr

/-- A key of the miss-coalescing table: a page or a binding slot of a context (R293). -/
inductive MissKey where
  | page (context vpn : Nat)
  | slot (context slot : Nat)
  deriving DecidableEq, Repr

/-- What an uncorrectable error strikes (R295): data read by a flight's next operation, an engine operation, an array owned
by a context, a receipt whose owner cannot be told, at a bank, or data of a collective (R354). -/
inductive ErrTarget where
  | read (flight : Nat)
  | engine (flight entry : Nat)
  | owned (context : Nat)
  | bank (bank : Nat)
  | collective (ident : Nat)
  deriving DecidableEq, Repr

/-- What a clock change covers (R362). -/
inductive ClockTarget where
  | die (n : Nat)
  | cluster (n : Nat)
  deriving DecidableEq, Repr

/-- State that services 0x32 and 0x33 reach (R338); the flag counts, the scoreboard bits and the in-flight record are read only. -/
inductive DebugItem where
  | reg (name : Nat)
  | preds
  | pc
  | state
  | window
  | ctl (num : BitVec 14)
  | flags
  | scoreboard
  | record
  deriving DecidableEq, Repr

/-- The registers that service 0x40 writes (R332). -/
structure CounterSetup where
  sel : Option (BitVec 32)
  ctl : Option (BitVec 32)
  counts : List (BitVec 2 × BitVec 64)
  deriving DecidableEq, Repr

/-- What service 0x41 programs into a monitor (R335): quantity, floor, shift and the filter bits of `cnt.ctl`. -/
structure MonitorSetup where
  quantity : Nat
  floor : Nat
  shift : Nat
  filter : BitVec 32
  deriving DecidableEq, Repr

/-- An access to memory from outside the cores: a write of some bytes, or a read of a number of them (R358, R363). -/
inductive Access where
  | write (data : List (BitVec 8))
  | read (len : Nat)
  deriving DecidableEq, Repr

/-- What arrives at a front port beside WRITE and READ: a SEND, or an operation that the port does not perform (R357). -/
inductive PortRequest where
  | send (data : List (BitVec 8))
  | other
  deriving DecidableEq, Repr

/-- A failure that a member announces: the collective's number and its status (R346, R354). -/
structure CollFailure where
  number : Nat
  status : Nat
  deriving DecidableEq, Repr

/-- The instructions and steps of the X4. -/
inductive Instr where
  /-- IADD (R84): Adds two 32-bit registers modulo 2^32, per sibling. -/
  | iadd (u : Bool) (d a b : BitVec 7) (la lb : Bool)
  /-- ISUB (R84): Subtracts b from a modulo 2^32. -/
  | isub (u : Bool) (d a b : BitVec 7) (la lb : Bool)
  /-- IMIN (R84): Writes the signed lesser of a and b. -/
  | imin (u : Bool) (d a b : BitVec 7) (la lb : Bool)
  /-- IMAX (R84): Writes the signed greater of a and b. -/
  | imax (u : Bool) (d a b : BitVec 7) (la lb : Bool)
  /-- IMUL (R84): Writes the low 32 bits of a times b. -/
  | imul (u : Bool) (d a b : BitVec 7) (la lb : Bool)
  /-- IMULH (R84): Writes the high 32 bits of the signed product. -/
  | imulh (u : Bool) (d a b : BitVec 7) (la lb : Bool)
  /-- IMULHU (R84): Writes the high 32 bits of the unsigned product. -/
  | imulhu (u : Bool) (d a b : BitVec 7) (la lb : Bool)
  /-- IMAD (R84): Adds a times b to d modulo 2^32. -/
  | imad (u : Bool) (d a b : BitVec 7) (la lb : Bool)
  /-- IADDMIN (R84): Writes the lesser of d and the saturated sum of a and b. -/
  | iaddmin (u : Bool) (d a b : BitVec 7) (la lb : Bool)
  /-- IADDMAX (R84): Writes the greater of d and the saturated sum of a and b. -/
  | iaddmax (u : Bool) (d a b : BitVec 7) (la lb : Bool)
  /-- IABSD (R84): Writes the absolute signed difference of a and b. -/
  | iabsd (u : Bool) (d a b : BitVec 7) (la lb : Bool)
  /-- IMINU (R84): Writes the unsigned lesser of a and b. -/
  | iminu (u : Bool) (d a b : BitVec 7) (la lb : Bool)
  /-- AND (R85): Bitwise AND of a and b. -/
  | andR (u : Bool) (d a b : BitVec 7) (la lb : Bool)
  /-- OR (R85): Bitwise OR of a and b. -/
  | orR (u : Bool) (d a b : BitVec 7) (la lb : Bool)
  /-- XOR (R85): Bitwise exclusive OR of a and b. -/
  | xorR (u : Bool) (d a b : BitVec 7) (la lb : Bool)
  /-- ANDN (R85): Writes a AND NOT b. -/
  | andn (u : Bool) (d a b : BitVec 7) (la lb : Bool)
  /-- SHL (R85): Shifts a left by b[7:0]. -/
  | shl (u : Bool) (d a b : BitVec 7) (la lb : Bool)
  /-- SHR (R85): Shifts a right logically by b[7:0]. -/
  | shr (u : Bool) (d a b : BitVec 7) (la lb : Bool)
  /-- SAR (R85): Shifts a right arithmetically by b[7:0], at most 31. -/
  | sar (u : Bool) (d a b : BitVec 7) (la lb : Bool)
  /-- ROL (R85): Rotates a left by b[4:0]. -/
  | rol (u : Bool) (d a b : BitVec 7) (la lb : Bool)
  /-- POPC (R85): Counts the one bits of a. -/
  | popc (u : Bool) (d a : BitVec 7) (la : Bool)
  /-- CLZ (R85): Counts the leading zero bits of a. -/
  | clz (u : Bool) (d a : BitVec 7) (la : Bool)
  /-- BREV (R85): Reverses the bit order of a. -/
  | brev (u : Bool) (d a : BitVec 7) (la : Bool)
  /-- BFX (R86): Extracts a bit field of a under the control word b. -/
  | bfx (u : Bool) (d a b : BitVec 7) (la lb : Bool)
  /-- MOV (R87): Copies a into d, sibling by sibling. -/
  | mov (u : Bool) (d a : BitVec 7) (la : Bool)
  /-- MOVP (R87): Writes the thread's predicates p11-p0 into d. -/
  | movp (d : BitVec 7)
  /-- PMOV (R87): Sets each predicate from the sibling majority of the matching bit of a. -/
  | pmov (a : BitVec 7) (la : Bool)
  /-- BFI (R86): Inserts a field of a into d under the control word b. -/
  | bfi (u : Bool) (d a b : BitVec 7) (la lb : Bool)
  /-- SEL (R90): Selects a or b per thread by a predicate. -/
  | sel (u : Bool) (d a b : BitVec 7) (p : BitVec 4)
  /-- ICMP (R91): Compares integers and combines the sibling-majority outcome into a predicate. -/
  | icmp (u : Bool) (mode : CombMode) (p : BitVec 4) (a b : BitVec 7) (cond : IntCond)
  /-- FCMP (R103): Compares FP32 values and combines the majority outcome into a predicate, meeting D on disagreement. -/
  | fcmp (u : Bool) (mode : CombMode) (p : BitVec 4) (a b : BitVec 7) (cond : FltCond)
  /-- DCMP (R103): Compares FP64 pairs and combines the majority outcome into a predicate, meeting D on disagreement. -/
  | dcmp (u : Bool) (mode : CombMode) (p : BitVec 4) (a b : BitVec 7) (cond : FltCond)
  /-- PAND (R92): ANDs two predicates. -/
  | pand (d a b : BitVec 4)
  /-- POR (R92): ORs two predicates. -/
  | por (d a b : BitVec 4)
  /-- PXOR (R92): Exclusive-ORs two predicates. -/
  | pxor (d a b : BitVec 4)
  /-- PNOT (R92): Inverts a predicate. -/
  | pnot (d a : BitVec 4)
  /-- LEA (R89): Adds a shifted signed register to a 64-bit pair. -/
  | lea (u : Bool) (d a b : BitVec 7) (sh : BitVec 2) (la lb : Bool)
  /-- IADD64 (R89): Adds two 64-bit pairs. -/
  | iadd64 (u : Bool) (d a b : BitVec 7) (la lb : Bool)
  /-- ISUB64 (R89): Subtracts two 64-bit pairs. -/
  | isub64 (u : Bool) (d a b : BitVec 7) (la lb : Bool)
  /-- IMULW (R89): Writes the exact signed 64-bit product of two registers. -/
  | imulw (u : Bool) (d a b : BitVec 7) (la lb : Bool)
  /-- SHL64 (R89): Shifts a 64-bit pair left by b[7:0]. -/
  | shl64 (u : Bool) (d a b : BitVec 7) (la lb : Bool)
  /-- IADDI (R88): Adds a sign-extended 10-bit immediate. -/
  | iaddi (u : Bool) (d a : BitVec 7) (imm : BitVec 10) (la : Bool)
  /-- ANDI (R88): ANDs with a sign-extended immediate. -/
  | andi (u : Bool) (d a : BitVec 7) (imm : BitVec 10) (la : Bool)
  /-- ORI (R88): ORs with a sign-extended immediate. -/
  | ori (u : Bool) (d a : BitVec 7) (imm : BitVec 10) (la : Bool)
  /-- XORI (R88): Exclusive-ORs with a sign-extended immediate. -/
  | xori (u : Bool) (d a : BitVec 7) (imm : BitVec 10) (la : Bool)
  /-- SHLI (R88): Shifts left by an immediate amount. -/
  | shli (u : Bool) (d a : BitVec 7) (amt : BitVec 5) (la : Bool)
  /-- SHRI (R88): Shifts right logically by an immediate amount. -/
  | shri (u : Bool) (d a : BitVec 7) (amt : BitVec 5) (la : Bool)
  /-- SARI (R88): Shifts right arithmetically by an immediate amount. -/
  | sari (u : Bool) (d a : BitVec 7) (amt : BitVec 5) (la : Bool)
  /-- ROLI (R88): Rotates left by an immediate amount. -/
  | roli (u : Bool) (d a : BitVec 7) (amt : BitVec 5) (la : Bool)
  /-- MOVI (R87): Writes a sign-extended 18-bit immediate. -/
  | movi (u : Bool) (d : BitVec 7) (imm : BitVec 18)
  /-- MOVH (R87): Replaces bits [31:18] of d with a 14-bit immediate. -/
  | movh (u : Bool) (d : BitVec 7) (imm : BitVec 14)
  /-- FADD (R98): Adds FP32 values with sibling rounding. -/
  | fadd (u : Bool) (d a b : BitVec 7) (la lb : Bool)
  /-- FSUB (R98): Subtracts FP32 values with sibling rounding. -/
  | fsub (u : Bool) (d a b : BitVec 7) (la lb : Bool)
  /-- FMUL (R98): Multiplies FP32 values with sibling rounding. -/
  | fmul (u : Bool) (d a b : BitVec 7) (la lb : Bool)
  /-- FMIN (R98): Writes the lesser FP32 value under the NaN rules. -/
  | fmin (u : Bool) (d a b : BitVec 7) (la lb : Bool)
  /-- FMAX (R98): Writes the greater FP32 value under the NaN rules. -/
  | fmax (u : Bool) (d a b : BitVec 7) (la lb : Bool)
  /-- FFMA (R98): Fused multiply-add a times b plus d in FP32. -/
  | ffma (u : Bool) (d a b : BitVec 7) (la lb : Bool)
  /-- FFMS (R98): Fused multiply-subtract a times b minus d in FP32. -/
  | ffms (u : Bool) (d a b : BitVec 7) (la lb : Bool)
  /-- FDIV (R98): Divides FP32 values, testing the zero-divisor condition. -/
  | fdiv (u : Bool) (d a b : BitVec 7) (la lb : Bool)
  /-- FSQRT (R99): FP32 square root. -/
  | fsqrt (u : Bool) (d a : BitVec 7) (la : Bool)
  /-- FRCP (R99): FP32 reciprocal. -/
  | frcp (u : Bool) (d a : BitVec 7) (la : Bool)
  /-- FRSQ (R100): FP32 reciprocal square root from a 34-bit approximation. -/
  | frsq (u : Bool) (d a : BitVec 7) (la : Bool)
  /-- FEXP2 (R100): FP32 power of two from a 34-bit approximation. -/
  | fexp2 (u : Bool) (d a : BitVec 7) (la : Bool)
  /-- FLOG2 (R100): FP32 base-2 logarithm from a 34-bit approximation. -/
  | flog2 (u : Bool) (d a : BitVec 7) (la : Bool)
  /-- FSIN (R100): FP32 sine from a 34-bit approximation. -/
  | fsin (u : Bool) (d a : BitVec 7) (la : Bool)
  /-- FCOS (R100): FP32 cosine from a 34-bit approximation. -/
  | fcos (u : Bool) (d a : BitVec 7) (la : Bool)
  /-- FABS (R99): Clears bit 31 of a. -/
  | fabs (u : Bool) (d a : BitVec 7) (la : Bool)
  /-- FNEG (R99): Inverts bit 31 of a. -/
  | fneg (u : Bool) (d a : BitVec 7) (la : Bool)
  /-- FFLOOR (R99): Rounds an FP32 value down to an integer, exactly. -/
  | ffloor (u : Bool) (d a : BitVec 7) (la : Bool)
  /-- FCEIL (R99): Rounds an FP32 value up to an integer, exactly. -/
  | fceil (u : Bool) (d a : BitVec 7) (la : Bool)
  /-- FTRUNC (R99): Removes the fraction of an FP32 value. -/
  | ftrunc (u : Bool) (d a : BitVec 7) (la : Bool)
  /-- FRINT (R99): Rounds an FP32 value to an integer by RoundSib. -/
  | frint (u : Bool) (d a : BitVec 7) (la : Bool)
  /-- DADD (R101): Adds FP64 pairs. -/
  | dadd (u : Bool) (d a b : BitVec 7) (la lb : Bool)
  /-- DSUB (R101): Subtracts FP64 pairs. -/
  | dsub (u : Bool) (d a b : BitVec 7) (la lb : Bool)
  /-- DMUL (R101): Multiplies FP64 pairs. -/
  | dmul (u : Bool) (d a b : BitVec 7) (la lb : Bool)
  /-- DFMA (R101): Fused multiply-add of FP64 pairs. -/
  | dfma (u : Bool) (d a b : BitVec 7) (la lb : Bool)
  /-- DDIV (R101): Divides FP64 pairs. -/
  | ddiv (u : Bool) (d a b : BitVec 7) (la lb : Bool)
  /-- DSQRT (R101): FP64 square root. -/
  | dsqrt (u : Bool) (d a : BitVec 7) (la : Bool)
  /-- DMIN (R101): Writes the lesser FP64 value. -/
  | dmin (u : Bool) (d a b : BitVec 7) (la lb : Bool)
  /-- DMAX (R101): Writes the greater FP64 value. -/
  | dmax (u : Bool) (d a b : BitVec 7) (la lb : Bool)
  /-- HADD2 (R102): Adds two packed FP16 halves. -/
  | hadd2 (u : Bool) (d a b : BitVec 7) (la lb : Bool)
  /-- HMUL2 (R102): Multiplies two packed FP16 halves. -/
  | hmul2 (u : Bool) (d a b : BitVec 7) (la lb : Bool)
  /-- HFMA2 (R102): Fused multiply-add of packed FP16 halves. -/
  | hfma2 (u : Bool) (d a b : BitVec 7) (la lb : Bool)
  /-- BFMA2 (R102): Fused multiply-add of packed BF16 halves. -/
  | bfma2 (u : Bool) (d a b : BitVec 7) (la lb : Bool)
  /-- CVT (R105): Converts between integer and floating formats under the conversion code. -/
  | cvt (u : Bool) (d a : BitVec 7) (code : BitVec 5) (la : Bool)
  /-- DIGITS (R106): Writes the digit count of the three sibling copies of a. -/
  | digits (d a : BitVec 7) (ty : SibType) (la : Bool)
  /-- SIB (R107): Copies sibling k's copy of a into all siblings of d. -/
  | sib (d a : BitVec 7) (ty : SibType) (k : BitVec 2) (la : Bool)
  /-- MEAN (R108): Writes the rounded mean of the three sibling copies of a. -/
  | mean (d a : BitVec 7) (ty : SibType) (la : Bool)
  /-- CHKD (R109): Checks sibling agreement or digit count of a, meeting D or C. -/
  | chkd (a : BitVec 7) (ty : SibType) (c : BitVec 5) (la : Bool)
  /-- SOLO (R110): Sets the solo bit of each active thread. -/
  | solo
  /-- TRIO (R110): Clears the solo bit of each active thread. -/
  | trio
  /-- QBX (R112): Quantizes a block of 32 values across threads into a BX format. -/
  | qbx (fmt : BxFmt) (had : Hadamard) (d a b : BitVec 7)
  /-- DQBX (R113): Decodes one BX element per thread to FP32. -/
  | dqbx (fmt : BxFmt) (d a b : BitVec 7)
  /-- SHFL_IDX (R124): Reads a from the thread of index b. -/
  | shflIdx (d a b : BitVec 7) (la lb : Bool)
  /-- SHFL_UP (R124): Reads a from thread i minus b. -/
  | shflUp (d a b : BitVec 7) (la lb : Bool)
  /-- SHFL_DN (R124): Reads a from thread i plus b. -/
  | shflDn (d a b : BitVec 7) (la lb : Bool)
  /-- SHFL_XOR (R124): Reads a from thread i xor b. -/
  | shflXor (d a b : BitVec 7) (la lb : Bool)
  /-- VOTE_ANY (R125): Sets a predicate if any active thread's predicate is 1. -/
  | voteAny (d a : BitVec 4)
  /-- VOTE_ALL (R125): Sets a predicate if every active thread's predicate is 1. -/
  | voteAll (d a : BitVec 4)
  /-- VOTE_BALLOT (R125): Writes a bit mask of active threads' predicates. -/
  | voteBallot (d : BitVec 7) (a : BitVec 4)
  /-- VOTE_COUNT (R125): Writes the count of active threads whose predicate is 1. -/
  | voteCount (d : BitVec 7) (a : BitVec 4)
  /-- XADD (R126): Sums a over the active threads of the domain. -/
  | xadd (d a : BitVec 7) (la : Bool)
  /-- XMIN (R126): Signed minimum of a over the active threads. -/
  | xmin (d a : BitVec 7) (la : Bool)
  /-- XMAX (R126): Signed maximum of a over the active threads. -/
  | xmax (d a : BitVec 7) (la : Bool)
  /-- XSCAN (R126): Inclusive prefix sum of a over the active threads. -/
  | xscan (d a : BitVec 7) (la : Bool)
  /-- BRA (R117): Branches per thread on a predicate to a clause-relative target. -/
  | bra (p : BitVec 4) (sense : Bool) (off : BitVec 21)
  /-- CALL (R117): Branches like BRA and links the next clause into v14:v15. -/
  | call (p : BitVec 4) (sense : Bool) (off : BitVec 21)
  /-- BRX (R118): Transfers to the majority target held in a pair. -/
  | brx (a : BitVec 7)
  /-- RET (R118): Transfers to the target held in v14:v15. -/
  | ret
  /-- EXIT (R119): Makes every active thread exited. -/
  | exit
  /-- YIELD (R120): Applies the yield hint and deprioritises the flight for 32 cycles. -/
  | yield
  /-- NAP (R121): Makes active threads not runnable for 16 times n cycles. -/
  | nap (n : BitVec 7)
  /-- WIN (R122): Sets the flight's register window base. -/
  | win (n : BitVec 5)
  /-- LD (R128): Loads from global memory under the page's storage form. -/
  | ld (u : Bool) (d base : BitVec 7) (size : MemSize) (order : MemOrder) (off : BitVec 6)
  /-- ST (R129): Stores to global memory under the page's storage form. -/
  | st (u : Bool) (d base : BitVec 7) (size : MemSize) (order : MemOrder) (off : BitVec 6)
  /-- LDS (R131): Loads from the wing's cluster store. -/
  | lds (u : Bool) (d base : BitVec 7) (size : MemSize) (off : BitVec 6)
  /-- STS (R131): Stores to the wing's cluster store. -/
  | sts (u : Bool) (d base : BitVec 7) (size : MemSize) (off : BitVec 6)
  /-- LDC (R132): Loads from the argument block or constant segment. -/
  | ldc (u : Bool) (d base : BitVec 7) (size : MemSize) (off : BitVec 6)
  /-- ATOM (R134): Performs a returning atomic on global memory. -/
  | atom (aop : AtomOp) (use : AtomUse) (d a : BitVec 7) (off : BitVec 5)
  /-- ATOMS (R134): Performs a returning atomic on the cluster store. -/
  | atoms (aop : AtomOp) (use : AtomUse) (d a : BitVec 7) (off : BitVec 5)
  /-- POST (R134): Sends a non-returning atomic to the counting bank. -/
  | post (aop : AtomOp) (use : AtomUse) (d a : BitVec 7) (off : BitVec 5)
  /-- PHASE (R138): Publishes then refreshes at a scope entry. -/
  | phase (scope : BitVec 5)
  /-- BAR (R139): Arrives at the hall barrier and blocks. -/
  | bar
  /-- ARRIVE (R140): Publishes at cluster scope and increments a store word per thread. -/
  | arrive (a : BitVec 7)
  /-- AWAIT (R141): Blocks each thread until a store word reaches its count. -/
  | await (a b : BitVec 7)
  /-- WAITGE (R142): Refreshes and polls a global word against a count. -/
  | waitge (scope : BitVec 5) (a b : BitVec 7)
  /-- COPY_G2S (R150): Copies rows from global memory into the cluster store. -/
  | copyG2s (d a b : BitVec 7)
  /-- COPY_S2G (R150): Copies rows from the cluster store to global memory. -/
  | copyS2g (d a b : BitVec 7)
  /-- COPY_G2V (R152): Copies global rows into each thread's registers. -/
  | copyG2v (d a b : BitVec 7)
  /-- COPY_S2S (R150): Copies rows within the cluster store. -/
  | copyS2s (d a b : BitVec 7)
  /-- GATH (R153): Gathers indexed global rows into the cluster store. -/
  | gath (d a b : BitVec 7)
  /-- MMA (R158): Accumulates A times B into the flight's plane set. -/
  | mma (src : ASource) (form : MmaForm) (d a : BitVec 7) (scale : BitVec 5) (q : Bool)
  /-- MMAG (R161): Accumulates grouped rows against per-group B tiles. -/
  | mmag (src : ASource) (form : MmaForm) (d a : BitVec 7) (scale : BitVec 5) (q : Bool)
  /-- MZERO (R157): Zeroes the owned rows of all three planes. -/
  | mzero
  /-- MLD (R157): Loads owned accumulator rows from the cluster store. -/
  | mld (a : BitVec 7)
  /-- MST (R157): Stores owned accumulator rows to the cluster store. -/
  | mst (a : BitVec 7)
  /-- MFREE (R157): Releases the flight's plane set. -/
  | mfree
  /-- SPAWN (R163): Pushes one continuation record per active thread onto a task queue. -/
  | spawn (a : BitVec 7) (q : BitVec 3)
  /-- TJOIN (R166): Publishes and decrements join counts, pushing the continuation at zero. -/
  | tjoin (a : BitVec 7)
  /-- TEND (R167): Ends the task's active threads as EXIT does. -/
  | tend
  /-- CFIRE (R168): Publishes and fires the hall's collective chunk. -/
  | cfire
  /-- CFIRE_IDX (R168): Publishes and fires a named collective chunk. -/
  | cfireIdx (a : BitVec 7)
  /-- MCALL (R169): Runs a macro body of the control store with parameter substitution. -/
  | mcall (mac : BitVec 6) (p0 p1 : BitVec 7) (p2 : BitVec 6)
  /-- SRD (R170): Reads a special or control register into d. -/
  | srd (d : BitVec 7) (num : BitVec 14)
  /-- SWR (R170): Writes a control register from the lowest active thread. -/
  | swr (d : BitVec 7) (num : BitVec 14)
  /-- TRAP (R174): Raises the TRAP trap with a code. -/
  | trap (n : BitVec 7)
  /-- BKPT (R174): Raises the BKPT trap with a code. -/
  | bkpt (n : BitVec 7)
  /-- TRC (R175): Emits one trace record per active thread. -/
  | trc (a : BitVec 7) (kind : BitVec 7)
  /-- TIME (R176): Writes the constant time base count. -/
  | time (d : BitVec 7)
  /-- PREQ (R177): Writes the time left before a pending forced save, or 0. -/
  | preq (d : BitVec 7)
  /-- PYIELD (R178): Moves on, or starts a light save when a pre-emption request is pending. -/
  | pyield
  /-- IPF (R179): Asks the instruction cache to prefetch a clause. -/
  | ipf (a : BitVec 7)
  /-- CLAUSE_START (R75): A clause starts once its wait flags are zero and flag capacity allows, forming its active set. -/
  | clauseStart
  /-- FAIRNESS_TIMER_EXPIRY (R191): The fairness timer reaches ctl.fair and a turn begins for the next higher PC group. -/
  | fairnessTimerExpiry
  /-- LOAD_COMPLETE (R76): A load's data is written back, scoreboard bits clear and its flag falls. -/
  | loadComplete (flight entry : Nat)
  /-- ATOMIC_PERFORM (R233): An atomic or POST is performed at its executing agent and placed in coherence order. -/
  | atomicPerform (flight entry : Nat)
  /-- ATOM_RETURN (R134): A returning atomic writes old values into every sibling and lowers its flag. -/
  | atomReturn (flight entry : Nat)
  /-- LEASE_RECALL (R238): An outside access recalls a cluster atomic engine lease on a line. -/
  | leaseRecall (cluster line : Nat)
  /-- ENGINE_CHUNK (R148): An engine operation performs its next chunk once its scoreboard conflicts clear. -/
  | engineChunk (flight entry : Nat)
  /-- MATRIX_UNIT_OPERATION (R215): The matrix unit takes its next queued operation and executes it. -/
  | matrixUnitOperation (core quarter : Nat)
  /-- NAP_END (R121): A nap's cycles expire and its threads become runnable at the next clause. -/
  | napEnd (flight : Nat)
  /-- FLIGHT_OVERDUE (R264): A flight eligible but unchosen for 4,096 cycles becomes overdue. -/
  | flightOverdue (flight : Nat)
  /-- THROTTLE_WINDOW_END (R265): At each 1,024-cycle window the permission count is adjusted from victim-tag scores. -/
  | throttleWindowEnd (core quarter : Nat)
  /-- ICACHE_FILL (R267): Missing instruction lines arrive and the flight becomes eligible again. -/
  | icacheFill (flight : Nat)
  /-- INSTABILITY_DELIVERY (R204): With no thread ready, recorded threads enter the handler or the flight freezes. -/
  | instabilityDelivery (flight : Nat)
  /-- FLIGHT_RETIREMENT (R119): A flight with no live thread retires once flags and scoreboard are clear, publishing at scope 3. -/
  | flightRetirement (flight : Nat)
  /-- DOORBELL (R250): A doorbell write is checked and, if accepted, sets the queue's tail. -/
  | doorbell (q : Nat) (origin : DoorbellOrigin) (nbytes : Nat) (tail : BitVec 32) (key : BitVec 64)
  /-- LAUNCH_RECORD (R254): A launch record is taken, its blocks read and checked, and its gallery accepted or refused. -/
  | launchRecord (q : Nat)
  /-- BARRIER_RECORD (R256): A barrier record releases its queue once earlier work and the named queue are done. -/
  | barrierRecord (q : Nat)
  /-- SIGNAL_RECORD (R257): A signal record writes its value once earlier work is done, optionally interrupting. -/
  | signalRecord (q : Nat)
  /-- WING_PLACEMENT (R260): A wing or stack is placed on the first cluster that can take it. -/
  | wingPlacement (gallery : Nat)
  /-- HALL_START (R184): A placed hall starts its first flight once its lower storey has started. -/
  | hallStart (gallery hall : Nat)
  /-- BULK_GALLERY_AGEING (R259): A bulk gallery waiting 2,000,000 cycles is served as normal class. -/
  | bulkGalleryAgeing (gallery : Nat)
  /-- TASK_POP (R164): An idle qualifying slot pops a task record and starts a task flight. -/
  | taskPop (context core quarter : Nat)
  /-- GALLERY_COMPLETION (R200): A gallery becomes complete and its completion entry is written after its writes are visible. -/
  | galleryCompletion (gallery : Nat)
  /-- PREEMPTION_REQUEST (R270): The control cores raise a pre-emption request and the deadline counter starts. -/
  | preemptionRequest (context : Nat)
  /-- PREEMPTION_WITHDRAWAL (R270): The control cores withdraw a pending pre-emption request. -/
  | preemptionWithdrawal (context : Nat)
  /-- FORCED_SAVE (R272): The deadline expires and every resident flight of the context is frozen and saved. -/
  | forcedSave (context : Nat)
  /-- LIGHT_SAVE (R178): A yielding flight saves a light context once its flags and scoreboard clear. -/
  | lightSave (flight : Nat)
  /-- CONTEXT_SAVED_REPORT (R273): The context is reported saved after every store-class acknowledgement. -/
  | contextSavedReport (context : Nat)
  /-- CONTEXT_RESUME (R246): A saved context is restored and its in-flight entries replayed in order. -/
  | contextResume (context core : Nat)
  /-- T_ENTRY_RESEND (R247): A counting bank receives a resent T entry and suppresses or performs it by receipt. -/
  | tEntryResend (flight entry : Nat)
  /-- FLIGHT_RESUME (R289): The control cores resume a frozen flight at or after the trapping operation. -/
  | flightResume (flight : Nat) (how : ResumeHow)
  /-- CONTEXT_END (R289): The control cores end a context, completing its galleries with status 7. -/
  | contextEnd (context : Nat)
  /-- TRANSLATION_KEY_RESOLVED (R293): A resolved miss key releases its parked flights and engine operations in order. -/
  | translationKeyResolved (die : Nat) (key : MissKey)
  /-- TRANSLATION_KEY_DECLINED (R293): A declined miss key releases each parked access to its own trap. -/
  | translationKeyDeclined (die : Nat) (key : MissKey)
  /-- BINDING_SLOT_RESOLVE (R306): System software resolves a binding slot and parked binding loads complete. -/
  | bindingSlotResolve (gallery slot : Nat) (value : BitVec 64)
  /-- BINDING_SLOT_DECLINE (R306): A declined binding slot completes parked loads with zero and a late fault. -/
  | bindingSlotDecline (gallery slot : Nat)
  /-- INVALIDATION (R292): The control cores issue a translation invalidation for a context and range. -/
  | invalidation (context base len : Nat)
  /-- INVALIDATION_EFFECT (R292): An invalidation takes effect when every TLB has acknowledged it. -/
  | invalidationEffect (ident : Nat)
  /-- UNCORRECTABLE_ERROR (R295): An uncorrectable ECC error traps the operation or fails the owning context. -/
  | uncorrectableError (target : ErrTarget)
  /-- CORRECTABLE_ERROR (R295): A correctable ECC error is counted per array class. -/
  | correctableError (die cls : Nat) (core : Option Nat)
  /-- COLLECTIVE_SEGMENT (R351): The collective engine moves and combines its next chosen segment. -/
  | collectiveSegment (die : Nat)
  /-- COLLECTIVE_AGEING (R351): A bulk collective waiting 2,000,000 cycles is served as normal class. -/
  | collectiveAgeing (ident : Nat)
  /-- COLLECTIVE_TRAFFIC_ARRIVAL (R346): First traffic of a collective arrives and the member digests are compared. -/
  | collectiveTrafficArrival (peers number rank chunk segment : Nat) (digest : BitVec 64) (data : List (BitVec 8))
  /-- COLLECTIVE_REFUSAL_ANNOUNCEMENT (R346): A peer's refusal announcement fails the matching collective on every member. -/
  | collectiveRefusalAnnouncement (peers : Nat) (failure : CollFailure)
  /-- MEMBER_LOST (R355): The control cores declare a member lost, failing its collectives. -/
  | memberLost (member : Nat)
  /-- LINK_TRAINED (R310): A fabric port finishes training and sends its bring-up frame. -/
  | linkTrained (port : Nat)
  /-- BRINGUP_FRAME (R310): A received bring-up frame sets the link version or keeps the port down. -/
  | bringupFrame (port linkmin linkmax peer peerPort : Nat)
  /-- LINK_FAILURE (R356): A failed link is removed from every route mask and its traffic resent. -/
  | linkFailure (port : Nat)
  /-- RDMA_WRITE (R357): A front-port RDMA WRITE inside a window makes an external write. -/
  | rdmaWrite (qp va : Nat) (data : List (BitVec 8))
  /-- RDMA_READ (R357): A front-port RDMA READ inside a window returns memory. -/
  | rdmaRead (qp va len : Nat)
  /-- SEND (R357): A front-port SEND is delivered to the control cores; a request of another operation
  comes the same way. -/
  | send (qp : Nat) (request : PortRequest)
  /-- POWER_ON (R359): The die-0 ROM verifies and boots the firmware chain. -/
  | powerOn
  /-- CLOCK_CHANGE (R362): The firmware changes a die or cluster clock and a clock-change record is written. -/
  | clockChange (target : ClockTarget) (mhz : Nat)
  /-- MODULE_NUMBER_WRITE (R365): The firmware writes the module number once after boot. -/
  | moduleNumberWrite (n : BitVec 22)
  /-- FIRMWARE_HANDSHAKE (R311): Service 0 agrees the firmware service version. -/
  | firmwareHandshake (version : Nat)
  /-- MEASUREMENT_EXTEND (R360): A measurement register is extended with a digest. -/
  | measurementExtend (ver reg : Nat) (digest : BitVec 384)
  /-- ATTESTATION_REPORT (R361): The firmware returns a signed attestation report over a nonce. -/
  | attestationReport (ver : Nat) (nonce : BitVec 384)
  /-- TRACE_BLOCK_LOAD (R326): Service 0x10 loads a die's trace block and sieve program. -/
  | traceBlockLoad (ver die addr : Nat)
  /-- TRACE_STATUS_READ (R331): Service 0x11 returns the write index, armed state and lost count. -/
  | traceStatusRead (ver die : Nat)
  /-- SIEVE_COUNTERS_READ (R330): Service 0x12 returns and optionally clears the sieve counters. -/
  | sieveCountersRead (ver die : Nat) (clear : Bool)
  /-- SESSION_ARM (R312): Service 0x20 arms a replay session on a queue. -/
  | sessionArm (ver addr : Nat)
  /-- SESSION_CANCEL (R331): Service 0x21 cancels a replay session. -/
  | sessionCancel (ver addr : Nat)
  /-- SESSION_PASS_START (R315): Caches are reset, granules restored and counters set before a pass runs. -/
  | sessionPassStart
  /-- SESSION_PASS_END (R316): A pass's completed gallery writes its results record. -/
  | sessionPassEnd
  /-- FREEZE (R336): Service 0x30 freezes a context or flight within 2 µs. -/
  | freeze (ver context : Nat) (flight : Option Nat)
  /-- UNFREEZE (R336): Service 0x31 lets a frozen flight issue again. -/
  | unfreeze (ver context : Nat) (flight : Option Nat)
  /-- DEBUG_READ (R338): Service 0x32 reads state of a frozen flight. -/
  | debugRead (ver flight : Nat) (item : DebugItem) (thread : Nat) (sibs : BitVec 3)
  /-- DEBUG_WRITE (R338): Service 0x33 writes state of a frozen flight, discarding pending write-backs. -/
  | debugWrite (ver flight : Nat) (item : DebugItem) (thread : Nat) (sibs : BitVec 3) (value : BitVec 64)
  /-- BREAKPOINT_SET (R337): Service 0x34 sets or clears a context breakpoint. -/
  | breakpointSet (ver context index : Nat) (addr : BitVec 64) (hall : BitVec 32)
  /-- COUNTER_PROGRAM (R332): Service 0x40 programs and reads a core's event counters, for a caller with or without system privilege. -/
  | counterProgram (ver core : Nat) (sys : Bool) (setup : CounterSetup)
  /-- MONITOR_PROGRAM (R335): Service 0x41 programs and reads a core's monitors. -/
  | monitorProgram (ver core index : Nat) (setup : Option MonitorSetup)
  /-- STALL_HISTOGRAM_READ (R334): Service 0x42 reads and clears the stall histograms. -/
  | stallHistogramRead (ver core : Nat)
  /-- MONITOR_SAMPLE (R335): A periodic monitor quantity is sampled every 64 cycles. -/
  | monitorSample (core : Nat)
  /-- SIEVE_RUN (R327): The trace core sieves a queued record and writes it if kept. -/
  | sieveRun (die : Nat)
  /-- WAITGE_POLL_RETURN (R142): The reads of a WAITGE poll return; passing threads move to the next clause and failing ones hold the clause for 16 cycles. -/
  | waitgePollReturn (flight poll : Nat)
  /-- STORE_ACKNOWLEDGEMENT (R244): The acknowledgement of an ST, STS, POST, TJOIN or non-returning atomic reaches the core, letting its T entry be released at the next module-scope boundary and its save be reported. -/
  | storeAcknowledgement (flight entry : Nat)
  /-- YIELD_PERIOD_END (R120): The 32 cycles after a YIELD run out and the flight is again chosen in the ordinary age order. -/
  | yieldPeriodEnd (flight : Nat)
  /-- FABRIC_WRITE_ARRIVAL (R229): A write published at system scope by a core of another module arrives over the fabric and is placed and published to this module's cores. -/
  | fabricWriteArrival (pa : Nat) (data : List (BitVec 8))
  /-- FABRIC_WRITE_ACKNOWLEDGEMENT (R230): The acknowledgement of a fabric write returns, ending a Publish(4)'s wait once all of them are in. -/
  | fabricWriteAcknowledgement (ident : Nat)
  /-- CONTROL_CORE_WRITE (R363): A control core or its firmware writes global memory, placing an external write in coherence order at its home bank,
  or reads some bytes of it or of the module's identity page (R308). -/
  | controlCoreWrite (pa : Nat) (access : Access)
  /-- PCIE_HOST_WRITE (R358): An attached host writes a memory window through the PCIe endpoint, making an external write, or reads some bytes
  of one. -/
  | pcieHostWrite (window va : Nat) (access : Access)
  /-- ARITHMETIC_CLOCK_CYCLE (R334): Each cycle of the arithmetic clock adds to the stall histogram bins and the cycle-counted events. -/
  | arithmeticClockCycle
  deriving DecidableEq, Repr

end Sys2Proof
end

