-- ==== Sys2Proof/WellFormed.lean ====
section
/-! DEFINITION. Which instructions are well formed: the operand rules of spec/01_words.md R17 to R35, spec/03 R82, spec/04
R97 and spec/05 R115, and the bounds of a step's operands. What depends on the kernel's level or kind is `Instr.legalIn`. -/

namespace Sys2Proof

/-- A predicate number names p0 to p11 (R23, R27). -/
def predOk (p : BitVec 4) : Bool := Nat.blt p.toNat 12

/-- A field is a multiple of the operand's width (R19). -/
def aligned (f : BitVec 7) (n : Nat) : Bool := f.toNat % n == 0

/-- Registers of an M-format operand (R30). -/
def MemSize.regs : MemSize → Nat
  | .b64 => 2
  | .b128 => 4
  | _ => 1

/-- Bytes of an access (R30). -/
def MemSize.bytes : MemSize → Nat
  | .b8 => 1
  | .b16 => 2
  | .b32 => 4
  | .b64 => 8
  | .b128 => 16
  | .s8 => 1
  | .s16 => 2

/-- Sizes 5 and 6 are sign-extending and legal for loads only (R30). -/
def MemSize.isSigned : MemSize → Bool
  | .s8 => true
  | .s16 => true
  | _ => false

/-- Registers of an atomic's d block without `.spec` (R31). -/
def AtomOp.regs : AtomOp → Nat
  | .add64 => 2
  | .exch64 => 2
  | .cas32 => 2
  | .cas64 => 4
  | _ => 1

/-- Bytes of an atomic's location (R31, R134). -/
def AtomOp.bytes : AtomOp → Nat
  | .add64 => 8
  | .exch64 => 8
  | .cas64 => 8
  | _ => 4

/-- Exchanges and compare-and-swaps: not commutative, and returning (R31, R115). -/
def AtomOp.isSwap : AtomOp → Bool
  | .exch32 => true
  | .exch64 => true
  | .cas32 => true
  | .cas64 => true
  | _ => false

/-- Registers of an atomic's d block under its use (R31, R137). -/
def atomWidth (op : AtomOp) (use : AtomUse) : Nat := if use = .spec then 2 * op.regs else op.regs

/-- Legal pairs of operation and use (R115). -/
def atomUseOk (op : AtomOp) (use : AtomUse) : Bool := !(op.isSwap && (use = .comm || use = .quant))

/-- Widths in registers of the destination and the source of a conversion code (R25). -/
def cvtWidths (c : Nat) : Nat × Nat :=
  if c < 6 then (1, 1)
  else if c < 8 then (2, 1)
  else if c < 12 then (1, 2)
  else if c < 18 then (2, 2)
  else if c = 18 then (1, 2)
  else if c = 19 then (2, 1)
  else if c = 24 || c = 25 || c = 28 || c = 29 then (1, 2)
  else if c = 30 || c = 31 then (2, 1)
  else (1, 1)

/-- Whether an MMA form is a BX form (R33). -/
def MmaForm.isBx : MmaForm → Bool
  | .f16 => false
  | .bf16 => false
  | .f32 => false
  | _ => true

/-- The Hadamard option of an MMA form (R33). -/
def MmaForm.had : MmaForm → Hadamard
  | .bx8h16 => .h16
  | .bx6h16 => .h16
  | .bx4h16 => .h16
  | .bx8h32 => .h32
  | .bx6h32 => .h32
  | .bx4h32 => .h32
  | _ => .none

/-- Numbers of special registers (R171, R209). -/
def isSpecialNum (n : Nat) : Bool := Nat.ble n 0x28
/-- Numbers of control registers (R173). -/
def isControlNum (n : Nat) : Bool := Nat.ble 0x100 n && Nat.ble n 0x10F

namespace Instr

/-- The operand rules of an instruction or step. -/
def wf : Instr → Bool
  | .iadd64 _ d a b _ _ | .isub64 _ d a b _ _ | .dadd _ d a b _ _ | .dsub _ d a b _ _ | .dmul _ d a b _ _
  | .dfma _ d a b _ _ | .ddiv _ d a b _ _ | .dmin _ d a b _ _ | .dmax _ d a b _ _ =>
    aligned d 2 && aligned a 2 && aligned b 2
  | .imulw _ d _ _ _ _ => aligned d 2
  | .shl64 _ d a _ _ _ | .dsqrt _ d a _ => aligned d 2 && aligned a 2
  | .lea _ d a _ _ _ _ => aligned d 2 && aligned a 2
  | .sel _ _ _ _ p => predOk p
  | .icmp _ _ p _ _ _ | .fcmp _ _ p _ _ _ => predOk p
  | .dcmp _ _ p a b _ => predOk p && aligned a 2 && aligned b 2
  | .pand d a b | .por d a b | .pxor d a b => predOk d && predOk a && predOk b
  | .pnot d a | .voteAny d a | .voteAll d a => predOk d && predOk a
  | .voteBallot _ a | .voteCount _ a => predOk a
  | .cvt _ d a c _ => aligned d (cvtWidths c.toNat).1 && aligned a (cvtWidths c.toNat).2
  | .digits _ a ty _ | .chkd a ty _ _ => ty != .f64 || aligned a 2
  | .mean d a ty _ => ty != .f64 || (aligned d 2 && aligned a 2)
  | .sib d a ty k _ => k != 3 && (ty != .f64 || (aligned d 2 && aligned a 2))
  | .bra p sense _ | .call p sense _ => predOk p || (p == 15 && !sense)
  | .brx a | .tjoin a | .ipf a | .mld a | .mst a => aligned a 2
  | .win n => n != 31
  | .ld _ d base size _ _ => aligned base 2 && aligned d size.regs
  | .st _ d base size _ _ => aligned base 2 && aligned d size.regs && !size.isSigned
  | .lds _ d _ size _ | .ldc _ d _ size _ => aligned d size.regs
  | .sts _ d _ size _ => aligned d size.regs && !size.isSigned
  | .atom aop use d a _ => aligned a 2 && aligned d (atomWidth aop use) && atomUseOk aop use
  | .atoms aop use d _ _ => aligned d (atomWidth aop use) && atomUseOk aop use
  | .post aop use d a _ =>
    aligned a 2 && aligned d aop.regs && atomUseOk aop use && !aop.isSwap && use != .spec
  | .waitge _ a _ => aligned a 2
  | .copyG2s _ a b => aligned a 2 && aligned b 2
  | .copyS2g d _ b => aligned d 2 && aligned b 2
  | .copyG2v _ a b => aligned a 2 && aligned b 2
  | .copyS2s _ _ b => aligned b 2
  | .gath _ a b => aligned a 2 && aligned b 2
  | .mma src form d a scale q =>
    aligned d (if src = .v then 16 else 2) && aligned a 2 && (form.isBx || (scale == 0 && !q))
  | .mmag src form d a scale q =>
    aligned d (if src = .v then 16 else 2) && aligned a 4 && (form.isBx || (scale == 0 && !q))
  | .spawn a _ => aligned a 8
  | .srd _ n => isSpecialNum n.toNat || isControlNum n.toNat
  | .swr _ n => isControlNum n.toNat
  | .time d => aligned d 2
  | .leaseRecall c _ => Nat.blt c 48
  | .matrixUnitOperation c q | .throttleWindowEnd c q => Nat.blt c 384 && Nat.blt q 4
  | .taskPop _ c q => Nat.blt c 384 && Nat.blt q 4
  | .doorbell q _ _ _ _ | .launchRecord q | .barrierRecord q | .signalRecord q => Nat.blt q 64
  | .contextResume _ c => Nat.blt c 384
  | .translationKeyResolved die _ | .translationKeyDeclined die _ => Nat.blt die 4
  | .correctableError die _ _ => Nat.blt die 4
  | .collectiveSegment die => Nat.blt die 4
  | .linkTrained p | .bringupFrame p _ _ _ _ | .linkFailure p => Nat.blt p 18
  | .measurementExtend _ reg _ => Nat.ble 2 reg && Nat.blt reg 8
  | .traceBlockLoad _ die _ | .traceStatusRead _ die | .sieveCountersRead _ die _ => Nat.blt die 4
  | .sieveRun die => Nat.blt die 4
  | .breakpointSet _ _ i _ _ => Nat.blt i 4
  | .counterProgram _ c _ _ => Nat.blt c 384
  | .monitorProgram _ c i _ => Nat.blt c 384 && Nat.blt i 4
  | .stallHistogramRead _ c | .monitorSample c => Nat.blt c 384
  | _ => true

/-- Encodings that exist only at ISA level 4 (R35). -/
def level4Only : Instr → Bool
  | .win _ | .gath _ _ _ | .mmag _ _ _ _ _ _ | .spawn _ _ | .tjoin _ | .tend | .cfire | .cfireIdx _
  | .mcall _ _ _ _ => true
  | .atom _ use _ _ _ | .atoms _ use _ _ _ | .post _ use _ _ _ => use != .unp
  | .qbx _ had _ _ _ => had != .none
  | .mma _ form _ _ _ _ => form.had != .none
  | _ => false

/-- Legality in a kernel of the given level and kind (R5, R35). -/
def legalIn (level : Nat) (lane : Bool) (i : Instr) : Bool :=
  !(level == 3 && i.level4Only) && !(lane && (i = .solo || i = .trio))

/-- The steps of the machine that no operation word encodes (the rows of the opcode table that hold no fields). -/
def isStep : Instr → Bool
  | .clauseStart | .fairnessTimerExpiry | .loadComplete _ _ | .atomicPerform _ _ | .atomReturn _ _
  | .leaseRecall _ _ | .engineChunk _ _ | .matrixUnitOperation _ _ | .napEnd _ | .flightOverdue _
  | .throttleWindowEnd _ _ | .icacheFill _ | .instabilityDelivery _ | .flightRetirement _ | .doorbell _ _ _ _ _
  | .launchRecord _ | .barrierRecord _ | .signalRecord _ | .wingPlacement _ | .hallStart _ _
  | .bulkGalleryAgeing _ | .taskPop _ _ _ | .galleryCompletion _ | .preemptionRequest _
  | .preemptionWithdrawal _ | .forcedSave _ | .lightSave _ | .contextSavedReport _ | .contextResume _ _
  | .tEntryResend _ _ | .flightResume _ _ | .contextEnd _ | .translationKeyResolved _ _
  | .translationKeyDeclined _ _ | .bindingSlotResolve _ _ _ | .bindingSlotDecline _ _ | .invalidation _ _ _
  | .invalidationEffect _ | .uncorrectableError _ | .correctableError _ _ _ | .collectiveSegment _
  | .collectiveAgeing _ | .collectiveTrafficArrival _ _ _ _ _ _ _ | .collectiveRefusalAnnouncement _ _
  | .memberLost _ | .linkTrained _ | .bringupFrame _ _ _ _ _ | .linkFailure _ | .rdmaWrite _ _ _
  | .rdmaRead _ _ _ | .send _ _ | .powerOn | .clockChange _ _ | .moduleNumberWrite _ | .firmwareHandshake _
  | .measurementExtend _ _ _ | .attestationReport _ _ | .traceBlockLoad _ _ _ | .traceStatusRead _ _
  | .sieveCountersRead _ _ _ | .sessionArm _ _ | .sessionCancel _ _ | .sessionPassStart | .sessionPassEnd
  | .freeze _ _ _ | .unfreeze _ _ _ | .debugRead _ _ _ _ _ | .debugWrite _ _ _ _ _ _ | .breakpointSet _ _ _ _ _
  | .counterProgram _ _ _ _ | .monitorProgram _ _ _ _ | .stallHistogramRead _ _ | .monitorSample _
  | .sieveRun _ | .waitgePollReturn _ _ | .storeAcknowledgement _ _ | .yieldPeriodEnd _
  | .fabricWriteArrival _ _ | .fabricWriteAcknowledgement _ | .controlCoreWrite _ _ | .pcieHostWrite _ _ _
  | .arithmeticClockCycle => true
  | _ => false

end Instr

end Sys2Proof
end

