-- ==== Sys2Proof/Decode.lean ====
section
/-! DEFINITION. The decoder and the encoder of operation words (spec/01_words.md R16 to R36), the clause header (R14), and
the placement rules of a clause (R13, R15, R116). -/

namespace Sys2Proof

/-- Why a word is an illegal encoding (R12). -/
inductive DecodeError where
  /-- A major opcode with no instruction (R22). -/
  | major
  /-- A minor, sub, function, condition, size, order or use code not listed (R22 to R33). -/
  | code
  /-- A field that the instruction does not use is not zero (R17). -/
  | unused
  /-- An operand outside its range or alignment (R19, R32, R82, R97, R115). -/
  | operand
  deriving DecidableEq, Repr

namespace Dec

/-- A register field at bit lo. -/
def reg (w lo : Nat) : BitVec 7 := BitVec.ofNat 7 (w / 2 ^ lo)
/-- A one-bit field. -/
def flag (w lo : Nat) : Bool := (w / 2 ^ lo) % 2 == 1
/-- A field of n bits at bit lo. -/
def fld (n w lo : Nat) : BitVec n := BitVec.ofNat n (w / 2 ^ lo)

/-- The four conditions codes 0 to 3 of a T-format minor (R16). -/
def minor (w : Nat) : Nat := bits w 3 2

/-- Accepts an instruction where the unused bits are zero. -/
def guardZero (z : Bool) (i : Instr) : Except DecodeError Instr := if z then .ok i else .error .unused

/-- A T-format instruction with three register fields. -/
def t3 (k : Bool → BitVec 7 → BitVec 7 → BitVec 7 → Bool → Bool → Instr) (w : Nat) : Except DecodeError Instr :=
  .ok (k (flag w 25) (reg w 18) (reg w 11) (reg w 4) (flag w 1) (flag w 0))

/-- A T-format instruction with fields d and a: b and LB are zero (R17). -/
def t2 (k : Bool → BitVec 7 → BitVec 7 → Bool → Instr) (w : Nat) : Except DecodeError Instr :=
  guardZero (bits w 10 4 == 0 && !flag w 0) (k (flag w 25) (reg w 18) (reg w 11) (flag w 1))

/-- Chooses by the minor code. -/
def byMinor (w : Nat) (k0 k1 k2 k3 : Nat → Except DecodeError Instr) : Except DecodeError Instr :=
  match minor w with
  | 0 => k0 w
  | 1 => k1 w
  | 2 => k2 w
  | _ => k3 w

/-- ICMP conditions (R27). -/
def intCond : Nat → Option IntCond
  | 0 => some .eq | 1 => some .ne | 2 => some .lt | 3 => some .le | 4 => some .gt
  | 5 => some .ge | 6 => some .lo | 7 => some .ls | 8 => some .hi | 9 => some .hs
  | _ => none
/-- FCMP and DCMP conditions (R27). -/
def fltCond : Nat → Option FltCond
  | 0 => some .eq | 1 => some .ne | 2 => some .lt | 3 => some .le
  | 4 => some .gt | 5 => some .ge | 6 => some .ord | 7 => some .uno
  | _ => none
/-- Combining modes (R27). -/
def combMode : Nat → Option CombMode
  | 0 => some .set | 1 => some .and | 2 => some .or
  | _ => none
/-- Types of major 0x1D (R26). -/
def sibType : Nat → SibType
  | 0 => .f32 | 1 => .f64 | 2 => .f16
  | _ => .bf16
/-- Block formats (R33). -/
def bxFmt : Nat → Option BxFmt
  | 0 => some .bx8 | 1 => some .bx6 | 2 => some .bx4
  | _ => none
/-- Hadamard options (R33). -/
def hadamard : Nat → Option Hadamard
  | 0 => some .none | 1 => some .h16 | 2 => some .h32
  | _ => none
/-- MMA forms (R33). -/
def mmaForm : Nat → Option MmaForm
  | 0 => some .bx8 | 1 => some .bx8h16 | 2 => some .bx8h32 | 3 => some .bx6 | 4 => some .bx6h16 | 5 => some .bx6h32
  | 6 => some .bx4 | 7 => some .bx4h16 | 8 => some .bx4h32 | 9 => some .f16 | 10 => some .bf16 | 11 => some .f32
  | _ => none
/-- Access sizes (R30). -/
def memSize : Nat → Option MemSize
  | 0 => some .b8 | 1 => some .b16 | 2 => some .b32 | 3 => some .b64 | 4 => some .b128 | 5 => some .s8 | 6 => some .s16
  | _ => none
/-- Orders of LD and ST (R30). -/
def memOrder : Nat → Option MemOrder
  | 0 => some .plain | 1 => some .sync | 2 => some .str
  | _ => none
/-- Atomic operations (R31). -/
def atomOp : Nat → AtomOp
  | 0 => .add32 | 1 => .add64 | 2 => .smin32 | 3 => .smax32 | 4 => .umin32 | 5 => .umax32 | 6 => .and32 | 7 => .or32
  | 8 => .xor32 | 9 => .exch32 | 10 => .exch64 | 11 => .cas32 | 12 => .cas64 | 13 => .fadd32 | 14 => .fmin32
  | _ => .fmax32
/-- Atomic uses (R31). -/
def atomUse : Nat → Option AtomUse
  | 0 => some .unp | 1 => some .comm | 2 => some .nord | 3 => some .quant | 4 => some .spec
  | _ => none

/-- Turns an absent code into a rejection. -/
def code {α : Type} (x : Option α) (k : α → Except DecodeError Instr) : Except DecodeError Instr :=
  match x with
  | some v => k v
  | none => .error .code

/-- A compare word (R27). -/
def cmp {γ : Type} (cond : Nat → Option γ) (k : Bool → CombMode → BitVec 4 → BitVec 7 → BitVec 7 → γ → Instr)
    (w : Nat) : Except DecodeError Instr :=
  code (combMode (bits w 24 22)) fun m => code (cond (bits w 3 0)) fun c =>
    .ok (k (flag w 25) m (fld 4 w 18) (reg w 11) (reg w 4) c)

/-- An I-format word (R16, R28). -/
def immI (k : Bool → BitVec 7 → BitVec 7 → BitVec 10 → Bool → Instr) (w : Nat) : Except DecodeError Instr :=
  .ok (k (flag w 25) (reg w 18) (reg w 11) (fld 10 w 1) (flag w 0))

/-- A SHIFTI word (R28). -/
def shiftI (w : Nat) : Except DecodeError Instr :=
  let k := match bits w 10 9 with
    | 0 => Instr.shli | 1 => Instr.shri | 2 => Instr.sari | _ => Instr.roli
  guardZero (bits w 8 6 == 0) (k (flag w 25) (reg w 18) (reg w 11) (fld 5 w 1) (flag w 0))

/-- A function word of major 0x18 (R24). -/
def funcs (w : Nat) : Except DecodeError Instr :=
  let k : Option (Bool → BitVec 7 → BitVec 7 → Bool → Instr) := match bits w 10 4 with
    | 0 => some .fsqrt | 1 => some .frcp | 2 => some .frsq | 3 => some .fexp2 | 4 => some .flog2 | 5 => some .fsin
    | 6 => some .fcos | 7 => some .fabs | 8 => some .fneg | 9 => some .ffloor | 10 => some .fceil | 11 => some .ftrunc
    | 12 => some .frint
    | _ => none
  code k fun k => guardZero (minor w == 0 && !flag w 0) (k (flag w 25) (reg w 18) (reg w 11) (flag w 1))

/-- A word of major 0x1D (R26). -/
def sibs (w : Nat) : Except DecodeError Instr :=
  let d := reg w 18; let a := reg w 11; let ty := sibType (bits w 10 9); let la := flag w 1
  if flag w 25 || flag w 0 then .error .unused
  else match minor w with
    | 0 => guardZero (bits w 8 4 == 0) (.digits d a ty la)
    | 1 => if Nat.blt 2 (bits w 8 4) then .error .operand else .ok (.sib d a ty (fld 2 w 4) la)
    | 2 => guardZero (bits w 8 4 == 0) (.mean d a ty la)
    | _ => guardZero (bits w 24 18 == 0) (.chkd a ty (fld 5 w 4) la)

/-- A predicate field: bits [6:4] of the field are zero (R23). -/
def predHi (w lo : Nat) : Bool := bits w (lo + 6) (lo + 4) == 0

/-- A word of major 0x0C (R92). -/
def preds (w : Nat) : Except DecodeError Instr :=
  let z := !flag w 25 && !flag w 1 && !flag w 0 && predHi w 18 && predHi w 11
  let d := fld 4 w 18; let a := fld 4 w 11; let b := fld 4 w 4
  match minor w with
  | 0 => guardZero (z && predHi w 4) (.pand d a b)
  | 1 => guardZero (z && predHi w 4) (.por d a b)
  | 2 => guardZero (z && predHi w 4) (.pxor d a b)
  | _ => guardZero (z && bits w 10 4 == 0) (.pnot d a)

/-- A word of major 0x21 (R125). -/
def votes (w : Nat) : Except DecodeError Instr :=
  let z := !flag w 25 && !flag w 1 && !flag w 0 && predHi w 11 && bits w 10 4 == 0
  let a := fld 4 w 11
  match minor w with
  | 0 => guardZero (z && predHi w 18) (.voteAny (fld 4 w 18) a)
  | 1 => guardZero (z && predHi w 18) (.voteAll (fld 4 w 18) a)
  | 2 => guardZero z (.voteBallot (reg w 18) a)
  | _ => guardZero z (.voteCount (reg w 18) a)

/-- A word of major 0x20 (R124): U is zero. -/
def shfls (w : Nat) : Except DecodeError Instr :=
  let k := match minor w with
    | 0 => Instr.shflIdx | 1 => Instr.shflUp | 2 => Instr.shflDn | _ => Instr.shflXor
  guardZero (!flag w 25) (k (reg w 18) (reg w 11) (reg w 4) (flag w 1) (flag w 0))

/-- A word of major 0x22 (R126): U and b are zero. -/
def reduces (w : Nat) : Except DecodeError Instr :=
  let k := match minor w with
    | 0 => Instr.xadd | 1 => Instr.xmin | 2 => Instr.xmax | _ => Instr.xscan
  guardZero (!flag w 25 && bits w 10 4 == 0 && !flag w 0) (k (reg w 18) (reg w 11) (flag w 1))

/-- A word of major 0x07 (R87). -/
def moves (w : Nat) : Except DecodeError Instr :=
  match minor w with
  | 0 => t2 .mov w
  | 1 => guardZero (!flag w 25 && bits w 17 4 == 0 && bits w 1 0 == 0) (.movp (reg w 18))
  | 2 => guardZero (!flag w 25 && bits w 24 18 == 0 && bits w 10 4 == 0 && !flag w 0) (.pmov (reg w 11) (flag w 1))
  | _ => t3 .bfi w

/-- An LD or ST word (R30). -/
def memG (k : Bool → BitVec 7 → BitVec 7 → MemSize → MemOrder → BitVec 6 → Instr) (w : Nat) :
    Except DecodeError Instr :=
  code (memSize (bits w 10 8)) fun s => code (memOrder (bits w 7 6)) fun o =>
    .ok (k (flag w 25) (reg w 18) (reg w 11) s o (fld 6 w 0))

/-- An LDS, STS or LDC word: order 0 only (R30). -/
def memS (k : Bool → BitVec 7 → BitVec 7 → MemSize → BitVec 6 → Instr) (w : Nat) : Except DecodeError Instr :=
  code (memSize (bits w 10 8)) fun s =>
    if bits w 7 6 == 0 then .ok (k (flag w 25) (reg w 18) (reg w 11) s (fld 6 w 0)) else .error .code

/-- An A-format word (R31). -/
def atomics (k : AtomOp → AtomUse → BitVec 7 → BitVec 7 → BitVec 5 → Instr) (w : Nat) : Except DecodeError Instr :=
  code (atomUse (bits w 21 19)) fun u => .ok (k (atomOp (bits w 25 22)) u (reg w 12) (reg w 5) (fld 5 w 0))

/-- X-format fields d, a, b are zero where named. -/
def xz (w : Nat) (d a b : Bool) : Bool :=
  (!d || bits w 20 14 == 0) && (!a || bits w 13 7 == 0) && (!b || bits w 6 0 == 0)

/-- A QBX or DQBX word (R33). -/
def qbxs (w : Nat) : Except DecodeError Instr :=
  code (bxFmt (bits w 24 23)) fun f => code (hadamard (bits w 22 21)) fun h =>
    if flag w 25 then
      (if h = .none then .ok (.dqbx f (reg w 14) (reg w 7) (reg w 0)) else .error .code)
    else .ok (.qbx f h (reg w 14) (reg w 7) (reg w 0))

/-- An MMA or MMAG word (R33). -/
def mmas (k : ASource → MmaForm → BitVec 7 → BitVec 7 → BitVec 5 → Bool → Instr) (w : Nat) :
    Except DecodeError Instr :=
  code (mmaForm (bits w 24 21)) fun f =>
    guardZero (!flag w 1) (k (if flag w 25 then .s else .v) f (reg w 14) (reg w 7) (fld 5 w 2) (flag w 0))

/-- A word of majors 0x25 and 0x26 (R32). -/
def controls (maj w : Nat) : Except DecodeError Instr :=
  match maj, bits w 25 21 with
  | 0x25, 0 => guardZero (xz w true false true) (.brx (reg w 7))
  | 0x25, 1 => guardZero (xz w true true true) .ret
  | 0x26, 0 => guardZero (xz w true true true) .exit
  | 0x26, 1 => guardZero (xz w true true true) .yield
  | 0x26, 2 => guardZero (xz w true true false) (.nap (reg w 0))
  | 0x26, 3 => guardZero (xz w true true false && bits w 6 5 == 0) (.win (fld 5 w 0))
  | _, _ => .error .code

/-- A word of major 0x2F (R32). -/
def syncs (w : Nat) : Except DecodeError Instr :=
  match bits w 25 21 with
  | 0 => guardZero (xz w true true false && bits w 6 5 == 0) (.phase (fld 5 w 0))
  | 1 => guardZero (xz w true true true) .bar
  | 2 => guardZero (xz w true false true) (.arrive (reg w 7))
  | 3 => guardZero (xz w true false false) (.await (reg w 7) (reg w 0))
  | 4 => guardZero (bits w 20 19 == 0) (.waitge (fld 5 w 14) (reg w 7) (reg w 0))
  | _ => .error .code

/-- A word of majors 0x30 and 0x31 (R32). -/
def copies (maj w : Nat) : Except DecodeError Instr :=
  let d := reg w 14; let a := reg w 7; let b := reg w 0
  match maj, bits w 25 21 with
  | 0x30, 0 => .ok (.copyG2s d a b)
  | 0x30, 1 => .ok (.copyS2g d a b)
  | 0x30, 2 => .ok (.copyG2v d a b)
  | 0x30, 3 => .ok (.copyS2s d a b)
  | 0x31, 0 => .ok (.gath d a b)
  | _, _ => .error .code

/-- A word of majors 0x34 to 0x36 (R32). -/
def engines (maj w : Nat) : Except DecodeError Instr :=
  match maj, bits w 25 21 with
  | 0x34, 0 => guardZero (xz w true true true) .mzero
  | 0x34, 1 => guardZero (xz w true false true) (.mld (reg w 7))
  | 0x34, 2 => guardZero (xz w true false true) (.mst (reg w 7))
  | 0x34, 3 => guardZero (xz w true true true) .mfree
  | 0x35, 0 =>
    if Nat.blt 7 (bits w 6 0) then .error .operand else guardZero (xz w true false false) (.spawn (reg w 7) (fld 3 w 0))
  | 0x35, 1 => guardZero (xz w true false true) (.tjoin (reg w 7))
  | 0x35, 2 => guardZero (xz w true true true) .tend
  | 0x36, 0 => guardZero (xz w true true true) .cfire
  | 0x36, 1 => guardZero (xz w true false true) (.cfireIdx (reg w 7))
  | _, _ => .error .code

/-- A word of major 0x38 (R32). -/
def systems (w : Nat) : Except DecodeError Instr :=
  match bits w 25 21 with
  | 0 => .ok (.srd (reg w 14) (fld 14 w 0))
  | 1 => .ok (.swr (reg w 14) (fld 14 w 0))
  | 2 => guardZero (xz w true true false) (.trap (reg w 0))
  | 3 => guardZero (xz w true true false) (.bkpt (reg w 0))
  | 4 => guardZero (xz w true false false) (.trc (reg w 7) (reg w 0))
  | 5 => guardZero (xz w false true true) (.time (reg w 14))
  | 6 => guardZero (xz w false true true) (.preq (reg w 14))
  | 7 => guardZero (xz w true true true) .pyield
  | 8 => guardZero (xz w true false true) (.ipf (reg w 7))
  | _ => .error .code

/-- The fields of a word, before the operand rules (R22). -/
def fields (w : Nat) : Except DecodeError Instr :=
  match bits w 31 26 with
  | 0x01 => byMinor w (t3 .iadd) (t3 .isub) (t3 .imin) (t3 .imax)
  | 0x02 => byMinor w (t3 .imul) (t3 .imulh) (t3 .imulhu) (t3 .imad)
  | 0x03 => byMinor w (t3 .iaddmin) (t3 .iaddmax) (t3 .iabsd) (t3 .iminu)
  | 0x04 => byMinor w (t3 .andR) (t3 .orR) (t3 .xorR) (t3 .andn)
  | 0x05 => byMinor w (t3 .shl) (t3 .shr) (t3 .sar) (t3 .rol)
  | 0x06 => byMinor w (t2 .popc) (t2 .clz) (t2 .brev) (t3 .bfx)
  | 0x07 => moves w
  | 0x08 => .ok (.sel (flag w 25) (reg w 18) (reg w 11) (reg w 4) (fld 4 w 0))
  | 0x09 => cmp intCond .icmp w
  | 0x0A => cmp fltCond .fcmp w
  | 0x0B => cmp fltCond .dcmp w
  | 0x0C => preds w
  | 0x0D => .ok (.lea (flag w 25) (reg w 18) (reg w 11) (reg w 4) (fld 2 w 2) (flag w 1) (flag w 0))
  | 0x0E => byMinor w (t3 .iadd64) (t3 .isub64) (t3 .imulw) (t3 .shl64)
  | 0x0F => immI .iaddi w
  | 0x10 => immI .andi w
  | 0x11 => immI .ori w
  | 0x12 => immI .xori w
  | 0x13 => shiftI w
  | 0x14 => .ok (.movi (flag w 25) (reg w 18) (fld 18 w 0))
  | 0x15 => guardZero (bits w 17 14 == 0) (.movh (flag w 25) (reg w 18) (fld 14 w 0))
  | 0x16 => byMinor w (t3 .fadd) (t3 .fsub) (t3 .fmul) (t3 .fmin)
  | 0x17 => byMinor w (t3 .fmax) (t3 .ffma) (t3 .ffms) (t3 .fdiv)
  | 0x18 => funcs w
  | 0x19 => byMinor w (t3 .dadd) (t3 .dsub) (t3 .dmul) (t3 .dfma)
  | 0x1A => byMinor w (t3 .ddiv) (t2 .dsqrt) (t3 .dmin) (t3 .dmax)
  | 0x1B => byMinor w (t3 .hadd2) (t3 .hmul2) (t3 .hfma2) (t3 .bfma2)
  | 0x1C =>
    if Nat.blt 31 (bits w 10 4) then .error .code
    else guardZero (minor w == 0 && !flag w 0) (.cvt (flag w 25) (reg w 18) (reg w 11) (fld 5 w 4) (flag w 1))
  | 0x1D => sibs w
  | 0x1E =>
    match bits w 25 21 with
    | 0 => guardZero (xz w true true true) .solo
    | 1 => guardZero (xz w true true true) .trio
    | _ => .error .code
  | 0x1F => qbxs w
  | 0x20 => shfls w
  | 0x21 => votes w
  | 0x22 => reduces w
  | 0x23 => .ok (.bra (fld 4 w 22) (flag w 21) (fld 21 w 0))
  | 0x24 => .ok (.call (fld 4 w 22) (flag w 21) (fld 21 w 0))
  | 0x25 => controls 0x25 w
  | 0x26 => controls 0x26 w
  | 0x27 => memG .ld w
  | 0x28 => memG .st w
  | 0x29 => memS .lds w
  | 0x2A => memS .sts w
  | 0x2B => memS .ldc w
  | 0x2C => atomics .atom w
  | 0x2D => atomics .atoms w
  | 0x2E => atomics .post w
  | 0x2F => syncs w
  | 0x30 => copies 0x30 w
  | 0x31 => copies 0x31 w
  | 0x32 => mmas .mma w
  | 0x33 => mmas .mmag w
  | 0x34 => engines 0x34 w
  | 0x35 => engines 0x35 w
  | 0x36 => engines 0x36 w
  | 0x37 => .ok (.mcall (fld 6 w 20) (reg w 13) (reg w 6) (fld 6 w 0))
  | 0x38 => systems w
  | _ => .error .major

end Dec

/-- The instruction of an operation word, at level 4 and in a kernel of either kind, or why the word is illegal. -/
def decodeWord (w : Nat) : Except DecodeError Instr :=
  match Dec.fields w with
  | .ok i => if i.wf then .ok i else .error .operand
  | .error e => .error e

/-- Decoding a word in a kernel of a level and kind (R12, R35, R297). -/
def decodeIn (level : Nat) (lane : Bool) (w : Word) : Except DecodeError Instr :=
  match decodeWord w.toNat with
  | .ok i => if i.legalIn level lane then .ok i else .error .code
  | .error e => .error e

/-- The instruction that the decoder reads from the bytes of a word, in memory order (R10). -/
def decodeBytes (b : List Byte) : Option Instr :=
  match b with
  | b0 :: b1 :: b2 :: b3 :: _ =>
    match decodeWord (b0.toNat + 2 ^ 8 * b1.toNat + 2 ^ 16 * b2.toNat + 2 ^ 24 * b3.toNat) with
    | .ok i => some i
    | .error _ => none
  | _ => none

/-- The bytes of a number in memory order. -/
def bytesLE : Nat → Nat → List Byte
  | 0, _ => []
  | n + 1, w => BitVec.ofNat 8 w :: bytesLE n (w / 2 ^ 8)

/-- The instruction read from an instruction whose bits are w, numbered as the opcode table numbers them. -/
def decodeTableWord (nbits w : Nat) : Option Instr := decodeBytes (bytesLE 4 (w % 2 ^ nbits))

namespace Enc

/-- A Bool as a bit. -/
def bit (b : Bool) : Nat := if b then 1 else 0

/-- A T-format word (R82). -/
def t (maj mn : Nat) (u : Bool) (d a b : BitVec 7) (la lb : Bool) : Nat :=
  maj * 2 ^ 26 + bit u * 2 ^ 25 + d.toNat * 2 ^ 18 + a.toNat * 2 ^ 11 + b.toNat * 2 ^ 4 + mn * 2 ^ 2 + bit la * 2 + bit lb

/-- A T-format word whose b field holds a number (R24 to R26). -/
def tn (maj mn : Nat) (u : Bool) (d a : BitVec 7) (b : Nat) (la : Bool) : Nat :=
  maj * 2 ^ 26 + bit u * 2 ^ 25 + d.toNat * 2 ^ 18 + a.toNat * 2 ^ 11 + b * 2 ^ 4 + mn * 2 ^ 2 + bit la * 2

/-- A TP-format word whose d field holds a number (R27). -/
def tp (maj : Nat) (u : Bool) (d : Nat) (a b : BitVec 7) (code : Nat) : Nat :=
  maj * 2 ^ 26 + bit u * 2 ^ 25 + d * 2 ^ 18 + a.toNat * 2 ^ 11 + b.toNat * 2 ^ 4 + code

/-- An I-format word (R16). -/
def i (maj : Nat) (u : Bool) (d a : BitVec 7) (imm : Nat) (la : Bool) : Nat :=
  maj * 2 ^ 26 + bit u * 2 ^ 25 + d.toNat * 2 ^ 18 + a.toNat * 2 ^ 11 + imm * 2 + bit la

/-- A word of majors 0x0C and 0x21, with numbers in the fields. -/
def p (maj mn d a b : Nat) : Nat := maj * 2 ^ 26 + d * 2 ^ 18 + a * 2 ^ 11 + b * 2 ^ 4 + mn * 2 ^ 2

/-- A B-format word (R117). -/
def b (maj : Nat) (pr : BitVec 4) (sense : Bool) (off : BitVec 21) : Nat :=
  maj * 2 ^ 26 + pr.toNat * 2 ^ 22 + bit sense * 2 ^ 21 + off.toNat

/-- An M-format word (R16). -/
def m (maj : Nat) (u : Bool) (d base : BitVec 7) (size order : Nat) (off : BitVec 6) : Nat :=
  maj * 2 ^ 26 + bit u * 2 ^ 25 + d.toNat * 2 ^ 18 + base.toNat * 2 ^ 11 + size * 2 ^ 8 + order * 2 ^ 6 + off.toNat

/-- An A-format word (R134). -/
def a (maj aop use : Nat) (d ra : BitVec 7) (off : BitVec 5) : Nat :=
  maj * 2 ^ 26 + aop * 2 ^ 22 + use * 2 ^ 19 + d.toNat * 2 ^ 12 + ra.toNat * 2 ^ 5 + off.toNat

/-- An X-format word (R97). -/
def x (maj sub d ra rb : Nat) : Nat := maj * 2 ^ 26 + sub * 2 ^ 21 + d * 2 ^ 14 + ra * 2 ^ 7 + rb

/-- A W-format word (R16). -/
def i0 (maj : Nat) (u : Bool) (d : BitVec 7) (imm : Nat) : Nat :=
  maj * 2 ^ 26 + bit u * 2 ^ 25 + d.toNat * 2 ^ 18 + imm

/-- An SRD or SWR word: the 14-bit register number stands in fields a and b (R170). -/
def xn (sub : Nat) (d : BitVec 7) (num : BitVec 14) : Nat := 56 * 2 ^ 26 + sub * 2 ^ 21 + d.toNat * 2 ^ 14 + num.toNat

/-- An MCALL word (R169). -/
def c (mac : BitVec 6) (p0 p1 : BitVec 7) (p2 : BitVec 6) : Nat :=
  55 * 2 ^ 26 + mac.toNat * 2 ^ 20 + p0.toNat * 2 ^ 13 + p1.toNat * 2 ^ 6 + p2.toNat

/-- The code of a combining mode. -/
def combMode : CombMode → Nat
  | .set => 0 | .and => 1 | .or => 2
/-- The code of an integer condition. -/
def intCond : IntCond → Nat
  | .eq => 0 | .ne => 1 | .lt => 2 | .le => 3 | .gt => 4 | .ge => 5 | .lo => 6 | .ls => 7 | .hi => 8 | .hs => 9
/-- The code of a floating condition. -/
def fltCond : FltCond → Nat
  | .eq => 0 | .ne => 1 | .lt => 2 | .le => 3 | .gt => 4 | .ge => 5 | .ord => 6 | .uno => 7
/-- The code of a type of major 0x1D. -/
def sibType : SibType → Nat
  | .f32 => 0 | .f64 => 1 | .f16 => 2 | .bf16 => 3
/-- The code of a block format. -/
def bxFmt : BxFmt → Nat
  | .bx8 => 0 | .bx6 => 1 | .bx4 => 2
/-- The code of a Hadamard option. -/
def hadamard : Hadamard → Nat
  | .none => 0 | .h16 => 1 | .h32 => 2
/-- The code of an MMA form. -/
def mmaForm : MmaForm → Nat
  | .bx8 => 0 | .bx8h16 => 1 | .bx8h32 => 2 | .bx6 => 3 | .bx6h16 => 4 | .bx6h32 => 5 | .bx4 => 6 | .bx4h16 => 7
  | .bx4h32 => 8 | .f16 => 9 | .bf16 => 10 | .f32 => 11
/-- The code of an access size. -/
def memSize : MemSize → Nat
  | .b8 => 0 | .b16 => 1 | .b32 => 2 | .b64 => 3 | .b128 => 4 | .s8 => 5 | .s16 => 6
/-- The code of an order. -/
def memOrder : MemOrder → Nat
  | .plain => 0 | .sync => 1 | .str => 2
/-- The code of an atomic operation. -/
def atomOp : AtomOp → Nat
  | .add32 => 0 | .add64 => 1 | .smin32 => 2 | .smax32 => 3 | .umin32 => 4 | .umax32 => 5 | .and32 => 6 | .or32 => 7
  | .xor32 => 8 | .exch32 => 9 | .exch64 => 10 | .cas32 => 11 | .cas64 => 12 | .fadd32 => 13 | .fmin32 => 14
  | .fmax32 => 15
/-- The code of an atomic use. -/
def atomUse : AtomUse → Nat
  | .unp => 0 | .comm => 1 | .nord => 2 | .quant => 3 | .spec => 4
/-- A field of format M, A or X as a number. -/
def r (f : BitVec 7) : Nat := f.toNat
/-- The source bit of MMA, above the form. -/
def src : ASource → Nat
  | .v => 0 | .s => 16

end Enc

/-- The word of a well-formed operation (R16 to R36); none for the steps that no word encodes. -/
def encode : Instr → Option Nat
  | .iadd u d a b la lb => some (Enc.t 1 0 u d a b la lb)
  | .isub u d a b la lb => some (Enc.t 1 1 u d a b la lb)
  | .imin u d a b la lb => some (Enc.t 1 2 u d a b la lb)
  | .imax u d a b la lb => some (Enc.t 1 3 u d a b la lb)
  | .imul u d a b la lb => some (Enc.t 2 0 u d a b la lb)
  | .imulh u d a b la lb => some (Enc.t 2 1 u d a b la lb)
  | .imulhu u d a b la lb => some (Enc.t 2 2 u d a b la lb)
  | .imad u d a b la lb => some (Enc.t 2 3 u d a b la lb)
  | .iaddmin u d a b la lb => some (Enc.t 3 0 u d a b la lb)
  | .iaddmax u d a b la lb => some (Enc.t 3 1 u d a b la lb)
  | .iabsd u d a b la lb => some (Enc.t 3 2 u d a b la lb)
  | .iminu u d a b la lb => some (Enc.t 3 3 u d a b la lb)
  | .andR u d a b la lb => some (Enc.t 4 0 u d a b la lb)
  | .orR u d a b la lb => some (Enc.t 4 1 u d a b la lb)
  | .xorR u d a b la lb => some (Enc.t 4 2 u d a b la lb)
  | .andn u d a b la lb => some (Enc.t 4 3 u d a b la lb)
  | .shl u d a b la lb => some (Enc.t 5 0 u d a b la lb)
  | .shr u d a b la lb => some (Enc.t 5 1 u d a b la lb)
  | .sar u d a b la lb => some (Enc.t 5 2 u d a b la lb)
  | .rol u d a b la lb => some (Enc.t 5 3 u d a b la lb)
  | .popc u d a la => some (Enc.tn 6 0 u d a 0 la)
  | .clz u d a la => some (Enc.tn 6 1 u d a 0 la)
  | .brev u d a la => some (Enc.tn 6 2 u d a 0 la)
  | .bfx u d a b la lb => some (Enc.t 6 3 u d a b la lb)
  | .mov u d a la => some (Enc.tn 7 0 u d a 0 la)
  | .movp d => some (Enc.t 7 1 false d 0 0 false false)
  | .pmov a la => some (Enc.t 7 2 false 0 a 0 la false)
  | .bfi u d a b la lb => some (Enc.t 7 3 u d a b la lb)
  | .sel u d a b p => some (Enc.tp 8 u d.toNat a b p.toNat)
  | .icmp u m p a b c => some (Enc.tp 9 u (Enc.combMode m * 16 + p.toNat) a b (Enc.intCond c))
  | .fcmp u m p a b c => some (Enc.tp 10 u (Enc.combMode m * 16 + p.toNat) a b (Enc.fltCond c))
  | .dcmp u m p a b c => some (Enc.tp 11 u (Enc.combMode m * 16 + p.toNat) a b (Enc.fltCond c))
  | .pand d a b => some (Enc.p 12 0 d.toNat a.toNat b.toNat)
  | .por d a b => some (Enc.p 12 1 d.toNat a.toNat b.toNat)
  | .pxor d a b => some (Enc.p 12 2 d.toNat a.toNat b.toNat)
  | .pnot d a => some (Enc.p 12 3 d.toNat a.toNat 0)
  | .lea u d a b sh la lb => some (Enc.t 13 sh.toNat u d a b la lb)
  | .iadd64 u d a b la lb => some (Enc.t 14 0 u d a b la lb)
  | .isub64 u d a b la lb => some (Enc.t 14 1 u d a b la lb)
  | .imulw u d a b la lb => some (Enc.t 14 2 u d a b la lb)
  | .shl64 u d a b la lb => some (Enc.t 14 3 u d a b la lb)
  | .iaddi u d a n la => some (Enc.i 15 u d a n.toNat la)
  | .andi u d a n la => some (Enc.i 16 u d a n.toNat la)
  | .ori u d a n la => some (Enc.i 17 u d a n.toNat la)
  | .xori u d a n la => some (Enc.i 18 u d a n.toNat la)
  | .shli u d a n la => some (Enc.i 19 u d a (0 + n.toNat) la)
  | .shri u d a n la => some (Enc.i 19 u d a (256 + n.toNat) la)
  | .sari u d a n la => some (Enc.i 19 u d a (512 + n.toNat) la)
  | .roli u d a n la => some (Enc.i 19 u d a (768 + n.toNat) la)
  | .movi u d n => some (Enc.i0 20 u d n.toNat)
  | .movh u d n => some (Enc.i0 21 u d n.toNat)
  | .fadd u d a b la lb => some (Enc.t 22 0 u d a b la lb)
  | .fsub u d a b la lb => some (Enc.t 22 1 u d a b la lb)
  | .fmul u d a b la lb => some (Enc.t 22 2 u d a b la lb)
  | .fmin u d a b la lb => some (Enc.t 22 3 u d a b la lb)
  | .fmax u d a b la lb => some (Enc.t 23 0 u d a b la lb)
  | .ffma u d a b la lb => some (Enc.t 23 1 u d a b la lb)
  | .ffms u d a b la lb => some (Enc.t 23 2 u d a b la lb)
  | .fdiv u d a b la lb => some (Enc.t 23 3 u d a b la lb)
  | .fsqrt u d a la => some (Enc.tn 24 0 u d a 0 la)
  | .frcp u d a la => some (Enc.tn 24 0 u d a 1 la)
  | .frsq u d a la => some (Enc.tn 24 0 u d a 2 la)
  | .fexp2 u d a la => some (Enc.tn 24 0 u d a 3 la)
  | .flog2 u d a la => some (Enc.tn 24 0 u d a 4 la)
  | .fsin u d a la => some (Enc.tn 24 0 u d a 5 la)
  | .fcos u d a la => some (Enc.tn 24 0 u d a 6 la)
  | .fabs u d a la => some (Enc.tn 24 0 u d a 7 la)
  | .fneg u d a la => some (Enc.tn 24 0 u d a 8 la)
  | .ffloor u d a la => some (Enc.tn 24 0 u d a 9 la)
  | .fceil u d a la => some (Enc.tn 24 0 u d a 10 la)
  | .ftrunc u d a la => some (Enc.tn 24 0 u d a 11 la)
  | .frint u d a la => some (Enc.tn 24 0 u d a 12 la)
  | .dadd u d a b la lb => some (Enc.t 25 0 u d a b la lb)
  | .dsub u d a b la lb => some (Enc.t 25 1 u d a b la lb)
  | .dmul u d a b la lb => some (Enc.t 25 2 u d a b la lb)
  | .dfma u d a b la lb => some (Enc.t 25 3 u d a b la lb)
  | .ddiv u d a b la lb => some (Enc.t 26 0 u d a b la lb)
  | .dsqrt u d a la => some (Enc.tn 26 1 u d a 0 la)
  | .dmin u d a b la lb => some (Enc.t 26 2 u d a b la lb)
  | .dmax u d a b la lb => some (Enc.t 26 3 u d a b la lb)
  | .hadd2 u d a b la lb => some (Enc.t 27 0 u d a b la lb)
  | .hmul2 u d a b la lb => some (Enc.t 27 1 u d a b la lb)
  | .hfma2 u d a b la lb => some (Enc.t 27 2 u d a b la lb)
  | .bfma2 u d a b la lb => some (Enc.t 27 3 u d a b la lb)
  | .cvt u d a c la => some (Enc.tn 28 0 u d a c.toNat la)
  | .digits d a ty la => some (Enc.tn 29 0 false d a (Enc.sibType ty * 32) la)
  | .sib d a ty k la => some (Enc.tn 29 1 false d a (Enc.sibType ty * 32 + k.toNat) la)
  | .mean d a ty la => some (Enc.tn 29 2 false d a (Enc.sibType ty * 32) la)
  | .chkd a ty c la => some (Enc.tn 29 3 false 0 a (Enc.sibType ty * 32 + c.toNat) la)
  | .solo => some (Enc.x 30 0 0 0 0)
  | .trio => some (Enc.x 30 1 0 0 0)
  | .qbx f h d a b => some (Enc.x 31 (Enc.bxFmt f * 4 + Enc.hadamard h) d.toNat a.toNat b.toNat)
  | .dqbx f d a b => some (Enc.x 31 (16 + Enc.bxFmt f * 4) d.toNat a.toNat b.toNat)
  | .shflIdx d a b la lb => some (Enc.t 32 0 false d a b la lb)
  | .shflUp d a b la lb => some (Enc.t 32 1 false d a b la lb)
  | .shflDn d a b la lb => some (Enc.t 32 2 false d a b la lb)
  | .shflXor d a b la lb => some (Enc.t 32 3 false d a b la lb)
  | .voteAny d a => some (Enc.p 33 0 d.toNat a.toNat 0)
  | .voteAll d a => some (Enc.p 33 1 d.toNat a.toNat 0)
  | .voteBallot d a => some (Enc.p 33 2 d.toNat a.toNat 0)
  | .voteCount d a => some (Enc.p 33 3 d.toNat a.toNat 0)
  | .xadd d a la => some (Enc.tn 34 0 false d a 0 la)
  | .xmin d a la => some (Enc.tn 34 1 false d a 0 la)
  | .xmax d a la => some (Enc.tn 34 2 false d a 0 la)
  | .xscan d a la => some (Enc.tn 34 3 false d a 0 la)
  | .bra p s o => some (Enc.b 35 p s o)
  | .call p s o => some (Enc.b 36 p s o)
  | .brx a => some (Enc.x 37 0 0 a.toNat 0)
  | .ret => some (Enc.x 37 1 0 0 0)
  | .exit => some (Enc.x 38 0 0 0 0)
  | .yield => some (Enc.x 38 1 0 0 0)
  | .nap n => some (Enc.x 38 2 0 0 n.toNat)
  | .win n => some (Enc.x 38 3 0 0 n.toNat)
  | .ld u d base s o off => some (Enc.m 39 u d base (Enc.memSize s) (Enc.memOrder o) off)
  | .st u d base s o off => some (Enc.m 40 u d base (Enc.memSize s) (Enc.memOrder o) off)
  | .lds u d base s off => some (Enc.m 41 u d base (Enc.memSize s) 0 off)
  | .sts u d base s off => some (Enc.m 42 u d base (Enc.memSize s) 0 off)
  | .ldc u d base s off => some (Enc.m 43 u d base (Enc.memSize s) 0 off)
  | .atom op us d a off => some (Enc.a 44 (Enc.atomOp op) (Enc.atomUse us) d a off)
  | .atoms op us d a off => some (Enc.a 45 (Enc.atomOp op) (Enc.atomUse us) d a off)
  | .post op us d a off => some (Enc.a 46 (Enc.atomOp op) (Enc.atomUse us) d a off)
  | .phase n => some (Enc.x 47 0 0 0 n.toNat)
  | .bar => some (Enc.x 47 1 0 0 0)
  | .arrive a => some (Enc.x 47 2 0 a.toNat 0)
  | .await a b => some (Enc.x 47 3 0 a.toNat b.toNat)
  | .waitge n a b => some (Enc.x 47 4 n.toNat a.toNat b.toNat)
  | .copyG2s d a b => some (Enc.x 48 0 d.toNat a.toNat b.toNat)
  | .copyS2g d a b => some (Enc.x 48 1 d.toNat a.toNat b.toNat)
  | .copyG2v d a b => some (Enc.x 48 2 d.toNat a.toNat b.toNat)
  | .copyS2s d a b => some (Enc.x 48 3 d.toNat a.toNat b.toNat)
  | .gath d a b => some (Enc.x 49 0 d.toNat a.toNat b.toNat)
  | .mma src f d a k q => some (Enc.x 50 (Enc.src src + Enc.mmaForm f) d.toNat a.toNat (k.toNat * 4 + Enc.bit q))
  | .mmag src f d a k q => some (Enc.x 51 (Enc.src src + Enc.mmaForm f) d.toNat a.toNat (k.toNat * 4 + Enc.bit q))
  | .mzero => some (Enc.x 52 0 0 0 0)
  | .mld a => some (Enc.x 52 1 0 a.toNat 0)
  | .mst a => some (Enc.x 52 2 0 a.toNat 0)
  | .mfree => some (Enc.x 52 3 0 0 0)
  | .spawn a q => some (Enc.x 53 0 0 a.toNat q.toNat)
  | .tjoin a => some (Enc.x 53 1 0 a.toNat 0)
  | .tend => some (Enc.x 53 2 0 0 0)
  | .cfire => some (Enc.x 54 0 0 0 0)
  | .cfireIdx a => some (Enc.x 54 1 0 a.toNat 0)
  | .mcall m p0 p1 p2 => some (Enc.c m p0 p1 p2)
  | .srd d n => some (Enc.xn 0 d n)
  | .swr d n => some (Enc.xn 1 d n)
  | .trap n => some (Enc.x 56 2 0 0 n.toNat)
  | .bkpt n => some (Enc.x 56 3 0 0 n.toNat)
  | .trc a k => some (Enc.x 56 4 0 a.toNat k.toNat)
  | .time d => some (Enc.x 56 5 d.toNat 0 0)
  | .preq d => some (Enc.x 56 6 d.toNat 0 0)
  | .pyield => some (Enc.x 56 7 0 0 0)
  | .ipf a => some (Enc.x 56 8 0 a.toNat 0)
  | _ => none

/-- A clause header word (R14): `len` is the number of operation words minus one, `wait` the mask of named flags. -/
structure Header where
  len : Nat
  wait : Nat
  seta : Nat
  setb : Nat
  guard : Nat
  sense : Bool
  yield : Bool
  deriving DecidableEq, Repr

namespace Clause

/-- The fields of a header word (R14). -/
def header (w : Nat) : Header :=
  ⟨bits w 31 29, bits w 28 17, bits w 16 13, bits w 12 9, bits w 8 5, Dec.flag w 4, Dec.flag w 3⟩

/-- A flag field names f0 to f11 or none (R14). -/
def flagOk (x : Nat) : Bool := Nat.blt x 12 || x == 15

/-- Whether a header word is legal by itself (R14). -/
def headerOk (w : Nat) : Bool :=
  let h := header w
  bits w 2 0 == 0 && flagOk h.seta && flagOk h.setb && flagOk h.guard && !(h.guard == 15 && h.sense)

/-- The header word of fields (R14). -/
def headerWord (h : Header) : Nat :=
  h.len * 2 ^ 29 + h.wait * 2 ^ 17 + h.seta * 2 ^ 13 + h.setb * 2 ^ 9 + h.guard * 2 ^ 5
    + (if h.sense then 16 else 0) + (if h.yield then 8 else 0)

/-- Whether a word is an engine operation, by its major and sub codes (R15). -/
def engineWord (w : Nat) : Bool :=
  let mj := bits w 31 26
  let sub := bits w 25 21
  mj == 0x30 || mj == 0x31 || mj == 0x32 || mj == 0x33 || (mj == 0x34 && (sub == 1 || sub == 2))
    || (mj == 0x35 && sub == 0) || mj == 0x36

/-- Whether a word is a long-latency operation, by its major and sub codes (R15). -/
def longWord (w : Nat) : Bool :=
  let mj := bits w 31 26
  mj == 0x27 || mj == 0x29 || mj == 0x2B || mj == 0x2C || mj == 0x2D || engineWord w

/-- Operations that must be the only one of their clause (R13, R116). -/
def onlyOp : Instr → Bool
  | .mcall _ _ _ _ => true
  | .waitge _ _ _ => true
  | _ => false

/-- Control transfers and waits that must be the last of their clause (R13, R116). -/
def lastOp : Instr → Bool
  | .bra _ _ _ | .call _ _ _ | .brx _ | .ret | .exit | .tend | .pyield => true
  | .bar | .await _ _ | .nap _ => true
  | i => onlyOp i

/-- Control transfers (R13). -/
def transferOp : Instr → Bool
  | .bra _ _ _ | .call _ _ _ | .brx _ | .ret | .exit | .tend | .pyield => true
  | _ => false

/-- The flag of the long-latency operation with `n` such operations before it (R15). -/
def flagFor (h : Header) (n : Nat) : Nat := if n == 0 then h.seta else if n == 1 then h.setb else 15

/-- The first illegal operation word of a clause, and the decoded operations before it (R12, R13, R15, R116). `k` is the
index of the first word of the list, `n` the long-latency operations before it. -/
def ops (level : Nat) (lane : Bool) (h : Header) (total : Nat) : Nat → Nat → List Nat → Except Nat (List Instr)
  | _, _, [] => .ok []
  | k, n, w :: ws =>
    let long := longWord w
    let flag := flagFor h n
    match decodeIn level lane w with
    | .error _ => .error k
    | .ok i =>
      if (long && Nat.ble 2 n) || (engineWord w && Nat.ble 8 flag) || (lastOp i && k != total)
          || (onlyOp i && total != 1) then .error k
      else match ops level lane h total (k + 1) (if long then n + 1 else n) ws with
        | .error e => .error e
        | .ok is => .ok (i :: is)

/-- Header rules that depend on the clause's operations (R15, R36). An all-zero header names f0 for a second long-latency operation
that its clause cannot hold, so R15 makes that clause illegal although R11 calls the header valid (DESIGN CHOICE, log 84). -/
def headerFits (w : Nat) (words : List Nat) : Bool :=
  let h := header w
  let n := (words.filter longWord).length
  let mcall := words.any (fun x => bits x 31 26 == 0x37)
  (h.seta == 15 || Nat.ble 1 n) && (h.setb == 15 || Nat.ble 2 n)
    && (!mcall || (h.seta == 15 && h.setb == 15 && h.guard == 15 && !h.sense))

/-- A clause decoded whole: its header and operations, or the index of the first offending word (R12). -/
def decode (level : Nat) (lane : Bool) (hw : Nat) (words : List Nat) : Except Nat (Header × List Instr) :=
  if !(headerOk hw && headerFits hw words) then .error 0
  else match ops level lane (header hw) words.length 1 0 words with
    | .error k => .error k
    | .ok is => .ok (header hw, is)

/-- Replaces one 7-bit field that holds 125, 126 or 127 by a macro parameter (R37). -/
def subst (p0 p1 p2 lo w : Nat) : Nat :=
  let f := bits w (lo + 6) lo
  let v := if f == 125 then p0 else if f == 126 then p1 else if f == 127 then p2 else f
  w - f * 2 ^ lo + v * 2 ^ lo

/-- A macro body word with its register positions replaced, by its format (R37). -/
def macroWord (p0 p1 p2 w : Nat) : Nat :=
  let mj := bits w 31 26
  let r := subst p0 p1 p2
  if Nat.ble 0x01 mj && Nat.ble mj 0x0E then r 18 (r 11 (r 4 w))
  else if Nat.ble 0x0F mj && Nat.ble mj 0x13 then r 18 (r 11 w)
  else if mj == 0x14 || mj == 0x15 then r 18 w
  else if Nat.ble 0x16 mj && Nat.ble mj 0x1D then r 18 (r 11 (r 4 w))
  else if mj == 0x1E || mj == 0x1F then r 14 (r 7 (r 0 w))
  else if Nat.ble 0x20 mj && Nat.ble mj 0x22 then r 18 (r 11 (r 4 w))
  else if mj == 0x23 || mj == 0x24 then w
  else if mj == 0x25 || mj == 0x26 then r 14 (r 7 (r 0 w))
  else if Nat.ble 0x27 mj && Nat.ble mj 0x2B then r 18 (r 11 w)
  else if Nat.ble 0x2C mj && Nat.ble mj 0x2E then r 12 (r 5 w)
  else if Nat.ble 0x2F mj && Nat.ble mj 0x36 then r 14 (r 7 (r 0 w))
  else if mj == 0x38 then r 14 (r 7 (r 0 w))
  else w

/-- The words of a macro body with headers left as they stand and operation words replaced (R37): each header's `len` gives
the words that follow it. -/
def macroBody (p0 p1 p2 : Nat) : Nat → List Nat → List Nat
  | _, [] => []
  | 0, hw :: ws => hw :: macroBody p0 p1 p2 (bits hw 31 29 + 1) ws
  | n + 1, w :: ws => macroWord p0 p1 p2 w :: macroBody p0 p1 p2 n ws

/-- Whether the clause lengths of a body sum to its length (R38). -/
def bodyFits : Nat → List Nat → Bool
  | 0, [] => true
  | 0, hw :: ws => bodyFits (bits hw 31 29 + 1) ws
  | _ + 1, [] => false
  | n + 1, _ :: ws => bodyFits n ws

/-- Whether a body holds an operation that macros may not contain (R38), by major and sub codes. -/
def bodyForbidden : Nat → List Nat → Bool
  | _, [] => false
  | 0, hw :: ws => bodyForbidden (bits hw 31 29 + 1) ws
  | n + 1, w :: ws =>
    let mj := bits w 31 26
    let sub := bits w 25 21
    mj == 0x23 || mj == 0x24 || (mj == 0x25 && (sub == 0 || sub == 1)) || (mj == 0x26 && (sub == 0 || sub == 3)) || (mj == 0x35 && sub == 2)
      || (mj == 0x38 && sub == 7) || mj == 0x37 || bodyForbidden n ws

end Clause

end Sys2Proof
end

