-- ==== Sys2Proof/Config.lean ====
section
/-! DEFINITION. What an implementation of the X4 fixes, and the free values: opaque constants with no body, for what the
spec leaves open. Each is named in a log entry of notes/assumptions. -/

namespace Sys2Proof.Config

/-- The free choice of the n-th open choice (log 3): the machine takes candidate `freeChoice n % k` of k candidates. -/
opaque freeChoice : Nat → Nat

/-- The result of a function-unit approximation where the bounds computed by the model do not decide its 34-bit rounding
(log 10): function code of R24, operand pattern, and the significand it would take. -/
opaque freeApprox : Nat → Nat → Nat

/-- The device identity key, derived from the fused device secret and the first-stage digest, given as register 0 extends it (R361;
log 13). -/
opaque deviceKey : List Byte → Nat

/-- The secret numbers with which the signature of an attestation report is tried (R361; log 13): the signed bytes, and how many were
tried. -/
opaque signNonce : List Byte → Nat → Nat

/-- The digest of `ckind`, `cop`, `ctype`, `tbytes`, `nchunk` and P that members compare (R346; log 14). -/
opaque collectiveDigest : Nat → Nat → Nat → Nat → Nat → Nat → DWord

/-- Where the parts of a boot image lie, whose layout the spec does not give (R359; log 13): the bytes of its header and body,
its public key, and its signature. -/
opaque imageBody : List Byte → List Byte
/-- The public key that an image names. -/
opaque imageKey : List Byte → List Byte
/-- The coordinates that a public key's bytes give. -/
opaque keyPoint : List Byte → Nat × Nat
/-- The numbers r and s of an image's signature. -/
opaque imageSignature : List Byte → Nat × Nat

/-- The addresses that the firmware chooses at boot for the queue descriptors, the peer-set table and the route table (R249,
R345, R356; log 13). -/
opaque queueTable : Nat
/-- The peer-set table. -/
opaque peerTable : Nat
/-- The route table. -/
opaque routeTable : Nat

/-- Whether the firmware runs the PCIe port as an endpoint (R358; log 13). -/
opaque pcieEndpoint : Bool

/-- The free choice behind the address of the module's identity page (R308; log 13). -/
opaque identityFrame : Nat

/-- The address of the module's identity page, which lies outside the memory map and which the firmware reports at boot (R308, R364;
log 13): some page of the 52-bit physical space above far memory. -/
def identityPage : Nat := 2 ^ 42 + 4096 * (identityFrame % (2 ^ 40 - 2 ^ 30))

/-- The free choice behind the address of the doorbell page (R250; log 13). -/
opaque doorbellFrame : Nat

/-- The address of the doorbell page, another such page that the firmware reports at boot (R250, R364; log 13). -/
def doorbellPage : Nat := 2 ^ 42 + 4096 * ((identityFrame + 1 + doorbellFrame % (2 ^ 40 - 2 ^ 30 - 1)) % (2 ^ 40 - 2 ^ 30))

/-- What the identity page holds past the capability block, which the spec does not give (R308; log 13). -/
opaque identityByte : Nat → Byte

/-- The capability block: words 0 to 15 (R308). -/
def capability : List Nat := [0x03010018, 0x01010101, 0x01010202, 0, 0, 0, 0, 0, 0, 0, 0, 0, 0, 0, 0, 0]

/-- The lowest and highest fabric link protocol versions (R308, R310). -/
def linkMin : Nat := 2
/-- The highest fabric link protocol version. -/
def linkMax : Nat := 2
/-- The lowest firmware service version (R308, R311). -/
def fwMin : Nat := 1
/-- The highest firmware service version. -/
def fwMax : Nat := 1

/-- The capacity in receipts of a die's receipt spill ring, set up by the control-core firmware (R284; log 12). -/
opaque spillCapacity : Nat → Nat

end Sys2Proof.Config
end

