-- ==== Sys2Proof/Machine/Float.lean ====
section
/-! DEFINITION. The IEEE formats, exact values, rounding and the arithmetic on single values (spec/02_numbers.md R48 to R53,
R58, R59, R63; spec/04_isa_float.md R98 to R105). Bit patterns are natural numbers here; registers hold bit vectors. -/

namespace Sys2Proof.Machine

/-- A lane format (R48): widths of the exponent and fraction fields. -/
structure Fmt where
  ebits : Nat
  fbits : Nat
  deriving DecidableEq, Repr

/-- FP32 (R48). -/
def fp32 : Fmt := ⟨8, 23⟩
/-- FP64 (R48). -/
def fp64 : Fmt := ⟨11, 52⟩
/-- FP16, IEEE binary16 (R48). -/
def fp16 : Fmt := ⟨5, 10⟩
/-- BF16 (R48). -/
def bf16 : Fmt := ⟨8, 7⟩
/-- FP32 range with 18 fraction bits, the grid of coined-32 words (R73). -/
def coin32Fmt : Fmt := ⟨8, 18⟩
/-- FP64 range with 46 fraction bits, the grid of coined-64 words (R73). -/
def coin64Fmt : Fmt := ⟨11, 46⟩

namespace Fmt

/-- Precision in bits, the hidden bit included (R48). -/
def prec (f : Fmt) : Nat := f.fbits + 1
/-- Exponent bias (R48). -/
def bias (f : Fmt) : Nat := 2 ^ (f.ebits - 1) - 1
/-- The sign bit's weight. -/
def signW (f : Fmt) : Nat := 2 ^ (f.ebits + f.fbits)
/-- The pattern of +∞. -/
def infPat (f : Fmt) : Nat := (2 ^ f.ebits - 1) * 2 ^ f.fbits
/-- The canonical NaN (R48). -/
def nanPat (f : Fmt) : Nat := f.infPat + 2 ^ (f.fbits - 1)
/-- The largest finite pattern (R48). -/
def maxPat (f : Fmt) : Nat := f.infPat - 1
/-- The exponent of the last place of subnormals. -/
def emin (f : Fmt) : Int := 1 - (f.bias : Int) - f.fbits
/-- Bits of a value. -/
def width (f : Fmt) : Nat := 1 + f.ebits + f.fbits

end Fmt

/-- A decoded value: a NaN keeps its pattern; a finite value is (-1)^neg × m × 2^e. -/
inductive FVal where
  | nan (pat : Nat)
  | inf (neg : Bool)
  | fin (neg : Bool) (m : Nat) (e : Int)
  deriving DecidableEq, Repr

/-- The sign bit of a pattern. -/
def signOf (f : Fmt) (x : Nat) : Bool := (x / f.signW) % 2 == 1

/-- Decodes a pattern (R48). -/
def unpack (f : Fmt) (x : Nat) : FVal :=
  let neg := signOf f x
  let e := (x / 2 ^ f.fbits) % 2 ^ f.ebits
  let m := x % 2 ^ f.fbits
  if e == 2 ^ f.ebits - 1 then
    if m == 0 then .inf neg else .nan x
  else if e == 0 then .fin neg m f.emin
  else .fin neg (m + 2 ^ f.fbits) (f.emin + (e - 1 : Nat))

/-- Whether a pattern is a NaN. -/
def isNaN (f : Fmt) (x : Nat) : Bool := match unpack f x with | .nan _ => true | _ => false
/-- Whether a pattern is an infinity. -/
def isInf (f : Fmt) (x : Nat) : Bool := match unpack f x with | .inf _ => true | _ => false
/-- Whether a pattern is finite. -/
def isFinite (f : Fmt) (x : Nat) : Bool := match unpack f x with | .fin _ _ _ => true | _ => false
/-- Whether a pattern is a zero of either sign. -/
def isZero (f : Fmt) (x : Nat) : Bool := x % f.signW == 0
/-- A NaN is signalling when its most significant fraction bit is 0 (R49). -/
def isSNaN (f : Fmt) (x : Nat) : Bool := isNaN f x && (x / 2 ^ (f.fbits - 1)) % 2 == 0
/-- A NaN pattern with the quiet bit set (R49). -/
def quiet (f : Fmt) (x : Nat) : Nat := if (x / 2 ^ (f.fbits - 1)) % 2 == 0 then x + 2 ^ (f.fbits - 1) else x

/-- Rounding modes (R53). -/
inductive RMode where
  | near | zero | up | down
  deriving DecidableEq, Repr

/-- The mode that `ctl.round` selects (R53). -/
def rmodeOf (n : Nat) : RMode :=
  match n with
  | 0 => .near
  | 1 => .zero
  | 2 => .up
  | _ => .down

/-- How one value rounds: the mode of a non-zero value, the mode that fixes the sign of an exact zero sum (R55: nearest-even
where a bit is drawn, `ctl.round` otherwise), and whether every exact zero result is +0, as in triple kernels (R98). -/
structure Rnd where
  mode : RMode
  zmode : RMode
  plusZero : Bool
  deriving DecidableEq, Repr

/-- Rounding under one mode throughout (R53). -/
def Rnd.all (m : RMode) : Rnd := ⟨m, m, false⟩

/-- Rounding under a drawn bit (R55): an exact zero result takes +0 (R98). -/
def Rnd.drawn (up : Bool) : Rnd := ⟨if up then .up else .down, .near, true⟩

/-- The sign of an exact zero result whose IEEE sign is `neg` (R55, R98). -/
def Rnd.zeroNeg (r : Rnd) (neg : Bool) : Bool := neg && !r.plusZero

/-- Exception flags as the bits of `ctl.fexc` (R62): nv, dz, of, uf, nx from bit 0. -/
abbrev Flags := BitVec 5
/-- Invalid (R52). -/
def flNV : Flags := 1#5
/-- Division by zero (R52). -/
def flDZ : Flags := 2#5
/-- Overflow (R52). -/
def flOF : Flags := 4#5
/-- Underflow (R52). -/
def flUF : Flags := 8#5
/-- Inexact (R52). -/
def flNX : Flags := 16#5
/-- No flag. -/
def flNone : Flags := 0#5
/-- The flag where the condition holds. -/
def flIf (c : Bool) (f : Flags) : Flags := if c then f else flNone

/-- A result pattern and the flags it sets. -/
structure FRes where
  pat : Nat
  fl : Flags
  deriving DecidableEq, Repr

/-- The number of bits of a natural number. -/
def bitLen (n : Nat) : Nat := if n == 0 then 0 else Nat.log2 n + 1

/-- An exact value before rounding: (-1)^neg × (m + θ) × 2^e with θ = 0, or 0 < θ < 1 where `sticky`. -/
structure Exact where
  neg : Bool
  m : Nat
  e : Int
  sticky : Bool
  deriving DecidableEq, Repr

/-- Whether the magnitude grows in rounding. -/
def roundsAway (mode : RMode) (neg : Bool) (odd : Bool) (rem half : Nat) (sticky : Bool) : Bool :=
  let inexact := rem != 0 || sticky
  match mode with
  | .near => Nat.blt half rem || (rem == half && (sticky || odd))
  | .zero => false
  | .up => inexact && !neg
  | .down => inexact && neg

/-- Rounds a magnitude to a multiple of 2^q: the multiple and whether it is inexact. -/
def roundAt (mode : RMode) (x : Exact) (q : Int) : Nat × Bool :=
  if q ≤ x.e then (x.m * 2 ^ (x.e - q).toNat, x.sticky)
  else
    let sh := (q - x.e).toNat
    let t := x.m / 2 ^ sh
    let rem := x.m % 2 ^ sh
    let up := roundsAway mode x.neg (t % 2 == 1) rem (2 ^ (sh - 1)) x.sticky
    (if up then t + 1 else t, rem != 0 || x.sticky)

/-- The zero of a sign. -/
def zeroPat (f : Fmt) (neg : Bool) : Nat := if neg then f.signW else 0

/-- The overflow result of R53: an infinity or the largest finite value, as IEEE 754 prescribes for the mode. -/
def overflowPat (f : Fmt) (mode : RMode) (neg : Bool) : Nat :=
  let toInf := match mode with
    | .near => true
    | .zero => false
    | .up => !neg
    | .down => neg
  zeroPat f neg + (if toInf then f.infPat else f.maxPat)

/-- Round(x, fmt, mode) for a non-zero exact value (R53), with the flags of R52. `extraNX` says that the value itself is an
approximation (R100). -/
def roundPack (f : Fmt) (mode : RMode) (x : Exact) (extraNX : Bool := false) : FRes :=
  let len := bitLen x.m
  let top : Int := x.e + len - 1
  let q : Int := max (x.e + len - f.prec) f.emin
  let (t, ix) := roundAt mode x q
  let inexact := ix || extraNX
  let (t, q) := if t == 2 ^ f.prec then (2 ^ f.fbits, q + 1) else (t, q)
  let expField : Nat := if Nat.blt t (2 ^ f.fbits) then 0 else (q - f.emin + 1).toNat
  let minTop : Int := 1 - (f.bias : Int)
  let tiny : Bool :=
    if minTop ≤ top then false
    else if top + 1 < minTop then true
    else (roundAt mode x (x.e + len - f.prec)).1 != 2 ^ f.prec
  if Nat.ble (2 ^ f.ebits - 1) expField then ⟨overflowPat f mode x.neg, flOF ||| flNX⟩
  else
    let frac := if expField == 0 then t else t - 2 ^ f.fbits
    ⟨zeroPat f x.neg + expField * 2 ^ f.fbits + frac, flIf inexact flNX ||| flIf (tiny && inexact) flUF⟩

/-- RoundSib of an exact value whose zero, if it is one, has the given sign (R55). -/
def roundVal (f : Fmt) (r : Rnd) (zneg : Bool) (x : Exact) (extraNX : Bool := false) : FRes :=
  if x.m == 0 && !x.sticky then ⟨zeroPat f zneg, flIf extraNX flNX⟩ else roundPack f r.mode x extraNX

/-- An exact dyadic number m × 2^e. -/
structure Dy where
  m : Int
  e : Int
  deriving DecidableEq, Repr

namespace Dy

/-- Zero. -/
def zero : Dy := ⟨0, 0⟩
/-- A signed magnitude as a dyadic. -/
def ofMag (neg : Bool) (m : Nat) (e : Int) : Dy := ⟨if neg then -(m : Int) else (m : Int), e⟩
/-- Exact sum. -/
def add (x y : Dy) : Dy :=
  if x.e ≤ y.e then ⟨x.m + y.m * 2 ^ (y.e - x.e).toNat, x.e⟩
  else ⟨x.m * 2 ^ (x.e - y.e).toNat + y.m, y.e⟩
/-- Exact product. -/
def mul (x y : Dy) : Dy := ⟨x.m * y.m, x.e + y.e⟩
/-- Negation. -/
def neg (x : Dy) : Dy := ⟨-x.m, x.e⟩
/-- Exact scaling by a power of two. -/
def scale (x : Dy) (k : Int) : Dy := ⟨x.m, x.e + k⟩
/-- Exact difference. -/
def sub (x y : Dy) : Dy := x.add y.neg
/-- x ≤ y. -/
def le (x y : Dy) : Bool := decide ((x.sub y).m ≤ 0)
/-- As a value to be rounded. -/
def exact (x : Dy) : Exact := ⟨decide (x.m < 0), x.m.natAbs, x.e, false⟩
/-- Whether it is zero. -/
def isZero (x : Dy) : Bool := x.m == 0

end Dy

/-- The dyadic of a finite value; zero for others. -/
def FVal.dy : FVal → Dy
  | .fin n m e => Dy.ofMag n m e
  | _ => Dy.zero

/-- The sign of an exact zero sum of operands with these signs: that of IEEE 754 under the mode, or + where R98 says +0. -/
def sumZeroSign (r : Rnd) (xneg yneg : Bool) : Bool :=
  r.zeroNeg (if xneg == yneg then xneg else r.zmode == .down)

/-- The first NaN operand, quieted, and `nv` if any operand signals (R49, R50). -/
def nanResult (f : Fmt) (ops : List Nat) : FRes :=
  ⟨quiet f ((ops.find? (isNaN f)).getD f.nanPat), flIf (ops.any (isSNaN f)) flNV⟩

/-- A NaN generated from operands that are not NaNs (R49). -/
def invalid (f : Fmt) : FRes := ⟨f.nanPat, flNV⟩

/-- a + b (R98). -/
def fAdd (f : Fmt) (r : Rnd) (a b : Nat) : FRes :=
  if isNaN f a || isNaN f b then nanResult f [a, b]
  else match unpack f a, unpack f b with
    | .inf x, .inf y => if x == y then ⟨a, flNone⟩ else invalid f
    | .inf _, _ => ⟨a, flNone⟩
    | _, .inf _ => ⟨b, flNone⟩
    | x, y => roundVal f r (sumZeroSign r (signOf f a) (signOf f b)) (x.dy.add y.dy).exact

/-- The pattern with its sign inverted. -/
def flipSign (f : Fmt) (x : Nat) : Nat := if signOf f x then x - f.signW else x + f.signW

/-- a − b (R98): a NaN b keeps its own sign (R49). -/
def fSub (f : Fmt) (r : Rnd) (a b : Nat) : FRes :=
  if isNaN f a || isNaN f b then nanResult f [a, b] else fAdd f r a (flipSign f b)

/-- a × b (R98). -/
def fMul (f : Fmt) (r : Rnd) (a b : Nat) : FRes :=
  let neg := signOf f a != signOf f b
  if isNaN f a || isNaN f b then nanResult f [a, b]
  else match unpack f a, unpack f b with
    | .inf _, _ => if isZero f b then invalid f else ⟨zeroPat f neg + f.infPat, flNone⟩
    | _, .inf _ => if isZero f a then invalid f else ⟨zeroPat f neg + f.infPat, flNone⟩
    | x, y => roundVal f r (r.zeroNeg neg) (x.dy.mul y.dy).exact

/-- a × b + d, or a × b − d where `sub` (R98, R49). 0 × ∞ beside a quiet NaN d raises `nv` in every fused form: R49 says so
for FFMA, FFMS and DFMA, and for HFMA2 and BFMA2 it is the model's choice (DESIGN CHOICE, log 78). -/
def fFma (f : Fmt) (r : Rnd) (sub : Bool) (a b d : Nat) : FRes :=
  let pneg := signOf f a != signOf f b
  let dneg := signOf f d != sub
  let pbad := (isInf f a && isZero f b) || (isZero f a && isInf f b)
  if isNaN f a || isNaN f b then nanResult f [a, b, d]
  else if isNaN f d then ⟨quiet f d, flIf (pbad || isSNaN f d) flNV⟩
  else if pbad then invalid f
  else if isInf f a || isInf f b then
    if isInf f d && dneg != pneg then invalid f else ⟨zeroPat f pneg + f.infPat, flNone⟩
  else if isInf f d then ⟨zeroPat f dneg + f.infPat, flNone⟩
  else
    let p := (unpack f a).dy.mul (unpack f b).dy
    let c := if sub then (unpack f d).dy.neg else (unpack f d).dy
    roundVal f r (sumZeroSign r pneg dneg) (p.add c).exact

/-- An exact quotient of magnitudes with at least prec + 2 significant bits and a sticky remainder. -/
def exactQuot (f : Fmt) (neg : Bool) (m1 : Nat) (e1 : Int) (m2 : Nat) (e2 : Int) : Exact :=
  let k := f.prec + 3 + bitLen m2 - bitLen m1
  let n := m1 * 2 ^ k
  ⟨neg, n / m2, e1 - e2 - k, n % m2 != 0⟩

/-- a / b (R98). -/
def fDiv (f : Fmt) (r : Rnd) (a b : Nat) : FRes :=
  let neg := signOf f a != signOf f b
  if isNaN f a || isNaN f b then nanResult f [a, b]
  else match unpack f a, unpack f b with
    | .inf _, .inf _ => invalid f
    | .inf _, _ => ⟨zeroPat f neg + f.infPat, flNone⟩
    | _, .inf _ => ⟨zeroPat f (r.zeroNeg neg), flNone⟩
    | .fin _ m1 e1, .fin _ m2 e2 =>
      if m2 == 0 then (if m1 == 0 then invalid f else ⟨zeroPat f neg + f.infPat, flDZ⟩)
      else if m1 == 0 then ⟨zeroPat f (r.zeroNeg neg), flNone⟩
      else roundVal f r neg (exactQuot f neg m1 e1 m2 e2)
    | _, _ => invalid f

/-- Newton's iteration for the integer square root, from above. -/
def isqrtLoop : Nat → Nat → Nat → Nat
  | 0, _, x => x
  | fuel + 1, n, x =>
    let y := (x + n / x) / 2
    if Nat.ble x y then x else isqrtLoop fuel n y

/-- The integer square root. -/
def isqrt (n : Nat) : Nat :=
  if n == 0 then 0 else isqrtLoop (bitLen n + 2) n (2 ^ ((bitLen n + 1) / 2))

/-- √a before rounding, for a finite a > 0 (R99). -/
def exactSqrt (f : Fmt) (m : Nat) (e : Int) : Exact :=
  let k0 := 2 * f.prec + 6
  let k := if (e - k0) % 2 == 0 then k0 else k0 + 1
  let n := m * 2 ^ k
  let s := isqrt n
  ⟨false, s, (e - k) / 2, s * s != n⟩

/-- √a (R99, R101). -/
def fSqrt (f : Fmt) (r : Rnd) (a : Nat) : FRes :=
  match unpack f a with
  | .nan _ => nanResult f [a]
  | .inf neg => if neg then invalid f else ⟨a, flNone⟩
  | .fin neg m e =>
    if m == 0 then ⟨a, flNone⟩
    else if neg then invalid f
    else roundVal f r false (exactSqrt f m e)

/-- 1 / a (R99). -/
def fRcp (f : Fmt) (r : Rnd) (a : Nat) : FRes :=
  match unpack f a with
  | .nan _ => nanResult f [a]
  | .inf neg => ⟨zeroPat f neg, flNone⟩
  | .fin neg m e =>
    if m == 0 then ⟨zeroPat f neg + f.infPat, flDZ⟩
    else roundVal f r neg (exactQuot f neg 1 0 m e)

/-- Whether x < y for patterns that are not NaNs; −0 is less than +0 only where `zeros` (R50). -/
def patLt (f : Fmt) (zeros : Bool) (x y : Nat) : Bool :=
  match unpack f x, unpack f y with
  | .inf nx, .inf ny => nx && !ny
  | .inf nx, _ => nx
  | _, .inf ny => !ny
  | u, v => decide ((u.dy.sub v.dy).m < 0) || (zeros && isZero f x && isZero f y && signOf f x && !signOf f y)

/-- FMIN or FMAX (R50, R98): the other operand for one NaN, a where equal. -/
def fMinMax (f : Fmt) (isMax : Bool) (a b : Nat) : FRes :=
  let nv := flIf (isSNaN f a || isSNaN f b) flNV
  if isNaN f a && isNaN f b then ⟨quiet f a, nv⟩
  else if isNaN f a then ⟨b, nv⟩
  else if isNaN f b then ⟨a, nv⟩
  else
    let takeB := if isMax then patLt f true a b else patLt f true b a
    ⟨if takeB then b else a, nv⟩

/-- The result of comparing two values: less, equal, greater or unordered (R103). -/
inductive FOrd where
  | lt | eq | gt | un
  deriving DecidableEq, Repr

/-- Compares two patterns; −0 equals +0 (R103). -/
def fOrd (f : Fmt) (a b : Nat) : FOrd :=
  if isNaN f a || isNaN f b then .un
  else if patLt f false a b then .lt
  else if patLt f false b a then .gt
  else .eq

/-- Rounds a finite value to an integer: the magnitude and whether it is inexact. -/
def roundInt (mode : RMode) (neg : Bool) (m : Nat) (e : Int) : Nat × Bool := roundAt mode ⟨neg, m, e, false⟩ 0

/-- A finite integral value as a pattern; a zero takes the given sign. -/
def intPat (f : Fmt) (neg : Bool) (n : Nat) : Nat :=
  if n == 0 then zeroPat f neg else (roundPack f .near ⟨neg, n, 0, false⟩).pat

/-- FFLOOR, FCEIL, FTRUNC: exact, no flag but `nv` on a signalling NaN (R99). -/
def fToIntegral (f : Fmt) (mode : RMode) (a : Nat) : FRes :=
  match unpack f a with
  | .nan _ => nanResult f [a]
  | .inf _ => ⟨a, flNone⟩
  | .fin neg m e => if m == 0 then ⟨a, flNone⟩ else ⟨intPat f neg (roundInt mode neg m e).1, flNone⟩

/-- FRINT (R99): RoundSib to an integer; `nx` where the result differs from a. -/
def fRint (f : Fmt) (r : Rnd) (a : Nat) : FRes :=
  match unpack f a with
  | .nan _ => nanResult f [a]
  | .inf _ => ⟨a, flNone⟩
  | .fin neg m e =>
    if m == 0 then ⟨a, flNone⟩
    else
      let (n, ix) := roundInt r.mode neg m e
      ⟨intPat f neg n, flIf ix flNX⟩

/-- A NaN carried from one format into another (R51). -/
def nanConvert (src dst : Fmt) (a : Nat) : FRes :=
  let frac := a % 2 ^ src.fbits
  let frac' := if Nat.ble src.fbits dst.fbits then frac * 2 ^ (dst.fbits - src.fbits)
    else frac / 2 ^ (src.fbits - dst.fbits)
  let pat := zeroPat dst (signOf src a) + dst.infPat + frac'
  ⟨quiet dst pat, flIf (isSNaN src a) flNV⟩

/-- A conversion between floating formats (R63, R105). A zero keeps its sign, also where a bit is drawn (DESIGN CHOICE, log 113). -/
def fConvert (src dst : Fmt) (r : Rnd) (a : Nat) : FRes :=
  match unpack src a with
  | .nan _ => nanConvert src dst a
  | .inf neg => ⟨zeroPat dst neg + dst.infPat, flNone⟩
  | .fin neg m e => roundVal dst r neg ⟨neg, m, e, false⟩

/-- A conversion from an exact integer; integer zero gives +0 (R105). -/
def fOfInt (dst : Fmt) (r : Rnd) (x : Int) : FRes := roundVal dst r false ⟨decide (x < 0), x.natAbs, 0, false⟩

/-- An integer result and the flags it sets. -/
structure IRes where
  val : Int
  fl : Flags
  deriving DecidableEq, Repr

/-- CvtInt of R63, for a source of format f and a range [lo, hi]. -/
def cvtInt (f : Fmt) (mode : RMode) (lo hi : Int) (a : Nat) : IRes :=
  match unpack f a with
  | .nan _ => ⟨0, flNV⟩
  | .inf neg => ⟨if neg then lo else hi, flNV⟩
  | .fin neg m e =>
    let (n, ix) := roundInt mode neg m e
    let y : Int := if neg then -(n : Int) else n
    if y < lo then ⟨lo, flNV⟩
    else if hi < y then ⟨hi, flNV⟩
    else ⟨y, flIf ix flNX⟩

/-- Rounds to 53 significant bits, nearest-even, with an unbounded exponent range (R58). -/
def rn53x (x : Exact) : Dy :=
  let len := bitLen x.m
  if Nat.ble len 53 && !x.sticky then Dy.ofMag x.neg x.m x.e
  else
    let q : Int := x.e + len - 53
    Dy.ofMag x.neg (roundAt .near x q).1 q

/-- Rounds an exact dyadic to 53 bits (R58). -/
def rn53 (x : Dy) : Dy := rn53x x.exact

/-- A quotient rounded to 53 bits (R58); zero for a zero dividend. -/
def div53 (x y : Dy) : Dy :=
  if x.m == 0 then Dy.zero
  else rn53x (exactQuot fp64 (decide (x.m < 0) != decide (y.m < 0)) x.m.natAbs x.e y.m.natAbs y.e)

/-- T = 2^(21/8) rounded to nearest binary64 (R58). -/
def digitsT : Dy := ⟨6945500098633947, -50⟩

/-- The mean m of R58 of three finite values. -/
def mean53 (x0 x1 x2 : Dy) : Dy := div53 (rn53 ((rn53 (x0.add x1)).add x2)) ⟨3, 0⟩

/-- The largest d ≤ n with q ≥ T × 4^d, or 0. -/
def digitsLoop (q : Dy) : Nat → Nat
  | 0 => 0
  | d + 1 => if (digitsT.scale (2 * (d + 1 : Nat))).le q then d + 1 else digitsLoop q d

/-- Digits(x0, x1, x2, fmt) (R58). -/
def digits (f : Fmt) (x0 x1 x2 : Nat) : Nat :=
  if (x0 == x1 && x1 == x2) || (isZero f x0 && isZero f x1 && isZero f x2) then f.prec
  else if !(isFinite f x0 && isFinite f x1 && isFinite f x2) then 0
  else
    let d0 := (unpack f x0).dy
    let d1 := (unpack f x1).dy
    let d2 := (unpack f x2).dy
    let m := mean53 d0 d1 d2
    if m.isZero then 0
    else
      let sq := fun (x : Dy) => let t := rn53 (x.sub m); rn53 (t.mul t)
      let s2 := (rn53 ((rn53 ((sq d0).add (sq d1))).add (sq d2))).scale (-1)
      if s2.isZero then f.prec else digitsLoop (div53 (rn53 (m.mul m)) s2) f.prec

/-- The three-value mean before its last rounding (R59, R73): a pattern where R59 names one, or the unrounded m. -/
inductive Mean where
  | pat (p : Nat) (nv : Bool)
  | val (m : Dy) (zneg : Bool)
  deriving DecidableEq, Repr

/-- The cases of Mean3 (R59). -/
def mean3Cases (f : Fmt) (x0 x1 x2 : Nat) : Mean :=
  let nv := isSNaN f x0 || isSNaN f x1 || isSNaN f x2
  let xs := [x0, x1, x2]
  if x0 == x1 && x1 == x2 then .pat x0 nv
  else match xs.find? (isNaN f) with
    | some x => .pat (quiet f x) nv
    | none =>
      let pos := xs.any (fun x => isInf f x && !signOf f x)
      let neg := xs.any (fun x => isInf f x && signOf f x)
      if pos && neg then .pat f.nanPat nv
      else if pos then .pat f.infPat nv
      else if neg then .pat (f.signW + f.infPat) nv
      else .val (mean53 (unpack f x0).dy (unpack f x1).dy (unpack f x2).dy) false

/-- Mean3(x0, x1, x2, fmt) (R59), with the flags that MEAN sets (R108): `nx` for an inexact rounding of m and `nv` for a
signalling NaN copy, and `uf` where the mean is tiny after rounding and inexact, as R52 signals it of every operation (DEDUCED,
log 103). -/
def mean3 (f : Fmt) (x0 x1 x2 : Nat) : FRes :=
  match mean3Cases f x0 x1 x2 with
  | .pat p nv => ⟨p, flIf nv flNV⟩
  | .val m z => roundVal f (Rnd.all .near) z m.exact

/-- Majority of three values: the value and whether it is unanimous (R57). -/
def majority {α : Type} [DecidableEq α] (x0 x1 x2 : α) : α × Bool :=
  if x0 = x1 ∧ x1 = x2 then (x0, true)
  else if x0 = x1 ∨ x0 = x2 then (x0, false)
  else if x1 = x2 then (x1, false)
  else (x0, false)

end Sys2Proof.Machine
end

