-- ==== Sys2Proof/Machine/Map.lean ====
section
/-! DEFINITION. Sparse maps as plain data: lists of (key, value) pairs with strictly rising keys. -/

namespace Sys2Proof.Machine

/-- A sparse map from natural numbers: pairs in strictly rising order of keys. -/
abbrev NMap (α : Type) := List (Nat × α)

variable {α : Type}

/-- The value at key k, if listed. -/
def mget : NMap α → Nat → Option α
  | [], _ => none
  | (j, v) :: m, k => if j == k then some v else mget m k

/-- The value at key k, or the default for an unlisted key. -/
def mgetD (m : NMap α) (k : Nat) (d : α) : α := (mget m k).getD d

/-- Sets key k to v, in its place. -/
def mset : NMap α → Nat → α → NMap α
  | [], k, v => [(k, v)]
  | (j, w) :: m, k, v =>
    if j == k then (k, v) :: m
    else if Nat.blt k j then (k, v) :: (j, w) :: m
    else (j, w) :: mset m k v

/-- Removes key k. -/
def mdel : NMap α → Nat → NMap α
  | [], _ => []
  | (j, w) :: m, k => if j == k then m else (j, w) :: mdel m k

/-- Applies f to the value at k, if listed. -/
def mmod (m : NMap α) (k : Nat) (f : α → α) : NMap α :=
  match mget m k with
  | some v => mset m k (f v)
  | none => m

/-- Applies f to every listed value. -/
def mmapv {β : Type} (f : α → β) : NMap α → NMap β
  | [] => []
  | (k, v) :: m => (k, f v) :: mmapv f m

/-- Whether the keys rise strictly. -/
def msorted : NMap α → Bool
  | [] => true
  | [_] => true
  | (j, _) :: (k, w) :: m => Nat.blt j k && msorted ((k, w) :: m)

end Sys2Proof.Machine
end

