-- ==== Sys2Proof/Machine/State.lean ====
section
/-! DEFINITION. The state of one X4 module as plain data: threads, flights, quarters, cores, clusters, dies, contexts,
galleries, queues, memory and its coherence order, and the units of the module. INVENTORY.md lists every piece with the rule
that names it. Sparse maps (`NMap`) list what differs from a named default. -/

namespace Sys2Proof.Machine

/-- Thread states (R187). -/
inductive TState where
  | ready | polling | blocked | napping | masked | exited
  deriving DecidableEq, Repr

/-- Stall reasons (R334), and `clear` for a flight whose next operation or clause was looked at and is held by nothing. -/
inductive Stall where
  | barrier | nap | slip | flag | register | memory | throttle | matrix | clear
  deriving DecidableEq, Repr

/-- Trap codes (R286). -/
inductive TrapCode where
  | illegal | privilege | misaligned | translation | permission | late | instC | instD | instZ | trap | bkpt | macroFault
  | dataError | binding
  deriving DecidableEq, Repr

/-- An instability record (R203, R280). `resumeOp` 0 stands for the start of the clause. -/
structure InstRec where
  icause : Nat
  iclause : BitVec 64
  iop : Nat
  iword : Word
  idig : Nat
  resumePc : BitVec 64
  resumeOp : Nat
  resumeBody : Option Nat
  deriving DecidableEq, Repr

/-- A thread of a flight (R185, R187). `fromOp` and `fromBody` give the first operation or body word a resumed thread takes
part in (R208); `awaiting` is the store address and count of a blocked AWAIT (R141), and `next` where a thread blocked at BAR
or AWAIT stands once released. -/
structure Thread where
  hidx : Nat
  t : Nat
  st : TState
  pc : BitVec 64
  preds : BitVec 12
  rcount : BitVec 48
  solo : Bool
  handler : Bool
  inst : Option InstRec
  token : BitVec 64
  hlink : List (BitVec 64)
  fromOp : Nat
  fromBody : Option Nat
  napEnd : Nat
  awaiting : Option (Nat × Word)
  barred : Bool
  polls : Nat
  next : BitVec 64
  deriving DecidableEq, Repr

/-- A register's value in uniform form (one value per sibling rank) or per-lane form (R197). -/
inductive RegVal where
  | uni (r0 r1 r2 : Word)
  | lanes (m : NMap Word)
  deriving DecidableEq, Repr

/-- A macro body in progress (R37, R38): the replaced words, the next clause's position, the threads of the MCALL, the first
body word of each thread that resumes inside it, the word of the MCALL, and whether a yield of the body waits for its end
(R80, R192). -/
structure BodyRun where
  words : List Nat
  pos : Nat
  group : List Nat
  entries : NMap Nat
  call : Nat
  hint : Bool
  deriving DecidableEq, Repr

/-- A clause in progress (R12, R78, R272): its address, header, operation words, next operation index (from 1), issue group,
active set, first operation of each resumed thread, threads already transferred, what R191 and R192 ask of the slot, the cycle
it issued (R121), and whether its active set was empty (R79) or its threads in handler mode (R206) at its start. -/
structure ClauseRun where
  addr : BitVec 64
  hdr : Header
  words : List Nat
  next : Nat
  group : List Nat
  active : List Nat
  entry : NMap Nat
  moved : List Nat
  above : Bool
  backward : Bool
  yielded : Bool
  body : Option Nat
  began : Nat
  vacant : Bool
  handler : Bool
  deriving DecidableEq, Repr

/-- One location of an atomic, ATOMS or TJOIN (R134): the thread, the address (physical or a store offset), the operands, and
what performing it returned. -/
structure AtomReq where
  slot : Nat
  pa : Nat
  x : Nat
  y : Nat
  done : Bool
  old : Nat
  refused : Bool
  deriving DecidableEq, Repr

/-- Engine operations and the matrix operations of the unit's queue (R143, R155). -/
inductive EngKind where
  | g2s | s2g | g2v | s2s | gath | mma | mmag | mld | mst | mzero | mfree | cfire | spawn
  deriving DecidableEq, Repr

/-- The captured operands of an engine operation (R143): `per` holds the values of each owning thread, `aBlk` the words of
the A block and A scale pair, `bScale` the B scale pairs of each thread; reads and writes are store intervals (R145), and `out`
the global bytes written so far, which join the core's writes at completion (R146). For the matrix unit: `src` and `dst` hold
the A and B descriptors, `plane` the plane set, `cost` the unit cycles of a chunk, `fetch` the cycles of fetching store operands
and `fetchAt` when that began (R215, R216); `fl` the flags raised so far (R159). -/
structure Engine where
  kind : EngKind
  win : Nat
  src : Nat
  dst : Nat
  len16 : Nat
  rows : Nat
  spitch : Nat
  dpitch : Nat
  per : NMap (List Nat)
  form : MmaForm
  asrc : ASource
  q : Bool
  ctl : Nat
  groups : Nat
  aBlk : NMap (List Nat)
  bScale : NMap (List Nat)
  n0 : NMap Nat
  reads : List (Nat × Nat)
  writes : List (Nat × Nat)
  key : Nat
  total : Nat
  started : Bool
  out : NMap Byte
  plane : Option Nat
  cost : Nat
  fetch : Nat
  fetchAt : Nat
  fl : Flags
  deriving DecidableEq, Repr

/-- What an outstanding operation of a flight will still do (R76, R244). Loads hold the values read at issue: for each slot,
the words of each sibling. Stores hold their bytes, and for a triple page each aligned 8-byte unit of frame 0 with the distance
of the frames (R212). -/
inductive Payload where
  | load (size : MemSize) (uni : Bool) (dests : List Nat) (vals : NMap (List (List Word)))
  | bindLoad (dests : List Nat) (vals : NMap (List (List Word))) (parked : NMap Nat)
  | store (bytes : NMap Byte) (frames : List (Nat × Nat))
  | sts
  | atom (post : Bool) (op : AtomOp) (use : AtomUse) (dests : List Nat) (reqs : List AtomReq)
  | atoms (op : AtomOp) (use : AtomUse) (dests : List Nat) (win : Nat) (reqs : List AtomReq)
  | tjoin (reqs : List AtomReq)
  | engine (e : Engine)
  | bar (count : Nat)
  deriving DecidableEq, Repr

/-- Classes of in-flight entries (R281). -/
inductive EClass where
  | i | t | k | b
  deriving DecidableEq, Repr

/-- An in-flight entry (R244, R281). `flag` 15 counts nowhere; `acked` is the acknowledgement of a T entry; `fault` a late
fault met at a chunk; `parked` waits in the miss-coalescing table; `discards` are write-backs a debugger discarded (R339);
`addrs` are the captured addresses for a replay. `resent` says that a save has passed since it issued, so that its banks look
for receipts (R247); `sent` are the fabric writes of an ST.rel's own publication (R130, R230); `fixed` the threads of a load
whose bytes a later store of the flight has written, with the row that a COPY.G2V read before it (R285); and `core` the core
where it issued (R368). -/
structure Entry where
  id : Nat
  cls : EClass
  flag : Nat
  op : Nat
  body : Option Nat
  word : Nat
  pc : BitVec 64
  tag : Nat
  mask : List Nat
  done : Nat
  opnds : List (Nat × RegVal)
  addrs : NMap Nat
  pay : Payload
  issued : Nat
  acked : Bool
  parked : Option MissKey
  discards : List (Nat × Nat)
  replay : Bool
  resent : Bool
  sent : List Nat
  fixed : NMap Nat
  core : Nat
  deriving DecidableEq, Repr

/-- A pending late fault (R147, R288): the flag that was counted, the issue order and the report. -/
structure LateFault where
  flag : Nat
  order : Nat
  report : List Byte
  dests : List Nat
  deriving DecidableEq, Repr

/-- Why a flight is frozen by a trap (R188, R287): the trapping operation index, the record written, and the in-flight entry
whose replay trapped, if that is what did (R289). -/
structure Frozen where
  code : TrapCode
  op : Nat
  report : List Byte
  entry : Option Nat
  deriving DecidableEq, Repr

/-- The control registers of a flight (R62, R130, R173). -/
structure Ctl where
  round : BitVec 2
  rsrc : Bool
  rpat : BitVec 64
  canc : BitVec 6
  itrap : BitVec 3
  ccnt : BitVec 10
  dcnt : BitVec 10
  zcnt : BitVec 10
  fexc : Flags
  fair : BitVec 16
  prog : Bool
  ordscope : BitVec 5
  deriving DecidableEq, Repr

/-- A WAITGE poll whose reads have not returned (R142, R180): the clause, the threads that polled and those that pass, where
those go on (clause and macro body word), and the body word at which the others stay. -/
structure Poll where
  addr : Nat
  group : List Nat
  pass : List Nat
  next : BitVec 64
  nextBody : Option Nat
  stayBody : Option Nat
  deriving DecidableEq, Repr

/-- A flight (R4, R5, R185). `sig` is the path signature, and `sigq` its inputs in issue order that wait behind an atomic that
has not returned: the entry's number, and what it folds once known (R318, R340). `owed` are writes, by physical address and
stamp, that its next boundary publishes after a save (R233), and `wrote` the global bytes of its completed engine operations
that no publication of scope 3 or 4 has covered (R228). `lowered` gives the cycle in which each flag was last lowered and by how
much (R75), `bpSkip` the breakpoints, each with a clause's address, that the next start of that clause passes (R337), and
`waitFrom` and `waitHeld` the cycles that the next clause has been held by its `wait` (R335). `leaving` says that all its
threads have exited and its retirement has published its writes (R119, R244), and `opEnd` is the cycle in which the datapath
frees from what the flight issued last (R335). -/
structure Flight where
  context : Nat
  gallery : Nat
  hall : Nat
  index : Nat
  task : Option (Nat × Nat)
  core : Nat
  quarter : Nat
  slot : Nat
  age : Nat
  lane : Bool
  narrow : Bool
  level : Nat
  threads : NMap Thread
  regs : NMap RegVal
  sb : List Nat
  flags : NMap Nat
  window : Nat
  ctl : Ctl
  fairC : Nat
  turn : Option (List Nat × Nat)
  turnBase : Nat
  fairDue : Option (List Nat)
  clause : Option ClauseRun
  body : Option BodyRun
  stall : Option Stall
  frozen : Option Frozen
  debugFrozen : Bool
  bpSkip : List (Nat × Nat)
  slip : Bool
  yieldEnd : Nat
  pollHold : NMap Nat
  pollsOut : NMap Poll
  planes : Option Nat
  wantPlanes : Bool
  entries : List Entry
  late : List LateFault
  typical : Nat
  peak : Nat
  pyield : Bool
  waiting : Nat
  overdue : Bool
  score : Nat
  sig : BitVec 64
  sigq : List (Nat × Option (List Nat))
  seed : BitVec 64
  win : Option Nat
  winSize : Nat
  started : Bool
  pubWait : Option (List Nat)
  owed : List (Nat × Nat)
  wrote : List (Nat × NMap Byte)
  waitFrom : Nat
  waitHeld : Nat
  lowered : NMap (Nat × Nat)
  leaving : Bool
  opEnd : Nat
  deriving DecidableEq, Repr

/-- A plane set (R155): the flight that holds it and its elements that are not +0, element plane × 1024 + row × 32 + column. -/
structure PlaneSet where
  holder : Nat
  elems : NMap Word
  deriving DecidableEq, Repr

/-- A quarter (R155, R196, R264, R265, R334); `left` sums the scores of flights that left it in the window, and `took` are the
flights that it has chosen in the present cycle, each with its context. -/
structure Quarter where
  perm : Nat
  freeAt : Nat
  mq : List (Nat × Nat)
  busyUntil : Nat
  planes : NMap PlaneSet
  hist : NMap Nat
  windowStart : Nat
  left : Nat
  took : List (Nat × Nat)
  deriving DecidableEq, Repr

/-- A page-table entry as a TLB holds it (R291): context, page number in 4 KiB units, size in 4 KiB pages, physical address
and the permission bits. -/
structure TlbEnt where
  context : Nat
  vpn : Nat
  pages : Nat
  pa : Nat
  pte : Nat
  pteAt : Nat
  deriving DecidableEq, Repr

/-- A loaded macro table (R38, R302): its context and address, and the valid macros. -/
structure CtlStore where
  context : Nat
  addr : Nat
  macros : NMap (List Nat)
  deriving DecidableEq, Repr

/-- A monitor of a core (R335). -/
structure Monitor where
  setup : MonitorSetup
  count : Nat
  min : Nat
  max : Nat
  sum : Nat
  bins : NMap Nat
  deriving DecidableEq, Repr

/-- A core (R2, R223, R332). `pend` holds the bytes written and not yet placed in coherence order, newest first, each with the
entry that wrote it (0 for any other write); `floors` the
stamp of the write that the snapshot holds (0 for the initial write). `owed` are writes that the next boundary publishes at
scope 3 (R233), as physical address and stamp. -/
structure Core where
  pend : NMap (List (Nat × Byte))
  floors : NMap Nat
  owed : List (Nat × Nat)
  l1 : List Nat
  victims : List Nat
  tlb : List TlbEnt
  store : Option CtlStore
  cntSel : BitVec 32
  cntCtl : BitVec 32
  cntV : NMap Nat
  monitors : NMap Monitor
  quarters : NMap Quarter
  samples : Nat
  deriving DecidableEq, Repr

/-- A leased line in the hot store (R238). -/
structure Lease where
  line : Nat
  context : Nat
  recalled : Bool
  deriving DecidableEq, Repr

/-- A range-scoreboard entry (R145, R240): slice, window, intervals, flight, entry and the order of taking. -/
structure SbEnt where
  slice : Nat
  win : Nat
  reads : List (Nat × Nat)
  writes : List (Nat × Nat)
  flight : Nat
  entry : Nat
  key : Nat
  deriving DecidableEq, Repr

/-- A cluster (R223, R237, R238, R362). `mhz`, `since` and `base` give the arithmetic clock. -/
structure Cluster where
  sb : List SbEnt
  leases : List Lease
  tlb : List TlbEnt
  icache : List Nat
  mhz : Nat
  since : Nat
  base : Nat
  deriving DecidableEq, Repr

/-- What waits behind a miss key (R293), in order of arrival: a flight whose operation trapped, an engine operation, a
binding load of some slots, or a record of a queue. -/
inductive Parked where
  | flight (f : Nat) (report : List Byte)
  | engine (f e : Nat)
  | bind (f e slot : Nat)
  | queue (q seq : Nat)
  deriving DecidableEq, Repr

/-- An entry of the miss-coalescing table (R293). -/
structure MissEnt where
  key : MissKey
  parked : List Parked
  deriving DecidableEq, Repr

/-- A receipt (R284): tag, address and old value. -/
structure Receipt where
  tag : Nat
  pa : Nat
  old : Nat
  deriving DecidableEq, Repr

/-- A task queue of a context on a die (R262): its first records, up to 64, which the die holds itself, and the counts of records
popped from and pushed into the ring, and taken from and appended to the overflow ring. The rings stand in memory. -/
structure TaskQ where
  recs : List (List Byte)
  head : Nat
  tail : Nat
  ohead : Nat
  otail : Nat
  deriving DecidableEq, Repr

/-- A trace record before it is written (R320): stamp, the order key of R325, the record's words 0 (without delta) to 3, and
whether it bypasses the sieve (R325). -/
structure TraceRec where
  stamp : Nat
  core : Nat
  quarter : Nat
  slot : Nat
  thread : Nat
  w0 : Nat
  w1 : Nat
  w2 : Nat
  w3 : Nat
  bypass : Bool
  deriving DecidableEq, Repr

/-- Whether a queued record is a lost record, which stands where records found the queue full (R321, R325). -/
def TraceRec.isLost (r : TraceRec) : Bool := r.w0 % 16 == 4

/-- A trace core (R320 to R330). `lost` counts the records lost since the last lost record, `lostTotal` since the block was loaded;
`gap` says that the record before the next one written was lost (R323). -/
structure Trace where
  buf : Nat
  lg : Nat
  flags : Nat
  context : Nat
  sieve : List Nat
  trig : List Nat
  w6 : BitVec 64
  w7 : BitVec 64
  counters : NMap Nat
  windex : Nat
  last : Option Nat
  lost : Nat
  lostTotal : Nat
  gap : Bool
  queue : List TraceRec
  armed : Bool
  deriving DecidableEq, Repr

/-- A die (R224, R262, R284, R293, R295, R320). `outside` gives, for line × 64 + agent, when the agent last reached the line
(R238): agents 0 to 47 are clusters, 48 any other. `mhz`, `since` and `base` give the die's arithmetic clock (R3, R362). -/
structure Die where
  books : NMap (List Receipt)
  spill : List Receipt
  miss : List MissEnt
  taskqs : NMap TaskQ
  trace : Trace
  ering : List (List Byte)
  corr : NMap Nat
  outside : NMap Nat
  mhz : Nat
  since : Nat
  base : Nat
  deriving DecidableEq, Repr

/-- The fields of a launch record (R254). -/
structure LaunchRec where
  version : Nat
  flags : Nat
  cls : Nat
  tag : Nat
  gx : Nat
  gy : Nat
  gz : Nat
  storeys : Nat
  tx : Nat
  ty : Nat
  tz : Nat
  wx : Nat
  wy : Nat
  wz : Nat
  pdead : Nat
  desc : Nat
  args : Nat
  seed : BitVec 64
  scopes : Nat
  coll : List Byte
  deriving DecidableEq, Repr

/-- The fields of a kernel descriptor (R46). -/
structure Desc where
  level : Nat
  narrow : Bool
  lane : Bool
  promise : Bool
  typical : Nat
  peak : Nat
  window : Nat
  entry : Nat
  handler : Nat
  macros : Nat
  bindings : Nat
  store : Nat
  args : Nat
  consts : Nat
  constsize : Nat
  deriving DecidableEq, Repr

/-- A hall of a gallery (R182, R184). -/
structure Hall where
  core : Nat
  win : Option Nat
  started : Bool
  exited : Bool
  flights : List Nat
  deriving DecidableEq, Repr

/-- A store window (R221, R222): its owner gallery, linear index, cluster, size, the bytes that are not zero, and the task
flights bound to it. -/
structure Window where
  gallery : Nat
  index : Nat
  cluster : Nat
  size : Nat
  bytes : NMap Byte
  tasks : List Nat
  isTask : Bool
  deriving DecidableEq, Repr

/-- A gallery from acceptance to completion (R200, R254, R313). `argPages` and `constPages` give the physical page of each
4 KiB page of those blocks; `accepted` is the coherence stamp at acceptance (R225, R268). `acceptTime` is when a hall was last
placed, or the acceptance; `pubs` the fabric writes that its completion waits for (R258); `pins` the cores of a session's
first pass (R313); `ran` the cores that have run its flights, and `cfired` the chunks that a CFIRE has fired (R168). -/
structure Gallery where
  context : Nat
  queue : Nat
  seq : Nat
  launch : LaunchRec
  desc : Desc
  accepted : Nat
  acceptTime : Nat
  argPages : NMap Nat
  constPages : NMap Nat
  scopes : NMap Nat
  nslot : Nat
  halls : NMap Hall
  nextWing : Nat
  firstPlaced : Bool
  lastCluster : Option Nat
  aged : Bool
  coll : Option Nat
  fired : List Nat
  ended : Option Nat
  completed : Bool
  session : Bool
  pins : NMap Nat
  pubs : Option (List Nat)
  ran : List Nat
  cfired : List Nat
  deriving DecidableEq, Repr

/-- A breakpoint of a context (R337). -/
structure BreakPt where
  addr : BitVec 64
  hall : Nat
  deriving DecidableEq, Repr

/-- A saved context (R271, R276): its flights, whether each was saved light, its windows and plane sets. -/
structure Saved where
  flights : NMap Flight
  light : List Nat
  windows : NMap Window
  planes : NMap (NMap Word)
  reported : Bool
  deriving DecidableEq, Repr

/-- A context (R248, R270, R276, R283, R290). `images` are the save areas that were reported saved, newest first, with what each
stands for: software may write an older one back and resume it (R296). -/
structure Context where
  sys : Bool
  root : Nat
  area : Nat
  tasks : Nat
  rseq : NMap Nat
  live : List Nat
  deadline : Option Nat
  faults : List (List Byte)
  bps : NMap BreakPt
  saved : Option Saved
  images : List (List Byte × Saved)
  pdead : Nat
  deriving DecidableEq, Repr

/-- A record taken from a queue and not yet complete (R252, R258). -/
structure Taken where
  seq : Nat
  kind : Nat
  data : List Byte
  deriving DecidableEq, Repr

/-- A command queue (R248 to R252): the descriptor's fields as last read, head and tail, the records taken and not complete in
order of sequence, the records read and not yet taken, and the keys declined for a record, by its sequence number (R257,
R367). -/
structure Queue where
  enabled : Bool
  ring : Nat
  lg : Nat
  cls : Nat
  context : Nat
  key : BitVec 64
  cpl : Nat
  tasks : Nat
  chead : Nat
  head : Nat
  tail : Nat
  refused : Nat
  taken : List Taken
  recs : List (List Byte)
  declined : List (Nat × MissKey)
  deriving DecidableEq, Repr

/-- A write to one byte in coherence order (R227, R228): its stamp, value, Seen as a set of cores for each publisher, the entry
that made it (0 for any other write), the core or agent that made it, and the model's count of objects when it was first
published to the whole module, if it was (R146). -/
structure CoWrite where
  stamp : Nat
  val : Byte
  seen : NMap Nat
  id : Nat
  writer : Nat
  pub : Option Nat
  deriving DecidableEq, Repr

/-- A collective on this module (R343, R346, R351): its number in the peer set, the members, the binding, and the engine's
progress. `fired` lists chunks with the die whose engine took them and the coherence stamp then, in firing order; `holds` the pages
that a die's engine holds for, and whether the page is one of a tile that it reads (R354); `read` and `written` count the segments
of each chunk and of each destination; `data` holds tile segments by rank, chunk and segment. For each die's engine `turn` orders
service, `waitFrom` is the die's cycle when it last served the collective, and `aged` says that the wait since was long. -/
structure Coll where
  gallery : Nat
  context : Nat
  peers : Nat
  number : Nat
  count : Nat
  rank : Nat
  members : List Nat
  ckind : Nat
  cop : Nat
  ctype : Nat
  ccls : Nat
  tbase : Nat
  tpitch : Nat
  tbytes : Nat
  nchunk : Nat
  rbase : Nat
  fired : List (Nat × Nat × Nat)
  read : NMap Nat
  written : NMap Nat
  data : List (Nat × Nat × Nat × List Byte)
  failed : Option Nat
  holds : List (Nat × Bool × MissKey)
  aged : NMap Bool
  waitFrom : NMap Nat
  turn : NMap Nat
  deriving DecidableEq, Repr

/-- A segment that arrived for a collective not yet bound here (R346). -/
structure Early where
  peers : Nat
  number : Nat
  rank : Nat
  chunk : Nat
  seg : Nat
  digest : BitVec 64
  data : List Byte
  deriving DecidableEq, Repr

/-- A fabric port (R310, R356). -/
structure Port where
  trained : Bool
  up : Bool
  version : Nat
  peer : Nat
  peerPort : Nat
  failed : Bool
  deriving DecidableEq, Repr

/-- A memory window of a queue pair or of a host-bound context (R357, R358). -/
structure MemWin where
  base : Nat
  len : Nat
  read : Bool
  write : Bool
  deriving DecidableEq, Repr

/-- A queue pair of a front port (R357). -/
structure QPair where
  context : Nat
  wins : List MemWin
  deriving DecidableEq, Repr

/-- A publication at scope 4 on its way to other modules (R229, R230): the core that waits and the bytes. -/
structure FabricWrite where
  core : Nat
  bytes : List (Nat × Byte)
  deriving DecidableEq, Repr

/-- An invalidation issued and not yet in effect (R292). -/
structure Inval where
  context : Nat
  base : Nat
  len : Nat
  deriving DecidableEq, Repr

/-- A replay session of a queue (R312 to R316); `ids` are the entries of the session's gallery in the pass, `cores` the cores of
pass 1, and `shared` those of them whose counters another session owns (log 93). -/
structure Session where
  block : Nat
  passes : Nat
  queue : Nat
  sig : Bool
  wsarea : Nat
  wsmax : Nat
  results : Nat
  evsel : List Nat
  gallery : Option Nat
  pass : Nat
  running : Bool
  cores : List Nat
  shared : List Nat
  granules : List Nat
  ids : List Nat
  overflow : Bool
  writtenBack : Nat
  firstSigs : NMap (BitVec 64)
  sigs : NMap (BitVec 64)
  pins : NMap Nat
  status : Nat
  deriving DecidableEq, Repr

/-- What one module sends another over the fabric: bytes published at scope 4 (R230), a segment of a collective with the members'
digest (R346, R348), or a collective's failure with its status (R346, R354). -/
inductive Packet where
  | write (bytes : List (Nat × Byte))
  | segment (peers number rank chunk seg : Nat) (digest : BitVec 64) (data : List Byte)
  | failure (peers number status : Nat)
  deriving DecidableEq, Repr

/-- A packet on its way: the module it goes to, its virtual channel (R352) and the port it took (R356). -/
structure Transit where
  dest : Nat
  vc : Nat
  port : Nat
  packet : Packet
  deriving DecidableEq, Repr

/-- What the module hands to agents outside it: the control cores, the fabric, the front ports and its management
interface. -/
inductive Out where
  | fault (context : Nat) (report : List Byte)
  | missing (key : MissKey)
  | event (name : Nat) (args : List Nat)
  | service (status : Nat) (data : List Nat)
  | reply (bytes : List Byte)
  | packet (ident dest vc : Nat) (packet : Packet)
  | bringup (vc port linkmin linkmax number : Nat)
  | report (bytes : List Byte)
  | send (qp : Nat) (bytes : List Byte)
  | remoteError (window : Nat)
  deriving DecidableEq, Repr

/-- Where boot stands (R359). -/
inductive BootStage where
  | off | running | halted
  deriving DecidableEq, Repr

/-- The module's boot, identity and measurement state (R359 to R361, R365). -/
structure Boot where
  stage : BootStage
  revoked : BitVec 16
  fused : NMap (List Byte)
  flash : List (List Byte)
  meas : NMap (BitVec 384)
  number : BitVec 22
  numbered : Bool
  agreed : Option Nat
  pcieEndpoint : Bool
  deriving DecidableEq, Repr

/-- What the agenda asks to happen next: a step of the machine, or the issue of a flight's next operation (log 2). -/
inductive Action where
  | event (i : Instr)
  | issue (flight : Nat)
  deriving DecidableEq, Repr

/-- Addresses that the firmware sets at boot (R249, R345, R356). -/
structure Tables where
  queues : Nat
  peers : Nat
  routes : Nat
  deriving DecidableEq, Repr

/-- The state of one module. -/
structure State where
  /-- Which agent moves next (log 2). -/
  agenda : List Action
  /-- The flight whose operation is being issued (log 2). -/
  cur : Option Nat
  /-- Free choices made so far (log 3). -/
  free : Nat
  /-- Next number for flights, entries, galleries and other objects (log 2). -/
  nextId : Nat
  /-- Stamp of the latest write placed in any coherence order (R227). -/
  stamp : Nat
  /-- The constant time base in ns (R176). -/
  time : Nat
  /-- Latest write of each byte of physical memory, listed where it is not 0x00 (R227, log 1). -/
  mem : List Host.Cell
  /-- Coherence order of each byte written since reset, newest first (R227). -/
  co : NMap (List CoWrite)
  cores : NMap Core
  clusters : NMap Cluster
  dies : NMap Die
  contexts : NMap Context
  queues : NMap Queue
  galleries : NMap Gallery
  flights : NMap Flight
  windows : NMap Window
  colls : NMap Coll
  bound : NMap Nat
  /-- Collective traffic for launches not yet taken (R346). -/
  early : List Early
  /-- Failures announced for launches not yet taken: peer set, number and status (R346, R354). -/
  announced : List (Nat × Nat × Nat)
  ports : NMap Port
  fabricOut : NMap FabricWrite
  /-- Packets sent to other modules and not known to have arrived, in the order sent (R356). -/
  wire : NMap Transit
  /-- Modules that a link failure has left without a port (R356). -/
  unreached : List Nat
  qpairs : NMap QPair
  hostWins : NMap (Nat × MemWin)
  invals : NMap Inval
  sessions : NMap Session
  boot : Boot
  tables : Tables
  lastCluster : Nat
  outputs : List Out
  /-- Steps asked for that the state did not let happen (log 2). -/
  undone : Nat
  deriving DecidableEq, Repr

/-- Why the machine stops with a fault. -/
inductive Fault where
  /-- Raised where the selected flight does not exist or holds no clause in progress: an operation was asked of nothing.
  Safe: no run of the machine asks it. -/
  | noOperation
  deriving DecidableEq, Repr

/-- Why the machine refuses an instruction. -/
inductive Refusal where
  /-- An instruction without a meaning yet. Safe. -/
  | notModelled (mnemonic : String)
  deriving DecidableEq, Repr

/-- A quarter after reset: permission count 16 (R265), nothing queued. -/
def Quarter.reset : Quarter := ⟨16, 0, [], 0, [], [], 0, 0, []⟩

/-- A core after reset (R332; log 4). -/
def Core.reset : Core := ⟨[], [], [], [], [], [], none, 0, 0, [], [], [], 0⟩

/-- A cluster after reset: the arithmetic clock at 1,000 MHz (R3). -/
def Cluster.reset : Cluster := ⟨[], [], [], [], 1000, 0, 0⟩

/-- A trace core after reset: disabled (log 4). -/
def Trace.reset : Trace := ⟨0, 0, 0, 0, [], [], 0, 0, [], 0, none, 0, 0, false, [], false⟩

/-- A die after reset (log 4). -/
def Die.reset : Die := ⟨[], [], [], [], Trace.reset, [], [], [], 1000, 0, 0⟩

/-- A context the firmware has not configured (log 7). -/
def Context.reset : Context := ⟨false, 0, 0, 0, [], [], none, [], [], none, [], 32768⟩

/-- A queue after reset: disabled, tail 0 (R250; log 4). -/
def Queue.reset : Queue := ⟨false, 0, 0, 0, 0, 0, 0, 0, 0, 0, 0, 0, [], [], []⟩

/-- A fabric port after reset: not trained (log 4). -/
def Port.reset : Port := ⟨false, false, 0, 0, 0, false⟩

/-- Boot state at power-on: measurement registers zero (R360), module number 0 (R365); nothing in flash and no fuse set
(log 13). -/
def Boot.reset : Boot := ⟨.off, 0, [], [], [], 0, false, none, false⟩

/-- Control registers when a flight starts (R62, R130, R173). -/
def Ctl.start (promise : Bool) : Ctl := ⟨0, false, 0, 12, 7, 0, 0, 0, 0, 256, promise, 3⟩

/-- The machine right after reset: nothing resident, memory with nothing listed, the first wing to be placed from cluster 0
(R260). -/
def State.reset : State where
  agenda := []
  cur := none
  free := 0
  nextId := 1
  stamp := 0
  time := 0
  mem := []
  co := []
  cores := []
  clusters := []
  dies := []
  contexts := []
  queues := []
  galleries := []
  flights := []
  windows := []
  colls := []
  bound := []
  early := []
  announced := []
  ports := []
  fabricOut := []
  wire := []
  unreached := []
  qpairs := []
  hostWins := []
  invals := []
  sessions := []
  boot := Boot.reset
  tables := ⟨0, 0, 0⟩
  lastCluster := 47
  outputs := []
  undone := 0

end Sys2Proof.Machine
end

