-- ==== Sys2Proof/Machine/Ops.lean ====
section
/-! DEFINITION. The named operations that every meaning shares: access to the parts of the state, events and trace records,
registers as a flight uses them (spec/08_execution.md R194 to R198), the running of one operation of a clause, taking a trap
(spec/15_preemption.md R286 to R288) and the return from one (R289). -/

namespace Sys2Proof.Machine

/-- The answer of a step. -/
abbrev Res := Host.Outcome State Fault Refusal

/-- One value for each sibling. -/
structure Tri (α : Type) where
  x0 : α
  x1 : α
  x2 : α
  deriving DecidableEq, Repr

/-- The same value for every sibling. -/
def Tri.rep {α : Type} (x : α) : Tri α := ⟨x, x, x⟩
/-- Sibling k's value. -/
def Tri.get {α : Type} (t : Tri α) (k : Nat) : α := match k with | 0 => t.x0 | 1 => t.x1 | _ => t.x2
/-- Applies a function to each sibling's value. -/
def Tri.map {α β : Type} (f : α → β) (t : Tri α) : Tri β := ⟨f t.x0, f t.x1, f t.x2⟩
/-- Builds each sibling's value from its number. -/
def Tri.of {α : Type} (f : Nat → α) : Tri α := ⟨f 0, f 1, f 2⟩
/-- Combines two triples sibling by sibling. -/
def Tri.zip {α β γ : Type} (f : α → β → γ) (t : Tri α) (v : Tri β) : Tri γ := ⟨f t.x0 v.x0, f t.x1 v.x1, f t.x2 v.x2⟩
/-- The majority of a triple (R57). -/
def Tri.maj {α : Type} [DecidableEq α] (t : Tri α) : α × Bool := majority t.x0 t.x1 t.x2
/-- The values as a list. -/
def Tri.toList {α : Type} (t : Tri α) : List α := [t.x0, t.x1, t.x2]

/-! ## Places -/

/-- The cluster of a core (R2). -/
def clusterOf (core : Nat) : Nat := core / 8
/-- The die of a core (R2). -/
def dieOf (core : Nat) : Nat := core / 96

/-! ## Bytes -/

/-- The n low bytes of a number, lowest first (R6). -/
def leBytes : Nat → Nat → List Byte
  | 0, _ => []
  | n + 1, x => BitVec.ofNat 8 x :: leBytes n (x / 256)

/-- The number whose bytes are given, lowest first (R6). -/
def leNat : List Byte → Nat
  | [] => 0
  | b :: bs => b.toNat + 256 * leNat bs

/-- A list of slots as a bit mask (thread i at bit i). -/
def maskOf : List Nat → Nat
  | [] => 0
  | i :: is => 2 ^ i ||| maskOf is

/-! ## Access -/

namespace State

/-- A core's state. -/
def core (s : State) (c : Nat) : Core := mgetD s.cores c Core.reset
/-- Replaces a core's state. -/
def setCore (s : State) (c : Nat) (v : Core) : State := { s with cores := mset s.cores c v }
/-- A cluster's state. -/
def cluster (s : State) (c : Nat) : Cluster := mgetD s.clusters c Cluster.reset
/-- Replaces a cluster's state. -/
def setCluster (s : State) (c : Nat) (v : Cluster) : State := { s with clusters := mset s.clusters c v }
/-- A die's state. -/
def die (s : State) (d : Nat) : Die := mgetD s.dies d Die.reset
/-- Replaces a die's state. -/
def setDie (s : State) (d : Nat) (v : Die) : State := { s with dies := mset s.dies d v }
/-- A context's state. -/
def ctxt (s : State) (c : Nat) : Context := mgetD s.contexts c Context.reset
/-- Replaces a context's state. -/
def setCtxt (s : State) (c : Nat) (v : Context) : State := { s with contexts := mset s.contexts c v }
/-- A queue's state. -/
def queue (s : State) (q : Nat) : Queue := mgetD s.queues q Queue.reset
/-- Replaces a queue's state. -/
def setQueue (s : State) (q : Nat) (v : Queue) : State := { s with queues := mset s.queues q v }
/-- Replaces a flight. -/
def setFlight (s : State) (u : Nat) (f : Flight) : State := { s with flights := mset s.flights u f }
/-- Applies a change to a flight, if it exists. -/
def modFlight (s : State) (u : Nat) (g : Flight → Flight) : State := { s with flights := mmod s.flights u g }
/-- Replaces a gallery. -/
def setGallery (s : State) (g : Nat) (v : Gallery) : State := { s with galleries := mset s.galleries g v }
/-- Replaces a store window. -/
def setWindow (s : State) (w : Nat) (v : Window) : State := { s with windows := mset s.windows w v }
/-- A quarter of a core. -/
def quarter (s : State) (c q : Nat) : Quarter := mgetD (s.core c).quarters q Quarter.reset
/-- Replaces a quarter of a core. -/
def setQuarter (s : State) (c q : Nat) (v : Quarter) : State :=
  let k := s.core c
  s.setCore c { k with quarters := mset k.quarters q v }
/-- A step that the state does not let happen: nothing happens but the model's count of such steps (log 2). -/
def idle (s : State) : State := { s with undone := s.undone + 1 }
/-- Hands something to an agent outside the module. -/
def emit (s : State) (o : Out) : State := { s with outputs := o :: s.outputs }
/-- A fresh number. -/
def fresh (s : State) : Nat × State := (s.nextId, { s with nextId := s.nextId + 1 })

/-- An open choice among n candidates (log 3): free where n > 1, and the free value is then consumed. -/
def pick (s : State) (n : Nat) : Nat × State :=
  if Nat.ble n 1 then (0, s) else (Config.freeChoice s.free % n, { s with free := s.free + 1 })

/-- Whether every fabric write that a flight waits for, of a boundary or of an ST.rel's own publication, is acknowledged (R230). -/
def answered (s : State) (f : Flight) : Bool :=
  (f.pubWait.getD [] ++ (f.entries.map (·.sent)).flatten).all (fun i => (mget s.fabricOut i).isNone)

/-- The cycle number of a cluster's arithmetic clock (R3, R362). -/
def cyc (s : State) (cl : Nat) : Nat :=
  let c := s.cluster cl
  c.base + (s.time - c.since) * c.mhz / 1000

/-- The cycle number of a die's arithmetic clock (R3, R362). -/
def dieCyc (s : State) (d : Nat) : Nat :=
  let k := s.die d
  k.base + (s.time - k.since) * k.mhz / 1000

/-- The cycle number at a core. -/
def cycAt (s : State) (core : Nat) : Nat := s.cyc (clusterOf core)

end State

/-! ## Threads -/

/-- A slot without a thread counts as exited (R119). -/
def Thread.empty : Thread := ⟨0, 0, .exited, 0, 0, 0, false, false, none, 0, [], 0, none, 0, none, false, 0, 0⟩

namespace Flight

/-- The thread in a slot. -/
def thread (f : Flight) (slot : Nat) : Thread := mgetD f.threads slot Thread.empty
/-- Replaces the thread in a slot. -/
def setThread (f : Flight) (slot : Nat) (t : Thread) : Flight := { f with threads := mset f.threads slot t }
/-- Applies a change to the thread of a slot. -/
def modThread (f : Flight) (slot : Nat) (g : Thread → Thread) : Flight := { f with threads := mmod f.threads slot g }
/-- Applies a change to the threads of several slots. -/
def modThreads (f : Flight) (slots : List Nat) (g : Thread → Thread) : Flight :=
  slots.foldl (fun f i => f.modThread i g) f

/-- The slots of the live threads, ascending (R187). -/
def live (f : Flight) : List Nat := (f.threads.filter (fun p => p.2.st != .exited)).map (·.1)

/-- Whether a thread is runnable and not trap-masked (R187). -/
def runnable (t : Thread) : Bool := t.st == .ready || t.st == .polling

/-- Whether any thread is in handler mode (R206). -/
def inHandler (f : Flight) : Bool := f.threads.any (fun p => p.2.handler && p.2.st != .exited)

/-- The threads that enter the issue choice: handler-mode threads alone while there are any (R190, R206). -/
def choice (f : Flight) : List Nat :=
  if f.inHandler then (f.threads.filter (fun p => p.2.handler && p.2.st != .exited)).map (·.1)
  else (f.threads.filter (fun p => runnable p.2)).map (·.1)

/-- The least PC of some slots. -/
def minPc (f : Flight) : List Nat → Option Nat
  | [] => none
  | i :: is =>
    let p := (f.thread i).pc.toNat
    match f.minPc is with
    | none => some p
    | some q => some (min p q)

/-- The issue address (R190). -/
def issueAddr (f : Flight) : Option Nat :=
  let ch := f.choice
  match f.turn with
  | none => f.minPc ch
  | some (ts, _) =>
    match f.inHandler, f.minPc (ch.filter (fun i => ts.contains i)) with
    | false, some a => some a
    | _, _ => f.minPc ch

/-- The issue group (R190). -/
def group (f : Flight) (addr : Nat) : List Nat := f.choice.filter (fun i => (f.thread i).pc.toNat == addr)

/-- The number of a lane: sibling k of a slot, or the slot of a lane kernel (R185). -/
def laneOf (f : Flight) (slot k : Nat) : Nat := if f.lane then slot else 3 * slot + k

/-- The architectural name of a register field (R18). -/
def regName (f : Flight) (fld : Nat) : Nat :=
  if f.level == 3 || Nat.blt fld 16 then fld else 16 + (f.window + fld - 16) % 496

/-- The names of a block of n registers (R19). -/
def block (f : Flight) (fld n : Nat) : List Nat := (List.range n).map (fun i => f.regName (fld + i))

/-- A thread's copy k of a register; an unmapped name reads zero (R81, R194, R197). -/
def readReg (f : Flight) (name slot k : Nat) : Word :=
  match mget f.regs name with
  | none => 0
  | some (.uni r0 r1 r2) => if f.lane then r0 else (Tri.mk r0 r1 r2).get k
  | some (.lanes m) => mgetD m (f.laneOf slot k) 0

/-- A thread's three copies of a register; a lane kernel has one value (R4, R5). -/
def copies (f : Flight) (slot name : Nat) : Tri Word := Tri.of (fun k => f.readReg name slot k)

/-- Whether a thread computes one value for all siblings: a lane kernel or a solo stretch (R111). -/
def single (f : Flight) (slot : Nat) : Bool := f.lane || (f.thread slot).solo

/-- A register operand: in a solo stretch every sibling reads sibling 0's copy (R111). -/
def operand (f : Flight) (slot name : Nat) : Tri Word :=
  let t := f.copies slot name
  if f.single slot then Tri.rep t.x0 else t

/-- The lanes of a uniform register expanded to per-lane form (R197). -/
def expand (f : Flight) (r : RegVal) : NMap Word :=
  match r with
  | .lanes m => m
  | .uni r0 r1 r2 => (List.range 96).map (fun l => (l, if f.lane then r0 else (Tri.mk r0 r1 r2).get (l % 3)))

/-- Writes one thread's copies into per-lane form. -/
def setLanes (f : Flight) (slot : Nat) (v : Tri Word) (m : NMap Word) : NMap Word :=
  if f.lane then mset m slot v.x0
  else mset (mset (mset m (3 * slot) v.x0) (3 * slot + 1) v.x1) (3 * slot + 2) v.x2

/-- The form and value a register takes from a write (R197): uniform where U = 1 and every live thread is active. -/
def regAfter (f : Flight) (old : Option RegVal) (u all : Bool) (vals : List (Nat × Tri Word)) : RegVal :=
  match u && all, vals with
  | true, (_, v) :: _ => if f.lane then .uni v.x0 0 0 else .uni v.x0 v.x1 v.x2
  | _, _ =>
    let base := match old with
      | none => []
      | some r => f.expand r
    .lanes (vals.foldl (fun m p => f.setLanes p.1 p.2 m) base)

/-- Whether a write expands the register (R197). -/
def expands (f : Flight) (name : Nat) (all : Bool) : Bool :=
  match mget f.regs name with
  | some (.uni _ _ _) => !all
  | _ => false

/-- Writes a register in the threads listed (R194, R197). -/
def writeReg (f : Flight) (u all : Bool) (name : Nat) (vals : List (Nat × Tri Word)) : Flight :=
  { f with regs := mset f.regs name (f.regAfter (mget f.regs name) u all vals) }

/-- Writes a block of registers: the j-th value list belongs to the j-th name. -/
def writeRegs (f : Flight) (u all : Bool) : List Nat → List (List (Nat × Tri Word)) → Flight
  | n :: ns, v :: vs => (f.writeReg u all n v).writeRegs u all ns vs
  | _, _ => f

/-- Unmaps the names of a last-read release (R20, R194). -/
def unmap (f : Flight) (names : List Nat) : Flight := { f with regs := names.foldl mdel f.regs }

/-- The footprint: the number of mapped names (R194). -/
def footprint (f : Flight) : Nat := f.regs.length

/-- The names of a list that are not mapped, each once. -/
def unmapped (f : Flight) (names : List Nat) : List Nat :=
  (names.filter (fun n => (mget f.regs n).isNone)).eraseDups

/-- The descriptor's or control store's flag count. -/
def flagCount (f : Flight) (k : Nat) : Nat := mgetD f.flags k 0

/-- Raises a completion flag; 15 counts nowhere (R76). -/
def flagUp (f : Flight) (k : Nat) : Flight :=
  if k == 15 then f else { f with flags := mset f.flags k (f.flagCount k + 1) }
/-- Lowers a completion flag (R76). -/
def flagDown (f : Flight) (k : Nat) : Flight :=
  if k == 15 then f else { f with flags := mset f.flags k (f.flagCount k - 1) }
/-- How much a flag was lowered in a cycle (R75). -/
def lowIn (f : Flight) (now k : Nat) : Nat :=
  match mget f.lowered k with
  | some (c, n) => if c == now then n else 0
  | none => 0
/-- Notes that a flag was lowered in a cycle (R75). -/
def lowerAt (f : Flight) (now k : Nat) : Flight :=
  if k == 15 then f else { f with lowered := mset f.lowered k (now, f.lowIn now k + 1) }
/-- A flag as a start test of a cycle sees it: a count lowered in that cycle still stands (R75). -/
def flagSeen (f : Flight) (now k : Nat) : Nat := f.flagCount k + f.lowIn now k

/-- The entry with an identity. -/
def entry? (f : Flight) (e : Nat) : Option Entry := f.entries.find? (fun x => x.id == e)
/-- Replaces an entry. -/
def setEntry (f : Flight) (e : Entry) : Flight :=
  { f with entries := f.entries.map (fun x => if x.id == e.id then e else x) }
/-- Removes an entry. -/
def dropEntry (f : Flight) (e : Nat) : Flight := { f with entries := f.entries.filter (fun x => x.id != e) }

end Flight

/-- The active threads of an operation index (R78, R208). -/
def ClauseRun.activeAt (c : ClauseRun) (n : Nat) : List Nat :=
  c.active.filter (fun i => Nat.ble (mgetD c.entry i 1) n)

/-- The active threads of the operation about to issue. -/
def ClauseRun.act (c : ClauseRun) : List Nat := c.activeAt c.next

/-- The operation word about to issue. -/
def ClauseRun.word (c : ClauseRun) : Nat := (c.words[c.next - 1]?).getD 0

/-- The address after the clause (R79). -/
def ClauseRun.after (c : ClauseRun) : BitVec 64 := c.addr + BitVec.ofNat 64 (4 * (c.hdr.len + 2))

/-- The flag of the long-latency operation about to issue (R15). -/
def ClauseRun.flag (c : ClauseRun) : Nat :=
  Clause.flagFor c.hdr ((c.words.take (c.next - 1)).filter Clause.longWord).length

/-! ## Events and trace -/

/-- The first session with a property. -/
def State.sessionOf (s : State) (p : Session → Bool) : Option (Nat × Session) := s.sessions.find? (fun q => p q.2)

/-- Replaces a queue's session. -/
def State.setSession (s : State) (q : Nat) (z : Session) : State := { s with sessions := mset s.sessions q z }

/-- The session that owns a core's counters (R313; log 93). -/
def State.ownerOf (s : State) (core : Nat) : Option (Nat × Session) :=
  s.sessionOf (fun z => z.cores.contains core && !(z.shared.contains core))

/-- Whether a core counts events of a context and gallery (R316, R332): a session owns the counters of its cores (R313). -/
def State.counts (s : State) (core context gallery : Nat) : Bool :=
  let k := s.core core
  match s.ownerOf core with
  | some (_, z) => z.running && z.gallery == some gallery
  | none => k.cntCtl.getLsbD 0 && (k.cntCtl.getLsbD 1 || (k.cntCtl >>> 4).toNat % 4096 == context)

/-- The event that counter i of a core selects (R332). -/
def Core.selected (k : Core) (i : Nat) : Nat := (k.cntSel >>> (8 * i)).toNat % 64

/-- Adds to the counters of a core that select an event (R332). -/
def Core.add (k : Core) (ev n : Nat) : Core :=
  let up := fun (m : NMap Nat) (i : Nat) => if k.selected i == ev then mset m i ((mgetD m i 0 + n) % 2 ^ 64) else m
  { k with cntV := (List.range 4).foldl up k.cntV }

/-- Counts an event of a flight (R317, R333, R368); event 0x3F counts nothing. -/
def State.count (s : State) (f : Flight) (ev n : Nat) : State :=
  if n != 0 && ev != 0x3F && s.counts f.core f.context f.gallery then s.setCore f.core ((s.core f.core).add ev n)
  else s

/-- Counts an event of a flight's operation at the core where it issued (R368). -/
def State.countAt (s : State) (core : Nat) (f : Flight) (ev n : Nat) : State := s.count { f with core := core } ev n

/-- Counts an event that no operation, flight or hall causes: only with `all` = 1, never by a session (R368). -/
def State.countAll (s : State) (core ev n : Nat) : State :=
  let k := s.core core
  if k.cntCtl.getLsbD 0 && k.cntCtl.getLsbD 1 && (s.ownerOf core).isNone then s.setCore core (k.add ev n) else s

/-- Whether a record precedes another in a buffer (R325). -/
def TraceRec.before (a b : TraceRec) : Bool :=
  let x := [a.stamp, a.core, a.quarter, a.slot, a.thread]
  let y := [b.stamp, b.core, b.quarter, b.slot, b.thread]
  (x.zip y).foldr (fun p r => Nat.blt p.1 p.2 || (p.1 == p.2 && r)) false

/-- Puts a record into the queue at its place (R325). -/
def insertRec (r : TraceRec) : List TraceRec → List TraceRec
  | [] => [r]
  | x :: xs => if r.before x then r :: x :: xs else x :: insertRec r xs

/-- The lost record that stands in the queue for one record (R321, R325). -/
def TraceRec.mark (r : TraceRec) : TraceRec := { r with w0 := 4, w1 := 0, w2 := 0, w3 := 1, bypass := true }

/-- Notes in the queue, at its place, a record that found it full; one lost record stands for all that were lost at one place (R325). -/
def insertLost (r : TraceRec) : List TraceRec → List TraceRec
  | [] => [r.mark]
  | x :: xs =>
    if r.before x then r.mark :: x :: xs
    else if x.isLost && (match xs with | y :: _ => r.before y | [] => true) then { x with w3 := x.w3 + 1 } :: xs
    else x :: insertLost r xs

/-- The records that a trace core's queue holds of its 1,024: those that wait for the sieve, neither clock-change nor lost records
(R324, R325). -/
def Trace.queued (t : Trace) : Nat := (t.queue.filter (fun r => !r.bypass)).length

/-- Offers a record to a die's trace core (R175, R325): lost where its queue of 1,024 is full. -/
def State.offer (s : State) (f : Flight) (r : TraceRec) : State :=
  let d := dieOf f.core
  let k := s.die d
  let t := k.trace
  if !(t.flags.testBit 0) || t.context != f.context then s
  else
    let s := s.count f 0x35 1
    if Nat.ble 1024 t.queued then
      let t2 : Trace := { t with queue := insertLost r t.queue, lostTotal := t.lostTotal + 1 }
      (s.setDie d { k with trace := t2 }).count f 0x36 1
    else
      let t2 : Trace := { t with queue := insertRec r t.queue }
      s.setDie d { k with trace := t2 }

/-- The naming words 1 and 2 of a record (R320, R322): a task flight carries hall 0xFFFF_FFFF and storey 0. -/
def State.naming (s : State) (f : Flight) (hidx : Nat) : Nat × Nat :=
  match mget s.galleries f.gallery with
  | none => (0xFFFFFFFF, hidx)
  | some g =>
    let gq := (g.queue % 64) * 2 ^ 17 + (g.seq % 512) * 2 ^ 23
    match f.task with
    | some _ => (0xFFFFFFFF, hidx + gq)
    | none =>
      let per := g.launch.gx * g.launch.gy * g.launch.gz
      (f.hall, hidx + (f.hall / max per 1 % 16) * 2 ^ 13 + gq)

/-- A flight event record (R321, type 3), emitted only while flag bit 2 of the trace block is set (R326). -/
def State.flightEvent (s : State) (f : Flight) (kind value : Nat) : State :=
  if !((s.die (dieOf f.core)).trace.flags.testBit 2) then s
  else
    let h0 := match f.threads with | (_, t) :: _ => t.hidx | [] => 0
    let n := s.naming f h0
    s.offer f ⟨s.time, f.core, f.quarter, f.slot, 0, 3 + kind * 2 ^ 24, n.1, n.2, value, false⟩

/-! ## Wakening held flights -/

/-- Lets every flight be considered again: whether its next operation is held is looked at anew when something happened (R77,
R127, R145, R155, R196). -/
def State.wake (s : State) : State := { s with flights := mmapv (fun f => { f with stall := none }) s.flights }

/-! ## The register pool (R196) -/

namespace State

/-- The flights resident in a quarter. -/
def inQuarter (s : State) (core q : Nat) : List (Nat × Flight) :=
  s.flights.filter (fun p => p.2.core == core && p.2.quarter == q)

/-- Registers a flight holds beyond its reservation (R196). -/
def drawnOf (f : Flight) : Nat := f.footprint - f.typical

/-- The pool: 2,048 less reservations and registers drawn (R196). -/
def pool (s : State) (core q : Nat) : Nat :=
  2048 - ((s.inQuarter core q).map (fun p => p.2.typical + drawnOf p.2)).sum

/-- The oldest resident flight of a quarter (R185). -/
def oldest : List (Nat × Flight) → Option (Nat × Flight)
  | [] => none
  | p :: ps =>
    match oldest ps with
    | none => some p
    | some o => if Nat.ble p.2.age o.2.age then some p else some o

/-- The holdback H (R196). -/
def holdback (s : State) (core q : Nat) : Nat :=
  match oldest (s.inQuarter core q) with
  | none => 0
  | some o => o.2.peak - o.2.footprint

/-- Whether a flight may take its footprint to n registers (R196). -/
def canMap (s : State) (u : Nat) (f : Flight) (n : Nat) : Bool :=
  let need := (n - f.typical) - drawnOf f
  if need == 0 then true
  else
    let p := s.pool f.core f.quarter
    match oldest (s.inQuarter f.core f.quarter) with
    | none => Nat.ble need p
    | some o => if o.1 == u then Nat.ble need p else Nat.ble (need + (o.2.peak - o.2.footprint)) p

end State

/-! ## Taking a trap -/

/-- A trap of an operation (R286, R287): failing address, element, the threads concerned and the cause. -/
structure Trap where
  code : TrapCode
  cause : Nat
  addr : Nat
  elem : Nat
  threads : List Nat
  deriving DecidableEq, Repr

/-- The number of a trap code (R286). -/
def TrapCode.num : TrapCode → Nat
  | .illegal => 1 | .privilege => 2 | .misaligned => 3 | .translation => 4 | .permission => 5 | .late => 6
  | .instC => 7 | .instD => 8 | .instZ => 9 | .trap => 10 | .bkpt => 11 | .macroFault => 12 | .dataError => 13
  | .binding => 14

/-- A fault record (R287). -/
def faultRecord (f : Flight) (t : Trap) (op : Nat) (body : Option Nat) (word pc : Nat) (ops : List Word) : List Byte :=
  leBytes 1 t.code.num ++ leBytes 1 t.cause ++ leBytes 1 op
    ++ leBytes 1 (match body with | some b => b % 32 + 128 | none => 0)
    ++ leBytes 4 word ++ leBytes 8 pc ++ leBytes 8 t.addr ++ leBytes 4 t.elem
    ++ leBytes 4 (f.core + f.quarter * 2 ^ 9 + f.slot * 2 ^ 11)
    ++ ((ops.take 4).map (fun w => leBytes 4 w.toNat)).flatten ++ List.replicate (16 - 4 * min 4 ops.length) 0#8
    ++ leBytes 12 (maskOf t.threads) ++ leBytes 4 0

/-- Writes a fault record into the context's fault ring and interrupts the control cores (R287). -/
def State.report (s : State) (f : Flight) (r : List Byte) : State :=
  let c := s.ctxt f.context
  (s.setCtxt f.context { c with faults := c.faults ++ [r] }).emit (.fault f.context r)

/-- A trap is raised: its record is written, the event counted and the trace told (R287, R321, R333). -/
def State.raiseTrap (s : State) (f : Flight) (code : TrapCode) (r : List Byte) : State :=
  ((s.report f r).count f 0x3E 1).flightEvent f 2 code.num

/-- Taking a trap that freezes the flight (R188, R286, R287): the record is written, and the flight issues nothing until the
control cores act. Thread states, PCs and the clause in progress stand. -/
def State.freezeTrap (s : State) (u : Nat) (f : Flight) (t : Trap) (op : Nat) (body : Option Nat) (word pc : Nat)
    (ops : List Word) : State :=
  let r := faultRecord f t op body word pc ops
  let s := s.setFlight u { f with frozen := some ⟨t.code, op, r, none⟩, stall := none }
  s.raiseTrap f t.code r

/-- Delivering a late fault (R288): its record is written and the flight frozen; it is delivered once. -/
def State.deliverLate (s : State) (u : Nat) (f : Flight) (l : LateFault) (op : Nat) : State :=
  let late := f.late.filter (fun x => x != l)
  let s := s.setFlight u { f with frozen := some ⟨.late, op, l.report, none⟩, stall := none, late := late }
  (s.count f 0x3D 1).raiseTrap f .late l.report

/-- The pending late fault whose operation issued first, of some (R288). -/
def firstLate : List LateFault → Option LateFault
  | [] => none
  | l :: ls =>
    match firstLate ls with
    | none => some l
    | some m => if Nat.ble l.order m.order then some l else some m

/-- The values that a fault record gives in `ops`: registers read, in operand-block order, of the lowest active thread,
sibling 0 (R287). -/
def trapOps (f : Flight) (c : ClauseRun) (srcs : List Nat) : List Word :=
  match c.act with
  | [] => []
  | i :: _ => (srcs.take 4).map (fun n => f.readReg n i 0)

/-- Taking a trap at the operation about to issue (R127, R188): nothing of the operation happens, and earlier operations of
the clause stand. -/
def State.takeTrap (s : State) (u : Nat) (f : Flight) (c : ClauseRun) (srcs : List Nat) (t : Trap) : State :=
  s.freezeTrap u f t (match c.body with | some _ => 1 | none => c.next) (c.body.map (· + c.next)) c.word c.addr.toNat
    (trapOps f c srcs)

/-! ## The end of an operation and of a clause -/

/-- The first operation index from n with an active thread (R208), looking at k more indexes. -/
def ClauseRun.nextActive (c : ClauseRun) : Nat → Nat → Option Nat
  | 0, _ => none
  | k + 1, n => if (c.activeAt n).isEmpty then c.nextActive k (n + 1) else some n

/-- Whether the hint of R80 asks for anything: a turn in progress, or a runnable thread at a higher PC. -/
def ClauseRun.hints (c : ClauseRun) (f : Flight) : Bool :=
  (c.hdr.yield || c.yielded) && f.ctl.prog && (f.turn.isSome || c.above)

/-- Whether a macro body in progress asked to yield (R80, R192). -/
def Flight.bodyHint (f : Flight) : Bool :=
  match f.body with
  | some b => b.hint
  | none => false

/-- Notes that a macro body asked to yield. -/
def Flight.noteHint (f : Flight) : Flight := { f with body := f.body.map (fun b => { b with hint := true }) }

/-- The fairness update after an issue slot (R191, R192): the timer, the end of a turn, and whether a turn is due; `asked` says
that an earlier clause of a macro body that ends here yielded. Within a macro body no turn begins or ends (R38): the timer and the
count go on, and what the body's clauses asked for happens after its last clause (DEDUCED, log 79). A YIELD that no thread
reaches does not issue, so its clause does not yield (DESIGN CHOICE, log 115). Slots of handler threads change nothing (R206). -/
def Flight.fairness (f : Flight) (c : ClauseRun) (asked : Bool) : Flight :=
  if c.handler then f
  else
    let rn := f.choice
    let yields := (!c.vacant && (c.hdr.yield || c.yielded)) || asked
    let hint := (!c.vacant && c.hints f) || asked
    match f.turn with
    | none =>
      let k := if c.above then f.fairC + 1 else 0
      let fair := if f.narrow && f.ctl.fair == 0 then 256 else f.ctl.fair.toNat
      let g := { f with fairC := k }
      if f.body.isSome then (if hint then g.noteHint else g)
      else if f.ctl.prog && ((fair != 0 && Nat.ble fair k) || hint) then { g with fairDue := some rn }
      else g
    | some (ts, k) =>
      let ends := c.backward || yields || Nat.ble 64 (k + 1) || (ts.filter (fun i => rn.contains i)).isEmpty || !f.ctl.prog
      if f.body.isSome then (let g := { f with turn := some (ts, k + 1) }; if yields then g.noteHint else g)
      else if ends then { f with turn := none, fairC := 0 }
      else { f with turn := some (ts, k + 1) }

/-- The threads of a macro body that run on (R38, R169). -/
def bodyGroup (f : Flight) (b : BodyRun) : List Nat := b.group.filter (fun i => f.choice.contains i)

/-- Threads of a macro body that no transfer moved stand after the MCALL, and the body is over (R169). -/
def Flight.endBody (f : Flight) (b : BodyRun) (after : BitVec 64) (moved : List Nat) : Flight :=
  let stay := b.group.filter (fun i => !moved.contains i && (f.thread i).st != .masked)
  { f.modThreads stay (fun t => { t with pc := after, fromOp := 0, fromBody := none }) with body := none }

/-- The end of a clause (R79): threads of the issue group that no transfer moved go to the next clause. Within a macro body
the body moves on; after its last clause, or when none of its threads runs on, the threads stand after the MCALL (R169). -/
def Flight.endClause (f : Flight) (c : ClauseRun) : Flight :=
  match f.body with
  | none =>
    let stay := c.group.filter (fun i => !c.moved.contains i)
    let f := f.modThreads stay (fun t => { t with pc := c.after, fromOp := 0, fromBody := none })
    Flight.fairness { f with clause := none } c false
  | some b =>
    if c.body.isNone then Flight.fairness { f with clause := none } c false
    else
      let pos := b.pos + c.hdr.len + 2
      if Nat.blt pos b.words.length && !(bodyGroup f b).isEmpty then
        Flight.fairness { f with clause := none, body := some { b with pos := pos } } c false
      else if Nat.blt pos b.words.length then Flight.fairness { f with clause := none, body := none } c f.bodyHint
      else Flight.fairness { f.endBody b (c.addr + 8) c.moved with clause := none } c f.bodyHint

/-- Moves past the operation that issued (R13, R264): to the next operation with an active thread, or to the end of the
clause. -/
def Flight.advance (f : Flight) (c : ClauseRun) : Flight :=
  match c.nextActive (c.words.length - c.next) (c.next + 1) with
  | some n => { f with clause := some { c with next := n } }
  | none => f.endClause c

/-- A flight that moves past an operation at a cycle: where its clause has issued whole and held YIELD, the flight is chosen last
for the next 32 cycles (R120). -/
def Flight.moveOn (f : Flight) (c : ClauseRun) (now : Nat) : Flight :=
  let g := f.advance c
  if c.yielded && g.clause.isNone then { g with yieldEnd := now + 32 } else g

/-- The operation of a flight has issued: the flight moves on and held flights are looked at again. -/
def State.finishOp (s : State) (u : Nat) : State :=
  match mget s.flights u with
  | none => s
  | some f =>
    match f.clause with
    | none => s.wake
    | some c => (s.setFlight u (f.moveOn c (s.cycAt f.core))).wake

/-! ## Running an operation -/

/-- How the attempt to issue an operation ends: it issues, the flight holds at it, it traps, or the attempt leaves a state in
which the operation has not issued. -/
inductive Eff where
  | done (s : State)
  | stay (s : State)
  | hold (r : Stall)
  | trap (t : Trap)
  deriving DecidableEq, Repr

/-- The registers of an operation: those it reads in operand-block order (R281), those it writes, those whose last read it
marks (R20), whether U is set, and the occupancy (R83, R96, R114, R149). -/
structure OpRegs where
  srcs : List Nat
  dsts : List Nat
  rels : List Nat
  u : Bool
  occ : Nat
  deriving DecidableEq, Repr

/-- The registers of some operand blocks in the order of R281: the first of each block, then the further ones. -/
def inOrder (blocks : List (List Nat)) : List Nat :=
  (blocks.map (List.take 1)).flatten ++ (blocks.map (List.drop 1)).flatten

/-- Whether every live thread is active (R20, R197). -/
def allActive (f : Flight) (c : ClauseRun) : Bool := c.act == f.live

/-- The flight after the last-read releases of an operation (R20). -/
def released (f : Flight) (c : ClauseRun) (r : OpRegs) : Flight := if allActive f c then f.unmap r.rels else f

/-- The late fault of a declined binding load that the operation's reads deliver (R306). -/
def readLate (f : Flight) (r : OpRegs) : Option LateFault :=
  firstLate (f.late.filter (fun l => l.dests.any (fun n => r.srcs.contains n)))

/-- The checks before an operation issues: a late fault on a register it reads (R306), the scoreboard (R77), the peak
footprint (R195) and the pool (R196). -/
def regCheck (s : State) (u : Nat) (f : Flight) (c : ClauseRun) (r : OpRegs) : Option Eff :=
  match readLate f r with
  | some l => some (.stay (s.deliverLate u f l c.next))
  | none =>
  if (r.srcs ++ r.dsts).any (fun n => f.sb.contains n) then some (.hold .register)
  else
    let g := released f c r
    let n := g.footprint + (g.unmapped r.dsts).length
    if Nat.blt f.peak n && Nat.blt f.footprint n then some (.trap ⟨.permission, 0, 0, 0, c.act⟩)
    else if !(s.canMap u f n) then some (.hold .register)
    else none

/-- Applies an attempt's end to the state. -/
def settle (s : State) (u : Nat) (f : Flight) (c : ClauseRun) (srcs : List Nat) : Eff → Res
  | .done t => .next (t.finishOp u)
  | .stay t => .next t
  | .hold r => .next (s.setFlight u { f with stall := some r })
  | .trap t => .next (s.takeTrap u f c srcs t)

/-- Runs an operation of the selected flight: register checks, then its own effect. -/
def runOp (s : State) (regs : Flight → OpRegs) (k : Nat → Flight → ClauseRun → Eff) : Res :=
  match s.cur with
  | none => .fault .noOperation
  | some u =>
    match mget s.flights u with
    | none => .fault .noOperation
    | some f =>
      match f.clause with
      | none => .fault .noOperation
      | some c =>
        let r := regs f
        settle s u f c r.srcs ((regCheck s u f c r).getD (k u f c))

/-- Occupies the quarter's datapath (R83) and counts the issue (R317 events 0x02 to 0x04) and its releases, expansions and
draws (R333 events 0x32 to 0x34); `all` says whether every live thread writes (R197). -/
def State.occupyAs (s : State) (f : Flight) (c : ClauseRun) (r : OpRegs) (all : Bool) : State :=
  let exp := (r.dsts.filter (fun n => f.expands n all)).length
  let g := released f c r
  let n := g.footprint + (g.unmapped r.dsts).length
  let q := s.quarter f.core f.quarter
  let s := s.setQuarter f.core f.quarter { q with freeAt := s.cycAt f.core + r.occ + 2 * exp }
  let s := ((s.count f 0x02 1).count f 0x03 c.act.length).count f 0x04 (if Clause.longWord c.word then 1 else 0)
  ((s.count f 0x33 exp).count f 0x34 (if all then r.rels.length else 0)).count f 0x32
    ((n - f.typical) - State.drawnOf f)

/-- Occupies the datapath for an operation that writes in its active threads (R83, R197). -/
def State.occupy (s : State) (f : Flight) (c : ClauseRun) (r : OpRegs) : State := s.occupyAs f c r (allActive f c)

/-- The values an operation writes: with U = 1, those of the lowest active thread for every active thread (R198). -/
def spread (u : Bool) (act : List Nat) (g : Nat → List (Tri Word)) : List (Nat × List (Tri Word)) :=
  match u, act with
  | true, i :: _ => let v := g i; act.map (fun j => (j, v))
  | _, _ => act.map (fun j => (j, g j))

/-- The values of the j-th destination register of each thread. -/
def column (vals : List (Nat × List (Tri Word))) (j : Nat) : List (Nat × Tri Word) :=
  vals.map (fun p => (p.1, (p.2[j]?).getD (Tri.rep 0)))

/-- The flight with an operation's destinations written, its last reads released first (R20, R194, R197). -/
def writeDests (f : Flight) (c : ClauseRun) (r : OpRegs) (vals : List (Nat × List (Tri Word))) : Flight :=
  (released f c r).writeRegs r.u (allActive f c) r.dsts ((List.range r.dsts.length).map (column vals))

/-- An operation on registers (R81): each active thread's results are computed from the flight before the operation, and the
destinations are written. -/
def regOp (s : State) (regs : Flight → OpRegs) (g : Flight → Nat → List (Tri Word)) : Res :=
  runOp s regs fun u f c =>
    let r := regs f
    .done ((s.setFlight u (writeDests f c r (spread r.u c.act (g f)))).occupy f c r)

/-! ## Return from a trap (R289) -/

/-- The control cores let a frozen flight go on: at the trapping operation, or past it. -/
def State.unfreezeTrap (s : State) (u : Nat) (f : Flight) (how : ResumeHow) : State :=
  let g := { f with frozen := none }
  match how, f.clause with
  | .retry, _ => (s.setFlight u g).wake
  | .next, some c => (s.setFlight u (g.moveOn c (s.cycAt f.core))).wake
  | .next, none => (s.setFlight u g).wake

end Sys2Proof.Machine
end

