-- ==== Sys2Proof/Machine/Operands.lean ====
section
/-! DEFINITION. Operand forms: which registers each instruction format reads, writes and releases (spec/01_words.md R16 to
R34), pairs and blocks, uniform and per-thread operands of engines (spec/06_isa_engines.md R143), and the addresses threads
form (spec/05_isa_memory.md R127). -/

namespace Sys2Proof.Machine

/-- Names of the last reads marked by LA and LB (R20). -/
def relOf (la : Bool) (names : List Nat) : List Nat := if la then names else []

/-- Half an occupancy, at least 1, where U = 1 (R96). -/
def halfIf (u : Bool) (occ : Nat) : Nat := if u then max 1 (occ / 2) else occ

/-- Occupancy of an integer instruction: 1 where U = 1 (R83). -/
def oneIf (u : Bool) (occ : Nat) : Nat := if u then 1 else occ

/-- Format T with registers d, a and b of the given widths; `acc` reads d as well (R84, R98). -/
def regs3 (u : Bool) (d a b : BitVec 7) (wd wa wb : Nat) (la lb acc : Bool) (occ : Nat) (f : Flight) : OpRegs :=
  let nd := f.block d.toNat wd
  let na := f.block a.toNat wa
  let nb := f.block b.toNat wb
  ⟨inOrder [if acc then nd else [], na, nb], nd, relOf la na ++ relOf lb nb, u, occ⟩

/-- Registers d and a of the given widths. -/
def regs2 (u : Bool) (d a : BitVec 7) (wd wa : Nat) (la acc : Bool) (occ : Nat) (f : Flight) : OpRegs :=
  let nd := f.block d.toNat wd
  let na := f.block a.toNat wa
  ⟨inOrder [if acc then nd else [], na], nd, relOf la na, u, occ⟩

/-- Register sources alone. -/
def regsS (srcs : List (BitVec 7 × Nat)) (rels : List (BitVec 7)) (u : Bool) (occ : Nat) (f : Flight) : OpRegs :=
  ⟨inOrder (srcs.map (fun p => f.block p.1.toNat p.2)), [], rels.map (fun r => f.regName r.toNat), u, occ⟩

/-- A destination block alone. -/
def regsD (d : BitVec 7) (n : Nat) (u : Bool) (occ : Nat) (f : Flight) : OpRegs :=
  ⟨[], f.block d.toNat n, [], u, occ⟩

/-- No register. -/
def regs0 (occ : Nat) (_ : Flight) : OpRegs := ⟨[], [], [], false, occ⟩

namespace Flight

/-- A single-register operand of a thread (R81, R111). -/
def opnd (f : Flight) (slot : Nat) (fld : BitVec 7) : Tri Word := f.operand slot (f.regName fld.toNat)

/-- A pair operand of a thread (R6). -/
def opndPair (f : Flight) (slot : Nat) (fld : BitVec 7) : Tri DWord :=
  (f.operand slot (f.regName fld.toNat)).zip (fun lo hi => pairOf lo hi) (f.operand slot (f.regName (fld.toNat + 1)))

/-- A block operand of a thread: for each sibling, its words. -/
def opndBlock (f : Flight) (slot : Nat) (fld : BitVec 7) (n : Nat) : Tri (List Word) :=
  Tri.of (fun k => (f.block fld.toNat n).map (fun name => (f.operand slot name).get k))

/-- A per-thread operand of an engine: the majority of the siblings (R143). -/
def majReg (f : Flight) (slot : Nat) (fld : BitVec 7) : Word × Bool := (f.opnd slot fld).maj

/-- A per-thread pair of an engine (R143). -/
def majPair (f : Flight) (slot : Nat) (fld : BitVec 7) : DWord × Bool := (f.opndPair slot fld).maj

end Flight

/-- A register word and the value of the thread's pair, taken apart into its halves. -/
def halves (x : DWord) : List Word := [loHalf x, hiHalf x]

/-- The triples of a pair destination from a triple of pairs. -/
def pairDest (t : Tri DWord) : List (Tri Word) := [t.map loHalf, t.map hiHalf]

/-- The lowest-numbered active thread (R143, R198). -/
def lowest (c : ClauseRun) : Nat := (c.act.head?).getD 0

/-- The value of a block of words, first register lowest (R6). -/
def wordsNat : List Word → Nat
  | [] => 0
  | w :: ws => w.toNat + 2 ^ 32 * wordsNat ws

/-- The words of a number, lowest first. -/
def natWords : Nat → Nat → List Word
  | 0, _ => []
  | n + 1, x => BitVec.ofNat 32 x :: natWords n (x / 2 ^ 32)

/-- A thread's address of a memory operand: the majority of the siblings (R57, R127). -/
structure AddrOf where
  slot : Nat
  addr : Nat
  unanimous : Bool
  deriving DecidableEq, Repr

/-- Global addresses of the active threads: pair plus offset, modulo 2^64 (R127). With U = 1, the lowest active thread's
address alone (R133). -/
def globalAddrs (f : Flight) (c : ClauseRun) (u : Bool) (base : BitVec 7) (off : Nat) : List AddrOf :=
  let one := fun i =>
    let m := ((f.opndPair i base).map (fun p => p + BitVec.ofNat 64 off)).maj
    AddrOf.mk i m.1.toNat m.2
  match u, c.act with
  | true, i :: _ => [one i]
  | _, act => act.map one

/-- Store and constant offsets of the active threads: register plus offset, modulo 2^32 (R127). -/
def storeAddrs (f : Flight) (c : ClauseRun) (u : Bool) (base : BitVec 7) (off : Nat) : List AddrOf :=
  let one := fun i =>
    let m := ((f.opnd i base).map (fun p => p + BitVec.ofNat 32 off)).maj
    AddrOf.mk i m.1.toNat m.2
  match u, c.act with
  | true, i :: _ => [one i]
  | _, act => act.map one

end Sys2Proof.Machine
end

