-- ==== Sys2Proof/Machine/Flags.lean ====
section
/-! DEFINITION. The flags an operation leaves: the sticky exception flags (spec/02_numbers.md R52), the rounding counter and
the drawn bit (R54, R55), and the instability conditions (R60, R61; spec/10_validation.md R203). -/

namespace Sys2Proof.Machine

/-- Sets exception flags of the flight (R52). -/
def Flight.raise (f : Flight) (fl : Flags) : Flight := { f with ctl := { f.ctl with fexc := f.ctl.fexc ||| fl } }

/-- Mix64 (R55). -/
def mix64 (z : BitVec 64) : BitVec 64 :=
  let z := z ^^^ (z >>> 30)
  let z := z * 0xBF58476D1CE4E5B9#64
  let z := z ^^^ (z >>> 27)
  let z := z * 0x94D049BB133111EB#64
  z ^^^ (z >>> 31)

/-- Draw(t, k, n) (R55). -/
def Flight.draw (f : Flight) (t k n : Nat) : Bool :=
  if f.ctl.rsrc then f.ctl.rpat.getLsbD ((3 * n + k) % 64)
  else (mix64 (f.seed + BitVec.ofNat 64 (3 * t + k) * 0x9E3779B97F4A7C15#64 + mix64 (BitVec.ofNat 64 n))).getLsbD 63

/-- How sibling k of a thread rounds its i-th value of an operation: under `ctl.round` in lane kernels and solo stretches, by
a drawn bit otherwise (R55, R94). -/
def Flight.rnd (f : Flight) (slot k i : Nat) : Rnd :=
  if f.single slot then Rnd.all (rmodeOf f.ctl.round.toNat)
  else
    let t := f.thread slot
    Rnd.drawn (f.draw t.t k ((t.rcount.toNat + i) % 2 ^ 48))

/-- Advances the rounding counters of the active threads (R54). -/
def Flight.advanceCounters (f : Flight) (act : List Nat) (n : Nat) : Flight :=
  f.modThreads act (fun t => { t with rcount := t.rcount + BitVec.ofNat 48 n })

/-- The instability conditions (R60). -/
inductive Cond where
  | C | D | Z
  deriving DecidableEq, Repr

/-- A condition met by a thread, with what the record keeps (R203, R209): a split address, CHKD, and the digit counts. -/
structure Meet where
  cond : Cond
  split : Bool
  chkd : Bool
  dig : Nat
  deriving DecidableEq, Repr

/-- The number of a condition in `sr.icause` (R209). -/
def Cond.num : Cond → Nat
  | .C => 1
  | .D => 2
  | .Z => 3

/-- Adds one to a saturating 10-bit counter (R62). -/
def satInc (x : BitVec 10) : BitVec 10 := if x == 1023 then x else x + 1

/-- Counts a condition (R61, R62). -/
def Ctl.bump (k : Ctl) : Cond → Ctl
  | .C => { k with ccnt := satInc k.ccnt }
  | .D => { k with dcnt := satInc k.dcnt }
  | .Z => { k with zcnt := satInc k.zcnt }

/-- Whether the trap of a condition is enabled (R62). -/
def Ctl.enabled (k : Ctl) : Cond → Bool
  | .C => k.itrap.getLsbD 0
  | .D => k.itrap.getLsbD 1
  | .Z => k.itrap.getLsbD 2

/-- The event that counts a condition (R333). -/
def Cond.event : Cond → Nat
  | .C => 5
  | .D => 6
  | .Z => 7

/-- The record of a masked thread (R203, R209). `target` is the new PC of a BRX or RET. -/
def instRecord (c : ClauseRun) (m : Meet) (target : Option (BitVec 64)) : InstRec :=
  let cause := m.cond.num + (if m.split then 4 else 0) + (if m.chkd then 8 else 0)
  let word := BitVec.ofNat 32 c.word
  match c.body, target with
  | some b, _ => ⟨cause, c.addr, c.next + (b + c.next) % 32 * 16 + 512, word, m.dig, c.addr, 0, some (b + c.next + 1)⟩
  | none, some t => ⟨cause, c.addr, c.next, word, m.dig, t, 0, none⟩
  | none, none =>
    if c.next == c.words.length then ⟨cause, c.addr, c.next, word, m.dig, c.after, 0, none⟩
    else ⟨cause, c.addr, c.next, word, m.dig, c.addr, c.next + 1, none⟩

/-- A thread masked off with its record (R61, R203). -/
def Thread.mask (t : Thread) (r : InstRec) : Thread :=
  { t with st := .masked, inst := some r, pc := r.resumePc, fromOp := r.resumeOp, fromBody := r.resumeBody }

/-- A thread meets a condition (R61): it is counted; where the trap is enabled, and outside handler mode (R206), the thread
is masked and executes nothing further. -/
def Flight.meet (f : Flight) (slot : Nat) (m : Meet) (target : Option (BitVec 64)) : Flight :=
  let g := { f with ctl := f.ctl.bump m.cond }
  match f.clause with
  | none => g
  | some c =>
    let t := f.thread slot
    if f.ctl.enabled m.cond && !t.handler && t.st != .masked then
      let g := g.setThread slot (t.mask (instRecord c m target))
      { g with clause := some { c with active := c.active.filter (· != slot), moved := slot :: c.moved } }
    else g

/-- Threads meet conditions, in ascending order. -/
def Flight.meets (f : Flight) : List (Nat × Meet) → Flight
  | [] => f
  | (i, m) :: ms => (f.meet i m none).meets ms

/-- Counts the condition events of a flight (R333 events 5 to 7). -/
def State.countMeets (s : State) (f : Flight) : List (Nat × Meet) → State
  | [] => s
  | (_, m) :: ms => (s.count f m.cond.event 1).countMeets f ms

/-- A split address or index (R60). -/
def splitMeet : Meet := ⟨.D, true, false, 0⟩

/-- The threads whose addresses are split (R60, R127). -/
def splitMeets (as : List AddrOf) : List (Nat × Meet) :=
  (as.filter (fun a => !a.unanimous)).map (fun a => (a.slot, splitMeet))

/-- What one sibling of a thread computes: the words of the destination and the exception flags. -/
structure SibOut where
  words : List Word
  fl : Flags
  deriving DecidableEq, Repr

/-- The three siblings' results: one computation for all in lane kernels and solo stretches (R94, R111). -/
def sibOuts (f : Flight) (slot : Nat) (g : Nat → SibOut) : Tri SibOut :=
  if f.single slot then Tri.rep (g 0) else Tri.of g

/-- The destination values of a thread from its siblings' results, for n destination registers. -/
def outVals (n : Nat) (o : Tri SibOut) : List (Tri Word) :=
  (List.range n).map (fun j => o.map (fun x => (x.words[j]?).getD 0))

/-- The flags of all siblings. -/
def outFlags (o : Tri SibOut) : Flags := o.x0.fl ||| o.x1.fl ||| o.x2.fl

/-- The threads that compute: the lowest active one where U = 1 (R95, R198). -/
def computing (u : Bool) (c : ClauseRun) : List Nat :=
  match u, c.act with
  | true, i :: _ => [i]
  | _, act => act

/-- The conditions an operation meets: those of the computing threads, for every active thread where U = 1 (R95), also where some
of those are in a solo stretch, which R111 says counts none (DESIGN CHOICE, log 80). -/
def meetsOf (u : Bool) (c : ClauseRun) (cond : Nat → Option Meet) : List (Nat × Meet) :=
  match u, c.act with
  | true, i :: _ => match cond i with
    | some m => c.act.map (fun j => (j, m))
    | none => []
  | _, act => act.filterMap (fun i => (cond i).map (fun m => (i, m)))

/-- A floating operation on registers (R94, R95): `draws` values are rounded; `g` computes one sibling of one thread; `cond`
tests the instability conditions on the operands and the results. -/
def fpOp (s : State) (regs : Flight → OpRegs) (draws : Nat) (g : Flight → Nat → Nat → SibOut)
    (cond : Flight → Nat → Tri SibOut → Option Meet) : Res :=
  runOp s regs fun u f c =>
    let r := regs f
    let out := fun i => sibOuts f i (g f i)
    let fl := (computing r.u c).foldl (fun a i => a ||| outFlags (out i)) flNone
    let ms := meetsOf r.u c (fun i => if f.single i then none else cond f i (out i))
    let f1 := writeDests f c r (spread r.u c.act (fun i => outVals r.dsts.length (out i)))
    let f2 := ((f1.raise fl).advanceCounters c.act draws).meets ms
    .done (((s.setFlight u f2).occupy f c r).countMeets f ms)

/-- No condition is tested. -/
def noCond (_ : Flight) (_ : Nat) (_ : Tri SibOut) : Option Meet := none

end Sys2Proof.Machine
end

