-- ==== Sys2Proof/Machine/Coherence.lean ====
section
/-! DEFINITION. Physical memory and coherence order (spec/12_memory_model.md R223 to R228, R363, R364), receipts
(spec/15_preemption.md R283, R284), the store windows and their scoreboard (R145, R222, R240), leases (R238), and the order in
which atomics are performed at their agents (R134, R233, R236, R237, R239, R247). -/

namespace Sys2Proof.Machine

/-! ## Memory as data -/

/-- The byte at an address; an unlisted byte reads 0x00 (log 1). -/
def memGet (m : List Host.Cell) (a : Nat) : Byte := mgetD m a 0#8

/-- Writes a byte, keeping the canonical form: a byte that reads as an unlisted one is not listed. -/
def memSet (m : List Host.Cell) (a : Nat) (v : Byte) : List Host.Cell :=
  if v == 0#8 then mdel m a else mset m a v

/-- The canonical form: strictly rising addresses, and no entry equal to what an unlisted address reads as. -/
def memWf (m : List Host.Cell) : Bool := msorted m && m.all (fun c => c.2 != 0#8)

/-- Some bytes from an address. -/
def memRead (m : List Host.Cell) (a n : Nat) : List Byte := (List.range n).map (fun i => memGet m (a + i))

/-- Writes some bytes from an address. -/
def memWrite (m : List Host.Cell) : Nat → List Byte → List Host.Cell
  | _, [] => m
  | a, b :: bs => memWrite (memSet m a b) (a + 1) bs

/-- The bytes of a location. -/
def locBytes (pa n : Nat) : List Nat := (List.range n).map (pa + ·)

/-! ## Coherence order -/

namespace State

/-- The latest write of a byte in coherence order. -/
def latest (s : State) (pa : Nat) : Byte := memGet s.mem pa

/-- The latest writes of n bytes, as an agent outside the cores reads them (R363). -/
def readLatest (s : State) (pa n : Nat) : List Byte := memRead s.mem pa n

/-- The latest value of n bytes as a number. -/
def numAt (s : State) (pa n : Nat) : Nat := leNat (s.readLatest pa n)

/-- The coherence order of a byte, newest first; the initial write has stamp 0 (R227). -/
def coOf (s : State) (pa : Nat) : List CoWrite := (mget s.co pa).getD [⟨0, s.latest pa, [], 0, 0, some 0⟩]

/-- Places a write last in the coherence order of a byte; `seen` is empty, or publishes it to the whole module. R228 has a published
write later than the core's former floors and says no more: the model places it last (DESIGN CHOICE, log 104). -/
def placeRaw (s : State) (pa : Nat) (v : Byte) (seen : NMap Nat) (id writer : Nat) : State :=
  let pub := if seen.isEmpty then none else some s.nextId
  { s with
    stamp := s.stamp + 1
    co := mset s.co pa (⟨s.stamp + 1, v, seen, id, writer, pub⟩ :: s.coOf pa)
    mem := memSet s.mem pa v }

/-- Places some bytes as an agent of the module outside the cores, published to every core. -/
def placeBytes (s : State) (publisher pa : Nat) : List Byte → State
  | [] => s
  | b :: bs => (s.placeRaw pa b [(publisher, 2 ^ 384 - 1)] 0 publisher).placeBytes publisher (pa + 1) bs

/-- GRANULE_CAPTURE: before the first write of a session's gallery to a granule, the granule goes to the write-set area; past
the capacity the pass overflows (R314). -/
def captureFor (s : State) (mine : Session → Bool) (pa : Nat) : State :=
  match s.sessionOf (fun z => z.running && mine z) with
  | none => s
  | some (q, z) =>
    let g := pa / 4096 * 4096
    if z.granules.contains g then s
    else if Nat.ble z.wsmax z.granules.length then s.setSession q { z with overflow := true }
    else
      let n := z.granules.length
      let le := fun (x : Nat) => (List.range 8).map (fun i => BitVec.ofNat 8 (x / 256 ^ i))
      let s := s.placeBytes 384 (z.wsarea + 4096 * (n + 1)) (s.readLatest g 4096)
      let s := (s.placeBytes 384 (z.wsarea + 8 + 8 * n) (le g)).placeBytes 384 z.wsarea (le (n + 1))
      s.setSession q { z with granules := z.granules ++ [g] }

/-- The granule of a write of an operation is captured (R314). -/
def capture (s : State) (pa id : Nat) : State := s.captureFor (fun z => z.ids.contains id) pa

/-- A write of a core, an atomic or an engine takes its place, its granule captured first (R227, R314). -/
def place (s : State) (pa : Nat) (v : Byte) (seen : NMap Nat) (id writer : Nat) : State :=
  (s.capture pa id).placeRaw pa v seen id writer

/-- Notes an operation of the session's gallery (R314). -/
def noteSession (s : State) (gallery id : Nat) : State :=
  match s.sessionOf (fun z => z.running && z.gallery == some gallery) with
  | some (q, z) => s.setSession q { z with ids := id :: z.ids }
  | none => s

end State

/-! ## Home banks -/

namespace State

/-- The home die of a physical address (R224, R364). -/
def homeDie (pa : Nat) : Nat :=
  if Nat.blt pa (2 ^ 41) then pa / 2 ^ 37 % 4 else (bits pa 15 14) ^^^ (bits pa 23 22)

/-- The bank within the die (R224). -/
def homeBank (pa : Nat) : Nat := (bits pa 12 6) ^^^ (bits pa 19 13)

/-- Whether a physical range lies within the physical memory map (R364). -/
def inMap (pa n : Nat) : Bool :=
  (Nat.ble (2 ^ 41) pa && Nat.ble (pa + n) (2 ^ 42))
    || (Nat.blt pa (2 ^ 39) && Nat.ble (pa % 2 ^ 37 + n) (96 * 2 ^ 30))

end State

/-! ## Receipts (R283, R284) -/

/-- The receipts that the ring of a die holds: the firmware sets up a ring of at least one (log 12). -/
def ringCap (d : Nat) : Nat := Config.spillCapacity d + 1

namespace State

/-- The receipts of a tag at an address, oldest first: those of the die's ring, then of the bank's book (R247, R284). -/
def receiptsOf (s : State) (tag pa : Nat) : List Receipt :=
  let k := s.die (homeDie pa)
  let mine := fun (r : Receipt) => r.tag == tag && r.pa == pa
  (k.spill.filter mine).reverse ++ ((mgetD k.books (homeBank pa) []).filter mine).reverse

/-- Whether a bank performs new T operations: the ring of its die is not full (R284). -/
def canRecord (s : State) (pa : Nat) : Bool :=
  Nat.blt (s.die (homeDie pa)).spill.length (ringCap (homeDie pa))

/-- Records a receipt, newest first; a full book moves its oldest receipt to the ring, and the ring raises an event as it reaches
seven-eighths occupancy (R284). -/
def record (s : State) (tag pa old : Nat) : State :=
  let d := homeDie pa
  let k := s.die d
  let book := mgetD k.books (homeBank pa) []
  let r := Receipt.mk tag pa old
  if Nat.blt book.length 1024 then s.setDie d { k with books := mset k.books (homeBank pa) (r :: book) }
  else
    let spill := (book.getLast?).toList ++ k.spill
    let s := s.setDie d { k with books := mset k.books (homeBank pa) (r :: book.dropLast), spill := spill }
    if Nat.blt (8 * k.spill.length) (7 * ringCap d) && Nat.ble (7 * ringCap d) (8 * spill.length) then s.emit (.event 284 [d])
    else s

/-- The receipts of a context leave every book and ring (R296, R315). -/
def emptyBooks (s : State) (context : Nat) : State :=
  let keep := fun (rs : List Receipt) => rs.filter (fun r => r.tag / 2 ^ 20 != context)
  let clean := fun (d : Die) => { d with books := mmapv keep d.books, spill := keep d.spill }
  { s with dies := mmapv clean s.dies }

/-- The receipts that a die holds. -/
def receipts (s : State) (d : Nat) : List Receipt :=
  let k := s.die d
  (k.books.map (fun p => p.2)).flatten ++ k.spill

/-- Whether a step has added no receipt at a die: it holds none more often than before. -/
def addsNone (s t : State) (d : Nat) : Bool :=
  (t.receipts d).all (fun r => Nat.ble ((t.receipts d).count r) ((s.receipts d).count r))

/-- Whether what one step records fits: at each die the ring was not full where a receipt was added, and holds them all
(R284; log 12). -/
def recordedWell (s t : State) : Bool :=
  (List.range 4).all (fun d => s.addsNone t d
    || (Nat.blt (s.die d).spill.length (ringCap d) && Nat.ble (t.die d).spill.length (ringCap d)))

/-! ## A core's own writes take their places -/

/-- The entry of the ST that made a write, where a resident or a saved flight holds it. -/
def entryOf (s : State) (id : Nat) : Option Entry :=
  let saved := (s.contexts.map (fun p => match p.2.saved with | some v => v.flights | none => [])).flatten
  ((s.flights ++ saved).filterMap (fun p => (p.2.entry? id).bind (fun e =>
    match e.pay with
    | .store _ _ => some e
    | _ => none))).head?

/-- The tag of the ST that made a write. -/
def tagOf (s : State) (id : Nat) : Option Nat := (s.entryOf id).map (·.tag)

/-- The pending writes of a byte with numbers below a limit, oldest first, up to the first that has not. -/
def older (limit : Nat) (ws : List (Nat × Byte)) : List (Nat × Byte) := ws.reverse.takeWhile (fun w => Nat.blt w.1 limit)

/-- Puts a number into a rising list, once. -/
def insertNat (n : Nat) : List Nat → List Nat
  | [] => [n]
  | x :: xs => if Nat.blt n x then n :: x :: xs else if n == x then x :: xs else x :: insertNat n xs

/-- Takes the n oldest pending writes of a byte off a core's list: the last placed is its floor (R228). -/
def unpend (s : State) (c n pa : Nat) : State :=
  let k := s.core c
  let ws := mgetD k.pend pa []
  let rest := ws.take (ws.length - n)
  s.setCore c { k with
    pend := if rest.isEmpty then mdel k.pend pa else mset k.pend pa rest
    floors := mset k.floors pa (match s.coOf pa with | w :: _ => w.stamp | [] => 0) }

/-- The bank of a unit records the tag of the ST that wrote it, once (R283). -/
def recordUnit (s : State) (tag unit : Nat) : State := if (s.receiptsOf tag unit).isEmpty then s.record tag unit 0 else s

/-- The banks of the units that some bytes lie in record the tag of the ST that wrote them (R283). -/
def recordStore (s : State) (tag : Nat) (pas : List Nat) : State :=
  ((pas.map (· / 8 * 8)).eraseDups).foldl (fun t u => t.recordUnit tag u) s

/-- The single-copy atomic grain of a write, and where the grain that holds a byte begins: the width of the ST, at most 8 bytes, in
each frame of a triple page, or the 16 bytes of an engine operation (R212, R226). -/
def grainOf (s : State) (id a : Nat) : Nat × List Nat :=
  match s.entryOf id with
  | none => (16, [a / 16 * 16])
  | some e =>
    let g := match decodeWord e.word with
      | .ok (.st _ _ _ size _ _) => min 8 size.bytes
      | _ => 8
    let frames := match e.pay with
      | .store _ us => (us.map (fun (p : Nat × Nat) => [p.1, p.1 + p.2, p.1 + 2 * p.2])).filter (fun (l : List Nat) => l.contains (a / 8 * 8))
      | _ => []
    (g, a / g * g :: (frames.flatten).map (· + a / g * g % 8))

/-- The bytes of a core's write that take their places with one of them: those of its grain, in every frame (R212, R226). -/
def mates (s : State) (c id a : Nat) : List Nat :=
  let g := s.grainOf id a
  ((g.2.map (fun b => locBytes b g.1)).flatten).filter (fun x => (mgetD (s.core c).pend x []).any (fun w => w.1 == id))

/-- Adds to a map of bytes and limits what the writes below those limits take along. -/
def coverStep (s : State) (c : Nat) (m : NMap Nat) : NMap Nat :=
  m.foldl (fun m p => (older p.2 (mgetD (s.core c).pend p.1 [])).foldl (fun m w =>
    (s.mates c w.1 p.1).foldl (fun m x => mset m x (max (mgetD m x 0) (w.1 + 1))) m) m) m

/-- Repeats `coverStep`, up to n times, until nothing is added. -/
def coverN (s : State) (c : Nat) : Nat → NMap Nat → NMap Nat
  | 0, m => m
  | n + 1, m => let m' := s.coverStep c m; if m' == m then m else s.coverN c n m'

/-- The writes that a core places so that its writes of some bytes older than a limit have their places: each write whole (R226) and
behind the core's older writes of its bytes (R227), as a map of bytes with the limit below which their writes are placed. -/
def cover (s : State) (c limit : Nat) (pas : List Nat) : NMap Nat :=
  s.coverN c (((s.core c).pend.map (fun p => p.2.length)).sum + 1) (pas.foldl (fun m a => mset m a limit) [])

/-- Places the pending writes of a core below the limits of a map of bytes, write by write in the order of their issue; the banks
record the tag of each ST among them (R228, R283). -/
def placeCover (s : State) (c : Nat) (m : NMap Nat) : State :=
  let old := m.map (fun p => (p.1, older p.2 (mgetD (s.core c).pend p.1 [])))
  let ids := ((old.map (fun p => p.2.map (·.1))).flatten).foldr insertNat []
  let put := fun (id : Nat) (s : State) (p : Nat × List (Nat × Byte)) =>
    match p.2.find? (fun w => w.1 == id) with
    | some w => s.place p.1 w.2 [] id c
    | none => s
  let s1 := ids.foldl (fun s id => old.foldl (put id) s) s
  let s2 := old.foldl (fun t p => if p.2.isEmpty then t else t.unpend c p.2.length p.1) s1
  ids.foldl (fun t id =>
    match s.tagOf id with
    | some tag => t.recordStore tag ((old.filter (fun p => p.2.any (fun w => w.1 == id))).map (·.1))
    | none => t) s2

/-- Places a core's pending writes of some bytes that are older than a limit, with what goes with them (R212, R226, R227). -/
def placePends (s : State) (c limit : Nat) (pas : List Nat) : State := s.placeCover c (s.cover c limit pas)

/-- The byte that a core's snapshot holds, its own pending write first (R228, R231). -/
def snap (s : State) (c pa : Nat) : Byte :=
  match mget (s.core c).pend pa with
  | some ((_, v) :: _) => v
  | _ =>
    match (s.coOf pa).find? (fun w => w.stamp == mgetD (s.core c).floors pa 0) with
    | some w => w.val
    | none => s.latest pa

/-! ## What a unit may be read as -/

/-- The writes of some bytes with their addresses. -/
def writesOf (s : State) (pas : List Nat) : List (Nat × CoWrite) :=
  (pas.map (fun a => (s.coOf a).map (fun w => (a, w)))).flatten

/-- The moments, as stamps from `low` on, at which a unit may be read whole: those at which no write to it is half done (R226). -/
def moments (s : State) (low : Nat) (pas : List Nat) : List Nat :=
  let ws := s.writesOf pas
  let whole := fun (p : Nat × CoWrite) => Nat.ble low p.2.stamp
    && !(ws.any (fun q => q.1 == p.1 + 1 && q.2.stamp == p.2.stamp + 1 && q.2.id == p.2.id && q.2.writer == p.2.writer))
  ((ws.filter whole).map (fun p => p.2.stamp)).foldr insertNat []

/-- A byte as it stood at a moment. -/
def byteAt (s : State) (pa moment : Nat) : Byte :=
  match (s.coOf pa).find? (fun w => Nat.ble w.stamp moment) with
  | some w => w.val
  | none => s.latest pa

/-- Reads a unit as it stood at one of its moments from `low` on; which is open (log 3). -/
def readUnit (s : State) (low : Nat) (pas : List Nat) : List Byte × State :=
  let ms := s.moments low pas
  let vs := (if ms.isEmpty then [pas.map s.latest] else ms.map (fun m => pas.map (fun a => s.byteAt a m))).eraseDups
  let (i, s) := s.pick vs.length
  ((vs[i]?).getD [], s)

end State

/-! ## What an atomic computes (R135) -/

/-- A 32-bit value as signed. -/
def s32 (x : Nat) : Int := (BitVec.ofNat 32 x).toInt

/-- The new value at the location (R135); y is the new value of a compare-and-swap. -/
def atomNew (op : AtomOp) (old x y : Nat) : Nat :=
  match op with
  | .add32 => (old + x) % 2 ^ 32
  | .add64 => (old + x) % 2 ^ 64
  | .smin32 => if decide (s32 x < s32 old) then x else old
  | .smax32 => if decide (s32 old < s32 x) then x else old
  | .umin32 => min old x
  | .umax32 => max old x
  | .and32 => old &&& x
  | .or32 => old ||| x
  | .xor32 => old ^^^ x
  | .exch32 => x
  | .exch64 => x
  | .cas32 => if old == x then y else old
  | .cas64 => if old == x then y else old
  | .fadd32 => (fAdd fp32 (Rnd.all .near) old x).pat
  | .fmin32 => (fMinMax fp32 false old x).pat
  | .fmax32 => (fMinMax fp32 true old x).pat

/-! ## The store windows and the range scoreboard (R145, R222, R240) -/

/-- Overlap of two intervals rounded to a grain (R240). -/
def overlap (grain : Nat) (x y : Nat × Nat) : Bool :=
  if x.1 == x.2 || y.1 == y.2 then false
  else
    let lo := fun a => a / grain * grain
    let hi := fun a => (a + grain - 1) / grain * grain
    Nat.blt (lo x.1) (hi y.2) && Nat.blt (lo y.1) (hi x.2)

/-- Whether any interval of one list overlaps any of another. -/
def overlaps (grain : Nat) (xs ys : List (Nat × Nat)) : Bool := xs.any (fun x => ys.any (overlap grain x))

/-- The grain at which a window's intervals are rounded. -/
def windowGrain : Nat := 64

/-- Whether an ordinary access of some store bytes must wait: a read on outstanding writes, a write on any interval (R131). -/
def State.storeBusy (s : State) (win : Nat) (write : Bool) (ivs : List (Nat × Nat)) : Bool :=
  let cl := match mget s.windows win with | some w => w.cluster | none => 0
  (s.cluster cl).sb.any (fun e => e.win == win && (overlaps windowGrain ivs e.writes || (write && overlaps windowGrain ivs e.reads)))

/-- Bytes of a flight's store window (R222). -/
def State.winRead (s : State) (win off n : Nat) : List Byte :=
  match mget s.windows win with
  | some w => memRead w.bytes off n
  | none => List.replicate n 0#8

/-- Writes bytes into a store window. -/
def State.winWrite (s : State) (win off : Nat) (bs : List Byte) : State :=
  match mget s.windows win with
  | some w => s.setWindow win { w with bytes := memWrite w.bytes off bs }
  | none => s

/-! ## Leases (R238) -/

namespace State

/-- Whether a cluster's engine holds a line and no recall is pending. -/
def leased (s : State) (cl line : Nat) : Bool := (s.cluster cl).leases.any (fun l => l.line == line && !l.recalled)

/-- Whether a cluster's engine holds a line, its recall pending or not. -/
def holdsLine (s : State) (cl line : Nat) : Bool := (s.cluster cl).leases.any (fun l => l.line == line)

/-- The leases of a cluster with a line moved to the front, as the most recently used. -/
def useLease (s : State) (cl line : Nat) : State :=
  let c := s.cluster cl
  match c.leases.find? (fun l => l.line == line) with
  | some l => s.setCluster cl { c with leases := l :: c.leases.filter (fun x => x.line != line) }
  | none => s

/-- The engines return a line. -/
def dropLeases (s : State) (line : Nat) : State :=
  { s with clusters := mmapv (fun c => { c with leases := c.leases.filter (fun l => l.line != line) }) s.clusters }

/-- A request from outside reaches the bank of a leased line: its recall is pending. `from_` is the cluster whose engine asks, if
one does. -/
def recallLine (s : State) (from_ : Option Nat) (line : Nat) : State :=
  { s with clusters := s.clusters.map (fun p =>
      if from_ == some p.1 then p
      else (p.1, { p.2 with leases := p.2.leases.map (fun l => if l.line == line then { l with recalled := true } else l) })) }

/-- The bank notes that an agent reached a line. Agents 0 to 47 are clusters, 48 any other. -/
def note (s : State) (agent line : Nat) : State :=
  let d := homeDie (line * 64)
  let k := s.die d
  s.setDie d { k with outside := mset k.outside (line * 64 + agent) (s.dieCyc d) }

/-- The lines with an atomic not yet performed by some flight of a cluster. -/
def queuedLines (s : State) (cl : Nat) : List Nat :=
  ((s.flights.filter (fun p => clusterOf p.2.core == cl)).map (fun p => (p.2.entries.map (fun e =>
    match e.pay with
    | .atom false _ _ _ rs => (rs.filter (fun r => !r.done)).map (fun r => r.pa / 64)
    | _ => [])).flatten)).flatten

/-- Whether the bank grants a lease: no other cluster holds the line, and no agent outside the cluster has reached it in the
last 1,024 cycles (R238). -/
def grantable (s : State) (cl line : Nat) : Bool :=
  let d := homeDie (line * 64)
  let recent := (List.range 49).any (fun a => a != cl &&
    match mget (s.die d).outside (line * 64 + a) with
    | some t => Nat.blt (s.dieCyc d - t) 1024
    | none => false)
  !recent && !(s.clusters.any (fun p => p.2.leases.any (fun l => l.line == line)))

/-- An ATOM of a cluster reaches a line: where the engine lacks the lease and has an entry for it, free or of the least recently
used line without a queued request, it asks, and the bank grants the lease or executes the ATOM itself (R238). -/
def askLease (s : State) (f : Flight) (core line : Nat) : State :=
  let cl := clusterOf f.core
  let c := s.cluster cl
  if s.holdsLine cl line then s.useLease cl line
  else
    let busy := s.queuedLines cl
    let kept :=
      if Nat.blt c.leases.length 512 then some c.leases
      else (c.leases.reverse.find? (fun l => !(busy.contains l.line))).map (fun v => c.leases.filter (· != v))
    match kept with
    | none => (s.dropLeases line).note cl line
    | some ls =>
      let s := s.countAt core f 0x1F 1
      let grant := s.grantable cl line
      let s := (s.dropLeases line).note cl line
      if grant then s.setCluster cl { s.cluster cl with leases := ⟨line, f.context, false⟩ :: ls } else s

end State

/-! ## Requests (R237, R239) -/

/-- One request of an ATOM, ATOMS or POST that is not performed yet: its thread, its place in a window or in physical memory, and
its key: issue cycle, core, quarter, slot, issue order and thread (R237). -/
structure Request where
  flight : Nat
  entry : Nat
  ix : Nat
  thread : Nat
  core : Nat
  key : List Nat
  win : Option Nat
  lo : Nat
  len : Nat
  post : Bool
  op : AtomOp
  use : AtomUse
  deriving DecidableEq, Repr

/-- The occasion on which requests are performed: as they reach their agents, at a phase boundary of a core (R136), at the save of a
flight (R273, R274), or as an access recalls a line (R238). -/
inductive Occasion
  | agent
  | boundary (core : Nat)
  | save (flight : Nat)
  | recall
  deriving DecidableEq, Repr

/-- Lexicographic order of keys. -/
def keyLt : List Nat → List Nat → Bool
  | x :: xs, y :: ys => Nat.blt x y || (x == y && keyLt xs ys)
  | _, _ => false

/-- The line of a request. -/
def Request.line (r : Request) : Nat := r.lo / 64

/-- Whether two requests touch a byte in common. -/
def Request.meets (p q : Request) : Bool :=
  p.win == q.win && Nat.blt p.lo (q.lo + q.len) && Nat.blt q.lo (p.lo + p.len)

/-- Whether two requests may be combined (R136): `.comm`, of one `aop`, on one location. -/
def Request.combine (p q : Request) : Bool :=
  p.use == .comm && q.use == .comm && p.op == q.op && p.win == q.win && p.lo == q.lo

/-- The requests of an entry. -/
def entryRequests (u : Nat) (f : Flight) (e : Entry) : List Request :=
  let mk := fun (win : Option Nat) (post : Bool) (op : AtomOp) (use : AtomUse) (rs : List AtomReq) =>
    (rs.zipIdx.filter (fun p => !p.1.done)).map (fun p =>
      Request.mk u e.id p.2 p.1.slot f.core [e.issued, f.core, f.quarter, f.slot, e.id, p.2] win p.1.pa op.bytes post op use)
  if e.replay then []
  else
    match e.pay with
    | .atom post op use _ rs => mk none post op use rs
    | .atoms op use _ w rs => mk (some w) false op use rs
    | _ => []

/-- Puts a request into a list in order of keys. -/
def insertReq (r : Request) : List Request → List Request
  | [] => [r]
  | x :: xs => if keyLt r.key x.key then r :: x :: xs else x :: insertReq r xs

namespace State

/-- The requests outstanding in the module, in order of keys. -/
def requests (s : State) : List Request :=
  ((s.flights.map (fun p => (p.2.entries.map (entryRequests p.1 p.2)).flatten)).flatten).foldr insertReq []

/-- Whether a request of a core goes before writes that the core places: it was issued before one of them, on one of its bytes, and is
not `.nord` (R227, R239). -/
def goesFirst (s : State) (c : Nat) (m : NMap Nat) (r : Request) : Bool :=
  r.core == c && r.win.isNone && r.use != .nord && m.any (fun p => Nat.ble r.lo p.1 && Nat.blt p.1 (r.lo + r.len)
    && (older p.2 (mgetD (s.core c).pend p.1 [])).any (fun w => Nat.blt r.entry w.1))

/-- Whether a request goes before a later one of its core on global memory: they share a byte, unless it is `.nord` or the two
combine, or it goes before a write that the later one places (R134, R227, R239). -/
def coreFirst (s : State) (p q : Request) : Bool :=
  p.core == q.core && keyLt p.key q.key
    && ((p.meets q && p.use != .nord && !(p.combine q))
      || (q.win.isNone && s.goesFirst q.core (s.cover q.core q.entry (locBytes q.lo q.len)) p))

/-- Whether a request is performed before another: within one instruction, ascending threads (R134); at one core, as `coreFirst`
says; in a window, in each thread's program order (R236); at one engine, the order of acceptance (R237); and before an access that
recalls a line, what the engine had accepted on it (R238). -/
def before (s : State) (p q : Request) : Bool :=
  let one := p.flight == q.flight && p.entry == q.entry
  let cl := clusterOf p.core
  let mine := cl == clusterOf q.core && !q.post
  let held := p.win.isNone && q.win.isNone && !p.post && p.line == q.line && s.holdsLine cl p.line
  let engine := mine && (p.win.isSome || held) && !(p.combine q)
  let thread := p.flight == q.flight && p.thread == q.thread && p.win.isSome && q.win.isSome && !(p.combine q)
  keyLt p.key q.key && ((p.meets q && (one || engine)) || s.coreFirst p q || thread || (held && !mine))

/-- Whether a request is a `.quant` POST that its core holds on an occasion: all but a boundary of the core and the save of its
flight (R136, R233, R273). -/
def holdsPost (w : Occasion) (r : Request) : Bool :=
  r.post && r.use == .quant && w != .boundary r.core && w != .save r.flight

/-- The requests that have left their cores on an occasion: not a held `.quant` POST, nor what goes after one at its core (R239). -/
def live (s : State) (w : Occasion) : List Request :=
  (s.requests.foldl (fun (a : List Request × List Request) r =>
    if holdsPost w r || a.2.any (fun p => s.coreFirst p r) then (a.1, a.2 ++ [r]) else (a.1 ++ [r], a.2)) ([], [])).1

/-- Some requests and all that are performed before them, in order. -/
def behind (s : State) (w : Occasion) (t : Request → Bool) : List Request :=
  (s.live w).foldr (fun p acc => if t p || acc.any (fun q => s.before p q) then p :: acc else acc) []

/-! ## Performing -/

/-- Performs one request on global memory at its agent (R233, R247): the core's earlier writes of the bytes are placed first
(R134), and its own write takes its place directly after the latest one; `shown` adds the pairs of Members(3), and without them
the core owes them at its next boundary. -/
def performAt (s : State) (f : Flight) (e : Entry) (op : AtomOp) (shown : Bool) (r : AtomReq) : AtomReq × State :=
  let n := op.bytes
  let s := s.placePends f.core e.id (locBytes r.pa n)
  let old := s.numAt r.pa n
  let new := leBytes n (atomNew op old r.x r.y)
  let seen := if shown then [(f.core, 2 ^ 384 - 1)] else []
  let s := (new.zipIdx).foldl (fun s p => s.place (r.pa + p.2) p.1 seen e.id f.core) s
  let s :=
    if shown then s
    else
      let k := s.core f.core
      s.setCore f.core { k with owed := k.owed ++ (locBytes r.pa n).zipIdx.map (fun b => (b.1, s.stamp + 1 + b.2 - n)) }
  ({ r with done := true, old := old }, s.record e.tag r.pa old)

/-- The receipt that suppresses a request of an entry sent again: the n-th request performed at a location has the n-th receipt
(R247). -/
def receiptFor (s : State) (e : Entry) (rs : List AtomReq) (ix : Nat) (pa : Nat) : Option Receipt :=
  if e.resent then (s.receiptsOf e.tag pa)[((rs.take ix).filter (fun x => x.pa == pa && !x.refused)).length]? else none

/-- Whether a request to the 64-byte granule is queued ahead of another (R137). -/
def queuedAhead (all : List Request) (r : Request) : Bool :=
  all.any (fun p => keyLt p.key r.key && p.win == r.win && !p.post && p.line == r.line && clusterOf p.core == clusterOf r.core)

/-- A request of an ATOM or POST reaches its agent: a receipt suppresses it, the agent refuses it where R137 allows (log 3), or
performs it. Whether the line's lease is lacking is judged once the engine has asked for it (DESIGN CHOICE, log 105). -/
def performGlobal (s : State) (w : Occasion) (all : List Request) (f : Flight) (e : Entry) (r : Request) (rs : List AtomReq)
    (q : AtomReq) : AtomReq × State :=
  let line := r.line
  let s := if r.post then (s.dropLeases line).note (clusterOf f.core) line else s.askLease f e.core line
  match s.receiptFor e rs r.ix q.pa with
  | some x => ({ q with done := true, old := x.old }, s)
  | none =>
    let may := r.use == .spec && (!(s.leased (clusterOf f.core) line) || queuedAhead all r)
    let (no, s) := if may then s.pick 2 else (0, s)
    if no == 1 then ({ q with done := true, refused := true }, s.countAt e.core f 0x1E 1)
    else s.performAt f e r.op (r.use != .quant || (r.post && w == .boundary f.core)) q

/-- A request of an ATOMS at the cluster's engine (R137, R236). -/
def performStore (s : State) (all : List Request) (f : Flight) (e : Entry) (win : Nat) (r : Request) (q : AtomReq) : AtomReq × State :=
  let (no, s) := if r.use == .spec && queuedAhead all r then s.pick 2 else (0, s)
  if no == 1 then ({ q with done := true, refused := true }, s.countAt e.core f 0x1E 1)
  else
    let n := r.op.bytes
    let old := leNat (s.winRead win q.pa n)
    ({ q with done := true, old := old }, s.winWrite win q.pa (leBytes n (atomNew r.op old q.x q.y)))

/-- Performs one request, where nothing that goes before it is outstanding, its bank can record it (R284) and no outstanding
interval of the window holds it (R131); a save performs ATOMS whatever waits (R274), and a recall records past a full ring, which
`recordedWell` then refuses. -/
def performOne (w : Occasion) (all : List Request) (s : State) (r : Request) : State :=
  match (mget s.flights r.flight).bind (fun f => (f.entry? r.entry).map (fun e => (f, e))) with
  | none => s
  | some (f, e) =>
    let force := r.win.isSome && w == .save r.flight
    if !force && (s.live w).any (fun p => s.before p r) then s
    else
      match e.pay with
      | .atom post op use dests rs =>
        match rs[r.ix]? with
        | some q =>
          if q.done || (w != .recall && !(s.canRecord q.pa) && (s.receiptFor e rs r.ix q.pa).isNone) then s
          else
            let p := s.performGlobal w all f e r rs q
            p.2.modFlight r.flight (fun g => g.setEntry { e with pay := .atom post op use dests (rs.set r.ix p.1) })
        | none => s
      | .atoms op use dests win rs =>
        match rs[r.ix]? with
        | some q =>
          if q.done || (!force && s.storeBusy win true [(q.pa, q.pa + r.len)]) then s
          else
            let p := s.performStore all f e win r q
            p.2.modFlight r.flight (fun g => g.setEntry { e with pay := .atoms op use dests win (rs.set r.ix p.1) })
        | none => s
      | _ => s

/-- Performs some requests, and before them all that go before them (R237, R239). -/
def performWhere (s : State) (w : Occasion) (t : Request → Bool) : State :=
  let all := s.live w
  (s.behind w t).foldl (performOne w all) s

/-- Places a core's pending writes of some bytes that are older than a limit, behind the core's atomics that go before them; where one
of those cannot be performed yet, nothing is placed (R227, R239). -/
def settle (s : State) (c limit : Nat) (pas : List Nat) : State :=
  let t := s.performWhere .agent (s.goesFirst c (s.cover c limit pas))
  if t.requests.any (t.goesFirst c (t.cover c limit pas)) then s else t.placePends c limit pas

/-- An agent other than a leasing engine reaches a line at its bank: the engine that holds it finishes the requests it has
accepted and returns the line, and only then does the bank serve the access (R238). Where the bank cannot record one of them yet, the
access waits: its step is refused by `recordedWell` (R284). -/
def reach (s : State) (agent line : Nat) : State :=
  let holds := (s.clusters.filter (fun p => p.2.leases.any (fun l => l.line == line))).map (·.1)
  if holds.isEmpty then s.note agent line
  else
    ((s.performWhere .recall (fun r => r.win.isNone && !r.post && r.line == line
      && holds.contains (clusterOf r.core))).dropLeases line).note agent line

/-- An agent reaches several lines. -/
def reachAll (s : State) (agent : Nat) (lines : List Nat) : State := lines.foldl (fun s l => s.reach agent l) s

/-- A step that reaches banks happens once they can record what it has them record (R238, R284). -/
def banked (s t : State) : Res := if s.recordedWell t then .next t else .next s.idle

end State

end Sys2Proof.Machine
end

