-- ==== Sys2Proof/Machine/Visibility.lean ====
section
/-! DEFINITION. Snapshots, Publish and Refresh (spec/12_memory_model.md R228 to R235, R363, R366), the L1 lines and victim tags of R265, and reads of constant space and code (R225, R268). -/

namespace Sys2Proof.Machine

namespace State

/-- n bytes of a core's snapshot. -/
def snapRead (s : State) (c pa n : Nat) : List Byte := (List.range n).map (fun i => s.snap c (pa + i))

/-- A core's own write: it joins the snapshot at once and is placed by a later Publish (R228). -/
def ownWrite (s : State) (c id pa : Nat) (v : Byte) : State :=
  let k := s.core c
  s.setCore c { k with pend := mset k.pend pa ((id, v) :: mgetD k.pend pa []) }

/-- A core's own writes of listed bytes. -/
def ownWrites (s : State) (c id : Nat) : List (Nat × Byte) → State
  | [] => s
  | (pa, v) :: ws => (s.ownWrite c id pa v).ownWrites c id ws

/-- Raises a core's floor of a byte to a stamp, if that is later. -/
def raiseFloor (s : State) (c pa stamp : Nat) : State :=
  let k := s.core c
  if Nat.blt (mgetD k.floors pa 0) stamp then s.setCore c { k with floors := mset k.floors pa stamp } else s

end State

/-! ## Members and scopes -/

/-- The publisher that stands for external agents (R363). -/
def externalAgent : Nat := 384
/-- The publisher, and the reader, that stands for the cores of other modules (R229). -/
def foreignCores : Nat := 385
/-- The 384 cores of the module as a set. -/
def allCores : Nat := 2 ^ 384 - 1

/-- Members(s, c), as a set; external agents count at scopes 3 and 4, other modules' cores at scope 4 (R229, R363). -/
def members (scopes : NMap Nat) (sc c : Nat) : Nat :=
  match sc with
  | 0 => 2 ^ c
  | 1 => 255 * 2 ^ (8 * clusterOf c)
  | 2 => (2 ^ 96 - 1) * 2 ^ (96 * dieOf c)
  | 3 => allCores + 2 ^ externalAgent
  | 4 => allCores + 2 ^ externalAgent + 2 ^ foreignCores
  | n => mgetD scopes n 0 ||| 2 ^ c

/-- The cores that run a gallery, at some time of its life, as a set: those that have run its flights so far (R235). -/
def State.runners (s : State) (gallery : Nat) : Nat :=
  match mget s.galleries gallery with
  | some g => (g.ran.map (2 ^ ·)).foldl (· ||| ·) 0
  | none => 0

/-- The scope table that a flight's operations use: a bit that names a core not running the gallery has no effect (R235). -/
def State.scopesOf (s : State) (gallery : Nat) : NMap Nat :=
  match mget s.galleries gallery with
  | some g => mmapv (fun m => m &&& s.runners gallery) g.scopes
  | none => []

/-- The cores of an entry of the scope table that the gallery has not run on so far: what is published to them counts from when it
runs there (R235). -/
def State.laterCores (s : State) (gallery sc : Nat) : Nat :=
  match mget s.galleries gallery with
  | some g => let m := mgetD g.scopes sc 0; m ^^^ (m &&& s.runners gallery)
  | none => 0

/-- The publisher that stands for a core's Publish to cores that a gallery may run on later (R235). -/
def laterKey (gallery c : Nat) : Nat := 386 + 384 * gallery + c

/-- Adds pairs to Seen of a write. -/
def CoWrite.show (w : CoWrite) (publisher set now : Nat) : CoWrite :=
  { w with
    seen := mset w.seen publisher (mgetD w.seen publisher 0 ||| set)
    pub := if w.pub.isNone && set % 2 ^ 384 == allCores then some now else w.pub }

namespace State

/-- Adds pairs to Seen of every write of a byte up to a stamp. -/
def showUpTo (s : State) (pa stamp publisher set : Nat) : State :=
  { s with co := mset s.co pa ((s.coOf pa).map (fun w => if Nat.ble w.stamp stamp then w.show publisher set s.nextId else w)) }

/-- Places every pending write of a core: its lines reach their banks (R228, R238). -/
def placeOwn (s : State) (c : Nat) : State :=
  let pas := (s.core c).pend.map (·.1)
  (s.reachAll (clusterOf c) ((pas.map (· / 64)).eraseDups)).placePends c s.nextId pas

/-- Publish, without the wait of scope 4 (R230). -/
def publish (s : State) (c set : Nat) : State :=
  let s := s.placeOwn c
  (s.core c).floors.foldl (fun s p => s.showUpTo p.1 p.2 c set) s

/-- Publish for a flight's gallery at a scope, without the wait of scope 4: to the members, and at entries 5 to 31 to the cores that the
gallery has not run on so far (R230, R235). -/
def publishAt (s : State) (gallery sc c : Nat) : State :=
  let later := s.laterCores gallery sc
  let t := s.publish c (members (s.scopesOf gallery) sc c)
  if later == 0 then t else (t.core c).floors.foldl (fun t p => t.showUpTo p.1 p.2 (laterKey gallery c) later) t

/-- A gallery comes to run on a core: what its flights published to that core before counts from now on (R235). -/
def comeTo (s : State) (gallery core : Nat) : State :=
  let mine := fun (q : Nat × Nat) => Nat.ble (laterKey gallery 0) q.1 && Nat.blt q.1 (laterKey gallery 384) && q.2.testBit core
  { s with co := mmapv (fun ws => ws.map (fun w =>
      if w.seen.any mine then
        { w with seen := (w.seen.filter mine).foldl (fun m q =>
            mset m (q.1 - laterKey gallery 0) (mgetD m (q.1 - laterKey gallery 0) 0 ||| 2 ^ core)) w.seen }
      else w)) s.co }

/-- Adds pairs to Seen of one write of a byte. -/
def showAt (s : State) (pa stamp publisher set : Nat) : State :=
  { s with co := mset s.co pa ((s.coOf pa).map (fun w => if w.stamp == stamp then w.show publisher set s.nextId else w)) }

/-- The bytes at a core's floors that its Publish(4) has not yet sent to other modules. -/
def unsent (s : State) (c : Nat) : List (Nat × Byte) :=
  let s := s.placeOwn c
  (s.core c).floors.filterMap (fun p =>
    match (s.coOf p.1).find? (fun w => w.stamp == p.2) with
    | some w => if (mgetD w.seen c 0).testBit foreignCores then none else some (p.1, w.val)
    | none => none)

/-- Whether a fabric port is up (R310). -/
def fabricUp (s : State) : Bool := s.ports.any (fun p => p.2.up)

/-- The modules that the route table names, or with no table the peers of the ports that are up (R356; log 90). -/
def routed (s : State) : List Nat :=
  let base := s.tables.routes
  if base == 0 then ((s.ports.filter (fun p => p.2.up)).map (fun p => p.2.peer)).eraseDups
  else (((s.mem.filter (fun c => Nat.ble base c.1 && Nat.blt c.1 (base + 4 * 2 ^ 22))).map (fun c => (c.1 - base) / 4)).eraseDups).filter
    (· != s.boot.number.toNat)

/-- The modules that scope 4 reaches: those that are routed, and those whose mask a link failure has emptied, traffic to which raises an
event (R229, R356; log 90). -/
def destinations (s : State) : List Nat := s.routed ++ s.unreached.filter (fun m => !(s.routed.contains m))

/-- The ports that a module may be reached through now (R356). -/
def portsTo (s : State) (m : Nat) : List Nat :=
  let base := s.tables.routes
  (s.ports.filter (fun p => p.2.up && (if base == 0 then p.2.peer == m else (s.numAt (base + 4 * m) 4).testBit p.1))).map (·.1)

/-- Sends a packet to a module on a virtual channel, by one of its ports; a module that none reaches raises an event (R352, R356;
log 3). A packet's number gives its place: those to one module on one channel are delivered in the order of their numbers (log 107). -/
def sendPacket (s : State) (m vc : Nat) (x : Packet) : Option Nat × State :=
  match s.portsTo m with
  | [] => (none, s.emit (.event 356 [m]))
  | ps =>
    let (i, s) := s.pick ps.length
    let (n, s) := s.fresh
    (some n, { s.emit (.packet n m vc x) with wire := mset s.wire n ⟨m, vc, (ps[i]?).getD 0, x⟩ })

/-- Sends a scope-4 write to some modules; the fabric writes that wait for their acknowledgements (R230). -/
def sendWrites (s : State) (c : Nat) (bs : List (Nat × Byte)) : List Nat → List Nat × State
  | [] => ([], s)
  | m :: ms =>
    let p := s.sendPacket m 2 (.write bs)
    let s := match p.1 with
      | some n => { p.2 with fabricOut := mset p.2.fabricOut n ⟨c, bs⟩ }
      | none => p.2
    let q := s.sendWrites c bs ms
    (p.1.toList ++ q.1, q.2)

/-- Publish(4): the fabric writes it sends, if a module is joined and there is something to send (R230). -/
def publish4 (s : State) (c set : Nat) : List Nat × State :=
  let bs := s.unsent c
  let s := s.publish c set
  if s.fabricUp && !bs.isEmpty then s.sendWrites c bs s.destinations else ([], s)

/-- The writes of a core's performed atomics that its floors do not cover, a POST's or a `.nord` ATOM's, and that no Publish has made
visible to other modules (R233). -/
def postWrites (s : State) (c : Nat) : List (Nat × CoWrite) :=
  s.co.filterMap (fun p => match p.2.find? (fun w => w.writer == c) with
    | some w => if Nat.blt (mgetD (s.core c).floors p.1 0) w.stamp && !((mgetD w.seen c 0).testBit foreignCores) then some (p.1, w) else none
    | none => none)

/-- Makes every write of a core visible to the whole system: Publish(4), and the same for the writes that its floors do not cover
(R258). -/
def publishWhole (s : State) (c : Nat) : List Nat × State :=
  let set := members [] 4 c
  let p := s.publish4 c set
  let ws := p.2.postWrites c
  let t := ws.foldl (fun t w => t.showAt w.1 w.2.stamp c set) p.2
  if t.fabricUp && !ws.isEmpty then
    let q := t.sendWrites c (ws.map (fun w => (w.1, w.2.val))) t.destinations
    (p.1 ++ q.1, q.2)
  else (p.1, t)

/-- Refresh: the latest write of each byte that a member has published to the core (R230). -/
def refresh (s : State) (c set : Nat) : State :=
  s.co.foldl (fun s p =>
    if (mget (s.core c).pend p.1).isSome then s
    else
      match p.2.find? (fun w => w.seen.any (fun q => set.testBit q.1 && q.2.testBit c)) with
      | some w => s.raiseFloor c p.1 w.stamp
      | none => s) s

/-- Writes bytes as an agent outside the cores of this module, published to every core as by the given publisher (R363). -/
def agentWrite (s : State) (publisher pa : Nat) : List Byte → State
  | [] => s
  | b :: bs => (s.placeRaw pa b [(publisher, allCores)] 0 publisher).agentWrite publisher (pa + 1) bs

/-- A collective engine's result write of a byte: an external write under the collective's number, its granule captured first for a
session (R314, R350). -/
def engineWrite (s : State) (id pa : Nat) (b : Byte) : State := s.place pa b [(externalAgent, allCores)] id externalAgent

/-- The lines that n bytes from an address lie in. -/
def lineSpan (pa n : Nat) : List Nat := (List.range ((pa % 64 + n + 63) / 64)).map (fun i => pa / 64 + i)

/-- An external write: its bank serves it once the engine that holds its lines has returned them (R238, R363). -/
def externalWrite (s : State) (pa : Nat) (bs : List Byte) : State :=
  (s.reachAll 48 (lineSpan pa bs.length)).agentWrite externalAgent pa bs

/-- An external write of a byte that depends on what stands there once its bank serves it (R238, R363). -/
def externalUpdate (s : State) (pa : Nat) (g : Byte → Byte) : State :=
  let t := s.reachAll 48 (lineSpan pa 1)
  t.agentWrite externalAgent pa [g (t.latest pa)]

/-- Places the pending writes of a core to some bytes up to one with a number, behind the core's earlier atomics on them, where
their banks can record them. Nothing is published (R227, R239, R284, R366). -/
def settleWrite (s : State) (c id : Nat) (bytes : NMap Byte) : State :=
  let t := s.settle c (id + 1) (bytes.map (·.1))
  if s.recordedWell t then t else s

/-- Whether a core has a pending write with a number to some bytes. -/
def pending (s : State) (c id : Nat) (bytes : NMap Byte) : Bool :=
  bytes.any (fun p => (mgetD (s.core c).pend p.1 []).any (fun w => w.1 == id))

/-- A replayed ST that a receipt suppressed becomes a write of the resuming core (R366). -/
def adopt (s : State) (c id : Nat) (bytes : NMap Byte) : State :=
  bytes.foldl (fun s p =>
    match (s.coOf p.1).find? (fun w => w.id == id) with
    | some w => s.raiseFloor c p.1 w.stamp
    | none => s) s

/-! ## Constant space and code -/

/-- The values a byte may be read as since a stamp: the write that stood then and every later one, each once (R225, R268). A write
that a core has made but that has no place in coherence order yet is not among them (DESIGN CHOICE, log 106). -/
def sinceValues (s : State) (pa stamp : Nat) : List Byte :=
  let ws := s.coOf pa
  let later := ws.filter (fun w => Nat.blt stamp w.stamp)
  let old := (ws.filter (fun w => Nat.ble w.stamp stamp)).head?
  ((match old with
    | some w => [w.val]
    | none => []) ++ (later.map (·.val)).reverse).eraseDups

/-- Reads a byte as it stood at a stamp or as written since; which is not fixed (R225; log 3). -/
def readSince (s : State) (pa stamp : Nat) : Byte × State :=
  let vs := s.sinceValues pa stamp
  let (i, s) := s.pick vs.length
  ((vs[i]?).getD 0#8, s)

/-- Reads bytes as they stood at a stamp or as written since. -/
def readSinceN (s : State) (stamp : Nat) : List Nat → List Byte × State
  | [] => ([], s)
  | pa :: pas =>
    let (b, s) := s.readSince pa stamp
    let (bs, s) := s.readSinceN stamp pas
    (b :: bs, s)

/-- Reads a code word of a gallery: as it stood, published at module scope, when the gallery was accepted, or as written or
published since; a word is read whole, and which it is is not fixed (R268; log 3). -/
def readCode (s : State) (gallery accepted : Nat) (pas : List Nat) : List Byte × State :=
  let stood := fun (w : CoWrite) => Nat.ble w.stamp accepted && (match w.pub with | some n => Nat.ble n gallery | none => w.stamp == 0)
  let hidden := fun (w : CoWrite) => Nat.ble w.stamp accepted && w.pub.isNone
  let low := (pas.map (fun a => match (s.coOf a).find? stood with | some w => w.stamp | none => 0)).foldl max 0
  let t := { s with co := pas.foldl (fun m a => mset m a ((s.coOf a).filter (fun w => !(hidden w) || w.stamp == 0))) s.co }
  let (bs, t) := t.readUnit low pas
  (bs, { s with free := t.free })

/-! ## L1 lines and victim tags -/

/-- Brings a line into a core's L1 and drops the least recently used one into the victim tags when L1 is full (R265; log 5). -/
def l1Fill (s : State) (f : Flight) (line : Nat) : State :=
  let k := s.core f.core
  let ls := line :: k.l1
  if Nat.ble ls.length 4096 then s.setCore f.core { k with l1 := ls }
  else
    let out := (ls.getLast?).getD line
    (s.setCore f.core { k with l1 := ls.dropLast, victims := (out :: k.victims).take 2048 }).count f 0x12 1

/-- An access of a flight to a line of L1: a hit moves the line first; a miss scores when the line is a recent victim (R265). -/
def l1Touch (s : State) (u : Nat) (f : Flight) (load alloc : Bool) (line : Nat) : State :=
  let k := s.core f.core
  if k.l1.contains line then
    let s := s.setCore f.core { k with l1 := line :: k.l1.filter (· != line) }
    if load then s.count f 0x11 1 else s
  else
    let s := if load then s.count f 0x10 1 else s
    let s :=
      if k.victims.contains line then
        (s.modFlight u (fun g => { g with score := g.score + 1 })).count f 0x13 1
      else s
    let s := s.reach (clusterOf f.core) line
    if alloc then s.l1Fill f line else s

/-- The lines that some byte addresses touch, each once. -/
def linesOf (pas : List Nat) : List Nat := (pas.map (· / 64)).eraseDups

end State

end Sys2Proof.Machine
end

