-- ==== Sys2Proof/Machine/Translate.lean ====
section
/-! DEFINITION. Translation and the checks of an access (spec/15_preemption.md R290 to R294; spec/05_isa_memory.md R127), the
TLBs, and the miss-coalescing table (R293). -/

namespace Sys2Proof.Machine

/-- The end of a translation: an entry, no translation, or a malformed table entry (R291). -/
inductive XRes where
  | ok (e : TlbEnt)
  | missing
  | malformed
  deriving DecidableEq, Repr

/-- Bit n of a page-table entry. -/
def pteBit (pte n : Nat) : Bool := pte.testBit n
/-- The frame of a page-table entry as a physical address (R291). -/
def pteFrame (pte : Nat) : Nat := bits pte 51 12 * 4096
/-- FORM of a page-table entry (R70, R291). -/
def pteForm (pte : Nat) : Nat := bits pte 7 6

/-- The fields that the members of a group must share: all but `a`, `d` and the frame (R291). -/
def groupFields (pte : Nat) : Nat := pte % 2 ^ 10 + bits pte 63 52 * 2 ^ 52

/-- Pages of 4 KiB that a leaf at a level maps alone (R290). -/
def leafPages (level : Nat) : Nat := 512 ^ (level - 1)

/-- Members of a group at a level: 64 KiB pages at level 1, 4 GiB pages at level 3 (R290). -/
def groupSize (level : Nat) : Nat := if level == 1 then 16 else if level == 3 then 4 else 1

/-- A leaf of the walk (R290, R291, R364). -/
def leafOf (s : State) (context level table va pteAt pte : Nat) : XRes :=
  let n := if pteBit pte 9 then groupSize level else 1
  let step := leafPages level
  let size := n * step * 4096
  let idx := va / (4096 * step) % 512
  let j := idx % n
  let first := pteFrame pte - j * step * 4096
  let fits := (List.range n).all (fun i =>
    let m := s.numAt (table + 8 * (idx - j + i)) 8
    groupFields m == groupFields pte && pteFrame m == first + i * step * 4096)
  let span := if pteForm pte == 1 then 3 * size else size
  if first % size != 0 || Nat.blt (pteFrame pte) (j * step * 4096) || !fits || !(State.inMap first span) then .malformed
  else .ok ⟨context, va / size * (n * step), n * step, first, pte, pteAt⟩

/-- The walk from a level's table (R290, R291). -/
def walkFrom (s : State) (context va : Nat) : Nat → Nat → XRes
  | 0, _ => .malformed
  | level + 1, table =>
    let pteAt := table + 8 * (va / (4096 * 512 ^ level) % 512)
    let pte := s.numAt pteAt 8
    if !pteBit pte 0 then .missing
    else if bits pte 63 52 != 0 then .malformed
    else if pteBit pte 5 then
      if Nat.ble 3 level then .malformed else leafOf s context (level + 1) table va pteAt pte
    else if level == 0 then .malformed
    else walkFrom s context va level (pteFrame pte)

namespace State

/-- A full walk of a context's tables (R290). -/
def walk (s : State) (context va : Nat) : XRes := walkFrom s context va 5 (s.ctxt context).root

/-- The entry of a list that maps a page. -/
def tlbFind (es : List TlbEnt) (context va : Nat) : Option TlbEnt :=
  es.find? (fun e => e.context == context && Nat.ble e.vpn (va / 4096) && Nat.blt (va / 4096) (e.vpn + e.pages))

/-- Translates an address at a core: its TLB, the cluster's, then a walk (R292). -/
def xlate (s : State) (core context va : Nat) : XRes :=
  match tlbFind (s.core core).tlb context va with
  | some e => .ok e
  | none =>
    match tlbFind (s.cluster (clusterOf core)).tlb context va with
    | some e => .ok e
    | none => s.walk context va

/-- Replaces the entry of a page in a TLB, newest first, within its capacity. -/
def tlbPut (es : List TlbEnt) (n : Nat) (e : TlbEnt) : List TlbEnt :=
  (e :: es.filter (fun x => !(x.context == e.context && x.vpn == e.vpn))).take n

/-- Fills the TLBs with an entry used by an access, and sets `a`, and `d` on a write, in the table (R291; log 6). -/
def useEntry (s : State) (core : Nat) (e : TlbEnt) (write : Bool) : State :=
  let pte := e.pte ||| 2 ^ 10 ||| (if write then 2 ^ 11 else 0)
  let s := if pte == e.pte then s
    else s.externalUpdate (e.pteAt + 1) (· ||| (if write then 12 else 4))
  let e := { e with pte := pte }
  let k := s.core core
  let cl := s.cluster (clusterOf core)
  (s.setCore core { k with tlb := tlbPut k.tlb 2048 e }).setCluster (clusterOf core)
    { cl with tlb := tlbPut cl.tlb 16384 e }

/-- Counts an access's TLB misses at the core where its operation issued: event 0x14 for the data accesses of R317, 0x15 where the
cluster's TLB misses too, and 0x16 where a walk starts (R333, R368). -/
def countMiss (s : State) (f : Flight) (core : Nat) (data walks : Bool) (va : Nat) : State :=
  match tlbFind (s.core f.core).tlb f.context va with
  | some _ => s
  | none =>
    let s := if data then s.countAt core f 0x14 1 else s
    match tlbFind (s.cluster (clusterOf f.core)).tlb f.context va with
    | some _ => s
    | none => (s.countAt core f 0x15 1).countAt core f 0x16 (if walks then 1 else 0)

/-- A flight's checked access to a page: counts, fills and marks. -/
def usePage (s : State) (f : Flight) (core : Nat) (data write : Bool) (va : Nat) : State :=
  match s.xlate f.core f.context va with
  | .ok e => (s.countMiss f core data true va).useEntry f.core e write
  | _ => s.countMiss f core data true va

/-- An operation's checked accesses, each page once. -/
def usePagesAs (s : State) (f : Flight) (core : Nat) (data write : Bool) (vas : List Nat) : State :=
  ((vas.map (· / 4096)).eraseDups).foldl (fun s p => s.usePage f core data write (p * 4096)) s

/-- A flight's checked data accesses at issue (R317). -/
def usePages (s : State) (f : Flight) (write : Bool) (vas : List Nat) : State := s.usePagesAs f f.core true write vas

end State

/-- What an access needs of a page (R127, R294). -/
structure Want where
  read : Bool
  write : Bool
  fetch : Bool
  deriving DecidableEq, Repr

/-- Loads and WAITGE. -/
def Want.load : Want := ⟨true, false, false⟩
/-- Stores. -/
def Want.store : Want := ⟨false, true, false⟩
/-- Atomics and POST. -/
def Want.both : Want := ⟨true, true, false⟩
/-- Instruction fetch. -/
def Want.code : Want := ⟨false, false, true⟩

/-- A failed check: its place in the order of R127, the trap, its cause, and the miss key of an absent translation. -/
structure Failure where
  rank : Nat
  code : TrapCode
  cause : Nat
  key : Option MissKey
  deriving DecidableEq, Repr

/-- The page a miss on an address is keyed by (R293). -/
def pageKey (context va : Nat) : MissKey := .page context (va / 4096)

/-- Whether bits [63:57] equal bit 56 (R127). -/
def canonical (va : Nat) : Bool :=
  let top := va / 2 ^ 56
  top == 0 || top == 255

/-- The checks of a page that has a translation: privilege, then permission (R127, R294). -/
def pageFail (s : State) (context : Nat) (w : Want) (e : TlbEnt) : Option Failure :=
  if pteBit e.pte 4 && !(s.ctxt context).sys then some ⟨3, .privilege, 0, none⟩
  else if (w.read && !pteBit e.pte 1) || (w.write && !pteBit e.pte 2) || (w.fetch && !pteBit e.pte 3) then
    some ⟨4, .permission, 0, none⟩
  else none

/-- The first failing check of a global access, in the order of R127. -/
def globalFail (s : State) (core context : Nat) (w : Want) (size va : Nat) : Option Failure :=
  if !canonical va then some ⟨0, .translation, 0, none⟩
  else if va % size != 0 then some ⟨1, .misaligned, 0, none⟩
  else
    match s.xlate core context (va % 2 ^ 57) with
    | .missing => some ⟨2, .translation, 0, some (pageKey context (va % 2 ^ 57))⟩
    | .malformed => some ⟨2, .translation, 1, some (pageKey context (va % 2 ^ 57))⟩
    | .ok e => pageFail s context w e

/-- The first failing check of an access of n bytes to a space of a given size in bytes (R127, R131, R132). -/
def rangeFail (limit size off : Nat) : Option Failure :=
  if off % size != 0 then some ⟨1, .misaligned, 0, none⟩
  else if Nat.blt limit (off + size) then some ⟨4, .permission, 0, none⟩
  else none

/-- The least rank of some failures. -/
def leastRank : List (AddrOf × Failure) → Nat
  | [] => 5
  | (_, x) :: xs => min x.rank (leastRank xs)

/-- The failure of an operation: the first check in R127's order that any thread fails, with every thread that fails it. -/
def opFailure (fails : List (AddrOf × Failure)) : Option (Trap × Option MissKey) :=
  let r := leastRank fails
  match fails.filter (fun p => p.2.rank == r) with
  | [] => none
  | (a, x) :: xs => some (⟨x.code, x.cause, a.addr, 0, a.slot :: xs.map (fun p => p.1.slot)⟩, x.key)

/-- The failure of some accesses under a check. -/
def failuresOf (check : Nat → Option Failure) (as : List AddrOf) : Option (Trap × Option MissKey) :=
  opFailure (as.filterMap (fun a => (check a.addr).map (fun x => (a, x))))

namespace State

/-- The miss-table entry of a key. -/
def missOf (s : State) (die : Nat) (key : MissKey) : Option MissEnt := (s.die die).miss.find? (fun m => m.key == key)

/-- Parks something behind a key that is already missed (R293). -/
def parkBehind (s : State) (die : Nat) (key : MissKey) (p : Parked) : State :=
  let k := s.die die
  s.setDie die { k with miss := k.miss.map (fun m => if m.key == key then { m with parked := m.parked ++ [p] } else m) }

/-- Takes a new entry of the miss table (R293). -/
def newMiss (s : State) (die : Nat) (key : MissKey) (p : Parked) : State :=
  let k := s.die die
  (s.setDie die { k with miss := k.miss ++ [⟨key, [p]⟩] }).emit (.missing key)

/-- Whether a die's miss table is full: 512 entries (R293). -/
def missFull (s : State) (die : Nat) : Bool := Nat.ble 512 (s.die die).miss.length

/-- Whether some die's table holds a key: a binding slot raises its fault once per context and slot (R293, R305). -/
def missAnywhere (s : State) (key : MissKey) : Bool := (List.range 4).any (fun d => (s.missOf d key).isSome)

end State

/-- A trap that carries a miss key, for an operation or a clause: the first miss on a key raises its trap, a later one parks
the flight behind the key, and a full table holds the flight (R293). Event 0x14 counts the page when the operation issues (R317), and the
miss counts at the core where it issued (R368). -/
def missTrap (s : State) (u : Nat) (f : Flight) (t : Trap) (key : MissKey) (core op : Nat) (body : Option Nat)
    (word pc : Nat) (ops : List Word) : State :=
  let d := dieOf f.core
  let va := t.addr % 2 ^ 57
  match s.missOf d key with
  | some _ =>
    let s := s.countMiss f core false false va
    let r := faultRecord f t op body word pc ops
    ((s.setFlight u { f with frozen := some ⟨t.code, op, r, none⟩, stall := none }).parkBehind d key (.flight u r)).countAt core f 0x17 1
  | none =>
    if s.missFull d then s.setFlight u { f with stall := some .memory }
    else ((s.countMiss f core false true va).freezeTrap u f t op body word pc ops).newMiss d key (.flight u [])

/-- The effect of a failed check at the operation about to issue. -/
def failEff (s : State) (u : Nat) (f : Flight) (c : ClauseRun) (srcs : List Nat) (x : Trap × Option MissKey) : Eff :=
  match x.2 with
  | none => .trap x.1
  | some key =>
    .stay (missTrap s u f x.1 key f.core (match c.body with | some _ => 1 | none => c.next) (c.body.map (· + c.next)) c.word
      c.addr.toNat (trapOps f c srcs))

/-- The physical address of byte offset 0 of an access in frame k of its page (R70, R72). -/
def TlbEnt.frameAddr (e : TlbEnt) (va k : Nat) : Nat :=
  e.pa + k * (e.pages * 4096) + (va - e.vpn * 4096)

/-- The translation of a checked address: physical address of frame 0, page size in bytes and FORM. -/
structure Located where
  pa : Nat
  page : Nat
  form : Nat
  deriving DecidableEq, Repr

/-- Where a checked global address lies. -/
def State.locate (s : State) (f : Flight) (va : Nat) : Located :=
  match s.xlate f.core f.context (va % 2 ^ 57) with
  | .ok e => ⟨e.frameAddr (va % 2 ^ 57) 0, e.pages * 4096, pteForm e.pte⟩
  | _ => ⟨0, 4096, 0⟩

end Sys2Proof.Machine
end

