-- ==== Sys2Proof/Machine/Entries.lean ====
section
/-! DEFINITION. The in-flight record (spec/13_preempted_sum.md R244; spec/15_preemption.md R281 to R284): entries, receipt
tags and receipts, write-backs, the permission count of R265, monitors (R335) and path signatures (R340). -/

namespace Sys2Proof.Machine

/-! ## Holds before issue -/

/-- Whether a flight holds 128 entries (R282). -/
def Flight.full (f : Flight) : Bool := Nat.ble 128 f.entries.length

/-- Whether the permission count holds a flight at a memory operation (R265, R266). -/
def State.throttled (s : State) (u : Nat) (f : Flight) (c : ClauseRun) : Bool :=
  let older := (s.inQuarter f.core f.quarter).filter (fun p => p.1 != u && Nat.ble p.2.age f.age)
  let handler := c.act.any (fun i => (f.thread i).handler)
  !handler && Nat.ble (s.quarter f.core f.quarter).perm older.length

/-! ## Receipt tags and receipts (R283, R284) -/

namespace State

/-- The tag that the next T operation of a flight takes: context, allocating die and sequence (R283). -/
def nextTag (s : State) (f : Flight) : Nat :=
  let d := dieOf f.core
  f.context * 2 ^ 20 + d * 2 ^ 18 + mgetD (s.ctxt f.context).rseq d 0 % 2 ^ 18

/-- Whether that tag is not the tag of a live receipt (R283). -/
def tagFree (s : State) (f : Flight) : Bool := !((s.ctxt f.context).live.contains (s.nextTag f))

/-- Takes the next tag (R283). -/
def takeTag (s : State) (f : Flight) : State :=
  let c := s.ctxt f.context
  let d := dieOf f.core
  s.setCtxt f.context { c with
    rseq := mset c.rseq d ((mgetD c.rseq d 0 + 1) % 2 ^ 18)
    live := s.nextTag f :: c.live }

/-- Retires the receipts of a tag, in the books and in the spill rings (R244, R284). -/
def retireTag (s : State) (context tag : Nat) : State :=
  let c := s.ctxt context
  let s := s.setCtxt context { c with live := c.live.filter (· != tag) }
  let clean := fun (k : Die) =>
    { k with books := mmapv (fun rs => rs.filter (fun r => r.tag != tag)) k.books
             spill := k.spill.filter (fun r => r.tag != tag) }
  { s with dies := mmapv clean s.dies }

end State

/-! ## Monitors and signatures -/

/-- The bin of a sample (R335). -/
def monitorBin (m : MonitorSetup) (v : Nat) : Nat := if Nat.blt v m.floor then 0 else min 15 ((v - m.floor) / 2 ^ m.shift)

/-- A monitor with a sample added (R335). -/
def Monitor.add (m : Monitor) (v : Nat) : Monitor :=
  let b := monitorBin m.setup v
  { m with
    count := m.count + 1
    min := if m.count == 0 then v else Nat.min m.min v
    max := Nat.max m.max v
    sum := m.sum + v
    bins := mset m.bins b (mgetD m.bins b 0 + 1) }

/-- Whether a filter word lets a context through (R332, R335). -/
def filterOn (w : Word) (context : Nat) : Bool :=
  w.getLsbD 0 && (w.getLsbD 1 || (w >>> 4).toNat % 4096 == context)

/-- Samples a quantity at a core for a context (R335). -/
def State.sample (s : State) (core context quantity v : Nat) : State :=
  let k := s.core core
  let ms := mmapv (fun (m : Monitor) =>
    if m.setup.quantity == quantity && filterOn m.setup.filter context then m.add v else m) k.monitors
  s.setCore core { k with monitors := ms }

/-- Fold (R340). -/
def foldSig (sig : BitVec 64) (x : Nat) : BitVec 64 := mix64 (sig + BitVec.ofNat 64 x + 0x9E3779B97F4A7C15#64)

/-- Whether a flight's path signature is kept: a session with `sig` set runs its gallery (R318). -/
def State.signing (s : State) (f : Flight) : Bool :=
  s.sessions.any (fun p => p.2.running && p.2.sig && p.2.gallery == some f.gallery)

/-- What a transfer with a mask of taken threads folds (R340). -/
def sigTransfer (taken : Nat) : List Nat := [taken % 2 ^ 64, 0x100000000 + taken / 2 ^ 64]

/-- What a returning atomic folds (R340). -/
def sigAtomic (olds : List Nat) : List Nat := (0x200000000 + olds.length) :: olds

/-- Folds the inputs that are known, up to the first that is not (R318). -/
def drainSig (sig : BitVec 64) : List (Nat × Option (List Nat)) → BitVec 64 × List (Nat × Option (List Nat))
  | (_, some xs) :: q => drainSig (xs.foldl foldSig sig) q
  | q => (sig, q)

/-- A signature input joins in issue order; entry 0 stands for a transfer (R318). -/
def Flight.addSig (f : Flight) (id : Nat) (xs : Option (List Nat)) : Flight :=
  let p := drainSig f.sig (f.sigq ++ [(id, xs)])
  { f with sig := p.1, sigq := p.2 }

/-- The values of an atomic become known (R318). -/
def Flight.knowSig (f : Flight) (id : Nat) (xs : List Nat) : Flight :=
  let p := drainSig f.sig (f.sigq.map (fun q => if q.1 == id then (id, some xs) else q))
  { f with sig := p.1, sigq := p.2 }

/-! ## Entries -/

/-- The registers that an operation reads, as they stand at issue, in operand order (R281). -/
def Flight.captured (f : Flight) (names : List Nat) : List (Nat × RegVal) :=
  names.map (fun n => (n, (mget f.regs n).getD (.lanes [])))

/-- A new entry for the operation about to issue (R281). -/
def newEntry (s : State) (f : Flight) (c : ClauseRun) (id : Nat) (cls : EClass) (flag tag : Nat) (pay : Payload)
    (srcs : List Nat) (addrs : List AddrOf) : Entry :=
  { id := id, cls := cls, flag := flag, op := c.next, body := c.body.map (· + c.next), word := c.word, pc := c.addr
    tag := tag, mask := c.act, done := 0, opnds := f.captured srcs
    addrs := addrs.foldl (fun m a => mset m a.slot a.addr) [], pay := pay, issued := s.cycAt f.core, acked := false
    parked := none, discards := [], replay := false, resent := false, sent := [], fixed := [], core := f.core }

/-- Adds an entry, raising its flag (R76, R244). -/
def Flight.addEntry (f : Flight) (e : Entry) : Flight := { f with entries := f.entries ++ [e] }.flagUp e.flag

/-- Maps the destinations of an operation that will be written later, and sets their scoreboard bits (R77, R194). -/
def Flight.await (f : Flight) (names : List Nat) : Flight :=
  { f with
    sb := f.sb ++ names
    regs := names.foldl (fun m n => match mget m n with | some _ => m | none => mset m n (.lanes [])) f.regs }

/-- Writes back an operation's results: for each destination register, the threads' values; a discarded write-back is left
out (R339). `u` asks for uniform form (R197). -/
def writeBack (f : Flight) (u : Bool) (e : Entry) : List Nat → List (List (Nat × Tri Word)) → Flight
  | n :: ns, v :: vs =>
    let kept := v.filter (fun p => !(e.discards.contains (p.1, n)))
    let all := kept.length == v.length && f.live.all (fun i => e.mask.contains i)
    let g := if kept.isEmpty then f else f.writeReg u all n kept
    writeBack { g with sb := g.sb.filter (· != n) } u e ns vs
  | _, _ => f

/-- Removes a completed entry and lowers its flag (R76, R244). -/
def Flight.complete (f : Flight) (e : Entry) : Flight := (f.dropEntry e.id).flagDown e.flag

/-- Whether an entry is acknowledged: ST, STS, POST and TJOIN, not an atomic that returns a value (R244, R273). -/
def Entry.storeClass (e : Entry) : Bool :=
  match e.pay with
  | .store _ _ | .sts | .tjoin _ | .atom true _ _ _ _ => true
  | _ => false

/-- Releases the acknowledged T entries of a flight at its boundary of scope 3 or 4, and retires their receipts (R244). -/
def State.releaseT (s : State) (u : Nat) : State :=
  match mget s.flights u with
  | none => s
  | some f =>
    let out := f.entries.filter (fun e => e.storeClass && e.acked)
    let keep := f.entries.filter (fun e => !(out.any (fun x => x.id == e.id)))
    let s := s.setFlight u { f with entries := keep }
    out.foldl (fun s e => s.retireTag f.context e.tag) s

/-- The window of a flight, and the bytes it holds. -/
def State.windowOf (s : State) (f : Flight) : Option (Nat × Window) :=
  match f.win with
  | none => none
  | some w => (mget s.windows w).map (fun x => (w, x))

end Sys2Proof.Machine
end

