-- ==== Sys2Proof/Machine/Atomics.lean ====
section
/-! DEFINITION. Phase boundaries (spec/05_isa_memory.md R136; spec/12_memory_model.md R232, R233), the test of waiting AWAITs
(R141), and the issue of ATOM, ATOMS and POST (R134 to R137). -/

namespace Sys2Proof.Machine

/-- Whether the operand of an atomic is an FP32 value (R134, R135). -/
def atomFloat : AtomOp → Bool
  | .fadd32 | .fmin32 | .fmax32 => true
  | _ => false

/-- The two operands held in a d block: x, and the new value of a compare-and-swap (R135). -/
def atomXY (op : AtomOp) (ws : List Word) : Nat × Nat :=
  match op with
  | .cas32 => (wordsNat (ws.take 1), wordsNat (ws.drop 1))
  | .cas64 => (wordsNat (ws.take 2), wordsNat (ws.drop 2))
  | _ => (wordsNat ws, 0)

/-- The block that an atomic takes from a thread's siblings: their majority, or where no two agree Mean3 in FP32 for the
floating operations and sibling 0's block for the others (R134). -/
def atomBlock (f : Flight) (slot : Nat) (d : BitVec 7) (op : AtomOp) : List Word :=
  let t := f.opndBlock slot d op.regs
  if atomFloat op && t.x0 != t.x1 && t.x0 != t.x2 && t.x1 != t.x2 then
    natWords 1 (mean3 fp32 (wordsNat t.x0) (wordsNat t.x1) (wordsNat t.x2)).pat
  else t.maj.1

/-- The destination registers of a returning atomic: the old value's, and the second half of a `.spec` block (R135, R137). -/
def atomDests (op : AtomOp) (use : AtomUse) (names : List Nat) : List Nat :=
  let n := op.bytes / 4
  names.take n ++ (if use = .spec then names.drop op.regs else [])

/-! ## Phase boundaries (R136, R232) -/

namespace State

/-- Publishes at scope 3 what `.quant` operations of a core owe (R233). -/
def showOwed (s : State) (core : Nat) (owed : List (Nat × Nat)) : State :=
  owed.foldl (fun s p => s.showAt p.1 p.2 core allCores) s

/-- The start of a phase boundary at a core: outstanding atomics and POSTs are performed, held `.quant` POSTs included, and what
`.quant` operations owe is published at scope 3 (R136, R233). -/
def drain (s : State) (core : Nat) : State :=
  let s := s.performWhere (.boundary core) (fun r => r.core == core)
  let s := s.showOwed core (s.core core).owed
  s.setCore core { s.core core with owed := [] }

/-- A boundary of a flight: drains the core, publishes at scope `pub` and refreshes at scope `ref`, where given; an
acknowledged T entry is released at a boundary of scope 3 or 4 (R232, R244). Scope 4's fabric writes are answered. -/
def boundaryStep (s : State) (u : Nat) (f : Flight) (pub ref : Option Nat) : List Nat × State :=
  let sc := s.scopesOf f.gallery
  let s := (((s.drain f.core).showOwed f.core f.owed).modFlight u (fun g => { g with
    owed := [], wrote := if pub == some 3 || pub == some 4 then [] else g.wrote })).count f 0x3A 1
  let (ids, s) := match pub with
    | some n =>
      let s := if n == 3 || n == 4 then s.count f 0x3B 1 else s
      if n == 4 then s.publish4 f.core (members sc 4 f.core) else ([], s.publishAt f.gallery n f.core)
    | none => ([], s)
  let s := match ref with
    | some n => s.refresh f.core (members sc n f.core)
    | none => s
  let wide := fun (x : Option Nat) => x == some 3 || x == some 4
  (ids, if wide pub || wide ref then s.releaseT u else s)

/-- Whether a core can pass a phase boundary now: its outstanding atomics can all be performed, and the banks can record them and,
at a Publish, the core's pending writes (R131, R136, R232, R284). -/
def canBound (s : State) (core : Nat) (pub : Bool) : Bool :=
  let s1 := s.drain core
  !(s1.requests.any (fun r => r.core == core)) && s.recordedWell (if pub then s1.placeOwn core else s1)

/-! ## AWAITs that wait (R141) -/

/-- The threads of a flight that wait at an AWAIT whose word has reached their count and is not held by an outstanding write of the
window (R131, R141). -/
def arrived (s : State) (f : Flight) : List Nat :=
  match f.win with
  | none => []
  | some win => (f.threads.filter (fun t =>
      match t.2.awaiting with
      | some (off, n) => t.2.st == .blocked && !(s.storeBusy win false [(off, off + 4)])
          && Nat.blt (BitVec.ofNat 32 (leNat (s.winRead win off 4)) - n).toNat (2 ^ 31)
      | none => false)).map (·.1)

/-- The flights with a waiting thread. -/
def waiters (s : State) : List Nat :=
  (s.flights.filter (fun p => p.2.threads.any (fun t => t.2.awaiting.isSome))).map (·.1)

/-- Threads of a flight that pass their AWAIT perform Refresh(1) and stand at the next clause, ready. -/
def passAwait (s : State) (u : Nat) (f : Flight) (pass : List Nat) : State :=
  let f := { f.modThreads pass (fun t => { t with st := .ready, pc := t.next, awaiting := none }) with stall := none }
  ((s.setFlight u f).boundaryStep u f none (some 1)).2

/-- The engines test the waiting AWAITs, up to n times, while some thread passes (R141): a Refresh performs atomics first and so
may change another word. -/
def retestN : Nat → State → State
  | 0, s => s
  | n + 1, s =>
    match s.waiters.find? (fun u =>
      match mget s.flights u with
      | some f => !(s.arrived f).isEmpty && s.canBound f.core false
      | none => false) with
    | some u =>
      (match mget s.flights u with
       | some f => retestN n (s.passAwait u f (s.arrived f))
       | none => s)
    | none => s

/-- The engines test the waiting AWAITs again after a change (R141). -/
def retest (s : State) : State :=
  retestN ((s.flights.map (fun p => (p.2.threads.filter (fun t => t.2.awaiting.isSome)).length)).sum) s

/-- Performs a core's outstanding atomics and POSTs, before a further Publish of an operation (R232); where it performs ATOMS, waiting
AWAITs are tested again. -/
def performAll (s : State) (core : Nat) : State :=
  let t := s.drain core
  if s.requests.any (fun r => r.core == core && r.win.isSome) then t.retest else t

/-- A phase boundary of a flight (R136, R232); where it performs ATOMS, waiting AWAITs are tested again. -/
def boundary (s : State) (u : Nat) (f : Flight) (pub ref : Option Nat) : List Nat × State :=
  let p := s.boundaryStep u f pub ref
  (p.1, if s.requests.any (fun r => r.core == f.core && r.win.isSome) then p.2.retest else p.2)

end State

/-- The thread passes the AWAIT test (R141, R142). -/
def reached (w c : Word) : Bool := Nat.blt (w - c).toNat (2 ^ 31)

/-- Whether an entry is a `.quant` POST, which its core holds until a phase boundary (R136, R233). -/
def Entry.heldPost (e : Entry) : Bool :=
  match e.pay with
  | .atom true _ use _ _ => use == .quant
  | _ => false

/-- Performs what it can of an atomic entry, at its agents and in order (R233, R236, R237), and tests the waiting AWAITs. -/
def State.performEntry (s : State) (u id : Nat) : State :=
  (s.performWhere .agent (fun r => r.flight == u && r.entry == id)).retest

/-! ## Accesses that wait for atomics, and loads that stores follow -/

/-- The aligned 8-byte units that n bytes from an address lie in. -/
def State.unitSpan (pa n : Nat) : List Nat := (List.range ((pa % 8 + n + 7) / 8)).map (fun i => pa / 8 * 8 + 8 * i)

/-- Whether some byte intervals have a byte in common. -/
def crosses (xs ys : List (Nat × Nat)) : Bool := xs.any (fun x => ys.any (fun y => Nat.blt x.1 y.2 && Nat.blt y.1 x.2))

/-- Whether a plain load of some bytes must wait for an ATOM of its core that has not returned: it returns the ATOM's effect or
later, unless the ATOM is `.nord` or was refused (R134, R239). -/
def State.atomAhead (s : State) (core : Nat) (ivs : List (Nat × Nat)) : Bool :=
  s.flights.any (fun p => p.2.core == core && p.2.entries.any (fun e =>
    match e.pay with
    | .atom false op use _ rs => use != .nord && !e.replay
        && crosses ivs ((rs.filter (fun r => !r.refused)).map (fun r => (r.pa, r.pa + op.bytes)))
    | _ => false))

/-- Whether some of a flight's threads have an ATOMS that is not performed, or the flight has one on some bytes of its window: its
accesses to the window take effect in program order (R131, R236). -/
def State.atomsAhead (s : State) (u : Nat) (slots : List Nat) (ivs : List (Nat × Nat)) : Bool :=
  s.requests.any (fun r => r.flight == u && r.win.isSome && (slots.contains r.thread || crosses ivs [(r.lo, r.lo + r.len)]))

/-- The physical addresses of the bytes of a constant offset: the pages as they stood at acceptance (R225). -/
def constBytes (g : Gallery) (off n : Nat) : List Nat :=
  let va := if Nat.blt off 0x10000 then g.launch.args + off else g.desc.consts + (off - 0x10000)
  let pages := if Nat.blt off 0x10000 then g.argPages else g.constPages
  (List.range n).map (fun i => mgetD pages ((va + i) % 2 ^ 57 / 4096) 0 + (va + i) % 4096)

/-- The physical bytes of a thread's row of a COPY.G2V (R152). -/
def rowBytes (s : State) (f : Flight) (x : Engine) (slot : Nat) : List Nat :=
  match mget x.per slot with
  | some (h :: _) => (List.range (16 * x.len16)).map (fun i => (s.locate f ((x.src + 16 * h * x.spitch + i) % 2 ^ 64)).pa)
  | _ => []

/-- The global bytes that a thread's load reads: of an LD in every frame of a triple page, of an LDC in constant space, of a
COPY.G2V its row. -/
def globalSpans (s : State) (f : Flight) (e : Entry) (slot : Nat) : List (Nat × Nat) :=
  let va := mgetD e.addrs slot 0
  match e.pay, bits e.word 31 26 with
  | .engine x, _ =>
    if x.kind == .g2v then (rowBytes s f x slot).map (fun b => (b, b + 1)) else []
  | .load size _ _ _, 0x2B =>
    match mget s.galleries f.gallery with
    | some g => (constBytes g va size.bytes).map (fun b => (b, b + 1))
    | none => []
  | p, 0x27 =>
    let n := match p with | .load size _ _ _ => size.bytes | _ => 8
    let l := s.locate f va
    (if l.form == 1 then [0, l.page, 2 * l.page] else [0]).map (fun k => (l.pa + k, l.pa + k + n))
  | _, _ => []

/-- The bytes of the window that a thread's LDS reads. -/
def windowSpans (e : Entry) (slot : Nat) : List (Nat × Nat) :=
  match e.pay, bits e.word 31 26 with
  | .load size _ _ _, 0x29 => [(mgetD e.addrs slot 0, mgetD e.addrs slot 0 + size.bytes)]
  | _, _ => []

/-- What a thread's load keeps as a later store writes its bytes: a COPY.G2V the row that it has read, or that stands there now. -/
def keptRow (s : State) (f : Flight) (e : Entry) (slot : Nat) : Nat :=
  match e.pay with
  | .engine x => ((mget x.aBlk slot).bind (·.head?)).getD (leNat ((rowBytes s f x slot).map (s.snap f.core)))
  | _ => 0

/-- A flight's store to some bytes of its window, or of global memory, follows its outstanding loads of them: a replay of such a load
gives the value it read (R285; log 89). -/
def State.fixLoads (s : State) (u : Nat) (window : Bool) (ivs : List (Nat × Nat)) : State :=
  match mget s.flights u with
  | none => s
  | some f =>
    let mark := fun (e : Entry) =>
      let slots := e.addrs.map (·.1) ++ (match e.pay with | .engine x => x.per.map (·.1) | _ => [])
      let new := if e.cls == .i then slots.filter (fun i => (mget e.fixed i).isNone
        && crosses (if window then windowSpans e i else globalSpans s f e i) ivs) else []
      { e with fixed := new.foldl (fun m i => mset m i (keptRow s f e i)) e.fixed }
    s.setFlight u { f with entries := f.entries.map mark }

/-! ## ATOM, ATOMS and POST -/

/-- The requests of an atomic: one for each active thread (R134). -/
def atomReqs (f : Flight) (d : BitVec 7) (op : AtomOp) (place : Nat → Nat) (as : List AddrOf) : List AtomReq :=
  as.map (fun a =>
    let xy := atomXY op (atomBlock f a.slot d op)
    ⟨a.slot, place a.addr, xy.1, xy.2, false, 0, false⟩)

/-- A long-latency or posted operation issues: the flight takes the entry, its destinations wait, and split addresses meet D
(R127, R244), with U = 1 for every active thread (R198). -/
def issueEntry (s : State) (u : Nat) (f : Flight) (c : ClauseRun) (r : OpRegs) (cls : EClass) (tagged : Bool) (flag : Nat)
    (pay : Payload) (as : List AddrOf) (dests : List Nat) : Nat × State :=
  let tag := if tagged then s.nextTag f else 0
  let s := if tagged then s.takeTag f else s
  let (id, s) := s.fresh
  let s := s.noteSession f.gallery id
  let e := newEntry s f c id cls flag tag pay r.srcs as
  let ms := if r.u && as.any (fun a => !a.unanimous) then c.act.map (fun i => (i, splitMeet)) else splitMeets as
  let g := (((released f c r).await dests).addEntry e).meets ms
  (id, ((s.setFlight u g).occupy f c r).countMeets f ms)

/-- The checks of R127 for an access of a flight. -/
def flightFail (s : State) (f : Flight) (w : Want) (size : Nat) : Nat → Option Failure :=
  globalFail s f.core f.context w size

/-- ATOM and POST: the checks of R127, then an entry that is performed later (R134, R244). -/
def atomOp (post : Bool) (aop : AtomOp) (use : AtomUse) (d a : BitVec 7) (off : BitVec 5) (s : State) : Res :=
  let regs := fun (f : Flight) =>
    let names := f.block d.toNat (atomWidth aop use)
    OpRegs.mk (inOrder [names.take aop.regs, f.block a.toNat 2]) (if post then [] else atomDests aop use names) [] false 2
  runOp s regs fun u f c =>
    let r := regs f
    let as := globalAddrs f c false a (off.toNat * aop.bytes)
    if s.throttled u f c then .hold .throttle
    else
      match failuresOf (flightFail s f Want.both aop.bytes) as with
      | some x => failEff s u f c r.srcs x
      | none =>
        if f.full || !(s.tagFree f) then .hold .memory
        else
          let s1 := s.usePages f true (as.map (·.addr))
          let reqs := atomReqs f d aop (fun va => (s.locate f va).pa) as
          let flag := if post then 15 else c.flag
          let s1 := reqs.foldl (fun s q => s.recallLine (if post then none else some (clusterOf f.core)) (q.pa / 64)) s1
          let (id, s2) := issueEntry s1 u f c r .t true flag (.atom post aop use r.dsts reqs) as r.dsts
          let s2 := s2.fixLoads u false (reqs.map (fun q => (q.pa, q.pa + aop.bytes)))
          let s2 := if s.signing f && !post then s2.modFlight u (fun g => g.addSig id none) else s2
          let t := s2.count f (if post then 0x19 else 0x18) c.act.length
          if s.recordedWell t then .done t else .hold .memory

/-- ATOM (R134). -/
def execAtom (aop : AtomOp) (use : AtomUse) (d a : BitVec 7) (off : BitVec 5) (s : State) : Res :=
  atomOp false aop use d a off s

/-- POST (R134). -/
def execPost (aop : AtomOp) (use : AtomUse) (d a : BitVec 7) (off : BitVec 5) (s : State) : Res :=
  atomOp true aop use d a off s

/-- The byte interval of each address. -/
def spans (n : Nat) (as : List AddrOf) : List (Nat × Nat) := as.map (fun a => (a.addr, a.addr + n))

/-- ATOMS: an atomic on the wing's store, held while its bytes overlap an outstanding interval (R131, R134). -/
def execAtoms (aop : AtomOp) (use : AtomUse) (d a : BitVec 7) (off : BitVec 5) (s : State) : Res :=
  let regs := fun (f : Flight) =>
    let names := f.block d.toNat (atomWidth aop use)
    OpRegs.mk (inOrder [names.take aop.regs, [f.regName a.toNat]]) (atomDests aop use names) [] false 2
  runOp s regs fun u f c =>
    let r := regs f
    let as := storeAddrs f c false a (off.toNat * aop.bytes)
    match failuresOf (rangeFail f.winSize aop.bytes) as with
    | some x => .trap x.1
    | none =>
      let win := f.win.getD 0
      if f.full || s.storeBusy win true (spans aop.bytes as) then .hold .memory
      else
        let reqs := atomReqs f d aop id as
        let (id, s2) := issueEntry s u f c r .t false c.flag (.atoms aop use r.dsts win reqs) as r.dsts
        let s2 := s2.fixLoads u true (spans aop.bytes as)
        let s2 := if s.signing f then s2.modFlight u (fun g => g.addSig id none) else s2
        .done (s2.count f 0x18 c.act.length)

end Sys2Proof.Machine
end

