-- ==== Sys2Proof/Machine/P384.lean ====
section
/-! DEFINITION. ECDSA on the curve P-384, which boot and attestation use (spec/00_scope.md R2; spec/20_collectives.md R359, R361):
the standard curve and algorithm of FIPS 186, over numbers. The names of the algorithms are the spec's; their constants and
formulas are the published standard's (PRESUMED, log 94). -/

namespace Sys2Proof.Machine.P384

/-- The field prime. -/
def p : Nat := 2 ^ 384 - 2 ^ 128 - 2 ^ 96 + 2 ^ 32 - 1

/-- The order of the base point. -/
def n : Nat := 0xFFFFFFFFFFFFFFFFFFFFFFFFFFFFFFFFFFFFFFFFFFFFFFFFC7634D81F4372DDF581A0DB248B0A77AECEC196ACCC52973

/-- The constant term of the curve y² = x³ − 3x + b. -/
def b : Nat := 0xB3312FA7E23EE7E4988E056BE3F82D19181D9C6EFE8141120314088F5013875AC656398D8A2ED19D2A85C8EDD3EC2AEF

/-- A point in Jacobian coordinates: (x / z², y / z³); z = 0 is the point at infinity. -/
structure Point where
  x : Nat
  y : Nat
  z : Nat
  deriving DecidableEq, Repr

/-- The point at infinity. -/
def infinity : Point := ⟨1, 1, 0⟩

/-- The base point. -/
def base : Point :=
  ⟨0xAA87CA22BE8B05378EB1C71EF320AD746E1D3B628BA79B9859F741E082542A385502F25DBF55296C3A545E3872760AB7,
   0x3617DE4A96262C6F5D9E98BF9292DC29F8F41DBD289A147CE9DA3113B5F0B8C00A60B1CE1D7E819D7A431D7C90EA0E5F, 1⟩

/-- A product in the field. -/
def mul (u v : Nat) : Nat := u * v % p

/-- A difference of two reduced numbers in the field. -/
def sub (u v : Nat) : Nat := (u + p - v) % p

/-- x to the power e modulo m, of an exponent below 2 to the k. -/
def pow (m x : Nat) : Nat → Nat → Nat
  | 0, _ => 1
  | k + 1, e =>
    let r := pow m x k (e / 2)
    if e % 2 == 1 then r * r % m * x % m else r * r % m

/-- The inverse modulo a prime of 384 bits. -/
def inverse (m x : Nat) : Nat := pow m x 384 (m - 2)

/-- Twice a point. -/
def double (q : Point) : Point :=
  if q.z == 0 || q.y == 0 then infinity
  else
    let d := mul q.z q.z
    let g := mul q.y q.y
    let bt := mul q.x g
    let al := mul 3 (mul (sub q.x d) ((q.x + d) % p))
    let x := sub (mul al al) (8 * bt % p)
    ⟨x, sub (mul al (sub (4 * bt % p) x)) (8 * mul g g % p), 2 * mul q.y q.z % p⟩

/-- The sum of two points. -/
def add (q r : Point) : Point :=
  if q.z == 0 then r
  else if r.z == 0 then q
  else
    let qz := mul q.z q.z
    let rz := mul r.z r.z
    let u := mul q.x rz
    let v := mul r.x qz
    let s := mul q.y (mul rz r.z)
    let t := mul r.y (mul qz q.z)
    if u == v then (if s == t then double q else infinity)
    else
      let h := sub v u
      let w := sub t s
      let hh := mul h h
      let hhh := mul h hh
      let x := sub (sub (mul w w) hhh) (2 * mul u hh % p)
      ⟨x, sub (mul w (sub (mul u hh) x)) (mul s hhh), mul h (mul q.z r.z)⟩

/-- m times a point, of a number below 2 to the k. -/
def times (q : Point) : Nat → Nat → Point
  | 0, _ => infinity
  | k + 1, m =>
    let r := double (times q k (m / 2))
    if m % 2 == 1 then add r q else r

/-- The x coordinate of a point that is not at infinity. -/
def Point.affineX (q : Point) : Nat := mul q.x (inverse p (mul q.z q.z))

/-- Whether a pair of coordinates is a point of the curve. -/
def onCurve (x y : Nat) : Bool :=
  Nat.blt x p && Nat.blt y p && mul y y == sub ((mul x (mul x x) + b) % p) (3 * x % p)

/-- Whether (r, s) is a signature of a digest under a public key. -/
def verify (key : Nat × Nat) (digest r s : Nat) : Bool :=
  let w := inverse n s
  let x := add (times base 384 (digest * w % n)) (times ⟨key.1, key.2, 1⟩ 384 (r * w % n))
  onCurve key.1 key.2 && Nat.blt 0 r && Nat.blt r n && Nat.blt 0 s && Nat.blt s n && x.z != 0 && x.affineX % n == r

/-- The signature of a digest by a private key with a secret number k. -/
def signWith (d digest k : Nat) : Nat × Nat :=
  let r := (times base 384 k).affineX % n
  (r, inverse n k * ((digest + r * d) % n) % n)

/-- The signature with the first of the given numbers that gives one with no zero. -/
def sign (d digest : Nat) : List Nat → Nat × Nat
  | [] => (0, 0)
  | k :: ks =>
    let q := signWith d digest k
    if q.1 == 0 || q.2 == 0 then sign d digest ks else q

end Sys2Proof.Machine.P384
end

