-- ==== Sys2Proof/Machine/Bx.lean ====
section
/-! DEFINITION. The BX block formats (spec/02_numbers.md R64 to R69). -/

namespace Sys2Proof.Machine

/-- One input of BxQuant: a NaN (signalling or not), an infinity, or an exact finite value with its sign bit (R66). -/
inductive BxIn where
  | nan (signalling : Bool)
  | inf (neg : Bool)
  | fin (neg : Bool) (v : Dy)
  deriving DecidableEq, Repr

/-- The input of an FP32 pattern. -/
def bxIn (a : Nat) : BxIn :=
  match unpack fp32 a with
  | .nan _ => .nan (isSNaN fp32 a)
  | .inf neg => .inf neg
  | .fin neg m e => .fin neg (Dy.ofMag neg m e)

/-- Whether an input is a NaN. -/
def BxIn.isNan : BxIn → Bool
  | .nan _ => true
  | _ => false
/-- Whether an input is an infinity. -/
def BxIn.isInf : BxIn → Bool
  | .inf _ => true
  | _ => false

/-- The magnitude of a finite input as (m, e); zero for the others. -/
def BxIn.mag : BxIn → Dy
  | .fin _ v => ⟨v.m.natAbs, v.e⟩
  | _ => Dy.zero

/-- The exact value of an element under an exponent code that is not void (R65). -/
def bxDy (F E : Nat) (neg : Bool) (M : Nat) : Dy := Dy.ofMag neg M ((E : Int) - 127 - F)

/-- BxValue as an FP32 pattern (R65, R69). -/
def bxPattern (F code e0 e1 : Nat) : Nat :=
  let sel := bits code (F + 1) (F + 1)
  let sign := bits code F F
  let E := if sel == 1 then e1 else e0
  if E == 255 then fp32.nanPat
  else (roundVal fp32 (Rnd.all .near) (sign == 1) (bxDy F E (sign == 1) (code % 2 ^ F)).exact).pat

/-- RoundMag(x, E): the magnitude of x scaled under E, rounded to an integer (R66). -/
def roundMag (F : Nat) (mode : RMode) (x : Dy) (E : Nat) : Nat :=
  (roundInt mode (decide (x.m < 0)) x.m.natAbs (x.e - ((E : Int) - 127 - F))).1

/-- A quantized block: the exponent codes, the element codes and the flags (R66). -/
structure BxBlock where
  e0 : Nat
  e1 : Nat
  codes : List Nat
  fl : Flags
  deriving DecidableEq, Repr

/-- An empty block (R65). -/
def bxEmpty (fl : Flags) : BxBlock := ⟨0, 0, List.replicate 32 0, fl⟩

/-- The largest magnitude of a list of inputs. -/
def bxMaxAbs : List BxIn → Dy
  | [] => Dy.zero
  | x :: xs => let m := bxMaxAbs xs; if m.le x.mag then x.mag else m

/-- The lowest index whose magnitude equals m. -/
def bxFirstMax (m : Dy) (xs : List BxIn) : Nat := xs.findIdx (fun x => x.mag.le m && m.le x.mag)

/-- One element: its code and flags (R66). -/
def bxElement (F e0 e1 : Nat) (hasnan : Bool) (mode : RMode) : BxIn → Nat × Flags
  | .nan s => (2 ^ (F + 1), flIf s flNV)
  | .inf neg => ((if neg then 2 ^ F else 0) + (2 ^ F - 1), flNV)
  | .fin neg v =>
    let sgn := if neg then 2 ^ F else 0
    let m1 := roundMag F mode v e1
    let exact := fun (E M : Nat) => ((bxDy F E neg M).sub v).isZero
    if !hasnan && Nat.ble m1 (2 ^ F - 1) then (2 ^ (F + 1) + sgn + m1, flIf (!exact e1 m1) flNX)
    else
      let m0 := roundMag F mode v e0
      let sat := Nat.blt (2 ^ F - 1) m0
      let m := if sat then 2 ^ F - 1 else m0
      (sgn + m, flIf sat flOF ||| flIf (!exact e0 m) flNX)

/-- The exponent code E0 of a block (R66). -/
def bxE0 (F : Nat) (hasinf : Bool) (modes : List RMode) (xs : List BxIn) (m : Dy) : Nat :=
  if m.isZero then (if hasinf then 254 else F)
  else
    let lg : Int := m.e + (bitLen m.m.natAbs : Int) - 1
    let e : Nat := (min (max (lg + 128) F) 254).toNat
    let j := bxFirstMax m xs
    let xj := match xs[j]? with | some (.fin _ v) => v | _ => Dy.zero
    if Nat.blt e 254 && roundMag F ((modes[j]?).getD .near) xj e == 2 ^ F then e + 1 else e

/-- BxQuant (R66): `modes` gives the direction in which each element rounds. -/
def bxQuant (F : Nat) (modes : List RMode) (xs : List BxIn) : BxBlock :=
  let hasnan := xs.any BxIn.isNan
  let hasinf := xs.any BxIn.isInf
  let m := bxMaxAbs xs
  if m.isZero && !hasnan && !hasinf then bxEmpty flNone
  else
    let e0 := bxE0 F hasinf modes xs m
    let e1 := if hasnan then 255 else e0 - F
    let els := (xs.zip modes).map (fun p => bxElement F e0 e1 hasnan p.2 p.1)
    let fl := els.foldl (fun f p => f ||| p.2) flNone
    if !hasnan && !hasinf && els.all (fun p => p.1 % 2 ^ F == 0) then bxEmpty fl
    else ⟨e0, e1, els.map (·.1), fl⟩

/-- The parity of the number of one bits, by halving. -/
def oddPop : Nat → Nat → Bool
  | 0, _ => false
  | fuel + 1, n => (n % 2 == 1) != oddPop fuel (n / 2)

/-- Output i of the transform of one group (R67). -/
def hadamardAt (xs : List BxIn) (i : Nat) : BxIn :=
  let terms := xs.zipIdx.map (fun p => (p.1, oddPop 6 (i &&& p.2)))
  let infs := terms.filterMap (fun p => match p.1 with | .inf n => some (n != p.2) | _ => none)
  if xs.any BxIn.isNan then .nan false
  else if infs.any id && infs.any not then .nan false
  else match infs with
    | n :: _ => .inf n
    | [] =>
      let s := terms.foldl (fun acc p => match p.1 with
        | .fin _ v => if p.2 then acc.sub v else acc.add v
        | _ => acc) Dy.zero
      .fin (decide (s.m < 0)) s

/-- The unnormalised Walsh–Hadamard transform of one group (R67). -/
def hadamardGroup (xs : List BxIn) : List BxIn := (List.range xs.length).map (hadamardAt xs)

/-- The transform of a block of 32 in groups of 16 or 32 (R67); the identity for size 0. -/
def hadamard (size : Nat) (xs : List BxIn) : List BxIn :=
  match size with
  | 16 => hadamardGroup (xs.take 16) ++ hadamardGroup (xs.drop 16)
  | 32 => hadamardGroup xs
  | _ => xs

/-- QBX of one block: transform, `nv` of a signalling input, then BxQuant (R66, R67, R112). -/
def qbxBlock (F size : Nat) (modes : List RMode) (xs : List BxIn) : BxBlock :=
  let b := bxQuant F modes (hadamard size xs)
  ⟨b.e0, b.e1, b.codes, b.fl ||| flIf (xs.any (fun x => x == .nan true)) flNV⟩

end Sys2Proof.Machine
end

