-- ==== Sys2Proof/Machine/Predicate.lean ====
section
/-! DEFINITION. Selects, compares and predicates (spec/03_isa_integer.md R87, R90 to R92; spec/04_isa_float.md R103, R104). -/

namespace Sys2Proof.Machine

/-- A predicate of a thread (R2). -/
def Flight.pred (f : Flight) (slot : Nat) (p : BitVec 4) : Bool := (f.thread slot).preds.getLsbD p.toNat

/-- A predicate register with bit p set to v. -/
def setPredBit (x : BitVec 12) (p : Nat) (v : Bool) : BitVec 12 :=
  if v then x ||| (1#12 <<< p) else x &&& ~~~(1#12 <<< p)

/-- Writes a predicate of a thread. -/
def Flight.setPred (f : Flight) (slot : Nat) (p : BitVec 4) (v : Bool) : Flight :=
  f.modThread slot (fun t => { t with preds := setPredBit t.preds p.toNat v })

/-- Writes a predicate of each thread listed. -/
def Flight.setPreds (f : Flight) (p : BitVec 4) : List (Nat × Bool) → Flight
  | [] => f
  | (i, v) :: vs => (f.setPred i p v).setPreds p vs

/-- An operation that writes one predicate of each active thread, computed from the flight before it. -/
def predOp (s : State) (regs : Flight → OpRegs) (p : BitVec 4) (g : Flight → ClauseRun → Nat → Bool) : Res :=
  runOp s regs fun u f c =>
    let r := regs f
    let f1 := (released f c r).setPreds p (c.act.map (fun i => (i, g f c i)))
    .done ((s.setFlight u f1).occupy f c r)

/-- Combines an outcome into the old predicate (R91). -/
def combine (m : CombMode) (old c : Bool) : Bool :=
  match m with
  | .set => c
  | .and => old && c
  | .or => old || c

/-- ICMP conditions (R91). -/
def intHolds (c : IntCond) (a b : Word) : Bool :=
  match c with
  | .eq => a == b
  | .ne => a != b
  | .lt => decide (sval a < sval b)
  | .le => decide (sval a ≤ sval b)
  | .gt => decide (sval b < sval a)
  | .ge => decide (sval b ≤ sval a)
  | .lo => Nat.blt (uval a) (uval b)
  | .ls => Nat.ble (uval a) (uval b)
  | .hi => Nat.blt (uval b) (uval a)
  | .hs => Nat.ble (uval b) (uval a)

/-- FCMP and DCMP conditions on an ordering (R103). -/
def fltHolds (c : FltCond) (o : FOrd) : Bool :=
  match c with
  | .eq => o == .eq
  | .ne => o != .eq
  | .lt => o == .lt
  | .le => o == .lt || o == .eq
  | .gt => o == .gt
  | .ge => o == .gt || o == .eq
  | .ord => o != .un
  | .uno => o == .un

/-- The `nv` flag of a floating compare (R104). -/
def cmpFlags (fmt : Fmt) (c : FltCond) (a b : Nat) : Flags :=
  let any := match c with
    | .lt | .le | .gt | .ge => isNaN fmt a || isNaN fmt b
    | _ => isSNaN fmt a || isSNaN fmt b
  flIf any flNV

/-- SEL: a where the thread's predicate is 1, b otherwise; with U = 1 the lowest active thread's predicate chooses (R90). -/
def execSel (u : Bool) (d a b : BitVec 7) (p : BitVec 4) (s : State) : Res :=
  regOp s (regs3 u d a b 1 1 1 false false false (oneIf u 2)) fun f i =>
    [if f.pred i p then f.opnd i a else f.opnd i b]

/-- ICMP: the majority of the siblings' outcomes, combined into the predicate (R91). -/
def execIcmp (u : Bool) (mode : CombMode) (p : BitVec 4) (a b : BitVec 7) (cond : IntCond) (s : State) : Res :=
  predOp s (regsS [(a, 1), (b, 1)] [] u (oneIf u 2)) p fun f c i =>
    let j := if u then lowest c else i
    combine mode (f.pred i p) ((f.opnd j a).zip (intHolds cond) (f.opnd j b)).maj.1

/-- A floating compare: the majority outcome is combined into the predicate, `nv` is set as R104 says, and a thread whose
siblings disagree meets D before any masking takes effect on its write (R103, R201). -/
def fltCmp (s : State) (fmt : Fmt) (regs : Flight → OpRegs) (mode : CombMode) (p : BitVec 4) (cond : FltCond)
    (vals : Flight → Nat → Tri (Nat × Nat)) : Res :=
  runOp s regs fun u f c =>
    let r := regs f
    let out := fun i => (vals f i).map (fun v => fltHolds cond (fOrd fmt v.1 v.2))
    let fl := fun i =>
      let t := (vals f i).map (fun v => cmpFlags fmt cond v.1 v.2)
      t.x0 ||| t.x1 ||| t.x2
    let src := fun i => if r.u then lowest c else i
    let ms := meetsOf r.u c (fun i => if (out i).maj.2 then none else some ⟨.D, false, false, 0⟩)
    let f1 := f.setPreds p (c.act.map (fun i => (i, combine mode (f.pred i p) (out (src i)).maj.1)))
    let f2 := (f1.raise ((computing r.u c).foldl (fun a i => a ||| fl i) flNone)).meets ms
    .done (((s.setFlight u f2).occupy f c r).countMeets f ms)

/-- FCMP (R103). -/
def execFcmp (u : Bool) (mode : CombMode) (p : BitVec 4) (a b : BitVec 7) (cond : FltCond) (s : State) : Res :=
  fltCmp s fp32 (regsS [(a, 1), (b, 1)] [] u (halfIf u 2)) mode p cond fun f i =>
    (f.opnd i a).zip (fun x y => (x.toNat, y.toNat)) (f.opnd i b)

/-- DCMP (R103). -/
def execDcmp (u : Bool) (mode : CombMode) (p : BitVec 4) (a b : BitVec 7) (cond : FltCond) (s : State) : Res :=
  fltCmp s fp64 (regsS [(a, 2), (b, 2)] [] u (halfIf u 4)) mode p cond fun f i =>
    (f.opndPair i a).zip (fun x y => (x.toNat, y.toNat)) (f.opndPair i b)

/-- PAND (R92). -/
def execPand (d a b : BitVec 4) (s : State) : Res := predOp s (regs0 2) d fun f _ i => f.pred i a && f.pred i b
/-- POR (R92). -/
def execPor (d a b : BitVec 4) (s : State) : Res := predOp s (regs0 2) d fun f _ i => f.pred i a || f.pred i b
/-- PXOR (R92). -/
def execPxor (d a b : BitVec 4) (s : State) : Res := predOp s (regs0 2) d fun f _ i => f.pred i a != f.pred i b
/-- PNOT (R92). -/
def execPnot (d a : BitVec 4) (s : State) : Res := predOp s (regs0 2) d fun f _ i => !f.pred i a

/-- The predicates a PMOV gives: the majority of the siblings' bits (R87). -/
def pmovBits (t : Tri Word) : Nat → BitVec 12 → BitVec 12
  | 0, x => x
  | n + 1, x => pmovBits t n (setPredBit x n (t.map (fun w => w.getLsbD n)).maj.1)

/-- PMOV: each predicate from the majority of the siblings' bit (R87). -/
def execPmov (a : BitVec 7) (la : Bool) (s : State) : Res :=
  let regs := regsS [(a, 1)] (if la then [a] else []) false 2
  runOp s regs fun u f c =>
    let r := regs f
    let f1 := c.act.foldl (fun g i => g.modThread i (fun t => { t with preds := pmovBits (f.opnd i a) 12 t.preds }))
      (released f c r)
    .done ((s.setFlight u f1).occupy f c r)

end Sys2Proof.Machine
end

