-- ==== Sys2Proof/Machine/Control.lean ====
section
/-! DEFINITION. Control transfers, exit, naps and the window (spec/05_isa_memory.md R117 to R122), the hall barrier (R139,
R199), and the return from a deferred trap (spec/10_validation.md R207). -/

namespace Sys2Proof.Machine

/-! ## Where threads go on -/

/-- Where the threads of a clause go on after it: the next clause, or inside a macro body the MCALL clause with the next body
word; after the body's last clause, the clause after the MCALL (R79, R169). -/
def onward (f : Flight) (c : ClauseRun) : BitVec 64 × Option Nat :=
  match c.body, f.body with
  | some _, some b =>
    let pos := b.pos + c.hdr.len + 2
    if Nat.blt pos b.words.length then (c.addr, some pos) else (c.addr + 8, none)
  | _, _ => (c.after, none)

/-- Threads leave the clause in progress at a place of their own. -/
def Flight.leave (f : Flight) (slots : List Nat) (g : Thread → Thread) : Flight :=
  match f.clause with
  | none => f.modThreads slots g
  | some c => { f.modThreads slots g with clause := some { c with moved := slots ++ c.moved } }

/-- Notes that a thread of the clause took a backward transfer (R192). -/
def Flight.wentBack (f : Flight) : Flight :=
  { f with clause := f.clause.map (fun c => { c with backward := true }) }

/-! ## The code region -/

/-- Whether an address lies in the context's code region: the aligned 16 GiB region of the descriptor's entry (R282). -/
def State.inRegion (s : State) (f : Flight) (addr : Nat) : Bool :=
  match mget s.galleries f.gallery with
  | some g => addr / 2 ^ 34 == g.desc.entry / 2 ^ 34
  | none => true

/-! ## Barriers (R139, R199) -/

/-- Whether two flights belong to one hall; a task flight is its own hall (R165, R199). -/
def sameHall (u : Nat) (f : Flight) (p : Nat × Flight) : Bool :=
  match f.task with
  | some _ => p.1 == u
  | none => p.2.gallery == f.gallery && p.2.hall == f.hall && p.2.task.isNone

/-- The live threads of a hall, those of saved flights included (R199). -/
def State.hallLive (s : State) (u : Nat) (f : Flight) : Nat :=
  let away := match (s.ctxt f.context).saved with
    | some v => v.flights
    | none => []
  (((s.flights ++ away).filter (sameHall u f)).map (fun p => p.2.live.length)).sum

/-- The arrivals of a flight that its hall's generation counts: those of a resumed flight from when their B entry has its turn
(R139, R246). -/
def Flight.arrivals (f : Flight) : List (Nat × Thread) :=
  f.threads.filter (fun t => t.2.barred && !(f.entries.any (fun e => e.cls == .b && e.replay && e.mask.contains t.1)))

/-- The arrivals of a hall's generation. -/
def State.hallArrived (s : State) (u : Nat) (f : Flight) : Nat :=
  ((s.flights.filter (sameHall u f)).map (fun p => p.2.arrivals.length)).sum

/-- A flight released from a completed generation: its arrived threads stand after their BAR (R139). -/
def Flight.unbar (f : Flight) : Flight :=
  { f with
    threads := mmapv (fun t => if t.barred then { t with st := .ready, barred := false, pc := t.next } else t) f.threads
    entries := f.entries.filter (fun e => e.cls != .b)
    stall := none }

/-- Completes a hall's generation when its arrivals equal its live threads and the core can pass the boundary: Refresh(0), and every arrived thread goes on
(R139). -/
def State.barrierCheck (s : State) (u : Nat) (f : Flight) : State :=
  let n := s.hallArrived u f
  if n == 0 || n != s.hallLive u f || !(s.canBound f.core false) then s
  else
    let s := (s.boundary u f none (some 0)).2
    let s := { s with flights := s.flights.map (fun p => if sameHall u f p then (p.1, p.2.unbar) else p) }
    s.count f 0x0C 1

/-- BAR: the active threads arrive and block; a generation that is whole completes (R139). -/
def execBar (s : State) : Res :=
  runOp s (regs0 2) fun u f c =>
    if c.act.any (fun i => (f.thread i).handler) then .trap ⟨.permission, 0, 0, 0, c.act⟩
    else if f.full || !(s.canBound f.core true) then .hold .memory
    else
      let s1 := (s.boundary u f (some 0) none).2
      let f1 := (mget s1.flights u).getD f
      let (id, s2) := s1.fresh
      let e := newEntry s2 f1 c id .b 15 0 (.bar c.act.length) [] []
      let go := onward f c
      let f2 := (f1.addEntry e).leave c.act (fun t =>
        { t with st := .blocked, barred := true, next := go.1, fromOp := 0, fromBody := go.2 })
      .done (((s2.setFlight u f2).occupy f c (regs0 2 f)).barrierCheck u f2)

/-! ## Transfers -/

/-- The bookkeeping of a transfer: its threads, their targets and those taken; events 0x08 and 0x09 and the signature (R317,
R318, R340). -/
def State.noteTransfer (s : State) (u : Nat) (f : Flight) (taken : List Nat) : State :=
  let s := (s.count f 0x08 1).count f 0x09 taken.length
  if s.signing f then s.modFlight u (fun g => g.addSig 0 (some (sigTransfer (maskOf taken)))) else s

/-- Threads whose transfer leaves the code region (R282). -/
def outside (s : State) (f : Flight) (dest : List (Nat × BitVec 64)) : List (Nat × BitVec 64) :=
  dest.filter (fun p => !(s.inRegion f p.2.toNat))

/-- The permission trap of a transfer out of the code region, if any (R282). -/
def regionTrap (s : State) (f : Flight) (dest : List (Nat × BitVec 64)) : Option Trap :=
  match outside s f dest with
  | [] => none
  | (i, a) :: ps => some ⟨.permission, 0, a.toNat, 0, i :: ps.map (·.1)⟩

/-- Sends threads to their targets. -/
def Flight.goTo (f : Flight) : List (Nat × BitVec 64) → Flight
  | [] => f
  | (i, a) :: ps => (f.leave [i] (fun t => { t with pc := a, fromOp := 0, fromBody := none })).goTo ps

/-- Whether any target is at or below the clause's own header (R192). -/
def anyBack (c : ClauseRun) (dest : List (Nat × BitVec 64)) : Bool := dest.any (fun p => Nat.ble p.2.toNat c.addr.toNat)

/-- The threads that a BRA or CALL takes (R117). -/
def takenBy (f : Flight) (c : ClauseRun) (p : BitVec 4) (sense : Bool) : List Nat :=
  c.act.filter (fun i => p == 15 || (f.pred i p != sense))

/-- BRA and CALL (R117): the link is written in the threads taken alone, and by a CALL that none takes nowhere. -/
def branch (link : Bool) (p : BitVec 4) (sense : Bool) (off : BitVec 21) (s : State) : Res :=
  let links := fun (f : Flight) => match f.clause with
    | some c => link && !(takenBy f c p sense).isEmpty
    | none => false
  let regs := fun (f : Flight) => OpRegs.mk [] (if links f then [14, 15] else []) [] false 2
  runOp s regs fun u f c =>
    let taken := takenBy f c p sense
    let target := c.addr + 4 * off.signExtend 64
    let dest := taken.map (fun i => (i, target))
    match regionTrap s f dest with
    | some t => .trap t
    | none =>
      let all := taken == f.live
      let vals := fun (w : Word) => taken.map (fun i => (i, Tri.rep w))
      let f1 := if links f then
          (f.writeReg false all 14 (vals (loHalf c.after))).writeReg false all 15 (vals (hiHalf c.after))
        else f
      let f2 := f1.goTo (dest ++ (c.act.filter (fun i => !taken.contains i)).map (fun i => (i, c.after)))
      let f3 := if anyBack c dest then f2.wentBack else f2
      .done (((s.setFlight u f3).occupyAs f c (regs f) all).noteTransfer u f taken)

/-- BRA (R117). -/
def execBra (p : BitVec 4) (sense : Bool) (off : BitVec 21) (s : State) : Res := branch false p sense off s
/-- CALL (R117). -/
def execCall (p : BitVec 4) (sense : Bool) (off : BitVec 21) (s : State) : Res := branch true p sense off s

/-- A thread ends handler mode: v14:v15 are restored sibling by sibling and the thread is ready at its resume point (R207). -/
def Flight.endHandler (f : Flight) (slot : Nat) : Flight :=
  let t := f.thread slot
  let r := t.inst.getD ⟨0, 0, 0, 0, 0, t.pc, 0, none⟩
  let link := Tri.of (fun k => (t.hlink[k]?).getD 0)
  let f := (f.writeReg false false 14 [(slot, link.map loHalf)]).writeReg false false 15 [(slot, link.map hiHalf)]
  f.leave [slot] (fun t => { t with st := .ready, handler := false, inst := none, token := 0, hlink := []
                                    pc := r.resumePc, fromOp := r.resumeOp, fromBody := r.resumeBody })

/-- The target that a BRX or RET takes from a pair of registers: the majority of the siblings (R118). -/
def targetOf (f : Flight) (name slot : Nat) : BitVec 64 × Bool :=
  ((f.operand slot name).zip (fun lo hi => pairOf lo hi) (f.operand slot (name + 1))).maj

/-- The threads whose RET ends handler mode: those whose target equals their resume token (R207). -/
def returning (isRet : Bool) (f : Flight) (c : ClauseRun) (name : Nat) : List Nat :=
  c.act.filter (fun i => isRet && (f.thread i).handler && (f.thread i).token == (targetOf f name i).1)

/-- BRX and RET: targets by majority, a split target meeting D; a target that is no multiple of 4 traps the instruction before
any thread transfers; a handler thread's RET to its token ends handler mode and writes v14:v15 back (R118, R207). A trapped
instruction meets and counts no D, since it does not complete, and misaligned targets trap before targets outside the code region
(DESIGN CHOICE, log 83). -/
def indirect (isRet : Bool) (name : Flight → Nat) (s : State) : Res :=
  let back := fun (f : Flight) => match f.clause with
    | some c => returning isRet f c (name f)
    | none => []
  let regs := fun (f : Flight) =>
    OpRegs.mk [name f, name f + 1] (if (back f).isEmpty then [] else [14, 15]) [] false 2
  runOp s regs fun u f c =>
    let tgt := targetOf f (name f)
    let dest := c.act.map (fun i => (i, (tgt i).1))
    match dest.filter (fun p => p.2.toNat % 4 != 0), regionTrap s f dest with
    | (i, a) :: ps, _ => .trap ⟨.misaligned, 0, a.toNat, 0, i :: ps.map (·.1)⟩
    | [], some t => .trap t
    | [], none =>
      let ms := (c.act.filter (fun i => !(tgt i).2)).map (fun i => (i, splitMeet))
      let f1 := f.goTo dest
      let f2 := ms.foldl (fun g m => g.meet m.1 m.2 (some (tgt m.1).1)) f1
      let f3 := (back f).foldl Flight.endHandler f2
      let f4 := if anyBack c dest then f3.wentBack else f3
      .done ((((s.setFlight u f4).occupyAs f c (regs f) (back f == f.live)).countMeets f ms).noteTransfer u f c.act)

/-- BRX (R118). -/
def execBrx (a : BitVec 7) (s : State) : Res := indirect false (fun f => f.regName a.toNat) s
/-- RET (R118). -/
def execRet (s : State) : Res := indirect true (fun _ => 14) s

/-- The active threads exit; waiting generations may thereby complete (R119, R139, R206). -/
def State.exitThreads (s : State) (u : Nat) (f : Flight) (c : ClauseRun) : State :=
  let f1 := f.leave c.act (fun t => { t with st := .exited, handler := false, inst := none, barred := false })
  (s.setFlight u f1).barrierCheck u f1

/-- EXIT (R119). -/
def execExit (s : State) : Res :=
  runOp s (regs0 2) fun u f c => .done ((s.occupy f c (regs0 2 f)).exitThreads u f c)

/-- YIELD: the clause's yield bit counts as set, and for the 32 cycles after the clause has issued the flight is chosen last
(R120). -/
def execYield (s : State) : Res :=
  runOp s (regs0 2) fun u f c =>
    let f1 := { f with clause := some { c with yielded := true } }
    .done ((s.setFlight u f1).occupy f c (regs0 2 f))

/-- NAP: the active threads nap for 16 × n cycles from the issue of the clause and then stand at the next clause (R121). -/
def execNap (n : BitVec 7) (s : State) : Res :=
  runOp s (regs0 2) fun u f c =>
    if c.act.any (fun i => (f.thread i).handler) then .trap ⟨.permission, 0, 0, 0, c.act⟩
    else
      let go := onward f c
      let stop := c.began + 16 * n.toNat
      let f1 := f.leave c.act (fun t =>
        { t with st := if n == 0 then t.st else .napping, napEnd := stop, pc := go.1, fromOp := 0, fromBody := go.2 })
      .done ((s.setFlight u f1).occupy f c (regs0 2 f))

/-- WIN: the window base of the whole flight (R122). -/
def execWin (n : BitVec 5) (s : State) : Res :=
  runOp s (regs0 2) fun u f c =>
    .done ((s.setFlight u { f with window := 16 * n.toNat }).occupy f c (regs0 2 f))

end Sys2Proof.Machine
end

