-- ==== Sys2Proof/Machine/Memory.lean ====
section
/-! DEFINITION. Loads and stores of global memory, the cluster store and constant space (spec/05_isa_memory.md R127 to R133),
storage forms (spec/02_numbers.md R70 to R73) and binding loads (spec/16_compat.md R305). -/

namespace Sys2Proof.Machine

/-! ## Coined storage (R73) -/

/-- The parameters of coined-32 (false) and coined-64 (true): format, cut format, count bits, greatest count, smallest
normal. -/
def coinParams (wide : Bool) : Fmt × Fmt × Nat × Nat × Nat :=
  if wide then (fp64, coin64Fmt, 6, 47, 2 ^ 52) else (fp32, coin32Fmt, 5, 19, 2 ^ 23)

/-- Coin (R73): the word stored for three values; `one` in lane kernels and solo stretches. -/
def coin (wide one : Bool) (x0 x1 x2 : Nat) : Nat :=
  let (fmt, cut, cb, most, _) := coinParams wide
  let d := if one then most else min (digits fmt x0 x1 x2) most
  let m := if one then Mean.pat x0 false else mean3Cases fmt x0 x1 x2
  let c := match m with
    | .pat p _ => (fConvert fmt cut (Rnd.all .near) p).pat
    | .val v z => (roundVal cut (Rnd.all .near) z v.exact).pat
  c * 2 ^ cb + d

/-- Uncoin (R73): the three values of a stored word. -/
def uncoin (wide one : Bool) (w : Nat) : Tri Nat :=
  let (fmt, _, cb, most, xmin) := coinParams wide
  let m := w / 2 ^ cb * 2 ^ cb
  let d := min (w % 2 ^ cb) most
  if one then Tri.rep m
  else
    match unpack fmt m with
    | .nan _ => Tri.rep m
    | .inf _ => Tri.rep m
    | .fin neg mag e =>
      if mag == 0 then (if d == 0 then ⟨fmt.signW + xmin, m, xmin⟩ else Tri.rep m)
      else
        let v := Dy.ofMag neg mag e
        let dl : Dy := ⟨mag, e - (d + 2)⟩
        let r := fun (x : Dy) => (roundVal fmt (Rnd.all .near) false x.exact).pat
        ⟨r (v.sub dl), m, r (v.add dl)⟩

/-- Whether a page's form transforms an access of n bytes (R70). -/
def coinedWidth (form n : Nat) : Bool := (form == 2 && n == 4) || (form == 3 && n == 8)

/-! ## Values -/

/-- Widens a loaded value to register words (R128). -/
def widen (size : MemSize) (v : Nat) : List Word :=
  match size with
  | .s8 => [(BitVec.ofNat 8 v).signExtend 32]
  | .s16 => [(BitVec.ofNat 16 v).signExtend 32]
  | .b64 => natWords 2 v
  | .b128 => natWords 4 v
  | _ => natWords 1 v

/-- The three values that a load delivers to a thread under the page's form (R70 to R73). -/
def loadVals (s : State) (f : Flight) (slot : Nat) (size : MemSize) (l : Located) : List (List Word) :=
  let rd := fun k => leNat (s.snapRead f.core (l.pa + k * l.page) size.bytes)
  let one := f.single slot
  let t : Tri Nat :=
    if l.form == 1 then (if one then Tri.rep (rd 0) else Tri.of rd)
    else if coinedWidth l.form size.bytes then uncoin (l.form == 3) one (rd 0)
    else Tri.rep (rd 0)
  (t.map (widen size)).toList

/-- The value that a triple-kernel thread stores to a plain page (R71): majority where two siblings agree, else sibling 0 for
8 and 16 bits and Mean3 for 32 and 64 bits. -/
def plainValue (n : Nat) (t : Tri Nat) : Nat :=
  if t.x0 == t.x1 || t.x0 == t.x2 || t.x1 == t.x2 then t.maj.1
  else if Nat.ble n 2 then t.x0
  else (mean3 (if n == 4 then fp32 else fp64) t.x0 t.x1 t.x2).pat

/-- The value stored to a plain page or to the cluster store: 128 bits word by word (R71, R131). -/
def plainStore (one : Bool) (n : Nat) (t : Tri Nat) : Nat :=
  if one then t.x0
  else if n == 16 then
    wordsNat ((List.range 4).map (fun i => BitVec.ofNat 32 (plainValue 4 (t.map (fun v => v / 2 ^ (32 * i) % 2 ^ 32)))))
  else plainValue n t

/-- A thread's stored operand in each sibling, cut to the size (R129). -/
def storeOperand (f : Flight) (slot : Nat) (d : BitVec 7) (size : MemSize) : Tri Nat :=
  (f.opndBlock slot d size.regs).map (fun ws => wordsNat ws % 2 ^ (8 * size.bytes))

/-- The values that a thread's ST writes, with the frame each goes to (R71 to R73). -/
def storeFrames (f : Flight) (slot : Nat) (d : BitVec 7) (size : MemSize) (form : Nat) : List (Nat × Nat) :=
  let t := storeOperand f slot d size
  let one := f.single slot
  if form == 1 then (if one then [(0, t.x0), (1, t.x0), (2, t.x0)] else [(0, t.x0), (1, t.x1), (2, t.x2)])
  else if coinedWidth form size.bytes then [(0, coin (form == 3) one t.x0 t.x1 t.x2)]
  else [(0, plainStore one size.bytes t)]

/-- Adds bytes from an address to a map of bytes; a later byte at one address remains (R129). -/
def putBytes (m : NMap Byte) : Nat → List Byte → NMap Byte
  | _, [] => m
  | a, b :: bs => putBytes (mset m a b) (a + 1) bs

/-- The bytes of physical memory that an ST writes: threads in ascending order (R129). -/
def stBytes (s : State) (f : Flight) (d : BitVec 7) (size : MemSize) (as : List AddrOf) : NMap Byte :=
  as.foldl (fun m a =>
    let l := s.locate f a.addr
    (storeFrames f a.slot d size l.form).foldl (fun m p => putBytes m (l.pa + p.1 * l.page) (leBytes size.bytes p.2)) m) []

/-- The units of frame 0 that an ST to triple pages reaches, with the distance of the frames (R212). -/
def stUnits (s : State) (f : Flight) (size : MemSize) (as : List AddrOf) : List (Nat × Nat) :=
  ((as.map (fun a =>
    let l := s.locate f a.addr
    if l.form == 1 then (State.unitSpan l.pa size.bytes).map (fun u => (u, l.page)) else [])).flatten).eraseDups

/-- The bytes of the store that an STS writes (R131). -/
def stsBytes (f : Flight) (d : BitVec 7) (size : MemSize) (as : List AddrOf) : NMap Byte :=
  as.foldl (fun m a => putBytes m a.addr
    (leBytes size.bytes (plainStore (f.single a.slot) size.bytes (storeOperand f a.slot d size)))) []

/-- Occupancy of a memory instruction (R114). -/
def memOcc (u : Bool) (size : MemSize) : Nat := if u then 1 else if size = .b128 then 4 else 2

/-- The values of a load for every active thread: with U = 1, the lowest one's (R133). -/
def forAll (u : Bool) (c : ClauseRun) (g : AddrOf → List (List Word)) (as : List AddrOf) : NMap (List (List Word)) :=
  match u, as with
  | true, a :: _ => let v := g a; c.act.foldl (fun m i => mset m i v) []
  | _, _ => as.foldl (fun m a => mset m a.slot (g a)) []

/-! ## Global loads -/

/-- The binding slot that an LD.64 names, if any (R305). -/
def bindingSlot (s : State) (f : Flight) (size : MemSize) (va : Nat) : Option Nat :=
  match mget s.galleries f.gallery with
  | none => none
  | some g =>
    let base := g.desc.bindings + 8
    if size = .b64 && g.desc.bindings != 0 && Nat.ble base va && (va - base) % 8 == 0
        && Nat.blt ((va - base) / 8) g.nslot then some ((va - base) / 8) else none

/-- Reads a binding slot at its home bank, behind the core's earlier writes of it, and sets the core's floor to that write (R305). -/
def readSlot (s : State) (core pa : Nat) : Nat × State :=
  let s := s.settle core s.nextId (locBytes pa 8)
  let s := (locBytes pa 8).foldl (fun s b =>
    match s.coOf b with
    | w :: _ => s.raiseFloor core b w.stamp
    | [] => s) s
  (s.numAt pa 8, s)

/-- The record of code 14 for a parked binding load (R287, R305). -/
def bindReport (f : Flight) (c : ClauseRun) (srcs : List Nat) (slot va k : Nat) : List Byte :=
  faultRecord f ⟨.binding, 0, va, k, [slot]⟩ (match c.body with | some _ => 1 | none => c.next) (c.body.map (· + c.next))
    c.word c.addr.toNat (trapOps f c srcs)

/-- Parks a thread's binding load behind its slot's key; the first park in the module on a key raises code 14 without freezing the
flight (R293, R305). `core` is where the load issued. -/
def parkBind (s : State) (u : Nat) (f : Flight) (core id slot k : Nat) (report : List Byte) : State :=
  let d := dieOf f.core
  let key := MissKey.slot f.context k
  let p := Parked.bind u id slot
  let s := if s.missAnywhere key then s else s.raiseTrap f .binding report
  match s.missOf d key with
  | some _ => (s.parkBehind d key p).countAt core f 0x17 1
  | none => s.newMiss d key p

/-- The binding loads of an LD: resolved slots give values, unresolved ones are listed with their slot numbers. -/
def bindReads (f : Flight) (size : MemSize) : List AddrOf → State → List (Nat × Nat) × NMap Nat × State
  | [], s => ([], [], s)
  | a :: as, s =>
    match bindingSlot s f size a.addr with
    | none => bindReads f size as s
    | some k =>
      let (v, s) := readSlot s f.core (s.locate f a.addr).pa
      let (vs, ps, s) := bindReads f size as s
      if v == 0 then (vs, mset ps a.slot k, s) else ((a.slot, v) :: vs, ps, s)

/-- Whether the miss table has room for the new keys of an LD's unresolved slots (R293). -/
def bindRoom (s : State) (f : Flight) (parked : NMap Nat) : Bool :=
  let d := dieOf f.core
  let new := ((parked.map (·.2)).eraseDups).filter (fun k => (s.missOf d (.slot f.context k)).isNone)
  new.isEmpty || Nat.ble ((s.die d).miss.length + new.length) 512

/-- Whether the core's own writes of an LD's binding slots have their places, so that their home banks can be read (R227, R305). -/
def bindSettled (s : State) (f : Flight) (size : MemSize) (as : List AddrOf) : Bool :=
  as.all (fun a => (bindingSlot s f size a.addr).isNone
    || (locBytes (s.locate f a.addr).pa 8).all (fun b => (mget (s.core f.core).pend b).isNone))

/-- The physical bytes that an LD reads, in every frame of a triple page. -/
def loadBytes (s : State) (f : Flight) (size : MemSize) (as : List AddrOf) : List (Nat × Nat) :=
  (as.map (fun a =>
    let l := s.locate f a.addr
    (if l.form == 1 then [0, l.page, 2 * l.page] else [0]).map (fun k => (l.pa + k, l.pa + k + size.bytes)))).flatten

/-- An LD that has passed its checks (R128, R130, R305): `.acq` performs its Refresh and reads with no step between. -/
def issueLoad (s : State) (u : Nat) (f : Flight) (c : ClauseRun) (r : OpRegs) (size : MemSize) (order : MemOrder)
    (as : List AddrOf) : Eff :=
  let s0 := if order = .sync then (s.boundary u f none (some f.ctl.ordscope.toNat)).2 else s
  let f := (mget s0.flights u).getD f
  let (got, parked, t) := bindReads f size as (s0.usePages f false (as.map (·.addr)))
  if !(bindRoom t f parked) || !(bindSettled t f size as) then .hold .memory
  else
    let s := t
    let val := fun (a : AddrOf) =>
      if (mget parked a.slot).isSome then [[0, 0], [0, 0], [0, 0]]
      else match got.find? (fun p => p.1 == a.slot) with
        | some p => List.replicate 3 (natWords 2 p.2)
        | none => loadVals s f a.slot size (s.locate f a.addr)
    let vals := forAll r.u c val as
    let lines := State.linesOf ((as.map (fun a =>
      let l := s.locate f a.addr
      if l.form == 1 && !(f.single a.slot) then [l.pa, l.pa + l.page, l.pa + 2 * l.page] else [l.pa])).flatten)
    let pay := if parked.isEmpty then Payload.load size r.u r.dsts vals else Payload.bindLoad r.dsts vals parked
    let (id, s) := issueEntry s u f c r .i false c.flag pay as r.dsts
    let s := parked.foldl (fun s p =>
      match as.find? (fun a => a.slot == p.1) with
      | some a => parkBind s u f f.core id p.1 p.2 (bindReport f c r.srcs p.1 a.addr p.2)
      | none => s) s
    let s := lines.foldl (fun s l => s.l1Touch u f true (order != .str) l) s
    if s0.recordedWell s then .done s else .hold .memory

/-- LD (R128). -/
def execLd (u : Bool) (d base : BitVec 7) (size : MemSize) (order : MemOrder) (off : BitVec 6) (s : State) : Res :=
  let regs := fun (f : Flight) => OpRegs.mk (f.block base.toNat 2) (f.block d.toNat size.regs) [] u (memOcc u size)
  runOp s regs fun w f c =>
    let r := regs f
    let as := globalAddrs f c u base (off.toNat * size.bytes)
    if s.throttled w f c then .hold .throttle
    else
      match failuresOf (flightFail s f Want.load size.bytes) as with
      | some x => failEff s w f c r.srcs x
      | none =>
        if f.full || (if order = .sync then !(s.canBound f.core false) else s.atomAhead f.core (loadBytes s f size as)) then
          .hold .memory
        else issueLoad s w f c r size order as

/-! ## Global stores -/

/-- The fabric writes that a flight waits for. -/
def awaiting (ids : List Nat) (f : Flight) : Flight := if ids.isEmpty then f else { f with pubWait := some ids }

/-- The write of an ST, joining the core's writes (R129), and for `.rel` the store's own publication (R130), whose fabric writes
hold the flight and the store's acknowledgement (R230, R273). -/
def issueStore (s : State) (u : Nat) (f : Flight) (c : ClauseRun) (r : OpRegs) (d : BitVec 7) (size : MemSize)
    (order : MemOrder) (as : List AddrOf) : State :=
  let s := s.usePages f true (as.map (·.addr))
  let bytes := stBytes s f d size as
  let (id, s) := issueEntry s u f c r .t true 15 (.store bytes (stUnits s f size as)) as []
  let s := s.fixLoads u false (bytes.map (fun p => (p.1, p.1 + 1)))
  let s := (State.linesOf (bytes.map (·.1))).foldl (fun s l => s.l1Touch u f false (order != .str) l)
    (s.ownWrites f.core id bytes)
  let s := s.count f 0x1A c.act.length
  if order = .sync then
    let sc := f.ctl.ordscope.toNat
    if sc == 4 then
      let p := s.publish4 f.core (members (s.scopesOf f.gallery) 4 f.core)
      p.2.modFlight u (fun g => { g with entries := g.entries.map (fun e => if e.id == id then { e with sent := p.1 } else e) })
    else s.publishAt f.gallery sc f.core
  else s

/-- ST (R129, R130). `.rel` performs the core's outstanding atomics before each of its two Publishes (R232). -/
def execSt (u : Bool) (d base : BitVec 7) (size : MemSize) (order : MemOrder) (off : BitVec 6) (s : State) : Res :=
  let regs := fun (f : Flight) =>
    OpRegs.mk (inOrder [f.block d.toNat size.regs, f.block base.toNat 2]) [] [] u (memOcc u size)
  runOp s regs fun w f c =>
    let r := regs f
    let as := globalAddrs f c u base (off.toNat * size.bytes)
    if s.throttled w f c then .hold .throttle
    else
      match failuresOf (flightFail s f Want.store size.bytes) as with
      | some x => failEff s w f c r.srcs x
      | none =>
        if f.full || !(s.tagFree f) || (order = .sync && !(s.canBound f.core true)) then .hold .memory
        else
          let (ids, s1) :=
            if order != .sync then ([], s)
            else if f.pubWait.isNone then s.boundary w f (some f.ctl.ordscope.toNat) none
            else ([], (s.setFlight w { f with pubWait := none }).performAll f.core)
          let f1 := (mget s1.flights w).getD f
          if !ids.isEmpty then .stay (s1.setFlight w { awaiting ids f1 with stall := some .memory })
          else
            let t := issueStore s1 w f1 c r d size order as
            if s1.recordedWell t then .done t else .hold .memory

/-! ## The cluster store -/

/-- LDS: reads the current contents; every sibling receives the value (R131). -/
def execLds (u : Bool) (d base : BitVec 7) (size : MemSize) (off : BitVec 6) (s : State) : Res :=
  let regs := fun (f : Flight) => OpRegs.mk [f.regName base.toNat] (f.block d.toNat size.regs) [] u (memOcc u size)
  runOp s regs fun w f c =>
    let r := regs f
    let as := storeAddrs f c u base (off.toNat * size.bytes)
    match failuresOf (rangeFail f.winSize size.bytes) as with
    | some x => .trap x.1
    | none =>
      let win := f.win.getD 0
      if f.full || s.storeBusy win false (spans size.bytes as) || s.atomsAhead w c.act (spans size.bytes as) then .hold .memory
      else
        let vals := forAll u c
          (fun a => List.replicate 3 (widen size (leNat (s.winRead win a.addr size.bytes)))) as
        let (_, s2) := issueEntry s w f c r .i false c.flag (.load size u r.dsts vals) as r.dsts
        .done (s2.count f 0x1B c.act.length)

/-- STS: visible to every core of the wing once performed (R131). -/
def execSts (u : Bool) (d base : BitVec 7) (size : MemSize) (off : BitVec 6) (s : State) : Res :=
  let regs := fun (f : Flight) =>
    OpRegs.mk (inOrder [f.block d.toNat size.regs, [f.regName base.toNat]]) [] [] u (memOcc u size)
  runOp s regs fun w f c =>
    let r := regs f
    let as := storeAddrs f c u base (off.toNat * size.bytes)
    match failuresOf (rangeFail f.winSize size.bytes) as with
    | some x => .trap x.1
    | none =>
      let win := f.win.getD 0
      if f.full || !(s.tagFree f) || s.storeBusy win true (spans size.bytes as) || s.atomsAhead w c.act (spans size.bytes as) then
        .hold .memory
      else
        let bytes := stsBytes f d size as
        let (_, s2) := issueEntry s w f c r .t true 15 .sts as []
        let s3 := bytes.foldl (fun s p => s.winWrite win p.1 [p.2]) (s2.fixLoads w true (spans size.bytes as))
        .done ((s3.count f 0x1B c.act.length).retest)

/-! ## Constant space -/

/-- The check of a constant offset (R132). -/
def constFail (g : Gallery) (size off : Nat) : Option Failure :=
  if Nat.blt off 0x10000 then rangeFail g.desc.args size off
  else if off % size != 0 then some ⟨1, .misaligned, 0, none⟩
  else rangeFail g.desc.constsize size (off - 0x10000)

/-- Reads each thread's constant, thread by thread (R132, R225). -/
def ldcReads (g : Gallery) (size : MemSize) : List AddrOf → State → List (Nat × Nat) × State
  | [], s => ([], s)
  | a :: as, s =>
    let (bs, s) := s.readSinceN g.accepted (constBytes g a.addr size.bytes)
    let (vs, s) := ldcReads g size as s
    ((a.slot, leNat bs) :: vs, s)

/-- LDC: the argument block or the constant segment; one value for all siblings (R132). -/
def execLdc (u : Bool) (d base : BitVec 7) (size : MemSize) (off : BitVec 6) (s : State) : Res :=
  let regs := fun (f : Flight) => OpRegs.mk [f.regName base.toNat] (f.block d.toNat size.regs) [] u (memOcc u size)
  runOp s regs fun w f c =>
    let r := regs f
    let as := storeAddrs f c u base (off.toNat * size.bytes)
    match mget s.galleries f.gallery with
    | none => .trap ⟨.permission, 0, (as.head?.map (·.addr)).getD 0, 0, as.map (·.slot)⟩
    | some g =>
      match failuresOf (constFail g size.bytes) as with
      | some x => .trap x.1
      | none =>
        if f.full then .hold .memory
        else
          let (vs, s1) := ldcReads g size as s
          let val := fun (a : AddrOf) =>
            List.replicate 3 (widen size (((vs.find? (fun p => p.1 == a.slot)).map (·.2)).getD 0))
          let (_, s2) := issueEntry s1 w f c r .i false c.flag (.load size u r.dsts (forAll u c val as)) as r.dsts
          .done s2

end Sys2Proof.Machine
end

