-- ==== Sys2Proof/Machine/Sync.lean ====
section
/-! DEFINITION. Phases, arrival words and polls (spec/05_isa_memory.md R138 to R142; spec/07_handshake.md R180). -/

namespace Sys2Proof.Machine

/-- PHASE: Publish(s), then Refresh(s); at scope 4 the flight holds until every fabric write is acknowledged (R138, R230). -/
def execPhase (scope : BitVec 5) (s : State) : Res :=
  runOp s (regs0 2) fun u f c =>
    let n := scope.toNat
    let set := members (s.scopesOf f.gallery) n f.core
    let finish := fun (s1 : State) =>
      Eff.done (((s1.refresh f.core set).modFlight u (fun g => { g with pubWait := none })).occupy f c (regs0 2 f))
    if !(s.answered f) then .hold .memory
    else if f.pubWait.isSome && n == 4 then finish s
    else if !(s.canBound f.core true) then .hold .memory
    else
      let (ids, s1) := s.boundary u { f with pubWait := none } (some n) none
      if ids.isEmpty then finish s1
      else .stay (s1.modFlight u (fun g => { awaiting ids g with stall := some .memory }))

/-- A thread's count operand by majority (R141, R142). -/
def countOf (f : Flight) (slot : Nat) (b : BitVec 7) : Word := (f.majReg slot b).1

/-- ARRIVE: Publish(1), then one is added to each active thread's store word, in ascending order, behind the engine's earlier
requests to those words and its own threads' ATOMS (R140, R236, R237). A save records the arrivals as the counts in those words (DEDUCED, log 95). -/
def execArrive (a : BitVec 7) (s : State) : Res :=
  let regs := regsS [(a, 1)] [] false 2
  runOp s regs fun u f c =>
    let as := storeAddrs f c false a 0
    match failuresOf (rangeFail f.winSize 4) as with
    | some x => .trap x.1
    | none =>
      let win := f.win.getD 0
      let ahead := fun (r : Request) => r.win == some win
        && (crosses [(r.lo, r.lo + r.len)] (spans 4 as) || (r.flight == u && c.act.contains r.thread))
      let s0 := s.performWhere .agent ahead
      if s.storeBusy win true (spans 4 as) || s0.requests.any ahead || !(s0.canBound f.core true) then .hold .memory
      else
        let s1 := ((s0.boundary u ((mget s0.flights u).getD f) (some 1) none).2).fixLoads u true (spans 4 as)
        let s2 := as.foldl (fun s p =>
          s.winWrite win p.addr (leBytes 4 ((leNat (s.winRead win p.addr 4) + 1) % 2 ^ 32))) s1
        let ms := splitMeets as
        .done ((((s2.modFlight u (fun g => g.meets ms)).occupy f c (regs f)).countMeets f ms).retest)

/-- AWAIT: a thread whose word has reached its count performs Refresh(1) and goes on; another blocks until the word does
(R141), but for one that its split address masks, which resumes after the AWAIT (R61, R203). -/
def execAwait (a b : BitVec 7) (s : State) : Res :=
  let regs := regsS [(a, 1), (b, 1)] [] false 2
  runOp s regs fun u f c =>
    let as := storeAddrs f c false a 0
    if c.act.any (fun i => (f.thread i).handler) then .trap ⟨.permission, 0, 0, 0, c.act⟩
    else
      match failuresOf (rangeFail f.winSize 4) as with
      | some x => .trap x.1
      | none =>
        let win := f.win.getD 0
        if s.storeBusy win false (spans 4 as) || s.atomsAhead u c.act (spans 4 as) then .hold .memory
        else
          let go := onward f c
          let pass := fun (p : AddrOf) => reached (BitVec.ofNat 32 (leNat (s.winRead win p.addr 4))) (countOf f p.slot b)
          let ms := splitMeets as
          let stays := as.filter (fun p => p.unanimous || !(f.ctl.enabled .D))
          let wait := stays.filter (fun p => !pass p)
          let f1 := (f.leave (stays.map (·.slot))
            (fun t => { t with pc := go.1, fromOp := 0, fromBody := go.2 }))
          let f2 := wait.foldl (fun g p => g.modThread p.slot (fun t =>
            { t with st := .blocked, pc := c.addr, next := go.1, awaiting := some (p.addr, countOf f p.slot b) })) f1
          let s1 := ((s.setFlight u (f2.meets ms)).occupy f c (regs f)).countMeets f ms
          if as.any pass && !(s.canBound f.core false) then .hold .memory
          else
            .done (if as.any pass then
                match mget s1.flights u with
                | some g => (s1.boundary u g none (some 1)).2
                | none => s1
              else s1)

/-- WAITGE: a poll performs Refresh(s) and takes its reads at issue; what it found takes effect when the reads return (R142,
R180). -/
def execWaitge (scope : BitVec 5) (a b : BitVec 7) (s : State) : Res :=
  let regs := regsS [(a, 2), (b, 1)] [] false 2
  runOp s regs fun u f c =>
    let as := globalAddrs f c false a 0
    if c.act.any (fun i => (f.thread i).handler) then .trap ⟨.permission, 0, 0, 0, c.act⟩
    else
      if s.throttled u f c then .hold .throttle
      else
        match failuresOf (flightFail s f Want.load 4) as with
        | some x => failEff s u f c (regs f).srcs x
        | none =>
          if !(s.canBound f.core false) then .hold .memory
          else
            let s1 := (s.boundary u f none (some scope.toNat)).2
            let f1 := (mget s1.flights u).getD f
            let s2 := s1.usePages f1 false (as.map (·.addr))
            let word := fun (p : AddrOf) => BitVec.ofNat 32 (leNat (s2.snapRead f.core (s2.locate f1 p.addr).pa 4))
            let ms := splitMeets as
            let polled := as.filter (fun p => p.unanimous || !(f.ctl.enabled .D))
            let pass := (polled.filter (fun p => reached (word p) (countOf f p.slot b))).map (·.slot)
            let go := onward f c
            let stay := match c.body, f.body with
              | some _, some x => some x.pos
              | _, _ => none
            let (id, s3) := s2.fresh
            let run := Poll.mk c.addr.toNat (polled.map (·.slot)) pass go.1 go.2 stay
            let f2 := f1.leave (polled.map (·.slot)) (fun t => { t with fromOp := 0, fromBody := stay })
            let f3 := { f2 with pollsOut := mset f2.pollsOut id run }
            let s4 := ((s3.setFlight u (f3.meets ms)).occupy f c (regs f)).countMeets f ms
            let t := (State.linesOf (as.map (fun p => (s2.locate f1 p.addr).pa))).foldl (fun s l => s.l1Touch u f false true l) s4
            if s1.recordedWell t then .done t else .hold .memory

end Sys2Proof.Machine
end

