-- ==== Sys2Proof/Machine/Engine.lean ====
section
/-! DEFINITION. What engine operations have in common (spec/06_isa_engines.md R143 to R148): captured operands, checks, the
scoreboard entry, chunks, parking and late faults; then COPY (R150 to R152) and GATH (R153). -/

namespace Sys2Proof.Machine

/-! ## Operands -/

/-- A uniform single operand and whether its siblings agree (R143). -/
def uni1 (f : Flight) (c : ClauseRun) (fld : BitVec 7) : Nat × Bool :=
  let m := f.majReg (lowest c) fld
  (m.1.toNat, m.2)
/-- A uniform pair and whether its siblings agree (R143). -/
def uni2 (f : Flight) (c : ClauseRun) (fld : BitVec 7) : Nat × Bool :=
  let m := f.majPair (lowest c) fld
  (m.1.toNat, m.2)

/-- A failed engine check as a trap naming the active threads, failing address first (R144). -/
def engTrap (c : ClauseRun) (code : TrapCode) (addr : Nat) : Trap := ⟨code, 0, addr, 0, c.act⟩

/-! ## The scoreboard entry -/

/-- Entries that a core's slice holds (R241). -/
def State.sliceUse (s : State) (core : Nat) : Nat :=
  ((s.cluster (clusterOf core)).sb.filter (fun e => e.slice == core)).length

/-- The order in which entries are taken: cycle, core, quarter, slot (R240). -/
def takeKey (s : State) (f : Flight) : Nat := ((s.cycAt f.core * 512 + f.core) * 4 + f.quarter) * 16 + f.slot

/-- Takes a scoreboard entry for an engine operation (R145). -/
def State.takeSb (s : State) (f : Flight) (u id : Nat) (e : Engine) : State :=
  if e.reads.isEmpty && e.writes.isEmpty then s
  else
    let cl := clusterOf f.core
    let k := s.cluster cl
    s.setCluster cl { k with sb := k.sb ++ [⟨f.core, e.win, e.reads, e.writes, u, id, e.key⟩] }

/-- Releases the entry of an operation (R145, R241). -/
def State.dropSb (s : State) (core id : Nat) : State :=
  let cl := clusterOf core
  let k := s.cluster cl
  s.setCluster cl { k with sb := k.sb.filter (fun x => x.entry != id) }

/-- Whether an entry precedes another in the order of taking. -/
def sbBefore (x : SbEnt) (key id : Nat) : Bool := Nat.blt x.key key || (x.key == key && Nat.blt x.entry id)

/-- Whether an earlier entry of the window conflicts with an engine operation (R145). -/
def State.engineBlocked (s : State) (core id : Nat) (e : Engine) : Bool :=
  (s.cluster (clusterOf core)).sb.any (fun x => x.win == e.win && x.entry != id && sbBefore x e.key id
    && (overlaps windowGrain x.writes (e.reads ++ e.writes) || overlaps windowGrain x.reads e.writes))

/-! ## Issue -/

/-- An engine operation with nothing captured. -/
def Engine.empty (kind : EngKind) : Engine :=
  { kind := kind, win := 0, src := 0, dst := 0, len16 := 0, rows := 0, spitch := 0, dpitch := 0, per := [], form := .f32
    asrc := .v, q := false, ctl := 0, groups := 0, aBlk := [], bScale := [], n0 := [], reads := [], writes := []
    key := 0, total := 0, started := false, out := [], plane := none, cost := 1, fetch := 0, fetchAt := 0, fl := 0 }

/-- Splits of the lowest thread's uniform addresses meet D once (R143). -/
def uniMeets (c : ClauseRun) (agree : List Bool) : List (Nat × Meet) :=
  if agree.all (fun x => x) then [] else [(lowest c, splitMeet)]

/-- A checked engine operation issues (R143 to R145): the holds for a full record or slice, then the entry, its flag and its
scoreboard entry, which waits for its threads' earlier ATOMS (R236); `cls` is I for COPY.G2V and K otherwise. -/
def issueEngine (s : State) (u : Nat) (f : Flight) (c : ClauseRun) (r : OpRegs) (cls : EClass) (flag : Nat) (e : Engine)
    (ms : List (Nat × Meet)) (dests : List Nat) : Except Stall (Nat × State) :=
  let footprint := !(e.reads.isEmpty && e.writes.isEmpty)
  if f.full || (footprint && Nat.ble 256 (s.sliceUse f.core)) || s.atomsAhead u (if footprint then c.act else []) (e.reads ++ e.writes) then .error .memory
  else
    let (id, s) := s.fresh
    let s := s.noteSession f.gallery id
    let e := { e with key := takeKey s f }
    let ent := newEntry s f c id cls flag 0 (.engine e) r.srcs []
    let g := (((released f c r).await dests).addEntry ent).meets ms
    .ok (id, ((((s.setFlight u g).fixLoads u true e.writes).takeSb f u id e).occupy f c r).countMeets f ms)

/-- The end of an attempt to issue an engine operation. -/
def engEff (x : Except Stall (Nat × State)) : Eff :=
  match x with
  | .error r => .hold r
  | .ok p => .done p.2

/-! ## Completion, late faults and parking -/

/-- The captured operands of an entry that a fault record shows: the lowest active thread's, sibling 0, the first four
registers (R287). -/
def entryOps (f : Flight) (e : Entry) : List Word :=
  let i := (e.mask.head?).getD 0
  (e.opnds.take 4).map (fun p => match p.2 with
    | .uni r0 _ _ => r0
    | .lanes m => mgetD m (f.laneOf i 0) 0)

/-- The record of a late fault of an entry (R287). -/
def lateReport (f : Flight) (e : Entry) (cause addr elem : Nat) : List Byte :=
  faultRecord f ⟨.late, cause, addr, elem, e.mask⟩ (match e.body with | some _ => 1 | none => e.op) e.body e.word e.pc.toNat
    (entryOps f e)

/-- The rows that a COPY.G2V has read, written to its destinations in every sibling (R152). -/
def g2vBack (f : Flight) (ent : Entry) (e : Engine) : Flight :=
  let names := if e.kind = .g2v then e.n0.map (·.2) else []
  let col := fun j => e.aBlk.map (fun p => (p.1, Tri.rep ((natWords e.groups ((p.2.head?).getD 0))[j]?.getD 0)))
  writeBack f false ent names ((List.range names.length).map col)

/-- The global writes of an engine operation join its core's writes, with a number of their own (R146). -/
def State.joinWrites (s : State) (u : Nat) (f : Flight) (out : NMap Byte) : State :=
  if out.isEmpty then s
  else
    let (n, s) := s.fresh
    let s := (s.noteSession f.gallery n).fixLoads u false (out.map (fun p => (p.1, p.1 + 1)))
    (s.ownWrites f.core n out).modFlight u (fun g => { g with wrote := g.wrote ++ [(n, out)] })

/-- An engine operation completes: its global writes join the core's writes, its flag falls, its entries are released, and
its latency is sampled (R145, R146, R148, R335). -/
def State.finishEngine (s : State) (u id : Nat) : State :=
  match (mget s.flights u).bind (fun f => (f.entry? id).map (fun e => (f, e))) with
  | none => s
  | some (f, ent) =>
    match ent.pay with
    | .engine e =>
      let g := ((g2vBack f ent e).complete ent).lowerAt (s.cycAt f.core) ent.flag
      let s := ((s.setFlight u g).dropSb f.core id).joinWrites u f e.out
      (s.sample f.core f.context 2 (s.cycAt f.core - ent.issued)).wake
    | _ => s

/-- An engine operation stops at a failing chunk: chunks performed stand, with the exception flags they met, the flag falls, and the
late fault waits for its delivery (R147, R148, R159). -/
def State.stopEngine (s : State) (u id cause addr elem : Nat) : State :=
  match (mget s.flights u).bind (fun f => (f.entry? id).map (fun e => (f, e))) with
  | none => s
  | some (f, e) =>
    let late := LateFault.mk e.flag e.id (lateReport f e cause addr elem) []
    let met := match e.pay with | .engine x => x.fl | _ => 0
    (s.setFlight u ({ f with late := f.late ++ [late] }.raise met)).finishEngine u id

/-- An engine operation parks behind a missing page; the first miss on a key raises the fault to system software without
freezing the flight (R147, R293). A full table leaves the operation waiting. -/
def State.parkEngine (s : State) (u id : Nat) (key : MissKey) (addr elem cause : Nat) : State :=
  match (mget s.flights u).bind (fun f => (f.entry? id).map (fun e => (f, e))) with
  | none => s
  | some (f, e) =>
    let d := dieOf f.core
    let put := fun (s : State) => s.modFlight u (fun g => g.setEntry { e with parked := some key })
    match s.missOf d key with
    | some _ =>
      (((put s).countMiss f e.core false false (addr % 2 ^ 57)).parkBehind d key (.engine u id)).countAt e.core f 0x17 1
    | none =>
      if s.missFull d then s
      else
        let r := faultRecord f ⟨.translation, cause, addr, elem, e.mask⟩ (match e.body with | some _ => 1 | none => e.op)
          e.body e.word e.pc.toNat (entryOps f e)
        ((((put s).countMiss f e.core false true (addr % 2 ^ 57)).raiseTrap f .translation r).newMiss d key (.engine u id))

/-! ## Chunks on global memory -/

/-- How a chunk's access ends: it may go on, it parks, or the operation stops. -/
inductive Reach where
  | ok (pas : List Nat)
  | miss (key : MissKey) (addr cause : Nat)
  | stop (code : TrapCode) (addr : Nat)
  deriving DecidableEq, Repr

/-- The physical addresses of n bytes of global memory for an engine: translation and permission are checked page by page
(R147). -/
def reachBytes (s : State) (core context : Nat) (w : Want) : Nat → Nat → Reach
  | _, 0 => .ok []
  | va, n + 1 =>
    match globalFail s core context w 1 va with
    | some x =>
      match x.key with
      | some k => .miss k va x.cause
      | none => .stop x.code va
    | none =>
      let pa := match s.xlate core context (va % 2 ^ 57) with
        | .ok e => e.frameAddr (va % 2 ^ 57) 0
        | _ => 0
      match reachBytes s core context w ((va + 1) % 2 ^ 64) n with
      | .ok ps => .ok (pa :: ps)
      | r => r

/-- The stamp of the write of a byte from which on an engine operation may read it (R146): the latest of those that the issuing core
had made, or that were published to the module, before the operation issued. -/
def engineLow (s : State) (core id pa : Nat) : Nat :=
  match (s.coOf pa).find? (fun w => (w.writer == core && Nat.blt w.id id && w.id != 0)
      || (match w.pub with | some n => Nat.ble n id | none => false) || w.stamp == 0) with
  | some w => w.stamp
  | none => 0

/-- The issuing core's own write of a byte that is not placed and was made before the operation issued. -/
def engineOwn (s : State) (core id pa : Nat) : Option Byte :=
  ((mgetD (s.core core).pend pa []).find? (fun p => Nat.blt p.1 id)).map (·.2)

/-- An engine reads an aligned 16-byte unit at one moment (R226; log 3). Writes of the core under an earlier number stand before any
other, also where they were made after the operation issued, which R146 leaves open (DESIGN CHOICE, log 85). -/
def engineUnit (core id : Nat) (pas : List Nat) (s : State) : List Byte × State :=
  let low := (pas.map (engineLow s core id)).foldl max 0
  let (bs, s) := s.readUnit low pas
  ((pas.zip bs).map (fun p => (engineOwn s core id p.1).getD p.2), s)

/-- An engine reads bytes of global memory unit by unit (R226); `n` bounds the units. -/
def engineReadN (core id : Nat) : Nat → List Nat → State → List Byte × State
  | 0, _, s => ([], s)
  | _, [], s => ([], s)
  | n + 1, pas, s =>
    let (bs, s) := engineUnit core id (pas.take 16) s
    let (cs, s) := engineReadN core id n (pas.drop 16) s
    (bs ++ cs, s)

/-- An engine reads bytes of global memory, from an aligned address. -/
def engineRead (core id : Nat) (pas : List Nat) (s : State) : List Byte × State := engineReadN core id pas.length pas s

/-! ## COPY (R150 to R152) -/

/-- The shape of a COPY: len16, rows, spitch, dpitch (R150). -/
def copyShape (x : Nat) : Nat × Nat × Nat × Nat := (bits x 15 0, bits x 31 16, bits x 47 32, bits x 63 48)

/-- The number of threads of a flight's hall or task (R151). -/
def State.hallThreads (s : State) (f : Flight) : Nat :=
  match f.task with
  | some _ => f.threads.length
  | none =>
    match mget s.galleries f.gallery with
    | some g => g.launch.tx * g.launch.ty * g.launch.tz
    | none => f.threads.length

/-- The rows of an issue: those whose owner h = r mod N is an active thread (R151). -/
def ownedRows (f : Flight) (act : List Nat) (n rows : Nat) : List Nat :=
  let hs := act.map (fun i => (f.thread i).hidx)
  (List.range rows).filter (fun r => hs.contains (r % n))

/-- The hull of rows' bytes in the store (R151). -/
def hull (starts : List Nat) (len : Nat) : List (Nat × Nat) :=
  match starts with
  | [] => []
  | a :: as => [(as.foldl min a, as.foldl max a + len)]

/-- Chunks in one row of a COPY: 4,096 bytes or the remainder (R148). -/
def copyParts (len16 : Nat) : Nat := (16 * len16 + 4095) / 4096

/-- A row of a COPY: the slot of the thread that owns it, its global addresses and its store offsets. -/
structure CopyRow where
  slot : Nat
  globals : List Nat
  offsets : List Nat
  deriving DecidableEq, Repr

/-- The trap of the rows that fail a check: it names their threads, and gives the first failing address of the lowest of those
(R127, R144). -/
def rowTrap (c : ClauseRun) (code : TrapCode) (rows : List CopyRow) (bad : CopyRow → Option Nat) : Option Trap :=
  let fails := fun (i : Nat) => rows.findSome? (fun r => if r.slot == i then bad r else none)
  match c.act.filter (fun i => (fails i).isSome) with
  | [] => none
  | i :: is => some ⟨code, 0, (fails i).getD 0, 0, i :: is⟩

/-- The check of a COPY's rows in R144's order: canonical addresses, alignment of the bases, which every thread shares, the store. -/
def copyCheck (f : Flight) (c : ClauseRun) (rows : List CopyRow) (bases : List Nat) (len : Nat) : Option Trap :=
  let wild := fun (r : CopyRow) => r.globals.find? (fun a => !canonical a || !canonical ((a + (len - 1)) % 2 ^ 64))
  let far := fun (r : CopyRow) => r.offsets.find? (fun o => Nat.blt f.winSize (o + len))
  match rowTrap c .translation rows wild with
  | some t => some t
  | none =>
    match bases.find? (fun b => b % 16 != 0) with
    | some b => some (engTrap c .misaligned b)
    | none => rowTrap c .permission rows far

/-- COPY.G2S, COPY.S2G and COPY.S2S; `gsrc` and `gdst` say which side is global (R150, R151). -/
def copyRows (kind : EngKind) (gsrc gdst : Bool) (d a b : BitVec 7) (s : State) : Res :=
  let regs := regsS [(d, if gdst then 2 else 1), (a, if gsrc then 2 else 1), (b, 2)] [] false 2
  runOp s regs fun u f c =>
    let r := regs f
    let src := if gsrc then uni2 f c a else uni1 f c a
    let dst := if gdst then uni2 f c d else uni1 f c d
    let (len16, rows, sp, dp) := copyShape (uni2 f c b).1
    let threads := s.hallThreads f
    let own := if len16 == 0 then [] else ownedRows f c.act threads rows
    let sAt := fun i => if gsrc then (src.1 + 16 * i * sp) % 2 ^ 64 else src.1 + 16 * i * sp
    let dAt := fun i => if gdst then (dst.1 + 16 * i * dp) % 2 ^ 64 else dst.1 + 16 * i * dp
    let at_ := fun i => CopyRow.mk ((c.act.find? (fun t => (f.thread t).hidx == i % threads)).getD 0)
      ((if gsrc then [sAt i] else []) ++ (if gdst then [dAt i] else []))
      ((if gsrc then [] else [sAt i]) ++ (if gdst then [] else [dAt i]))
    if kind == .g2s && s.throttled u f c then .hold .throttle
    else
      match copyCheck f c (own.map at_) [src.1, dst.1] (16 * len16) with
      | some t => .trap t
      | none =>
        let e := { Engine.empty kind with
          win := f.win.getD 0, src := src.1, dst := dst.1, len16 := len16, rows := rows, spitch := sp, dpitch := dp
          per := [(0, own)], reads := if gsrc then [] else hull (own.map sAt) (16 * len16)
          writes := if gdst then [] else hull (own.map dAt) (16 * len16), total := own.length * copyParts len16 }
        engEff (issueEngine s u f c r .k c.flag e (uniMeets c [src.2, dst.2]) [])

/-- COPY.G2S (R150). -/
def execCopyG2s (d a b : BitVec 7) (s : State) : Res := copyRows .g2s true false d a b s
/-- COPY.S2G (R150). -/
def execCopyS2g (d a b : BitVec 7) (s : State) : Res := copyRows .s2g false true d a b s
/-- COPY.S2S (R150). -/
def execCopyS2s (d a b : BitVec 7) (s : State) : Res := copyRows .s2s false false d a b s

/-- Registers of a COPY.G2V row: 4, 8 or 16 for the legal lengths (R152). -/
def g2vRegs (len16 : Nat) : Option Nat :=
  if len16 == 1 then some 4 else if len16 == 2 then some 8 else if len16 == 4 then some 16 else none

/-- The slots of the active threads whose hall index is below `rows`, with their indexes (R152). -/
def g2vRows (f : Flight) (act : List Nat) (rows : Nat) : List (Nat × Nat) :=
  (act.map (fun i => (i, (f.thread i).hidx))).filter (fun p => Nat.blt p.2 rows)

/-- The registers of a row of COPY.G2V; none for a row of no legal length (R152). An empty shape has none. -/
def g2vCount (len16 rows : Nat) : Option Nat := if len16 == 0 || rows == 0 then some 0 else g2vRegs len16

/-- Whether a shape makes a COPY.G2V an illegal encoding (R19, R35, R152). -/
def g2vIllegal (f : Flight) (d : BitVec 7) (n : Nat) : Bool := n != 0 && (d.toNat % n != 0 || (f.level == 3 && n != 4))

/-- COPY.G2V: each active thread with h < rows reads row h into its registers; an illegal encoding is found first, then the checks
of R144 in the order of R127 (R152). -/
def execCopyG2v (d a b : BitVec 7) (s : State) : Res :=
  let shape := fun (f : Flight) =>
    match f.clause with
    | none => (0, 0, 0, 0)
    | some c => copyShape (uni2 f c b).1
  let count := fun (f : Flight) =>
    let n := (g2vCount (shape f).1 (shape f).2.1).getD 0
    if g2vIllegal f d n then 0 else n
  let regs := fun (f : Flight) => OpRegs.mk (inOrder [f.block a.toNat 2, f.block b.toNat 2]) (f.block d.toNat (count f)) [] false 2
  runOp s regs fun u f c =>
    let r := regs f
    let src := uni2 f c a
    let (len16, rows, sp, _) := shape f
    let n := g2vCount len16 rows
    if g2vIllegal f d (n.getD 0) then .trap (engTrap c .illegal 0)
    else if s.throttled u f c then .hold .throttle
    else
      let own := if n == some 0 then [] else g2vRows f c.act rows
      let at_ := own.map (fun p => CopyRow.mk p.1 [(src.1 + 16 * p.2 * sp) % 2 ^ 64] [])
      match copyCheck f c at_ [src.1] (16 * len16), n with
      | some t, _ => .trap t
      | none, none => .trap (engTrap c .permission 0)
      | none, some n =>
        let e := { Engine.empty .g2v with
          src := src.1, len16 := len16, rows := rows, spitch := sp, per := own.map (fun p => (p.1, [p.2]))
          groups := n, total := own.length, n0 := r.dsts.zipIdx.map (fun p => (p.2, p.1)) }
        engEff (issueEngine s u f c r .i c.flag e (uniMeets c [src.2]) r.dsts)

/-! ## GATH (R153) -/

/-- The check of a GATH's rows in the order of R127: canonical row addresses, alignment, then the row length and the store; the
threads of the first failing check (R144). -/
def gathCheck (f : Flight) (base len16 : Nat) (rows : List (Nat × Nat × Option Nat)) : Option Trap :=
  let len := 16 * len16
  let slots := fun (p : Nat × Nat × Option Nat → Bool) => (rows.filter p).map (·.1)
  let bad := fun (p : Nat × Nat × Option Nat) =>
    match p.2.2 with
    | some g => !canonical g || !canonical ((g + (len - 1)) % 2 ^ 64)
    | none => false
  match rows.find? bad with
  | some p => some ⟨.translation, 0, p.2.2.getD 0, 0, slots bad⟩
  | none =>
    let off := fun (p : Nat × Nat × Option Nat) => p.2.1 % 16 != 0
    if base % 16 != 0 then some ⟨.misaligned, 0, base, 0, rows.map (·.1)⟩
    else match rows.find? off with
    | some p => some ⟨.misaligned, 0, p.2.1, 0, slots off⟩
    | none =>
      let far := fun (p : Nat × Nat × Option Nat) => Nat.blt f.winSize (p.2.1 + len)
      if len16 == 0 || Nat.blt 4096 len16 then some ⟨.permission, 0, 0, 0, rows.map (·.1)⟩
      else match rows.find? far with
      | some p => some ⟨.permission, 0, p.2.1, 0, slots far⟩
      | none => none

/-- GATH (R153). -/
def execGath (d a b : BitVec 7) (s : State) : Res :=
  let regs := regsS [(d, 1), (a, 2), (b, 2)] [] false 2
  runOp s regs fun u f c =>
    let r := regs f
    let base := uni2 f c a
    let ctl := (f.majReg (lowest c) (b + 1)).1.toNat
    let len16 := bits ctl 15 0
    let sp := bits ctl 31 16
    let rows := c.act.map (fun i =>
      let ix := (f.majReg i b).1.toNat
      (i, (f.majReg i d).1.toNat, if ix == 0xFFFFFFFF then none else some ((base.1 + 16 * ix * sp) % 2 ^ 64)))
    if s.throttled u f c then .hold .throttle
    else
      match gathCheck f base.1 len16 rows with
      | some t => .trap t
      | none =>
        let split := c.act.filter (fun i => !(f.majReg i b).2 || !(f.majReg i d).2 || (i == lowest c && !base.2))
        let e := { Engine.empty .gath with
          win := f.win.getD 0, src := base.1, len16 := len16, spitch := sp
          per := rows.map (fun p => (p.1, p.2.1 :: p.2.2.toList)), writes := hull (rows.map (fun p => p.2.1)) (16 * len16)
          total := rows.length }
        engEff (issueEngine s u f c r .k c.flag e (split.map (fun i => (i, splitMeet))) [])

/-! ## Chunks of COPY and GATH (R148) -/

/-- How performing a chunk ends. -/
inductive Chunk where
  | next (e : Engine) (s : State)
  | miss (key : MissKey) (addr cause : Nat)
  | stop (code : TrapCode) (addr : Nat)
  deriving DecidableEq, Repr

/-- A chunk that reads global memory reaches its pages, and its lines at their banks (R238, R291). -/
def State.engineReach (s : State) (f : Flight) (x : Entry) (pas vas : List Nat) : State :=
  (s.usePagesAs f x.core false false vas).reachAll (clusterOf f.core) (State.linesOf pas)

/-- Chunk n of a COPY between global memory and the store, or within the store (R148, R151). -/
def copyChunk (s : State) (f : Flight) (x : Entry) (e : Engine) (n : Nat) : Chunk :=
  let parts := copyParts e.len16
  let own := mgetD e.per 0 []
  let row := (own[n / parts]?).getD 0
  let off := n % parts * 4096
  let len := min 4096 (16 * e.len16 - off)
  let src := e.src + 16 * row * e.spitch + off
  let dst := e.dst + 16 * row * e.dpitch + off
  match e.kind with
  | .g2s =>
    match reachBytes s f.core f.context Want.load (src % 2 ^ 64) len with
    | .ok pas =>
      let (bs, s) := engineRead f.core x.id pas (s.engineReach f x pas [src % 2 ^ 57, (src + len - 1) % 2 ^ 57])
      .next e ((s.winWrite e.win dst bs).countAt x.core f 0x20 1)
    | .miss k a why => .miss k a why
    | .stop code a => .stop code a
  | .s2g =>
    match reachBytes s f.core f.context Want.store (dst % 2 ^ 64) len with
    | .ok pas =>
      let bs := s.winRead e.win src len
      .next { e with out := (pas.zip bs).foldl (fun m p => mset m p.1 p.2) e.out }
        ((s.usePagesAs f x.core false true [dst % 2 ^ 57, (dst + len - 1) % 2 ^ 57]).countAt x.core f 0x20 1)
    | .miss k a why => .miss k a why
    | .stop code a => .stop code a
  | _ => .next e ((s.winWrite e.win dst (s.winRead e.win src len)).countAt x.core f 0x20 1)

/-- Row n of a GATH (R153). -/
def gathChunk (s : State) (f : Flight) (x : Entry) (e : Engine) (n : Nat) : Chunk :=
  let len := 16 * e.len16
  match e.per[n]? with
  | some (_, off :: g :: _) =>
    match reachBytes s f.core f.context Want.load g len with
    | .ok pas =>
      let (bs, s) := engineRead f.core x.id pas (s.engineReach f x pas [g % 2 ^ 57, (g + len - 1) % 2 ^ 57])
      .next e ((s.winWrite e.win off bs).countAt x.core f 0x21 1)
    | .miss k a why => .miss k a why
    | .stop code a => .stop code a
  | some (_, off :: []) => .next e ((s.winWrite e.win off (List.replicate len 0#8)).countAt x.core f 0x21 1)
  | _ => .next e s

/-- Row n of a COPY.G2V: the thread's row, written back at completion (R152). A row that a later store of the flight has written since
is kept as it was read before it (R285). -/
def g2vChunk (s : State) (f : Flight) (x : Entry) (e : Engine) (n : Nat) : Chunk :=
  match e.per[n]? with
  | some (slot, h :: _) =>
    let va := (e.src + 16 * h * e.spitch) % 2 ^ 64
    let len := 16 * e.len16
    match reachBytes s f.core f.context Want.load va len with
    | .ok pas =>
      let (bs, s) := engineRead f.core x.id pas (s.engineReach f x pas [va % 2 ^ 57, (va + len - 1) % 2 ^ 57])
      let row := match mget e.aBlk slot with | some r => r | none => [leNat bs]
      .next { e with aBlk := mset e.aBlk slot row } (s.countAt x.core f 0x20 1)
    | .miss k a why => .miss k a why
    | .stop code a => .stop code a
  | _ => .next e s

end Sys2Proof.Machine
end

