-- ==== Sys2Proof/Machine/Matrix.lean ====
section
/-! DEFINITION. The matrix unit (spec/06_isa_engines.md R154 to R161; spec/10_validation.md R215 to R219): descriptors, plane
sets, the unit's queue, and the arithmetic of a chunk. -/

namespace Sys2Proof.Machine

/-! ## Store descriptors (R154) -/

/-- A matrix store descriptor. -/
structure MDesc where
  base : Nat
  rot : Nat
  bad : Bool
  rpitch : Nat
  tpitch : Nat
  deriving DecidableEq, Repr

/-- The fields of a descriptor pair (R154). -/
def mdesc (x : Nat) : MDesc :=
  ⟨bits x 23 0, bits x 26 24, bits x 31 27 != 0 || Nat.blt 5 (bits x 26 24), bits x 47 32, bits x 63 48⟩

/-- The store offset of 16-byte unit k of row r, `extra` bytes into the tile before the rotation (R154). -/
def MDesc.unit (d : MDesc) (extra r k : Nat) : Nat :=
  (d.base + extra + 16 * r * d.rpitch + 16 * k) ^^^ (16 * (r % 2 ^ d.rot))

/-- The units of some rows of n bytes: pairs of extra and row. -/
def MDesc.units (d : MDesc) (rows : List (Nat × Nat)) (n : Nat) : List Nat :=
  (rows.map (fun p => (List.range (n / 16)).map (fun k => d.unit p.1 p.2 k))).flatten

/-- A row's bytes. -/
def MDesc.row (d : MDesc) (s : State) (win extra r n : Nat) : List Byte :=
  ((List.range (n / 16)).map (fun k => s.winRead win (d.unit extra r k) 16)).flatten

/-- The interval that some units reach, rounded to 512 bytes under a rotation (R154). -/
def MDesc.span (d : MDesc) (us : List Nat) : List (Nat × Nat) :=
  match hull us 16 with
  | [(lo, hi)] => if d.rot == 0 then [(lo, hi)] else [(lo / 512 * 512, (hi + 511) / 512 * 512)]
  | x => x

/-- The checks of a descriptor and the units it reaches (R144, R154). -/
def MDesc.check (d : MDesc) (f : Flight) (c : ClauseRun) (us : List Nat) : Option Trap :=
  if d.base % 16 != 0 then some (engTrap c .misaligned d.base)
  else if d.bad then some (engTrap c .permission 0)
  else
    match us.find? (fun o => Nat.blt f.winSize (o + 16)) with
    | some o => some (engTrap c .permission o)
    | none => none

/-- Cycles to fetch rows: groups of eight, a step for each unit, as long as the fullest bank (R216). -/
def MDesc.fetchTime (d : MDesc) (rows : List (Nat × Nat)) (n : Nat) : Nat :=
  let groups := (rows.map (fun p => (p.1, p.2 / 8))).eraseDups
  (groups.map (fun g =>
    let rs := rows.filter (fun p => p.1 == g.1 && p.2 / 8 == g.2)
    ((List.range (n / 16)).map (fun k =>
      let banks := rs.map (fun p => d.unit p.1 p.2 k / 16 % 32)
      (banks.map (fun b => (banks.filter (· == b)).length)).foldl max 0)).sum)).sum

/-! ## Forms (R158, R215) -/

/-- The block format of a BX form. -/
def formBx : MmaForm → Option BxFmt
  | .bx8 | .bx8h16 | .bx8h32 => some .bx8
  | .bx6 | .bx6h16 | .bx6h32 => some .bx6
  | .bx4 | .bx4h16 | .bx4h32 => some .bx4
  | _ => none

/-- Magnitude bits of a form's block format. -/
def formF (form : MmaForm) : Nat :=
  match formBx form with
  | some .bx8 => 6
  | some .bx6 => 4
  | _ => 2

/-- The element format of a form that is not BX. -/
def formFmt : MmaForm → Fmt
  | .f16 => fp16
  | .bf16 => bf16
  | _ => fp32

/-- Bits of an element. -/
def formBits (form : MmaForm) : Nat :=
  match formBx form with
  | some _ => formF form + 2
  | none => (formFmt form).width

/-- Elements of a row, and of a chunk (R158). -/
def formK (form : MmaForm) : Nat × Nat :=
  match form with
  | .f16 | .bf16 => (16, 16)
  | .f32 => (8, 8)
  | _ => (64, 32)

/-- Bytes of a row (R158). -/
def formBytes (form : MmaForm) : Nat := (formK form).1 * formBits form / 8

/-- Unit cycles of an MMA or MMAG (R215). -/
def formCycles (form : MmaForm) : Nat :=
  match formBx form, form with
  | some .bx8, _ => 48
  | some .bx6, _ => 24
  | some .bx4, _ => 12
  | none, .f32 => 96
  | none, _ => 48

/-- The exact power of two by which a Hadamard form divides (R159). -/
def formShift (form : MmaForm) : Nat :=
  match form.had with
  | .none => 0
  | .h16 => 4
  | .h32 => 5

/-! ## Chunk arithmetic (R159, R160) -/

/-- An element as decoded. -/
inductive MElem where
  | fin (v : Dy)
  | inf (neg : Bool)
  | nan (signalling : Bool)
  | void
  deriving DecidableEq, Repr

/-- Whether an element is a zero. -/
def MElem.isZero : MElem → Bool
  | .fin v => v.isZero
  | _ => false

/-- Element e of a row: under R65 with the block's exponents, or an IEEE element (R158). -/
def mElem (form : MmaForm) (row : Nat) (exps : List (Nat × Nat)) (e : Nat) : MElem :=
  let w := formBits form
  let x := row / 2 ^ (e * w) % 2 ^ w
  match formBx form with
  | some _ =>
    let F := formF form
    let p := (exps[e / 32]?).getD (0, 0)
    let E := if x.testBit (F + 1) then p.2 else p.1
    if E == 255 then .void else .fin (bxDy F E (x.testBit F) (x % 2 ^ F))
  | none =>
    match unpack (formFmt form) x with
    | .nan _ => .nan (isSNaN (formFmt form) x)
    | .inf neg => .inf neg
    | .fin neg m ex => .fin (Dy.ofMag neg m ex)

/-- The elements of a chunk. -/
def mElems (form : MmaForm) (row : Nat) (exps : List (Nat × Nat)) (chunk : Nat) : List MElem :=
  (List.range (formK form).2).map (fun e => mElem form row exps (chunk * (formK form).2 + e))

/-- Whether a BX chunk's block is empty (R65). -/
def blockEmpty (form : MmaForm) (row : Nat) (exps : List (Nat × Nat)) (chunk : Nat) : Bool :=
  let n := 32 * formBits form
  form.isBx && row / 2 ^ (chunk * n) % 2 ^ n == 0 && exps[chunk]? == some (0, 0)

/-- The exact sum of a chunk, or what stands in its place (R159). -/
inductive CSum where
  | nan (nv : Bool)
  | inf (neg : Bool)
  | val (v : Dy)
  deriving DecidableEq, Repr

/-- What one product brings: whether it is a NaN, invalid, an infinity of each sign, and its finite value. -/
structure Prod where
  nan : Bool
  nv : Bool
  pos : Bool
  neg : Bool
  v : Dy
  deriving DecidableEq, Repr

/-- The product of two elements (R159). -/
def mProd (x y : MElem) : Prod :=
  match x, y with
  | .fin a, .fin b => ⟨false, false, false, false, a.mul b⟩
  | .fin a, .inf n | .inf n, .fin a =>
    if a.isZero then ⟨true, true, false, false, Dy.zero⟩
    else
      let neg := n != decide (a.m < 0)
      ⟨false, false, !neg, neg, Dy.zero⟩
  | .inf n, .inf m => ⟨false, false, n == m, n != m, Dy.zero⟩
  | x, y => ⟨true, x == .nan true || y == .nan true, false, false, Dy.zero⟩

/-- The sum of products, divided by the Hadamard scale (R159). -/
def chunkSum (sh : Nat) (ps : List Prod) : CSum :=
  let pos := ps.any (·.pos)
  let neg := ps.any (·.neg)
  if ps.any (·.nan) || (pos && neg) then .nan (ps.any (·.nv) || (pos && neg))
  else if pos || neg then .inf neg
  else .val ((ps.foldl (fun a p => a.add p.v) Dy.zero).scale (-(sh : Int)))

/-- C after a chunk (R159). A NaN chunk does not read C, so a signalling NaN in C raises no `nv` there (DESIGN CHOICE, log 112). -/
def accumulate (r : Rnd) (c : Nat) (x : CSum) : FRes :=
  match x with
  | .nan nv => ⟨fp32.nanPat, flIf nv flNV⟩
  | .inf neg =>
    match unpack fp32 c with
    | .nan _ => ⟨fp32.nanPat, flIf (isSNaN fp32 c) flNV⟩
    | .inf m => if m == neg then ⟨c, flNone⟩ else ⟨fp32.nanPat, flNV⟩
    | .fin _ _ _ => ⟨(if neg then fp32.signW else 0) + fp32.infPat, flNone⟩
  | .val v =>
    if v.isZero then ⟨c, flNone⟩
    else
      match unpack fp32 c with
      | .nan _ => ⟨fp32.nanPat, flIf (isSNaN fp32 c) flNV⟩
      | .inf _ => ⟨c, flNone⟩
      | .fin neg m e =>
        let t := (Dy.ofMag neg m e).add v
        roundVal fp32 r (sumZeroSign r neg (decide (v.m < 0))) t.exact

/-! ## Plane sets (R155) -/

/-- Element (plane, row, column) of a plane set. -/
def PlaneSet.at_ (p : PlaneSet) (plane i j : Nat) : Word := mgetD p.elems (plane * 1024 + i * 32 + j) 0
/-- Writes an element; +0 is not listed. -/
def PlaneSet.put (p : PlaneSet) (plane i j : Nat) (w : Word) : PlaneSet :=
  let k := plane * 1024 + i * 32 + j
  { p with elems := if w == 0 then mdel p.elems k else mset p.elems k w }

/-- The plane set of a number. -/
def State.planeSet (s : State) (core q k : Nat) : PlaneSet := (mget (s.quarter core q).planes k).getD ⟨0, []⟩
/-- Replaces a plane set. -/
def State.setPlanes (s : State) (core q k : Nat) (p : PlaneSet) : State :=
  let x := s.quarter core q
  s.setQuarter core q { x with planes := mset x.planes k p }
/-- Frees a plane set (R157). -/
def State.freePlanes (s : State) (core q k : Nat) : State :=
  let x := s.quarter core q
  s.setQuarter core q { x with planes := mdel x.planes k }

/-- The plane set that a flight may acquire now: the lowest free one, where no older flight of the quarter holds for one and
the flight's own earlier set has been released (R155, R217). -/
def State.freeSet (s : State) (u : Nat) (f : Flight) : Option Nat :=
  let x := s.quarter f.core f.quarter
  let older := (s.inQuarter f.core f.quarter).any (fun p => p.1 != u && p.2.wantPlanes && Nat.ble p.2.age f.age)
  if older || x.planes.any (fun p => p.2.holder == u) then none
  else (List.range 8).find? (fun k => (mget x.planes k).isNone)

/-- Whether an operation of the queue has begun. -/
def State.begun (s : State) (p : Nat × Nat) : Bool :=
  match (mget s.flights p.1).bind (fun f => f.entry? p.2) with
  | some e => match e.pay with | .engine x => x.started | _ => false
  | none => false

/-- Whether a quarter's queue holds four operations that have not begun (R155). -/
def State.mqFull (s : State) (core q : Nat) : Bool :=
  Nat.ble 4 (((s.quarter core q).mq.filter (fun p => !(s.begun p))).length)

/-- Issue of a matrix operation: its plane set, its place in the queue, then as every engine operation (R144, R155). -/
def issueMatrix (s : State) (u : Nat) (f : Flight) (c : ClauseRun) (r : OpRegs) (flag : Nat) (e : Engine)
    (ms : List (Nat × Meet)) (acquire : Bool) (after : Flight → Flight) : Eff :=
  let need := acquire && f.planes.isNone
  if s.mqFull f.core f.quarter then .hold .matrix
  else
    match need, s.freeSet u f with
    | true, none => .stay (s.setFlight u { f with stall := some .matrix, wantPlanes := true })
    | need, set =>
      let k := if need then set else f.planes
      let s1 := if need then s.setPlanes f.core f.quarter (set.getD 0) ⟨u, []⟩ else s
      let f1 := after { f with planes := k, wantPlanes := false }
      let blocked := s1.engineBlocked f.core s1.nextId { e with key := takeKey s f }
      let e := { e with plane := k, fetchAt := if blocked then 0 else s.cycAt f.core + 1 }
      match issueEngine s1 u f1 c r .k flag e ms [] with
      | .error h => .hold h
      | .ok (id, s2) =>
        let x := s2.quarter f.core f.quarter
        .done (s2.setQuarter f.core f.quarter { x with mq := x.mq ++ [(u, id)] })

/-- What a matrix operation keeps of each owning thread: t, n0 and whether it computes one value (R143, R159). -/
def owners (f : Flight) (act : List Nat) : NMap (List Nat) :=
  act.map (fun i => (i, [(f.thread i).t, (f.thread i).rcount.toNat, if f.single i then 1 else 0]))

/-- The rows of some owners: plane, row, slot and the sibling whose values feed it (R156, R158). -/
def ownedPlanes (lane : Bool) (per : NMap (List Nat)) : List (Nat × Nat × Nat × Nat) :=
  if lane then per.map (fun p => (p.1 / 32, p.1 % 32, p.1, 0))
  else (per.map (fun p => (List.range 3).map (fun k => (k, p.1, p.1, if p.2[2]? == some 1 then 0 else k)))).flatten

/-! ## The instructions -/

/-- MZERO (R157). -/
def execMzero (s : State) : Res :=
  runOp s (regs0 2) fun u f c =>
    let e := { Engine.empty .mzero with win := f.win.getD 0, per := owners f c.act, total := 1, cost := 4 }
    issueMatrix s u f c (regs0 2 f) 15 e [] true id

/-- MFREE: without a held set it has no effect (R157). -/
def execMfree (s : State) : Res :=
  runOp s (regs0 2) fun u f c =>
    match f.planes with
    | none => .done (s.occupy f c (regs0 2 f))
    | some _ =>
      let e := { Engine.empty .mfree with win := f.win.getD 0, total := 1 }
      issueMatrix s u f c (regs0 2 f) 15 e [] false (fun g => { g with planes := none })

/-- The rows that MLD and MST move: plane and row (R157). -/
def movedRows (f : Flight) (act : List Nat) : List (Nat × Nat) :=
  (ownedPlanes f.lane (owners f act)).map (fun p => (p.1, p.2.1))

/-- Whether a descriptor's base is unanimous: it is the address of the pair, and the other fields meet nothing (R143). -/
def baseAgrees (f : Flight) (c : ClauseRun) (fld : BitVec 7) : Bool :=
  let t := (f.operand (lowest c) (f.regName fld.toNat)).map (fun w => bits w.toNat 23 0)
  t.x0 == t.x1 && t.x0 == t.x2

/-- The rows that an operation moves, ascending (R148). -/
def stepRows (rows : List (Nat × Nat)) : List Nat := (rows.map (·.2)).foldr State.insertNat []

/-- MLD and MST (R157). -/
def moveOp (store : Bool) (a : BitVec 7) (s : State) : Res :=
  let regs := regsS [(a, 2)] [] false 2
  runOp s regs fun u f c =>
    let d := uni2 f c a
    let m := mdesc d.1
    let rows := movedRows f c.act
    let us := m.units (rows.map (fun p => (16 * p.1 * m.tpitch, p.2))) 128
    match m.check f c us with
    | some t => .trap t
    | none =>
      let steps := stepRows rows
      let e := { Engine.empty (if store then .mst else .mld) with
        win := f.win.getD 0, dst := d.1, per := owners f c.act, total := steps.length
        n0 := steps.zipIdx.map (fun p => (p.2, p.1))
        reads := if store then [] else m.span us, writes := if store then m.span us else [] }
      issueMatrix s u f c (regs f) c.flag e (uniMeets c [baseAgrees f c a]) (!store) id

/-- MLD (R157). -/
def execMld (a : BitVec 7) (s : State) : Res := moveOp false a s
/-- MST (R157). -/
def execMst (a : BitVec 7) (s : State) : Res := moveOp true a s

/-- The group of a row in MMAG, and the tile it uses; `none` for rows that take no part (R161). -/
def groupOf (g row : Nat) : Nat → Nat → Option Nat
  | 0, _ => none
  | n + 1, first =>
    let k := 3 - n
    let rows := g / 2 ^ (8 * k) % 256
    if Nat.ble first row && Nat.blt row (first + rows) then some (g / 2 ^ (32 + 8 * k) % 256)
    else groupOf g row n (first + rows)

/-- The tile of a row: 0 for MMA, that of its group for MMAG. -/
def tileOf (kind : EngKind) (g row : Nat) : Option Nat := if kind == .mmag then groupOf g row 4 0 else some 0

/-- The tiles in use by some rows. -/
def tilesOf (kind : EngKind) (g : Nat) (rows : List Nat) : List Nat := (rows.filterMap (tileOf kind g)).eraseDups

/-- The B rows that an operation reads: pairs of extra and row, columns 0 to 31 (R158, R161). -/
def bRows (m : MDesc) (tiles : List Nat) : List (Nat × Nat) :=
  (tiles.map (fun t => (List.range 32).map (fun j => (16 * m.tpitch * t, j)))).flatten

/-- The A rows of a .S operation: the owned rows of each plane's tile in a lane kernel, otherwise rows 0 to 31 of the one copy,
which all three planes read (R158). A row that MMAG's groups leave out counts too (R161's footprint over A; log 109). -/
def aRows (f : Flight) (m : MDesc) (owned : List (Nat × Nat × Nat × Nat)) : List (Nat × Nat) :=
  if f.lane then (owned.map (fun p => (16 * p.1 * m.tpitch, p.2.1))).eraseDups else (List.range 32).map (fun i => (0, i))

/-- The selected half of a scale pair (R68). -/
def scaleHalf (q : Bool) (x : Nat) : Nat := if q then x / 2 ^ 32 else x % 2 ^ 32

/-- What an owner's A operand is at issue: its row for each sibling (.V) and its selected A scales (R143, R158). -/
def aCapture (f : Flight) (src : ASource) (form : MmaForm) (d : BitVec 7) (sc : Nat) (q : Bool) (slot : Nat) : List Nat :=
  let rows := match src with
    | .v => ((f.opndBlock slot d (formBytes form / 4)).map wordsNat).toList
    | .s => [0, 0, 0]
  rows ++ ((f.opndPair slot (BitVec.ofNat 7 sc)).map (fun p => scaleHalf q p.toNat)).toList

/-- Column j's B scales as each plane reads them: the siblings' copies of a thread's B pair (R158). -/
def bCapture (f : Flight) (sc : Nat) (q : Bool) (slot : Nat) : List Nat :=
  (Tri.of (fun k => scaleHalf q ((pairOf (f.readReg (f.regName (sc + 2)) slot k) (f.readReg (f.regName (sc + 3)) slot k)).toNat))).toList

/-- MMA and MMAG (R158, R161). -/
def mmaOp (kind : EngKind) (src : ASource) (form : MmaForm) (d a : BitVec 7) (scale : BitVec 5) (q : Bool) (s : State) : Res :=
  let sc := 4 * scale.toNat
  let regs := fun (f : Flight) =>
    let dn := match src with | .v => f.block d.toNat (formBytes form / 4) | .s => f.block d.toNat 2
    OpRegs.mk (inOrder [dn, f.block a.toNat (if kind == .mmag then 4 else 2), if form.isBx then f.block sc (if kind == .mmag then 2 else 4) else []]) [] [] false
      (if src = .v then 8 else 2)
  runOp s regs fun u f c =>
    let bd := uni2 f c a
    let b := mdesc bd.1
    let ad := match src with | .s => uni2 f c d | .v => (0, true)
    let am := mdesc ad.1
    let g := if kind == .mmag then (uni2 f c (a + 2)).1 else 0
    let owned := ownedPlanes f.lane (owners f c.act)
    let rows := owned.filter (fun p => (tileOf kind g p.2.1).isSome)
    let tiles := tilesOf kind g (rows.map (fun p => p.2.1))
    let sRows := if kind == .mmag && form.isBx then tiles.map (fun t => (16 * b.tpitch * t, 32)) else []
    let us := b.units (bRows b tiles) (formBytes form) ++ b.units sRows 128
    let ar := aRows f am owned
    let au := match src with | .s => am.units ar (formBytes form) | .v => []
    let aBad := match src with | .s => am.check f c au | .v => none
    let badCount := kind == .mmag && (List.range 4).any (fun k => Nat.blt 32 (g / 2 ^ (8 * k) % 256))
    let trap := match b.check f c us, aBad, badCount with
      | some t, some x, _ => if x.code == .misaligned then some x else some t
      | some t, none, _ => some t
      | none, some x, _ => some x
      | none, none, true => some (engTrap c .permission 0)
      | none, none, false => none
    match trap with
    | some t => .trap t
    | none =>
      let nch := (formK form).1 / (formK form).2
      let e := { Engine.empty kind with
        win := f.win.getD 0, src := ad.1, dst := bd.1, per := owners f c.act, form := form, asrc := src, q := q
        ctl := f.ctl.round.toNat + (if f.ctl.rsrc then 4 else 0) + f.ctl.rpat.toNat * 8, groups := g
        aBlk := c.act.map (fun i => (i, aCapture f src form d sc q i))
        bScale := if form.isBx && kind == EngKind.mma then (List.range 96).map (fun i => (i, bCapture f sc q i)) else []
        reads := b.span us ++ (match src with | .s => am.span au | .v => []), total := nch, cost := formCycles form / nch
        fetch := b.fetchTime (bRows b tiles) (formBytes form) + b.fetchTime sRows 128
          + (match src with | .s => am.fetchTime ar (formBytes form) | .v => 0) }
      let adv := fun (x : Flight) => x.advanceCounters c.act (32 * nch)
      match issueMatrix s u f c (regs f) c.flag e (uniMeets c [baseAgrees f c a, src == ASource.v || baseAgrees f c d]) true adv with
      | .done s1 => .done (s1.count f 0x22 1)
      | x => x

/-- MMA (R158). -/
def execMma (src : ASource) (form : MmaForm) (d a : BitVec 7) (scale : BitVec 5) (q : Bool) (s : State) : Res :=
  mmaOp .mma src form d a scale q s
/-- MMAG (R161). -/
def execMmag (src : ASource) (form : MmaForm) (d a : BitVec 7) (scale : BitVec 5) (q : Bool) (s : State) : Res :=
  mmaOp .mmag src form d a scale q s

/-! ## Performing a chunk -/

/-- The exponent pairs of a row's two blocks from its selected scales (R68). -/
def expPairs (x : Nat) : List (Nat × Nat) :=
  [(x % 256, x / 2 ^ 8 % 256), (x / 2 ^ 16 % 256, x / 2 ^ 24 % 256)]

/-- How a captured operation rounds element (row, column) of a plane in a chunk (R159, R219). -/
def mRnd (f : Flight) (e : Engine) (own : List Nat) (plane n : Nat) : Rnd :=
  let t := (own[0]?).getD 0
  let one := own[2]? == some 1
  let g := { f with ctl := { f.ctl with rsrc := e.ctl.testBit 2, rpat := BitVec.ofNat 64 (e.ctl / 8) } }
  if one then Rnd.all (rmodeOf (e.ctl % 4)) else Rnd.drawn (g.draw t plane ((((own[1]?).getD 0) + n) % 2 ^ 48))

/-- One column of a B tile: the row of bytes as a number and its exponent pairs. -/
structure BCol where
  row : Nat
  exps : List (Nat × Nat)
  deriving DecidableEq, Repr

/-- Column j of a plane's B tile: its scales from sibling `k` of its thread, or from the tile's scale row (R158, R161). -/
def bColumn (s : State) (f : Flight) (e : Engine) (tile plane k j : Nat) : BCol :=
  let b := mdesc e.dst
  let extra := 16 * b.tpitch * tile
  let sc :=
    if e.kind == .mmag then leNat ((b.row s e.win extra 32 128).drop (4 * j) |>.take 4)
    else ((mgetD e.bScale (if f.lane then 32 * plane + j else j) [])[k]?).getD 0
  ⟨leNat (b.row s e.win extra j (formBytes e.form)), expPairs sc⟩

/-- The A row of an owner for sibling k, captured or fetched from the store (R158). -/
def aRow (s : State) (f : Flight) (e : Engine) (plane row slot k : Nat) : BCol :=
  let m := mdesc e.src
  let blk := mgetD e.aBlk slot []
  let r := match e.asrc with
    | .v => (blk[k]?).getD 0
    | .s => leNat (m.row s e.win (if f.lane then 16 * plane * m.tpitch else 0) row (formBytes e.form))
  ⟨r, expPairs ((blk[3 + k]?).getD 0)⟩

/-- The results of a chunk so far: the planes, the flags and the blocks skipped. -/
structure MAcc where
  set : PlaneSet
  fl : Flags
  skipped : Nat
  deriving DecidableEq, Repr

/-- Adds chunk c of one element (R159, R160). -/
def mmaElem (f : Flight) (e : Engine) (chunk plane i slot : Nat) (ar bc : BCol) (j : Nat) (x : MAcc) : MAcc :=
  let own := mgetD e.per slot []
  let av := mElems e.form ar.row ar.exps chunk
  let bv := mElems e.form bc.row bc.exps chunk
  let skip := (blockEmpty e.form ar.row ar.exps chunk && !bv.contains .void)
    || (blockEmpty e.form bc.row bc.exps chunk && !av.contains .void)
  let sum := chunkSum (formShift e.form) ((av.zip bv).map (fun p => mProd p.1 p.2))
  let r := accumulate (mRnd f e own plane (32 * chunk + j)) (x.set.at_ plane i j).toNat sum
  ⟨x.set.put plane i j (BitVec.ofNat 32 r.pat), x.fl ||| r.fl, x.skipped + (if skip then 1 else 0)⟩

/-- Chunk c of an MMA or MMAG over every owned row (R159 to R161). -/
def mmaChunk (s : State) (f : Flight) (e : Engine) (chunk : Nat) (set : PlaneSet) : MAcc :=
  (ownedPlanes f.lane e.per).foldl (fun x p =>
    match tileOf e.kind e.groups p.2.1 with
    | none => x
    | some t =>
      let ar := aRow s f e p.1 p.2.1 p.2.2.1 p.2.2.2
      (List.range 32).foldl (fun x j =>
        mmaElem f e chunk p.1 p.2.1 p.2.2.1 ar (bColumn s f e t p.1 p.2.2.2 j) j x) x) ⟨set, flNone, 0⟩

/-- Row `i` of MLD: the owned planes' elements from the store (R157). -/
def mldRow (s : State) (f : Flight) (e : Engine) (i : Nat) (set : PlaneSet) : PlaneSet :=
  let m := mdesc e.dst
  ((ownedPlanes f.lane e.per).filter (fun p => p.2.1 == i)).foldl (fun x p =>
    let row := leNat (m.row s e.win (16 * p.1 * m.tpitch) i 128)
    (List.range 32).foldl (fun x j => x.put p.1 i j (BitVec.ofNat 32 (row / 2 ^ (32 * j)))) x) set

/-- Row `i` of MST: the owned planes' elements into the store; without a held set, +0 (R157). -/
def mstRow (s : State) (f : Flight) (e : Engine) (i : Nat) (set : PlaneSet) : State :=
  let m := mdesc e.dst
  ((ownedPlanes f.lane e.per).filter (fun p => p.2.1 == i)).foldl (fun s p =>
    (List.range 8).foldl (fun s k =>
      s.winWrite e.win (m.unit (16 * p.1 * m.tpitch) i k)
        (((List.range 4).map (fun j => leBytes 4 (set.at_ p.1 i (4 * k + j)).toNat)).flatten)) s) s

/-- MZERO: the owned rows of all three planes (R157). -/
def mzeroRows (f : Flight) (e : Engine) (set : PlaneSet) : PlaneSet :=
  (ownedPlanes f.lane e.per).foldl (fun x p => (List.range 32).foldl (fun x j => x.put p.1 p.2.1 j 0) x) set

/-- Planes whose row of step n an MLD or MST moves. -/
def movedPlanes (f : Flight) (e : Engine) (n : Nat) : Nat :=
  ((ownedPlanes f.lane e.per).filter (fun p => p.2.1 == mgetD e.n0 n 0)).length

/-- Unit cycles of chunk n (R215). -/
def chunkCost (f : Flight) (e : Engine) (n : Nat) : Nat :=
  match e.kind with
  | .mld | .mst => movedPlanes f e n
  | _ => e.cost

/-- Chunk n of a matrix operation that issued at a core, with the flags it raises, which wait for completion (R148, R157 to R161). -/
def matrixChunk (s : State) (u : Nat) (f : Flight) (core : Nat) (e : Engine) (n : Nat) : Engine × State :=
  let k := e.plane.getD 0
  let set := match e.plane with
    | some k => s.planeSet f.core f.quarter k
    | none => ⟨u, []⟩
  let row := mgetD e.n0 n 0
  match e.kind with
  | .mzero => (e, s.setPlanes f.core f.quarter k (mzeroRows f e set))
  | .mfree => (e, s.freePlanes f.core f.quarter k)
  | .mld => (e, (s.setPlanes f.core f.quarter k (mldRow s f e row set)).countAt core f 0x25 (movedPlanes f e n))
  | .mst => (e, (mstRow s f e row set).countAt core f 0x25 (movedPlanes f e n))
  | _ =>
    let x := mmaChunk s f e n set
    ({ e with fl := e.fl ||| x.fl }, (s.setPlanes f.core f.quarter k x.set).countAt core f 0x24 x.skipped)

end Sys2Proof.Machine
end

