-- ==== Sys2Proof/Machine/Tasks.lean ====
section
/-! DEFINITION. Tasks (spec/06_isa_engines.md R162 to R167) and the task queues of a context on a die
(spec/14_scheduling.md R262): continuation records, SPAWN, TJOIN and TEND. -/

namespace Sys2Proof.Machine

/-! ## Task queues (R262) -/

/-- A present entry of a context's task-queue table. -/
structure TaskSlot where
  base : Nat
  lg : Nat
  olg : Nat
  deriving DecidableEq, Repr

namespace State

/-- The table entry of a context's queue on a die; an absent queue has none. -/
def taskSlot (s : State) (context die q : Nat) : Option TaskSlot :=
  let table := (s.ctxt context).tasks
  let entry := table + 16 * (8 * die + q)
  let lg := s.numAt (entry + 8) 1
  if table != 0 && Nat.ble 6 lg && Nat.ble lg 20 then some ⟨s.numAt entry 8, lg, s.numAt (entry + 9) 1⟩ else none

/-- A context's queue on a die. -/
def taskQ (s : State) (context die q : Nat) : TaskQ := mgetD (s.die die).taskqs (context * 8 + q) ⟨[], 0, 0, 0, 0⟩

/-- Replaces a context's queue on a die. -/
def setTaskQ (s : State) (context die q : Nat) (v : TaskQ) : State :=
  let k := s.die die
  s.setDie die { k with taskqs := mset k.taskqs (context * 8 + q) v }

end State

/-- The address of the n-th record pushed into the ring. -/
def TaskSlot.at_ (x : TaskSlot) (n : Nat) : Nat := x.base + 32 * (n % 2 ^ x.lg)

/-- The address of the n-th record appended to the overflow ring, which follows the main ring (R262). -/
def TaskSlot.over (x : TaskSlot) (n : Nat) : Nat := x.base + 32 * 2 ^ x.lg + 32 * (n % 2 ^ x.olg)

/-- Records in the ring of a queue. -/
def TaskQ.depth (t : TaskQ) : Nat := t.tail - t.head

/-- Records in the overflow ring of a queue. -/
def TaskQ.spilled (t : TaskQ) : Nat := t.otail - t.ohead

/-- Whether a pushed record can enter the ring at once: it has room, and the overflow ring is empty (R262). -/
def TaskQ.open_ (t : TaskQ) (x : TaskSlot) : Bool := t.spilled == 0 && Nat.blt t.depth (2 ^ x.lg)

/-- Capacity of an overflow ring (R262). -/
def TaskSlot.overCap (x : TaskSlot) : Nat := if Nat.ble 4 x.olg && Nat.ble x.olg 16 then 2 ^ x.olg else 0

/-- A little-endian field of a record. -/
def recField (r : List Byte) (at_ n : Nat) : Nat := leNat ((r.drop at_).take n)

/-- Whether a stored record is owned by a gallery (R163). -/
def ownedBy (g : Gallery) (r : List Byte) : Bool :=
  recField r 29 1 == 128 + g.queue % 64 && recField r 30 2 == g.seq % 2 ^ 16

namespace State

/-- The die writes a record of a ring for the gallery that owns it, its granules captured first for a session of that gallery (R314). -/
def writeRing (s : State) (owner : Option Nat) (at_ : Nat) (r : List Byte) : State :=
  let mine := fun (z : Session) => owner.isSome && z.gallery == owner
  (s.captureFor mine at_ |>.captureFor mine (at_ + 31)).placeBytes 384 at_ r

/-- A record that stands in the ring is the newest of the queue; the die holds the first 64 itself (R262). -/
def joinRing (s : State) (context die q : Nat) (r : List Byte) : State :=
  let t := s.taskQ context die q
  let recs := if t.recs.length == t.depth && Nat.blt t.recs.length 64 then t.recs ++ [r] else t.recs
  s.setTaskQ context die q { t with recs := recs, tail := t.tail + 1 }

/-- A record enters the ring of a queue, for the gallery that owns it. -/
def pushRing (s : State) (owner : Option Nat) (context die q : Nat) (x : TaskSlot) (r : List Byte) : State :=
  (s.writeRing owner (x.at_ (s.taskQ context die q).tail) r).joinRing context die q r

/-- Records leave the overflow ring for the ring as pops make room (R262). -/
def refill (s : State) (context die q : Nat) (x : TaskSlot) : State :=
  let t := s.taskQ context die q
  if t.spilled != 0 && Nat.blt t.depth (2 ^ x.lg) then
    let r := s.readLatest (x.over t.ohead) 32
    (s.setTaskQ context die q { t with ohead := t.ohead + 1 }).pushRing ((s.galleries.find? (fun p => p.2.context == context && ownedBy p.2 r)).map (·.1)) context die q x r
  else s

/-- The first record of a queue is popped: the next of the ring that the die does not hold moves up, and the overflow ring refills
the ring (R164, R262). -/
def popRing (s : State) (context die q : Nat) : State :=
  let t := s.taskQ context die q
  let rest := t.recs.drop 1
  let t := { t with recs := rest, head := t.head + 1 }
  match s.taskSlot context die q with
  | none => s.setTaskQ context die q t
  | some x =>
    let more := if Nat.blt rest.length t.depth && Nat.blt rest.length 64 then [s.readLatest (x.at_ (t.head + rest.length)) 32] else []
    (s.setTaskQ context die q { t with recs := rest ++ more }).refill context die q x

/-- The records of a queue, in its ring and its overflow ring, in order. -/
def queuedRecords (s : State) (context die q : Nat) : List (List Byte) :=
  let t := s.taskQ context die q
  match s.taskSlot context die q with
  | none => t.recs
  | some x =>
    t.recs ++ (List.range (t.depth - t.recs.length)).map (fun i => s.readLatest (x.at_ (t.head + t.recs.length + i)) 32)
      ++ (List.range t.spilled).map (fun i => s.readLatest (x.over (t.ohead + i)) 32)

end State

/-! ## Continuation records (R162) -/

/-- Whether a record breaks the table of R162 for a kind of kernel. -/
def recordBad (lane : Bool) (r : List Byte) : Bool :=
  recField r 0 8 % 4 != 0 || recField r 16 8 % 64 != 0 || Nat.blt (if lane then 95 else 31) (recField r 28 1)
    || recField r 29 1 != 1 || recField r 30 2 != 0

/-- A record as it is stored, with the owner's identity in bytes 29 to 31 (R163). -/
def withOwner (g : Gallery) (r : List Byte) : List Byte :=
  r.take 29 ++ leBytes 1 (128 + g.queue % 64) ++ leBytes 2 (g.seq % 2 ^ 16)

/-! ## Pushing -/

/-- The push of a SPAWN's record: none while the queue is full or its overflow ring holds records (R163, R262). It goes to the die of
the flight's core: after a resumption elsewhere, the die that the flight resumed on (DESIGN CHOICE, log 108). -/
def State.spawnPush (s : State) (f : Flight) (core q : Nat) (r : List Byte) : Option State :=
  let d := dieOf f.core
  match s.taskSlot f.context d q, mget s.galleries f.gallery with
  | some x, some g =>
    if (s.taskQ f.context d q).open_ x then some ((s.pushRing (some f.gallery) f.context d q x (withOwner g r)).countAt core f 0x26 1) else none
  | _, _ => none

/-- The push of a continuation by a TJOIN on the die of its bank: a malformed record, an absent queue or a full overflow ring
discards it and reports it; a full queue sends it to the overflow ring, which raises an event as it reaches seven-eighths (R166,
R262). -/
def State.joinPush (s : State) (f : Flight) (die q joinAt : Nat) (r : List Byte) : State :=
  match s.taskSlot f.context die q, mget s.galleries f.gallery with
  | some x, some g =>
    let t := s.taskQ f.context die q
    if recordBad f.lane r then s.emit (.event 166 [f.context, die, q, joinAt])
    else if t.open_ x then s.pushRing (some f.gallery) f.context die q x (withOwner g r)
    else if Nat.blt t.spilled x.overCap then
      let s := (s.writeRing (some f.gallery) (x.over t.otail) (withOwner g r)).setTaskQ f.context die q { t with otail := t.otail + 1 }
      if Nat.blt (8 * t.spilled) (7 * x.overCap) && Nat.ble (7 * x.overCap) (8 * (t.spilled + 1)) then
        s.emit (.event 262 [f.context, die, q])
      else s
    else s.emit (.event 166 [f.context, die, q, joinAt])
  | _, _ => s.emit (.event 166 [f.context, die, q, joinAt])

/-- A record that system software writes whole into the free slot after the last of a ring enters the queue, where it bears an
owner's identity and the queue can take it (R163, R262; DESIGN CHOICE, log 87). -/
def State.softwarePush (s : State) (pa : Nat) (data : List Byte) : State :=
  let fits := fun (p : Nat × Nat × Nat) =>
    let (c, d, q) := p
    match s.taskSlot c d q with
    | some x =>
      let t := s.taskQ c d q
      let at_ := x.at_ t.tail
      let r := s.readLatest at_ 32
      if t.open_ x && Nat.ble pa at_ && Nat.ble (at_ + 32) (pa + data.length) && Nat.ble 128 (recField r 29 1) then some (p, r) else none
    | none => none
  let cs := (s.contexts.filter (fun p => p.2.tasks != 0)).map (·.1)
  match (cs.map (fun c => (List.range 32).filterMap (fun i => fits (c, i / 8, i % 8)))).flatten with
  | ((c, d, q), r) :: _ => s.joinRing c d q r
  | [] => s

/-! ## SPAWN (R163) -/

/-- The record of a thread, the Majority of its siblings' blocks (R143, R162). -/
def spawnRecord (f : Flight) (slot : Nat) (a : BitVec 7) : List Byte := leBytes 32 (wordsNat (f.opndBlock slot a 8).maj.1)

/-- SPAWN: the records are checked and captured, and the core performs Publish(3); they are pushed chunk by chunk (R144, R148,
R163, R282). -/
def execSpawn (a : BitVec 7) (q : BitVec 3) (s : State) : Res :=
  let regs := regsS [(a, 8)] [] false 2
  runOp s regs fun u f c =>
    let rs := c.act.map (fun i => (i, spawnRecord f i a))
    let bad := rs.filter (fun p => recordBad f.lane p.2)
    let far := rs.filter (fun p => !(s.inRegion f (recField p.2 0 8)))
    if (s.taskSlot f.context (dieOf f.core) q.toNat).isNone then .trap (engTrap c .permission 0)
    else if !bad.isEmpty then .trap ⟨.permission, 0, 0, 0, bad.map (·.1)⟩
    else
      match far with
      | (_, r) :: _ => .trap ⟨.permission, 0, recField r 0 8, 0, far.map (·.1)⟩
      | [] =>
        if f.full || !(s.canBound f.core true) then .hold .memory
        else
          let s1 := (s.boundary u f (some 3) none).2
          let f1 := (mget s1.flights u).getD f
          let e := { Engine.empty .spawn with
            per := rs.map (fun p => (p.1, [leNat p.2])), groups := q.toNat, total := rs.length }
          engEff (issueEngine s1 u f1 c (regs f1) .k c.flag e [] [])

/-- Record n of a SPAWN enters its queue; none while it must wait (R148, R163). -/
def spawnChunk (s : State) (f : Flight) (core : Nat) (e : Engine) (n : Nat) : Option State :=
  match e.per[n]? with
  | some (_, r :: _) => s.spawnPush f core e.groups (leBytes 32 r)
  | _ => some s

/-! ## TJOIN and TEND (R166, R167) -/

/-- The counting bank decrements one join block, or a receipt suppresses it; at zero it pushes the continuation. A bank whose ring is
full does nothing yet (R166, R247, R284). -/
def tjoinOne (f : Flight) (e : Entry) (rs : List AtomReq) (s : State) (ix : Nat) (r : AtomReq) : AtomReq × State :=
  if r.done || (!(s.canRecord r.pa) && (s.receiptFor e rs ix r.pa).isNone) then (r, s)
  else
    let s := s.reach (clusterOf f.core) (r.pa / 64)
    match s.receiptFor e rs ix r.pa with
    | some x => ({ r with done := true, old := x.old }, s)
    | none =>
      let p := s.performAt f e .add32 true r
      if p.1.old != 1 then p
      else
        (p.1, p.2.joinPush f (State.homeDie r.pa) (p.2.numAt (r.pa + 4) 1 % 8) r.pa (p.2.readLatest (r.pa + 32) 32))

/-- The threads' join blocks, in ascending order. -/
def tjoinAll (f : Flight) (e : Entry) (rs : List AtomReq) : Nat → List AtomReq → State → List AtomReq × State
  | _, [], s => ([], s)
  | n, r :: rest, s =>
    let p := tjoinOne f e rs s n r
    let q := tjoinAll f e rs (n + 1) rest p.2
    (p.1 :: q.1, q.2)

/-- Performs the decrements of a TJOIN entry. -/
def State.performJoin (s : State) (u id : Nat) : State :=
  match (mget s.flights u).bind (fun f => (f.entry? id).map (fun e => (f, e))) with
  | none => s
  | some (f, e) =>
    match e.pay with
    | .tjoin rs =>
      let p := tjoinAll f e rs 0 rs s
      p.2.modFlight u (fun g => g.setEntry { e with pay := .tjoin p.1 })
    | _ => s

/-- TJOIN: Publish(3) once, then each active thread's decrement (R166). -/
def execTjoin (a : BitVec 7) (s : State) : Res :=
  let regs := regsS [(a, 2)] [] false 2
  runOp s regs fun u f c =>
    let as := globalAddrs f c false a 0
    match failuresOf (flightFail s f Want.both 64) as with
    | some x => failEff s u f c (regs f).srcs x
    | none =>
      if f.full || !(s.tagFree f) || !(s.canBound f.core true) then .hold .memory
      else
        let s1 := (s.boundary u f (some 3) none).2
        let f1 := (mget s1.flights u).getD f
        let s2 := s1.usePagesAs f1 f1.core false true (as.map (·.addr))
        let reqs := as.map (fun x => AtomReq.mk x.slot (s2.locate f1 x.addr).pa (2 ^ 32 - 1) 0 false 0 false)
        let (id, s3) := issueEntry s2 u f1 c (regs f1) .t true 15 (.tjoin reqs) as []
        let s4 := (s3.fixLoads u false (reqs.map (fun q => (q.pa, q.pa + 4)))).performJoin u id
        let whole := match (mget s4.flights u).bind (fun g => g.entry? id) with
          | some e => (match e.pay with | .tjoin rs => rs.all (·.done) | _ => false)
          | none => false
        if whole && s1.recordedWell s4 then .done s4 else .hold .memory

/-- TEND: the active threads exit (R167). -/
def execTend (s : State) : Res :=
  runOp s (regs0 2) fun u f c => .done ((s.occupy f c (regs0 2 f)).exitThreads u f c)

end Sys2Proof.Machine
end

