-- ==== Sys2Proof/Machine/Fire.lean ====
section
/-! DEFINITION. Collective bindings, chunk maps and firing (spec/06_isa_engines.md R168; spec/20_collectives.md R343, R347). -/

namespace Sys2Proof.Machine

/-- A field of a gallery's collective binding (R343). -/
def bindField (g : Gallery) (at_ n : Nat) : Nat := recField g.launch.coll at_ n

/-- Whether a binding's bytes are all zero (R343). -/
def unbound (coll : List Byte) : Bool := coll.all (fun b => b == 0#8)

/-- The coordinates of a hall: x, y, z and the storey (R182). -/
def hallCoords (r : LaunchRec) (hall : Nat) : Nat × Nat × Nat × Nat :=
  (hall % r.gx, hall / r.gx % r.gy, hall / (r.gx * r.gy) % r.gz, hall / (r.gx * r.gy * r.gz))

/-- The wing linear index of a hall (R183). -/
def wingOf (r : LaunchRec) (hall : Nat) : Nat :=
  let h := hallCoords r hall
  let up := fun a b => (a + b - 1) / b
  h.1 / r.wx + up r.gx r.wx * (h.2.1 / r.wy + up r.gy r.wy * (h.2.2.1 / r.wz + up r.gz r.wz * h.2.2.2))

/-- The chunk that the map gives a hall, if any (R347). -/
def hallChunk (g : Gallery) (hall : Nat) : Option Nat :=
  let h := hallCoords g.launch hall
  let k := (bindField g 28 2 * h.1 + bindField g 30 2 * h.2.1 + bindField g 32 2 * h.2.2.1 + bindField g 34 2 * h.2.2.2
    + bindField g 36 4) % 2 ^ 32
  if Nat.blt k (bindField g 24 4) then some k else none

/-- Segments of a tile: 64 KiB each (R351). -/
def Coll.segments (c : Coll) : Nat := (c.tbytes + 65535) / 65536

/-- Whether the engine needs no more of a chunk's source: every segment is read, or the collective has failed (R168, R354). -/
def Coll.sourceDone (c : Coll) (chunk : Nat) : Bool := c.failed.isSome || mgetD c.read chunk 0 == c.segments

/-- Fires a chunk of a gallery at a die's engine: a later firing of a chunk has no effect and counts an event (R168, R347).
The answer says whether the chunk fired. -/
def State.fire (s : State) (gid chunk die : Nat) : Bool × State :=
  match mget s.galleries gid with
  | none => (false, s)
  | some g =>
    if g.fired.contains chunk then (false, s.emit (.event 168 [gid, chunk]))
    else
      let s := s.setGallery gid { g with fired := g.fired ++ [chunk] }
      match g.coll.bind (fun i => (mget s.colls i).map (fun c => (i, c))) with
      | none => (true, s)
      | some (i, c) =>
        let first := !(c.fired.any (fun p => p.2.1 == die))
        let s := s.noteSession gid i
        let c := { c with
          fired := c.fired ++ [(chunk, die, s.stamp)]
          turn := if first then mset c.turn die s.nextId else c.turn
          waitFrom := if first then mset c.waitFrom die (s.dieCyc die) else c.waitFrom }
        (true, { s with colls := mset s.colls i c, nextId := s.nextId + 1 })

/-- CFIRE and CFIRE.IDX: the permission checks, Publish(3), then the chunk goes to the die's engine; a K entry waits until the
source is read (R144, R148, R168). -/
def fireOp (s : State) (regs : Flight → OpRegs) (chunkOf : Gallery → Flight → ClauseRun → Option Nat) (indexed : Bool) : Res :=
  runOp s regs fun u f c =>
    match mget s.galleries f.gallery with
    | none => .trap (engTrap c .permission 0)
    | some g =>
      let k := chunkOf g f c
      if g.coll.isNone || (indexed && k.isNone) then .trap (engTrap c .permission 0)
      else if f.full || !(s.canBound f.core true) then .hold .memory
      else
        let s1 := (s.boundary u f (some 3) none).2
        let f1 := (mget s1.flights u).getD f
        let e := { Engine.empty .cfire with src := k.getD 0, total := if k.isSome then 1 else 0 }
        match issueEngine s1 u f1 c (regs f1) .k c.flag e [] [] with
        | .error h => .hold h
        | .ok (_, s2) =>
          match k with
          | none => .done s2
          | some k =>
            let (fired, s3) := s2.fire f.gallery k (dieOf f.core)
            .done (if fired then ({ s3 with galleries := mmod s3.galleries f.gallery (fun g => { g with cfired := k :: g.cfired }) }).count f 0x3C 1 else s3)

/-- CFIRE: the chunk of the issuing hall; a task has no hall of the map (R168, R347). -/
def execCfire (s : State) : Res :=
  fireOp s (regs0 2) (fun g f _ => match f.task with | some _ => none | none => hallChunk g f.hall) false

/-- CFIRE.IDX: the uniform chunk u(a) (R168). -/
def execCfireIdx (a : BitVec 7) (s : State) : Res :=
  fireOp s (regsS [(a, 1)] [] false 2) (fun g f c =>
    let k := (uni1 f c a).1
    if Nat.blt k (bindField g 24 4) then some k else none) true

end Sys2Proof.Machine
end

