-- ==== Sys2Proof/Machine/System.lean ====
section
/-! DEFINITION. Macros at issue, special and control registers, traps, trace, time and yielding (spec/06_isa_engines.md R169 to
R179; spec/10_validation.md R209; spec/16_compat.md R300, R301). -/

namespace Sys2Proof.Machine

/-! ## MCALL (R169) -/

/-- The words of a macro that the core's control store holds as valid, where it holds the table of the flight's gallery (R38,
R302). -/
def State.macro? (s : State) (f : Flight) (mac : Nat) : Option (List Nat) :=
  match (s.core f.core).store, mget s.galleries f.gallery with
  | some k, some g => if k.context == f.context && k.addr == g.desc.macros then mget k.macros mac else none
  | _, _ => none

/-- The start of the body clause that holds a word, `pos` being the start of the clause looked at (R203, R208). -/
def clauseAt (word : Nat) : Nat → Nat → List Nat → Nat
  | 0, pos, _ => pos
  | n + 1, pos, ws =>
    match ws with
    | [] => pos
    | hw :: rest =>
      let next := pos + (Clause.header hw).len + 2
      if Nat.blt word next then pos else clauseAt word n next (rest.drop ((Clause.header hw).len + 1))

/-- The body as its clause's threads run it: threads that resume inside it take part from their own word (R203, R208). -/
def bodyRun (f : Flight) (group : List Nat) (ws : List Nat) : BodyRun :=
  let entries := group.filterMap (fun i => ((f.thread i).fromBody).map (fun b => (i, b)))
  let word := match f.clause with | some c => c.word | none => 0
  let pos := match entries with
    | [] => 0
    | (_, b) :: es =>
      if entries.length == group.length then clauseAt (es.foldl (fun m p => min m p.2) b) ws.length 0 ws else 0
  ⟨ws, pos, group, entries, word, false⟩

/-- The body that an MCALL's word names, its parameters in place (R37), where the core's control store holds it (R38). -/
def State.bodyWords (s : State) (f : Flight) (word : Nat) : Option (List Nat) :=
  match decodeWord word with
  | .ok (.mcall mac p0 p1 p2) => (s.macro? f mac.toNat).map (Clause.macroBody p0.toNat p1.toNat p2.toNat 0)
  | _ => none

/-- A flight whose macro body runs on at the recorded word from the control store as it was loaded again, its clause in progress too;
a macro that is gone leaves no words (R38, R169). -/
def State.reloadBody (s : State) (f : Flight) : Flight :=
  match f.body with
  | none => f
  | some b =>
    let ws := (s.bodyWords f b.call).getD []
    let clause := f.clause.bind (fun c =>
      match c.body, ws.drop b.pos with
      | none, _ => some c
      | some _, [] => none
      | some _, hw :: rest =>
        let h := Clause.header hw
        some { c with hdr := h, words := rest.take (h.len + 1) })
    { f with body := some { b with words := ws }, clause := clause }

/-- MCALL: the body, with its parameters in place, runs next for the threads of the clause; an invalid or absent macro raises
the macro fault (R36 to R38, R169). Threads that all resume past the body's last word go on at the clause after the MCALL
(R203). -/
def execMcall (mac : BitVec 6) (p0 p1 : BitVec 7) (p2 : BitVec 6) (s : State) : Res :=
  runOp s (regs0 0) fun u f c =>
    match s.macro? f mac.toNat with
    | none => .trap ⟨.macroFault, 0, 0, 0, c.act⟩
    | some ws =>
      let run := bodyRun f c.group (Clause.macroBody p0.toNat p1.toNat p2.toNat 0 ws)
      let g := if Nat.blt run.pos run.words.length then { f with body := some run } else f
      .done ((s.setFlight u g).occupy f c (regs0 0 f))

/-! ## Reading registers (R170 to R173, R209) -/

/-- The gallery's launch record, if the flight has one. -/
def State.launchOf (s : State) (f : Flight) : Option LaunchRec := (mget s.galleries f.gallery).map (·.launch)

/-- Six-bit counts of n flags from flag k (R171). -/
def flagField (f : Flight) (k n : Nat) : Nat :=
  ((List.range n).map (fun i => f.flagCount (k + i) % 64 * 2 ^ (6 * i))).sum

/-- A value of a task, or of a hall (R172). -/
def taskElse (f : Flight) (task hall : Nat) : Nat := if f.task.isSome then task else hall

/-- The number that `sr.wing` reads (R165, R171, R183, R221). -/
def wingReg (s : State) (f : Flight) : Nat :=
  match f.task, s.launchOf f with
  | some _, _ =>
    match s.windowOf f with
    | some (_, w) => if w.isTask then 2 ^ 32 - 1 else w.index
    | none => 2 ^ 32 - 1
  | none, some r => wingOf r f.hall
  | none, none => 0

/-- A special register that describes the flight's place and size (R171, R172, R300), by number. -/
def placeReg (s : State) (f : Flight) (slot num : Nat) : Nat :=
  let t := f.thread slot
  let r := s.launchOf f
  let at_ := (r.map (fun r => hallCoords r f.hall)).getD (0, 0, 0, 0)
  let none_ := 2 ^ 32 - 1
  match num with
  | 0x00 => taskElse f t.hidx (if f.narrow then t.hidx % 16 else slot)
  | 0x01 => t.hidx
  | 0x02 => taskElse f none_ f.hall
  | 0x03 => taskElse f none_ at_.1
  | 0x04 => taskElse f none_ at_.2.1
  | 0x05 => taskElse f none_ at_.2.2.1
  | 0x06 => taskElse f 0 at_.2.2.2
  | 0x07 => wingReg s f
  | 0x08 => (r.map (·.gx)).getD 0
  | 0x09 => (r.map (·.gy)).getD 0
  | 0x0A => (r.map (·.gz)).getD 0
  | 0x0B => s.hallThreads f
  | 0x0C => if f.narrow then 16 else if f.lane then 96 else 32
  | 0x0D => taskElse f 0 (if f.narrow then t.hidx / 16 else f.index)
  | 0x10 => f.core
  | 0x11 => clusterOf f.core
  | 0x12 => dieOf f.core
  | 0x13 => s.boot.number.toNat
  | _ => 0

/-- A special register that describes the flight's and the thread's state (R171), by number. -/
def stateReg (s : State) (f : Flight) (slot num : Nat) : Nat :=
  let t := f.thread slot
  let pc := match f.clause with | some c => c.addr.toNat | none => t.pc.toNat
  match num with
  | 0x0F => if t.solo then 1 else 0
  | 0x14 => t.rcount.toNat % 2 ^ 32
  | 0x15 => t.rcount.toNat / 2 ^ 32
  | 0x16 => pc % 2 ^ 32
  | 0x17 => pc / 2 ^ 32
  | 0x18 => if f.level == 3 then 0 else f.window
  | 0x19 => flagField f 0 5
  | 0x1A => flagField f 5 5
  | 0x1B => flagField f 10 2
  | 0x1C => match f.task with | some k => k.1 | none => 2 ^ 32 - 1
  | 0x1D => f.level
  | 0x1E => f.planes.getD (2 ^ 32 - 1)
  | 0x1F => 256 - s.sliceUse f.core
  | _ => 0

/-- A special register of the deferred trap, for a sibling; zero outside handler mode (R209). `sr.hlink` reads each sibling's own
copy also in a solo stretch, where R111 says one value (DESIGN CHOICE, log 81). -/
def trapReg (f : Flight) (slot k num : Nat) : Nat :=
  let t := f.thread slot
  match t.handler, t.inst with
  | true, some r =>
    let link := ((t.hlink[k]?).getD 0).toNat
    match num with
    | 0x20 => r.icause
    | 0x21 => r.iclause.toNat % 2 ^ 32
    | 0x22 => r.iclause.toNat / 2 ^ 32
    | 0x23 => r.iop
    | 0x24 => r.iword.toNat
    | 0x25 => r.idig
    | 0x26 => link % 2 ^ 32
    | 0x27 => link / 2 ^ 32
    | 0x28 => 1
    | _ => 0
  | _, _ => 0

/-- A control register (R62, R130, R173, R301), by number. -/
def ctlReg (s : State) (f : Flight) (num : Nat) : Nat :=
  let k := f.ctl
  match num with
  | 0x100 => k.round.toNat
  | 0x101 => if k.rsrc then 1 else 0
  | 0x102 => k.rpat.toNat % 2 ^ 32
  | 0x103 => k.rpat.toNat / 2 ^ 32
  | 0x104 => f.seed.toNat % 2 ^ 32
  | 0x105 => f.seed.toNat / 2 ^ 32
  | 0x106 => k.canc.toNat
  | 0x107 => k.itrap.toNat
  | 0x108 => k.ccnt.toNat + k.dcnt.toNat * 2 ^ 10 + k.zcnt.toNat * 2 ^ 20
  | 0x109 => k.fexc.toNat
  | 0x10A => k.fair.toNat
  | 0x10B => if f.narrow || k.prog then 1 else 0
  | 0x10C => (s.ctxt f.context).pdead % 2 ^ 32
  | 0x10D => ((s.launchOf f).map (·.scopes)).getD 0 % 2 ^ 32
  | 0x10E => ((s.launchOf f).map (·.scopes)).getD 0 / 2 ^ 32
  | 0x10F => k.ordscope.toNat
  | _ => 0

/-- What a thread's sibling reads of a register number (R170). -/
def regRead (s : State) (f : Flight) (slot k num : Nat) : Word :=
  BitVec.ofNat 32 (
    if num == 0x0E then (if f.single slot then 0 else k)
    else if Nat.ble 0x100 num then ctlReg s f num
    else if Nat.ble 0x20 num then trapReg f slot k num
    else if Nat.ble num 0x0D || (Nat.ble 0x10 num && Nat.ble num 0x13) then placeReg s f slot num
    else stateReg s f slot num)

/-- SRD (R170). -/
def execSrd (d : BitVec 7) (num : BitVec 14) (s : State) : Res :=
  regOp s (regsD d 1 false 2) fun f i => [Tri.of (fun k => regRead s f i k num.toNat)]

/-! ## Writing control registers (R62, R170) -/

/-- The control registers after a write; read-only fields and reserved bits ignore it, and `ctl.fexc` is cleared by ones (R62,
R130, R173, R301). -/
def ctlWrite (narrow : Bool) (k : Ctl) (num : Nat) (v : Word) : Ctl :=
  match num with
  | 0x100 => { k with round := v.setWidth 2 }
  | 0x101 => { k with rsrc := v.getLsbD 0 }
  | 0x102 => { k with rpat := pairOf v (hiHalf k.rpat) }
  | 0x103 => { k with rpat := pairOf (loHalf k.rpat) v }
  | 0x106 => { k with canc := v.setWidth 6 }
  | 0x107 => { k with itrap := v.setWidth 3 }
  | 0x108 => { k with ccnt := v.setWidth 10, dcnt := (v >>> 10).setWidth 10, zcnt := (v >>> 20).setWidth 10 }
  | 0x109 => { k with fexc := k.fexc &&& ~~~(v.setWidth 5) }
  | 0x10A => { k with fair := v.setWidth 16 }
  | 0x10B => { k with prog := if narrow then k.prog || v.getLsbD 0 else v.getLsbD 0 }
  | 0x10F => { k with ordscope := v.setWidth 5 }
  | _ => k

/-- SWR: the lowest active thread's value, by majority of its siblings (R170). -/
def execSwr (d : BitVec 7) (num : BitVec 14) (s : State) : Res :=
  let regs := regsS [(d, 1)] [] false 2
  runOp s regs fun u f c =>
    let v := (f.majReg (lowest c) d).1
    .done ((s.setFlight u { f with ctl := ctlWrite f.narrow f.ctl num.toNat v }).occupy f c (regs f))

/-! ## Traps, trace and time (R174 to R176) -/

/-- A trap that is the operation's own effect: the operation takes its cycles of the datapath (R149). -/
def trapOp (code : TrapCode) (n : BitVec 7) (s : State) : Res :=
  runOp s (regs0 2) fun u f c =>
    .stay ((s.occupy f c (regs0 2 f)).takeTrap u f c [] ⟨code, 0, 0, n.toNat, c.act⟩)

/-- TRAP n (R174). -/
def execTrap (n : BitVec 7) (s : State) : Res := trapOp .trap n s

/-- BKPT n (R174). -/
def execBkpt (n : BitVec 7) (s : State) : Res := trapOp .bkpt n s

/-- The record that TRC emits for a thread: sibling 0's value and the split mark (R175, R320). -/
def trcRecord (s : State) (f : Flight) (slot : Nat) (a : BitVec 7) (kind : Nat) : TraceRec :=
  let t := f.opnd slot a
  let n := s.naming f (f.thread slot).hidx
  let split := !(t.x0 == t.x1 && t.x1 == t.x2)
  ⟨s.time, f.core, f.quarter, f.slot, (f.thread slot).hidx, kind * 2 ^ 24 + (if split then 2 ^ 31 else 0), n.1, n.2, t.x0.toNat,
    false⟩

/-- TRC: one record for each active thread (R175). -/
def execTrc (a : BitVec 7) (kind : BitVec 7) (s : State) : Res :=
  let regs := regsS [(a, 1)] [] false 2
  runOp s regs fun _ f c =>
    .done ((c.act.foldl (fun s i => s.offer f (trcRecord s f i a kind.toNat)) s).occupy f c (regs f))

/-- TIME: the constant time base, one value for all (R176). -/
def execTime (d : BitVec 7) (s : State) : Res :=
  regOp s (regsD d 2 false 2) fun _ _ => (halves (BitVec.ofNat 64 s.time)).map Tri.rep

/-! ## Pre-emption seen by a program (R177, R178) -/

/-- What PREQ reads: 0 without a request, else the nanoseconds left, at least 1 and saturating (R177, R270). -/
def preqValue (s : State) (f : Flight) : Nat :=
  match (s.ctxt f.context).deadline with
  | none => 0
  | some t => max 1 (min (2 ^ 32 - 1) (t - s.time))

/-- PREQ (R177). -/
def execPreq (d : BitVec 7) (s : State) : Res :=
  regOp s (regsD d 1 false 2) fun f _ => [Tri.rep (BitVec.ofNat 32 (preqValue s f))]

/-- PYIELD: the threads stand at the next clause; with a request pending the flight issues nothing more until it is saved
(R178). In handler mode it raises permission (R206). -/
def execPyield (s : State) : Res :=
  runOp s (regs0 2) fun u f c =>
    if c.act.any (fun i => (f.thread i).handler) then .trap ⟨.permission, 0, 0, 0, c.act⟩
    else
      let f1 := if (s.ctxt f.context).deadline.isSome then { f with pyield := true } else f
      .done ((s.setFlight u f1).occupy f c (regs0 2 f))

/-! ## IPF (R179, R267) -/

/-- The key of a code line in an instruction cache. -/
def icKey (context va : Nat) : Nat := context * 2 ^ 58 + va % 2 ^ 64 / 64

/-- Adds lines to an instruction cache. -/
def State.icFill (s : State) (cl : Nat) (keys : List Nat) : State :=
  let k := s.cluster cl
  s.setCluster cl { k with icache := keys.foldl (fun m x => if m.contains x then m else x :: m) k.icache }

/-- IPF: the lines of the clause at a uniform address come into the cluster's cache, or the request is dropped; nothing a
program can read changes (R179; log 3): a split address uses the lowest copy and counts no D (DESIGN CHOICE, log 111). -/
def execIpf (a : BitVec 7) (s : State) : Res :=
  let regs := regsS [(a, 2)] [] false 2
  runOp s regs fun _ f c =>
    let va := (uni2 f c a).1
    let reads := match globalFail s f.core f.context Want.code 1 va with | none => true | some _ => false
    let (drop, s1) := s.pick 2
    if drop == 1 || !reads then .done ((s1.occupy f c (regs f)).count f 0x31 1)
    else .done ((s1.icFill (clusterOf f.core) [icKey f.context va, icKey f.context (va + 32)]).occupy f c (regs f))

end Sys2Proof.Machine
end

