-- ==== Sys2Proof/Machine/Issue.lean ====
section
/-! DEFINITION. The start of a clause (spec/03_isa_integer.md R75 to R80; spec/01_words.md R12; spec/08_execution.md R190), the
choice of the quarter (spec/14_scheduling.md R264, R267, R268), fairness (R191), naps and yields (spec/05_isa_memory.md R120,
R121), the permission count (R265) and the delivery of instability records (spec/10_validation.md R204, R205). -/

namespace Sys2Proof.Machine

/-! ## The choice of the quarter (R190, R264) -/

/-- The threads whose records wait for delivery. -/
def recorded (f : Flight) : List Nat :=
  (f.threads.filter (fun p => p.2.st == .masked && !p.2.handler && p.2.inst.isSome)).map (·.1)

/-- Whether records are delivered now: no clause is in progress and no thread is ready (R204). -/
def deliverable (f : Flight) : Bool :=
  !(recorded f).isEmpty && f.clause.isNone && f.frozen.isNone && !f.debugFrozen && !f.pyield && !f.inHandler && f.started
    && !(f.threads.any (fun p => p.2.st == .ready))

/-- Whether nothing known holds a flight (R190). -/
def unheld (f : Flight) : Bool := f.stall.isNone || f.stall == some .clear

namespace State

/-- The K entries of a flight with store footprints that do not hold their scoreboard entries again (R246). -/
def dueSb (s : State) (f : Flight) : List Entry :=
  f.entries.filter (fun e => e.cls == .k && e.replay && (match e.pay with
    | .engine x => !(x.reads.isEmpty && x.writes.isEmpty)
    | _ => false) && !((s.cluster (clusterOf f.core)).sb.any (fun x => x.entry == e.id)))

/-- Whether the K entries of a flight's hall all hold their scoreboard entries again, so that it may make accesses (R241). -/
def hallHeld (s : State) (f : Flight) : Bool :=
  (s.dueSb f).isEmpty && s.flights.all (fun p => f.task.isSome || p.2.task.isSome || p.2.gallery != f.gallery || p.2.hall != f.hall
    || (s.dueSb p.2).isEmpty)

/-- Whether a flight has something to issue or records to deliver, and may issue at all (R188, R190, R204, R230, R241, R246, R336). -/
def ready (s : State) (f : Flight) : Bool :=
  f.started && s.answered f && s.hallHeld f && f.frozen.isNone && !f.debugFrozen && !f.slip && f.fairDue.isNone
    && !(f.entries.any (·.replay)) && !(f.pyield && f.clause.isNone)
    && (f.clause.isSome || f.body.isSome || f.issueAddr.isSome || deliverable f)

/-- Whether a flight would take an issue slot: it is ready and nothing known holds it (R190). -/
def issuable (s : State) (f : Flight) : Bool := s.ready f && unheld f

/-- Whether a flight is eligible: its next operation or clause was looked at, and nothing holds it (R190). -/
def eligible (s : State) (f : Flight) : Bool := s.ready f && f.stall == some .clear

/-- The order in which a quarter prefers flights: a started clause goes on; then overdue flights first, flights within 32 cycles
of a YIELD last, then by age (R120, R264). -/
def preference (f : Flight) : List Nat :=
  [if f.clause.isSome then 0 else 1, if f.overdue then 0 else 1, if f.yieldEnd == 0 then 0 else 1, f.age]

/-- A flight's quarter chooses it in the present cycle (R264, R334). -/
def choose (s : State) (u : Nat) (f : Flight) : State :=
  let q := s.quarter f.core f.quarter
  s.setQuarter f.core f.quarter { q with took := if q.took.any (fun t => t.1 == u) then q.took else q.took ++ [(u, f.context)] }

/-- Whether a flight is the one its quarter chooses now (R264). -/
def chosen (s : State) (u : Nat) (f : Flight) : Bool :=
  s.issuable f && Nat.ble (s.quarter f.core f.quarter).freeAt (s.cycAt f.core)
    && !((s.inQuarter f.core f.quarter).any (fun p => p.1 != u && s.issuable p.2 && keyLt (preference p.2) (preference f)))

end State

/-! ## Fetch (R267, R268) -/

/-- How a fetch ends: the clause's words, lines that are missing, or a failed check. -/
inductive Fetch where
  | clause (hw : Nat) (ws : List Nat) (s : State)
  | slip (s : State)
  | fail (x : Trap × Option MissKey)
  deriving DecidableEq, Repr

/-- The coherence stamp since which a flight's code may be read (R268). -/
def State.codeStamp (s : State) (f : Flight) : Nat :=
  match mget s.galleries f.gallery with
  | some g => g.accepted
  | none => s.stamp

/-- The failed check of a code word, for the threads at the clause (R12, R294). -/
def codeFail (s : State) (f : Flight) (group : List Nat) (va : Nat) : Option (Trap × Option MissKey) :=
  (globalFail s f.core f.context Want.code 4 va).map (fun x => (⟨x.code, x.cause, va, 0, group⟩, x.key))

/-- Reads code words from an address. -/
def codeWords (f : Flight) : Nat → Nat → State → List Nat × State
  | _, 0, s => ([], s)
  | va, n + 1, s =>
    let (bs, s) := s.readCode f.gallery (s.codeStamp f) (locBytes (s.locate f va).pa 4)
    let (ws, s) := codeWords f (va + 4) n s
    (leNat bs :: ws, s)

/-- Fills the TLBs with a fetched page and marks it accessed (R291, R292, R333). -/
def State.codePage (s : State) (f : Flight) (va : Nat) : State := s.usePage f f.core false false (va % 2 ^ 57)

/-- Whether the cluster's instruction cache holds the line of an address (R267). -/
def State.icHas (s : State) (f : Flight) (va : Nat) : Bool :=
  (s.cluster (clusterOf f.core)).icache.contains (icKey f.context va)

/-- Fetches the clause at an address whole (R12, R267). Where the second page of a clause cannot be read, the record names the
clause and, as its address, that of the clause's last word (DESIGN CHOICE, log 110). -/
def fetchClause (s : State) (f : Flight) (group : List Nat) (va : Nat) : Fetch :=
  match codeFail s f group va with
  | some x => .fail x
  | none =>
    let s := s.codePage f va
    if !(s.icHas f va) then .slip s
    else
      let (hw, s) := codeWords f va 1 s
      let h := hw.headD 0
      let n := (Clause.header h).len + 1
      match codeFail s f group (va + 4 * n) with
      | some x => .fail x
      | none =>
        let s := s.codePage f (va + 4 * n)
        if !(s.icHas f (va + 4 * n)) then .slip s
        else
          let (ws, s) := codeWords f (va + 4) n s
          .clause h ws s

/-! ## Starting a clause -/

/-- A clause about to start: its address, place in a macro body, issue group and words. -/
structure Candidate where
  addr : Nat
  body : Option Nat
  group : List Nat
  hw : Nat
  words : List Nat
  deriving DecidableEq, Repr

/-- The first operation of each thread that resumes within the clause (R208). -/
def Candidate.entries (k : Candidate) (f : Flight) : NMap Nat :=
  match k.body, f.body with
  | some pos, some b => b.entries.filterMap (fun p => if Nat.blt pos p.2 then some (p.1, p.2 - pos) else none)
  | _, _ => k.group.filterMap (fun i =>
      if (f.thread i).fromOp == 0 then none else some (i, (f.thread i).fromOp))

/-- Whether a thread of the group is in the active set: its guard holds, or it resumes within the clause or the body (R78,
R208). -/
def Candidate.takes (k : Candidate) (f : Flight) (h : Header) (i : Nat) : Bool :=
  (mget (k.entries f) i).isSome || h.guard == 15 || (f.pred i (BitVec.ofNat 4 h.guard) != h.sense)

/-- Flags that the header's `wait` names (R14). -/
def waitFlags (h : Header) : List Nat := (List.range 12).filter (fun k => h.wait.testBit k)

/-- Whether a flag has room for the clause's operations that name it, at a cycle (R75). -/
def flagRoom (f : Flight) (now : Nat) (h : Header) : Bool :=
  [h.seta, h.setb].all (fun k => k == 15
    || Nat.ble (f.flagSeen now k + (if h.seta == k then 1 else 0) + (if h.setb == k then 1 else 0)) 63)

/-- The breakpoint that a clause with a non-empty active set meets, if any; a clause of a macro body has no address of its own and
meets none (R337). -/
def breakAt (s : State) (f : Flight) (addr : Nat) : Option Nat :=
((s.ctxt f.context).bps.find? (fun p => p.2.addr.toNat == addr && addr != 0 && !(f.bpSkip.contains (p.1, addr))
    && (p.2.hall == 2 ^ 32 - 1 || (f.task.isNone && p.2.hall == f.hall)))).map (·.1)

/-- A trap raised at the clause before any operation (R12, R337). -/
def startTrap (s : State) (u : Nat) (f : Flight) (k : Candidate) (t : Trap) (index : Nat) : State :=
  let word := if index == 0 then k.hw else (k.words[index - 1]?).getD 0
  s.freezeTrap u f t (match k.body with | some _ => 1 | none => index) (k.body.map (· + index)) word k.addr []

/-- A hall has started when its first flight starts its first clause (R184). -/
def State.markStarted (s : State) (f : Flight) : State :=
  match mget s.galleries f.gallery with
  | some g =>
    if f.task.isNone && f.index == 0 then
      s.setGallery f.gallery { g with halls := mmod g.halls f.hall (fun h => { h with started := true }) }
    else s
  | none => s

/-- The clause starts: one issue slot (R78, R79, R190, R191, R264). An empty active set moves its threads on and takes 1 cycle
of the datapath. -/
def beginClause (s : State) (u : Nat) (f : Flight) (k : Candidate) (h : Header) (active : List Nat) : State :=
  let c : ClauseRun :=
    { addr := BitVec.ofNat 64 k.addr, hdr := h, words := k.words, next := 1, group := k.group, active := active
      entry := k.entries f, moved := [], above := f.choice.any (fun i => Nat.blt k.addr (f.thread i).pc.toNat)
      backward := false, yielded := false, body := k.body, began := s.cycAt f.core, vacant := active.isEmpty
      handler := f.inHandler }
  let apart := f.threads.any (fun p => Flight.runnable p.2 && p.2.pc.toNat != k.addr)
  let skip := if k.body.isSome then f.bpSkip else f.bpSkip.filter (fun n => n.2 != k.addr)
  let held := f.waitHeld
  let f := { f with bpSkip := skip, waiting := 0, overdue := false, waitHeld := 0, stall := none }
  let s := (((s.count f 0x01 1).count f 0x0A (if apart then 1 else 0)).sample f.core f.context 3 held).markStarted f
  match c.nextActive k.words.length 1 with
  | some n => s.setFlight u { f with clause := some { c with next := n } }
  | none =>
    let q := s.quarter f.core f.quarter
    (s.setQuarter f.core f.quarter { q with freeAt := s.cycAt f.core + 1 }).setFlight u (f.endClause { c with active := [] })

/-- A clause's `wait` holds it from the cycle noted, the first in which the datapath is free of what the flight issued before and
the start test fails (R335). -/
def Flight.holdWait (f : Flight) (now : Nat) : Flight :=
  { f with waitFrom := if f.waitFrom == 0 then max now f.opEnd + 1 else f.waitFrom }

/-- A clause's `wait` holds it no longer (R335). -/
def Flight.endWait (f : Flight) (now : Nat) : Flight :=
  if f.waitFrom == 0 then f else { f with waitHeld := f.waitHeld + (now + 1 - f.waitFrom), waitFrom := 0 }

/-- Tries to start a clause whose words are at hand: legality (R12), waits (R75), a late fault that its `wait` delivers (R147,
R288), flag capacity (R75) and breakpoints (R337). -/
def tryStart (s : State) (u : Nat) (f : Flight) (k : Candidate) : State :=
  match Clause.decode f.level f.lane k.hw k.words with
  | .error n => startTrap s u f k ⟨.illegal, 0, 0, 0, k.group⟩ n
  | .ok (h, _) =>
    let now := s.cycAt f.core
    if (waitFlags h).any (fun x => f.flagSeen now x != 0) then
      s.setFlight u { f.holdWait now with stall := some .flag }
    else
      let f := f.endWait now
      match firstLate (f.late.filter (fun l => (waitFlags h).contains l.flag)) with
      | some l => s.deliverLate u f l 0
      | none =>
        if !(flagRoom f now h) then s.setFlight u { f with stall := some .flag }
        else
          let active := k.group.filter (k.takes f h)
          match active, k.body, breakAt s f k.addr with
          | _ :: _, none, some n => startTrap s u f k ⟨.bkpt, 0, 0, 0x80 + n, active⟩ 0
          | _, _, _ => beginClause s u f k h active

/-- Whether a WAITGE poll of the clause at an address still has its reads out, or holds it (R142). -/
def pollBlocks (s : State) (f : Flight) (addr : Nat) : Bool :=
  f.pollsOut.any (fun p => p.2.addr == addr) || Nat.blt (s.cycAt f.core) (mgetD f.pollHold addr 0)

/-- A body that no thread runs on is over. -/
def Flight.dropBody (f : Flight) : Flight :=
  match f.body with
  | some b => if (bodyGroup f b).isEmpty then { f with body := none } else f
  | none => f

/-- Starts the next clause of a macro body (R169); where the control store as loaded again holds no word for it, the macro is
absent and its fault is raised at the MCALL (R38). -/
def startBody (s : State) (u : Nat) (f : Flight) (b : BodyRun) : State :=
  let group := bodyGroup f b
  let addr := ((f.minPc group).getD 0)
  if pollBlocks s f addr then s.setFlight u { f with stall := some .nap }
  else
    match b.words.drop b.pos with
    | [] => s.freezeTrap u f ⟨.macroFault, 0, 0, 0, group⟩ 1 (some b.pos) b.call addr []
    | hw :: ws => tryStart s u f ⟨addr, some b.pos, group, hw, ws.take ((Clause.header hw).len + 1)⟩

/-- Starts the clause at the issue address (R190). -/
def startAt (s : State) (u : Nat) (f : Flight) (addr : Nat) : State :=
  let group := f.group addr
  if pollBlocks s f addr then s.setFlight u { f with stall := some .nap }
  else
    match fetchClause s f group addr with
    | .fail (t, none) => s.freezeTrap u f t 0 none 0 addr []
    | .fail (t, some key) => missTrap s u f t key f.core 0 none 0 addr []
    | .slip s => (s.setFlight u { f with slip := true }).count f 0x30 1
    | .clause hw ws s => tryStart s u f ⟨addr, none, group, hw, ws⟩

/-- The flight's next clause starts, in its macro body or at its issue address, or the flight holds, slips or traps (R12, R75,
R190). -/
def startNext (s : State) (u : Nat) (f : Flight) : State :=
  let g := f.dropBody
  match g.body, g.issueAddr with
  | some b, _ => startBody s u g b
  | none, some a => startAt s u g a
  | none, none => s.setFlight u g

/-- CLAUSE_START: the selected flight, chosen by its quarter, starts its next clause (R190, R264). -/
def execClauseStart (s : State) : Res :=
  match s.cur.bind (fun u => (mget s.flights u).map (fun f => (u, f))) with
  | none => .next s.idle
  | some (u, f) =>
    if f.clause.isSome || !(s.chosen u f) || deliverable f then .next s.idle
    else .next (startNext s u f)

/-! ## Fairness (R191) -/

/-- The address a turn goes to: the lowest PC above the minimum and above the base, else the lowest above the minimum. -/
def turnAddr (f : Flight) (rn : List Nat) : Option Nat :=
  match f.minPc rn with
  | none => none
  | some m =>
    let higher := fun (x : Nat) => f.minPc (rn.filter (fun i => Nat.blt x (f.thread i).pc.toNat))
    match higher (max m f.turnBase) with
    | some h => some h
    | none => higher m

/-- FAIRNESS_TIMER_EXPIRY: a turn begins for the next higher group, if there is one, and the timer restarts (R80, R191). -/
def execFairnessTimerExpiry (s : State) : Res :=
  match s.cur.bind (fun u => (mget s.flights u).map (fun f => (u, f))) with
  | none => .next s.idle
  | some (u, f) =>
    match f.fairDue with
    | none => .next s.idle
    | some rn =>
      let g := { f with fairDue := none, fairC := 0 }
      match turnAddr f rn with
      | none => .next (s.setFlight u g)
      | some h =>
        let ts := rn.filter (fun i => (f.thread i).pc.toNat == h)
        .next ((s.setFlight u { g with turn := some (ts, 0), turnBase := h }).count f 0x0B 1)

/-! ## Naps, yields and the scheduler's clocks -/

/-- A step on a flight that asks a condition of it. -/
def onFlight (s : State) (u : Nat) (ok : Flight → Bool) (k : Flight → State) : Res :=
  match mget s.flights u with
  | none => .next s.idle
  | some f => if ok f then .next (k f) else .next s.idle

/-- Whether a thread's nap is over at a cycle (R121). -/
def napOver (now : Nat) (t : Thread) : Bool := t.st == .napping && Nat.ble t.napEnd now

/-- NAP_END: threads whose nap is over are ready at the next clause (R121). -/
def execNapEnd (flight : Nat) (s : State) : Res :=
  onFlight s flight (fun f => f.threads.any (fun p => napOver (s.cycAt f.core) p.2)) fun f =>
    let now := s.cycAt f.core
    (s.setFlight flight { f with
      threads := mmapv (fun t => if napOver now t then { t with st := .ready, napEnd := 0 } else t) f.threads }).wake

/-- YIELD_PERIOD_END: the 32 cycles after a YIELD are over (R120). -/
def execYieldPeriodEnd (flight : Nat) (s : State) : Res :=
  onFlight s flight (fun f => f.yieldEnd != 0 && Nat.ble f.yieldEnd (s.cycAt f.core)) fun f =>
    s.setFlight flight { f with yieldEnd := 0 }

/-- FLIGHT_OVERDUE: eligible and not chosen for 4,096 consecutive cycles (R264). -/
def execFlightOverdue (flight : Nat) (s : State) : Res :=
  onFlight s flight (fun f => Nat.ble 4096 f.waiting && !f.overdue) fun f =>
    s.setFlight flight { f with overdue := true }

/-- The permission count after a window with score a (R265). -/
def nextPerm (n a : Nat) : Nat := if Nat.ble 128 a then max 1 (n / 2) else if Nat.blt a 32 then min 16 (n + 1) else n

/-- THROTTLE_WINDOW_END: at the end of a window of 1,024 cycles the permission count follows the scores, which are cleared
(R265). -/
def execThrottleWindowEnd (core quarter : Nat) (s : State) : Res :=
  let q := s.quarter core quarter
  if Nat.blt (s.cycAt core) (q.windowStart + 1024) then .next s.idle
  else
    let a := ((s.inQuarter core quarter).map (fun p => p.2.score)).sum + q.left
    let s := { s with flights := mmapv (fun (f : Flight) =>
      if f.core == core && f.quarter == quarter then { f with score := 0 } else f) s.flights }
    .next ((s.setQuarter core quarter { q with perm := nextPerm q.perm a, windowStart := q.windowStart + 1024, left := 0 }).wake)

/-- The lines that the clause at an address needs, once its header can be read (R267). -/
def clauseLines (s : State) (f : Flight) (va : Nat) : List Nat :=
  let hw := s.numAt (s.locate f va).pa 4
  [icKey f.context va, icKey f.context (va + 4 * ((Clause.header hw).len + 1))]

/-- ICACHE_FILL: the missing lines of the clause at the issue address arrive (R267). -/
def execIcacheFill (flight : Nat) (s : State) : Res :=
  onFlight s flight (fun f => f.slip) fun f =>
    let s1 := match f.issueAddr with
      | some a => s.icFill (clusterOf f.core) (clauseLines s f a)
      | none => s
    s1.setFlight flight { f with slip := false }

/-! ## Delivery of instability records (R204, R205) -/

/-- A thread enters its handler: the link is saved sibling by sibling, v14:v15 take the token, and the PC the handler's
address (R205). -/
def Flight.enterHandler (handler : Nat) (f : Flight) (slot : Nat) : Flight :=
  let t := f.thread slot
  let lo := f.copies slot 14
  let hi := f.copies slot 15
  let f := (f.writeReg false false 14 [(slot, Tri.rep (loHalf t.pc))]).writeReg false false 15 [(slot, Tri.rep (hiHalf t.pc))]
  f.modThread slot (fun t => { t with
    handler := true, token := t.pc, hlink := (lo.zip (fun a b => pairOf a b) hi).toList
    pc := BitVec.ofNat 64 handler, fromOp := 0, fromBody := none })

/-- The trap code of an instability condition with no handler (R286). -/
def condTrap (icause : Nat) : TrapCode := match icause % 4 with | 1 => .instC | 2 => .instD | _ => .instZ

/-- Reports the records of one condition to system software and freezes the flight (R205). -/
def reportRecords (s : State) (u : Nat) (code : TrapCode) : State :=
  match mget s.flights u with
  | none => s
  | some f =>
    let ts := (recorded f).filter (fun i => condTrap (((f.thread i).inst.map (·.icause)).getD 0) == code)
    match ts.head?.bind (fun i => (f.thread i).inst) with
    | none => s
    | some r =>
      let body := if r.iop / 512 == 1 then some (r.iop / 16 % 32) else none
      s.freezeTrap u f ⟨code, 0, 0, 0, ts⟩ (if body.isSome then 1 else r.iop % 16) body r.iword.toNat r.iclause.toNat []

/-- The names that a delivery maps: v14 and v15 where they are not mapped (R194, R205). -/
def linkNames (f : Flight) : List Nat := f.unmapped [14, 15]

/-- INSTABILITY_DELIVERY: at the flight's issue opportunity every recorded thread enters the handler, or without one the flight
freezes (R204, R205). A macro body in progress is left: each of its threads has its own resume point. The link registers that the
delivery maps are drawn like any other, and a flight that cannot draw them holds (R196); the declared peak does not stop a
delivery, which is no operation (DESIGN CHOICE, log 86). A yield that an earlier clause of the body asked for is forgotten with the
body (DESIGN CHOICE, log 116). -/
def execInstabilityDelivery (flight : Nat) (s : State) : Res :=
  onFlight s flight (fun f => deliverable f && s.chosen flight f) fun f =>
    let handler := match mget s.galleries f.gallery with | some g => g.desc.handler | none => 0
    let n := f.footprint + (linkNames f).length
    let g := { f with body := none }
    if handler == 0 then [.instC, .instD, .instZ].foldl (fun s c => reportRecords s flight c) (s.setFlight flight g)
    else if !(s.canMap flight f n) then s.setFlight flight { f with stall := some .register }
    else
      let exp := ([14, 15].filter (fun m => f.expands m false)).length
      let s := (s.count f 0x33 exp).count f 0x32 ((n - f.typical) - State.drawnOf f)
      (s.setFlight flight ((recorded f).foldl (Flight.enterHandler handler) g)).wake

end Sys2Proof.Machine
end

