-- ==== Sys2Proof/Machine/Complete.lean ====
section
/-! DEFINITION. What completes after issue: loads (spec/03_isa_integer.md R76, R77), atomics (spec/05_isa_memory.md R134 to
R137; spec/12_memory_model.md R233, R237, R238), engine chunks and the matrix unit (spec/06_isa_engines.md R145 to R148, R155;
spec/10_validation.md R215, R216), polls (R142), acknowledgements (R244) and writes of other modules (R229, R230). -/

namespace Sys2Proof.Machine

/-- A step on an entry of a resident flight that asks a condition of it. -/
def onEntry (s : State) (u id : Nat) (ok : Flight → Entry → Bool) (k : Flight → Entry → State) : Res :=
  match (mget s.flights u).bind (fun f => (f.entry? id).map (fun e => (f, e))) with
  | none => .next s.idle
  | some (f, e) => if ok f e then .next (k f e) else .next s.idle

/-! ## Loads (R76, R128, R244) -/

/-- The columns of a load's destinations: for register j, the threads' words of each sibling. -/
def loadColumns (n : Nat) (vals : NMap (List (List Word))) : List (List (Nat × Tri Word)) :=
  (List.range n).map (fun j => vals.map (fun p =>
    (p.1, Tri.of (fun k => ((((p.2[k]?).getD [])[j]?).getD 0)))))

/-- Whether a load's values are all at hand. -/
def loadDone (e : Entry) : Bool :=
  match e.pay with
  | .load _ _ _ _ => true
  | .bindLoad _ _ parked => parked.isEmpty
  | _ => false

/-- Whether an entry's load has U = 1, as its word gives it (R133). -/
def Entry.isUniform (e : Entry) : Bool :=
  match decodeWord e.word with
  | .ok (.ld u _ _ _ _ _) => u
  | .ok (.lds u _ _ _ _) => u
  | .ok (.ldc u _ _ _ _) => u
  | _ => false

/-- A load's write-back and completion: destinations written, scoreboard bits cleared, the flag lowered (R76, R77). -/
def finishLoad (f : Flight) (e : Entry) : Flight :=
  match e.pay with
  | .load _ u dests vals => (writeBack f u e dests (loadColumns dests.length vals)).complete e
  | .bindLoad dests vals _ => (writeBack f e.isUniform e dests (loadColumns dests.length vals)).complete e
  | _ => f

/-- LOAD_COMPLETE of a load that is not still to be issued again (R76, R128). Monitor quantity 0 samples LD (R335). -/
def execLoadComplete (flight entry : Nat) (s : State) : Res :=
  onEntry s flight entry (fun _ e => loadDone e && !e.replay) fun f e =>
    let s1 := s.setFlight flight ((finishLoad f e).lowerAt (s.cycAt f.core) e.flag)
    let s2 := if bits e.word 31 26 == 0x27 then s1.sample f.core f.context 0 (s.cycAt f.core - e.issued) else s1
    s2.wake

/-! ## Atomics -/

/-- Requests of an atomic entry. -/
def atomRequests (e : Entry) : List AtomReq :=
  match e.pay with
  | .atom _ _ _ _ rs => rs
  | .atoms _ _ _ _ rs => rs
  | _ => []

/-- The requests of an entry that are not performed. -/
def undone (s : State) (u id : Nat) : Nat :=
  match (mget s.flights u).bind (fun f => f.entry? id) with
  | some e => ((atomRequests e).filter (fun r => !r.done)).length
  | none => 0

/-- The width of an atomic's location. -/
def atomBytes (e : Entry) : Nat :=
  match e.pay with
  | .atom _ op _ _ _ => op.bytes
  | _ => 0

/-- Whether an entry's use is `.nord`. -/
def Entry.isNord (e : Entry) : Bool :=
  match e.pay with
  | .atom _ _ use _ _ => use == .nord
  | _ => false

/-- Whether an atomic goes before a saved flight's request: an earlier one of the flight that is not performed, or one outstanding at
the core that made it (R239). -/
def State.savedBehind (s : State) (f : Flight) (e : Entry) (q : AtomReq) : Bool :=
  let n := atomBytes e
  let meets := fun (lo len : Nat) => Nat.blt lo (q.pa + n) && Nat.blt q.pa (lo + len)
  f.entries.any (fun x => Nat.blt x.id e.id && !x.isNord && (atomRequests x).any (fun r => !r.done && meets r.pa (atomBytes x)))
    || s.requests.any (fun r => Nat.blt r.entry e.id && ((r.core == f.core && r.win.isNone && r.use != .nord && meets r.lo r.len)
      || s.goesFirst f.core (s.cover f.core e.id (locBytes q.pa n)) r))

/-- A saved flight's atomic that a full ring, or an atomic that goes before it, kept from its bank is performed there, or suppressed by
its receipt (R239, R247, R273, R284). -/
def State.performSaved (s : State) (f : Flight) (e : Entry) : List AtomReq × State :=
  match e.pay with
  | .atom _ op use _ rs =>
    rs.zipIdx.foldl (fun a p =>
      let (q, ix) := p
      if q.done || a.2.savedBehind f e q || (!(a.2.canRecord q.pa) && (a.2.receiptFor e rs ix q.pa).isNone) then (a.1 ++ [q], a.2)
      else
        match a.2.receiptFor e rs ix q.pa with
        | some x => (a.1 ++ [{ q with done := true, old := x.old }], a.2)
        | none =>
          let r := (a.2.reach (clusterOf f.core) (q.pa / 64)).performAt f e op (use != .quant) q
          (a.1 ++ [r.1], r.2)) ([], s)
  | _ => (atomRequests e, s)

/-- What a core owes since it owed `before` writes, for the entries of a flight: it goes with the flight (R233). -/
def State.takeOwed (s : State) (f : Flight) (before : Nat) : List (Nat × Nat) × State :=
  let k := s.core f.core
  let mine := fun (p : Nat × Nat) => (s.coOf p.1).any (fun w => w.stamp == p.2 && (f.entry? w.id).isSome)
  let new := k.owed.drop before
  (new.filter mine, s.setCore f.core { k with owed := k.owed.take before ++ new.filter (fun p => !(mine p)) })

/-- Replaces an atomic entry's requests. -/
def Entry.withReqs (e : Entry) (rs : List AtomReq) : Entry :=
  match e.pay with
  | .atom post op use d _ => { e with pay := .atom post op use d rs }
  | .atoms op use d w _ => { e with pay := .atoms op use d w rs }
  | .tjoin _ => { e with pay := .tjoin rs }
  | _ => e

/-- The saved context that holds a flight, if any. -/
def State.savedIn (s : State) (u : Nat) : Option (Nat × Context × Saved × Flight) :=
  (s.contexts.filterMap (fun p =>
    match p.2.saved with
    | some v => (mget v.flights u).map (fun f => (p.1, p.2, v, f))
    | none => none)).head?

/-- Changes a saved flight. -/
def State.modSaved (s : State) (context u : Nat) (g : Flight → Flight) : State :=
  let x := s.ctxt context
  match x.saved with
  | some v => s.setCtxt context { x with saved := some { v with flights := mmod v.flights u g } }
  | none => s

/-- ATOMIC_PERFORM: the requests of an ATOM, ATOMS or POST are performed at their agent, where the banks can record them, each
behind what goes before it (R233, R237, R239, R284). A `.quant` POST waits for its core's phase boundary (R136, R233). -/
def execAtomicPerform (flight entry : Nat) (s : State) : Res :=
  match mget s.flights flight with
  | some f =>
    let t := s.performEntry flight entry
    let held := match f.entry? entry with | some e => e.heldPost | none => true
    if !held && Nat.blt (undone t flight entry) (undone s flight entry) && s.recordedWell t then .next t.wake else .next s.idle
  | none =>
    match s.savedIn flight with
    | none => .next s.idle
    | some (c, _, _, f) =>
      match f.entry? entry with
      | none => .next s.idle
      | some e =>
        let p := s.performSaved f e
        let q := p.2.takeOwed f (s.core f.core).owed.length
        if (atomRequests e).any (fun r => !r.done) && p.1 != atomRequests e && s.recordedWell p.2 then
          .next (q.2.modSaved c flight (fun g => { g.setEntry (e.withReqs p.1) with owed := g.owed ++ q.1 }))
        else .next s.idle

/-- A returning atomic's old value and, for `.spec`, its status, as columns of the destinations (R135, R137). A refused thread
keeps its first half. -/
def atomColumns (op : AtomOp) (n : Nat) (rs : List AtomReq) : List (List (Nat × Tri Word)) :=
  let k := op.bytes / 4
  (List.range n).map (fun j =>
    if Nat.blt j k then
      (rs.filter (fun r => !r.refused)).map (fun r => (r.slot, Tri.rep (((natWords k r.old)[j]?).getD 0)))
    else rs.map (fun r => (r.slot, Tri.rep (if j == k && r.refused then 1 else 0))))

/-- A returning atomic writes back: old values in every sibling, the flag lowered (R76, R134). -/
def finishAtom (f : Flight) (e : Entry) : Flight :=
  match e.pay with
  | .atom false op _ dests rs => (writeBack f false e dests (atomColumns op dests.length rs)).complete e
  | .atoms op _ dests _ rs => (writeBack f false e dests (atomColumns op dests.length rs)).complete e
  | _ => f

/-- After an ATOM returns, the core's snapshot holds no copy older than its effect (R134); `.nord` leaves it as it is (R233). -/
def State.seeAtom (s : State) (f : Flight) (e : Entry) : State :=
  ((if e.isNord then [] else (atomRequests e).filter (fun r => !r.refused)).map (fun r => locBytes r.pa (atomBytes e))).flatten.foldl (fun s b =>
    match (s.coOf b).find? (fun w => w.id == e.id) with
    | some w => s.raiseFloor f.core b w.stamp
    | none => s) s

/-- Whether an entry is a returning atomic whose requests are all performed or refused. -/
def atomReady (e : Entry) : Bool :=
  match e.pay with
  | .atom false _ _ _ rs => rs.all (·.done)
  | .atoms _ _ _ _ rs => rs.all (·.done)
  | _ => false

/-- A returning atomic's entry is released with its receipts, its latency sampled and its values folded into the signature
(R244, R318, R335, R340). -/
def State.returnAtom (s : State) (u : Nat) (f : Flight) (e : Entry) : State :=
  let g := finishAtom f e
  let g := g.knowSig e.id (sigAtomic ((atomRequests e).map (·.old)))
  let s := (s.setFlight u (g.lowerAt (s.cycAt f.core) e.flag)).seeAtom f e
  let s := match e.pay with
    | .atom _ _ _ _ _ => s.retireTag f.context e.tag
    | _ => s
  s.sample f.core f.context 1 (s.cycAt f.core - e.issued)

/-- ATOM_RETURN (R134, R76). -/
def execAtomReturn (flight entry : Nat) (s : State) : Res :=
  onEntry s flight entry (fun _ e => atomReady e && !e.replay) fun f e => (s.returnAtom flight f e).wake

/-- LEASE_RECALL: the engine finishes the requests it has accepted on a recalled line and returns the line (R238). -/
def execLeaseRecall (cluster line : Nat) (s : State) : Res :=
  if !((s.cluster cluster).leases.any (fun l => l.line == line && l.recalled)) then .next s.idle
  else
    let t := s.performWhere .recall (fun r => r.win.isNone && !r.post && r.line == line && clusterOf r.core == cluster)
    if s.recordedWell t then
      let k := t.cluster cluster
      .next ((t.setCluster cluster { k with leases := k.leases.filter (fun l => l.line != line) }).wake)
    else .next s.idle

/-! ## Engine chunks (R145 to R148) -/

/-- Whether an engine entry's next step can happen now: it is not parked nor to be sent again, and no earlier entry of the
window conflicts with it (R145, R147). -/
def State.engineFree (s : State) (f : Flight) (x : Entry) (e : Engine) : Bool :=
  x.parked.isNone && !x.replay && !(s.engineBlocked f.core x.id e)

/-- Counts a chunk of an engine entry as performed. -/
def State.chunkDone (s : State) (u : Nat) (x : Entry) (e : Engine) : State :=
  s.modFlight u (fun g => g.setEntry { x with done := x.done + 1, pay := .engine e })

/-- Finishes an engine entry whose last chunk has been performed (R148). -/
def State.finishIfLast (s : State) (u : Nat) (x : Entry) (e : Engine) : State :=
  if Nat.ble e.total (x.done + 1) then s.finishEngine u x.id else s

/-- Queued operations whose store conflicts have cleared begin to fetch their store operands (R216). -/
def State.startFetches (s : State) (core : Nat) : State :=
  let now := s.cycAt core
  (List.range 8).foldl (fun s i =>
    let c := 8 * clusterOf core + i
    (List.range 4).foldl (fun s q => (s.quarter c q).mq.foldl (fun s p =>
      match (mget s.flights p.1).bind (fun f => f.entry? p.2) with
      | some x =>
        (match x.pay with
         | .engine e =>
           if e.fetchAt == 0 && !(s.engineBlocked c x.id e) then
             s.modFlight p.1 (fun g => g.setEntry { x with pay := .engine { e with fetchAt := now + 1 } })
           else s
         | _ => s)
      | none => s) s) s) s

/-- The end of a chunk on global memory: performed, parked behind a missing page, or the operation stopped (R147). None where
a full miss table leaves it waiting (R293). -/
def State.chunkEnd (s : State) (u : Nat) (f : Flight) (x : Entry) : Chunk → Option State
  | .next e s' => some (((s'.chunkDone u x e).finishIfLast u x e).startFetches f.core).retest
  | .miss key a cause =>
    if (s.missOf (dieOf f.core) key).isNone && s.missFull (dieOf f.core) then none
    else some (s.parkEngine u x.id key a x.done cause)
  | .stop code a => some ((s.stopEngine u x.id code.num a x.done).startFetches f.core).retest

/-- Whether a CFIRE entry is complete: its source is read, or one cycle has passed where it fires nothing (R168). -/
def State.fireDone (s : State) (f : Flight) (x : Entry) (e : Engine) : Bool :=
  if e.total == 0 then Nat.blt x.issued (s.cycAt f.core)
  else
    match (mget s.galleries f.gallery).bind (fun g => g.coll.bind (fun i => mget s.colls i)) with
    | some c => c.sourceDone e.src
    | none => true

/-- The next chunk of an engine entry (R148); none where it cannot be performed now. -/
def State.engineStep (s : State) (u : Nat) (f : Flight) (x : Entry) (e : Engine) : Option State :=
  if e.kind == .cfire then (if s.fireDone f x e then some (s.finishEngine u x.id) else none)
  else if Nat.ble e.total x.done then some (s.finishEngine u x.id)
  else
    match e.kind with
    | .g2s | .s2g | .s2s => s.chunkEnd u f x (copyChunk s f x e x.done)
    | .gath => s.chunkEnd u f x (gathChunk s f x e x.done)
    | .g2v => s.chunkEnd u f x (g2vChunk s f x e x.done)
    | .spawn => (spawnChunk s f x.core e x.done).map (fun s' => (s'.chunkDone u x e).finishIfLast u x e)
    | _ => none

/-- ENGINE_CHUNK: an engine operation outside the matrix unit performs its next chunk, once the banks it reaches serve it; the last
one completes it (R148, R238). -/
def execEngineChunk (flight entry : Nat) (s : State) : Res :=
  match (mget s.flights flight).bind (fun f => (f.entry? entry).map (fun x => (f, x))) with
  | none => .next s.idle
  | some (f, x) =>
    match x.pay with
    | .engine e =>
      if !(s.engineFree f x e) then .next s.idle
      else
        match s.engineStep flight f x e with
        | some s' => s.banked s'.wake
        | none => .next s.idle
    | _ => .next s.idle

/-! ## The matrix unit (R155, R215, R216) -/

/-- Removes the head of a matrix unit's queue. -/
def State.popMatrix (s : State) (core q : Nat) : State :=
  let x := s.quarter core q
  (s.setQuarter core q { x with mq := x.mq.drop 1 }).wake

/-- The head of the queue begins: its store operands are fetched, then it holds the unit for its cycles (R215, R216). -/
def State.beginMatrix (s : State) (u core q : Nat) (f : Flight) (x : Entry) (e : Engine) : State :=
  let now := s.cycAt core
  let start := max now ((if e.fetchAt == 0 then now else e.fetchAt - 1) + e.fetch)
  let s := s.modFlight u (fun g => g.setEntry { x with pay := .engine { e with started := true } })
  let k := s.quarter core q
  (s.setQuarter core q { k with busyUntil := start + chunkCost f e x.done }).wake

/-- The begun head's chunk is performed; the last completes it, and raises the flags of all of them (R148, R157 to R161). -/
def State.performChunk (s : State) (u core q : Nat) (f : Flight) (x : Entry) (e : Engine) : State :=
  let p := if Nat.ble e.total x.done then (e, s) else
    let p := matrixChunk s u f x.core e x.done
    (p.1, p.2.chunkDone u x p.1)
  if Nat.ble e.total (x.done + 1) then
    ((((p.2.modFlight u (fun g => g.raise p.1.fl)).finishEngine u x.id).popMatrix core q).startFetches core).retest
  else p.2

/-- The begun head performs its next chunk, and then holds the unit for the one that follows (R148, R215). -/
def State.stepMatrix (s : State) (u core q : Nat) (f : Flight) (x : Entry) (e : Engine) : State :=
  let t := s.performChunk u core q f x e
  if Nat.ble e.total (x.done + 1) then t
  else
    let k := t.quarter core q
    t.setQuarter core q { k with busyUntil := k.busyUntil + chunkCost f e (x.done + 1) }

/-- MATRIX_UNIT_OPERATION: the unit takes its next queued operation, or goes on with the one it holds, once it is free and the
operation's store conflicts have cleared (R145, R155, R215). -/
def execMatrixUnitOperation (core quarter : Nat) (s : State) : Res :=
  let k := s.quarter core quarter
  match k.mq with
  | [] => .next s.idle
  | (u, id) :: _ =>
    if Nat.blt (s.cycAt core) k.busyUntil then .next s.idle
    else
      match (mget s.flights u).bind (fun f => (f.entry? id).map (fun x => (f, x))) with
      | none => .next (s.popMatrix core quarter)
      | some (f, x) =>
        match x.pay with
        | .engine e =>
          if x.replay || s.engineBlocked core id e then .next s.idle
          else if !e.started then .next (s.beginMatrix u core quarter f x e)
          else .next (s.stepMatrix u core quarter f x e)
        | _ => .next (s.popMatrix core quarter)

/-! ## Polls (R142, R180) -/

/-- A thread whose poll passes goes on. -/
def passPoll (p : Poll) (t : Thread) : Thread :=
  { t with st := .ready, pc := p.next, fromOp := 0, fromBody := p.nextBody, polls := 0 }

/-- A thread whose poll fails stays at the clause, runnable. -/
def failPoll (p : Poll) (t : Thread) : Thread :=
  { t with st := .polling, fromBody := p.stayBody, polls := t.polls + 1 }

/-- WAITGE_POLL_RETURN: the poll's reads return; passing threads go on and failing ones hold the clause for 16 cycles (R142). -/
def execWaitgePollReturn (flight poll : Nat) (s : State) : Res :=
  match (mget s.flights flight).bind (fun f => (mget f.pollsOut poll).map (fun p => (f, p))) with
  | none => .next s.idle
  | some (f, p) =>
    let stay := p.group.filter (fun i => !(p.pass.contains i))
    let g := (f.modThreads p.pass (passPoll p)).modThreads stay (failPoll p)
    let hold := if stay.isEmpty then g.pollHold else mset g.pollHold p.addr (s.cycAt f.core + 16)
    let s1 := s.setFlight flight { g with pollsOut := mdel g.pollsOut poll, pollHold := hold }
    let s2 := p.pass.foldl (fun s i => s.sample f.core f.context 4 ((f.thread i).polls + 1)) s1
    .next ((s2.count f 0x0D stay.length).wake)

/-! ## Acknowledgements (R244, R273) -/

/-- Whether a T entry's acknowledgement may reach the core: its requests are performed, and its own publication is acknowledged
(R230, R244, R273). -/
def State.ackable (s : State) (e : Entry) : Bool :=
  e.storeClass && !e.acked && e.sent.all (fun i => (mget s.fabricOut i).isNone) &&
    (match e.pay with
     | .atom _ _ _ _ rs => rs.all (·.done)
     | .tjoin rs => rs.all (·.done)
     | _ => true)

/-- A resident flight's T entry has reached its banks, which record the tag of an ST; its place in coherence order still comes with
a Publish (R228, R283; DEDUCED, log 88). -/
def State.reached (s : State) (e : Entry) : State :=
  match e.pay with
  | .store bytes _ => s.recordStore e.tag (bytes.map (·.1))
  | _ => s

/-- STORE_ACKNOWLEDGEMENT: a resident or saved flight's T entry is acknowledged once its banks have recorded it (R244, R273, R283,
R284); a saved flight's writes that a full ring kept from their banks take their places first. -/
def execStoreAcknowledgement (flight entry : Nat) (s : State) : Res :=
  match mget s.flights flight with
  | some _ => onEntry s flight entry (fun _ e => s.ackable e && !e.replay && s.recordedWell (s.reached e)) fun f e =>
      ((s.reached e).setFlight flight (f.setEntry { e with acked := true })).wake
  | none =>
    match s.savedIn flight with
    | none => .next s.idle
    | some (c, _, _, f) =>
      match f.entry? entry with
      | none => .next s.idle
      | some e =>
        let t := match e.pay with
          | .store bytes _ => s.settleWrite f.core e.id bytes
          | _ => s
        let settled := match e.pay with | .store bytes _ => !(t.pending f.core e.id bytes) | _ => true
        if t.ackable e && settled && s.recordedWell t then .next (t.modSaved c flight (fun g => g.setEntry { e with acked := true })) else .next s.idle

/-! ## Writes of other modules (R229, R230) -/

/-- FABRIC_WRITE_ARRIVAL: a write that a core of another module published at scope 4 is placed and published to this module's
cores, once the engine that holds its lines has returned them (R229, R238). -/
def execFabricWriteArrival (pa : Nat) (data : List (BitVec 8)) (s : State) : Res :=
  if State.inMap pa data.length then s.banked ((s.reachAll 48 (State.linesOf (locBytes pa data.length))).agentWrite foreignCores pa data)
  else .next s.idle

/-- FABRIC_WRITE_ACKNOWLEDGEMENT: one of a Publish(4)'s fabric writes is in (R230). -/
def execFabricWriteAcknowledgement (ident : Nat) (s : State) : Res :=
  match mget s.fabricOut ident with
  | some _ => .next ({ s with fabricOut := mdel s.fabricOut ident, wire := mdel s.wire ident }.wake)
  | none => .next s.idle

end Sys2Proof.Machine
end

