-- ==== Sys2Proof/Machine/Place.lean ====
section
/-! DEFINITION. Wings, halls and flights (spec/08_execution.md R182 to R187, R196; spec/16_compat.md R299, R302, R303), their
placement (spec/14_scheduling.md R259 to R263; spec/11_edit_distance.md R221, R222), hall start, task flights
(spec/06_isa_engines.md R164, R165) and retirement (spec/05_isa_memory.md R119). -/

namespace Sys2Proof.Machine

/-! ## Shapes (R182, R183, R185, R221, R299) -/

/-- Threads of a hall (R182). -/
def hallSize (r : LaunchRec) : Nat := r.tx * r.ty * r.tz

/-- Threads of a flight (R185, R186). -/
def flightWidth (d : Desc) : Nat := if d.lane && !d.narrow then 96 else 32

/-- Flights of a hall (R185). -/
def flightCount (r : LaunchRec) (d : Desc) : Nat := (hallSize r + flightWidth d - 1) / flightWidth d

/-- The slot of a hall thread in its flight (R185, R299). -/
def slotFor (d : Desc) (h : Nat) : Nat :=
  let m := h % flightWidth d
  if d.narrow && d.lane && Nat.ble 16 m then 48 + (m - 16) else m

/-- Dimensions of a gallery in wings (R183). -/
def wingDims (r : LaunchRec) : Nat × Nat × Nat :=
  let up := fun a b => (a + b - 1) / b
  (up r.gx r.wx, up r.gy r.wy, up r.gz r.wz)

/-- Whether a launch asks for stacking (R221, R254). -/
def LaunchRec.stacked (r : LaunchRec) : Bool := r.flags.testBit 0

/-- Wings, or stacks, of a gallery (R183, R221). -/
def unitCount (r : LaunchRec) : Nat :=
  let d := wingDims r
  d.1 * d.2.1 * d.2.2 * (if r.stacked then 1 else r.storeys)

/-- The existing positions of a wing along one dimension. -/
def stretch (g w k : Nat) : List Nat := (List.range w).filterMap (fun i => if Nat.blt (k * w + i) g then some (k * w + i) else none)

/-- The halls of a wing or stack, in ascending linear index (R182, R183, R221). -/
def unitHalls (r : LaunchRec) (unit : Nat) : List Nat :=
  let d := wingDims r
  let per := d.1 * d.2.1 * d.2.2
  let w := unit % per
  let xs := stretch r.gx r.wx (w % d.1)
  let ys := stretch r.gy r.wy (w / d.1 % d.2.1)
  let zs := stretch r.gz r.wz (w / (d.1 * d.2.1))
  let ss := if r.stacked then List.range r.storeys else [unit / per]
  (ss.map (fun s => (zs.map (fun z => (ys.map (fun y => xs.map (fun x => x + r.gx * (y + r.gy * (z + r.gz * s)))))
    |>.flatten)).flatten)).flatten

/-! ## Flights -/

/-- A ready thread at an address (R55, R187). -/
def Thread.start (h t : Nat) (pc : Nat) : Thread :=
  { Thread.empty with hidx := h, t := t, st := .ready, pc := BitVec.ofNat 64 pc }

/-- A flight of a gallery's descriptor with nothing issued yet (R185, R191, R194). -/
def Flight.fresh (gid : Nat) (g : Gallery) (hall index core quarter slot age : Nat) (win : Option Nat) : Flight :=
  { context := g.context, gallery := gid, hall := hall, index := index, task := none, core := core, quarter := quarter
    slot := slot, age := age, lane := g.desc.lane, narrow := g.desc.narrow, level := g.desc.level, threads := [], regs := []
    sb := [], flags := [], window := 16 * g.desc.window, ctl := Ctl.start (g.desc.promise || g.desc.narrow), fairC := 0
    turn := none, turnBase := 0, fairDue := none, clause := none, body := none, stall := none, frozen := none
    debugFrozen := false, bpSkip := [], slip := false, yieldEnd := 0, pollHold := [], pollsOut := [], planes := none
    wantPlanes := false, entries := [], late := [], typical := 16 * g.desc.typical, peak := 16 * g.desc.peak, pyield := false
    waiting := 0, overdue := false, score := 0, sig := 0, sigq := [], seed := g.launch.seed, win := win
    winSize := if win.isSome then g.desc.store else 0, started := false, pubWait := none, owed := [], wrote := []
    waitFrom := 0, waitHeld := 0, lowered := [], leaving := false, opEnd := 0 }

/-- The threads of flight `index` of a hall (R55, R185). -/
def hallFlightThreads (g : Gallery) (hall index : Nat) : NMap Thread :=
  let n := hallSize g.launch
  let w := flightWidth g.desc
  (List.range w).foldl (fun m i =>
    let h := index * w + i
    if Nat.blt h n then mset m (slotFor g.desc h) (Thread.start h ((hall * n + h) % 2 ^ 48) g.desc.entry) else m) []

namespace State

/-- The slot that a quarter chooses for a flight (R2, R185): the lowest free one (DESIGN CHOICE, log 117). -/
def freeSlot (s : State) (core q : Nat) : Option Nat :=
  (List.range 16).find? (fun k => !((s.inQuarter core q).any (fun p => p.2.slot == k)))

/-- The slot that a flight of a typical footprint would be admitted to, if it can be (R196). -/
def admission (s : State) (core q typical : Nat) : Option Nat :=
  if Nat.ble (typical + s.holdback core q) (s.pool core q) then s.freeSlot core q else none

/-- Admits a flight to its quarter, in a slot that the quarter chooses (R185, R196). -/
def takeIn (s : State) (f : Flight) : Option (Nat × State) :=
  match s.admission f.core f.quarter f.typical with
  | none => none
  | some k =>
    let (u, s) := s.fresh
    some (u, (s.setFlight u { f with slot := k, age := u }).count f 0x0E 1)

/-- Admits the flights of a hall from an index on (R185). -/
def admitHall (s : State) (gid : Nat) (g : Gallery) (hall core : Nat) (win : Option Nat) : Nat → Nat → Option (List Nat × State)
  | _, 0 => some ([], s)
  | i, n + 1 =>
    let f := { Flight.fresh gid g hall i core (i % 4) 0 0 win with threads := hallFlightThreads g hall i }
    match s.takeIn f with
    | none => none
    | some (u, s) =>
      match s.admitHall gid g hall core win (i + 1) n with
      | none => none
      | some (us, s) => some (u :: us, s)

/-! ## Control stores (R38, R39, R302, R303) -/

/-- Bytes of global memory as a context reads them, at their banks; none where a page is missing or forbids it. -/
def readCtx (s : State) (core context va n : Nat) : Option (List Byte) :=
  match reachBytes s core context Want.load va n with
  | .ok pas => some (pas.map s.latest)
  | _ => none

/-- Whether a context has left its cores: it is saved and none of its flights is resident (R271). -/
def away (s : State) (context : Nat) : Bool :=
  (s.ctxt context).saved.isSome && !(s.flights.any (fun p => p.2.context == context))

/-- A valid macro of a table (R38, R39, R303). -/
def loadMacro (s : State) (core context table k : Nat) : Option (List Nat) :=
  match s.readCtx core context (table + 8 * k) 8 with
  | none => none
  | some e =>
    let w0 := recField e 0 4
    let off := recField e 4 4
    let n := bits w0 5 0
    if n == 0 || Nat.blt 32 n || w0 / 64 != 0 || off % 4 != 0 then none
    else
      match s.readCtx core context (table + off) (4 * n) with
      | none => none
      | some b =>
        let ws := (List.range n).map (fun i => recField b (4 * i) 4)
        if Clause.bodyFits 0 ws && !(Clause.bodyForbidden 0 ws) then some ws else none

/-- MACRO_TABLE_LOAD: a core's control store takes a gallery's table (R302, R303). -/
def loadStore (s : State) (core : Nat) (g : Gallery) : State :=
  if g.desc.level == 3 || g.desc.macros == 0 then s
  else
    let ms := (List.range 64).foldl (fun m k =>
      match s.loadMacro core g.context g.desc.macros k with
      | some ws => mset m k ws
      | none => m) []
    s.setCore core { s.core core with store := some ⟨g.context, g.desc.macros, ms⟩ }

/-- Whether a core's store suits a gallery: it is empty or holds the gallery's table (R302). -/
def storeSuits (s : State) (core : Nat) (g : Gallery) : Bool :=
  g.desc.level == 3 || g.desc.macros == 0 ||
    (match (s.core core).store with
     | none => true
     | some k => k.context == g.context && k.addr == g.desc.macros)

/-- Empties the control store of a core that the last hall using it has left (R302). -/
def dropStore (s : State) (core : Nat) : State :=
  match (s.core core).store with
  | none => s
  | some k =>
    let used := s.flights.any (fun p => p.2.core == core && p.2.context == k.context && p.2.task.isNone && p.2.level != 3 &&
      (match mget s.galleries p.2.gallery with | some g => g.desc.macros == k.addr | none => false))
    if used then s else s.setCore core { s.core core with store := none }

/-! ## Clusters and windows -/

/-- Bytes of the windows on a cluster (R260). -/
def windowTotal (s : State) (cl : Nat) : Nat := ((s.windows.filter (fun p => p.2.cluster == cl)).map (fun p => p.2.size)).sum

/-- Whether a cluster's cores run only contexts of a privilege (R260). -/
def privilegeSuits (s : State) (cl : Nat) (sys : Bool) : Bool :=
  (s.flights.filter (fun p => clusterOf p.2.core == cl)).all (fun p => (s.ctxt p.2.context).sys == sys)

/-- Whether a cluster has room for another window of a size (R260). -/
def roomFor (s : State) (cl size : Nat) : Bool := Nat.ble (s.windowTotal cl + size) (2 ^ 23)

/-! ## Task records that can be popped (R164, R165, R263) -/

/-- The lowest-numbered non-empty queue of a context on a die, with its first record. -/
def firstRecord (s : State) (context die : Nat) : Option (Nat × List Byte) :=
  ((List.range 8).filterMap (fun k => ((s.taskQ context die k).recs.head?).map (fun r => (k, r)))).head?

/-- The live gallery that owns a record (R163). -/
def owner (s : State) (context : Nat) (r : List Byte) : Option (Nat × Gallery) :=
  s.galleries.find? (fun p => p.2.context == context && !p.2.completed && ownedBy p.2 r)

/-- Where a task finds its window: one that exists, a new task window, or none (R165). -/
inductive TaskWindow where
  | have (w : Nat)
  | create
  | none
  deriving DecidableEq, Repr

/-- The least index of some windows. -/
def leastWindow (s : State) : List Nat → Option Nat
  | [] => Option.none
  | w :: ws =>
    match s.leastWindow ws with
    | Option.none => some w
    | some v =>
      let ix := fun x => match mget s.windows x with | some y => y.index | Option.none => 0
      if Nat.ble (ix w) (ix v) then some w else some v

/-- Windows of a gallery's halls that reside where a test says (R165). -/
def residentWindows (s : State) (gid : Nat) (here : Flight → Bool) : List Nat :=
  (s.flights.filterMap (fun p =>
    if p.2.gallery == gid && p.2.task.isNone && here p.2 then p.2.win else Option.none)).eraseDups

/-- TASK_WINDOW_BIND: the window of a task on a core, in R165's order. -/
def taskWindow (s : State) (gid : Nat) (g : Gallery) (core : Nat) : TaskWindow :=
  if g.desc.store == 0 then .none
  else
    match s.leastWindow (s.residentWindows gid (fun f => f.core == core)),
        s.leastWindow (s.residentWindows gid (fun f => clusterOf f.core == clusterOf core)) with
    | some w, _ => .have w
    | Option.none, some w => .have w
    | Option.none, Option.none => .create

/-- The record that a quarter may pop now for a context, with its queue and owner (R164, R165). -/
def popReady (s : State) (context core q : Nat) : Option (Nat × List Byte × Nat × Gallery) :=
  match if s.away context then Option.none else s.firstRecord context (dieOf core) with
  | Option.none => Option.none
  | some (k, r) =>
    match s.owner context r with
    | Option.none => Option.none
    | some (gid, g) =>
      let fits := (s.admission core q (16 * g.desc.typical)).isSome && s.privilegeSuits (clusterOf core) (s.ctxt context).sys
        && (s.taskWindow gid g core != .create || s.roomFor (clusterOf core) g.desc.store)
      if fits then some (k, r, gid, g) else Option.none

/-- Whether a core has a task record to pop before it takes a new hall of a class (R263). -/
def tasksFirst (s : State) (core cls : Nat) : Bool :=
  let cs := ((s.die (dieOf core)).taskqs.map (fun p => p.1 / 8)).eraseDups
  cs.any (fun c => (List.range 4).any (fun q =>
    match s.popReady c core q with
    | some (_, _, _, g) => Nat.ble g.launch.cls cls
    | Option.none => false))

/-! ## Placing a wing or stack (R260, R261) -/

/-- Whether a core is free for a hall (R260, R263, R302, R313). -/
def coreFree (s : State) (gid : Nat) (g : Gallery) (hall core : Nat) : Bool :=
  s.storeSuits core g && !(s.tasksFirst core g.launch.cls)
    && (match mget g.pins hall with | some c => c == core | Option.none => true)
    && (s.admitHall gid g hall core Option.none 0 (flightCount g.launch g.desc)).isSome

/-- Flights resident on a core. -/
def residents (s : State) (core : Nat) : Nat := (s.flights.filter (fun p => p.2.core == core)).length

/-- The core with the fewest resident flights, the lower number among equals (R260). -/
def emptiest (s : State) : List Nat → Option Nat
  | [] => Option.none
  | c :: cs =>
    match s.emptiest cs with
    | Option.none => some c
    | some b => if Nat.ble (s.residents c) (s.residents b) then some c else some b

/-- The cores that the halls of a unit take in a cluster, each a different one (R260). -/
def assign (s : State) (gid : Nat) (g : Gallery) (cl : Nat) : List Nat → List Nat → Option (List (Nat × Nat))
  | _, [] => some []
  | taken, h :: hs =>
    let free := ((List.range 8).map (8 * cl + ·)).filter (fun c => !taken.contains c && s.coreFree gid g h c)
    match s.emptiest free with
    | Option.none => Option.none
    | some c =>
      match s.assign gid g cl (c :: taken) hs with
      | Option.none => Option.none
      | some as => some ((h, c) :: as)

/-- The cores for a gallery's next wing or stack in a cluster that can take it (R260). -/
def clusterTakes (s : State) (gid : Nat) (g : Gallery) (cl : Nat) : Option (List (Nat × Nat)) :=
  if s.roomFor cl g.desc.store && s.privilegeSuits cl (s.ctxt g.context).sys then
    s.assign gid g cl [] (unitHalls g.launch g.nextWing)
  else Option.none

/-- Clusters where halls of the storey below the next wing reside (R261). -/
def clustersBelow (s : State) (gid : Nat) (g : Gallery) : List Nat :=
  let per := g.launch.gx * g.launch.gy * g.launch.gz
  let below := ((unitHalls g.launch g.nextWing).filter (fun h => Nat.ble per h)).map (fun h => h - per)
  (below.filterMap (fun h => (s.flights.find? (fun p => p.2.gallery == gid && p.2.task.isNone && p.2.hall == h)).map
    (fun p => clusterOf p.2.core))).eraseDups

/-- The first cluster of a list that can take the unit. -/
def firstTaker (s : State) (gid : Nat) (g : Gallery) : List Nat → Option (Nat × List (Nat × Nat))
  | [] => Option.none
  | cl :: cls =>
    match s.clusterTakes gid g cl with
    | some as => some (cl, as)
    | Option.none => s.firstTaker gid g cls

/-- The clusters in the order of search (R260, R261). -/
def searchOrder (s : State) (gid : Nat) (g : Gallery) : List Nat :=
  let from_ := g.lastCluster.getD s.lastCluster
  s.clustersBelow gid g ++ (List.range 48).map (fun i => (from_ + 1 + i) % 48)

/-- Whether a gallery's pass of a session has begun, where a session has it (R313). -/
def passOpen (s : State) (gid : Nat) (g : Gallery) : Bool :=
  !g.session || s.sessions.all (fun p => p.2.gallery != some gid || p.2.running)

/-- Where a gallery's next wing or stack goes now, if any cluster can take it (R260). -/
def placement (s : State) (gid : Nat) (g : Gallery) : Option (Nat × List (Nat × Nat)) :=
  if g.completed || g.ended.isSome || !(Nat.blt g.nextWing (unitCount g.launch)) || s.away g.context || !(s.passOpen gid g) then
    Option.none
  else s.firstTaker gid g (s.searchOrder gid g)

/-- The class that a gallery is served as (R259). -/
def serviceClass (g : Gallery) : Nat := if g.aged then 2 else g.launch.cls

/-- Whether another gallery is served first: more urgent, or of the same class and taken earlier, with a hall that can be
placed (R259). -/
def servedBefore (s : State) (gid : Nat) (g : Gallery) : Bool :=
  s.galleries.any (fun p => (Nat.blt (serviceClass p.2) (serviceClass g)
      || (serviceClass p.2 == serviceClass g && Nat.blt p.1 gid))
    && (s.placement p.1 p.2).isSome)

/-- A core's L1 and TLBs are emptied, and its counters start at zero with the events of a pass, where the session owns them (R313,
R315). -/
def coldCore (s : State) (core : Nat) (owned : Bool) (events : List Nat) : State :=
  let k := s.core core
  let sel := (List.range 4).foldl (fun n i => n + (events.getD i 0) % 64 * 2 ^ (8 * i)) 0
  let s := s.setCore core { k with
    l1 := [], tlb := [], cntV := if owned then [] else k.cntV, cntSel := if owned then BitVec.ofNat 32 sel else k.cntSel }
  s.setCluster (clusterOf core) { s.cluster (clusterOf core) with tlb := [] }

/-- The events of a pass (R312). -/
def passEvents (z : Session) (pass : Nat) : List Nat := (z.evsel.drop (4 * (pass - 1))).take 4

/-- A core joins the session of a gallery's first pass (R313, R315); counters that another session owns stay that session's
(log 93). -/
def joinSession (s : State) (gid core : Nat) : State :=
  match s.sessionOf (fun z => z.gallery == some gid && z.running && z.pass == 1 && !(z.cores.contains core)) with
  | some (q, z) =>
    let owned := (s.ownerOf core).isNone
    (s.coldCore core owned (passEvents z 1)).setSession q
      { z with cores := z.cores ++ [core], shared := if owned then z.shared else core :: z.shared }
  | Option.none => s

/-- A core runs flights of a gallery (R258, R313). -/
def ranOn (g : Gallery) (core : Nat) : Gallery := if g.ran.contains core then g else { g with ran := core :: g.ran }

/-- Places the halls of a unit on their cores. -/
def placeHalls (s : State) (gid : Nat) (g : Gallery) (win : Option Nat) : List (Nat × Nat) → Gallery × State
  | [] => (g, s)
  | (h, c) :: hs =>
    let s := (s.joinSession gid c).comeTo gid c
    let s := if (s.core c).store.isNone then s.loadStore c g else s
    match s.admitHall gid g h c win 0 (flightCount g.launch g.desc) with
    | Option.none => s.placeHalls gid g win hs
    | some (us, s) => s.placeHalls gid (ranOn { g with halls := mset g.halls h ⟨c, win, false, false, us⟩ } c) win hs

end State

/-- WING_PLACEMENT: the next wing or stack of a gallery is placed whole on the first cluster that can take it; its window reads
zero (R222, R259 to R261). -/
def execWingPlacement (gallery : Nat) (s : State) : Res :=
  match mget s.galleries gallery with
  | none => .next s.idle
  | some g =>
    if s.servedBefore gallery g then .next s.idle
    else
      match s.placement gallery g with
      | none => .next s.idle
      | some (cl, as) =>
        let (w, s1) := s.fresh
        let win := if g.desc.store == 0 then none else some w
        let s2 := if g.desc.store == 0 then s1 else s1.setWindow w ⟨gallery, g.nextWing, cl, g.desc.store, [], [], false⟩
        let (g1, s3) := s2.placeHalls gallery g win as
        let g2 := { g1 with
          nextWing := g.nextWing + 1, firstPlaced := true, lastCluster := some cl, aged := false, acceptTime := s.dieCyc 0 }
        .next { s3.setGallery gallery g2 with lastCluster := cl }

/-- Whether a gallery has halls still to place. -/
def Gallery.unplaced (g : Gallery) : Bool := !g.completed && g.ended.isNone && Nat.blt g.nextWing (unitCount g.launch)

/-- BULK_GALLERY_AGEING: a bulk gallery that has waited 2,000,000 cycles with no hall placed is served as normal class (R259). The
cycles are those of die 0's arithmetic clock (R3, R362; DESIGN CHOICE, log 41). -/
def execBulkGalleryAgeing (gallery : Nat) (s : State) : Res :=
  match mget s.galleries gallery with
  | none => .next s.idle
  | some g =>
    if g.launch.cls == 3 && !g.aged && g.unplaced && Nat.ble (g.acceptTime + 2000000) (s.dieCyc 0) then
      .next (s.setGallery gallery { g with aged := true })
    else .next s.idle

/-! ## Starting halls (R184) -/

/-- A flight starts: Refresh(3), and the trace's start event (R228, R232, R321). -/
def State.startFlight (s : State) (u : Nat) : State :=
  match mget s.flights u with
  | none => s
  | some f =>
    let s := (s.boundary u f none (some 3)).2
    (s.modFlight u (fun f => { f with started := true })).flightEvent f 0 0

/-- Whether the hall one storey below has started, where there is one (R184). -/
def lowerStarted (g : Gallery) (hall : Nat) : Bool :=
  let per := g.launch.gx * g.launch.gy * g.launch.gz
  if Nat.blt hall per then true
  else match mget g.halls (hall - per) with
    | some h => h.started
    | none => false

/-- HALL_START: the flights of a placed hall start, once its lower storey has started (R184). -/
def execHallStart (gallery hall : Nat) (s : State) : Res :=
  match (mget s.galleries gallery).bind (fun g => (mget g.halls hall).map (fun h => (g, h))) with
  | none => .next s.idle
  | some (g, h) =>
    let waiting := h.flights.any (fun u => match mget s.flights u with | some f => !f.started | none => false)
    if waiting && lowerStarted g hall && s.canBound h.core false then .next ((h.flights.foldl State.startFlight s).wake)
    else .next s.idle

/-! ## Task flights (R164, R165) -/

/-- The registers a task starts with: the frame, the thread index and the tag (R164). -/
def taskRegs (lane : Bool) (frame tag count : Nat) : NMap RegVal :=
  let lanes := fun (v : Nat → Nat) =>
    RegVal.lanes ((List.range (if lane then count + 1 else 3 * (count + 1))).map
      (fun l => (l, BitVec.ofNat 32 (v (if lane then l else l / 3)))))
  [(0, lanes (fun _ => frame % 2 ^ 32)), (1, lanes (fun _ => frame / 2 ^ 32)), (2, lanes id), (3, lanes (fun _ => tag))]

/-- TASK_POP: a quarter with a free slot pops the first record of the lowest-numbered non-empty queue and starts its task
flight, bound to a window, with Refresh(3) (R164, R165, R185). -/
def execTaskPop (context core quarter : Nat) (s : State) : Res :=
  match s.popReady context core quarter with
  | none => .next s.idle
  | some (k, r, gid, g) =>
    let s1 := s.popRing context (dieOf core) k
    let (win, s2) := match s1.taskWindow gid g core with
      | .have w => (some w, s1)
      | .create =>
        let (w, s2) := s1.fresh
        (some w, s2.setWindow w ⟨gid, 2 ^ 32 - 1, clusterOf core, g.desc.store, [], [], true⟩)
      | .none => (none, s1)
    let tag := recField r 24 4
    let count := recField r 28 1
    let f := { Flight.fresh gid g (2 ^ 32 - 1) 0 core quarter 0 0 win with
      task := some (tag, count)
      threads := (List.range (count + 1)).map (fun i =>
        (i, Thread.start i ((2 ^ 47 + tag * 96 + i) % 2 ^ 48) (recField r 0 8)))
      regs := taskRegs g.desc.lane (recField r 8 8) tag count }
    match (if s.canBound core false then s2.takeIn f else none) with
    | none => .next s.idle
    | some (u, s3) =>
      let s4 := match win.bind (fun w => (mget s3.windows w).map (fun x => (w, x))) with
        | some (w, x) => s3.setWindow w { x with tasks := u :: x.tasks }
        | none => s3
      let s5 := (s4.comeTo gid core).setGallery gid (State.ranOn g core)
      .next (((s5.startFlight u).count f 0x27 1).wake)

/-! ## Retirement (R119) -/

namespace State

/-- STORE_WINDOW_DISCARD: a window goes when no hall of it is left and no task is bound to it (R165, R222). -/
def dropWindow (s : State) (w : Nat) : State :=
  match mget s.windows w with
  | none => s
  | some x =>
    let halls := match mget s.galleries x.gallery with
      | some g => g.halls.any (fun p => p.2.win == some w && !p.2.exited)
      | none => false
    if halls || !x.tasks.isEmpty then s else { s with windows := mdel s.windows w }

/-- A flight leaves its hall or task: the hall that loses its last flight has exited and fires its chunk, unless a CFIRE has done so
(R119, R168, R347). -/
def leaveHall (s : State) (u : Nat) (f : Flight) : State :=
  match f.task, mget s.galleries f.gallery with
  | some _, _ =>
    match f.win.bind (fun w => (mget s.windows w).map (fun x => (w, x))) with
    | some (w, x) => (s.setWindow w { x with tasks := x.tasks.filter (· != u) }).dropWindow w
    | none => s
  | none, some g =>
    match mget g.halls f.hall with
    | none => s
    | some h =>
      let us := h.flights.filter (· != u)
      let s := s.setGallery f.gallery { g with halls := mset g.halls f.hall { h with flights := us, exited := us.isEmpty } }
      if !us.isEmpty then s
      else
        let s := match g.coll, hallChunk g f.hall with
          | some _, some k =>
            if g.cfired.contains k then s
            else
              let (fired, s) := s.fire f.gallery k (dieOf f.core)
              if fired then s.count f 0x3C 1 else s
          | _, _ => s
        match f.win with
        | some w => s.dropWindow w
        | none => s
  | none, none => s

/-- A flight gives up its plane sets, its place in the matrix unit's queue and its scoreboard entries; its score counts in the
quarter's window (R265). -/
def releaseUnit (s : State) (u : Nat) (f : Flight) : State :=
  let q := s.quarter f.core f.quarter
  let s := s.setQuarter f.core f.quarter { q with
    mq := q.mq.filter (fun p => p.1 != u), planes := q.planes.filter (fun p => p.2.holder != u), left := q.left + f.score }
  let cl := clusterOf f.core
  let k := s.cluster cl
  (s.setCluster cl { k with sb := k.sb.filter (fun e => e.flight != u) }).startFetches f.core

/-- The signature of a flight of a session's pass, by hall and flight index (R318, R340). -/
def keepSig (s : State) (f : Flight) : State :=
  match s.sessionOf (fun z => z.running && z.sig && z.gallery == some f.gallery) with
  | some (q, z) => s.setSession q { z with sigs := mset z.sigs (f.hall * 64 + f.index) f.sig }
  | none => s

end State

/-- Whether a flight can retire: no live thread, every flag zero, every scoreboard bit clear (R119). -/
def retirable (f : Flight) : Bool :=
  f.live.isEmpty && f.clause.isNone && f.frozen.isNone && !f.debugFrozen && f.sb.isEmpty && f.flags.all (fun p => p.2 == 0)
    && !(f.entries.any (·.replay)) && f.started

/-- Whether every store-class operation of a flight is acknowledged (R244, R273). -/
def allAcked (f : Flight) : Bool := f.entries.all (fun e => !e.storeClass || e.acked)

/-- A flight retires: Publish(3), the plane set, the registers and the slot (R119). -/
def State.retire (s : State) (u : Nat) (f : Flight) : State :=
  let s1 := (s.boundary u f (some 3) none).2
  let f1 := (mget s1.flights u).getD f
  let s2 := (((s1.releaseUnit u f1).count f 0x0F 1).flightEvent f1 1 0).keepSig f1
  let s3 := { s2 with flights := mdel s2.flights u }
  ((s3.leaveHall u f1).dropStore f.core).wake

/-- FLIGHT_RETIREMENT: a late fault is delivered first; then Publish(3). A flight whose stores the banks have not acknowledged then
waits for them: its T entries are released at a boundary after that (R119, R244, R288). -/
def execFlightRetirement (flight : Nat) (s : State) : Res :=
  onFlight s flight retirable fun f =>
    match firstLate f.late with
    | some l => s.deliverLate flight f l 0
    | none =>
      if !(s.canBound f.core true) then s.idle
      else if allAcked f then s.retire flight f
      else if f.leaving then s.idle
      else ((s.boundary flight f (some 3) none).2.modFlight flight (fun g => { g with leaving := true })).wake

end Sys2Proof.Machine
end

