-- ==== Sys2Proof/Machine/Queue.lean ====
section
/-! DEFINITION. Command queues and records (spec/14_scheduling.md R248 to R258, R367; spec/01_words.md R46, R47;
spec/08_execution.md R182, R183, R200; spec/12_memory_model.md R234, R235; spec/16_compat.md R304; spec/20_collectives.md
R343 to R346): doorbells, launch, barrier and signal records, and the completion of galleries. -/

namespace Sys2Proof.Machine

/-! ## Descriptors and doorbells (R249, R250) -/

namespace State

/-- The address of a queue's descriptor (R249). -/
def queueAt (s : State) (q : Nat) : Nat := s.tables.queues + 64 * q

/-- A queue with its descriptor's fields as they stand (R249). A descriptor that breaks the table disables it. -/
def readQueue (s : State) (q : Nat) : Queue :=
  let d := s.readLatest (s.queueAt q) 64
  let lg := recField d 8 1
  let good := Nat.ble 4 lg && Nat.ble lg 16 && recField d 12 4 == 0 && recField d 52 12 == 0 && Nat.blt (recField d 9 1) 4
    && Nat.blt (recField d 10 2) 4096 && recField d 0 8 % 4096 == 0 && recField d 24 8 % 4096 == 0 && recField d 40 8 % 512 == 0
  { s.queue q with
    enabled := good, ring := recField d 0 8, lg := lg, cls := recField d 9 1, context := recField d 10 2, key := BitVec.ofNat 64 (recField d 16 8)
    cpl := recField d 24 8, tasks := recField d 40 8, chead := recField d 48 4 }

/-- The record slots of sequence numbers from a to a + n - 1, as they stand (R249, R251). -/
def readSlots (s : State) (x : Queue) (a : Nat) : Nat → List (List Byte)
  | 0 => []
  | n + 1 => s.readLatest (x.ring + 128 * (a % 2 ^ x.lg)) 128 :: s.readSlots x ((a + 1) % 2 ^ 32) n

/-- Whether a doorbell passes the checks of R250. -/
def doorbellOk (x : Queue) (origin : DoorbellOrigin) (nbytes tail : Nat) (key : BitVec 64) : Bool :=
  Nat.ble 16 nbytes && x.enabled && (origin == .control || (x.key != 0 && key == x.key))
    && Nat.ble ((tail + 2 ^ 32 - x.tail) % 2 ^ 32 + (x.tail + 2 ^ 32 - x.head) % 2 ^ 32) (2 ^ x.lg)

end State

/-- DOORBELL: the descriptor is read and the write checked; an accepted one sets the tail and the records up to it are read, an
ignored one is counted and raises an event (R249 to R251). The first accepted task table of a context is used (R262). An attached host reaches the page only through a port that runs as an endpoint (R358). -/
def execDoorbell (q : Nat) (origin : DoorbellOrigin) (nbytes : Nat) (tail : BitVec 32) (key : BitVec 64) (s : State) : Res :=
  if Nat.ble 64 q || (origin == .host && !s.boot.pcieEndpoint) then .next s.idle
  else
    let x := s.readQueue q
    let t := tail.toNat
    if State.doorbellOk x origin nbytes t key then
      let n := (t + 2 ^ 32 - x.tail) % 2 ^ 32
      let s0 := s.reachAll 48 (((List.range n).map (fun i => State.lineSpan (x.ring + 128 * ((x.tail + i) % 2 ^ 32 % 2 ^ x.lg)) 128)).flatten)
      let s1 := s0.setQueue q { x with tail := t, recs := x.recs ++ s0.readSlots x x.tail n }
      let k := s1.ctxt x.context
      let s2 := if k.tasks == 0 && x.tasks != 0 then s1.setCtxt x.context { k with tasks := x.tasks } else s1
      s.banked (s2.externalWrite (s.queueAt q + 36) (leBytes 4 t))
    else .next ((s.setQueue q { x with refused := x.refused + 1 }).emit (.event 250 [q]))

/-! ## Taking and completing records (R252, R253, R258) -/

/-- The kinds of record (R253); `other` is any record whose version or kind the module refuses. -/
inductive RecordKind where
  | launch | barrier | signal | other
  deriving DecidableEq, Repr

/-- The kind of a record. -/
def recordKind (r : List Byte) : RecordKind :=
  let v := recField r 0 1
  if v == 0 || Nat.blt 3 v then .other
  else match recField r 1 1 with
    | 1 => .launch
    | 2 => .barrier
    | 3 => .signal
    | _ => .other

/-- Whether bytes [a, b) of a record are zero. -/
def zeroBytes (r : List Byte) (a b : Nat) : Bool := recField r a (b - a) == 0

/-- What the completion of a record keeps. -/
structure Done where
  seq : Nat
  kind : Nat
  tag : Nat
  status : Nat
  deriving DecidableEq, Repr

namespace State

/-- Records of a queue that wait behind a miss key, by sequence number (R257, R367). -/
def parkedSeqs (s : State) (q : Nat) : List Nat :=
  (s.dies.map (fun d => (d.2.miss.map (fun m => m.parked.filterMap (fun p =>
    match p with
    | .queue q' n => if q' == q then some n else none
    | _ => none))).flatten)).flatten

/-- The record that a queue may take now (R252): there is one, its completion slot is free, no barrier holds the queue (R256),
and no record waits for a translation (R257, R367). -/
def takeable (s : State) (q : Nat) : Option (List Byte) :=
  let x := s.queue q
  if x.enabled && Nat.blt ((x.head + 2 ^ 32 - x.chead) % 2 ^ 32) (2 ^ x.lg) && !(x.taken.any (fun t => t.kind == 2))
    && (s.parkedSeqs q).isEmpty then x.recs.head? else none

/-- Takes the next record: head advances in the queue and its descriptor (R249, R252). -/
def takeRecord (s : State) (q kind : Nat) : State :=
  let x := s.queue q
  let t := Taken.mk x.head kind (x.recs.headD [])
  let h := (x.head + 1) % 2 ^ 32
  (s.setQueue q { x with head := h, recs := x.recs.drop 1, taken := x.taken ++ [t] }).externalWrite (s.queueAt q + 32)
    (leBytes 4 h)

/-- COMPLETION_ENTRY: a taken record completes; its entry is written, and the consumer's head read again (R252, R258). -/
def completeRecord (s : State) (q : Nat) (d : Done) : State :=
  let x := s.queue q
  let e := leBytes 4 d.tag ++ leBytes 1 d.status ++ leBytes 1 d.kind ++ leBytes 2 0 ++ leBytes 4 d.seq ++ leBytes 4 s.time
  let s := s.externalWrite (x.cpl + 16 * (d.seq % 2 ^ x.lg)) e
  s.setQueue q { x with
    taken := x.taken.filter (fun t => t.seq != d.seq), declined := x.declined.filter (fun p => p.1 != d.seq)
    chead := s.numAt (s.queueAt q + 48) 4 }

/-- RECORD_REFUSAL: the next record is taken and complete at once, with a status (R253). -/
def refuseRecord (s : State) (q kind tag status : Nat) : State :=
  let n := (s.queue q).head
  (s.takeRecord q kind).completeRecord q ⟨n, kind, tag, status⟩

end State

/-! ## Blocks of global memory that records name (R257, R294, R367) -/

/-- How the pages of a block are found: their physical addresses, a key to be resolved, or a refusal. -/
inductive Pages where
  | ok (m : NMap Nat)
  | miss (key : MissKey)
  | bad
  deriving DecidableEq, Repr

/-- Finds some pages of a context under a need: a declined key, a page that forbids it or a system page refuses (R367). -/
def findPages (s : State) (context : Nat) (w : Want) (plain : Bool) (declined : List MissKey) : List Nat → Pages
  | [] => .ok []
  | vp :: vps =>
    match s.walk context (vp * 4096) with
    | .ok e =>
      if (pageFail s context w e).isSome || (plain && pteForm e.pte != 0) then .bad
      else
        match findPages s context w plain declined vps with
        | .ok m => .ok (mset m vp (e.frameAddr (vp * 4096) 0))
        | r => r
    | _ => if declined.contains (.page context vp) then .bad else .miss (.page context vp)

/-- The 4 KiB pages that n bytes from an address reach. -/
def blockPages (va n : Nat) : List Nat := (List.range ((va % 4096 + n + 4095) / 4096)).map (fun i => va / 4096 + i)

/-- The pages of a block of n bytes; an empty block has none, and one that leaves the address space is refused. -/
def findBlock (s : State) (context : Nat) (w : Want) (plain : Bool) (declined : List MissKey) (va n : Nat) : Pages :=
  if n == 0 then .ok []
  else if !canonical va || !canonical (va + n - 1) || Nat.ble (2 ^ 64) (va + n - 1) then .bad
  else findPages s context w plain declined (blockPages (va % 2 ^ 57) n)

/-- The latest bytes of a block whose pages are known (R363). -/
def pageBytes (s : State) (m : NMap Nat) (va n : Nat) : List Byte :=
  (List.range n).map (fun i => s.latest (mgetD m ((va % 2 ^ 57 + i) / 4096) 0 + (va + i) % 4096))

/-- Whether a queue holds with a signal whose page has no translation: its turn has come, and it is parked or waits for an entry of a
full miss table (R257, R293). -/
def State.signalHolds (s : State) (q : Nat) : Bool :=
  let x := s.queue q
  match x.taken with
  | t :: _ => t.kind == 3 && (match findBlock s x.context Want.store false ((x.declined.filter (fun p => p.1 == t.seq)).map (·.2))
      (recField t.data 8 8) 8 with
    | .miss _ => true
    | _ => false)
  | [] => false

/-- The record that a queue may take now, where no signal holds it (R252, R257). -/
def State.nextRecord (s : State) (q : Nat) : Option (List Byte) := if s.signalHolds q then none else s.takeable q

/-- Marks the pages of a block as accessed, or also as written (R291; log 6). -/
def markPages (s : State) (context : Nat) (write : Bool) (m : NMap Nat) : State :=
  m.foldl (fun s p =>
    match s.walk context (p.1 * 4096) with
    | .ok e =>
      let b := if write then 12 else 4
      let old := s.numAt (e.pteAt + 1) 1
      if old &&& b == b then s else s.externalUpdate (e.pteAt + 1) (· ||| BitVec.ofNat 8 b)
    | _ => s) s

/-- A record waits for a key, which is missed if it is new (R293); none where the miss table is full. Records use the table of
die 0 (log 15). -/
def State.parkRecord (s : State) (q seq : Nat) (key : MissKey) : Option State :=
  match s.missOf 0 key with
  | some _ => some (s.parkBehind 0 key (.queue q seq))
  | none => if s.missFull 0 then none else some (s.newMiss 0 key (.queue q seq))

/-! ## Launch records (R254, R255) -/

/-- A launch record; version 1 has one storey, and no flags, scope table or binding, and version 2 no binding (R255). -/
def launchOf (r : List Byte) : LaunchRec :=
  let v := recField r 0 1
  { version := v, flags := if v == 1 then 0 else recField r 2 1, cls := recField r 3 1, tag := recField r 4 4
    gx := recField r 8 2, gy := recField r 10 2, gz := recField r 12 2
    storeys := if recField r 0 1 == 1 then 1 else recField r 14 1
    tx := recField r 16 2, ty := recField r 18 2, tz := recField r 20 2
    wx := recField r 22 1, wy := recField r 23 1, wz := recField r 24 1, pdead := recField r 28 4, desc := recField r 32 8
    args := recField r 40 8, seed := BitVec.ofNat 64 (recField r 48 8), scopes := if v == 1 then 0 else recField r 56 8
    coll := if Nat.blt v 3 then List.replicate 64 0#8 else (r.drop 64).take 64 }

/-- Whether a launch record breaks R253 or R255 with status 1. -/
def launchBad (r : List Byte) : Bool :=
  Nat.blt 1 (recField r 2 1) || Nat.blt 3 (recField r 3 1) || recField r 15 1 != 0 || recField r 25 3 != 0
    || recField r 40 8 % 16 != 0
    || (match recField r 0 1 with
        | 1 => recField r 2 1 != 0 || recField r 14 1 != 0 || !(zeroBytes r 56 128)
        | 2 => !(zeroBytes r 64 128)
        | _ => false)

/-- A kernel descriptor (R46). A segment at address 0 is none. -/
def descOf (b : List Byte) : Desc :=
  let w1 := recField b 4 4
  { level := bits w1 3 0, narrow := w1.testBit 4, lane := w1.testBit 5, promise := w1.testBit 6, typical := bits w1 15 8
    peak := bits w1 23 16, window := bits w1 28 24, entry := recField b 8 8, handler := recField b 16 8
    macros := recField b 24 8, bindings := recField b 32 8, store := recField b 40 3, args := recField b 44 2
    consts := recField b 48 8, constsize := if recField b 48 8 == 0 then 0 else recField b 56 3 }

/-- Whether a descriptor is refused (R47, R10); a level-3 kernel's `macros` is ignored (R302). -/
def descBad (b : List Byte) : Bool :=
  let d := descOf b
  let w1 := recField b 4 4
  recField b 0 2 != 0x4B44 || recField b 2 1 != 1 || recField b 3 1 != 0 || (d.level != 3 && d.level != 4)
    || (d.narrow && d.level == 4) || w1.testBit 7 || bits w1 31 29 != 0 || d.typical == 0 || Nat.blt 32 d.peak
    || Nat.blt d.peak d.typical || Nat.blt 30 d.window || (d.level == 3 && d.window != 0) || recField b 43 1 != 0
    || recField b 46 2 != 0 || recField b 59 1 != 0 || recField b 60 4 != 0 || d.entry % 4 != 0 || d.handler % 4 != 0
    || (d.level == 4 && d.macros % 8 != 0) || d.bindings % 8 != 0 || d.consts % 256 != 0 || d.store % 64 != 0 || Nat.blt 8388608 d.store

/-- Whether dimensions are refused (R182, R183, R221); without a descriptor only the wider thread limit is known. -/
def dimsBad (r : LaunchRec) (d : Option Desc) : Bool :=
  let limit := match d with
    | some d => if d.lane && !d.narrow then 6144 else 2048
    | none => 6144
  let zero := [r.gx, r.gy, r.gz, r.storeys, r.tx, r.ty, r.tz, r.wx, r.wy, r.wz].any (· == 0)
  zero || Nat.blt 16 r.storeys || Nat.blt limit (hallSize r) || Nat.blt 8 (r.wx * r.wy * r.wz)
    || Nat.blt 4294967294 (r.gx * r.gy * r.gz * r.storeys)
    || (r.stacked && Nat.blt 8 (min r.wx r.gx * min r.wy r.gy * min r.wz r.gz * r.storeys))

/-- Whether a scope table is refused: its address is checked apart (R234, R235). -/
def scopesBad (b : List Byte) : Bool :=
  !(zeroBytes b 0 320) || (List.range 32).any (fun k => !(zeroBytes b (64 * k + 48) (64 * k + 64)))

/-- The entries 5 to 31 of a scope table, as sets of cores (R234). -/
def scopeEntries (b : List Byte) : NMap Nat :=
  ((List.range 27).map (fun k => (k + 5, recField b (64 * (k + 5)) 48))).filter (fun p => p.2 != 0)

/-! ## Collective bindings (R343 to R346) -/

/-- A field of a binding. -/
def collField (b : List Byte) (at_ n : Nat) : Nat := recField b at_ n

/-- The entry of a peer set: count and rank (R345). -/
def State.peerSet (s : State) (p : Nat) : Nat × Nat :=
  let e := s.tables.peers + 32 * p
  (s.numAt e 4, s.numAt (e + 4) 4)

/-- Whether a peer set is configured on this module. -/
def State.configured (s : State) (p : Nat) : Bool := s.tables.peers != 0 && (s.peerSet p).1 != 0

/-- The module numbers of a peer set, by rank (R345). -/
def State.peerList (s : State) (p : Nat) : List Nat :=
  let l := s.numAt (s.tables.peers + 32 * p + 8) 8
  (List.range (s.peerSet p).1).map (fun r => s.numAt (l + 4 * r) 4 % 2 ^ 22)

/-- Whether a binding is refused with status 5 (R343, R344). -/
def bindingBad (s : State) (qcls : Nat) (b : List Byte) : Bool :=
  let fld := collField b
  let kind := fld 0 1
  let p := fld 4 4
  let set := s.peerSet p
  let tbase := fld 8 8
  let pitch := fld 16 4
  let bytes := fld 20 4
  let n := fld 24 4
  let rbase := fld 40 8
  let moved := kind == 3 || kind == 4
  kind == 0 || Nat.blt 4 kind || Nat.blt 2 (fld 1 1) || Nat.blt 2 (fld 2 1) || Nat.blt 3 (fld 3 1) || Nat.blt 4095 p
    || (moved && (fld 1 1 != 0 || fld 2 1 != 0)) || tbase % 64 != 0 || pitch % 64 != 0 || bytes % 64 != 0 || Nat.blt bytes 64
    || Nat.blt 16777216 bytes || Nat.blt pitch bytes || n == 0 || Nat.blt 65535 n || rbase % 64 != 0
    || (!moved && rbase != 0) || !(zeroBytes b 48 64) || Nat.blt (fld 3 1) qcls
    || !(s.configured p) || Nat.ble set.1 set.2 || (s.peerList p)[set.2]? != some s.boot.number.toNat
    || (kind == 4 && n % set.1 != 0)
    || (moved && Nat.blt rbase (tbase + pitch * n) && Nat.blt tbase (rbase + pitch * set.1 * n))

/-- The number that a bound record consumes of its peer set, if it names one (R346). -/
def bindingSet (r : List Byte) : Option Nat :=
  let b := (r.drop 64).take 64
  if recField r 0 1 == 3 && !(unbound b) && Nat.ble (collField b 4 4) 4095 then some (collField b 4 4) else none

/-- The collective of an accepted launch (R343, R346). -/
def collOf (s : State) (gid context number : Nat) (b : List Byte) : Coll :=
  let fld := collField b
  let p := fld 4 4
  let set := s.peerSet p
  { gallery := gid, context := context, peers := p, number := number, count := set.1, rank := set.2, members := s.peerList p
    ckind := fld 0 1, cop := fld 1 1, ctype := fld 2 1, ccls := fld 3 1, tbase := fld 8 8, tpitch := fld 16 4, tbytes := fld 20 4
    nchunk := fld 24 4, rbase := fld 40 8, fired := [], read := [], written := [], data := [], failed := none, holds := []
    aged := [], waitFrom := [], turn := [] }

/-- The digest that members compare (R346; log 14). -/
def Coll.digest (c : Coll) : BitVec 64 := Config.collectiveDigest c.ckind c.cop c.ctype c.tbytes c.nchunk c.count

/-- Tells the other members of a collective that it fails with a status (R346, R354). -/
def State.tellMembers (s : State) (peers number status : Nat) (members : List Nat) : State :=
  (members.filter (· != s.boot.number.toNat)).foldl (fun s m => (s.sendPacket m 2 (.failure peers number status)).2) s

/-- A collective fails on this module. -/
def State.markFailed (s : State) (id : Nat) (c : Coll) (status : Nat) : State :=
  { s with colls := mset s.colls id { c with failed := some status, holds := [] } }

/-- A collective fails on this module and on every member (R346, R354). -/
def State.failColl (s : State) (id : Nat) (c : Coll) (status : Nat) : State :=
  if c.failed.isSome then s else (s.markFailed id c status).tellMembers c.peers c.number status c.members

/-- A segment from a member joins its collective, or the digests differ and it fails (R346). -/
def State.takeSegment (s : State) (id : Nat) (e : Early) : State :=
  match mget s.colls id with
  | none => s
  | some c =>
    if e.digest != c.digest then s.failColl id c 5
    else { s with colls := mset s.colls id { c with data := c.data ++ [(e.rank, e.chunk, e.seg, e.data)] } }

/-- A launched collective meets what arrived for it before (R346, R354). -/
def State.meetEarly (s : State) (id : Nat) (c : Coll) : State :=
  let mine := fun (e : Early) => e.peers == c.peers && e.number == c.number
  let told := fun (a : Nat × Nat × Nat) => a.1 == c.peers && a.2.1 == c.number
  let s1 := (s.early.filter mine).foldl (fun s e => s.takeSegment id e) s
  let s2 := { s1 with early := s.early.filter (fun e => !(mine e)), announced := s.announced.filter (fun a => !(told a)) }
  match s.announced.find? told, mget s2.colls id with
  | some (_, _, status), some d => if d.failed.isSome then s2 else s2.markFailed id d status
  | _, _ => s2

/-! ## Accepting a launch (R254, R367) -/

/-- The blocks of a launch that have been found. -/
structure Blocks where
  desc : Option Desc
  args : NMap Nat
  consts : NMap Nat
  nslot : Nat
  scopes : NMap Nat
  marks : NMap Nat
  deriving DecidableEq, Repr

/-- The state of the checks of a launch: its statuses so far, the keys that are missing, and the blocks. -/
structure Check where
  bad : List Nat
  miss : List MissKey
  blocks : Blocks
  deriving DecidableEq, Repr

/-- Adds a block to the checks under a status, and what it gives. -/
def Check.block (k : Check) (status : Nat) (p : Pages) (g : NMap Nat → Check → Check) : Check :=
  match p with
  | .ok m => g m { k with blocks := { k.blocks with marks := m.foldl (fun t q => mset t q.1 q.2) k.blocks.marks } }
  | .miss key => { k with miss := k.miss ++ [key] }
  | .bad => { k with bad := k.bad ++ [status] }

/-- Adds a status where a test fails. -/
def Check.test (k : Check) (status : Nat) (bad : Bool) : Check := if bad then { k with bad := k.bad ++ [status] } else k

/-- The blocks that a descriptor names: arguments, constants and the binding table (R304, R367). -/
def checkBlocks (s : State) (context : Nat) (declined : List MissKey) (r : LaunchRec) (d : Desc) (k : Check) : Check :=
  let find := findBlock s context Want.load
  let k := k.block 2 (find false declined r.args d.args) (fun m k => { k with blocks := { k.blocks with args := m } })
  let k := k.block 2 (find false declined d.consts d.constsize) (fun m k => { k with blocks := { k.blocks with consts := m } })
  if d.bindings == 0 then k
  else k.block 2 (find true declined d.bindings 8) fun m k =>
    let b := pageBytes s m d.bindings 8
    let n := recField b 0 4
    let k := { k.test 2 (n == 0 || Nat.blt 65535 n || recField b 4 4 != 0) with blocks := { k.blocks with nslot := n } }
    k.block 2 (find true declined d.bindings (8 + 8 * min n 65535)) (fun _ k => k)

/-- Every check of a well-formed launch record (R47, R182, R235, R254, R344, R367). -/
def checkLaunch (s : State) (q : Nat) (raw : List Byte) (r : LaunchRec) : Check :=
  let x := s.queue q
  let declined := (x.declined.filter (fun p => p.1 == x.head)).map (·.2)
  let find := findBlock s x.context Want.load false declined
  let k : Check := ⟨[], [], ⟨none, [], [], 0, [], []⟩⟩
  let k := (k.test 1 (launchBad raw)).test 6 (Nat.blt r.cls x.cls)
  let k := k.block 2 (if r.desc % 64 == 0 then find r.desc 64 else .bad) fun m k =>
    let b := pageBytes s m r.desc 64
    if descBad b then k.test 2 true
    else checkBlocks s x.context declined r (descOf b) { k with blocks := { k.blocks with desc := some (descOf b) } }
  let k := k.test 3 (dimsBad r k.blocks.desc)
  let k :=
    if r.scopes == 0 then k
    else k.block 4 (if r.scopes % 64 == 0 then find r.scopes 2048 else .bad) fun m k =>
      let b := pageBytes s m r.scopes 2048
      { k.test 4 (scopesBad b) with blocks := { k.blocks with scopes := scopeEntries b } }
  k.test 5 (r.version == 3 && !(unbound r.coll) && bindingBad s x.cls r.coll)

/-- The least deadline of a context's live galleries, those accepted and not complete (R200, R270). -/
def State.leastDead (s : State) (context : Nat) : Nat :=
  let ds := (s.galleries.filter (fun p => p.2.context == context && !p.2.completed && p.2.ended.isNone)).map
    (fun p => if p.2.launch.pdead == 0 then 32768 else p.2.launch.pdead)
  match ds with
  | [] => 32768
  | d :: ds => ds.foldl min d

/-- The context's `ctl.pdead` is recomputed (R270). -/
def State.setDead (s : State) (context : Nat) : State := s.setCtxt context { s.ctxt context with pdead := s.leastDead context }

/-- The gallery of an accepted record (R200, R225, R235, R254). -/
def galleryOf (s : State) (q : Nat) (r : LaunchRec) (d : Desc) (b : Blocks) (coll : Option Nat) : Gallery :=
  let x := s.queue q
  { context := x.context, queue := q, seq := x.head, launch := r, desc := d, accepted := s.stamp, acceptTime := s.dieCyc 0
    argPages := b.args, constPages := b.consts, scopes := b.scopes, nslot := b.nslot, halls := [], nextWing := 0
    firstPlaced := false, lastCluster := none, aged := false, coll := coll, fired := [], ended := none, completed := false
    session := false, pins := [], pubs := none, ran := [], cfired := [] }

namespace State

/-- The session that takes a queue's launch, if one is armed and has none yet (R313). -/
def armSession (s : State) (q gid : Nat) : State :=
  match mget s.sessions q, mget s.galleries gid with
  | some z, some g =>
    if z.gallery.isNone then (s.setSession q { z with gallery := some gid }).setGallery gid { g with session := true } else s
  | _, _ => s

/-- A session armed on a queue that takes a launch record which is refused is over: it has no gallery to run (R253, R313). -/
def spendSession (s : State) (q : Nat) : State :=
  match mget s.sessions q with
  | some z => if z.gallery.isNone then { s with sessions := mdel s.sessions q } else s
  | none => s

/-- A launch is accepted: its gallery is live, its collective is numbered and bound (R254, R346, R367). -/
def acceptLaunch (s : State) (q : Nat) (raw : List Byte) (r : LaunchRec) (d : Desc) (b : Blocks) : State :=
  let x := s.queue q
  let (gid, s1) := (markPages s x.context false b.marks).fresh
  let s2 := match bindingSet raw with
    | none => s1.setGallery gid (galleryOf s1 q r d b none)
    | some p =>
      let n := mgetD s1.bound p 0
      let (id, t) := s1.fresh
      let c := collOf t gid x.context n r.coll
      let t := { t with colls := mset t.colls id c, bound := mset t.bound p (n + 1) }
      (t.setGallery gid (galleryOf t q r d b (some id))).meetEarly id c
  ((s2.armSession q gid).setDead x.context).takeRecord q 1

/-- A bound record that is refused consumes its number, and the refusal is announced where its peer set is configured
(R346). -/
def announceRefusal (s : State) (raw : List Byte) : State :=
  match bindingSet raw with
  | none => s
  | some p =>
    let n := mgetD s.bound p 0
    let s := { s with
      bound := mset s.bound p (n + 1), early := s.early.filter (fun e => e.peers != p || e.number != n)
      announced := s.announced.filter (fun a => a.1 != p || a.2.1 != n) }
    if s.configured p then s.tellMembers p n 5 (s.peerList p) else s

/-- A launch is refused; where several statuses apply, which one is written is open (R253; log 3). -/
def refuseLaunch (s : State) (q : Nat) (raw : List Byte) (bad : List Nat) : State :=
  let (i, s) := s.pick bad.length
  ((s.spendSession q).announceRefusal raw).refuseRecord q (recField raw 1 1) (recField raw 4 4) ((bad[i]?).getD 1)

/-- Whether the module takes compute work: the firmware has started and the module number is set (R359, R365). -/
def inService (s : State) : Bool := s.boot.stage == .running && s.boot.numbered

end State

/-- LAUNCH_RECORD: the next record of a queue is taken, its blocks read and checked, and its gallery accepted or refused; a
missing translation holds the queue (R252 to R255, R367). A record of no known version or kind is refused (R253). -/
def execLaunchRecord (q : Nat) (s : State) : Res :=
  match s.nextRecord q with
  | none => .next s.idle
  | some raw =>
    if !s.inService then .next s.idle
    else
      match recordKind raw with
      | .other => s.banked ((if recField raw 1 1 == 1 then s.spendSession q else s).refuseRecord q (recField raw 1 1) 0 1)
      | .launch =>
        let r := launchOf raw
        let k := checkLaunch s q raw r
        match k.bad.eraseDups, k.miss, k.blocks.desc with
        | b :: bs, _, _ => s.banked (s.refuseLaunch q raw (b :: bs))
        | [], key :: _, _ =>
          match s.parkRecord q (s.queue q).head key with
          | some s' => .next s'
          | none => .next s.idle
        | [], [], some d => s.banked (s.acceptLaunch q raw r d k.blocks)
        | [], [], none => s.banked (s.refuseLaunch q raw [2])
      | _ => .next s.idle

/-! ## Barrier and signal records (R256, R257) -/

/-- Whether a barrier record is refused (R253, R256). -/
def barrierBad (r : List Byte) : Bool := Nat.blt 1 (recField r 2 1) || Nat.blt 63 (recField r 3 1) || !(zeroBytes r 8 128)

/-- Whether queue w is enabled and has taken as complete every record below a sequence number (R256). A queue is enabled as the
last doorbell read its descriptor, or, where it was disabled then or no doorbell came yet, as the descriptor stands (R249). -/
def State.queueReached (s : State) (w n : Nat) : Bool :=
  let x := s.queue w
  let below := fun (a b : Nat) => Nat.blt ((b + 2 ^ 32 - a - 1) % 2 ^ 32) (2 ^ 31)
  (x.enabled || (s.readQueue w).enabled) && !(below x.head n) && !(x.taken.any (fun t => below t.seq n))

/-- Whether a taken barrier's conditions hold (R256). -/
def State.barrierMet (s : State) (q : Nat) (t : Taken) : Bool :=
  ((s.queue q).taken.head?.map (·.seq)) == some t.seq
    && (!((recField t.data 2 1).testBit 0) || s.queueReached (recField t.data 3 1) (recField t.data 4 4))

/-- BARRIER_RECORD: the record is taken and holds its queue; once its conditions hold it completes and the queue goes on
(R256). -/
def execBarrierRecord (q : Nat) (s : State) : Res :=
  match (s.queue q).taken.find? (fun t => t.kind == 2) with
  | some t => if s.barrierMet q t then s.banked (s.completeRecord q ⟨t.seq, 2, 0, 0⟩) else .next s.idle
  | none =>
    match s.nextRecord q with
    | none => .next s.idle
    | some raw =>
      if recordKind raw != .barrier then .next s.idle
      else if barrierBad raw then s.banked (s.refuseRecord q 2 0 1)
      else
        let n := (s.queue q).head
        let s1 := s.takeRecord q 2
        s.banked (if s1.barrierMet q ⟨n, 2, raw⟩ then s1.completeRecord q ⟨n, 2, 0, 0⟩ else s1)

/-- Whether a signal record is refused with status 1 (R253, R257). -/
def signalBad (r : List Byte) : Bool :=
  Nat.blt 3 (recField r 2 1) || recField r 3 5 != 0 || recField r 8 8 % 8 != 0
    || !(zeroBytes r 24 128)

/-- A taken signal acts: it writes its value and may interrupt, or fails, or waits for its translation; none where it must wait
(R257). -/
def State.actSignal (s : State) (q : Nat) (t : Taken) : Option State :=
  let x := s.queue q
  let addr := recField t.data 8 8
  let declined := (x.declined.filter (fun p => p.1 == t.seq)).map (·.2)
  match findBlock s x.context Want.store false declined addr 8 with
  | .bad => some (s.completeRecord q ⟨t.seq, 3, 0, 8⟩)
  | .miss key => s.parkRecord q t.seq key
  | .ok m =>
    let s1 := (markPages s x.context true m).externalWrite (mgetD m (addr % 2 ^ 57 / 4096) 0 + addr % 4096) (leBytes 8 (recField t.data 16 8))
    let s2 := if (recField t.data 2 1).testBit 1 then s1.emit (.event 257 [q, t.seq]) else s1
    some (s2.completeRecord q ⟨t.seq, 3, 0, 0⟩)

/-- The signal that may act: the oldest incomplete record of its queue, not waiting for a translation (R257). -/
def State.signalReady (s : State) (q : Nat) : Option Taken :=
  match (s.queue q).taken with
  | t :: _ => if t.kind == 3 && (s.parkedSeqs q).isEmpty then some t else none
  | [] => none

/-- SIGNAL_RECORD: a taken record writes its value once earlier work is done; otherwise the next record is taken, and writes at
once where nothing earlier is outstanding (R257). -/
def execSignalRecord (q : Nat) (s : State) : Res :=
  match (s.signalReady q).bind (s.actSignal q) with
  | some s' => s.banked s'
  | none =>
    match s.nextRecord q with
    | none => .next s.idle
    | some raw =>
      if recordKind raw != .signal then .next s.idle
      else if signalBad raw then s.banked (s.refuseRecord q 3 0 1)
      else
        let s1 := s.takeRecord q 3
        s.banked (((s1.signalReady q).bind (s1.actSignal q)).getD s1)

/-! ## Completion of a gallery (R200, R258, R347) -/

/-- Whether a record in a task queue of a context is owned by a gallery (R163, R200). -/
def State.owesRecords (s : State) (g : Gallery) : Bool :=
  s.dies.any (fun d => d.2.taskqs.any (fun p =>
    p.1 / 8 == g.context && (s.queuedRecords g.context d.1 (p.1 % 8)).any (ownedBy g)))

/-- Whether a task flight of a gallery is live, resident or saved (R200). -/
def State.owesTasks (s : State) (gid : Nat) : Bool :=
  let mine := fun (p : Nat × Flight) => p.2.gallery == gid && p.2.task.isSome
  s.flights.any mine || s.contexts.any (fun c => match c.2.saved with
    | some v => v.flights.any mine
    | none => false)

/-- Whether a gallery is complete (R200). -/
def State.allDone (s : State) (gid : Nat) (g : Gallery) : Bool :=
  Nat.ble (unitCount g.launch) g.nextWing && g.halls.all (fun p => p.2.exited) && !(s.owesRecords g) && !(s.owesTasks gid)

/-- COMPLETION_FIRE: every chunk that no hall has fired is fired; it is counted on no core (R347, R368). -/
def State.fireRest (s : State) (gid : Nat) (g : Gallery) : State :=
  match g.coll with
  | none => s
  | some _ =>
    let die := dieOf (8 * g.lastCluster.getD 0)
    ((List.range (bindField g 24 4)).filter (fun k => !(g.fired.contains k))).foldl (fun s k => (s.fire gid k die).2) s

/-- Destinations that a collective writes on this module (R348): each chunk's rank, chunk and address. -/
def Coll.dests (c : Coll) : List (Nat × Nat × Nat) :=
  let chunks := List.range c.nchunk
  let tile := fun k => c.tbase + c.tpitch * k
  match c.ckind with
  | 1 => chunks.map (fun k => (0, k, tile k))
  | 2 => (chunks.filter (fun k => k % c.count == c.rank)).map (fun k => (0, k, tile k))
  | 3 => ((List.range c.count).map (fun r => chunks.map (fun k => (r, k, c.rbase + c.tpitch * (r * c.nchunk + k))))).flatten
  | _ => ((List.range c.count).map (fun r => (chunks.filter (fun k => k % c.count == c.rank)).map
      (fun k => (r, k, c.rbase + c.tpitch * (k / c.count * c.count + r))))).flatten

/-- Whether a collective has ended here: failed, or every source read and every destination written. -/
def Coll.ended (c : Coll) : Bool :=
  c.failed.isSome || ((List.range c.nchunk).all (fun k => mgetD c.read k 0 == c.segments)
    && c.dests.all (fun d => mgetD c.written (d.1 * 65536 + d.2.1) 0 == c.segments))

namespace State

/-- The collective of a gallery. -/
def collOfGallery (s : State) (g : Gallery) : Option Coll := g.coll.bind (fun i => mget s.colls i)

/-- Publishes a gallery's writes, those of its atomics among them, at system scope from the cores that ran it; the fabric writes that this
sends (R258). -/
def publishGallery (s : State) (g : Gallery) : List Nat × State :=
  g.ran.foldl (fun p c =>
    let q := p.2.publishWhole c
    (p.1 ++ q.1, q.2)) ([], s)

/-- The bytes of results that a program has written again, against R342, since the engine wrote them: each aligned 16-byte unit ends
with either, and which is not fixed (R350; log 3). -/
def settleRaces (s : State) (id : Nat) : State :=
  let raced := s.co.filterMap (fun p => match p.2 with
    | w :: ws => if w.id == id || Nat.ble 384 w.writer then none else (ws.find? (fun x => x.id == id)).map (fun x => (p.1, x.val))
    | [] => none)
  ((raced.map (fun p => p.1 / 16)).eraseDups).foldl (fun s u =>
    let (i, s) := s.pick 2
    if i == 0 then s else (raced.filter (fun p => p.1 / 16 == u)).foldl (fun s p => s.engineWrite id p.1 p.2) s) s

/-- The gallery's entry is written and the gallery is gone (R258, R270). -/
def finishGallery (s : State) (gid : Nat) (g : Gallery) (status : Nat) : State :=
  let s := match g.coll with
    | some i => s.settleRaces i
    | none => s
  let s := s.completeRecord g.queue ⟨g.seq, 1, g.launch.tag, status⟩
  let mine := fun (x : Packet) => match x, g.coll.bind (fun i => mget s.colls i) with
    | .segment p n _ _ _ _ _, some c => p == c.peers && n == c.number
    | _, _ => false
  let s := { s with
    galleries := mdel s.galleries gid
    wire := s.wire.filter (fun p => !(mine p.2.packet))
    colls := match g.coll with
      | some i => mdel s.colls i
      | none => s.colls }
  (s.setDead g.context).wake

/-- The status of a gallery that has ended: by system software, by its collective, or done (R258, R354). -/
def statusOf (s : State) (g : Gallery) : Nat :=
  match g.ended with
  | some n => n
  | none => ((s.collOfGallery g).bind (·.failed)).getD 0

/-- Publishes, and finishes once every fabric write is acknowledged; waits while a full ring keeps a write from its bank (R258,
R284). -/
def publishThenFinish (s : State) (gid : Nat) (g : Gallery) : State :=
  let p := s.publishGallery g
  if !(s.recordedWell p.2) then s.idle
  else if p.1.isEmpty then p.2.finishGallery gid g (p.2.statusOf g)
  else p.2.setGallery gid { g with pubs := some p.1 }

/-- Whether a session still has the gallery: its pass has not ended, or another is to run (R313). -/
def inSession (s : State) (gid : Nat) : Bool := s.sessions.any (fun p => p.2.gallery == some gid)

end State

/-- GALLERY_COMPLETION: a complete gallery fires its remaining chunks, waits for its collective, makes its writes visible at
system scope and writes its entry; one that system software ended makes its writes visible and writes its entry (R200, R258, R270,
R289, R347). -/
def execGalleryCompletion (gallery : Nat) (s : State) : Res :=
  match mget s.galleries gallery with
  | none => .next s.idle
  | some g =>
    if s.inSession gallery then .next s.idle
    else
      match g.pubs with
      | some ids =>
        if ids.all (fun i => (mget s.fabricOut i).isNone) then s.banked (s.finishGallery gallery g (s.statusOf g))
        else .next s.idle
      | none =>
        if g.ended.isSome then s.banked (s.publishThenFinish gallery g)
        else if !(s.allDone gallery g) then .next s.idle
        else if g.completed then
          match s.collOfGallery g with
          | some c => if c.ended then s.banked (s.publishThenFinish gallery g) else .next s.idle
          | none => s.banked (s.publishThenFinish gallery g)
        else
          let s1 := s.fireRest gallery g
          let g1 := { (mget s1.galleries gallery).getD g with completed := true }
          let s2 := (s1.setGallery gallery g1).setDead g.context
          match s2.collOfGallery g1 with
          | some c => s.banked (if c.ended then s2.publishThenFinish gallery g1 else s2)
          | none => s.banked (s2.publishThenFinish gallery g1)

end Sys2Proof.Machine
end

