-- ==== Sys2Proof/Machine/SaveArea.lean ====
section
/-! DEFINITION. The save area to the byte (spec/15_preemption.md R276 to R281): context header, flight blocks, register images,
in-flight entries, instability records and saved windows. -/

namespace Sys2Proof.Machine

/-! ## Register images (R280) -/

/-- A register's record: name and form, then its ranks or its lanes. -/
def regImage (lane : Bool) (name : Nat) : RegVal → List Byte
  | .uni r0 r1 r2 =>
    leBytes 4 (name + 512) ++ leBytes 4 r0.toNat ++ leBytes 4 (if lane then 0 else r1.toNat) ++ leBytes 4 (if lane then 0 else r2.toNat)
  | .lanes m => leBytes 4 name ++ ((List.range 96).map (fun l => leBytes 4 (mgetD m l 0).toNat)).flatten

/-- The images of some registers. -/
def regImages (lane : Bool) (rs : List (Nat × RegVal)) : List Byte := (rs.map (fun p => regImage lane p.1 p.2)).flatten

/-! ## Instability records (R280) -/

/-- The record of a thread's instability condition. -/
def instImage (slot : Nat) (t : Thread) (r : InstRec) : List Byte :=
  leBytes 1 slot ++ leBytes 1 (r.icause % 16) ++ leBytes 2 (r.iop % 1024) ++ leBytes 4 r.iword.toNat
    ++ leBytes 8 r.iclause.toNat ++ leBytes 2 (r.idig % 2 ^ 14) ++ leBytes 6 0 ++ leBytes 8 r.resumePc.toNat
    ++ leBytes 1 (max 1 r.resumeOp) ++ leBytes 7 0
    ++ ((List.range 3).map (fun k => leBytes 8 ((t.hlink[k]?).getD 0).toNat)).flatten

/-! ## In-flight entries (R281) -/

/-- The number of an entry's class. -/
def EClass.num : EClass → Nat
  | .i => 0 | .t => 1 | .k => 2 | .b => 3

/-- Word 3 of an entry: the tag, the arrival count, or the high half of the chunk count. -/
def entryTag (e : Entry) : Nat :=
  match e.cls, e.pay with
  | .t, _ => e.tag
  | .b, .bar n => n
  | .k, _ => e.done / 2 ^ 16 % 2 ^ 16
  | _, _ => 0

/-- An entry, with the offset of its operand block. -/
def entryImage (e : Entry) (opnd : Nat) : List Byte :=
  let done := if e.cls = .k then e.done % 2 ^ 16 else 0
  let op := match e.body with | some _ => 1 | none => e.op
  leBytes 4 (e.cls.num + e.flag * 4 + op * 2 ^ 6 + (if e.body.isSome then 2 ^ 10 else 0) + (e.body.getD 0) % 32 * 2 ^ 11
      + done * 2 ^ 16)
    ++ leBytes 4 e.word ++ leBytes 4 (e.pc.toNat / 4) ++ leBytes 4 (entryTag e) ++ leBytes 12 (maskOf e.mask)
    ++ leBytes 4 (if e.cls = .b then 0 else opnd)

/-- The entries of a record and the operand area, which begins at an offset of the flight block. -/
def recordImage (lane : Bool) : Nat → List Entry → List Byte × List Byte
  | _, [] => ([], [])
  | off, e :: es =>
    let ops := if e.cls = .b then [] else regImages lane e.opnds
    let rest := recordImage lane (off + ops.length) es
    (entryImage e off ++ rest.1, ops ++ rest.2)

/-! ## Flight blocks (R277 to R279) -/

/-- The state byte of a thread (R279). -/
def stateByte (t : Thread) : Nat :=
  (match t.st with | .ready => 0 | .polling => 1 | .blocked => 2 | .napping => 3 | .masked => 4 | .exited => 5)
    + (if t.solo then 8 else 0) + (if t.handler then 16 else 0) + (if t.inst.isSome then 32 else 0) + (if t.barred then 64 else 0)

/-- Some bytes made to a length. -/
def padTo (n : Nat) (bs : List Byte) : List Byte := bs ++ List.replicate (n - bs.length) 0#8

/-- A value of every thread slot. -/
def perSlot (f : Flight) (n : Nat) (g : Thread → Nat) : List Byte :=
  ((List.range 96).map (fun i => leBytes n (g (f.thread i)))).flatten

/-- The plane set's bytes. -/
def planesImage : Option (NMap Word) → List Byte
  | none => []
  | some m => ((List.range 3072).map (fun k => leBytes 4 (mgetD m k 0).toNat)).flatten

/-- The clause in progress as the header gives it: next operation, body word, whether in a body, active set (R272). -/
def progress (f : Flight) : Nat × Nat × Bool × Nat :=
  match f.clause, f.body with
  | some c, _ => match c.body with
    | some b => (1, b + c.next, true, maskOf c.active)
    | none => (c.next, 0, false, maskOf c.active)
  | none, some b => (1, b.pos, true, maskOf b.group)
  | none, none => (0, 0, false, 0)

/-- The control registers of a block (R277). -/
def ctlImage (s : State) (f : Flight) : List Byte :=
  let r := ctlReg s f
  padTo 128 (leBytes 4 (r 0x100) ++ leBytes 4 (r 0x101) ++ leBytes 4 (r 0x102) ++ leBytes 4 (r 0x103) ++ leBytes 4 (r 0x106)
    ++ leBytes 4 (r 0x107) ++ leBytes 4 (r 0x108) ++ leBytes 4 (r 0x109) ++ leBytes 4 (r 0x10A) ++ leBytes 4 (r 0x10B)
    ++ leBytes 4 (r 0x10F))

/-- The flight header (R278). -/
def headerImage (f : Flight) (light : Bool) (rank entry regbytes ntrap opbytes : Nat) (planes : Bool) : List Byte :=
  let p := progress f
  let turn := f.turn.getD ([], 0)
  let bit := fun (b : Bool) (n : Nat) => if b then 2 ^ n else 0
  padTo 128 (
    leBytes 4 (1 + bit f.lane 8 + bit f.narrow 9 + bit light 10 + f.entries.length * 2 ^ 11 + bit planes 19 + bit f.turn.isSome 20)
    ++ leBytes 4 (if f.task.isSome then 2 ^ 32 - 1 else f.hall) ++ leBytes 2 f.index ++ leBytes 2 rank
    ++ leBytes 2 (if f.level == 3 then 0 else f.window) ++ leBytes 2 f.fairC ++ leBytes 8 f.turnBase ++ leBytes 4 turn.2
    ++ leBytes 12 (maskOf turn.1) ++ leBytes 4 (flagField f 0 5) ++ leBytes 4 (flagField f 5 5) ++ leBytes 4 (flagField f 10 2)
    ++ leBytes 4 (p.1 + p.2.1 % 32 * 16 + bit p.2.2.1 9) ++ leBytes 12 p.2.2.2 ++ leBytes 4 regbytes ++ leBytes 4 ntrap
    ++ leBytes 4 opbytes ++ leBytes 8 (entry / 2 ^ 34))

/-- A flight block (R277). -/
def flightImage (s : State) (f : Flight) (light : Bool) (rank entry : Nat) (planes : Option (NMap Word)) : List Byte :=
  let traps := (f.threads.filterMap (fun p => p.2.inst.map (fun r => instImage p.1 p.2 r)))
  let regs := regImages f.lane f.regs
  let pl := planesImage planes
  let base := 0x1760 + 64 * traps.length + regs.length + pl.length
  let rec_ := recordImage f.lane base f.entries
  headerImage f light rank entry regs.length traps.length rec_.2.length planes.isSome
    ++ perSlot f 8 (fun t => t.pc.toNat) ++ perSlot f 1 stateByte ++ perSlot f 2 (fun t => t.preds.toNat)
    ++ perSlot f 6 (fun t => t.rcount.toNat) ++ ctlImage s f ++ padTo 4096 rec_.1 ++ traps.flatten ++ regs ++ pl ++ rec_.2

/-! ## The area (R276) -/

/-- The rank of a flight's age among the saved flights of its quarter (R278). -/
def ageRank (v : Saved) (f : Flight) : Nat :=
  (v.flights.filter (fun p => p.2.core == f.core && p.2.quarter == f.quarter && Nat.blt p.2.age f.age)).length

/-- The blocks of a saved context's flights. -/
def blocksImage (s : State) (v : Saved) : List (List Byte) :=
  v.flights.map (fun p =>
    let entry := match mget s.galleries p.2.gallery with | some g => g.desc.entry | none => 0
    flightImage s p.2 (v.light.contains p.1) (ageRank v p.2) entry (mget v.planes p.1))

/-- The offsets at which blocks of given lengths follow one another. -/
def offsets : Nat → List Nat → List Nat
  | _, [] => []
  | a, n :: ns => a :: offsets (a + n) ns

/-- A saved window: its header and its bytes (R276). -/
def windowImage (w : Window) : List Byte := leBytes 4 w.index ++ leBytes 4 w.size ++ leBytes 8 0 ++ memRead w.bytes 0 w.size

/-- The whole save area of a context. -/
def saveImage (s : State) (context : Nat) (v : Saved) : List Byte :=
  let x := s.ctxt context
  let blocks := blocksImage s v
  let first := (v.flights.head?).map (·.2)
  let seed := (first.map (fun f => f.seed.toNat)).getD 0
  let scopes := ((first.bind (fun f => s.launchOf f)).map (·.scopes)).getD 0
  let start := 128 + 8 * blocks.length
  let sizes := blocks.map List.length
  padTo 128 (leBytes 4 1 ++ leBytes 2 (context % 4096) ++ leBytes 2 blocks.length ++ leBytes 8 seed ++ leBytes 4 x.pdead
      ++ leBytes 4 v.windows.length ++ leBytes 8 scopes
      ++ ((List.range 4).map (fun d => leBytes 4 (mgetD x.rseq d 0 % 2 ^ 18))).flatten ++ leBytes 8 128
      ++ leBytes 8 (start + sizes.sum))
    ++ ((offsets start sizes).map (leBytes 8)).flatten ++ blocks.flatten ++ (v.windows.map (fun p => windowImage p.2)).flatten

/-- Writes a saved context's area, as its banks serve it (R238, R276). -/
def State.writeArea (s : State) (context : Nat) : State :=
  match (s.ctxt context).saved with
  | none => s
  | some v => s.externalWrite (s.ctxt context).area (saveImage s context v)

/-- Whether the area's headers still have the format of this module (R309). -/
def State.areaGood (s : State) (context : Nat) (v : Saved) : Bool :=
  let a := (s.ctxt context).area
  let table := s.numAt (a + 48) 8
  s.numAt a 4 == 1 && (List.range v.flights.length).all (fun i => s.numAt (a + s.numAt (a + table + 8 * i) 8) 1 == 1)

end Sys2Proof.Machine
end

