-- ==== Sys2Proof/Machine/Preempt.lean ====
section
/-! DEFINITION. Pre-emption (spec/15_preemption.md R270 to R275, R285, R366; spec/06_isa_engines.md R178;
spec/13_preempted_sum.md R244 to R247): requests, forced and light saves, the report, resumption and replay; the actions on a
frozen flight and the end of a context (R289). -/

namespace Sys2Proof.Machine

/-! ## Requests (R270) -/

/-- PREEMPTION_REQUEST: the deadline counter starts at the deadline in force; a second request changes nothing (R270). -/
def execPreemptionRequest (context : Nat) (s : State) : Res :=
  let x := s.ctxt context
  match x.deadline with
  | some _ => .next s
  | none => .next (s.setCtxt context { x with deadline := some (s.time + x.pdead) })

/-- PREEMPTION_WITHDRAWAL: PREQ then reads 0; flights that have yielded stay saved (R270). -/
def execPreemptionWithdrawal (context : Nat) (s : State) : Res :=
  .next (s.setCtxt context { s.ctxt context with deadline := none })

/-! ## Saving a flight (R245, R272 to R274) -/

namespace State

/-- A context's saved part, empty where nothing of it is saved. -/
def savedOf (s : State) (context : Nat) : Saved := ((s.ctxt context).saved).getD ⟨[], [], [], [], false⟩

/-- Replaces a context's saved part. -/
def setSaved (s : State) (context : Nat) (v : Saved) : State :=
  s.setCtxt context { s.ctxt context with saved := some v }

/-- Performs a flight's outstanding atomics where their banks can record them, a held `.quant` POST without its publication
(R273, R284). What they owe goes with the flight (R233). -/
def settleAtomics (s : State) (u : Nat) (f : Flight) : State :=
  let s1 := s.performWhere (.save u) (fun r => r.flight == u && r.win.isNone)
  let p := s1.takeOwed f (s.core f.core).owed.length
  p.2.modFlight u (fun g => { g with owed := g.owed ++ p.1 })

/-- ATOMS_SETTLE: outstanding ATOMS are performed and returned into the saved image; no entry remains (R274). -/
def settleAtoms (s : State) (u : Nat) (f : Flight) : State :=
  let s1 := s.performWhere (.save u) (fun r => r.flight == u && r.win.isSome)
  (f.entries.foldl (fun s e =>
    match e.pay, (mget s.flights u).bind (fun g => (g.entry? e.id).map (fun x => (g, x))) with
    | .atoms _ _ _ _ _, some (g, x) => s.returnAtom u g x
    | _, _ => s) s1).retest

/-- A begun matrix operation finishes the chunk it has begun, and holds the unit for no other (R215, R245). -/
def settleMatrix (s : State) (u : Nat) (f : Flight) : State :=
  match (s.quarter f.core f.quarter).mq with
  | (v, id) :: _ =>
    if v != u then s
    else
      match f.entry? id with
      | some x =>
        match x.pay with
        | .engine e => if e.started then s.performChunk u f.core f.quarter f x e else s
        | _ => s
      | none => s
  | [] => s

/-- The writes of a flight's ST entries and completed engine operations, by the number that each bears. -/
def flightWrites (f : Flight) : List (Nat × NMap Byte) :=
  f.entries.filterMap (fun e => match e.pay with
    | .store bytes _ => some (e.id, bytes)
    | _ => none) ++ f.wrote

/-- A flight's writes take their places, unpublished, where their banks can record them (R273, R284, R366). -/
def settleWrites (s : State) (f : Flight) : State := (flightWrites f).foldl (fun s p => s.settleWrite f.core p.1 p.2) s

/-- Whether a flight's writes have all taken their places. -/
def writesSettled (s : State) (f : Flight) : Bool := (flightWrites f).all (fun p => !(s.pending f.core p.1 p.2))

/-- Takes a flight's parked engine operations and binding loads out of the miss tables (R245, R307). -/
def unparkFlight (s : State) (u : Nat) : State :=
  let keep := fun (p : Parked) => match p with
    | .engine f _ => f != u
    | .bind f _ _ => f != u
    | _ => true
  { s with dies := mmapv (fun d => { d with miss := d.miss.map (fun m => { m with parked := m.parked.filter keep }) }) s.dies }

/-- The entry as the record keeps it: to be issued again, and not begun, a COPY.G2V with the rows that a later store has written since
as it read them (R285); a T entry's banks will look for its receipts (R247). -/
def savedEntry (e : Entry) : Entry :=
  let pay := match e.pay with
    | .engine x => .engine { x with started := false, fetchAt := 0, aBlk := if x.kind == .g2v then e.fixed.map (fun p => (p.1, [p.2])) else x.aBlk }
    | p => p
  { e with
    parked := none, replay := true, pay := pay, resent := e.resent || e.cls == .t
    done := if e.cls == .i then 0 else e.done }

/-- A flight as it is saved: naps end, polls are dropped, nothing of it is scheduled (R121, R246). -/
def savedFlight (f : Flight) : Flight :=
  { f with
    threads := mmapv (fun t => if t.st == .napping then { t with st := .ready, napEnd := 0 } else t) f.threads
    entries := f.entries.map savedEntry, sb := [], stall := none, slip := false, yieldEnd := 0, pollHold := [], pollsOut := []
    wantPlanes := false, pyield := false, waiting := 0, overdue := false, score := 0, pubWait := none, waitFrom := 0
    waitHeld := 0, lowered := [], opEnd := 0 }

/-- The plane set that a flight holds in its quarter (R155). -/
def heldPlanes (s : State) (u : Nat) (f : Flight) : Option (NMap Word) :=
  ((s.quarter f.core f.quarter).planes.find? (fun p => p.2.holder == u)).map (fun p => p.2.elems)

/-- A window leaves its cluster with the context when no flight of it is resident (R245). -/
def saveWindow (s : State) (context : Nat) (w : Nat) : State :=
  if s.flights.any (fun p => p.2.win == some w) then s
  else
    match mget s.windows w with
    | none => s
    | some x =>
      let v := s.savedOf context
      { s with windows := mdel s.windows w }.setSaved context { v with windows := mset v.windows w x }

/-- Saves a resident flight, light or forced (R271 to R274, R366). -/
def saveFlight (s : State) (light : Bool) (u : Nat) : State :=
  match mget s.flights u with
  | none => s
  | some f0 =>
    let s1 := s.settleAtomics u f0
    let s2 := s1.settleAtoms u ((mget s1.flights u).getD f0)
    let s3 := s2.settleMatrix u ((mget s2.flights u).getD f0)
    let f := (mget s3.flights u).getD f0
    let planes := s3.heldPlanes u f
    let s4 := (((s3.settleWrites f).unparkFlight u).releaseUnit u f).flightEvent f 3 0
    let v := s4.savedOf f.context
    let v1 := { v with
      flights := mset v.flights u (savedFlight f)
      light := if light then u :: v.light else v.light
      planes := match planes with
        | some m => mset v.planes u m
        | none => v.planes
      reported := false }
    let s5 := { s4 with flights := mdel s4.flights u }.setSaved f.context v1
    let s6 := match f.win with
      | some w => s5.saveWindow f.context w
      | none => s5
    s6.dropStore f.core

end State

/-- FORCED_SAVE: at the deadline every resident flight of the context is frozen and saved in the same tick, and the save area
written (R270 to R276). -/
def execForcedSave (context : Nat) (s : State) : Res :=
  let x := s.ctxt context
  match x.deadline with
  | none => .next s.idle
  | some t =>
    if Nat.blt s.time t then .next s.idle
    else
      let us := (s.flights.filter (fun p => p.2.context == context)).map (·.1)
      let s1 := us.foldl (fun s u => s.saveFlight false u) s
      let s2 := s1.setSaved context (s1.savedOf context)
      let s3 := s2.setCtxt context { s2.ctxt context with deadline := none }
      s.banked ((s3.writeArea context).wake)

/-- Whether a flight that has yielded can be saved: flags zero, scoreboard clear, no I or K entry (R178). -/
def lightReady (f : Flight) : Bool :=
  f.pyield && f.clause.isNone && f.frozen.isNone && !f.debugFrozen && f.sb.isEmpty && f.flags.all (fun p => p.2 == 0)
    && f.entries.all (fun e => e.cls == .t || e.cls == .b) && !(f.entries.any (·.replay))

/-- LIGHT_SAVE: a flight that has yielded saves a light context (R178, R271). -/
def execLightSave (flight : Nat) (s : State) : Res :=
  match mget s.flights flight with
  | none => .next s.idle
  | some f => if lightReady f then s.banked ((s.saveFlight true flight).writeArea f.context).wake else .next s.idle

/-- Whether every store-class operation of a saved context is acknowledged and every atomic performed (R273). -/
def savedAcked (v : Saved) : Bool :=
  v.flights.all (fun p => p.2.entries.all (fun e => (!e.storeClass || e.acked) && (atomRequests e).all (·.done)))

/-- The state with a saved context's writes in their places; none where a full ring still keeps one from its bank (R273, R284). -/
def State.settleSaved (s : State) (v : Saved) : Option State :=
  let t := v.flights.foldl (fun s p => s.settleWrites p.2) s
  if v.flights.all (fun p => t.writesSettled p.2) && s.recordedWell t then some t else none

/-- CONTEXT_SAVED_REPORT: once no flight of the context is resident and every store-class operation is acknowledged, the context
is reported saved; a request still counting is served (R178, R273). The area stays with what it stands for (R296). -/
def execContextSavedReport (context : Nat) (s : State) : Res :=
  match (s.ctxt context).saved with
  | none => .next s.idle
  | some v =>
    if v.reported || !(savedAcked v) || s.flights.any (fun p => p.2.context == context) then .next s.idle
    else
      match s.settleSaved v with
      | none => .next s.idle
      | some t =>
        let x := t.ctxt context
        let v1 := { v with reported := true }
        let bytes := t.readLatest x.area (saveImage t context v).length
        .next ((t.setCtxt context { x with saved := some v1, deadline := none, images := (bytes, v1) :: x.images }).emit
          (.event 273 [context]))

/-! ## Placing a saved context (R246) -/

namespace State

/-- Puts a flight into a list in order of age. -/
def insertAge (p : Nat × Flight) : List (Nat × Flight) → List (Nat × Flight)
  | [] => [p]
  | q :: qs => if Nat.blt p.2.age q.2.age then p :: q :: qs else q :: insertAge p qs

/-- Some flights in order of age (R285). -/
def byAge (fs : NMap Flight) : List (Nat × Flight) := fs.foldr insertAge []

/-- What resumes together on one core: the flights of a hall, or one task flight. -/
def groupKey (p : Nat × Flight) : List Nat :=
  match p.2.task with
  | some _ => [1, p.1]
  | none => [0, p.2.gallery, p.2.hall]

/-- The saved flights that are placed together, the oldest first (R246). -/
def hallGroups (v : Saved) : List (List Nat) :=
  let fs := byAge v.flights
  ((fs.map groupKey).eraseDups).map (fun k => (fs.filter (fun p => groupKey p == k)).map (·.1))

/-- An entry whose operation goes on with a plane set of another number (R155, R219). -/
def onPlanes (set : Option Nat) (e : Entry) : Entry :=
  match e.pay with
  | .engine x => { e with pay := .engine { x with plane := if x.plane.isSome then set else none } }
  | _ => e

/-- Whether a core has the pool, slots and plane sets for some saved flights, tried in order; the state with them admitted. A flight
needs room for the registers that it holds (R196). -/
def admitSaved (s : State) (v : Saved) (core : Nat) : List Nat → Option State
  | [] => some s
  | u :: us =>
    match mget v.flights u with
    | none => s.admitSaved v core us
    | some f =>
      let quarter := if f.task.isSome then f.quarter else f.index % 4
      let planes := mget v.planes u
      let set := (List.range 8).find? (fun k => (mget (s.quarter core quarter).planes k).isNone)
      match s.admission core quarter (max f.typical f.footprint) with
      | none => none
      | some slot =>
        if planes.isSome && set.isNone then none
        else
          let (age, s) := s.fresh
          let set := if planes.isSome then set else none
          let g := { f with
            core := core, quarter := quarter, slot := slot, age := age, planes := f.planes.bind (fun _ => set)
            entries := f.entries.map (onPlanes set)
            flags := f.entries.foldl (fun m e => if e.flag == 15 then m else mset m e.flag (mgetD m e.flag 0 + 1)) [] }
          let s := s.setFlight u g
          let s := match planes, set with
            | some m, some k => s.setPlanes core quarter k ⟨u, m⟩
            | _, _ => s
          (s.count g 0x0E 1).admitSaved v core us

/-- Whether a core's control store suits the flights of a group (R302). -/
def groupSuits (s : State) (v : Saved) (core : Nat) (us : List Nat) : Bool :=
  us.all (fun u =>
    match (mget v.flights u).bind (fun f => mget s.galleries f.gallery) with
    | some g => s.storeSuits core g
    | none => true)

/-- Where a group's window is: on a cluster already, or saved. -/
def groupWin (v : Saved) (us : List Nat) : Option Nat := (us.head?.bind (fun u => mget v.flights u)).bind (·.win)

/-- Restores a group's window on a cluster, where it is saved and there is room (R246). -/
def restoreWindow (s : State) (v : Saved) (cl : Nat) (us : List Nat) : Option State :=
  match groupWin v us with
  | none => some s
  | some w =>
    match mget s.windows w, mget v.windows w with
    | some x, _ => if x.cluster == cl then some s else none
    | none, some x => if s.roomFor cl x.size then some (s.setWindow w { x with cluster := cl }) else none
    | none, none => some s

/-- The number of a hall's wing or stack (R183, R221). -/
def unitNumber (r : LaunchRec) (hall : Nat) : Nat :=
  let d := wingDims r
  if r.stacked then wingOf r hall % (d.1 * d.2.1 * d.2.2) else wingOf r hall

/-- Whether the resident flights leave a core to a saved one: those of its hall stand on that core, and those of its wing or stack in
that cluster (R183, R221). -/
def mayStand (s : State) (f : Flight) (c : Nat) : Bool :=
  match f.task, mget s.galleries f.gallery with
  | none, some g =>
    s.flights.all (fun p =>
      if p.2.gallery != f.gallery || p.2.task.isSome then true
      else if p.2.hall == f.hall then p.2.core == c
      else unitNumber g.launch p.2.hall != unitNumber g.launch f.hall || clusterOf p.2.core == clusterOf c)
  | _, _ => true

/-- A group that has been admitted to a core: its hall runs there, the core joins a session's first pass (R313), what was published to
that core for the gallery before counts (R235), and for a hall the control store is loaded again, for bodies in progress too (R38,
R169, R302). -/
def seatGroup (s : State) (us : List Nat) (f : Flight) (c : Nat) : State :=
  match mget s.galleries f.gallery with
  | none => s
  | some g =>
    let seat := fun (h : Hall) => { h with core := c, exited := false, flights := (h.flights ++ us).eraseDups }
    let halls := if f.task.isSome then g.halls else mmod g.halls f.hall seat
    let t := ((s.joinSession f.gallery c).comeTo f.gallery c).setGallery f.gallery (ranOn { g with halls := halls } c)
    let t := if f.task.isSome then t else t.loadStore c g
    us.foldl (fun s u => s.modFlight u (fun x => t.reloadBody x)) t

/-- Resumed flights have ages in the order of the ages that they were saved with (R285). -/
def reage (s : State) (us : List Nat) : State :=
  let ages := (us.filterMap (fun u => (mget s.flights u).map (·.age))).foldr insertNat []
  (us.zip ages).foldl (fun s p => s.modFlight p.1 (fun f => { f with age := p.2 })) s

/-- The first core of a list that takes a group (R246). -/
def placeGroup (s : State) (v : Saved) (us : List Nat) : List Nat → Option State
  | [] => none
  | c :: cs =>
    match us.head?.bind (fun u => mget v.flights u) with
    | none => some s
    | some f =>
      let here :=
        if s.mayStand f c && s.groupSuits v c us then (s.restoreWindow v (clusterOf c) us).bind (fun s => s.admitSaved v c us)
        else none
      match here with
      | some t => some (t.seatGroup us f c)
      | none => s.placeGroup v us cs

/-- The cores to try for a resumption: the named core, the others of its cluster, then the other clusters, ascending. -/
def resumeCores (core : Nat) : List Nat :=
  let cl := clusterOf core
  core :: ((List.range 8).map (8 * cl + ·)).filter (· != core)
    ++ ((List.range 47).map (fun i => (List.range 8).map (8 * ((cl + 1 + i) % 48) + ·))).flatten

/-- Places every group of a saved context; none where some group fits nowhere. -/
def placeSaved (s : State) (v : Saved) (sys : Bool) (core : Nat) : List (List Nat) → Option State
  | [] => some s
  | us :: gs =>
    let cores := (resumeCores core).filter (fun c => s.privilegeSuits (clusterOf c) sys)
    match s.placeGroup v us cores with
    | some s' => s'.placeSaved v sys core gs
    | none => none

end State

/-! ## Issuing entries again (R246, R285) -/

/-- The values of a load issued again: its loaded width, space and order come from its word (R281); a failed check, or the
parked slots of a binding load. -/
inductive Again where
  | ok (pay : Payload) (s : State)
  | fail (t : Trap) (key : Option MissKey)
  | none
  deriving DecidableEq, Repr

/-- The captured addresses of an entry. -/
def entryAddrs (e : Entry) : List AddrOf := e.addrs.map (fun p => AddrOf.mk p.1 p.2 true)

/-- The words of each thread of a load; with U = 1 those of the lowest thread for all (R133). -/
def againAll (u : Bool) (e : Entry) (g : AddrOf → List (List Word)) : NMap (List (List Word)) :=
  match u, entryAddrs e with
  | true, a :: _ => e.mask.map (fun i => (i, g a))
  | _, as => as.map (fun a => (a.slot, g a))

/-- The values of a load issued again, but for threads whose bytes a later store of the flight has written: those keep the values
that the load read before it (R285; DEDUCED, log 89). -/
def keepFixed (e : Entry) (uni : Bool) (vals : NMap (List (List Word))) : NMap (List (List Word)) :=
  let old := match e.pay with
    | .load _ _ _ m => m
    | .bindLoad _ m parked => m.filter (fun p => (mget parked p.1).isNone && parked.isEmpty)
    | _ => []
  vals.map (fun p => if (mget e.fixed p.1).isSome || (uni && !e.fixed.isEmpty) then (p.1, mgetD old p.1 p.2) else p)

/-- A global load issued again. -/
def againLd (s : State) (u : Nat) (f : Flight) (e : Entry) (size : MemSize) (order : MemOrder) (uni : Bool)
    (dests : List Nat) : Again :=
  let as := entryAddrs e
  match failuresOf (flightFail s f Want.load size.bytes) as with
  | some (t, k) => .fail t k
  | none =>
    if (if order = .sync then !(s.canBound f.core false) else s.atomAhead f.core (loadBytes s f size as)) then .none
    else
      let t := if order = .sync then (s.boundary u f none (some f.ctl.ordscope.toNat)).2 else s
      let (got, parked, t) := bindReads f size as (t.usePagesAs f e.core true false (as.map (·.addr)))
      if !(bindRoom t f parked) || !(bindSettled t f size as) || !(s.recordedWell t) then .none
      else
        let val := fun (a : AddrOf) =>
          if (mget parked a.slot).isSome then [[0, 0], [0, 0], [0, 0]]
          else match got.find? (fun p => p.1 == a.slot) with
            | some p => List.replicate 3 (natWords 2 p.2)
            | none => loadVals t f a.slot size (t.locate f a.addr)
        let vals := keepFixed e uni (againAll uni e val)
        let op := match e.body with | some _ => 1 | none => e.op
        let t := parked.foldl (fun s p => parkBind s u f e.core e.id p.1 p.2
          (faultRecord f ⟨.binding, 0, mgetD e.addrs p.1 0, p.2, [p.1]⟩ op e.body e.word e.pc.toNat (entryOps f e))) t
        .ok (if parked.isEmpty then .load size uni dests vals else .bindLoad dests vals parked) t

/-- Whether an LDS issued again must wait for outstanding writes of its bytes: not for those of operations still to be issued again,
which all followed it (R131, R246, R285). -/
def State.againBusy (s : State) (win : Nat) (ivs : List (Nat × Nat)) : Bool :=
  let cl := match mget s.windows win with | some w => w.cluster | none => 0
  (s.cluster cl).sb.any (fun x => x.win == win && overlaps windowGrain ivs x.writes
    && !((mget s.flights x.flight).bind (fun f => f.entry? x.entry)).any (·.replay))

/-- An I entry issued again from its captured operands (R246): loads read anew, and a COPY.G2V starts over. -/
def againI (s : State) (u : Nat) (f : Flight) (e : Entry) : Again :=
  let dests := match e.pay with
    | .load _ _ d _ => d
    | .bindLoad d _ _ => d
    | _ => []
  match e.pay, decodeWord e.word with
  | .engine x, _ => .ok (.engine x) s
  | _, .ok (.ld uni _ _ size order _) => againLd s u f e size order uni dests
  | _, .ok (.lds uni _ _ size _) =>
    let win := f.win.getD 0
    let as := entryAddrs e
    if s.againBusy win (spans size.bytes as) || s.atomsAhead u e.mask (spans size.bytes as) then .none
    else .ok (.load size uni dests (keepFixed e uni (againAll uni e
      (fun a => List.replicate 3 (widen size (leNat (s.winRead win a.addr size.bytes))))))) s
  | _, .ok (.ldc uni _ _ size _) =>
    match mget s.galleries f.gallery with
    | none => .ok e.pay s
    | some g =>
      let (vs, s) := ldcReads g size (entryAddrs e) s
      .ok (.load size uni dests (keepFixed e uni (againAll uni e (fun a =>
        List.replicate 3 (widen size (((vs.find? (fun p => p.1 == a.slot)).map (·.2)).getD 0)))))) s
  | p, _ => .ok p s

/-- The destinations of an entry, whose scoreboard bits replay sets again (R280). -/
def entryDests (e : Entry) : List Nat :=
  match e.pay with
  | .load _ _ d _ => d
  | .bindLoad d _ _ => d
  | .atom false _ _ d _ => d
  | .engine x => if x.kind == .g2v then x.n0.map (·.2) else []
  | _ => []

/-- Whether an entry holds a place in the matrix unit's queue (R155). -/
def matrixEntry (e : Entry) : Bool :=
  match e.pay with
  | .engine x => x.kind == .mma || x.kind == .mmag || x.kind == .mld || x.kind == .mst || x.kind == .mzero || x.kind == .mfree
  | _ => false

namespace State

/-- A K entry takes its scoreboard entry again, over the same intervals (R241, R246). -/
def takeAgain (s : State) (u : Nat) (f : Flight) (e : Entry) : State :=
  match e.pay with
  | .engine x =>
    let x := { x with key := takeKey s f, win := f.win.getD x.win }
    (s.modFlight u (fun g => g.setEntry { e with pay := .engine x })).takeSb f u e.id x
  | _ => s

/-- A resumed flight's K entries take their scoreboard entries in record order, as its slice has room (R241, R246). -/
def takeDue (s : State) (u : Nat) : State :=
  match mget s.flights u with
  | none => s
  | some f => (s.dueSb f).foldl (fun s e => if Nat.ble 256 (s.sliceUse f.core) then s else s.takeAgain u f e) s

/-- An entry has been issued again. -/
def markAgain (s : State) (u : Nat) (f : Flight) (e : Entry) (pay : Payload) : State :=
  let s := s.modFlight u (fun g => g.setEntry { e with pay := pay, replay := false, issued := s.cycAt f.core })
  if e.cls == .b then s else s.countAt e.core f 0x37 1

/-- A replayed entry that traps: the flight freezes, and remembers which entry it was (R289). -/
def againTrap (s : State) (u : Nat) (f : Flight) (e : Entry) (t : Trap) (key : Option MissKey) : State :=
  let op := match e.body with | some _ => 1 | none => e.op
  let s1 := match key with
    | some k => missTrap s u f t k e.core op e.body e.word e.pc.toNat (entryOps f e)
    | none => s.freezeTrap u f t op e.body e.word e.pc.toNat (entryOps f e)
  s1.modFlight u (fun g => { g with frozen := g.frozen.map (fun z => { z with entry := some e.id }) })

/-- Issues again the entries of a flight in record order, up to the next T entry or one that must wait (R246); `n` bounds the
entries. A frozen flight issues nothing (R188). -/
def replayOn (s : State) (u : Nat) : Nat → State
  | 0 => s
  | n + 1 =>
    match (mget s.flights u).bind (fun f => (f.entries.find? (·.replay)).map (fun e => (f, e))) with
    | none => s.wake
    | some (f, e) =>
      if f.frozen.isSome || !(s.hallHeld f) then s
      else
        match e.cls with
        | .t => s
        | .b => (s.markAgain u f e e.pay).replayOn u n
        | .k =>
          let q := s.quarter f.core f.quarter
          if matrixEntry e && s.mqFull f.core f.quarter then s
          else
            let s := s.markAgain u f e e.pay
            let s := if matrixEntry e then (s.setQuarter f.core f.quarter { q with mq := q.mq ++ [(u, e.id)] }).startFetches f.core else s
            s.replayOn u n
        | .i =>
          match againI s u f e with
          | .ok pay s => (s.markAgain u f e pay).replayOn u n
          | .none => s
          | .fail t key => s.againTrap u f e t key

/-- A resumed flight rejoins: Refresh(3) behind the core's outstanding atomics, its suppressed writes adopted, its destinations
scoreboarded (R228, R232, R246, R280, R366). -/
def rejoin (s : State) (u : Nat) : State :=
  match mget s.flights u with
  | none => s
  | some f =>
    let s := (s.drain f.core).refresh f.core (members (s.scopesOf f.gallery) 3 f.core)
    let s := f.wrote.foldl (fun s p => s.adopt f.core p.1 p.2) s
    (s.modFlight u (fun g => { g with sb := (g.entries.map entryDests).flatten })).flightEvent f 4 f.core

/-- A flight's whole barrier generation completes (R139). -/
def completeBarrier (s : State) (u : Nat) : State :=
  match mget s.flights u with
  | some f => if f.threads.any (fun t => t.2.barred) then s.barrierCheck u f else s
  | none => s

/-- Replays a flight's entries as far as they go now; a generation that its arrivals make whole completes (R139, R246). -/
def replay (s : State) (u : Nat) : State :=
  match mget s.flights u with
  | none => s
  | some f => (s.replayOn u (f.entries.length + 1)).completeBarrier u

/-- What waited for room, a conflict or a bank goes on where it can now: scoreboard entries taken again and entries replayed (R241,
R246), barriers (R139) and AWAITs (R141). -/
def retryWaits (s : State) : State :=
  let us := (byAge (s.flights.filter (fun p => p.2.entries.any (·.replay)))).map (·.1)
  let s1 := us.foldl replay (us.foldl takeDue s)
  let waits := (s1.flights.filter (fun p => p.2.threads.any (fun t => t.2.barred))).map (·.1)
  (waits.foldl completeBarrier s1).retest

/-- A die without a context's queued tasks and parked flights. -/
def clearDie (context : Nat) (us : List Nat) (d : Die) : Die :=
  let keep := fun (p : Parked) => match p with
    | .flight u _ => !(us.contains u)
    | _ => true
  { d with
    taskqs := d.taskqs.filter (fun p => p.1 / 8 != context)
    miss := d.miss.map (fun (m : MissEnt) => { m with parked := m.parked.filter keep }) }

/-- Ends a context: its flights, queued tasks and saved part are gone, its collectives fail, and its galleries complete with
status 7 (R289, R309, R355). -/
def endContext (s : State) (context : Nat) : State :=
  let us := (s.flights.filter (fun p => p.2.context == context)).map (·.1)
  let s1 := us.foldl (fun s u =>
    match mget s.flights u with
    | some f =>
      let s := (s.releaseUnit u f).unparkFlight u
      ({ s with flights := mdel s.flights u }).dropStore f.core
    | none => s) s
  let mine := fun (g : Nat) => match mget s1.galleries g with | some x => x.context == context | none => false
  let gone : List Nat := us ++ (s.savedOf context).flights.map (fun p => p.1)
  let s2 : State := { s1 with
    windows := s1.windows.filter (fun p => !(mine p.2.gallery))
    galleries := mmapv (fun (g : Gallery) => if g.context == context then { g with ended := some 7 } else g) s1.galleries
    dies := mmapv (clearDie context gone) s1.dies }
  let s3 := (s2.colls.filter (fun p => p.2.context == context)).foldl (fun s p => s.failColl p.1 p.2 7) s2
  ((s3.setCtxt context { s3.ctxt context with saved := none, images := [], deadline := none, live := [] }).setDead context).wake

end State

/-- The receipts of a context are purged (R296). -/
def State.purgeReceipts (s : State) (context : Nat) : State :=
  (s.emptyBooks context).setCtxt context { s.ctxt context with live := [] }

/-- What CONTEXT_RESUME resumes, with the state it starts from. With every flight out, an area that holds an older image stands for
that image, whose memory system software has restored; its receipts are purged first (R296; log 52). Otherwise it is the context as
last saved, once it is reported or while other flights of it are resident, and its writes are in their places (R246, R273). -/
def State.resumable (s : State) (context : Nat) : Option (Saved × State) :=
  let x := s.ctxt context
  let alone := !(s.flights.any (fun p => p.2.context == context))
  let older := x.images.drop (if x.saved.isSome then 1 else 0)
  let reported := match x.saved with | some v => v.reported | none => true
  let current := match x.images.head? with | some p => x.saved.isSome && s.readLatest x.area p.1.length == p.1 | none => false
  let live := fun (v : Saved) => v.flights.all (fun p => match mget s.galleries p.2.gallery with
    | some g => !g.completed && g.ended.isNone
    | none => false)
  match if alone && reported && !current then older.find? (fun p => s.readLatest x.area p.1.length == p.1 && live p.2) else none with
  | some p => some (p.2, s.purgeReceipts context)
  | none =>
    match x.saved with
    | some v => if v.reported || !alone then (s.settleSaved v).map (fun t => (v, t)) else none
    | none => none

/-- CONTEXT_RESUME: a saved context's windows and flights are restored on the named core and those that follow it, its K entries
take their scoreboard entries, and its entries are issued again in order, flight by flight in order of age (R38, R141, R210, R246,
R285, R296, R303). A save area of another format is refused and its galleries end with status 7 (R309). -/
def execContextResume (context core : Nat) (s : State) : Res :=
  let x := s.ctxt context
  match s.resumable context, x.deadline with
  | some (v, s0), none =>
    if Nat.ble 384 core then .next s.idle
    else if !(s.areaGood context v) then .next (s.endContext context)
    else
      match s0.placeSaved v x.sys core (State.hallGroups v) with
      | none => .next s.idle
      | some placed =>
        let us := (State.byAge v.flights).map (·.1)
        let s1 := placed.reage us
        let cores := ((us.filterMap (fun u => mget s1.flights u)).map (·.core)).eraseDups
        if !(cores.all (fun c => s1.canBound c false)) then .next s.idle
        else
          let s2 := s1.setCtxt context { s1.ctxt context with saved := none }
          let s3 := us.foldl State.takeDue (us.foldl State.rejoin s2)
          let t := ((us.foldl State.replay s3).retest).wake
          if s0.recordedWell t then .next t else .next s.idle
  | _, _ => .next s.idle

/-! ## Resending T entries (R247, R284, R366) -/

/-- The units of a store that a receipt suppresses, and those it does not. -/
def suppressed (s : State) (tag : Nat) (bytes : NMap Byte) : NMap Byte × NMap Byte :=
  let done := fun (p : Nat × Byte) => !(s.receiptsOf tag (p.1 / 8 * 8)).isEmpty
  (bytes.filter done, bytes.filter (fun p => !(done p)))

/-- A T entry with its requests to be sent again; a refused request stays refused. -/
def resendReqs (rs : List AtomReq) : List AtomReq := rs.map (fun r => if r.refused then r else { r with done := false })

/-- A resent T entry reaches its banks: a receipt suppresses it and gives its old value, and an operation never performed is
performed and recorded (R247). A suppressed ST becomes a write of the resuming core (R366). -/
def State.resend (s : State) (u : Nat) (f : Flight) (e : Entry) : State :=
  let e := { e with replay := false, acked := false }
  let put := fun (s : State) (x : Entry) => s.modFlight u (fun g => g.setEntry x)
  match e.pay with
  | .store bytes _ =>
    let p := suppressed s e.tag bytes
    let pas := p.2.map (·.1)
    let s := (put s e).adopt f.core e.id p.1
    (s.ownWrites f.core e.id p.2).settle f.core s.nextId pas
  | .atom post op use dests rs =>
    (put s { e with pay := .atom post op use dests (resendReqs rs) }).performWhere .agent (fun r => r.flight == u && r.entry == e.id)
  | .tjoin rs => (put s { e with pay := .tjoin (resendReqs rs) }).performJoin u e.id
  | _ => put s e

/-- Whether a resent entry has reached its banks: a full ring keeps one that was never performed from its bank (R284). -/
def State.resentWhole (s : State) (u : Nat) (f : Flight) (e : Entry) : Bool :=
  match e.pay, (mget s.flights u).bind (fun g => g.entry? e.id) with
  | .store bytes _, _ => !(s.pending f.core e.id bytes)
  | _, some x => e.heldPost || (match x.pay with
    | .tjoin rs => rs.all (·.done)
    | _ => (atomRequests x).all (·.done))
  | _, none => false

/-- T_ENTRY_RESEND: the next entry of a resumed flight, of class T, is sent again with its tag; the entries after it follow, up to
the next T entry (R246, R247). -/
def execTEntryResend (flight entry : Nat) (s : State) : Res :=
  match (mget s.flights flight).bind (fun f => (f.entries.find? (·.replay)).map (fun e => (f, e))) with
  | none => .next s.idle
  | some (f, e) =>
    if e.id != entry || e.cls != .t || f.frozen.isSome || !(s.hallHeld f) then .next s.idle
    else
      let t := s.resend flight f e
      if t.resentWhole flight f e && s.recordedWell t then .next (((t.countAt e.core f 0x37 1).replay flight).wake) else .next s.idle

/-! ## Frozen flights and the end of a context (R289) -/

/-- The threads of an instability report stand at their resume points, ready (R205, R289). -/
def Flight.unmask (f : Flight) : Flight :=
  { f with threads := mmapv (fun (t : Thread) =>
      match t.st, t.inst, t.handler with
      | .masked, some r, false => { t with st := .ready, pc := r.resumePc, fromOp := r.resumeOp, fromBody := r.resumeBody, inst := none }
      | _, _, _ => t) f.threads }

/-- Whether a frozen flight was frozen by an instability report (R286). -/
def Frozen.instability (z : Frozen) : Bool := z.code == .instC || z.code == .instD || z.code == .instZ

/-- Threads at the clause of a report stand after it: going on past a trap at the clause's start (R289). -/
def State.passClause (s : State) (f : Flight) (z : Frozen) : Flight :=
  let pc := recField z.report 8 8
  let n := (Clause.header (s.numAt (s.locate f pc).pa 4)).len + 2
  f.modThreads (f.group pc) (fun t => { t with pc := BitVec.ofNat 64 (pc + 4 * n), fromOp := 0, fromBody := none })

/-- A flight past an entry whose replay trapped: the operation is over, its destinations as they stand or as system software wrote
them, its flag falls, and what follows in the record is replayed (R289). -/
def Flight.passEntry (f : Flight) (id now : Nat) : Flight :=
  match f.entry? id with
  | some e => ({ f with sb := f.sb.filter (fun n => !((entryDests e).contains n)) }.complete e).lowerAt now e.flag
  | none => f

/-- FLIGHT_RESUME: the control cores let a frozen flight go on at the trapping operation or at the next one; threads of an
instability report go on at their resume points, and a breakpoint is passed (R205, R289, R337). -/
def execFlightResume (flight : Nat) (how : ResumeHow) (s : State) : Res :=
  match mget s.flights flight with
  | none => .next s.idle
  | some f =>
    match f.frozen with
    | none => .next s.idle
    | some z =>
      let skip := if z.code == .bkpt && z.op == 0 then (recField z.report 24 4 - 0x80, recField z.report 8 8) :: f.bpSkip else f.bpSkip
      let g := { f with bpSkip := skip }
      let g := if z.instability then g.unmask else g
      let s1 :=
        match how, z.entry, f.clause, z.code with
        | .next, some id, _, _ => (s.setFlight flight { f.passEntry id (s.cycAt f.core) with frozen := none }).wake
        | .retry, some _, _, _ => (s.setFlight flight { f with frozen := none }).wake
        | .next, none, none, .illegal => (s.setFlight flight { s.passClause g z with frozen := none }).wake
        | _, _, _, _ =>
          if z.instability then (s.setFlight flight { g with frozen := none }).wake
          else s.unfreezeTrap flight g (if z.code == TrapCode.late then .retry else how)
      .next (s1.replay flight)

/-- CONTEXT_END: the control cores end a context (R289). -/
def execContextEnd (context : Nat) (s : State) : Res := .next (s.endContext context)

end Sys2Proof.Machine
end

