-- ==== Sys2Proof/Machine/Faults.lean ====
section
/-! DEFINITION. The end of a miss (spec/15_preemption.md R292, R293; spec/16_compat.md R306; spec/20_collectives.md R354), the
invalidation of translations (R292) and errors in arrays (R295). -/

namespace Sys2Proof.Machine

/-! ## Collectives that wait for a page (R354) -/

/-- Whether a collective holds for a key. -/
def Coll.waitsFor (key : MissKey) (c : Coll) : Bool := c.holds.any (fun h => h.2.2 == key)

namespace State

/-- Whether any collective holds for a key. -/
def collsWait (s : State) (key : MissKey) : Bool := s.colls.any (fun p => p.2.waitsFor key)

/-- The collectives that hold for a key go on (R354). -/
def freeColls (s : State) (key : MissKey) : State :=
  { s with colls := mmapv (fun c => { c with holds := c.holds.filter (fun h => h.2.2 != key) }) s.colls }

/-- The collectives that hold for a key fail (R354). -/
def dropColls (s : State) (key : MissKey) : State :=
  (s.colls.filter (fun p => p.2.waitsFor key)).foldl (fun s p => s.failColl p.1 p.2 7) s

/-! ## Parked flights -/

/-- A flight, resident or saved. -/
def anyFlight (s : State) (u : Nat) : Option Flight :=
  match mget s.flights u with
  | some f => some f
  | none => (s.savedIn u).map (fun p => p.2.2.2)

/-- Whether a miss froze a flight. -/
def missed (f : Flight) : Bool := match f.frozen with | some z => z.code == .translation | none => false

/-- A flight frozen by a miss goes on at its operation; a saved one is no longer frozen (R147, R289, R293). -/
def thaw (s : State) (u : Nat) : State :=
  match mget s.flights u with
  | some f => if missed f then (s.unfreezeTrap u f .retry).replay u else s
  | none =>
    match s.savedIn u with
    | some (c, _, v, f) =>
      if missed f then s.setSaved c { v with flights := mset v.flights u { f with frozen := none } } else s
    | none => s

/-- A flight parked behind a declined key takes its own trap: its record is written, and it stays frozen (R293). -/
def ownTrap (s : State) (u : Nat) (report : List Byte) : State :=
  match s.anyFlight u with
  | some f =>
    if report.isEmpty || !(missed f) then s
    else s.raiseTrap f .translation report
  | none => s

/-! ## Parked engine operations (R147) -/

/-- A parked engine operation goes on. -/
def unparkEngine (s : State) (u id : Nat) : State :=
  s.modFlight u (fun f => match f.entry? id with
    | some e => f.setEntry { e with parked := none }
    | none => f)

/-- The global address of an engine operation's next chunk; 0 where it has none (R287). -/
def chunkVa (e : Engine) (n : Nat) : Nat :=
  let parts := copyParts e.len16
  let row := ((mgetD e.per 0 [])[n / parts]?).getD 0
  let off := n % parts * 4096
  match e.kind, e.per[n]? with
  | .g2s, _ => (e.src + 16 * row * e.spitch + off) % 2 ^ 64
  | .s2g, _ => (e.dst + 16 * row * e.dpitch + off) % 2 ^ 64
  | .gath, some (_, _ :: g :: _) => g
  | .g2v, some (_, h :: _) => (e.src + 16 * h * e.spitch) % 2 ^ 64
  | _, _ => 0

/-- The address at which an engine operation's next chunk fails: that of its check, or where its data are in error that of the
chunk (R287). -/
def chunkAddr (s : State) (f : Flight) (x : Entry) (e : Engine) : Nat :=
  let r := match e.kind with
    | .gath => gathChunk s f x e x.done
    | .g2v => g2vChunk s f x e x.done
    | _ => copyChunk s f x e x.done
  match r with
  | .miss _ a _ => a
  | .stop _ a => a
  | .next _ _ => chunkVa e x.done

/-- ENGINE_STOP: an engine operation stops at its next chunk with a late fault of a cause (R147, R295); what its scoreboard entry held
begins to fetch (R216). -/
def stopNext (s : State) (u id : Nat) (code : TrapCode) : State :=
  match (mget s.flights u).bind (fun f => (f.entry? id).map (fun e => (f, e))) with
  | some (f, x) =>
    match x.pay with
    | .engine e => ((s.stopEngine u id code.num (s.chunkAddr f x e) x.done).startFetches f.core).retest
    | _ => s
  | none => s

/-! ## Parked binding loads (R305, R306) -/

/-- The threads that a parked load of a slot stands for: with one address, every thread of the load (R133). -/
def parkedThreads (e : Entry) (slot : Nat) : List Nat := if e.addrs.length == 1 then e.mask else [slot]

/-- A value for a parked thread's load. -/
def fillLoad (e : Entry) (slot v : Nat) : Entry :=
  match e.pay with
  | .bindLoad dests vals parked =>
    let vals := (parkedThreads e slot).foldl (fun m i => mset m i (List.replicate 3 (natWords 2 v))) vals
    { e with pay := .bindLoad dests vals (mdel parked slot) }
  | _ => e

/-- A parked load reads its slot again (R306). -/
def rereadSlot (s : State) (u id slot : Nat) : State :=
  match (mget s.flights u).bind (fun f => (f.entry? id).map (fun e => (f, e))) with
  | some (f, e) =>
    let p := readSlot s f.core (s.locate f (mgetD e.addrs slot 0)).pa
    p.2.modFlight u (fun g => g.setEntry (fillLoad e slot p.1))
  | none => s

/-- A declined parked load: zero, and a late fault that its flag's wait, a read of its destination or retirement delivers
(R306). -/
def zeroSlot (s : State) (u id slot k : Nat) : State :=
  match (mget s.flights u).bind (fun f => (f.entry? id).map (fun e => (f, e))) with
  | some (f, e) =>
    let op := match e.body with | some _ => 1 | none => e.op
    let r := faultRecord f ⟨.late, TrapCode.binding.num, mgetD e.addrs slot 0, k, parkedThreads e slot⟩ op e.body e.word
      e.pc.toNat (entryOps f e)
    let g := f.setEntry (fillLoad e slot 0)
    s.setFlight u { g with late := g.late ++ [⟨e.flag, e.id, r, entryDests e⟩] }
  | none => s

/-! ## Resolving and declining keys (R293) -/

/-- What waits behind a key is released. -/
def releaseParked (s : State) : Parked → State
  | .flight u _ => s.thaw u
  | .engine u id => s.unparkEngine u id
  | .bind u id slot => s.rereadSlot u id slot
  | .queue _ _ => s

/-- What waits behind a declined key. -/
def declineParked (s : State) (key : MissKey) : Parked → State
  | .flight u r => s.ownTrap u r
  | .engine u id => s.stopNext u id .translation
  | .bind u id slot => s.zeroSlot u id slot (match key with | .slot _ k => k | .page _ _ => 0)
  | .queue q n => s.setQueue q { s.queue q with declined := (s.queue q).declined ++ [(n, key)] }

/-- The entry of a key leaves a die's table. -/
def dropMiss (s : State) (die : Nat) (key : MissKey) : State :=
  let k := s.die die
  s.setDie die { k with miss := k.miss.filter (fun m => m.key != key) }

/-- What is parked behind a key on a die, in order of arrival. -/
def parkedOn (s : State) (die : Nat) (key : MissKey) : List Parked :=
  match s.missOf die key with
  | some m => m.parked
  | none => []

/-- A die's key is released (R293). -/
def releaseKey (s : State) (key : MissKey) (die : Nat) : State :=
  (s.parkedOn die key).foldl State.releaseParked (s.dropMiss die key)

/-- A die's key is declined (R293). -/
def declineKey (s : State) (key : MissKey) (die : Nat) : State :=
  (s.parkedOn die key).foldl (fun s p => s.declineParked key p) (s.dropMiss die key)

/-- The dies whose tables hold a key. -/
def diesWith (s : State) (key : MissKey) : List Nat := (List.range 4).filter (fun d => (s.missOf d key).isSome)

end State

/-- TRANSLATION_KEY_RESOLVED: everything parked behind the key is released in order of arrival, and collectives that hold for
the page go on (R147, R293, R354). -/
def execTranslationKeyResolved (die : Nat) (key : MissKey) (s : State) : Res :=
  let t := (s.releaseKey key die).freeColls key
  if ((s.missOf die key).isSome || s.collsWait key) && s.recordedWell t then .next t.wake else .next s.idle

/-- TRANSLATION_KEY_DECLINED: each parked access takes its own trap, an engine operation stops, a record meets the refusal of
its page, and collectives that hold for the page fail (R147, R293, R306, R354, R367). -/
def execTranslationKeyDeclined (die : Nat) (key : MissKey) (s : State) : Res :=
  if (s.missOf die key).isSome || s.collsWait key then .next ((s.declineKey key die).dropColls key).wake else .next s.idle

/-- The physical address of a gallery's binding slot (R304). -/
def slotAddr (s : State) (g : Gallery) (slot : Nat) : Option Nat :=
  let va := g.desc.bindings + 8 + 8 * slot
  if g.desc.bindings == 0 || !(Nat.blt slot g.nslot) then none
  else match s.walk g.context (va % 2 ^ 57) with
    | .ok e => some (e.frameAddr (va % 2 ^ 57) 0)
    | _ => none

/-- BINDING_SLOT_RESOLVE: system software writes a non-zero value into the slot at system scope and releases the key; parked
loads read the slot again (R306). -/
def execBindingSlotResolve (gallery slot : Nat) (value : BitVec 64) (s : State) : Res :=
  match mget s.galleries gallery with
  | none => .next s.idle
  | some g =>
    match slotAddr s g slot with
    | none => .next s.idle
    | some pa =>
      if value == 0 then .next s.idle
      else
        let key := MissKey.slot g.context slot
        let t := (s.diesWith key).foldl (fun s d => s.releaseKey key d) (s.externalWrite pa (leBytes 8 value.toNat))
        if s.recordedWell t then .next t.wake else .next s.idle

/-- BINDING_SLOT_DECLINE: parked loads write zero and complete, each with a late fault (R306). -/
def execBindingSlotDecline (gallery slot : Nat) (s : State) : Res :=
  match mget s.galleries gallery with
  | none => .next s.idle
  | some g =>
    let key := MissKey.slot g.context slot
    match s.diesWith key with
    | [] => .next s.idle
    | ds => .next (ds.foldl (fun s d => s.declineKey key d) s).wake

/-! ## Invalidation (R292) -/

/-- INVALIDATION: the control cores ask for a context and range; nothing changes until every TLB has acknowledged it (R292). -/
def execInvalidation (context base len : Nat) (s : State) : Res :=
  let (n, s1) := s.fresh
  .next { s1 with invals := mset s1.invals n ⟨context, base, len⟩ }

/-- Whether an entry maps a part of the range of an invalidation. -/
def Inval.hits (v : Inval) (e : TlbEnt) : Bool :=
  e.context == v.context && Nat.blt (e.vpn * 4096) (v.base + v.len) && Nat.blt v.base ((e.vpn + e.pages) * 4096)

/-- INVALIDATION_EFFECT: every TLB has acknowledged; accesses checked from now on walk the table anew (R292). -/
def execInvalidationEffect (ident : Nat) (s : State) : Res :=
  match mget s.invals ident with
  | none => .next s.idle
  | some v =>
    let keep := fun (es : List TlbEnt) => es.filter (fun e => !(v.hits e))
    .next { s with
      invals := mdel s.invals ident
      cores := mmapv (fun (k : Core) => { k with tlb := keep k.tlb }) s.cores
      clusters := mmapv (fun (k : Cluster) => { k with tlb := keep k.tlb }) s.clusters }.wake

/-! ## Errors (R295) -/

/-- The registers and addresses of an operation that reads memory, the cluster store or constant space. -/
def dataRead (f : Flight) (c : ClauseRun) : Instr → Option (List Nat × List AddrOf)
  | .ld u _ base size _ off => some (f.block base.toNat 2, globalAddrs f c u base (off.toNat * size.bytes))
  | .lds u _ base size off => some ([f.regName base.toNat], storeAddrs f c u base (off.toNat * size.bytes))
  | .ldc u _ base size off => some ([f.regName base.toNat], storeAddrs f c u base (off.toNat * size.bytes))
  | .atom aop use d a off =>
    some (inOrder [(f.block d.toNat (atomWidth aop use)).take aop.regs, f.block a.toNat 2],
      globalAddrs f c false a (off.toNat * aop.bytes))
  | .post aop use d a off =>
    some (inOrder [(f.block d.toNat (atomWidth aop use)).take aop.regs, f.block a.toNat 2],
      globalAddrs f c false a (off.toNat * aop.bytes))
  | .atoms aop use d a off =>
    some (inOrder [(f.block d.toNat (atomWidth aop use)).take aop.regs, [f.regName a.toNat]],
      storeAddrs f c false a (off.toNat * aop.bytes))
  | .arrive a => some ([f.regName a.toNat], storeAddrs f c false a 0)
  | .await a b => some ([f.regName a.toNat, f.regName b.toNat], storeAddrs f c false a 0)
  | .waitge _ a b => some (inOrder [f.block a.toNat 2, [f.regName b.toNat]], globalAddrs f c false a 0)
  | .tjoin a => some (f.block a.toNat 2, globalAddrs f c false a 0)
  | _ => none

/-- An error in the data that a flight's next operation reads: code 13 at that operation (R295). -/
def readError (s : State) (u : Nat) : Res :=
  match mget s.flights u with
  | none => .next s.idle
  | some f =>
    match f.clause with
    | none => .next s.idle
    | some c =>
      match decodeWord c.word with
      | .ok i =>
        match dataRead f c i, f.frozen with
        | some (srcs, as), none =>
          .next (s.takeTrap u f c srcs ⟨.dataError, 0, (as.head?.map (·.addr)).getD 0, 0, c.act⟩)
        | _, _ => .next s.idle
      | .error _ => .next s.idle

/-- The contexts with a live receipt at a bank, in its book or moved from there to the die's ring; banks are numbered across the
dies, 128 to a die (R224, R283, R284, R295). -/
def receiptOwners (s : State) (bank : Nat) : List Nat :=
  let k := s.die (bank / 128)
  ((mgetD k.books (bank % 128) [] ++ k.spill.filter (fun r => State.homeBank r.pa == bank % 128)).map (fun r => r.tag / 2 ^ 20)).eraseDups

/-- UNCORRECTABLE_ERROR: a trap, a late fault, the end of the owning contexts, or the failure of a collective (R295, R354). -/
def execUncorrectableError (target : ErrTarget) (s : State) : Res :=
  match target with
  | .read u => readError s u
  | .engine u id =>
    match (mget s.flights u).bind (fun f => f.entry? id) with
    | none => .next s.idle
    | some e =>
      match e.pay with
      | .engine _ => .next (s.stopNext u id .dataError).wake
      | _ => .next s.idle
  | .owned c => .next (s.endContext c)
  | .bank b => .next ((receiptOwners s b).foldl State.endContext s)
  | .collective i =>
    match mget s.colls i with
    | some c => .next (s.failColl i c 7).wake
    | none => .next s.idle

/-- CORRECTABLE_ERROR: the die counts it in its array class, and an error in a core's arrays is an event that belongs to no
context (R295, R333, R368). -/
def execCorrectableError (die cls : Nat) (core : Option Nat) (s : State) : Res :=
  let k := s.die die
  let s1 := s.setDie die { k with corr := mset k.corr cls (mgetD k.corr cls 0 + 1) }
  match core with
  | some c => .next (s1.countAll c 0x38 1)
  | none => .next s1

end Sys2Proof.Machine
end

