-- ==== Sys2Proof/Machine/Collective.lean ====
section
/-! DEFINITION. The collective engine (spec/20_collectives.md R346 to R355; spec/19_experts.md R341, R342): the choice of a
segment, reading and combining segments, trigger faults, traffic of the other members, and failures. -/

namespace Sys2Proof.Machine

/-! ## Combining (R349) -/

/-- One element combined with the next rank's (R349). -/
def combine1 (cop ctype : Nat) (x y : Nat) : Nat :=
  let sx := BitVec.toInt (BitVec.ofNat 32 x)
  let sy := BitVec.toInt (BitVec.ofNat 32 y)
  match ctype, cop with
  | 0, 0 => (fAdd fp32 (Rnd.all .near) x y).pat
  | 1, 0 => (fAdd fp64 (Rnd.all .near) x y).pat
  | 2, 0 => (x + y) % 2 ^ 32
  | 0, n => (fMinMax fp32 (n == 2) x y).pat
  | 1, n => (fMinMax fp64 (n == 2) x y).pat
  | _, 1 => if sx ≤ sy then x else y
  | _, _ => if sx ≤ sy then y else x

/-- The elements of a segment, of w bytes each. -/
def elements (w : Nat) (bs : List Byte) : List Nat :=
  (List.range (bs.length / w)).map (fun i => leNat ((bs.drop (w * i)).take w))

/-- Two segments combined element by element. -/
def combineSeg (cop ctype : Nat) (a b : List Byte) : List Byte :=
  let w := if ctype == 1 then 8 else 4
  (((elements w a).zip (elements w b)).map (fun p => leBytes w (combine1 cop ctype p.1 p.2))).flatten

/-- The segments of the ranks combined in ascending rank, from rank 0 (R341, R349). -/
def combineRanks (cop ctype : Nat) : List (List Byte) → List Byte
  | [] => []
  | x :: xs => xs.foldl (combineSeg cop ctype) x

/-! ## Segments (R351) -/

namespace Coll

/-- Bytes of segment g of a tile (R351). -/
def segBytes (c : Coll) (g : Nat) : Nat := min 65536 (c.tbytes - 65536 * g)

/-- What arrived or was read of a rank's segment. -/
def segData (c : Coll) (rank chunk seg : Nat) : Option (List Byte) :=
  (c.data.find? (fun d => d.1 == rank && d.2.1 == chunk && d.2.2.1 == seg)).map (fun d => d.2.2.2)

/-- Whether this module takes part in the result of a chunk (R348). -/
def wants (c : Coll) (rank chunk : Nat) : Bool := c.ckind == 1 || c.ckind == 3 || chunk % c.count == rank

/-- The ranks whose modules need this module's segments of a chunk (R348). -/
def targets (c : Coll) (chunk : Nat) : List Nat := (List.range c.count).filter (fun r => r != c.rank && c.wants r chunk)

/-- The bytes of a result segment, once every segment it needs is at hand (R348, R349). -/
def result (c : Coll) (rank chunk seg : Nat) : Option (List Byte) :=
  if Nat.ble c.ckind 2 then
    let ds := (List.range c.count).map (fun r => c.segData r chunk seg)
    if ds.all (·.isSome) then some (combineRanks c.cop c.ctype (ds.filterMap id)) else none
  else c.segData rank chunk seg

/-- A destination's key in `written`. -/
def destKey (d : Nat × Nat × Nat) : Nat := d.1 * 65536 + d.2.1

end Coll

/-- One piece of the engine's work: reading a segment of a fired chunk, or writing the next segment of a destination. -/
inductive Work where
  | read (chunk : Nat)
  | write (rank chunk addr : Nat)
  deriving DecidableEq, Repr

/-- Whether a die's engine holds a collective for a page of a tile that it reads, or of a destination that it writes (R354). -/
def Coll.heldAt (c : Coll) (die : Nat) (read : Bool) : Bool := c.holds.any (fun h => h.1 == die && h.2.1 == read)

/-- What a die's engine can do for a collective now: it has fired chunks there and has not failed. One that it holds for a page of a
tile writes the results whose segments are at hand, and one that it holds for a destination does nothing (R351, R354). Segments of one
destination are written in ascending order (R350). -/
def Coll.works (c : Coll) (die : Nat) : List Work :=
  if c.failed.isSome || c.heldAt die false then []
  else
    let mine := fun (k : Nat) => c.fired.any (fun p => p.1 == k && p.2.1 == die)
    let reads := if c.heldAt die true then [] else ((c.fired.filter (fun p => p.2.1 == die && Nat.blt (mgetD c.read p.1 0) c.segments)).map (·.1)).map Work.read
    let writes := (c.dests.filter (fun d => mine d.2.1 && Nat.blt (mgetD c.written (Coll.destKey d) 0) c.segments
      && (c.result d.1 d.2.1 (mgetD c.written (Coll.destKey d) 0)).isSome)).map (fun d => Work.write d.1 d.2.1 d.2.2)
    reads ++ writes

/-- Whether a die's engine has begun a collective and not ended it. -/
def Coll.begun (c : Coll) (die : Nat) : Bool := c.fired.any (fun p => p.2.1 == die) && !c.ended

/-- Bytes of its own tiles that a collective has in a die's staging SRAM: read, and not yet combined or written (R351). -/
def Coll.staged (c : Coll) (die : Nat) : Nat :=
  ((c.data.filter (fun d => d.1 == c.rank && c.fired.any (fun p => p.1 == d.2.1 && p.2.1 == die))).map (fun d => d.2.2.2.length)).sum

/-! ## The choice (R351, R352) -/

namespace State

/-- The urgent collective that a die's engine holds: the one fired first that has not ended and does not hold all its work for a page
(R352). -/
def urgentFirst (s : State) (die : Nat) : Option Nat :=
  let us := s.colls.filter (fun p => p.2.ccls == 0 && p.2.begun die && (!(p.2.holds.any (fun h => h.1 == die)) || !(p.2.works die).isEmpty))
  (us.find? (fun p => us.all (fun q => Nat.ble (mgetD p.2.turn die 0) (mgetD q.2.turn die 0)))).map (·.1)

/-- Whether a die's staging SRAM of 2 MiB, 256 KiB of it reserved for urgent work, has room for another segment of a class (R351). -/
def stageRoom (s : State) (die : Nat) (cls : Nat) : Bool :=
  let used := fun (urgent : Bool) => ((s.colls.filter (fun p => urgent || p.2.ccls != 0)).map (fun p => p.2.staged die)).sum
  if cls == 0 then Nat.ble (used true + 65536) (2 ^ 21) else Nat.ble (used false + 65536) (2 ^ 21 - 2 ^ 18) && Nat.ble (used true + 65536) (2 ^ 21)

/-- A collective's work on a die that its staging SRAM has room for; `spill` where the engine stages elsewhere (R349). -/
def worksNow (s : State) (die : Nat) (c : Coll) (spill : Bool) : List Work :=
  if spill || s.stageRoom die c.ccls then c.works die
  else (c.works die).filter (fun w => match w with | .write _ _ _ => true | .read _ => false)

/-- The collectives that a die's engine may serve now (R351, R352). A full SRAM lets writes go first; where no write can be done the
engine stages data in another way (R349; DESIGN CHOICE, log 91). -/
def servable (s : State) (die : Nat) : List (Nat × Coll × List Work) :=
  let first := s.urgentFirst die
  let cs := s.colls.filter (fun p => p.2.ccls != 0 || first == some p.1)
  let now := fun (spill : Bool) => (cs.map (fun p => (p.1, p.2, s.worksNow die p.2 spill))).filter (fun p => !p.2.2.isEmpty)
  if (now false).isEmpty then now true else now false

/-- The order of service by a die's engine: class, a long-waiting bulk collective as normal, then the turn (R351). -/
def collOrder (die : Nat) (c : Coll) : List Nat := [if mgetD c.aged die false then 2 else c.ccls, mgetD c.turn die 0]

/-- The collective that a die's engine serves next. -/
def nextColl (s : State) (die : Nat) : Option (Nat × Coll × List Work) :=
  let cs := s.servable die
  cs.find? (fun p => cs.all (fun q => !(keyLt (collOrder die q.2.1) (collOrder die p.2.1))))

/-! ## Performing a segment -/

/-- TRIGGER_FAULT: a 32-byte record goes to the die's engine event ring, and the engine holds the collective for the page (R354). -/
def triggerFault (s : State) (die id : Nat) (c : Coll) (read : Bool) (chunk seg va : Nat) (key : MissKey) : State :=
  let vpn := match key with | .page _ n => n | .slot _ _ => va / 4096
  let at_ := if vpn == va % 2 ^ 57 / 4096 then va else (va / 2 ^ 57 * 2 ^ 57 + vpn * 4096) % 2 ^ 64
  let r := leBytes 2 c.context ++ leBytes 2 c.peers ++ leBytes 4 c.number ++ leBytes 4 chunk ++ leBytes 4 seg ++ leBytes 8 at_
    ++ leBytes 8 0
  let k := s.die die
  { (s.setDie die { k with ering := k.ering ++ [r] }).emit (.missing key) with
    colls := mset s.colls id { c with holds := c.holds ++ [(die, read, key)] } }

/-- The virtual channel of a collective's segments (R352). -/
def collVc (c : Coll) : Nat := if c.ccls == 0 then 1 else 0

/-- Sends a segment to the members that need it (R348, R352, R356). -/
def sendSegment (s : State) (c : Coll) (chunk seg : Nat) (bs : List Byte) : State :=
  (c.targets chunk).foldl (fun s r =>
    (s.sendPacket ((c.members[r]?).getD 0) (collVc c) (.segment c.peers c.number c.rank chunk seg c.digest bs)).2) s

/-- A collective's segment has been served by a die's engine: at that engine it goes behind the others of its class, unless it is
urgent (R351, R352). -/
def served (s : State) (die id : Nat) (c : Coll) : State :=
  let turn := if c.ccls == 0 then c.turn else mset c.turn die s.nextId
  { s with
    colls := mset s.colls id { c with aged := mset c.aged die false, waitFrom := mset c.waitFrom die (s.dieCyc die), turn := turn }
    nextId := s.nextId + 1 }

/-- Reads some bytes of a tile that was fired at a stamp, unit by unit: a unit that a program has written since, against R342, holds
the old bytes or the new (R350; log 3). `n` bounds the units. -/
def readTile (fired : Nat) : Nat → List Nat → State → List Byte × State
  | 0, _, s => ([], s)
  | _, [], s => ([], s)
  | n + 1, pas, s =>
    let us := pas.take 16
    let low := (us.map (fun a => match (s.coOf a).find? (fun w => Nat.ble w.stamp fired) with | some w => w.stamp | none => 0)).foldl max 0
    let (bs, s) := s.readUnit low us
    let (cs, s) := readTile fired n (pas.drop 16) s
    (bs ++ cs, s)

/-- The physical addresses of a block whose pages are known. -/
def blockBytes (m : NMap Nat) (va n : Nat) : List Nat :=
  (List.range n).map (fun i => mgetD m ((va + i) % 2 ^ 57 / 4096) 0 + (va + i) % 4096)

/-- The result of a destination's segment, unit by unit: where a program has written a unit since the firing, against R342, either its
bytes stand or the result's (R350; log 3). -/
def writeTile (id fired : Nat) : Nat → List (Nat × Byte) → State → State
  | 0, _, s => s
  | _, [], s => s
  | n + 1, bs, s =>
    let us := bs.take 16
    let raced := us.any (fun p => match s.coOf p.1 with
      | w :: _ => Nat.blt fired w.stamp && Nat.blt w.writer 384 && w.id != id
      | [] => false)
    let (i, s) := s.pick (if raced then 2 else 1)
    writeTile id fired n (bs.drop 16) (if i == 0 then us.foldl (fun s p => s.engineWrite id p.1 p.2) s else s)

/-- The stamp at which a chunk was fired here. -/
def firedAt (c : Coll) (chunk : Nat) : Nat :=
  match c.fired.find? (fun p => p.1 == chunk) with
  | some p => p.2.2
  | none => 0

/-- The lines of some pages' parts that n bytes from an address reach. -/
def blockLines (m : NMap Nat) (va n : Nat) : List Nat :=
  (List.range ((va % 64 + n + 63) / 64)).map (fun i =>
    let v := va / 64 * 64 + 64 * i
    (mgetD m (v % 2 ^ 57 / 4096) 0 + v % 4096) / 64)

/-- Writes bytes to a block whose pages are known, as external writes in one step (R350, R363). -/
def pageWrite (s : State) (m : NMap Nat) : Nat → List Byte → State
  | _, [] => s
  | va, b :: bs =>
    (s.agentWrite externalAgent (mgetD m (va % 2 ^ 57 / 4096) 0 + va % 4096) [b]).pageWrite m ((va + 1) % 2 ^ 64) bs

/-- The engine reads the next segment of a fired chunk's tile and sends it on (R348, R350, R351). -/
def readSegment (s : State) (die id : Nat) (c : Coll) (chunk : Nat) : State :=
  let g := mgetD c.read chunk 0
  let va := (c.tbase + c.tpitch * chunk + 65536 * g) % 2 ^ 64
  let n := c.segBytes g
  match findBlock s c.context Want.load false [] va n with
  | .bad => s.failColl id c 7
  | .miss key => s.triggerFault die id c true chunk g va key
  | .ok m =>
    let s := (markPages s c.context false m).reachAll 48 (blockLines m va n)
    let (bs, s) := readTile (firedAt c chunk) n (blockBytes m va n) s
    let own := if c.wants c.rank chunk then [(c.rank, chunk, g, bs)] else []
    let s := s.sendSegment c chunk g bs
    s.served die id { c with read := mset c.read chunk (g + 1), data := c.data ++ own }

/-- The engine writes the next segment of a destination (R348 to R350). -/
def writeSegment (s : State) (die id : Nat) (c : Coll) (rank chunk addr : Nat) : State :=
  let key := Coll.destKey (rank, chunk, addr)
  let g := mgetD c.written key 0
  let va := (addr + 65536 * g) % 2 ^ 64
  match c.result rank chunk g, findBlock s c.context Want.store false [] va (c.segBytes g) with
  | some _, .bad => s.failColl id c 7
  | some _, .miss key => s.triggerFault die id c false chunk g va key
  | some bs, .ok m =>
    let gone := fun (d : Nat × Nat × Nat × List Byte) => d.2.1 == chunk && d.2.2.1 == g && (Nat.ble c.ckind 2 || d.1 == rank)
    let cells := (blockBytes m va bs.length).zip bs
    let s := (markPages s c.context true m).reachAll 48 (blockLines m va bs.length)
    let s := writeTile id (firedAt c chunk) bs.length cells s
    s.served die id { c with written := mset c.written key (g + 1), data := c.data.filter (fun d => !(gone d)) }
  | none, _ => s

/-- One piece of work. -/
def doWork (s : State) (die id : Nat) (c : Coll) : Work → State
  | .read k => s.readSegment die id c k
  | .write r k a => s.writeSegment die id c r k a

end State

/-- COLLECTIVE_SEGMENT: a die's engine performs one segment of the collective whose turn it is, under the context's translation,
whether or not the context is resident, once the banks that it reaches serve it (R238); which of its segments is the engine's choice
(R351 to R354; log 3). -/
def execCollectiveSegment (die : Nat) (s : State) : Res :=
  match s.nextColl die with
  | none => .next s.idle
  | some (id, c, ws) =>
    let (i, s1) := s.pick ws.length
    match ws[i]? with
    | none => .next s.idle
    | some w => s.banked (s1.doWork die id c w).wake

/-- The dies whose engines have let a bulk collective wait for 2,000,000 of their own cycles (R3, R351, R362). -/
def State.agedAt (s : State) (c : Coll) : List Nat :=
  (List.range 4).filter (fun d => c.begun d && !(mgetD c.aged d false) && Nat.ble (mgetD c.waitFrom d 0 + 2000000) (s.dieCyc d))

/-- COLLECTIVE_AGEING: a bulk collective that has waited 2,000,000 cycles of a die without a segment at its engine is served there as
normal class (R3, R351). -/
def execCollectiveAgeing (ident : Nat) (s : State) : Res :=
  match mget s.colls ident with
  | none => .next s.idle
  | some c =>
    if c.ccls != 3 || (s.agedAt c).isEmpty then .next s.idle
    else .next { s with colls := mset s.colls ident { c with aged := (s.agedAt c).foldl (fun m d => mset m d true) c.aged } }

/-! ## Traffic of the other members (R346, R354, R355) -/

/-- The collective of a peer set and number on this module. -/
def State.collAt (s : State) (peers number : Nat) : Option (Nat × Coll) :=
  s.colls.find? (fun p => p.2.peers == peers && p.2.number == number)

/-- COLLECTIVE_TRAFFIC_ARRIVAL: a member's segment joins its collective once the digests agree; a difference fails it; what
comes before the launch is kept for it (R346). -/
def execCollectiveTrafficArrival (peers number rank chunk segment : Nat) (digest : BitVec 64) (data : List (BitVec 8))
    (s : State) : Res :=
  let e : Early := ⟨peers, number, rank, chunk, segment, digest, data⟩
  match s.collAt peers number with
  | some (id, c) => .next (if c.failed.isSome then s else s.takeSegment id e)
  | none =>
    if Nat.ble (mgetD s.bound peers 0) number then .next { s with early := s.early ++ [e] }
    else .next s

/-- COLLECTIVE_REFUSAL_ANNOUNCEMENT: a member tells that a collective fails, with status 5 where it refused the launch or the digests
differ and 7 where an access failed or its context ended; the collective fails here, now or when it is launched (R346, R354,
R355). -/
def execCollectiveRefusalAnnouncement (peers : Nat) (failure : CollFailure) (s : State) : Res :=
  match s.collAt peers failure.number with
  | some (id, c) => .next (if c.failed.isSome then s else (s.markFailed id c failure.status).wake)
  | none =>
    if Nat.ble (mgetD s.bound peers 0) failure.number then
      .next { s with announced := s.announced ++ [(peers, failure.number, failure.status)] }
    else .next s

/-- MEMBER_LOST: every collective that the member belongs to fails (R354, R355). -/
def execMemberLost (member : Nat) (s : State) : Res :=
  .next ((s.colls.filter (fun p => p.2.members.contains member)).foldl (fun s p => s.failColl p.1 p.2 7) s).wake

end Sys2Proof.Machine
end

