-- ==== Sys2Proof/Machine/Ports.lean ====
section
/-! DEFINITION. The module's ports and its external writers (spec/16_compat.md R310; spec/20_collectives.md R356 to R358, R365;
spec/12_memory_model.md R363). -/

namespace Sys2Proof.Machine

namespace State

/-- A fabric port. -/
def port (s : State) (p : Nat) : Port := mgetD s.ports p Port.reset
/-- Replaces a fabric port. -/
def setPort (s : State) (p : Nat) (v : Port) : State := { s with ports := mset s.ports p v }

/-- A trained port sends its bring-up frame, on VC2 (R310, R352). -/
def sendBringup (s : State) (p : Nat) : State := s.emit (.bringup 2 p Config.linkMin Config.linkMax s.boot.number.toNat)

end State

/-- LINK_TRAINED: a port has trained and sends its bring-up frame, once the module number is written (R310, R365). -/
def execLinkTrained (port : Nat) (s : State) : Res :=
  if Nat.ble 18 port || (s.port port).trained then .next s.idle
  else
    let s1 := s.setPort port { Port.reset with trained := true }
    .next (if s.boot.numbered then s1.sendBringup port else s1)

/-- The highest version in both ranges, if they share one (R310). -/
def commonVersion (lo hi : Nat) : Option Nat :=
  let v := min Config.linkMax hi
  if Nat.ble (max Config.linkMin lo) v then some v else none

/-- BRINGUP_FRAME: the link runs at the highest common version; without one the port stays down and raises an event (R310). -/
def execBringupFrame (port linkmin linkmax peer peerPort : Nat) (s : State) : Res :=
  let x := s.port port
  if !x.trained || x.up then .next s.idle
  else
    match commonVersion linkmin linkmax with
    | some v => .next (s.setPort port { x with version := v, peer := peer, peerPort := peerPort, up := s.boot.numbered })
    | none => .next (s.emit (.event 310 [port]))

/-- Clears a port's bit in every mask of the route table (R356). -/
def State.dropRoute (s : State) (port : Nat) : State :=
  let base := s.tables.routes
  if base == 0 then s
  else
    (s.mem.filter (fun c => Nat.ble base c.1 && Nat.blt c.1 (base + 4 * 2 ^ 22) && (c.1 - base) % 4 == port / 8
      && c.2.toNat.testBit (port % 8))).foldl
      (fun s c => s.externalUpdate c.1 (· &&& ~~~(BitVec.ofNat 8 (2 ^ (port % 8))))) s

/-- A packet that was on its way on a failed link is sent again on another port with the number that it has, which gives its place among
those to its module on its channel, and one whose destination no port reaches now is gone (R356; log 3, log 107). -/
def State.sendAgain (s : State) (n : Nat) (x : Transit) : State :=
  match s.portsTo x.dest with
  | [] => { s.emit (.event 356 [x.dest]) with wire := mdel s.wire n, fabricOut := mdel s.fabricOut n }
  | ps =>
    let (i, s) := s.pick ps.length
    { s.emit (.packet n x.dest x.vc x.packet) with wire := mset s.wire n { x with port := (ps[i]?).getD 0 } }

/-- LINK_FAILURE: the link leaves every route mask, and modules that it alone reached are reached no more; its traffic in flight is sent
again on the other ports, in the order it was sent (R356). -/
def execLinkFailure (port : Nat) (s : State) : Res :=
  if !(s.port port).trained then .next s.idle
  else
    let t := (s.setPort port { Port.reset with failed := true }).dropRoute port
    let t := { t with unreached := s.destinations.filter (fun m => !(t.routed.contains m)) }
    s.banked ((t.wire.filter (fun p => p.2.port == port)).foldl (fun s p => s.sendAgain p.1 p.2) t).wake

/-- Whether the firmware runs (R359). -/
def State.running (s : State) : Bool := s.boot.stage == .running

/-! ## Windows (R357, R358) -/

/-- Whether an access lies inside a window that permits it. -/
def MemWin.takes (w : MemWin) (write : Bool) (va n : Nat) : Bool :=
  Nat.ble w.base va && Nat.ble (va + n) (w.base + w.len) && (if write then w.write else w.read)

/-- The pages that a context's translation tables take, from a level's table down (R290). -/
def tablePages (s : State) : Nat → Nat → List Nat
  | 0, _ => []
  | level + 1, table =>
    table :: ((List.range 512).map (fun i =>
      let pte := s.numAt (table + 8 * i) 8
      if pteBit pte 0 && !pteBit pte 5 then tablePages s level (pteFrame pte) else [])).flatten

/-- Bytes of a context's save area: what a save of it would take now, with its resident flights, and what its earlier saves took
(R276; DEDUCED, log 118). -/
def areaLength (s : State) (context : Nat) : Nat :=
  let x := s.ctxt context
  let v := (x.saved).getD ⟨[], [], [], [], false⟩
  let us := s.flights.filter (fun p => p.2.context == context)
  let all : Saved := { v with
    flights := us.foldl (fun m p => mset m p.1 p.2) v.flights
    windows := (s.windows.filter (fun w => us.any (fun p => p.2.win == some w.1))).foldl (fun m w => mset m w.1 w.2) v.windows
    planes := us.foldl (fun m p => match s.heldPlanes p.1 p.2 with | some e => mset m p.1 e | none => m) v.planes }
  (x.images.map (fun i => i.1.length)).foldl max (saveImage s context all).length

/-- Whether some bytes lie in what a front port or an attached host never reaches through a window: the queue, peer and route tables
and each context's translation tables and save area (R345, R358). -/
def hidden (s : State) (pa n : Nat) : Bool :=
  let meets := fun (a len : Nat) => a != 0 && Nat.blt pa (a + len) && Nat.blt a (pa + n)
  meets s.tables.queues 4096 || meets s.tables.peers (32 * 4096) || meets s.tables.routes (4 * 2 ^ 22)
    || s.contexts.any (fun p => (p.2.root != 0 && (tablePages s 5 p.2.root).any (meets · 4096)) || meets p.2.area (areaLength s p.1))

/-- The pages of an access through some windows of a context, at most 16 of them; none outside them or where the context's own tables
refuse it (R357). -/
def windowPages (s : State) (context : Nat) (ws : List MemWin) (write : Bool) (va n : Nat) : Option (NMap Nat) :=
  if (ws.take 16).any (fun w => w.takes write va n) then
    match findBlock s context (if write then Want.store else Want.load) false [] va n with
    | .ok m => if m.any (fun p => hidden s p.2 4096) then none else some m
    | _ => none
  else none

/-- A write through a window: an external write, or an access error that changes no memory. -/
def windowWrite (s : State) (ident context : Nat) (ws : List MemWin) (va : Nat) (data : List Byte) : State :=
  match windowPages s context ws true va data.length with
  | some m => ((markPages s context true m).reachAll 48 (State.blockLines m va data.length)).pageWrite m va data
  | none => s.emit (.remoteError ident)

/-- RDMA_WRITE: inside a window it makes an external write; otherwise it is answered with an error (R357). -/
def execRdmaWrite (qp va : Nat) (data : List (BitVec 8)) (s : State) : Res :=
  match mget s.qpairs qp with
  | some x => s.banked (windowWrite s qp x.context x.wins va data)
  | none => .next (s.emit (.remoteError qp))

/-- A read through a window: the latest bytes, or an access error. -/
def windowRead (s : State) (ident context : Nat) (ws : List MemWin) (va n : Nat) : State :=
  match windowPages s context ws false va n with
  | some m =>
    let t := (markPages s context false m).reachAll 48 (State.blockLines m va n)
    t.emit (.reply (pageBytes t m va n))
  | none => s.emit (.remoteError ident)

/-- RDMA_READ: inside a window it returns the latest bytes; otherwise it is answered with an error (R357). -/
def execRdmaRead (qp va len : Nat) (s : State) : Res :=
  match mget s.qpairs qp with
  | some x => s.banked (windowRead s qp x.context x.wins va len)
  | none => .next (s.emit (.remoteError qp))

/-- SEND: the bytes go to the control cores; a request of another operation is answered with an error and changes no memory
(R357). -/
def execSend (qp : Nat) (request : PortRequest) (s : State) : Res :=
  match mget s.qpairs qp, request with
  | some _, .send data => .next (s.emit (.send qp data))
  | _, _ => .next (s.emit (.remoteError qp))

/-- PCIE_HOST_WRITE: an attached host writes a window of a host-bound context, or reads one, with no more reach than a front port
(R358). -/
def execPcieHostWrite (window va : Nat) (access : Access) (s : State) : Res :=
  if !s.boot.pcieEndpoint then .next s.idle
  else
    match mget s.hostWins window, access with
    | some (c, w), .write data => s.banked (windowWrite s window c [w] va data)
    | some (c, w), .read n => s.banked (windowRead s window c [w] va n)
    | none, _ => .next (s.emit (.remoteError window))

/-- A byte of the module's identity page: the capability block at its base, and past it what the firmware holds there (R308; log 13). -/
def identityAt (pa : Nat) : Byte :=
  let off := pa - Config.identityPage
  if Nat.blt off 64 then BitVec.ofNat 8 ((Config.capability[off / 4]?).getD 0 / 2 ^ (8 * (off % 4))) else Config.identityByte off

/-- Whether n bytes lie in a page of the module (R364). -/
def inPage (page pa n : Nat) : Bool := Nat.ble page pa && Nat.ble (pa + n) (page + 4096)

/-- CONTROL_CORE_WRITE: a control core writes global memory, an external write, or reads it, the read-only identity page or the
doorbell page, which reads as zero (R250, R308, R363); an address outside them does not exist (R364). A write of the doorbell page
is a DOORBELL. -/
def execControlCoreWrite (pa : Nat) (access : Access) (s : State) : Res :=
  match access with
  | .write data => if State.inMap pa data.length then s.banked ((s.externalWrite pa data).softwarePush pa data) else .next s.idle
  | .read n =>
    if State.inMap pa n then
      let t := s.reachAll 48 (State.lineSpan pa n)
      s.banked (t.emit (.reply (t.readLatest pa n)))
    else if !s.running then .next s.idle
    else if inPage Config.identityPage pa n then .next (s.emit (.reply ((List.range n).map (fun i => identityAt (pa + i)))))
    else if inPage Config.doorbellPage pa n then .next (s.emit (.reply (List.replicate n 0)))
    else .next s.idle

end Sys2Proof.Machine
end

