-- ==== Sys2Proof/Machine/Boot.lean ====
section
/-! DEFINITION. Boot, measurement and attestation (spec/20_collectives.md R359 to R361, R365), the arithmetic clock (R362), and
the handshake of the firmware services (spec/16_compat.md R311). -/

namespace Sys2Proof.Machine

/-! ## Power-on (R359) -/

/-- A measurement register as 48 bytes, highest first, and back. -/
def measBytes (m : BitVec 384) : List Byte := Sha.beBytes 48 m.toNat

/-- M := SHA-384(M ∥ d) (R360). -/
def Boot.extend (b : Boot) (reg : Nat) (d : List Byte) : Boot :=
  { b with meas := mset b.meas reg (BitVec.ofNat 384 (Sha.beNat (Sha.sha384 (measBytes (mgetD b.meas reg 0) ++ d)))) }

/-- The digest of an image's header and body (R359). -/
def imageDigest (image : List Byte) : List Byte := Sha.sha384 (Config.imageBody image)

/-- Whether an image verifies: its key is fused in a slot that is not revoked, and its signature holds (R359). -/
def Boot.verifies (b : Boot) (image : List Byte) : Bool :=
  let key := Config.imageKey image
  let slots := b.fused.filter (fun p => Nat.blt p.1 16 && !(b.revoked.getLsbD p.1))
  let sig := Config.imageSignature image
  slots.any (fun p => p.2 == Sha.sha384 key)
    && P384.verify (Config.keyPoint key) (Sha.beNat (imageDigest image)) sig.1 sig.2

/-- The image of a pair, first or backup, that verifies (R359). -/
def Boot.pickImage (b : Boot) (images : List (List Byte)) : Option (List Byte) := images.find? b.verifies

/-- The later stages start in turn, each from its two images; each extends register 1 (R359, R360). The answer says whether all of
them started; what was measured up to one that did not stands. -/
def Boot.later (b : Boot) : List (List Byte) → Bool × Boot
  | [] => (true, b)
  | [i] =>
    match b.pickImage [i] with
    | some x => (true, b.extend 1 (imageDigest x))
    | none => (false, b)
  | i :: j :: rest =>
    match b.pickImage [i, j] with
    | some x => (b.extend 1 (imageDigest x)).later rest
    | none => (false, b)

/-- The ROM boots the firmware chain: the first stage from its image or the backup, then the later stages (R359, R360; log 13). -/
def Boot.chain (b : Boot) : Bool × Boot :=
  match b.pickImage (b.flash.take 2) with
  | some x => (b.extend 0 (imageDigest x)).later (b.flash.drop 2)
  | none => (false, b)

/-- POWER_ON: the ROM of die 0 boots the module, or it halts, with what it has measured, and reports the failure on its management
interface; registers and module number start at zero, and the firmware sets its tables and reports the addresses of the identity page and the doorbell page
(R308, R359, R360, R364, R365). -/
def execPowerOn (s : State) : Res :=
  if s.boot.stage != .off then .next s.idle
  else
    let b := { s.boot with meas := [], number := 0, numbered := false, agreed := none }
    match b.chain with
    | (true, b1) => .next ({ s with
        boot := { b1 with stage := .running, pcieEndpoint := Config.pcieEndpoint }
        tables := ⟨Config.queueTable, Config.peerTable, Config.routeTable⟩ }.emit (.event 308 [Config.identityPage, Config.doorbellPage]))
    | (false, b1) => .next ({ s with boot := { b1 with stage := .halted } }.emit (.event 359 []))

/-- MODULE_NUMBER_WRITE: the firmware writes the number once; trained ports then send their frames (R310, R365). -/
def execModuleNumberWrite (n : BitVec 22) (s : State) : Res :=
  if !s.running || s.boot.numbered then .next s.idle
  else
    let s1 := { s with
      boot := { s.boot with number := n, numbered := true }
      ports := mmapv (fun (p : Port) => { p with up := p.trained && p.version != 0 }) s.ports }
    .next ((s.ports.filter (fun p => p.2.trained)).foldl (fun s p => s.sendBringup p.1) s1)

/-! ## The arithmetic clock (R362) -/

/-- A cluster at a new clock: its cycles go on from where they stand. -/
def State.reclock (s : State) (mhz cl : Nat) : State :=
  s.setCluster cl { s.cluster cl with base := s.cyc cl, since := s.time, mhz := mhz }

/-- The clock-change record of a core (R321, R324); it bypasses the sieve. -/
def State.clockRecord (s : State) (mhz core : Nat) : State :=
  let k := s.die (dieOf core)
  if k.trace.flags.testBit 0 then
    let r : TraceRec := ⟨s.time, core, 0, 0, 0, 2, core, 0, mhz, true⟩
    s.setDie (dieOf core) { k with trace := { k.trace with queue := insertRec r k.trace.queue } }
  else s

/-- The clusters that a clock change covers. -/
def clockClusters : ClockTarget → List Nat
  | .die n => (List.range 12).map (12 * n + ·)
  | .cluster n => [n]

/-- CLOCK_CHANGE: the firmware changes the clock of a die or a cluster; each core whose clock changes has a clock-change record (R324,
R362). -/
def execClockChange (target : ClockTarget) (mhz : Nat) (s : State) : Res :=
  let there := match target with | .die n => Nat.blt n 4 | .cluster n => Nat.blt n 48
  if !s.running || !there then .next s.idle
  else
    let s1 := match target with
      | .die n => s.setDie n { s.die n with base := s.dieCyc n, since := s.time, mhz := mhz }
      | .cluster _ => s
    let s2 := (clockClusters target).foldl (fun s cl => s.reclock mhz cl) s1
    .next ((((clockClusters target).filter (fun cl => (s.cluster cl).mhz != mhz)).map (fun cl => (List.range 8).map (8 * cl + ·))).flatten.foldl (fun s c => s.clockRecord mhz c) s2)

/-! ## Firmware services (R311, R331) -/

/-- The answer of a service: status, then data. -/
def State.answer (s : State) (status : Nat) (data : List Nat) : State := s.emit (.service status data)

/-- A service call: refused without effect unless it carries the agreed version (R311). -/
def service (s : State) (ver : Nat) (k : State → State) : Res :=
  if !s.running then .next s.idle
  else .next (if s.boot.agreed == some ver then k s else s.answer 1 [])

/-- FIRMWARE_HANDSHAKE: the lesser of the caller's version and the module's is agreed, or the call is refused (R311). -/
def execFirmwareHandshake (version : Nat) (s : State) : Res :=
  if !s.running then .next s.idle
  else
    let v := min version Config.fwMax
    if Nat.blt v Config.fwMin then .next (s.answer 1 [])
    else .next ({ s with boot := { s.boot with agreed := some v } }.answer 0 [v])

/-- MEASUREMENT_EXTEND: registers 2 to 7 are extended for system software (R360). -/
def execMeasurementExtend (ver reg : Nat) (digest : BitVec 384) (s : State) : Res :=
  service s ver fun s =>
    if Nat.ble 2 reg && Nat.ble reg 7 then { s with boot := s.boot.extend reg (measBytes digest) }.answer 0 []
    else s.answer 1 []

/-- The signed bytes of an attestation report (R361). -/
def reportBody (b : Boot) (nonce : BitVec 384) : List Byte :=
  leBytes 4 1 ++ leBytes 4 b.number.toNat ++ measBytes nonce
    ++ ((List.range 8).map (fun i => measBytes (mgetD b.meas i 0))).flatten ++ leBytes 8 b.revoked.toNat

/-- The signature of a report's bytes with the device identity key: r, then s, 48 bytes each, highest first (R361; log 13). -/
def reportSignature (b : Boot) (body : List Byte) : List Byte :=
  let inRange := fun (x : Nat) => 1 + x % (P384.n - 1)
  let q := P384.sign (inRange (Config.deviceKey (measBytes (mgetD b.meas 0 0)))) (Sha.beNat (Sha.sha384 body))
    ((List.range 64).map (fun i => inRange (Config.signNonce body i)))
  Sha.beBytes 48 q.1 ++ Sha.beBytes 48 q.2

/-- ATTESTATION_REPORT: the report over a nonce, signed with the device identity key (R361; log 13). -/
def execAttestationReport (ver : Nat) (nonce : BitVec 384) (s : State) : Res :=
  service s ver fun s =>
    let b := reportBody s.boot nonce
    (s.answer 0 []).emit (.report (b ++ reportSignature s.boot b))

end Sys2Proof.Machine
end

