-- ==== Sys2Proof/Machine/Trace.lean ====
section
/-! DEFINITION. The trace core (spec/18_trace.md R320 to R331): the trace block, the sieve program and its run on one record, and
the writing of records. -/

namespace Sys2Proof.Machine

/-! ## The sieve program (R327 to R329) -/

/-- Whether operation i of a program of n operations is legal (R328, R329): its zero fields are zero and a skip ends within the
program or at its end. -/
def sieveOpOk (n i w : Nat) : Bool :=
  let skip := fun (off : Nat) => Nat.ble (i + 1 + off) n
  match w / 4096 with
  | 6 | 7 | 8 | 9 => skip (w % 64)
  | 10 => bits w 11 8 == 0 && skip (w % 256)
  | 11 => w % 16 == 0
  | 12 => bits w 11 3 == 0
  | 13 => bits w 11 1 == 0
  | 14 | 15 => false
  | _ => true

/-- Whether a program is accepted (R329). -/
def sieveOk (ws : List Nat) : Bool :=
  Nat.ble 1 ws.length && Nat.ble ws.length 256 && ws.zipIdx.all (fun p => sieveOpOk ws.length p.2 p.1)

/-- The sieve in the middle of a record: its registers, the die's counters, and the triggers fired (R327, R330). -/
structure Sieve where
  regs : List (BitVec 64)
  counters : NMap Nat
  fired : List Nat
  deriving DecidableEq, Repr

/-- A register of the sieve. -/
def Sieve.reg (v : Sieve) (k : Nat) : BitVec 64 := (v.regs[k % 8]?).getD 0
/-- Sets a register of the sieve. -/
def Sieve.put (v : Sieve) (k : Nat) (x : BitVec 64) : Sieve := { v with regs := v.regs.set (k % 8) x }

/-- What an arithmetic operation computes (R328). -/
def sieveAlu (fn : Nat) (x y : BitVec 64) : BitVec 64 :=
  match fn with
  | 0 => x + y
  | 1 => x - y
  | 2 => x &&& y
  | 3 => x ||| y
  | 4 => x ^^^ y
  | 5 => x <<< (y.toNat % 64)
  | 6 => x >>> (y.toNat % 64)
  | _ => x * y

/-- What an operation of the sieve does: the state after it, and how many operations it skips or the outcome it ends with. -/
def sieveOp (v : Sieve) (w : Nat) : Sieve × (Nat ⊕ Bool) :=
  let d := bits w 11 9
  let a := bits w 8 6
  let b := bits w 5 3
  let n9 := BitVec.ofNat 9 w
  let branch := fun (take : Bool) => (v, Sum.inl (if take then w % 64 else 0))
  let x := v.reg d
  let y := v.reg a
  match w / 4096 with
  | 0 => (v.put d (sieveAlu (w % 8) y (v.reg b)), .inl 0)
  | 1 => (v.put d (n9.setWidth 64), .inl 0)
  | 2 => (v.put d (x + n9.signExtend 64), .inl 0)
  | 3 => (v.put d (y >>> (w % 64)), .inl 0)
  | 4 => (v.put d (y <<< (w % 64)), .inl 0)
  | 5 => (v.put d (y &&& BitVec.ofNat 64 (2 ^ (w % 64 + 1) - 1)), .inl 0)
  | 6 => branch (x == y)
  | 7 => branch (x != y)
  | 8 => branch (x.ult y)
  | 9 => branch (!(x.ult y))
  | 10 => (v, .inl (w % 256))
  | 11 =>
    let k := bits w 11 8
    let by_ := if w.testBit 4 then (v.reg (bits w 7 5)).toNat else 1
    ({ v with counters := mset v.counters k ((mgetD v.counters k 0 + by_) % 2 ^ 64) }, .inl 0)
  | 12 => ({ v with fired := if v.fired.contains (w % 8) then v.fired else v.fired ++ [w % 8] }, .inl 0)
  | _ => (v, .inr (w % 2 == 1))

/-- Runs a program, each operation at most once; running off its end keeps the record (R327, R329). `skip` counts operations
still to be skipped. -/
def sieveRun : List Nat → Nat → Sieve → Sieve × Bool
  | [], _, v => (v, true)
  | _ :: ws, skip + 1, v => sieveRun ws skip v
  | w :: ws, 0, v =>
    match sieveOp v w with
    | (v', .inl n) => sieveRun ws n v'
    | (v', .inr keep) => (v', keep)

/-! ## Writing records (R320, R323, R325) -/

namespace State

/-- The gallery that a record names (R320). -/
def recordGallery (s : State) (context : Nat) (r : TraceRec) : Nat :=
  match s.galleries.find? (fun p => p.2.context == context && p.2.queue == bits r.w2 22 17 && p.2.seq % 512 == r.w2 / 2 ^ 23) with
  | some p => p.1
  | none => 0

/-- Counts a lost record on its core (R333, R368). -/
def countLost (s : State) (context : Nat) (r : TraceRec) : State :=
  if !r.bypass && s.counts r.core context (s.recordGallery context r) then s.setCore r.core ((s.core r.core).add 0x36 1) else s

/-- Writes one 16-byte record at the next place of a die's buffer (R320, R326). -/
def putRecord (s : State) (die stamp : Nat) (ws : List Nat) : State :=
  let k := s.die die
  let t := k.trace
  let s := s.externalWrite (t.buf + 16 * (t.windex % 2 ^ t.lg)) (ws.map (leBytes 4)).flatten
  s.setDie die { s.die die with trace := { t with windex := t.windex + 1, last := some stamp } }

/-- Free places of a buffer that stops when it is full (R326). -/
def traceRoom (t : Trace) (n : Nat) : Bool := t.flags.testBit 1 || Nat.ble (t.windex + n) (2 ^ t.lg)

/-- Whether a full-time record precedes a record (R323). -/
def needsTime (t : Trace) (stamp : Nat) : Bool :=
  match t.last with
  | none => true
  | some l => Nat.blt 0xFFFFF (stamp - l) || t.lost != 0 || t.gap

/-- The delta of a record (R323). -/
def traceDelta (t : Trace) (stamp : Nat) : Nat :=
  match t.last with
  | some l => if needsTime t stamp then 0 else stamp - l
  | none => 0

/-- Writes a record, a full-time record first where it is due (R323). -/
def putTimed (s : State) (die stamp w0 w1 w2 w3 : Nat) : State :=
  let t := (s.die die).trace
  let s1 := if needsTime t stamp then s.putRecord die stamp [1, stamp / 2 ^ 32, 0, stamp % 2 ^ 32] else s
  s1.putRecord die stamp [w0 + 16 * traceDelta t stamp, w1, w2, w3]

/-- Writes the lost record that is due, at the stamp of the place in the queue where it stands, or of the record that is taken next;
the record written after it follows a lost one (R321, R323, R325; log 92). -/
def flushLost (s : State) (die stamp : Nat) : State :=
  let t := (s.die die).trace
  if t.lost == 0 || !(traceRoom t 2) then s
  else
    let s1 := s.putTimed die stamp 4 0 0 (min t.lost 0xFFFFFFFF)
    let k := s1.die die
    s1.setDie die { k with trace := { k.trace with lost := 0, gap := true } }

/-- Writes a record that is kept, a full-time record before it where it is due; without room it is lost (R321, R323, R325). -/
def writeRecord (s : State) (die : Nat) (r : TraceRec) : State :=
  let t := (s.die die).trace
  if traceRoom t (if needsTime t r.stamp then 2 else 1) && t.lost == 0 then
    let s1 := s.putTimed die r.stamp r.w0 r.w1 r.w2 r.w3
    let k := s1.die die
    s1.setDie die { k with trace := { k.trace with gap := false } }
  else
    let k := s.die die
    (s.setDie die { k with trace := { t with lost := t.lost + 1, lostTotal := t.lostTotal + 1 } }).countLost t.context r

/-- The flights of a context are frozen, resident and saved (R330, R336). -/
def freezeAll (s : State) (context : Nat) (on : Bool) : State :=
  let put := fun (f : Flight) => if f.context == context then { f with debugFrozen := on } else f
  let thaw := fun (x : Context) => { x with saved := x.saved.map (fun v => { v with flights := mmapv put v.flights }) }
  { s with flights := mmapv put s.flights, contexts := mmod s.contexts context thaw }

/-- TRIGGER_FIRE: the actions of a fired trigger but stopping, which follows the record (R330). -/
def fireTrigger (s : State) (die k : Nat) : State :=
  let t := (s.die die).trace
  let a := (t.trig[k]?).getD 0
  let s1 := if a.testBit 0 then s.freezeAll t.context true else s
  let s2 := if a.testBit 1 then s1.setDie die { s1.die die with trace := { t with armed := false } } else s1
  if a.testBit 2 then s2.emit (.event 330 [die, k]) else s2

/-- The triggers that stop capture (R330). -/
def stops (t : Trace) (ks : List Nat) : Bool := ks.any (fun k => ((t.trig[k]?).getD 0).testBit 3)

/-- The record as the sieve sees it: its words with the delta that it would be written with (R320, R327). -/
def sieveWords (t : Trace) (r : TraceRec) : BitVec 64 × BitVec 64 :=
  (BitVec.ofNat 64 (r.w0 + 16 * traceDelta t r.stamp + r.w1 * 2 ^ 32), BitVec.ofNat 64 (r.w2 + r.w3 * 2 ^ 32))

/-- Sieves a record and writes it if it is kept and the buffer captures (R326, R327, R330). -/
def sieveRecord (s : State) (die : Nat) (r : TraceRec) : State :=
  let k := s.die die
  let t := k.trace
  let (w0, w1) := sieveWords t r
  let (v, keep) := sieveRun t.sieve 0 ⟨[w0, w1, 0, 0, 0, 0, t.w6, t.w7], t.counters, []⟩
  let s1 := s.setDie die { k with trace := { t with w6 := v.reg 6, w7 := v.reg 7, counters := v.counters } }
  let s2 := v.fired.foldl (fun s k => s.fireTrigger die k) s1
  let s3 := if keep && !((s2.die die).trace.armed) then s2.writeRecord die r else s2
  if stops t v.fired then s3.setDie die { s3.die die with trace := { (s3.die die).trace with armed := true } } else s3

end State

/-- SIEVE_RUN: the trace core takes its first queued record, once no earlier record can come, sieves it and writes it if it is kept;
a record that bypasses the sieve is written, and a lost record that is due goes before it (R325, R327). -/
def execSieveRun (die : Nat) (s : State) : Res :=
  let k := s.die die
  match k.trace.queue with
  | [] => .next s.idle
  | r :: rs =>
    if Nat.ble s.time r.stamp then .next s.idle
    else
      let n := if r.isLost then r.w3 else 0
      let s1 := (s.setDie die { k with trace := { k.trace with queue := rs, lost := k.trace.lost + n } }).flushLost die r.stamp
      s.banked (if r.isLost then s1 else if r.bypass then s1.writeRecord die r else s1.sieveRecord die r)

/-! ## Services (R326, R331) -/

/-- Whether a trace block breaks the table (R326). -/
def traceBad (b : List Byte) : Bool :=
  let lg := recField b 8 1
  let n := recField b 24 2
  recField b 0 8 % 4096 != 0 || Nat.blt lg 8 || Nat.blt 28 lg || Nat.ble 16 (recField b 9 1) || Nat.ble 4096 (recField b 10 2)
    || !(zeroBytes b 12 16) || recField b 16 8 % 2 != 0 || (recField b 16 8 != 0 && (n == 0 || Nat.blt 256 n))
    || !(zeroBytes b 26 32) || (List.range 8).any (fun k => Nat.ble 16 (recField b (32 + k) 1)) || !(zeroBytes b 40 64)
    || !(State.inMap (recField b 0 8) (16 * 2 ^ lg))

/-- The program that a trace block names; none named keeps every record (R326). -/
def traceProgram (s : State) (b : List Byte) : List Nat :=
  if recField b 16 8 == 0 then [] else (List.range (recField b 24 2)).map (fun i => s.numAt (recField b 16 8 + 2 * i) 2)

/-- The records that a trace core has lost since its last lost record (R325). -/
def lostSince (t : Trace) : Nat := ((t.queue.filter (·.isLost)).map (·.w3)).foldl (· + ·) t.lost

/-- A trace core with a block loaded (R326, R327, R330); what it lost before is still to be told (R325; log 92). -/
def traceOf (t : Trace) (b : List Byte) (ws : List Nat) : Trace :=
  { Trace.reset with
    buf := recField b 0 8, lg := recField b 8 1, flags := recField b 9 1, context := recField b 10 2, sieve := ws
    trig := (List.range 8).map (fun k => recField b (32 + k) 1), armed := (recField b 9 1).testBit 3
    lost := lostSince t }

/-- TRACE_BLOCK_LOAD: service 0x10 loads a die's trace block and its program; a block or program that is refused leaves the previous
ones in force, and a trace core whose queue holds more than lost records is busy (R326, R329, R331; log 68). -/
def execTraceBlockLoad (ver die addr : Nat) (s : State) : Res :=
  service s ver fun s =>
    if Nat.ble 4 die || !(State.inMap addr 64) then s.answer 1 []
    else
      let b := s.readLatest addr 64
      let ws := traceProgram s b
      if traceBad b || (recField b 16 8 != 0 && !(sieveOk ws)) then s.answer 1 []
      else if !((s.die die).trace.queue.all (·.isLost)) then s.answer 3 []
      else (s.setDie die { s.die die with trace := traceOf (s.die die).trace b ws }).answer 0 []

/-- TRACE_STATUS_READ: service 0x11 (R331). -/
def execTraceStatusRead (ver die : Nat) (s : State) : Res :=
  service s ver fun s =>
    if Nat.ble 4 die then s.answer 1 []
    else
      let t := (s.die die).trace
      s.answer 0 [if t.flags.testBit 1 then t.windex % 2 ^ t.lg else t.windex, if t.armed then 1 else 0, t.lostTotal]

/-- SIEVE_COUNTERS_READ: service 0x12 (R330, R331). -/
def execSieveCountersRead (ver die : Nat) (clear : Bool) (s : State) : Res :=
  service s ver fun s =>
    if Nat.ble 4 die then s.answer 1 []
    else
      let k := s.die die
      let s1 := if clear then s.setDie die { k with trace := { k.trace with counters := [] } } else s
      s1.answer 0 ((List.range 16).map (fun i => mgetD k.trace.counters i 0))

end Sys2Proof.Machine
end

