-- ==== Sys2Proof/Machine/Session.lean ====
section
/-! DEFINITION. Replay sessions (spec/17_measurement.md R312 to R319; spec/18_trace.md R331, R340). -/

namespace Sys2Proof.Machine

/-! ## Arming and cancelling (R312, R331) -/

/-- Whether a session block breaks the table (R312). -/
def sessionBad (b : List Byte) : Bool :=
  let n := recField b 1 1
  recField b 0 1 != 1 || n == 0 || Nat.blt 8 n || Nat.blt 63 (recField b 2 1) || Nat.blt 1 (recField b 3 1)
    || !(zeroBytes b 4 8) || recField b 8 8 % 4096 != 0 || recField b 16 4 == 0 || Nat.blt 511 (recField b 16 4)
    || !(zeroBytes b 20 24) || recField b 24 8 % 64 != 0 || (List.range (4 * n)).any (fun i => Nat.blt 63 (recField b (32 + i) 1))
    || !(zeroBytes b 64 128)

/-- A session armed by a block (R312). -/
def sessionFrom (addr : Nat) (b : List Byte) : Session :=
  { block := addr, passes := recField b 1 1, queue := recField b 2 1, sig := (recField b 3 1).testBit 0
    wsarea := recField b 8 8, wsmax := recField b 16 4, results := recField b 24 8
    evsel := (List.range 32).map (fun i => recField b (32 + i) 1), gallery := none, pass := 0, running := false, cores := [], shared := []
    granules := [], ids := [], overflow := false, writtenBack := 0, firstSigs := [], sigs := [], pins := [], status := 0 }

/-- SESSION_ARM: service 0x20 arms a session, unless its block breaks the table or its queue has one (R312, R331). -/
def execSessionArm (ver addr : Nat) (s : State) : Res :=
  service s ver fun s =>
    if addr % 128 != 0 || !(State.inMap addr 128) then s.answer 1 []
    else
      let b := s.readLatest addr 128
      let z := sessionFrom addr b
      if sessionBad b || (mget s.sessions z.queue).isSome then s.answer 1 []
      else (s.setSession z.queue z).answer 0 []

namespace State

/-- A session is over: its gallery is an ordinary one again (R313). -/
def endSession (s : State) (q : Nat) (z : Session) : State :=
  let s := { s with sessions := mdel s.sessions q }
  match z.gallery.bind (fun g => (mget s.galleries g).map (fun x => (g, x))) with
  | some (g, x) => s.setGallery g { x with session := false, pins := [] }
  | none => s

end State

/-- SESSION_CANCEL: service 0x21 cancels the session that a block armed; its gallery goes on as an ordinary one (R331). -/
def execSessionCancel (ver addr : Nat) (s : State) : Res :=
  service s ver fun s =>
    match s.sessionOf (fun z => z.block == addr) with
    | some (q, z) => (s.endSession q z).answer 0 []
    | none => s.answer 1 []

/-! ## The start of a pass (R313, R315) -/

/-- A gallery as it stands before a pass: nothing placed, its halls pinned to the cores of pass 1 (R313). -/
def Gallery.again (g : Gallery) (z : Session) (now : Nat) : Gallery :=
  { g with
    halls := [], nextWing := 0, firstPlaced := false, lastCluster := none, aged := false, completed := false, pubs := none
    pins := z.pins, acceptTime := now }

namespace State

/-- Writes a granule back from its copy (R314, R315). -/
def restoreGranule (s : State) (z : Session) (i g : Nat) : State :=
  s.externalWrite g (s.readLatest (z.wsarea + 4096 * (i + 1)) 4096)

/-- Every lease of a context goes back to its bank (R315). -/
def returnLeases (s : State) (context : Nat) : State :=
  { s with clusters := mmapv (fun (c : Cluster) => { c with leases := c.leases.filter (fun l => l.context != context) }) s.clusters }

/-- The store windows of a gallery go (R315). -/
def dropWindows (s : State) (gid : Nat) : State := { s with windows := s.windows.filter (fun p => p.2.gallery != gid) }

/-- Whether every core of the first pass can take its halls (R313). -/
def pinsFree (s : State) (gid : Nat) (g : Gallery) : Bool := g.pins.all (fun p => s.coreFree gid g p.1 p.2)

/-- The steps before a pass; before the first the write-set area's index counts nothing (R314, R315). -/
def preparePass (s : State) (q : Nat) (z : Session) (gid : Nat) (g : Gallery) : State :=
  let p := z.pass + 1
  let s1 := s.returnLeases g.context
  let taken := z.cores.filter (fun c => match s.ownerOf c with | some (o, _) => o != q | none => false)
  let s2 := if p == 1 then s1.externalWrite z.wsarea (leBytes 8 0) else z.granules.zipIdx.foldl (fun s x => s.restoreGranule z x.2 x.1) s1
  let s3 := (s2.emptyBooks g.context).dropWindows gid
  let s4 := z.cores.foldl (fun s c => s.coldCore c (!(taken.contains c)) (passEvents z p)) s3
  let z1 := { z with
    pass := p, running := true, ids := [], overflow := false, writtenBack := if p == 1 then 0 else z.granules.length, sigs := []
    shared := taken }
  (s4.setSession q z1).wake

end State

/-- SESSION_PASS_START: the first session whose gallery waits for a pass begins it: caches, granules, TLBs, receipt books and counters
are put in order first (R313, R315). -/
def execSessionPassStart (s : State) : Res :=
  match s.sessionOf (fun z => !z.running && z.gallery.isSome) with
  | none => .next s.idle
  | some (q, z) =>
    match z.gallery.bind (fun g => (mget s.galleries g).map (fun x => (g, x))) with
    | none => .next s.idle
    | some (gid, g) =>
      if z.pass == 0 then s.banked (s.preparePass q z gid g)
      else
        let g1 := g.again z (s.dieCyc 0)
        if s.pinsFree gid g1 then s.banked ((s.setGallery gid g1).preparePass q z gid g1) else .next s.idle

/-! ## The end of a pass (R313, R316, R318) -/

/-- The flights, as hall × 64 + index, whose signatures differ between two passes or that have no counterpart (R318). -/
def mismatches (z : Session) : List Nat :=
  if !z.sig || z.pass == 1 then []
  else
    (z.firstSigs.filter (fun p => mget z.sigs p.1 != some p.2)).map (·.1)
      ++ (z.sigs.filter (fun p => (mget z.firstSigs p.1).isNone)).map (·.1)

/-- The least of some numbers. -/
def leastOf : List Nat → Option Nat
  | [] => none
  | x :: xs => match leastOf xs with
    | none => some x
    | some y => some (min x y)

/-- The results record of a pass (R316). -/
def resultsRecord (s : State) (z : Session) : List Byte :=
  let cores := z.cores.foldr State.insertNat []
  let bad := leastOf (mismatches z)
  let head := leBytes 1 z.pass ++ leBytes 1 ((if bad.isSome then 1 else 0) + (if z.overflow then 2 else 0))
    ++ leBytes 2 cores.length ++ leBytes 4 z.writtenBack ++ leBytes 4 z.granules.length
    ++ leBytes 4 (match bad with | some k => k / 64 | none => 0xFFFFFFFF) ++ leBytes 2 (match bad with | some k => k % 64 | none => 0)
    ++ List.replicate 46 0#8
  let one := fun (c : Nat) => leBytes 2 c ++ List.replicate 6 0#8
    ++ ((List.range 4).map (fun i => leBytes 8 (mgetD (s.core c).cntV i 0))).flatten ++ List.replicate 24 0#8
  head ++ (cores.map one).flatten

/-- SESSION_PASS_END: the pass whose gallery is complete writes its results; after the last pass, an overflow or a status other than 0
the session is over (R313, R314, R316). -/
def execSessionPassEnd (s : State) : Res :=
  let isOver := fun (z : Session) => z.running && (match z.gallery.bind (fun g => (mget s.galleries g).map (fun x => (g, x))) with
    | some (gid, g) => g.ended.isSome || s.allDone gid g
    | none => false)
  match s.sessionOf isOver with
  | none => .next s.idle
  | some (q, z) =>
    match z.gallery.bind (mget s.galleries ·) with
    | none => .next s.idle
    | some g =>
      let n := 64 * (1 + z.cores.length)
      let s1 := s.externalWrite (z.results + n * (z.pass - 1)) (resultsRecord s z)
      let z1 := { z with
        running := false, status := s.statusOf g
        firstSigs := if z.pass == 1 then z.sigs else z.firstSigs
        pins := if z.pass == 1 then mmapv (fun (h : Hall) => h.core) g.halls else z.pins }
      if z.pass == z.passes || z.overflow || z1.status != 0 then s.banked (s1.endSession q z1) else s.banked (s1.setSession q z1)

end Sys2Proof.Machine
end

