-- ==== Sys2Proof/Machine/Debug.lean ====
section
/-! DEFINITION. Freezing, register access and breakpoints (spec/18_trace.md R336 to R339), counters, monitors and stall histograms
(R332 to R335), through the firmware services of R331. -/

namespace Sys2Proof.Machine

/-! ## Freezing (R336) -/

/-- Freezes or unfreezes a context, or one of its flights; status 1 where the flight is not the context's (R331, R336). -/
def freezeService (ver context : Nat) (flight : Option Nat) (on : Bool) (s : State) : Res :=
  service s ver fun s =>
    if Nat.ble 4096 context then s.answer 1 []
    else
      match flight with
      | none => ((s.freezeAll context on).answer 0 []).wake
      | some u =>
        match mget s.flights u, s.savedIn u with
        | some f, _ =>
          if f.context == context then ((s.setFlight u { f with debugFrozen := on }).answer 0 []).wake else s.answer 1 []
        | none, some (c, _, v, f) =>
          if c == context then
            (s.setSaved c { v with flights := mset v.flights u { f with debugFrozen := on } }).answer 0 []
          else s.answer 1 []
        | none, none => s.answer 1 []

/-- FREEZE: service 0x30; the flights issue no new operation, and what has issued goes on to its completion (R336). -/
def execFreeze (ver context : Nat) (flight : Option Nat) (s : State) : Res := freezeService ver context flight true s

/-- UNFREEZE: service 0x31; the flights issue from where they stood (R336). -/
def execUnfreeze (ver context : Nat) (flight : Option Nat) (s : State) : Res := freezeService ver context flight false s

/-! ## Reading and writing a frozen flight's state (R338, R339) -/

/-- Whether a flight is frozen, by a debugger or a trap (R188, R336). -/
def held (f : Flight) : Bool := f.debugFrozen || f.frozen.isSome

/-- The siblings of a mask; a lane kernel has one. -/
def maskSibs (f : Flight) (sibs : BitVec 3) : List Nat :=
  if f.lane then (if sibs.getLsbD 0 then [0] else []) else (List.range 3).filter (fun k => sibs.getLsbD k)

/-- Whether a register name exists at the flight's level (R17, R18). -/
def nameThere (f : Flight) (name : Nat) : Bool := Nat.blt name (if f.level == 3 then 128 else 512)

/-- The control registers that programs may write (R62, R130, R173). -/
def rwCtl (num : Nat) : Bool := [0x100, 0x101, 0x102, 0x103, 0x106, 0x107, 0x108, 0x10A, 0x10B, 0x10F].contains num

/-- What a read of an item answers; none for a bad argument (R338). The scoreboard reads as the names that wait, and the record as the
bytes of R281, its operands after it. -/
def debugValue (s : State) (f : Flight) (item : DebugItem) (slot : Nat) (sibs : BitVec 3) : Option (List Nat) :=
  let t := mget f.threads slot
  match item with
  | .reg name =>
    if t.isSome && nameThere f name then some ((maskSibs f sibs).map (fun k => (f.readReg name slot k).toNat)) else none
  | .preds => t.map (fun t => [t.preds.toNat])
  | .pc => t.map (fun t => [t.pc.toNat])
  | .state => t.map (fun t => [stateByte t])
  | .window => some [f.window]
  | .ctl num => if rwCtl num.toNat then some [ctlReg s f num.toNat] else none
  | .flags => some ((List.range 12).map f.flagCount)
  | .scoreboard => some f.sb
  | .record =>
    let r := recordImage f.lane (32 * f.entries.length) f.entries
    some ((r.1 ++ r.2).map (·.toNat))

/-- Finds a frozen flight, resident or saved with a context, and acts on it: status 1 without such a flight, 2 where it is not frozen
(R331). A saved flight's scoreboard bits are the destinations that its entries have outstanding (R280). -/
def onHeld (s : State) (ver flight : Nat) (k : State → Option Nat → Flight → State) : Res :=
  service s ver fun s =>
    match mget s.flights flight, s.savedIn flight with
    | some f, _ => if held f then k s none f else s.answer 2 []
    | none, some (c, _, _, f) => if held f then k s (some c) { f with sb := (f.entries.map entryDests).flatten } else s.answer 2 []
    | none, none => s.answer 1 []

/-- DEBUG_READ: service 0x32 (R338). -/
def execDebugRead (ver flight : Nat) (item : DebugItem) (thread : Nat) (sibs : BitVec 3) (s : State) : Res :=
  onHeld s ver flight fun s _ f =>
    match debugValue s f item thread sibs with
    | some vs => s.answer 0 vs
    | none => s.answer 1 []

/-- Destinations whose write-back a debugger may discard: loads, value-returning atomics and COPY.G2V (R339). -/
def discardable (e : Entry) : List Nat :=
  match e.pay with
  | .atoms _ _ d _ _ => d
  | _ => entryDests e

/-- Marks the outstanding write-backs of a thread to a register as discarded (R339). -/
def Flight.discard (f : Flight) (slot name : Nat) : Flight :=
  { f with entries := f.entries.map (fun e =>
      if (discardable e).contains name && e.mask.contains slot then { e with discards := (slot, name) :: e.discards } else e) }

/-- A debugger's write to a thread's register: uniform form is expanded first, and the other siblings keep their copies (R197,
R338). -/
def Flight.pokeReg (f : Flight) (name slot : Nat) (ks : List Nat) (v : Word) : Flight :=
  let new := Tri.of (fun k => if ks.contains k then v else f.readReg name slot k)
  (f.writeReg false false name [(slot, new)]).discard slot name

/-- A debugger's write to a thread's PC: the thread leaves the clause in progress and stands at the address (R338). -/
def Flight.pokePc (f : Flight) (slot : Nat) (pc : BitVec 64) : Flight :=
  let out := fun (xs : List Nat) => xs.filter (· != slot)
  { f.modThread slot (fun t => { t with pc := pc, fromOp := 0, fromBody := none }) with
    clause := f.clause.map (fun c => { c with group := out c.group, active := out c.active })
    body := f.body.map (fun b => { b with group := out b.group }) }

/-- The thread state that a state byte names (R279). -/
def byteState (n : Nat) : Option TState :=
  match n % 8 with
  | 0 => some .ready
  | 1 => some .polling
  | 2 => some .blocked
  | 3 => some .napping
  | 4 => some .masked
  | 5 => some .exited
  | _ => none

/-- A thread with a state byte written; a record that is not held cannot be made (R279, R338). -/
def pokeState (t : Thread) (n : Nat) : Option Thread :=
  match byteState n with
  | none => none
  | some st =>
    if Nat.ble 128 n || (n.testBit 5 && t.inst.isNone) then none
    else some { t with
      st := st, solo := n.testBit 3, handler := n.testBit 4, barred := n.testBit 6, inst := if n.testBit 5 then t.inst else none }

/-- A flight after a debugger's write; none for a bad argument (R338). -/
def debugPoke (f : Flight) (item : DebugItem) (slot : Nat) (sibs : BitVec 3) (value : BitVec 64) : Option Flight :=
  let t := mget f.threads slot
  match item with
  | .reg name =>
    let mapped := (mget f.regs name).isSome
    if t.isSome && nameThere f name && (mapped || Nat.blt f.footprint f.peak) then
      some (f.pokeReg name slot (maskSibs f sibs) (loHalf value))
    else none
  | .preds => t.map (fun t => f.setThread slot { t with preds := value.setWidth 12 })
  | .pc => if t.isSome && value.toNat % 4 == 0 then some (f.pokePc slot value) else none
  | .state => (t.bind (fun t => pokeState t value.toNat)).map (fun t => f.setThread slot t)
  | .window =>
    if f.level != 3 && Nat.ble value.toNat 480 && value.toNat % 16 == 0 then some { f with window := value.toNat } else none
  | .ctl num => if rwCtl num.toNat then some { f with ctl := ctlWrite f.narrow f.ctl num.toNat (loHalf value) } else none
  | .flags | .scoreboard | .record => none

/-- How many registers a debugger's write expands (R197). -/
def pokeExpands (f : Flight) (item : DebugItem) : Nat :=
  match item with
  | .reg name => if f.expands name false then 1 else 0
  | _ => 0

/-- DEBUG_WRITE: service 0x33; a write that would map a name beyond the peak is refused, and one that the pool cannot hold finds the
unit busy (R196, R338, R339). The registers that a write to a resident flight expands or draws count as the flight's events, and a saved
flight holds no registers of a pool (DEDUCED, log 70). -/
def execDebugWrite (ver flight : Nat) (item : DebugItem) (thread : Nat) (sibs : BitVec 3) (value : BitVec 64) (s : State) : Res :=
  onHeld s ver flight fun s saved f =>
    match debugPoke f item thread sibs value, saved with
    | none, _ => s.answer 1 []
    | some g, some c => (s.modSaved c flight (fun _ => { g with sb := [] })).answer 0 []
    | some g, none =>
      if s.canMap flight f g.footprint then
        let s := (s.count f 0x33 (pokeExpands f item)).count f 0x32 ((g.footprint - f.typical) - State.drawnOf f)
        ((s.setFlight flight g).barrierCheck flight g).answer 0 []
      else s.answer 3 []

/-- BREAKPOINT_SET: service 0x34 sets or, with address 0, clears one of a context's four breakpoints (R337). -/
def execBreakpointSet (ver context index : Nat) (addr : BitVec 64) (hall : BitVec 32) (s : State) : Res :=
  service s ver fun s =>
    if Nat.ble 4096 context || Nat.ble 4 index then s.answer 1 []
    else
      let x := s.ctxt context
      let bps := if addr == 0 then mdel x.bps index else mset x.bps index ⟨addr, hall.toNat⟩
      (s.setCtxt context { x with bps := bps }).answer 0 []

/-! ## Counters and monitors (R332 to R335) -/

/-- The writable bits of `cnt.sel` and `cnt.ctl` (R332). -/
def selBits : Word := 0x3F3F3F3F#32
/-- The writable bits of `cnt.ctl`. -/
def ctlBits : Word := 0xFFF3#32

/-- COUNTER_PROGRAM: service 0x40 writes the selection, control and counts given and reads the counters, for a caller with system
privilege; a session owns the counters of its cores (R313, R331, R332). -/
def execCounterProgram (ver core : Nat) (sys : Bool) (setup : CounterSetup) (s : State) : Res :=
  service s ver fun s =>
    if Nat.ble 384 core || !sys then s.answer 1 []
    else if (s.ownerOf core).isSome then s.answer 3 []
    else
      let k := s.core core
      let k1 := { k with
        cntSel := (setup.sel.getD k.cntSel) &&& selBits
        cntCtl := (setup.ctl.getD k.cntCtl) &&& ctlBits
        cntV := setup.counts.foldl (fun m p => mset m p.1.toNat p.2.toNat) k.cntV }
      (s.setCore core k1).answer 0 ([k1.cntSel.toNat, k1.cntCtl.toNat] ++ (List.range 4).map (fun i => mgetD k1.cntV i 0))

/-- A monitor that has just been programmed (R335). -/
def Monitor.fresh (m : MonitorSetup) : Monitor := ⟨{ m with filter := m.filter &&& ctlBits }, 0, 0, 0, 0, []⟩

/-- What a monitor reads: count, minimum, maximum, sum and its bins (R335). -/
def Monitor.values (m : Monitor) : List Nat := [m.count, m.min, m.max, m.sum] ++ (List.range 16).map (fun i => mgetD m.bins i 0)

/-- MONITOR_PROGRAM: service 0x41 programs a monitor, where a setting is given, and reads it (R335). -/
def execMonitorProgram (ver core index : Nat) (setup : Option MonitorSetup) (s : State) : Res :=
  service s ver fun s =>
    if Nat.ble 384 core || Nat.ble 4 index || (match setup with | some m => Nat.ble 8 m.quantity | none => false) then s.answer 1 []
    else
      let k := s.core core
      match setup, mget k.monitors index with
      | some m, _ =>
        (s.setCore core { k with
          monitors := mset k.monitors index (Monitor.fresh m)
          samples := if k.monitors.isEmpty then s.cycAt core / 64 else k.samples }).answer 0 (Monitor.fresh m).values
      | none, some m => s.answer 0 m.values
      | none, none => s.answer 0 (List.replicate 20 0)

/-- STALL_HISTOGRAM_READ: service 0x42 reads and clears the 25 counts of each quarter (R334). -/
def execStallHistogramRead (ver core : Nat) (s : State) : Res :=
  service s ver fun s =>
    if Nat.ble 384 core then s.answer 1 []
    else
      let vs := ((List.range 4).map (fun q => (List.range 25).map (fun i => mgetD (s.quarter core q).hist i 0))).flatten
      let s1 := (List.range 4).foldl (fun s q => s.setQuarter core q { s.quarter core q with hist := [] }) s
      s1.answer 0 vs

/-- A periodic quantity of the contexts that a filter lets through (R335). -/
def periodic (s : State) (core quantity : Nat) (w : Word) : Nat :=
  let on := fun (c : Nat) => filterOn w c
  match quantity with
  | 5 => ((s.cluster (clusterOf core)).sb.filter (fun e => e.slice == core &&
      (match mget s.flights e.flight with | some f => on f.context | none => false))).length
  | 6 => (s.flights.filter (fun p => p.2.core == core && on p.2.context)).length
  | _ => (((s.die (dieOf core)).taskqs.filter (fun p => p.1 % 8 == 0 && on (p.1 / 8))).map (fun p => p.2.depth)).sum

/-- Whether 64 cycles have passed since a core's monitors were sampled last (R335). -/
def State.sampleDue (s : State) (core : Nat) : Bool := Nat.ble (64 * ((s.core core).samples + 1)) (s.cycAt core)

/-- MONITOR_SAMPLE: every 64 cycles the monitors of quantities 5 to 7 take a sample (R335). No cycle passes before a sample that is
due. -/
def execMonitorSample (core : Nat) (s : State) : Res :=
  let k := s.core core
  if !(s.sampleDue core) then .next s.idle
  else
    let one := fun (m : Monitor) =>
      if Nat.ble 5 m.setup.quantity && m.setup.filter.getLsbD 0 then m.add (periodic s core m.setup.quantity m.setup.filter) else m
    .next (s.setCore core { k with samples := s.cycAt core / 64, monitors := mmapv one k.monitors })

end Sys2Proof.Machine
end

