-- ==== Sys2Proof/Machine/Clock.lean ====
section
/-! DEFINITION. One cycle of the arithmetic clock (spec/18_trace.md R333, R334; spec/14_scheduling.md R264): the cycle-counted
events, the stall histograms and the counts of waiting flights. -/

namespace Sys2Proof.Machine

/-! ## Stall reasons (R334) -/

/-- The reason that a flight which issues nothing is charged with, the first that applies (R334). -/
def reasonOf (s : State) (f : Flight) : Option Stall :=
  if !f.live.isEmpty && f.live.all (fun i => (f.thread i).st == .blocked) then some .barrier
  else if f.stall == some .nap || f.yieldEnd != 0
      || (f.choice.isEmpty && f.threads.any (fun p => p.2.st == .napping)) then some .nap
  else if f.slip then some .slip
  else if !(s.answered f) then some .memory
  else match f.stall with
    | some .flag => some .flag
    | some .register => some .register
    | some .memory => some .memory
    | some .throttle => some .throttle
    | some .matrix => some .matrix
    | _ => none

/-- The place of a reason after bin 16, in the order of R334; `clear` is no reason. -/
def Stall.bin : Stall → Nat
  | .barrier => 17 | .nap => 18 | .slip => 19 | .flag => 20 | .register => 21 | .memory => 22 | .throttle => 23 | .matrix => 24
  | .clear => 0

/-- The event that counts a reason's cycles (R333); event 0x3F counts nothing. -/
def Stall.event : Stall → Nat
  | .flag => 0x28 | .register => 0x29 | .barrier => 0x2A | .memory => 0x2B | .slip => 0x2C | .throttle => 0x2D | .matrix => 0x2E
  | .nap => 0x2F | .clear => 0x3F

namespace State

/-- Adds to a bin of a quarter's histogram. -/
def addBin (s : State) (core q bin n : Nat) : State :=
  let k := s.quarter core q
  s.setQuarter core q { k with hist := mset k.hist bin ((mgetD k.hist bin 0 + n) % 2 ^ 64) }

/-- Flights of a quarter that are eligible in the present cycle (R190): those that it has chosen in it, one that the operation retired
among them, and those eligible now, each with its context. -/
def eligibleNow (s : State) (core q : Nat) : List (Nat × Nat) :=
  let took := (s.quarter core q).took
  took ++ (((s.inQuarter core q).filter (fun p => s.eligible p.2 && !(took.any (fun t => t.1 == p.1)))).map
    (fun p => (p.1, p.2.context)))

/-- How many of them the core's filter lets through (R334). -/
def eligibleCount (s : State) (core q : Nat) : Nat :=
  ((s.eligibleNow core q).filter (fun p => filterOn (s.core core).cntCtl p.2)).length

/-- A quarter's cycles: its histogram bin, and where no flight is eligible the reason of the oldest flight that is not frozen,
with the event that counts it (R333, R334). -/
def chargeQuarter (s : State) (core n : Nat) (q : Nat) : State :=
  let on := (s.core core).cntCtl.getLsbD 0
  let e := s.eligibleCount core q
  let s1 := if on then s.addBin core q e n else s
  if e != 0 then s1
  else
    match oldest ((s.inQuarter core q).filter (fun p => p.2.frozen.isNone && !p.2.debugFrozen)) with
    | none => s1
    | some (_, f) =>
      match reasonOf s1 f with
      | none => s1
      | some r => (if on then s1.addBin core q r.bin n else s1).count f r.event n

/-! ## Cycle-counted events (R333) -/

/-- Whether a flight waits on a scoreboard conflict: an access to the store, or an engine operation (R131, R145). -/
def waitsOnSb (s : State) (f : Flight) : Bool :=
  let access := match f.clause, unheld f || f.stall == some .memory with
    | some c, true =>
      (match decodeWord c.word with
       | .ok (.lds u _ base size off) =>
         s.storeBusy (f.win.getD 0) false (spans size.bytes (storeAddrs f c u base (off.toNat * size.bytes)))
       | .ok (.sts u _ base size off) =>
         s.storeBusy (f.win.getD 0) true (spans size.bytes (storeAddrs f c u base (off.toNat * size.bytes)))
       | .ok (.atoms aop _ _ a off) =>
         s.storeBusy (f.win.getD 0) true (spans aop.bytes (storeAddrs f c false a (off.toNat * aop.bytes)))
       | .ok (.arrive a) => s.storeBusy (f.win.getD 0) true (spans 4 (storeAddrs f c false a 0))
       | .ok (.await a _) => s.storeBusy (f.win.getD 0) false (spans 4 (storeAddrs f c false a 0))
       | _ => false)
    | _, _ => false
  access || f.entries.any (fun x => match x.pay with
    | .engine e => x.parked.isNone && s.engineBlocked f.core x.id e
    | _ => false)

/-- Whether a flight's next operation is an engine operation that may hold scoreboard entries (R145). -/
def atEngine (f : Flight) : Bool :=
  match f.clause.map (fun c => decodeWord c.word) with
  | some (.ok i) =>
    (match i with
     | .copyG2s _ _ _ | .copyS2g _ _ _ | .copyS2s _ _ _ | .gath _ _ _ | .mma _ _ _ _ _ _ | .mmag _ _ _ _ _ _ | .mld _ | .mst _ => true
     | _ => false)
  | _ => false

/-- Whether a flight's engine operation is held because its slice is full (R241). -/
def waitsOnSlice (s : State) (f : Flight) : Bool :=
  (unheld f || f.stall == some .memory) && atEngine f && Nat.ble 256 (s.sliceUse f.core)

/-- The first flight of a core with a property that the core's counters count. -/
def countedOn (s : State) (core : Nat) (p : Flight → Bool) : Option Flight :=
  (s.flights.find? (fun q => q.2.core == core && s.counts core q.2.context q.2.gallery && p q.2)).map (·.2)

/-- Adds cycles to an event for the first counted flight with a property. -/
def countCycles (s : State) (core ev n : Nat) (p : Flight → Bool) : State :=
  match s.countedOn core p with
  | some f => s.count f ev n
  | none => s

/-- Cycles of a busy matrix unit, for the flight whose operation it executes (R215). -/
def countMatrix (s : State) (core n : Nat) (q : Nat) : State :=
  let k := s.quarter core q
  match k.mq with
  | (u, _) :: _ =>
    if Nat.blt (s.cycAt core) k.busyUntil then
      match mget s.flights u with
      | some f => s.count f 0x23 n
      | none => s
    else s
  | [] => s

/-- The events of n cycles of a core. -/
def coreCycles (s : State) (n core : Nat) : State :=
  let s1 := (List.range 4).foldl (fun s q => s.chargeQuarter core n q) s
  let s2 := s1.countCycles core 0x00 n (fun _ => true)
  let s3 := s2.countCycles core 0x1C n s.waitsOnSb
  let s4 := s3.countCycles core 0x1D n s.waitsOnSlice
  let s5 := (List.range 4).foldl (fun s q => s.countMatrix core n q) s4
  if (List.range 4).any (fun q => Nat.blt (s.quarter core q).perm 16) then s5.countAll core 0x39 n else s5

/-- The quarters of a core where a cycle begins: none of their flights is chosen in it yet (R264). -/
def newCycle (s : State) (core : Nat) : State :=
  (List.range 4).foldl (fun s q => s.setQuarter core q { s.quarter core q with took := [] }) s

/-- The cycles that a cluster's clock gains in the next nanosecond. -/
def gained (s : State) (cl : Nat) : Nat := { s with time := s.time + 1 }.cyc cl - s.cyc cl

/-- Whether a flight's quarter has chosen it in the present cycle (R264). -/
def tookNow (s : State) (u : Nat) (f : Flight) : Bool := (s.quarter f.core f.quarter).took.any (fun t => t.1 == u)

/-- A flight after the cycles gained: eligible and not chosen, it has waited longer, else it waits no more (R264); what a later
cycle may end (a poll's hold, a flag lowered in the cycle before, R75) is looked at again. -/
def waited (s : State) (u : Nat) (f : Flight) : Flight :=
  let n := s.gained (clusterOf f.core)
  let g :=
    if n == 0 then f
    else { f with waiting := if s.eligible f && !(s.tookNow u f) then f.waiting + n else 0 }
  if g.stall == some .nap || (n != 0 && g.stall == some .flag) then { g with stall := none } else g

/-- Cores with something to account for: a resident flight, or a core that has been touched. -/
def liveCores (s : State) : List Nat := (s.flights.map (fun p => p.2.core) ++ s.cores.map (·.1)).eraseDups

end State

/-- ARITHMETIC_CLOCK_CYCLE: the time base advances by 1 ns, and each cycle that an arithmetic clock gains in it is accounted for; what waited
for room or a conflict goes on where it can (R139, R141, R176, R246, R264, R333, R334). -/
def execArithmeticClockCycle (s : State) : Res :=
  let ticks := s.liveCores.filter (fun c => s.gained (clusterOf c) != 0)
  let s1 := ticks.foldl (fun t c => (t.coreCycles (s.gained (clusterOf c)) c).newCycle c) s
  .next ({ s1 with
    flights := s1.flights.map (fun p => (p.1, s.waited p.1 p.2))
    time := s.time + 1 } : State).retryWaits

end Sys2Proof.Machine
end

