-- ==== Sys2Proof/Machine/CrossLane.lean ====
section
/-! DEFINITION. Cross-lane reads and reductions (spec/05_isa_memory.md R123 to R126; spec/16_compat.md R300). -/

namespace Sys2Proof.Machine

/-- The cross-lane domain of a slot, in ascending thread order (R123): the flight, or the half of a narrow flight. -/
def Flight.domain (f : Flight) (slot : Nat) : List Nat :=
  if f.narrow then
    let hi := if f.lane then 48 else 16
    if Nat.blt slot hi then List.range 16 else (List.range 16).map (· + hi)
  else if f.lane then List.range 96
  else List.range 32

/-- A thread's index within its domain (R123). -/
def Flight.domIdx (f : Flight) (slot : Nat) : Nat :=
  if f.narrow then (let hi := if f.lane then 48 else 16; if Nat.blt slot hi then slot else slot - hi) else slot

/-- The value a reader takes from source index s (R123): its own copy outside the domain, 0 from an exited thread or an empty
slot, else the source's copy. A narrow half takes the index modulo 16. -/
def Flight.source (f : Flight) (slot : Nat) (name : Nat) (k : Nat) (src : Int) : Word :=
  let dom := f.domain slot
  let n : Int := if f.narrow then src % 16 else src
  if n < 0 || decide ((dom.length : Int) ≤ n) then f.readReg name slot k
  else
    match dom[n.toNat]? with
    | none => 0
    | some i => if (f.thread i).st == .exited then 0 else f.readReg name i k

/-- SHFL with a source index from the reader's index and its copy of b; a solo thread uses sibling 0 throughout (R123,
R124). -/
def shfl (s : State) (d a b : BitVec 7) (la lb : Bool) (idx : Int → Word → Int) : Res :=
  regOp s (regs3 false d a b 1 1 1 la lb false 2) fun f i =>
    let one := fun k =>
      let k := if f.single i then 0 else k
      f.source i (f.regName a.toNat) k (idx (f.domIdx i) (f.readReg (f.regName b.toNat) i k))
    [Tri.of one]

/-- SHFL.IDX (R124). -/
def execShflIdx (d a b : BitVec 7) (la lb : Bool) (s : State) : Res := shfl s d a b la lb fun _ x => x.toNat
/-- SHFL.UP (R124). -/
def execShflUp (d a b : BitVec 7) (la lb : Bool) (s : State) : Res := shfl s d a b la lb fun i x => i - x.toNat
/-- SHFL.DN (R124). -/
def execShflDn (d a b : BitVec 7) (la lb : Bool) (s : State) : Res := shfl s d a b la lb fun i x => i + x.toNat
/-- SHFL.XOR (R124). -/
def execShflXor (d a b : BitVec 7) (la lb : Bool) (s : State) : Res :=
  shfl s d a b la lb fun i x => ((i.toNat ^^^ x.toNat : Nat) : Int)

/-- The active threads of a slot's domain. -/
def domActive (f : Flight) (c : ClauseRun) (slot : Nat) : List Nat :=
  (f.domain slot).filter (fun i => c.act.contains i)

/-- VOTE.ANY (R125). -/
def execVoteAny (d a : BitVec 4) (s : State) : Res :=
  predOp s (regs0 2) d fun f c i => (domActive f c i).any (fun j => f.pred j a)

/-- VOTE.ALL (R125). -/
def execVoteAll (d a : BitVec 4) (s : State) : Res :=
  predOp s (regs0 2) d fun f c i => (domActive f c i).all (fun j => f.pred j a)

/-- An operation across lanes that writes one register: g takes the clause and the reader. -/
def laneOp (s : State) (regs : Flight → OpRegs) (g : Flight → ClauseRun → Nat → Tri Word) : Res :=
  runOp s regs fun u f c =>
    let r := regs f
    .done ((s.setFlight u (writeDests f c r (spread false c.act (fun i => [g f c i])))).occupy f c r)

/-- Bit j of a ballot: the predicate of thread 32g + j of the domain if active (R125). -/
def ballotBits (f : Flight) (c : ClauseRun) (a : BitVec 4) (ds : List Nat) : Nat → Word
  | 0 => 0
  | n + 1 =>
    let rest := ballotBits f c a ds n
    match ds[n]? with
    | some i => if c.act.contains i && f.pred i a then rest ||| (1#32 <<< n) else rest
    | none => rest

/-- VOTE.BALLOT: the reader's group of 32 within the domain (R125). -/
def execVoteBallot (d : BitVec 7) (a : BitVec 4) (s : State) : Res :=
  laneOp s (regsD d 1 false 2) fun f c i =>
    let g := f.domIdx i / 32
    Tri.rep (ballotBits f c a (((f.domain i).drop (32 * g)).take 32) 32)

/-- VOTE.COUNT (R125). -/
def execVoteCount (d : BitVec 7) (a : BitVec 4) (s : State) : Res :=
  laneOp s (regsD d 1 false 2) fun f c i =>
    Tri.rep (BitVec.ofNat 32 ((domActive f c i).filter (fun j => f.pred j a)).length)

/-- A reduction of a over some active threads, sibling k combining the copies k of every
source, a solo source too (R126; DEDUCED, assumption 18); a solo reader takes what sibling 0 combines (R123). -/
def reduce (s : State) (d a : BitVec 7) (la : Bool) (occ : Nat) (g : List Word → Word) (pre : Bool) : Res :=
  laneOp s (regs2 false d a 1 1 la false occ) fun f c i =>
    let src := (domActive f c i).filter (fun j => !pre || Nat.ble j i)
    let one := fun k =>
      let k := if f.single i then 0 else k
      g (src.map (fun j => f.readReg (f.regName a.toNat) j k))
    Tri.of one

/-- The sum modulo 2^32 (R126). -/
def sumW (xs : List Word) : Word := xs.foldl (fun x y => x + y) 0
/-- The least by signed value (R126). -/
def leastW : List Word → Word
  | [] => 0
  | x :: xs => xs.foldl (fun m y => if sval y < sval m then y else m) x
/-- The greatest by signed value (R126). -/
def mostW : List Word → Word
  | [] => 0
  | x :: xs => xs.foldl (fun m y => if sval m < sval y then y else m) x

/-- XADD (R126). -/
def execXadd (d a : BitVec 7) (la : Bool) (s : State) : Res := reduce s d a la 4 sumW false
/-- XMIN (R126). -/
def execXmin (d a : BitVec 7) (la : Bool) (s : State) : Res := reduce s d a la 4 leastW false
/-- XMAX (R126). -/
def execXmax (d a : BitVec 7) (la : Bool) (s : State) : Res := reduce s d a la 4 mostW false
/-- XSCAN (R126). -/
def execXscan (d a : BitVec 7) (la : Bool) (s : State) : Res := reduce s d a la 6 sumW true

end Sys2Proof.Machine
end

