-- ==== Sys2Proof/Machine/Approx.lean ====
section
/-! DEFINITION. The approximated functions of the function unit (spec/04_isa_float.md R99, R100): the exact function value,
rounded to nearest-even to 34 significant bits with an unbounded exponent. Values are bounded from both sides in fixed
point; where both bounds round to one 34-bit value, that value is the rounding of the function (log 10). -/

namespace Sys2Proof.Machine

/-- Rounds to 34 significant bits, nearest-even, with an unbounded exponent (R100). -/
def rn34 (x : Exact) : Exact :=
  let len := bitLen x.m
  if Nat.ble len 34 && !x.sticky then x
  else
    let q : Int := x.e + len - 34
    ⟨x.neg, (roundAt .near x q).1, q, false⟩

/-- The 34-bit rounding of a positive value v with v × 2^F in [lo, hi] (R100); a free value where the bounds differ. -/
def approx34 (fn a : Nat) (neg : Bool) (F lo hi : Nat) : Exact :=
  let x := rn34 ⟨neg, lo, -(F : Int), false⟩
  let y := rn34 ⟨neg, hi, -(F : Int), false⟩
  if x.m * 2 ^ (x.e - min x.e y.e).toNat == y.m * 2 ^ (y.e - min x.e y.e).toNat then x
  else ⟨neg, 2 ^ 33 + Config.freeApprox fn a % 2 ^ 33, y.e, false⟩

/-- ln 2 × 2^200, rounded down. -/
def ln2Fix : Nat := 1113844574712631719546256151097547306333272293549090750737802

/-- π/2 × 2^400, rounded down. -/
def halfPiFix : Nat := 4056188623365485619431135675650447259580575800089632601795595518807615452686995249372761680463408407713783389863663788118

/-- Product of fixed-point numbers. -/
def fixMul (F x y : Nat) : Nat := x * y / 2 ^ F

/-- Σ y^k / k! from the term t = y^k / k!, in fixed point. -/
def expSeries (F y : Nat) : Nat → Nat → Nat → Nat
  | 0, _, _ => 0
  | n + 1, k, t => t + expSeries F y n (k + 1) (fixMul F t y / (k + 1))

/-- Σ z^(2k+1) / (2k+1) from the power t = z^(2k+1), in fixed point; z2 = z². -/
def atanhSeries (F z2 : Nat) : Nat → Nat → Nat → Nat
  | 0, _, _ => 0
  | n + 1, k, t => t / (2 * k + 1) + atanhSeries F z2 n (k + 1) (fixMul F t z2)

/-- An alternating series t − t·z2/((j+1)(j+2)) + …, in fixed point: sine from t = r, j = 1; cosine from t = 1, j = 0. -/
def altSeries (F z2 : Nat) : Nat → Nat → Nat → Int
  | 0, _, _ => 0
  | n + 1, j, t => (t : Int) - altSeries F z2 n (j + 2) (fixMul F t z2 / ((j + 1) * (j + 2)))

/-- 2^a for a finite a (R99): x of R100 and whether 2^a is inexact in FP32. -/
def exp2Approx (pat : Nat) (neg : Bool) (m : Nat) (e : Int) : Exact × Bool :=
  if m == 0 then (⟨false, 1, 0, false⟩, false)
  else if 12 ≤ e + bitLen m then
    (if neg then ⟨false, 1, -3000, true⟩ else ⟨false, 1, 3000, true⟩, true)
  else if e + bitLen m ≤ -60 then
    (if neg then ⟨false, 1, 0, false⟩ else ⟨false, 1, 0, false⟩, true)
  else
    let A : Int := (m : Int) * 2 ^ (e + 200).toNat
    let A := if neg then -A else A
    let n := A / (2 ^ 200 : Int)
    let fr := (A % (2 ^ 200 : Int)).toNat
    if fr == 0 then (⟨false, 1, n, false⟩, n < -149)
    else
      let v := expSeries 200 (fixMul 200 fr ln2Fix) 60 0 (2 ^ 200)
      let x := approx34 3 pat false 200 (v - 2 ^ 24) (v + 2 ^ 24)
      (⟨false, x.m, x.e + n, false⟩, true)

/-- log2 a for a finite a > 0, a = m × 2^e (R99). -/
def log2Approx (pat : Nat) (m : Nat) (e : Int) : Exact × Bool :=
  let len := bitLen m
  let n : Int := e + len - 1
  if m == 2 ^ (len - 1) then (⟨decide (n < 0), n.natAbs, 0, false⟩, false)
  else
    let M := m * 2 ^ (200 - (len - 1))
    let one := 2 ^ 200
    let z := (M - one) * 2 ^ 200 / (M + one)
    let l := 2 * atanhSeries 200 (fixMul 200 z z) 70 0 z
    let T : Int := n * (2 ^ 200 : Int) + (l * 2 ^ 200 / ln2Fix : Nat)
    let t := T.natAbs
    (approx34 4 pat (decide (T < 0)) 200 (t - 2 ^ 24) (t + 2 ^ 24), true)

/-- 1 / √a for a finite a > 0, a = m × 2^e: exact to 34 bits through an integer square root (R99). -/
def rsqApprox (m : Nat) (e : Int) : Exact × Bool :=
  let odd := (e % 2 != 0)
  let m' := if odd then 2 * m else m
  let e' := if odd then e - 1 else e
  let n := 2 ^ 200 / m'
  let s := isqrt n
  let ex := s * s * m' == 2 ^ 200
  (rn34 ⟨false, s, -100 - e' / 2, !ex⟩, !ex)

/-- sin or cos of a finite a ≠ 0 in radians (R99), the argument reduced exactly enough over the whole range (R100). -/
def sinCosApprox (pat : Nat) (cos neg : Bool) (m : Nat) (e : Int) : Exact × Bool :=
  if e + bitLen m ≤ -40 then
    (if cos then ⟨false, 1, 0, false⟩ else ⟨neg, m, e, false⟩, true)
  else
    let A := m * 2 ^ (e + 400).toNat
    let k := A / halfPiFix
    let r := (A - k * halfPiFix) / 2 ^ 160
    let r2 := fixMul 240 r r
    let q := (if cos then k + 1 else k) % 4
    let v := if q % 2 == 0 then altSeries 240 r2 40 1 r else altSeries 240 r2 40 0 (2 ^ 240)
    let sgn := decide (2 ≤ q) != (neg && !cos)
    let flip := decide (v < 0)
    (approx34 (if cos then 6 else 5) pat (sgn != flip) 240 (v.natAbs - 2 ^ 24) (v.natAbs + 2 ^ 24), true)

/-- A function-unit result from its approximation x and whether f(a) is inexact in FP32 (R100). -/
def roundApprox (r : Rnd) (x : Exact × Bool) : FRes := roundVal fp32 r x.1.neg x.1 x.2

/-- FRSQ (R99). -/
def fRsq (r : Rnd) (a : Nat) : FRes :=
  match unpack fp32 a with
  | .nan _ => nanResult fp32 [a]
  | .inf neg => if neg then invalid fp32 else ⟨0, flNone⟩
  | .fin neg m e =>
    if m == 0 then ⟨zeroPat fp32 neg + fp32.infPat, flDZ⟩
    else if neg then invalid fp32
    else roundApprox r (rsqApprox m e)

/-- FEXP2 (R99). -/
def fExp2 (r : Rnd) (a : Nat) : FRes :=
  match unpack fp32 a with
  | .nan _ => nanResult fp32 [a]
  | .inf neg => ⟨if neg then 0 else a, flNone⟩
  | .fin neg m e => roundApprox r (exp2Approx a neg m e)

/-- FLOG2 (R99). -/
def fLog2 (r : Rnd) (a : Nat) : FRes :=
  match unpack fp32 a with
  | .nan _ => nanResult fp32 [a]
  | .inf neg => if neg then invalid fp32 else ⟨a, flNone⟩
  | .fin neg m e =>
    if m == 0 then ⟨fp32.signW + fp32.infPat, flDZ⟩
    else if neg then invalid fp32
    else roundApprox r (log2Approx a m e)

/-- FSIN or FCOS (R99). -/
def fSinCos (cos : Bool) (r : Rnd) (a : Nat) : FRes :=
  match unpack fp32 a with
  | .nan _ => nanResult fp32 [a]
  | .inf _ => invalid fp32
  | .fin neg m e =>
    if m == 0 then (if cos then ⟨fp32.bias * 2 ^ fp32.fbits, flNone⟩ else ⟨a, flNone⟩)
    else roundApprox r (sinCosApprox a cos neg m e)

end Sys2Proof.Machine
end

