-- ==== Sys2Proof/Machine/FloatOps.lean ====
section
/-! DEFINITION. Floating-point arithmetic, the function unit and conversions (spec/04_isa_float.md R94 to R105). -/

namespace Sys2Proof.Machine

/-- A result pattern as one register word and its flags. -/
def FRes.one (r : FRes) : SibOut := ⟨[BitVec.ofNat 32 r.pat], r.fl⟩
/-- A result pattern as a pair of register words and its flags. -/
def FRes.two (r : FRes) : SibOut := ⟨halves (BitVec.ofNat 64 r.pat), r.fl⟩

/-- The patterns of a register's three siblings. -/
def natTri (t : Tri Word) : Tri Nat := t.map (·.toNat)
/-- The patterns of a pair's three siblings. -/
def natTri64 (t : Tri DWord) : Tri Nat := t.map (·.toNat)

/-- Digits of a triple (R58). -/
def digTri (fmt : Fmt) (t : Tri Nat) : Nat := digits fmt t.x0 t.x1 t.x2
/-- Whether a triple is finite throughout. -/
def finTri (fmt : Fmt) (t : Tri Nat) : Bool := isFinite fmt t.x0 && isFinite fmt t.x1 && isFinite fmt t.x2

/-- The pattern an output holds: its words as one number. -/
def SibOut.pat (o : SibOut) : Nat := wordsNat o.words

/-- Condition C (R60): all operands and results finite, and the operands' least digits exceed the result's by more than
`ctl.canc`. -/
def condC (fmt : Fmt) (f : Flight) (operands : List (Tri Nat)) (least : Nat) (out : Tri SibOut) : Option Meet :=
  let res := out.map SibOut.pat
  let d := digTri fmt res
  if operands.all (finTri fmt) && finTri fmt res && Nat.blt f.ctl.canc.toNat (least - d) then
    some ⟨.C, false, false, d + least * 256⟩
  else none

/-- Condition Z (R60): the divisor has no digits. -/
def condZ (fmt : Fmt) (div : Tri Nat) : Option Meet :=
  if digTri fmt div == 0 then some ⟨.Z, false, false, 0⟩ else none

/-- An FP32 operation of two operands with one rounding (R98). -/
def fp3 (s : State) (u : Bool) (d a b : BitVec 7) (la lb acc : Bool) (occ draws : Nat)
    (g : Rnd → Nat → Nat → Nat → FRes) (cond : Flight → Tri Nat → Tri Nat → Tri Nat → Tri SibOut → Option Meet) : Res :=
  let o := fun (f : Flight) i x => natTri (f.opnd i x)
  fpOp s (regs3 u d a b 1 1 1 la lb acc (halfIf u occ)) draws
    (fun f i k => (g (f.rnd i k 0) ((o f i d).get k) ((o f i a).get k) ((o f i b).get k)).one)
    (fun f i out => cond f (o f i d) (o f i a) (o f i b) out)

/-- An FP64 operation of two operands with one rounding (R101). -/
def fp3d (s : State) (u : Bool) (d a b : BitVec 7) (la lb acc : Bool) (occ draws : Nat)
    (g : Rnd → Nat → Nat → Nat → FRes) (cond : Flight → Tri Nat → Tri Nat → Tri Nat → Tri SibOut → Option Meet) : Res :=
  let o := fun (f : Flight) i x => natTri64 (f.opndPair i x)
  fpOp s (regs3 u d a b 2 2 2 la lb acc (halfIf u occ)) draws
    (fun f i k => (g (f.rnd i k 0) ((o f i d).get k) ((o f i a).get k) ((o f i b).get k)).two)
    (fun f i out => cond f (o f i d) (o f i a) (o f i b) out)

/-- No condition. -/
def noCond3 (_ : Flight) (_ _ _ : Tri Nat) (_ : Tri SibOut) : Option Meet := none

/-- C of a sum: the operands are a and b (R60). -/
def sumCond (fmt : Fmt) (f : Flight) (_ a b : Tri Nat) (out : Tri SibOut) : Option Meet :=
  condC fmt f [a, b] (min (digTri fmt a) (digTri fmt b)) out

/-- C of a fused form: the operands are the product, with the lesser digits of a and b, and d (R60). -/
def fusedCond (fmt : Fmt) (f : Flight) (d a b : Tri Nat) (out : Tri SibOut) : Option Meet :=
  condC fmt f [a, b, d] (min (min (digTri fmt a) (digTri fmt b)) (digTri fmt d)) out

/-- Z of a division: the divisor is b (R60). -/
def divCond (fmt : Fmt) (_ : Flight) (_ _ b : Tri Nat) (_ : Tri SibOut) : Option Meet := condZ fmt b

/-- FADD (R98). -/
def execFadd (u : Bool) (d a b : BitVec 7) (la lb : Bool) (s : State) : Res :=
  fp3 s u d a b la lb false 2 1 (fun r _ a b => fAdd fp32 r a b) (sumCond fp32)

/-- FSUB (R98). -/
def execFsub (u : Bool) (d a b : BitVec 7) (la lb : Bool) (s : State) : Res :=
  fp3 s u d a b la lb false 2 1 (fun r _ a b => fSub fp32 r a b) (sumCond fp32)

/-- FMUL (R98). -/
def execFmul (u : Bool) (d a b : BitVec 7) (la lb : Bool) (s : State) : Res :=
  fp3 s u d a b la lb false 2 1 (fun r _ a b => fMul fp32 r a b) noCond3

/-- FMIN: the lesser, not rounded (R98). -/
def execFmin (u : Bool) (d a b : BitVec 7) (la lb : Bool) (s : State) : Res :=
  fp3 s u d a b la lb false 2 0 (fun _ _ a b => fMinMax fp32 false a b) noCond3

/-- FMAX: the greater, not rounded (R98). -/
def execFmax (u : Bool) (d a b : BitVec 7) (la lb : Bool) (s : State) : Res :=
  fp3 s u d a b la lb false 2 0 (fun _ _ a b => fMinMax fp32 true a b) noCond3

/-- FFMA: a × b + d (R98). -/
def execFfma (u : Bool) (d a b : BitVec 7) (la lb : Bool) (s : State) : Res :=
  fp3 s u d a b la lb true 2 1 (fun r d a b => fFma fp32 r false a b d) (fusedCond fp32)

/-- FFMS: a × b − d (R98). -/
def execFfms (u : Bool) (d a b : BitVec 7) (la lb : Bool) (s : State) : Res :=
  fp3 s u d a b la lb true 2 1 (fun r d a b => fFma fp32 r true a b d) (fusedCond fp32)

/-- FDIV, testing the divisor (R98). -/
def execFdiv (u : Bool) (d a b : BitVec 7) (la lb : Bool) (s : State) : Res :=
  fp3 s u d a b la lb false 8 1 (fun r _ a b => fDiv fp32 r a b) (divCond fp32)

/-- DADD (R101). -/
def execDadd (u : Bool) (d a b : BitVec 7) (la lb : Bool) (s : State) : Res :=
  fp3d s u d a b la lb false 4 1 (fun r _ a b => fAdd fp64 r a b) (sumCond fp64)

/-- DSUB (R101). -/
def execDsub (u : Bool) (d a b : BitVec 7) (la lb : Bool) (s : State) : Res :=
  fp3d s u d a b la lb false 4 1 (fun r _ a b => fSub fp64 r a b) (sumCond fp64)

/-- DMUL (R101). -/
def execDmul (u : Bool) (d a b : BitVec 7) (la lb : Bool) (s : State) : Res :=
  fp3d s u d a b la lb false 4 1 (fun r _ a b => fMul fp64 r a b) noCond3

/-- DMIN: the lesser, not rounded (R101). -/
def execDmin (u : Bool) (d a b : BitVec 7) (la lb : Bool) (s : State) : Res :=
  fp3d s u d a b la lb false 4 0 (fun _ _ a b => fMinMax fp64 false a b) noCond3

/-- DMAX: the greater, not rounded (R101). -/
def execDmax (u : Bool) (d a b : BitVec 7) (la lb : Bool) (s : State) : Res :=
  fp3d s u d a b la lb false 4 0 (fun _ _ a b => fMinMax fp64 true a b) noCond3

/-- DFMA: a × b + d (R101). -/
def execDfma (u : Bool) (d a b : BitVec 7) (la lb : Bool) (s : State) : Res :=
  fp3d s u d a b la lb true 4 1 (fun r d a b => fFma fp64 r false a b d) (fusedCond fp64)

/-- DDIV, testing the divisor (R101). -/
def execDdiv (u : Bool) (d a b : BitVec 7) (la lb : Bool) (s : State) : Res :=
  fp3d s u d a b la lb false 32 1 (fun r _ a b => fDiv fp64 r a b) (divCond fp64)

/-- An FP32 function of one operand (R99). -/
def fp2 (s : State) (u : Bool) (d a : BitVec 7) (la : Bool) (occ draws : Nat) (g : Rnd → Nat → FRes)
    (cond : Tri Nat → Option Meet) : Res :=
  let o := fun (f : Flight) i => natTri (f.opnd i a)
  fpOp s (regs2 u d a 1 1 la false (halfIf u occ)) draws
    (fun f i k => (g (f.rnd i k 0) ((o f i).get k)).one) (fun f i _ => cond (o f i))

/-- No condition on the operand. -/
def noCond1 (_ : Tri Nat) : Option Meet := none

/-- FSQRT (R99). -/
def execFsqrt (u : Bool) (d a : BitVec 7) (la : Bool) (s : State) : Res :=
  fp2 s u d a la 8 1 (fun r a => fSqrt fp32 r a) noCond1

/-- FRCP, testing its operand for Z (R60, R99). -/
def execFrcp (u : Bool) (d a : BitVec 7) (la : Bool) (s : State) : Res :=
  fp2 s u d a la 8 1 (fun r a => fRcp fp32 r a) (condZ fp32)

/-- FRSQ, testing its operand for Z (R60, R100). -/
def execFrsq (u : Bool) (d a : BitVec 7) (la : Bool) (s : State) : Res :=
  fp2 s u d a la 8 1 (fun r a => fRsq r a) (condZ fp32)

/-- FEXP2 (R100). -/
def execFexp2 (u : Bool) (d a : BitVec 7) (la : Bool) (s : State) : Res :=
  fp2 s u d a la 8 1 (fun r a => fExp2 r a) noCond1

/-- FLOG2 (R100). -/
def execFlog2 (u : Bool) (d a : BitVec 7) (la : Bool) (s : State) : Res :=
  fp2 s u d a la 8 1 (fun r a => fLog2 r a) noCond1

/-- FSIN (R100). -/
def execFsin (u : Bool) (d a : BitVec 7) (la : Bool) (s : State) : Res :=
  fp2 s u d a la 8 1 (fun r a => fSinCos false r a) noCond1

/-- FCOS (R100). -/
def execFcos (u : Bool) (d a : BitVec 7) (la : Bool) (s : State) : Res :=
  fp2 s u d a la 8 1 (fun r a => fSinCos true r a) noCond1

/-- FABS: clears bit 31, no flag (R99). -/
def execFabs (u : Bool) (d a : BitVec 7) (la : Bool) (s : State) : Res :=
  fp2 s u d a la 2 0 (fun _ a => ⟨a % 2 ^ 31, flNone⟩) noCond1

/-- FNEG: inverts bit 31, no flag (R99). -/
def execFneg (u : Bool) (d a : BitVec 7) (la : Bool) (s : State) : Res :=
  fp2 s u d a la 2 0 (fun _ a => ⟨flipSign fp32 a, flNone⟩) noCond1

/-- FFLOOR (R99). -/
def execFfloor (u : Bool) (d a : BitVec 7) (la : Bool) (s : State) : Res :=
  fp2 s u d a la 2 0 (fun _ a => fToIntegral fp32 .down a) noCond1

/-- FCEIL (R99). -/
def execFceil (u : Bool) (d a : BitVec 7) (la : Bool) (s : State) : Res :=
  fp2 s u d a la 2 0 (fun _ a => fToIntegral fp32 .up a) noCond1

/-- FTRUNC (R99). -/
def execFtrunc (u : Bool) (d a : BitVec 7) (la : Bool) (s : State) : Res :=
  fp2 s u d a la 2 0 (fun _ a => fToIntegral fp32 .zero a) noCond1

/-- FRINT (R99). -/
def execFrint (u : Bool) (d a : BitVec 7) (la : Bool) (s : State) : Res :=
  fp2 s u d a la 2 1 (fun r a => fRint fp32 r a) noCond1

/-- DSQRT (R101). -/
def execDsqrt (u : Bool) (d a : BitVec 7) (la : Bool) (s : State) : Res :=
  fpOp s (regs2 u d a 2 2 la false (halfIf u 32)) 1
    (fun f i k => (fSqrt fp64 (f.rnd i k 0) ((f.opndPair i a).get k).toNat).two) noCond

/-- A packed operation: each half in its own format, the low half first with its own draw (R102). -/
def packed (s : State) (fmt : Fmt) (u : Bool) (d a b : BitVec 7) (la lb acc : Bool) (g : Rnd → Nat → Nat → Nat → FRes) : Res :=
  fpOp s (regs3 u d a b 1 1 1 la lb acc (halfIf u 2)) 2
    (fun f i k =>
      let v := fun x => ((f.opnd i x).get k).toNat
      let lo := g (f.rnd i k 0) (v d % 2 ^ 16) (v a % 2 ^ 16) (v b % 2 ^ 16)
      let hi := g (f.rnd i k 1) (v d / 2 ^ 16) (v a / 2 ^ 16) (v b / 2 ^ 16)
      ⟨[BitVec.ofNat 32 (lo.pat % 2 ^ fmt.width + hi.pat * 2 ^ 16)], lo.fl ||| hi.fl⟩) noCond

/-- HADD2 (R102). -/
def execHadd2 (u : Bool) (d a b : BitVec 7) (la lb : Bool) (s : State) : Res :=
  packed s fp16 u d a b la lb false fun r _ a b => fAdd fp16 r a b
/-- HMUL2 (R102). -/
def execHmul2 (u : Bool) (d a b : BitVec 7) (la lb : Bool) (s : State) : Res :=
  packed s fp16 u d a b la lb false fun r _ a b => fMul fp16 r a b
/-- HFMA2 (R102). -/
def execHfma2 (u : Bool) (d a b : BitVec 7) (la lb : Bool) (s : State) : Res :=
  packed s fp16 u d a b la lb true fun r d a b => fFma fp16 r false a b d
/-- BFMA2 (R102). -/
def execBfma2 (u : Bool) (d a b : BitVec 7) (la lb : Bool) (s : State) : Res :=
  packed s bf16 u d a b la lb true fun r d a b => fFma bf16 r false a b d

/-- A conversion to an integer of n words (R63, R105): TZ forms round toward zero. -/
def toInt (n : Nat) (src : Fmt) (tz : Bool) (lo hi : Int) (r : Rnd) (x : Nat) : SibOut :=
  let v := cvtInt src (if tz then .zero else r.mode) lo hi x
  ⟨if n == 1 then [BitVec.ofInt 32 v.val] else halves (BitVec.ofInt 64 v.val), v.fl⟩

/-- The range of I32, N32, I64 and N64 (R105). -/
def intRange (wide signed : Bool) : Int × Int :=
  match wide, signed with
  | false, true => (-(2 ^ 31), 2 ^ 31 - 1)
  | false, false => (0, 2 ^ 32 - 1)
  | true, true => (-(2 ^ 63), 2 ^ 63 - 1)
  | true, false => (0, 2 ^ 64 - 1)

/-- A conversion from an integer of a given signedness and width (R105). -/
def ofInt (dst : Fmt) (wide signed : Bool) (r : Rnd) (x : Nat) : FRes :=
  let v : Int := match wide, signed with
    | _, false => x
    | false, true => (BitVec.ofNat 32 x).toInt
    | true, true => (BitVec.ofNat 64 x).toInt
  fOfInt dst r v

/-- A conversion between floating formats: the source is read from the low bits, the result written to them (R105). -/
def fltCvt (src dst : Fmt) (r : Rnd) (x : Nat) : SibOut :=
  let v := fConvert src dst r (x % 2 ^ src.width)
  if dst.width == 64 then v.two else v.one

/-- The packed conversions of codes 24 and 25: the even register into the low half, then the odd one (R105). -/
def packCvt (dst : Fmt) (r0 r1 : Rnd) (x : Nat) : SibOut :=
  let lo := fConvert fp32 dst r0 (x % 2 ^ 32)
  let hi := fConvert fp32 dst r1 (x / 2 ^ 32)
  ⟨[BitVec.ofNat 32 (lo.pat + hi.pat * 2 ^ 16)], lo.fl ||| hi.fl⟩

/-- A float to integer conversion of code c (R25, R105). -/
def fltToInt (src : Fmt) (wide signed tz : Bool) (r : Rnd) (x : Nat) : SibOut :=
  let g := intRange wide signed
  toInt (if wide then 2 else 1) src tz g.1 g.2 r x

/-- The conversions by code (R25): r0 and r1 are the roundings of the first and second value. -/
def convert (c : Nat) (r0 r1 : Rnd) (x : Nat) : SibOut :=
  match c with
  | 0 => (ofInt fp32 false true r0 x).one
  | 1 => (ofInt fp32 false false r0 x).one
  | 2 => fltToInt fp32 false true false r0 x
  | 3 => fltToInt fp32 false false false r0 x
  | 4 => fltToInt fp32 false true true r0 x
  | 5 => fltToInt fp32 false false true r0 x
  | 6 => (ofInt fp64 false true r0 x).two
  | 7 => (ofInt fp64 false false r0 x).two
  | 8 => fltToInt fp64 false true false r0 x
  | 9 => fltToInt fp64 false false false r0 x
  | 10 => fltToInt fp64 false true true r0 x
  | 11 => fltToInt fp64 false false true r0 x
  | 12 => (ofInt fp64 true true r0 x).two
  | 13 => (ofInt fp64 true false r0 x).two
  | 14 => fltToInt fp64 true true false r0 x
  | 15 => fltToInt fp64 true false false r0 x
  | 16 => fltToInt fp64 true true true r0 x
  | 17 => fltToInt fp64 true false true r0 x
  | 18 => fltCvt fp64 fp32 r0 x
  | 19 => fltCvt fp32 fp64 r0 x
  | 20 => fltCvt fp32 fp16 r0 x
  | 21 => fltCvt fp16 fp32 r0 x
  | 22 => fltCvt fp32 bf16 r0 x
  | 23 => fltCvt bf16 fp32 r0 x
  | 24 => packCvt fp16 r0 r1 x
  | 25 => packCvt bf16 r0 r1 x
  | 26 => fltCvt fp16 fp32 r0 (x / 2 ^ 16)
  | 27 => fltCvt bf16 fp32 r0 (x / 2 ^ 16)
  | 28 => (ofInt fp32 true true r0 x).one
  | 29 => (ofInt fp32 true false r0 x).one
  | 30 => fltToInt fp32 true true false r0 x
  | _ => fltToInt fp32 true false false r0 x

/-- Occupancy of a conversion code (R96). -/
def cvtOcc (c : Nat) : Nat := if Nat.ble c 5 || (Nat.ble 20 c && Nat.ble c 27) then 2 else 4

/-- CVT (R105). -/
def execCvt (u : Bool) (d a : BitVec 7) (c : BitVec 5) (la : Bool) (s : State) : Res :=
  let w := cvtWidths c.toNat
  fpOp s (regs2 u d a w.1 w.2 la false (halfIf u (cvtOcc c.toNat))) (if c == 24 || c == 25 then 2 else 1)
    (fun f i k =>
      let x := wordsNat (((f.opndBlock i a w.2)).get k)
      convert c.toNat (f.rnd i k 0) (f.rnd i k 1) x) noCond

end Sys2Proof.Machine
end

