-- ==== Sys2Proof/Machine/Integer.lean ====
section
/-! DEFINITION. Integers, logic, shifts, bit fields, moves and constants (spec/03_isa_integer.md R84 to R89). -/

namespace Sys2Proof.Machine

/-- A format-T integer operation on single registers (R81): g takes d, a and b of one sibling. -/
def int3 (s : State) (u : Bool) (d a b : BitVec 7) (la lb acc : Bool) (occ : Nat) (g : Word → Word → Word → Word) : Res :=
  regOp s (regs3 u d a b 1 1 1 la lb acc (oneIf u occ)) fun f i =>
    [Tri.of (fun k => g ((f.opnd i d).get k) ((f.opnd i a).get k) ((f.opnd i b).get k))]

/-- An integer operation of one register operand: g takes d and a of one sibling. -/
def int2 (s : State) (u : Bool) (d a : BitVec 7) (la acc : Bool) (occ : Nat) (g : Word → Word → Word) : Res :=
  regOp s (regs2 u d a 1 1 la acc (oneIf u occ)) fun f i =>
    [Tri.of (fun k => g ((f.opnd i d).get k) ((f.opnd i a).get k))]

/-- A 64-bit operation that writes a pair (R89). -/
def int64 (s : State) (u : Bool) (d a b : BitVec 7) (wa wb : Nat) (la lb : Bool) (g : Flight → Nat → Nat → DWord) : Res :=
  regOp s (regs3 u d a b 2 wa wb la lb false (oneIf u 4)) fun f i => pairDest (Tri.of (g f i))

/-- Sat32 (R84). -/
def sat32 (x : Int) : Int := max (-(2 ^ 31)) (min x (2 ^ 31 - 1))

/-- SHL by n (R85). -/
def shlW (a : Word) (n : Nat) : Word := a <<< n
/-- SHR by n (R85). -/
def shrW (a : Word) (n : Nat) : Word := a >>> n
/-- SAR by n (R85). -/
def sarW (a : Word) (n : Nat) : Word := a.sshiftRight (min n 31)
/-- ROL by n (R85). -/
def rolW (a : Word) (n : Nat) : Word := a.rotateLeft n

/-- The number of one bits among the low n bits (R85). -/
def popcount (a : Word) : Nat → Nat
  | 0 => 0
  | n + 1 => popcount a n + (if a.getLsbD n then 1 else 0)

/-- The number of zero bits above the highest one bit, looking at the low n bits (R85). -/
def leadingZeros (a : Word) : Nat → Nat
  | 0 => 0
  | n + 1 => if a.getLsbD n then 0 else leadingZeros a n + 1

/-- BREV (R85). -/
def brevW (a : Word) : Word := a.reverse

/-- BFX of a under the control word b (R86). -/
def bfxW (a b : Word) : Word :=
  let pos := bits b.toNat 4 0
  let len := bits b.toNat 12 8 + 1
  let sgn := b.getLsbD 16
  let x : BitVec 64 := if sgn then a.signExtend 64 else a.setWidth 64
  let f := (x >>> pos).toNat % 2 ^ len
  if sgn && f.testBit (len - 1) then BitVec.ofInt 32 ((f : Int) - 2 ^ len) else BitVec.ofNat 32 f

/-- BFI of a into d under the control word b (R86). -/
def bfiW (d a b : Word) : Word :=
  let pos := bits b.toNat 4 0
  let len := bits b.toNat 12 8 + 1
  let m : Word := BitVec.ofNat 32 ((2 ^ len - 1) * 2 ^ pos)
  (d &&& ~~~m) ||| ((a <<< pos) &&& m)

/-- MOVH (R87). -/
def movhW (d : Word) (imm : BitVec 14) : Word := (imm.setWidth 32 <<< 18) ||| (d &&& 0x0003FFFF#32)

/-- IADD: the sum modulo 2^32 (R84). -/
def execIadd (u : Bool) (d a b : BitVec 7) (la lb : Bool) (s : State) : Res :=
  int3 s u d a b la lb false 2 fun _ a b => a + b

/-- ISUB: the difference modulo 2^32 (R84). -/
def execIsub (u : Bool) (d a b : BitVec 7) (la lb : Bool) (s : State) : Res :=
  int3 s u d a b la lb false 2 fun _ a b => a - b

/-- IMIN: the signed lesser (R84). -/
def execImin (u : Bool) (d a b : BitVec 7) (la lb : Bool) (s : State) : Res :=
  int3 s u d a b la lb false 2 fun _ a b => if sval a ≤ sval b then a else b

/-- IMAX: the signed greater (R84). -/
def execImax (u : Bool) (d a b : BitVec 7) (la lb : Bool) (s : State) : Res :=
  int3 s u d a b la lb false 2 fun _ a b => if sval b ≤ sval a then a else b

/-- IMUL: the low half of the product (R84). -/
def execImul (u : Bool) (d a b : BitVec 7) (la lb : Bool) (s : State) : Res :=
  int3 s u d a b la lb false 4 fun _ a b => a * b

/-- IMULH: the high half of the signed product (R84). -/
def execImulh (u : Bool) (d a b : BitVec 7) (la lb : Bool) (s : State) : Res :=
  int3 s u d a b la lb false 4 fun _ a b => BitVec.ofInt 32 (sval a * sval b / 2 ^ 32)

/-- IMULHU: the high half of the unsigned product (R84). -/
def execImulhu (u : Bool) (d a b : BitVec 7) (la lb : Bool) (s : State) : Res :=
  int3 s u d a b la lb false 4 fun _ a b => BitVec.ofNat 32 (uval a * uval b / 2 ^ 32)

/-- IMAD: the product added to d (R84). -/
def execImad (u : Bool) (d a b : BitVec 7) (la lb : Bool) (s : State) : Res :=
  int3 s u d a b la lb true 4 fun d a b => d + a * b

/-- IADDMIN: the lesser of d and the saturated sum (R84). -/
def execIaddmin (u : Bool) (d a b : BitVec 7) (la lb : Bool) (s : State) : Res :=
  int3 s u d a b la lb true 2 fun d a b => BitVec.ofInt 32 (min (sval d) (sat32 (sval a + sval b)))

/-- IADDMAX: the greater of d and the saturated sum (R84). -/
def execIaddmax (u : Bool) (d a b : BitVec 7) (la lb : Bool) (s : State) : Res :=
  int3 s u d a b la lb true 2 fun d a b => BitVec.ofInt 32 (max (sval d) (sat32 (sval a + sval b)))

/-- IABSD: the absolute signed difference (R84). -/
def execIabsd (u : Bool) (d a b : BitVec 7) (la lb : Bool) (s : State) : Res :=
  int3 s u d a b la lb false 2 fun _ a b => BitVec.ofNat 32 (sval a - sval b).natAbs

/-- IMINU: the unsigned lesser (R84). -/
def execIminu (u : Bool) (d a b : BitVec 7) (la lb : Bool) (s : State) : Res :=
  int3 s u d a b la lb false 2 fun _ a b => if uval a ≤ uval b then a else b

/-- AND (R85). -/
def execAndR (u : Bool) (d a b : BitVec 7) (la lb : Bool) (s : State) : Res :=
  int3 s u d a b la lb false 2 fun _ a b => a &&& b

/-- OR (R85). -/
def execOrR (u : Bool) (d a b : BitVec 7) (la lb : Bool) (s : State) : Res :=
  int3 s u d a b la lb false 2 fun _ a b => a ||| b

/-- XOR (R85). -/
def execXorR (u : Bool) (d a b : BitVec 7) (la lb : Bool) (s : State) : Res :=
  int3 s u d a b la lb false 2 fun _ a b => a ^^^ b

/-- ANDN: a and not b (R85). -/
def execAndn (u : Bool) (d a b : BitVec 7) (la lb : Bool) (s : State) : Res :=
  int3 s u d a b la lb false 2 fun _ a b => a &&& ~~~b

/-- SHL by b[7:0] (R85). -/
def execShl (u : Bool) (d a b : BitVec 7) (la lb : Bool) (s : State) : Res :=
  int3 s u d a b la lb false 2 fun _ a b => shlW a (b.toNat % 256)

/-- SHR by b[7:0] (R85). -/
def execShr (u : Bool) (d a b : BitVec 7) (la lb : Bool) (s : State) : Res :=
  int3 s u d a b la lb false 2 fun _ a b => shrW a (b.toNat % 256)

/-- SAR by b[7:0] (R85). -/
def execSar (u : Bool) (d a b : BitVec 7) (la lb : Bool) (s : State) : Res :=
  int3 s u d a b la lb false 2 fun _ a b => sarW a (b.toNat % 256)

/-- ROL by b[4:0] (R85). -/
def execRol (u : Bool) (d a b : BitVec 7) (la lb : Bool) (s : State) : Res :=
  int3 s u d a b la lb false 2 fun _ a b => rolW a (b.toNat % 32)

/-- BFX (R86). -/
def execBfx (u : Bool) (d a b : BitVec 7) (la lb : Bool) (s : State) : Res :=
  int3 s u d a b la lb false 2 fun _ a b => bfxW a b

/-- BFI: reads d (R86). -/
def execBfi (u : Bool) (d a b : BitVec 7) (la lb : Bool) (s : State) : Res :=
  int3 s u d a b la lb true 2 fun d a b => bfiW d a b

/-- POPC (R85). -/
def execPopc (u : Bool) (d a : BitVec 7) (la : Bool) (s : State) : Res := int2 s u d a la false 2 fun _ a => BitVec.ofNat 32 (popcount a 32)

/-- CLZ (R85). -/
def execClz (u : Bool) (d a : BitVec 7) (la : Bool) (s : State) : Res := int2 s u d a la false 2 fun _ a => BitVec.ofNat 32 (leadingZeros a 32)

/-- BREV (R85). -/
def execBrev (u : Bool) (d a : BitVec 7) (la : Bool) (s : State) : Res := int2 s u d a la false 2 fun _ a => brevW a

/-- MOV: copies sibling by sibling (R87). -/
def execMov (u : Bool) (d a : BitVec 7) (la : Bool) (s : State) : Res := int2 s u d a la false 2 fun _ a => a

/-- IADDI, with the immediate sign-extended (R88). -/
def execIaddi (u : Bool) (d a : BitVec 7) (imm : BitVec 10) (la : Bool) (s : State) : Res :=
  int2 s u d a la false 2 fun _ a => a + imm.signExtend 32

/-- ANDI, with the immediate sign-extended (R88). -/
def execAndi (u : Bool) (d a : BitVec 7) (imm : BitVec 10) (la : Bool) (s : State) : Res :=
  int2 s u d a la false 2 fun _ a => a &&& imm.signExtend 32

/-- ORI, with the immediate sign-extended (R88). -/
def execOri (u : Bool) (d a : BitVec 7) (imm : BitVec 10) (la : Bool) (s : State) : Res :=
  int2 s u d a la false 2 fun _ a => a ||| imm.signExtend 32

/-- XORI, with the immediate sign-extended (R88). -/
def execXori (u : Bool) (d a : BitVec 7) (imm : BitVec 10) (la : Bool) (s : State) : Res :=
  int2 s u d a la false 2 fun _ a => a ^^^ imm.signExtend 32

/-- SHLI: SHL by an immediate amount (R88). -/
def execShli (u : Bool) (d a : BitVec 7) (amt : BitVec 5) (la : Bool) (s : State) : Res :=
  int2 s u d a la false 2 fun _ a => shlW a amt.toNat

/-- SHRI: SHR by an immediate amount (R88). -/
def execShri (u : Bool) (d a : BitVec 7) (amt : BitVec 5) (la : Bool) (s : State) : Res :=
  int2 s u d a la false 2 fun _ a => shrW a amt.toNat

/-- SARI: SAR by an immediate amount (R88). -/
def execSari (u : Bool) (d a : BitVec 7) (amt : BitVec 5) (la : Bool) (s : State) : Res :=
  int2 s u d a la false 2 fun _ a => sarW a amt.toNat

/-- ROLI: ROL by an immediate amount (R88). -/
def execRoli (u : Bool) (d a : BitVec 7) (amt : BitVec 5) (la : Bool) (s : State) : Res :=
  int2 s u d a la false 2 fun _ a => rolW a amt.toNat

/-- MOVI: the immediate sign-extended (R87). -/
def execMovi (u : Bool) (d : BitVec 7) (imm : BitVec 18) (s : State) : Res :=
  regOp s (regsD d 1 u (oneIf u 2)) fun _ _ => [Tri.rep (imm.signExtend 32)]

/-- MOVH: replaces bits [31:18] of d (R87). -/
def execMovh (u : Bool) (d : BitVec 7) (imm : BitVec 14) (s : State) : Res :=
  regOp s (fun f => ⟨f.block d.toNat 1, f.block d.toNat 1, [], u, oneIf u 2⟩) fun f i =>
    [(f.opnd i d).map (fun x => movhW x imm)]

/-- MOVP: the thread's predicates, the same in all siblings (R87). -/
def execMovp (d : BitVec 7) (s : State) : Res :=
  regOp s (regsD d 1 false 2) fun f i => [Tri.rep ((f.thread i).preds.setWidth 32)]

/-- LEA: adds a shifted signed register to a pair (R89). -/
def execLea (u : Bool) (d a b : BitVec 7) (sh : BitVec 2) (la lb : Bool) (s : State) : Res :=
  int64 s u d a b 2 1 la lb fun f i k =>
    (f.opndPair i a).get k + (((f.opnd i b).get k).signExtend 64 <<< sh.toNat)

/-- IADD64 (R89). -/
def execIadd64 (u : Bool) (d a b : BitVec 7) (la lb : Bool) (s : State) : Res :=
  int64 s u d a b 2 2 la lb fun f i k => (f.opndPair i a).get k + (f.opndPair i b).get k

/-- ISUB64 (R89). -/
def execIsub64 (u : Bool) (d a b : BitVec 7) (la lb : Bool) (s : State) : Res :=
  int64 s u d a b 2 2 la lb fun f i k => (f.opndPair i a).get k - (f.opndPair i b).get k

/-- IMULW: the exact signed product (R89). -/
def execImulw (u : Bool) (d a b : BitVec 7) (la lb : Bool) (s : State) : Res :=
  int64 s u d a b 1 1 la lb fun f i k =>
    ((f.opnd i a).get k).signExtend 64 * ((f.opnd i b).get k).signExtend 64

/-- SHL64 by b[7:0] (R89). -/
def execShl64 (u : Bool) (d a b : BitVec 7) (la lb : Bool) (s : State) : Res :=
  int64 s u d a b 2 1 la lb fun f i k => (f.opndPair i a).get k <<< (((f.opnd i b).get k).toNat % 256)

end Sys2Proof.Machine
end

