-- ==== Sys2Proof/Machine/Siblings.lean ====
section
/-! DEFINITION. Reading the siblings, solo stretches and block quantization (spec/04_isa_float.md R106 to R113). -/

namespace Sys2Proof.Machine

/-- The format of a sibling type (R26). -/
def sibFmt : SibType → Fmt
  | .f32 => fp32
  | .f64 => fp64
  | .f16 => fp16
  | .bf16 => bf16

/-- Registers of a value of a sibling type (R26). -/
def sibRegs : SibType → Nat
  | .f64 => 2
  | _ => 1

/-- The three copies of a value as they stand, in every kind of execution; a 16-bit type reads bits [15:0] (R94, R106). -/
def Flight.sibVals (f : Flight) (slot : Nat) (ty : SibType) (a : BitVec 7) : Tri Nat :=
  Tri.of fun k => wordsNat ((f.block a.toNat (sibRegs ty)).map (fun n => f.readReg n slot k)) % 2 ^ (sibFmt ty).width

/-- Occupancy of SIB is 2; of DIGITS, MEAN and CHKD 4 (R96). DIGITS writes the digit count into all siblings (R106). -/
def execDigits (d a : BitVec 7) (ty : SibType) (la : Bool) (s : State) : Res :=
  regOp s (regs2 false d a 1 (sibRegs ty) la false 4) fun f i =>
    let t := f.sibVals i ty a
    [Tri.rep (BitVec.ofNat 32 (digits (sibFmt ty) t.x0 t.x1 t.x2))]

/-- SIB: sibling k's copy, unchanged, into all siblings (R107). -/
def execSib (d a : BitVec 7) (ty : SibType) (k : BitVec 2) (la : Bool) (s : State) : Res :=
  regOp s (regs2 false d a (sibRegs ty) (sibRegs ty) la false 2) fun f i =>
    (natWords (sibRegs ty) ((f.sibVals i ty a).get k.toNat)).map Tri.rep

/-- MEAN: Mean3 into all siblings; the counter advances by one (R108). -/
def execMean (d a : BitVec 7) (ty : SibType) (la : Bool) (s : State) : Res :=
  runOp s (regs2 false d a (sibRegs ty) (sibRegs ty) la false 4) fun u f c =>
    let r := regs2 false d a (sibRegs ty) (sibRegs ty) la false 4 f
    let m := fun i => let t := f.sibVals i ty a; mean3 (sibFmt ty) t.x0 t.x1 t.x2
    let f1 := writeDests f c r (spread false c.act (fun i => (natWords (sibRegs ty) (m i).pat).map Tri.rep))
    let fl := c.act.foldl (fun x i => x ||| (m i).fl) flNone
    .done ((s.setFlight u ((f1.raise fl).advanceCounters c.act 1)).occupy f c r)

/-- CHKD: D where the copies differ (c = 0), C where they hold fewer than c digits (R109). -/
def execChkd (a : BitVec 7) (ty : SibType) (need : BitVec 5) (la : Bool) (s : State) : Res :=
  let regs := fun (f : Flight) => OpRegs.mk (f.block a.toNat (sibRegs ty)) [] (relOf la (f.block a.toNat (sibRegs ty))) false 4
  runOp s regs fun u f c =>
    let r := regs f
    let cond := fun i =>
      let t := f.sibVals i ty a
      let d := digits (sibFmt ty) t.x0 t.x1 t.x2
      if f.single i then none
      else if need == 0 then (if t.maj.2 then none else some (Meet.mk .D false true d))
      else if Nat.blt d need.toNat then some (Meet.mk .C false true d)
      else none
    let ms := meetsOf false c cond
    .done (((s.setFlight u ((released f c r).meets ms)).occupy f c r).countMeets f ms)

/-- SOLO: sets the solo bit of the active threads (R110). -/
def execSolo (s : State) : Res :=
  runOp s (regs0 2) fun u f c =>
    .done ((s.setFlight u (f.modThreads c.act (fun t => { t with solo := true }))).occupy f c (regs0 2 f))

/-- TRIO: clears it (R110). -/
def execTrio (s : State) : Res :=
  runOp s (regs0 2) fun u f c =>
    .done ((s.setFlight u (f.modThreads c.act (fun t => { t with solo := false }))).occupy f c (regs0 2 f))

/-- Magnitude bits of a block format (R64). -/
def bxBitsF : BxFmt → Nat
  | .bx8 => 6
  | .bx6 => 4
  | .bx4 => 2

/-- The size of the groups a Hadamard option transforms (R67). -/
def hadSize : Hadamard → Nat
  | .none => 0
  | .h16 => 16
  | .h32 => 32

/-- The slots of the elements of each block of a flight (R112): a triple kernel has one block per sibling of threads 0 to 31, a
lane kernel three of 32 lanes, a narrow flight one per half, of 16 threads. -/
def Flight.qbxBlocks (f : Flight) : List (List Nat) :=
  if f.narrow then
    let hi := if f.lane then 48 else 16
    [List.range 16, (List.range 16).map (· + hi)]
  else if f.lane then [List.range 32, (List.range 32).map (· + 32), (List.range 32).map (· + 64)]
  else [List.range 32]

/-- The input of an element: +0 for a thread that is not active or a slot without a thread; sibling 0's copy of a solo
thread (R112). -/
def qbxIn (f : Flight) (act : List Nat) (a : BitVec 7) (k slot : Nat) : BxIn :=
  if act.contains slot then bxIn ((f.opnd slot a).get k).toNat else .fin false Dy.zero

/-- How element i of sibling k's block rounds (R112): under its own thread's t and counter plus i where the slot holds a
thread, else under those of the block's lowest active thread, also where that thread is solo (DESIGN CHOICE, log 114). -/
def qbxMode (f : Flight) (act : List Nat) (low k i slot : Nat) : RMode :=
  if f.lane then rmodeOf f.ctl.round.toNat
  else
    match mget f.threads slot with
    | some t =>
      if t.solo && act.contains slot then rmodeOf f.ctl.round.toNat
      else (Rnd.drawn (f.draw t.t k ((t.rcount.toNat + i) % 2 ^ 48))).mode
    | none =>
      let t := f.thread low
      (Rnd.drawn (f.draw t.t k ((t.rcount.toNat + i) % 2 ^ 48))).mode

/-- The block of sibling k over some slots, padded to 32 elements (R112). -/
def qbxOf (f : Flight) (act : List Nat) (fmt : BxFmt) (had : Hadamard) (a : BitVec 7) (k : Nat) (slots : List Nat) : BxBlock :=
  let low := ((slots.filter (fun i => act.contains i)).head?).getD 0
  let pad := List.replicate (32 - slots.length) 96
  let idx := (slots ++ pad).zipIdx
  qbxBlock (bxBitsF fmt) (hadSize had) (idx.map (fun p => qbxMode f act low k p.2 p.1))
    ((slots ++ pad).map (qbxIn f act a k))

/-- QBX: quantizes the blocks of the flight; d takes the element code and b the exponent pair (R112). Where d and b name one
register the exponent pair remains (DESIGN CHOICE, log 82). -/
def execQbx (fmt : BxFmt) (had : Hadamard) (d a b : BitVec 7) (s : State) : Res :=
  let regs := fun (f : Flight) =>
    OpRegs.mk [f.regName a.toNat] [f.regName d.toNat, f.regName b.toNat] [] false (if had = .none then 8 else 12)
  runOp s regs fun u f c =>
    let r := regs f
    let act := c.act
    let blocks := (f.qbxBlocks.filter (fun sl => sl.any (fun i => act.contains i))).map (fun sl =>
      (sl, if f.lane then Tri.rep (qbxOf f act fmt had a 0 sl) else Tri.of (fun k => qbxOf f act fmt had a k sl)))
    let val := fun i =>
      match blocks.find? (fun p => p.1.contains i) with
      | none => [Tri.rep 0, Tri.rep 0]
      | some p =>
        let j := p.1.findIdx (· == i)
        let t := if f.single i then Tri.rep p.2.x0 else p.2
        [t.map (fun x => BitVec.ofNat 32 ((x.codes[j]?).getD 0)), t.map (fun x => BitVec.ofNat 32 (x.e0 + 256 * x.e1))]
    let fl := blocks.foldl (fun x p => x ||| p.2.x0.fl ||| p.2.x1.fl ||| p.2.x2.fl) flNone
    let f1 := writeDests f c r (spread false act val)
    .done ((s.setFlight u ((f1.raise fl).advanceCounters act 32)).occupy f c r)

/-- DQBX: decodes one element per thread and sibling, exactly (R113). -/
def execDqbx (fmt : BxFmt) (d a b : BitVec 7) (s : State) : Res :=
  regOp s (regs3 false d a b 1 1 1 false false false 4) fun f i =>
    [(f.opnd i a).zip (fun x y =>
      BitVec.ofNat 32 (bxPattern (bxBitsF fmt) (x.toNat % 2 ^ ((bxBitsF fmt) + 2)) (y.toNat % 256) (y.toNat / 256 % 256))) (f.opnd i b)]

end Sys2Proof.Machine
end

