-- ==== Sys2Proof/Machine/Dispatch.lean ====
section
/-! DEFINITION. The meaning of each instruction and step of the X4: one arm for each constructor of Instr. -/

namespace Sys2Proof.Machine

/-- What an instruction or step does to the state. -/
def exec (i : Instr) (s : State) : Host.Outcome State Fault Refusal :=
  match i with
  | .iadd u d a b la lb => Sys2Proof.Machine.execIadd u d a b la lb s
  | .isub u d a b la lb => Sys2Proof.Machine.execIsub u d a b la lb s
  | .imin u d a b la lb => Sys2Proof.Machine.execImin u d a b la lb s
  | .imax u d a b la lb => Sys2Proof.Machine.execImax u d a b la lb s
  | .imul u d a b la lb => Sys2Proof.Machine.execImul u d a b la lb s
  | .imulh u d a b la lb => Sys2Proof.Machine.execImulh u d a b la lb s
  | .imulhu u d a b la lb => Sys2Proof.Machine.execImulhu u d a b la lb s
  | .imad u d a b la lb => Sys2Proof.Machine.execImad u d a b la lb s
  | .iaddmin u d a b la lb => Sys2Proof.Machine.execIaddmin u d a b la lb s
  | .iaddmax u d a b la lb => Sys2Proof.Machine.execIaddmax u d a b la lb s
  | .iabsd u d a b la lb => Sys2Proof.Machine.execIabsd u d a b la lb s
  | .iminu u d a b la lb => Sys2Proof.Machine.execIminu u d a b la lb s
  | .andR u d a b la lb => Sys2Proof.Machine.execAndR u d a b la lb s
  | .orR u d a b la lb => Sys2Proof.Machine.execOrR u d a b la lb s
  | .xorR u d a b la lb => Sys2Proof.Machine.execXorR u d a b la lb s
  | .andn u d a b la lb => Sys2Proof.Machine.execAndn u d a b la lb s
  | .shl u d a b la lb => Sys2Proof.Machine.execShl u d a b la lb s
  | .shr u d a b la lb => Sys2Proof.Machine.execShr u d a b la lb s
  | .sar u d a b la lb => Sys2Proof.Machine.execSar u d a b la lb s
  | .rol u d a b la lb => Sys2Proof.Machine.execRol u d a b la lb s
  | .popc u d a la => Sys2Proof.Machine.execPopc u d a la s
  | .clz u d a la => Sys2Proof.Machine.execClz u d a la s
  | .brev u d a la => Sys2Proof.Machine.execBrev u d a la s
  | .bfx u d a b la lb => Sys2Proof.Machine.execBfx u d a b la lb s
  | .mov u d a la => Sys2Proof.Machine.execMov u d a la s
  | .movp d => Sys2Proof.Machine.execMovp d s
  | .pmov a la => Sys2Proof.Machine.execPmov a la s
  | .bfi u d a b la lb => Sys2Proof.Machine.execBfi u d a b la lb s
  | .sel u d a b p => Sys2Proof.Machine.execSel u d a b p s
  | .icmp u mode p a b cond => Sys2Proof.Machine.execIcmp u mode p a b cond s
  | .fcmp u mode p a b cond => Sys2Proof.Machine.execFcmp u mode p a b cond s
  | .dcmp u mode p a b cond => Sys2Proof.Machine.execDcmp u mode p a b cond s
  | .pand d a b => Sys2Proof.Machine.execPand d a b s
  | .por d a b => Sys2Proof.Machine.execPor d a b s
  | .pxor d a b => Sys2Proof.Machine.execPxor d a b s
  | .pnot d a => Sys2Proof.Machine.execPnot d a s
  | .lea u d a b sh la lb => Sys2Proof.Machine.execLea u d a b sh la lb s
  | .iadd64 u d a b la lb => Sys2Proof.Machine.execIadd64 u d a b la lb s
  | .isub64 u d a b la lb => Sys2Proof.Machine.execIsub64 u d a b la lb s
  | .imulw u d a b la lb => Sys2Proof.Machine.execImulw u d a b la lb s
  | .shl64 u d a b la lb => Sys2Proof.Machine.execShl64 u d a b la lb s
  | .iaddi u d a imm la => Sys2Proof.Machine.execIaddi u d a imm la s
  | .andi u d a imm la => Sys2Proof.Machine.execAndi u d a imm la s
  | .ori u d a imm la => Sys2Proof.Machine.execOri u d a imm la s
  | .xori u d a imm la => Sys2Proof.Machine.execXori u d a imm la s
  | .shli u d a amt la => Sys2Proof.Machine.execShli u d a amt la s
  | .shri u d a amt la => Sys2Proof.Machine.execShri u d a amt la s
  | .sari u d a amt la => Sys2Proof.Machine.execSari u d a amt la s
  | .roli u d a amt la => Sys2Proof.Machine.execRoli u d a amt la s
  | .movi u d imm => Sys2Proof.Machine.execMovi u d imm s
  | .movh u d imm => Sys2Proof.Machine.execMovh u d imm s
  | .fadd u d a b la lb => Sys2Proof.Machine.execFadd u d a b la lb s
  | .fsub u d a b la lb => Sys2Proof.Machine.execFsub u d a b la lb s
  | .fmul u d a b la lb => Sys2Proof.Machine.execFmul u d a b la lb s
  | .fmin u d a b la lb => Sys2Proof.Machine.execFmin u d a b la lb s
  | .fmax u d a b la lb => Sys2Proof.Machine.execFmax u d a b la lb s
  | .ffma u d a b la lb => Sys2Proof.Machine.execFfma u d a b la lb s
  | .ffms u d a b la lb => Sys2Proof.Machine.execFfms u d a b la lb s
  | .fdiv u d a b la lb => Sys2Proof.Machine.execFdiv u d a b la lb s
  | .fsqrt u d a la => Sys2Proof.Machine.execFsqrt u d a la s
  | .frcp u d a la => Sys2Proof.Machine.execFrcp u d a la s
  | .frsq u d a la => Sys2Proof.Machine.execFrsq u d a la s
  | .fexp2 u d a la => Sys2Proof.Machine.execFexp2 u d a la s
  | .flog2 u d a la => Sys2Proof.Machine.execFlog2 u d a la s
  | .fsin u d a la => Sys2Proof.Machine.execFsin u d a la s
  | .fcos u d a la => Sys2Proof.Machine.execFcos u d a la s
  | .fabs u d a la => Sys2Proof.Machine.execFabs u d a la s
  | .fneg u d a la => Sys2Proof.Machine.execFneg u d a la s
  | .ffloor u d a la => Sys2Proof.Machine.execFfloor u d a la s
  | .fceil u d a la => Sys2Proof.Machine.execFceil u d a la s
  | .ftrunc u d a la => Sys2Proof.Machine.execFtrunc u d a la s
  | .frint u d a la => Sys2Proof.Machine.execFrint u d a la s
  | .dadd u d a b la lb => Sys2Proof.Machine.execDadd u d a b la lb s
  | .dsub u d a b la lb => Sys2Proof.Machine.execDsub u d a b la lb s
  | .dmul u d a b la lb => Sys2Proof.Machine.execDmul u d a b la lb s
  | .dfma u d a b la lb => Sys2Proof.Machine.execDfma u d a b la lb s
  | .ddiv u d a b la lb => Sys2Proof.Machine.execDdiv u d a b la lb s
  | .dsqrt u d a la => Sys2Proof.Machine.execDsqrt u d a la s
  | .dmin u d a b la lb => Sys2Proof.Machine.execDmin u d a b la lb s
  | .dmax u d a b la lb => Sys2Proof.Machine.execDmax u d a b la lb s
  | .hadd2 u d a b la lb => Sys2Proof.Machine.execHadd2 u d a b la lb s
  | .hmul2 u d a b la lb => Sys2Proof.Machine.execHmul2 u d a b la lb s
  | .hfma2 u d a b la lb => Sys2Proof.Machine.execHfma2 u d a b la lb s
  | .bfma2 u d a b la lb => Sys2Proof.Machine.execBfma2 u d a b la lb s
  | .cvt u d a code la => Sys2Proof.Machine.execCvt u d a code la s
  | .digits d a ty la => Sys2Proof.Machine.execDigits d a ty la s
  | .sib d a ty k la => Sys2Proof.Machine.execSib d a ty k la s
  | .mean d a ty la => Sys2Proof.Machine.execMean d a ty la s
  | .chkd a ty c la => Sys2Proof.Machine.execChkd a ty c la s
  | .solo => Sys2Proof.Machine.execSolo s
  | .trio => Sys2Proof.Machine.execTrio s
  | .qbx fmt had d a b => Sys2Proof.Machine.execQbx fmt had d a b s
  | .dqbx fmt d a b => Sys2Proof.Machine.execDqbx fmt d a b s
  | .shflIdx d a b la lb => Sys2Proof.Machine.execShflIdx d a b la lb s
  | .shflUp d a b la lb => Sys2Proof.Machine.execShflUp d a b la lb s
  | .shflDn d a b la lb => Sys2Proof.Machine.execShflDn d a b la lb s
  | .shflXor d a b la lb => Sys2Proof.Machine.execShflXor d a b la lb s
  | .voteAny d a => Sys2Proof.Machine.execVoteAny d a s
  | .voteAll d a => Sys2Proof.Machine.execVoteAll d a s
  | .voteBallot d a => Sys2Proof.Machine.execVoteBallot d a s
  | .voteCount d a => Sys2Proof.Machine.execVoteCount d a s
  | .xadd d a la => Sys2Proof.Machine.execXadd d a la s
  | .xmin d a la => Sys2Proof.Machine.execXmin d a la s
  | .xmax d a la => Sys2Proof.Machine.execXmax d a la s
  | .xscan d a la => Sys2Proof.Machine.execXscan d a la s
  | .bra p sense off => Sys2Proof.Machine.execBra p sense off s
  | .call p sense off => Sys2Proof.Machine.execCall p sense off s
  | .brx a => Sys2Proof.Machine.execBrx a s
  | .ret => Sys2Proof.Machine.execRet s
  | .exit => Sys2Proof.Machine.execExit s
  | .yield => Sys2Proof.Machine.execYield s
  | .nap n => Sys2Proof.Machine.execNap n s
  | .win n => Sys2Proof.Machine.execWin n s
  | .ld u d base size order off => Sys2Proof.Machine.execLd u d base size order off s
  | .st u d base size order off => Sys2Proof.Machine.execSt u d base size order off s
  | .lds u d base size off => Sys2Proof.Machine.execLds u d base size off s
  | .sts u d base size off => Sys2Proof.Machine.execSts u d base size off s
  | .ldc u d base size off => Sys2Proof.Machine.execLdc u d base size off s
  | .atom aop use d a off => Sys2Proof.Machine.execAtom aop use d a off s
  | .atoms aop use d a off => Sys2Proof.Machine.execAtoms aop use d a off s
  | .post aop use d a off => Sys2Proof.Machine.execPost aop use d a off s
  | .phase scope => Sys2Proof.Machine.execPhase scope s
  | .bar => Sys2Proof.Machine.execBar s
  | .arrive a => Sys2Proof.Machine.execArrive a s
  | .await a b => Sys2Proof.Machine.execAwait a b s
  | .waitge scope a b => Sys2Proof.Machine.execWaitge scope a b s
  | .copyG2s d a b => Sys2Proof.Machine.execCopyG2s d a b s
  | .copyS2g d a b => Sys2Proof.Machine.execCopyS2g d a b s
  | .copyG2v d a b => Sys2Proof.Machine.execCopyG2v d a b s
  | .copyS2s d a b => Sys2Proof.Machine.execCopyS2s d a b s
  | .gath d a b => Sys2Proof.Machine.execGath d a b s
  | .mma src form d a scale q => Sys2Proof.Machine.execMma src form d a scale q s
  | .mmag src form d a scale q => Sys2Proof.Machine.execMmag src form d a scale q s
  | .mzero => Sys2Proof.Machine.execMzero s
  | .mld a => Sys2Proof.Machine.execMld a s
  | .mst a => Sys2Proof.Machine.execMst a s
  | .mfree => Sys2Proof.Machine.execMfree s
  | .spawn a q => Sys2Proof.Machine.execSpawn a q s
  | .tjoin a => Sys2Proof.Machine.execTjoin a s
  | .tend => Sys2Proof.Machine.execTend s
  | .cfire => Sys2Proof.Machine.execCfire s
  | .cfireIdx a => Sys2Proof.Machine.execCfireIdx a s
  | .mcall mac p0 p1 p2 => Sys2Proof.Machine.execMcall mac p0 p1 p2 s
  | .srd d num => Sys2Proof.Machine.execSrd d num s
  | .swr d num => Sys2Proof.Machine.execSwr d num s
  | .trap n => Sys2Proof.Machine.execTrap n s
  | .bkpt n => Sys2Proof.Machine.execBkpt n s
  | .trc a kind => Sys2Proof.Machine.execTrc a kind s
  | .time d => Sys2Proof.Machine.execTime d s
  | .preq d => Sys2Proof.Machine.execPreq d s
  | .pyield => Sys2Proof.Machine.execPyield s
  | .ipf a => Sys2Proof.Machine.execIpf a s
  | .clauseStart => Sys2Proof.Machine.execClauseStart s
  | .fairnessTimerExpiry => Sys2Proof.Machine.execFairnessTimerExpiry s
  | .loadComplete flight entry => Sys2Proof.Machine.execLoadComplete flight entry s
  | .atomicPerform flight entry => Sys2Proof.Machine.execAtomicPerform flight entry s
  | .atomReturn flight entry => Sys2Proof.Machine.execAtomReturn flight entry s
  | .leaseRecall cluster line => Sys2Proof.Machine.execLeaseRecall cluster line s
  | .engineChunk flight entry => Sys2Proof.Machine.execEngineChunk flight entry s
  | .matrixUnitOperation core quarter => Sys2Proof.Machine.execMatrixUnitOperation core quarter s
  | .napEnd flight => Sys2Proof.Machine.execNapEnd flight s
  | .flightOverdue flight => Sys2Proof.Machine.execFlightOverdue flight s
  | .throttleWindowEnd core quarter => Sys2Proof.Machine.execThrottleWindowEnd core quarter s
  | .icacheFill flight => Sys2Proof.Machine.execIcacheFill flight s
  | .instabilityDelivery flight => Sys2Proof.Machine.execInstabilityDelivery flight s
  | .flightRetirement flight => Sys2Proof.Machine.execFlightRetirement flight s
  | .doorbell q origin nbytes tail key => Sys2Proof.Machine.execDoorbell q origin nbytes tail key s
  | .launchRecord q => Sys2Proof.Machine.execLaunchRecord q s
  | .barrierRecord q => Sys2Proof.Machine.execBarrierRecord q s
  | .signalRecord q => Sys2Proof.Machine.execSignalRecord q s
  | .wingPlacement gallery => Sys2Proof.Machine.execWingPlacement gallery s
  | .hallStart gallery hall => Sys2Proof.Machine.execHallStart gallery hall s
  | .bulkGalleryAgeing gallery => Sys2Proof.Machine.execBulkGalleryAgeing gallery s
  | .taskPop context core quarter => Sys2Proof.Machine.execTaskPop context core quarter s
  | .galleryCompletion gallery => Sys2Proof.Machine.execGalleryCompletion gallery s
  | .preemptionRequest context => Sys2Proof.Machine.execPreemptionRequest context s
  | .preemptionWithdrawal context => Sys2Proof.Machine.execPreemptionWithdrawal context s
  | .forcedSave context => Sys2Proof.Machine.execForcedSave context s
  | .lightSave flight => Sys2Proof.Machine.execLightSave flight s
  | .contextSavedReport context => Sys2Proof.Machine.execContextSavedReport context s
  | .contextResume context core => Sys2Proof.Machine.execContextResume context core s
  | .tEntryResend flight entry => Sys2Proof.Machine.execTEntryResend flight entry s
  | .flightResume flight how => Sys2Proof.Machine.execFlightResume flight how s
  | .contextEnd context => Sys2Proof.Machine.execContextEnd context s
  | .translationKeyResolved die key => Sys2Proof.Machine.execTranslationKeyResolved die key s
  | .translationKeyDeclined die key => Sys2Proof.Machine.execTranslationKeyDeclined die key s
  | .bindingSlotResolve gallery slot value => Sys2Proof.Machine.execBindingSlotResolve gallery slot value s
  | .bindingSlotDecline gallery slot => Sys2Proof.Machine.execBindingSlotDecline gallery slot s
  | .invalidation context base len => Sys2Proof.Machine.execInvalidation context base len s
  | .invalidationEffect ident => Sys2Proof.Machine.execInvalidationEffect ident s
  | .uncorrectableError target => Sys2Proof.Machine.execUncorrectableError target s
  | .correctableError die cls core => Sys2Proof.Machine.execCorrectableError die cls core s
  | .collectiveSegment die => Sys2Proof.Machine.execCollectiveSegment die s
  | .collectiveAgeing ident => Sys2Proof.Machine.execCollectiveAgeing ident s
  | .collectiveTrafficArrival peers number rank chunk segment digest data => Sys2Proof.Machine.execCollectiveTrafficArrival peers number rank chunk segment digest data s
  | .collectiveRefusalAnnouncement peers failure => Sys2Proof.Machine.execCollectiveRefusalAnnouncement peers failure s
  | .memberLost member => Sys2Proof.Machine.execMemberLost member s
  | .linkTrained port => Sys2Proof.Machine.execLinkTrained port s
  | .bringupFrame port linkmin linkmax peer peerPort => Sys2Proof.Machine.execBringupFrame port linkmin linkmax peer peerPort s
  | .linkFailure port => Sys2Proof.Machine.execLinkFailure port s
  | .rdmaWrite qp va data => Sys2Proof.Machine.execRdmaWrite qp va data s
  | .rdmaRead qp va len => Sys2Proof.Machine.execRdmaRead qp va len s
  | .send qp request => Sys2Proof.Machine.execSend qp request s
  | .powerOn => Sys2Proof.Machine.execPowerOn s
  | .clockChange target mhz => Sys2Proof.Machine.execClockChange target mhz s
  | .moduleNumberWrite n => Sys2Proof.Machine.execModuleNumberWrite n s
  | .firmwareHandshake version => Sys2Proof.Machine.execFirmwareHandshake version s
  | .measurementExtend ver reg digest => Sys2Proof.Machine.execMeasurementExtend ver reg digest s
  | .attestationReport ver nonce => Sys2Proof.Machine.execAttestationReport ver nonce s
  | .traceBlockLoad ver die addr => Sys2Proof.Machine.execTraceBlockLoad ver die addr s
  | .traceStatusRead ver die => Sys2Proof.Machine.execTraceStatusRead ver die s
  | .sieveCountersRead ver die clear => Sys2Proof.Machine.execSieveCountersRead ver die clear s
  | .sessionArm ver addr => Sys2Proof.Machine.execSessionArm ver addr s
  | .sessionCancel ver addr => Sys2Proof.Machine.execSessionCancel ver addr s
  | .sessionPassStart => Sys2Proof.Machine.execSessionPassStart s
  | .sessionPassEnd => Sys2Proof.Machine.execSessionPassEnd s
  | .freeze ver context flight => Sys2Proof.Machine.execFreeze ver context flight s
  | .unfreeze ver context flight => Sys2Proof.Machine.execUnfreeze ver context flight s
  | .debugRead ver flight item thread sibs => Sys2Proof.Machine.execDebugRead ver flight item thread sibs s
  | .debugWrite ver flight item thread sibs value => Sys2Proof.Machine.execDebugWrite ver flight item thread sibs value s
  | .breakpointSet ver context index addr hall => Sys2Proof.Machine.execBreakpointSet ver context index addr hall s
  | .counterProgram ver core sys setup => Sys2Proof.Machine.execCounterProgram ver core sys setup s
  | .monitorProgram ver core index setup => Sys2Proof.Machine.execMonitorProgram ver core index setup s
  | .stallHistogramRead ver core => Sys2Proof.Machine.execStallHistogramRead ver core s
  | .monitorSample core => Sys2Proof.Machine.execMonitorSample core s
  | .sieveRun die => Sys2Proof.Machine.execSieveRun die s
  | .waitgePollReturn flight poll => Sys2Proof.Machine.execWaitgePollReturn flight poll s
  | .storeAcknowledgement flight entry => Sys2Proof.Machine.execStoreAcknowledgement flight entry s
  | .yieldPeriodEnd flight => Sys2Proof.Machine.execYieldPeriodEnd flight s
  | .fabricWriteArrival pa data => Sys2Proof.Machine.execFabricWriteArrival pa data s
  | .fabricWriteAcknowledgement ident => Sys2Proof.Machine.execFabricWriteAcknowledgement ident s
  | .controlCoreWrite pa access => Sys2Proof.Machine.execControlCoreWrite pa access s
  | .pcieHostWrite window va access => Sys2Proof.Machine.execPcieHostWrite window va access s
  | .arithmeticClockCycle => Sys2Proof.Machine.execArithmeticClockCycle s

end Sys2Proof.Machine
end

