-- ==== Sys2Proof/Machine/Agenda.lean ====
section
/-! DEFINITION. Which agent of the module moves next (log 2): the head of the agenda, or, with an empty agenda, the module's own
next step; and the flight that `State.withFetchWord` puts a word before. -/

namespace Sys2Proof.Machine

/-! ## The issue of an operation (R13, R190, R264) -/

/-- A flight issues the next operation of its clause. A word that is no operation raises the illegal-encoding trap (R12); the start
of a clause lets none through. -/
def issueOp (u : Nat) (f : Flight) (c : ClauseRun) (s : State) : Res :=
  match decodeWord c.word with
  | .ok i => exec i { s with cur := some u }
  | .error _ => .next ({ s with cur := some u }.takeTrap u f c [] ⟨.illegal, 0, 0, 0, c.group⟩)

/-- What a flight's issue leaves beside its effect: its quarter has chosen it in this cycle, its wait is over and it is overdue no more
(R264, R334), and its next clause can start when the datapath is free of it (R335). An attempt that only left it held, or its fetch
slipped, was no issue. -/
def State.issued (s : State) (u : Nat) (f : Flight) : State :=
  match mget s.flights u with
  | some g =>
    if unheld g && !g.slip then (s.choose u f).setFlight u { g with waiting := 0, overdue := false, opEnd := (s.quarter f.core f.quarter).freeAt }
    else s
  | none => s.choose u f

/-- The outcome of an issue of a flight, `n` being the count of steps that did not happen before it. -/
def noteIssue (u : Nat) (f : Flight) (n : Nat) (r : Res) : Res :=
  match r with
  | .next t => if t.undone == n then .next (t.issued u f) else .next t
  | x => x

/-- A chosen flight takes its issue opportunity: it delivers its records (R204), starts its next clause or issues the next operation
of the one in progress (R264). -/
def issueNext (u : Nat) (s : State) : Res :=
  match mget s.flights u with
  | none => .next s.idle
  | some f =>
    if !(s.chosen u f) then .next s.idle
    else noteIssue u f s.undone
      (if deliverable f then exec (.instabilityDelivery u) s
      else
        match f.clause with
        | none => exec .clauseStart { s with cur := some u }
        | some c => issueOp u f c s)

/-- The flight for which a step that an agenda names is an issue. -/
def issuerOf (s : State) : Instr → Option Nat
  | .clauseStart => s.cur
  | .instabilityDelivery u => some u
  | _ => none

/-- A step that an agenda names: a clause start and a delivery are issues of their flight. -/
def eventStep (i : Instr) (s : State) : Res :=
  match issuerOf s i with
  | none => exec i s
  | some u =>
    match mget s.flights u with
    | none => exec i s
    | some f => noteIssue u f s.undone (exec i s)

/-- A flight without what a failed attempt to issue leaves in it. -/
def bare (f : Flight) : Flight := { f with stall := none, slip := false, waitFrom := 0, waitHeld := 0 }

/-- Whether a flight's next operation is held, by trying it (R190): an attempt that only leaves the flight held, or its fetch
slipped, stands; any other is not made yet, and the flight is eligible. The attempt takes no cycle. -/
def lookAt (u : Nat) (f : Flight) (s : State) : State :=
  let free := s.setFlight u { f.endWait (s.cycAt f.core) with stall := some .clear }
  if deliverable f then free
  else
    let tried : Res := match f.clause with
      | none => .next (startNext s u f)
      | some c => issueOp u f c s
    match tried with
    | .next t =>
      (match mget t.flights u with
       | some g => if (g.slip || !(unheld g)) && bare g == bare f then t else free
       | none => free)
    | _ => free

/-! ## The module's own next step -/

/-- Steps that a flight's outstanding work may take. -/
def entrySteps (u : Nat) (e : Entry) : List Instr :=
  [.loadComplete u e.id, .atomicPerform u e.id, .atomReturn u e.id, .engineChunk u e.id, .tEntryResend u e.id,
   .storeAcknowledgement u e.id]

/-- Steps that a flight may take besides issuing. -/
def flightSteps (p : Nat × Flight) : List Instr :=
  (p.2.entries.map (entrySteps p.1)).flatten ++ p.2.pollsOut.map (fun q => Instr.waitgePollReturn p.1 q.1)
    ++ [.matrixUnitOperation p.2.core p.2.quarter, .napEnd p.1, .yieldPeriodEnd p.1, .icacheFill p.1, .instabilityDelivery p.1,
        .lightSave p.1, .flightRetirement p.1, .flightOverdue p.1, .throttleWindowEnd p.2.core p.2.quarter]

/-- Steps that a saved context may take. -/
def contextSteps (p : Nat × Context) : List Instr :=
  (match p.2.saved with
   | some v => (v.flights.map (fun q => q.2.entries.map (fun e => Instr.storeAcknowledgement q.1 e.id))).flatten
   | none => [])
    ++ [.forcedSave p.1, .contextSavedReport p.1]

/-- Steps that a gallery may take. -/
def gallerySteps (p : Nat × Gallery) : List Instr :=
  p.2.halls.map (fun h => Instr.hallStart p.1 h.1) ++ [.wingPlacement p.1, .bulkGalleryAgeing p.1, .galleryCompletion p.1]

/-- Task pops that a die's queues may give. -/
def popSteps (p : Nat × Die) : List Instr :=
  ((p.2.taskqs.filter (fun t => !t.2.recs.isEmpty)).map (fun t =>
    ((List.range 384).map (fun i => Instr.taskPop (t.1 / 8) (96 * p.1 + i / 4) (i % 4))))).flatten

/-- The steps that the module may take by itself, in the order in which they are tried. -/
def ownSteps (s : State) : List Instr :=
  (s.flights.map flightSteps).flatten ++ (s.contexts.map contextSteps).flatten
    ++ (s.clusters.map (fun p => p.2.leases.map (fun l => Instr.leaseRecall p.1 l.line))).flatten
    ++ s.invals.map (fun p => Instr.invalidationEffect p.1)
    ++ (s.queues.map (fun p => [Instr.launchRecord p.1, .barrierRecord p.1, .signalRecord p.1])).flatten
    ++ [.sessionPassStart, .sessionPassEnd] ++ (s.galleries.map gallerySteps).flatten ++ (s.dies.map popSteps).flatten
    ++ s.colls.map (fun p => Instr.collectiveAgeing p.1)
    ++ (List.range 4).map Instr.collectiveSegment ++ (List.range 4).map Instr.sieveRun
    ++ s.cores.map (fun p => Instr.monitorSample p.1)

/-- The first of some steps that the state lets happen: one that it does not let happen only counts. -/
def firstStep (s : State) : List Instr → Option Res
  | [] => none
  | i :: is =>
    match exec i s with
    | .next t => if t.undone == s.undone then some (.next t) else firstStep s is
    | _ => firstStep s is

/-- What precedes a cycle of the clock: a look at a flight whose eligibility is not known (R190), and a sample of a core's monitors that
is due (R335). -/
def beforeCycle (s : State) : Option Res :=
  match s.flights.find? (fun p => s.ready p.2 && p.2.stall.isNone) with
  | some (u, f) => some (.next (lookAt u f s))
  | none => (s.cores.find? (fun p => s.sampleDue p.1)).map (fun p => exec (.monitorSample p.1) s)

/-- The step of a module left to itself: a fairness turn that is due, a look at a flight whose eligibility is not known, an
operation of a flight that its quarter chooses, a step of some unit, and otherwise a cycle of the clock. -/
def ownStep (s : State) : Res :=
  match s.flights.find? (fun p => p.2.fairDue.isSome) with
  | some (u, _) => exec .fairnessTimerExpiry { s with cur := some u }
  | none =>
    match s.flights.find? (fun p => s.ready p.2 && p.2.stall.isNone) with
    | some (u, f) => .next (lookAt u f s)
    | none =>
      match s.flights.find? (fun p => s.chosen p.1 p.2) with
      | some (u, _) => issueNext u s
      | none => (firstStep s (ownSteps s)).getD (exec .arithmeticClockCycle s)

/-- The next step: what the agenda asks, or the module's own. A word of an operation is issued by its flight and never asked for
as an event, and a step acts on units that the module has. A cycle that the agenda asks for waits for what precedes it. -/
def nextStep (s : State) : Res :=
  match s.agenda with
  | .event .arithmeticClockCycle :: rest => (beforeCycle s).getD (exec .arithmeticClockCycle { s with agenda := rest })
  | .event i :: rest => if i.isStep && i.wf then eventStep i { s with agenda := rest } else .next { s with agenda := rest }.idle
  | .issue u :: rest => issueNext u { s with agenda := rest }
  | [] => ownStep s

/-! ## Placing a word before a flight -/

/-- A clause of one operation word, begun by thread 0. -/
def oneWord (w : Nat) : ClauseRun :=
  { addr := 0x1000, hdr := ⟨0, 0, 0, 15, 15, false, false⟩, words := [w], next := 1, group := [0], active := [0], entry := []
    moved := [], above := false, backward := false, yielded := false, body := none, began := 0, vacant := false
    handler := false }

/-- The descriptor of the flight that a word is placed before. -/
def wordDesc : Desc :=
  { level := 4, narrow := false, lane := false, promise := true, typical := 32, peak := 32, window := 0, entry := 0x1000
    handler := 0, macros := 0, bindings := 0, store := 65536, args := 1024, consts := 0, constsize := 0 }

/-- The launch record of its gallery: one hall of one thread. -/
def wordLaunch : LaunchRec :=
  { version := 2, flags := 0, cls := 0, tag := 0, gx := 1, gy := 1, gz := 1, storeys := 1, tx := 1, ty := 1, tz := 1
    wx := 1, wy := 1, wz := 1, pdead := 0, desc := 0, args := 0, seed := 0, scopes := 0, coll := List.replicate 64 0#8 }

/-- Its gallery. -/
def wordGallery (s : State) (u : Nat) : Gallery :=
  { context := 0, queue := 0, seq := 0, launch := wordLaunch, desc := wordDesc, accepted := s.stamp, acceptTime := s.time
    argPages := [(0, 0)], constPages := [], scopes := [], nslot := 0, halls := [(0, ⟨0, some u, true, false, [u]⟩)]
    nextWing := 1, firstPlaced := true, lastCluster := some 0, aged := false, coll := none, fired := [], ended := none
    completed := false, session := false, pins := [], pubs := none, ran := [0], cfired := [] }

/-- The flight: one thread, in quarter 0 of core 0, with the word next in its clause. -/
def wordFlight (s : State) (u w : Nat) : Flight :=
  { Flight.fresh u (wordGallery s u) 0 0 0 0 0 0 (some u) with
    threads := [(0, Thread.start 0 0 0x1000)], clause := some (oneWord w), started := true, overdue := true }

/-- The state with a word before a flight whose quarter is free, and its issue next on the agenda. -/
def placeWord (s : State) (w : Nat) : State :=
  let u := s.nextId
  let s := s.setQuarter 0 0 { s.quarter 0 0 with freeAt := 0 }
  { s with
    agenda := [.issue u]
    nextId := u + 1
    galleries := mset s.galleries u (wordGallery s u)
    windows := mset s.windows u ⟨u, 0, 0, 65536, [], [], false⟩
    flights := mset s.flights u (wordFlight s u w) }

end Sys2Proof.Machine
end

