-- ==== Sys2Proof/Machine/Step.lean ====
section
/-! DEFINITION. One step of the module, and the state with an instruction where the next step fetches it. -/

namespace Sys2Proof.Machine

/-- One step of the module (log 2). -/
def step (s : State) : Host.Outcome State Fault Refusal := nextStep s

/-- The state with an instruction word next before a flight that issues it in the very next step; it stands for the placing of a
gallery by the queues, the scheduler and the firmware (log 16). -/
def State.withFetchWord (s : State) (nbits w : Nat) : State := placeWord s (w % 2 ^ nbits)

end Sys2Proof.Machine
end

