-- ==== Sys2Proof/Safety.lean ====
section
/-! DEFINITION. The terms in which claims are stated: when an operation of a clause executes (spec/03_isa_integer.md R77,
spec/08_execution.md R194 to R198), what it leaves alone, and the invariant of the module's memory. -/

namespace Sys2Proof.Machine

/-! ## When an operation executes -/

/-- Flight u, in state f, executes the next operation of its clause c (R12, R13, R190). -/
structure Issuing (s : State) (u : Nat) (f : Flight) (c : ClauseRun) : Prop where
  cur : s.cur = some u
  flight : mget s.flights u = some f
  clause : f.clause = some c

/-- The footprint that an operation takes its flight to (R194). -/
def footprintAfter (f : Flight) (c : ClauseRun) (r : OpRegs) : Nat :=
  (released f c r).footprint + ((released f c r).unmapped r.dsts).length

/-- Nothing holds an operation back or traps it for its registers: no late fault waits on a register it reads (R306), its
registers are not awaited (R77), the footprint does not rise above the peak (R195), and the pool has the registers (R196). -/
structure Ready (s : State) (u : Nat) (f : Flight) (c : ClauseRun) (r : OpRegs) : Prop where
  late : ∀ l ∈ f.late, ∀ n ∈ l.dests, n ∉ r.srcs
  scoreboard : ∀ n ∈ r.srcs ++ r.dsts, n ∉ f.sb
  peak : footprintAfter f c r ≤ f.peak ∨ footprintAfter f c r ≤ f.footprint
  pool : s.canMap u f (footprintAfter f c r) = true

/-! ## What an operation leaves alone -/

/-- Quarter by quarter: nothing of a quarter differs but, in flight f's own, when its datapath is free again (R83). -/
def OnlyOccupied (s t : State) (f : Flight) : Prop :=
  ∀ k q, t.quarter k q =
    if k = f.core ∧ q = f.quarter then { s.quarter k q with freeAt := (t.quarter k q).freeAt } else s.quarter k q

/-- Only flights and cores differ; of a core, only its event counters and, in the quarter of the flight that issued, the datapath's
occupancy; of another flight, only that it no longer holds. -/
structure Quiet (s t : State) (u : Nat) : Prop where
  rest : t = { s with flights := t.flights, cores := t.cores }
  core : ∀ k, t.core k = { s.core k with cntV := (t.core k).cntV, quarters := (t.core k).quarters }
  quarter : ∀ f, mget s.flights u = some f → OnlyOccupied s t f
  others : ∀ w, w ≠ u → mget t.flights w = (mget s.flights w).map (fun g => { g with stall := none })

/-- Lanes of a kernel of a kind: the slots that can hold a thread (R4, R5). -/
def slots (f : Flight) : Nat := if f.lane then 96 else 32

/-- Registers that an operation with registers r leaves alone: every name it neither writes nor releases, and every register of
a live thread that is not active (R81, R194, R197). -/
structure RegsKept (f g : Flight) (c : ClauseRun) (r : OpRegs) : Prop where
  name : ∀ n, n ∉ r.dsts → (allActive f c = true → n ∉ r.rels) → mget g.regs n = mget f.regs n
  thread : ∀ i ∈ f.live, i ∉ c.act → i < slots f → ∀ n, ∀ k < 3, g.readReg n i k = f.readReg n i k

/-- A thread changed in where it goes on alone. -/
def Moved (t t' : Thread) : Prop := t' = { t with pc := t'.pc, fromOp := t'.fromOp, fromBody := t'.fromBody }

/-- A flight that differs from another in its registers, its threads and the progress of its clause alone, the end of a clause that
yielded among it (R120). -/
def Onward (f g : Flight) : Prop :=
  g = { f with regs := g.regs, threads := g.threads, clause := g.clause, body := g.body, turn := g.turn
               fairC := g.fairC, fairDue := g.fairDue, stall := g.stall, yieldEnd := g.yieldEnd }
  ∧ (f.clause.any (·.yielded) = false → g.clause.any (·.yielded) = false → g.yieldEnd = f.yieldEnd)

/-- Which sibling's result a register shows: a lane kernel has one (R5). -/
def shown (f : Flight) (k : Nat) : Nat := if f.lane then 0 else k

/-- The thread whose values an instruction computes with: with U = 1, the lowest active one for every active thread (R198). -/
def computes (u : Bool) (c : ClauseRun) (i : Nat) : Nat := if u then lowest c else i

/-- The operation completes, and this is all it does. The next state has flight g in place of f. The j-th destination holds
val j in every sibling of every active thread, the last reads are released where every live thread is active (R20), and no other
register changes. Each thread is as `thr` says but for where it goes on, the rest of the flight is as `own` says but for the
progress of its clause, `more` says where it goes on, and of the rest of the module only counts and holds differ. -/
def Does (i : Instr) (s : State) (u : Nat) (f : Flight) (c : ClauseRun) (r : OpRegs) (val : Nat → Nat → Tri Word)
    (thr : Nat → Thread) (own : Flight) (more : Flight → Prop := fun _ => True) : Prop :=
  ∃ t g, exec i s = .next t ∧ mget t.flights u = some g
    ∧ (∀ j n, r.dsts[j]? = some n → (∀ j', j < j' → r.dsts[j']? ≠ some n) →
        ∀ a ∈ c.act, ∀ k < 3, g.readReg n a k = (val j (computes r.u c a)).get (shown f k))
    ∧ (allActive f c = true → msorted f.regs = true → ∀ n ∈ r.rels, n ∉ r.dsts → mget g.regs n = none)
    ∧ RegsKept f g c r ∧ Onward own g ∧ (∀ a, (a ∈ c.act → a ∈ f.live) → Moved (thr a) (g.thread a)) ∧ more g ∧ Quiet s t u

/-- The operation completes and writes its destinations, and nothing else. -/
def WritesRegs (i : Instr) (s : State) (u : Nat) (f : Flight) (c : ClauseRun) (r : OpRegs) (val : Nat → Nat → Tri Word) :
    Prop := Does i s u f c r val f.thread f

/-! ## Tables of instructions of one shape, with what the spec says each computes -/

/-- Instructions of format T with U, d, a, b, LA and LB (R16). -/
abbrev FormT := Bool → BitVec 7 → BitVec 7 → BitVec 7 → Bool → Bool → Instr

/-- Instructions with U, d, a and LA. -/
abbrev FormU := Bool → BitVec 7 → BitVec 7 → Bool → Instr

/-- Sat32 (R84). -/
def clamp32 (x : Int) : Int := if x < -(2 ^ 31) then -(2 ^ 31) else if 2 ^ 31 - 1 < x then 2 ^ 31 - 1 else x

/-- The integer arithmetic of R84 that reads a and b. -/
def arithmetic : List (FormT × (Word → Word → Word)) :=
  [ (.iadd, fun a b => BitVec.ofNat 32 (a.toNat + b.toNat)),
    (.isub, fun a b => BitVec.ofInt 32 ((a.toNat : Int) - b.toNat)),
    (.imin, fun a b => if a.toInt ≤ b.toInt then a else b),
    (.imax, fun a b => if b.toInt ≤ a.toInt then a else b),
    (.imul, fun a b => BitVec.ofNat 32 (a.toNat * b.toNat)),
    (.imulh, fun a b => (BitVec.ofInt 64 (a.toInt * b.toInt)).extractLsb' 32 32),
    (.imulhu, fun a b => BitVec.ofNat 32 (a.toNat * b.toNat / 2 ^ 32)),
    (.iabsd, fun a b => BitVec.ofNat 32 (a.toInt - b.toInt).natAbs),
    (.iminu, fun a b => if a.toNat ≤ b.toNat then a else b) ]

/-- The integer arithmetic of R84 that reads d, a and b. -/
def accumulating : List (FormT × (Word → Word → Word → Word)) :=
  [ (.imad, fun d a b => BitVec.ofNat 32 (d.toNat + a.toNat * b.toNat)),
    (.iaddmin, fun d a b => BitVec.ofInt 32 (min d.toInt (clamp32 (a.toInt + b.toInt)))),
    (.iaddmax, fun d a b => BitVec.ofInt 32 (max d.toInt (clamp32 (a.toInt + b.toInt)))) ]

/-- The field of BFX (R86). -/
def fieldOf (a : Word) (pos len : Nat) (signed : Bool) : Int :=
  let x : Int := if signed then a.toInt else a.toNat
  let f := x / 2 ^ pos % 2 ^ len
  if signed && decide (2 ^ (len - 1) ≤ f) then f - 2 ^ len else f

/-- The logic, shifts and bit fields of R85 and R86 that read a and b. -/
def logic : List (FormT × (Word → Word → Word)) :=
  [ (.andR, fun a b => a &&& b),
    (.orR, fun a b => a ||| b),
    (.xorR, fun a b => a ^^^ b),
    (.andn, fun a b => a &&& ~~~b),
    (.shl, fun a b => BitVec.ofNat 32 (a.toNat * 2 ^ (b.toNat % 256))),
    (.shr, fun a b => BitVec.ofNat 32 (a.toNat / 2 ^ (b.toNat % 256))),
    (.sar, fun a b => BitVec.ofInt 32 (a.toInt / 2 ^ min (b.toNat % 256) 31)),
    (.rol, fun a b =>
      let n := b.toNat % 32
      BitVec.ofNat 32 (a.toNat * 2 ^ n) ||| BitVec.ofNat 32 (a.toNat / 2 ^ (32 - n))),
    (.bfx, fun a b =>
      BitVec.ofInt 32 (fieldOf a (b.toNat % 32) (b.toNat / 2 ^ 8 % 32 + 1) (b.getLsbD 16))) ]

/-- The instructions of R85 with one operand. -/
def counting : List (FormU × (Word → Word)) :=
  [ (.popc, fun a => BitVec.ofNat 32 ((List.range 32).filter (fun i => a.getLsbD i)).length),
    (.clz, fun a => BitVec.ofNat 32 ((List.range 32).takeWhile (fun i => !a.getMsbD i)).length),
    (.brev, fun a => BitVec.ofNat 32 ((List.range 32).map (fun i => if a.getLsbD (31 - i) then 2 ^ i else 0)).sum) ]

/-- BFI (R86). -/
def inserted (d a b : Word) : Word :=
  let pos := b.toNat % 32
  let m := BitVec.ofNat 32 ((2 ^ (b.toNat / 2 ^ 8 % 32 + 1) - 1) * 2 ^ pos)
  (d &&& ~~~m) ||| (BitVec.ofNat 32 (a.toNat * 2 ^ pos) &&& m)

/-- The immediate forms of R88 with a 10-bit immediate. -/
def immediates : List ((Bool → BitVec 7 → BitVec 7 → BitVec 10 → Bool → Instr) × (Word → Word → Word)) :=
  [ (.iaddi, fun a i => a + i), (.andi, fun a i => a &&& i), (.ori, fun a i => a ||| i), (.xori, fun a i => a ^^^ i) ]

/-- The immediate shifts of R88, with the register form that each acts as. -/
def immediateShifts : List ((Bool → BitVec 7 → BitVec 7 → BitVec 5 → Bool → Instr) × (Word → Nat → Word)) :=
  [ (.shli, fun a n => BitVec.ofNat 32 (a.toNat * 2 ^ n)),
    (.shri, fun a n => BitVec.ofNat 32 (a.toNat / 2 ^ n)),
    (.sari, fun a n => BitVec.ofInt 32 (a.toInt / 2 ^ n)),
    (.roli, fun a n => BitVec.ofNat 32 (a.toNat * 2 ^ n) ||| BitVec.ofNat 32 (a.toNat / 2 ^ (32 - n))) ]

/-- The value of a pair: the lower-numbered register is the low half (R6). -/
def pairVal (f : Flight) (x : Nat) (a : BitVec 7) (k : Nat) : Nat :=
  ((f.operand x (f.regName a.toNat)).get k).toNat + 2 ^ 32 * ((f.operand x (f.regName (a.toNat + 1))).get k).toNat

/-- The pair that a result modulo 2^64 fills. -/
def pairOut (v : Nat → Int) (j : Nat) : Tri Word :=
  Tri.of (fun k => (BitVec.ofInt 64 (v k)).extractLsb' (32 * j) 32)

/-- The majority of three values: the first unless the other two agree (R57). -/
def majorityOf {α : Type} [DecidableEq α] (t : Tri α) : α := if t.x1 = t.x2 then t.x1 else t.x0

/-- The predicates that PMOV takes from a register (R87). -/
def majorityBits (t : Tri Word) : BitVec 12 :=
  BitVec.ofNat 12 ((List.range 12).map (fun i => if majorityOf (t.map (fun v => v.getLsbD i)) then 2 ^ i else 0)).sum

/-- A thread with one predicate written. -/
def withPred (t : Thread) (p : BitVec 4) (v : Bool) : Thread :=
  { t with preds := if v then t.preds ||| 1#12 <<< p.toNat else t.preds &&& ~~~(1#12 <<< p.toNat) }

/-- The combining modes (R91). -/
def combined (m : CombMode) (old new : Bool) : Bool :=
  match m with
  | .set => new
  | .and => old && new
  | .or => old || new

/-- The conditions of ICMP: patterns, signed and unsigned values (R27, R91). -/
def compares (c : IntCond) (a b : Word) : Bool :=
  match c with
  | .eq => a = b
  | .ne => a ≠ b
  | .lt => a.toInt < b.toInt
  | .le => a.toInt ≤ b.toInt
  | .gt => a.toInt > b.toInt
  | .ge => a.toInt ≥ b.toInt
  | .lo => a.toNat < b.toNat
  | .ls => a.toNat ≤ b.toNat
  | .hi => a.toNat > b.toNat
  | .hs => a.toNat ≥ b.toNat

/-! ## Floating point -/

/-- The condition that a thread meets, if any, with what its record keeps (R60, R209). -/
abbrev Met := Option Meet

/-- The control registers once flags are raised and conditions counted, each counter saturating at 1,023 (R52, R61, R62). -/
def counted (k : Ctl) (fl : Flags) (ms : List Meet) : Ctl :=
  let up := fun (x : BitVec 10) (n : Cond) => BitVec.ofNat 10 (min 1023 (x.toNat + (ms.filter (fun m => m.cond == n)).length))
  { k with fexc := k.fexc ||| fl, ccnt := up k.ccnt .C, dcnt := up k.dcnt .D, zcnt := up k.zcnt .Z }

/-- A thread that meets a condition whose trap is enabled is masked off with its record, unless it runs a handler or is masked
already (R61, R203, R206). -/
def afterMet (k : Ctl) (c : ClauseRun) (t : Thread) (m : Met) : Thread :=
  match m with
  | some m => if k.enabled m.cond && !t.handler && t.st != .masked then t.mask (instRecord c m none) else t
  | none => t

/-- A floating-point instruction completes (R94, R95): `out` gives the words and flags that a thread's sibling computes, `draws`
how far the rounding counter advances, and `test` the condition that a thread of a triple kernel outside a solo stretch meets. -/
def Computes (i : Instr) (s : State) (w : Nat) (f : Flight) (c : ClauseRun) (r : OpRegs) (draws : Nat)
    (out : Nat → Nat → List Word × Flags) (test : Nat → Met) : Prop :=
  let src := computes r.u c
  let met := fun x => if f.single (src x) then none else test (src x)
  let flags := (c.act.map src).foldl (fun a x => a ||| ((out x 0).2 ||| (out x 1).2 ||| (out x 2).2)) 0
  Does i s w f c r (fun j x => Tri.of fun k => ((out x k).1[j]?).getD 0)
    (fun x => if x ∈ c.act then
        afterMet f.ctl c { f.thread x with rcount := (f.thread x).rcount + BitVec.ofNat 48 draws } (met x)
      else f.thread x)
    { f with ctl := counted f.ctl flags (c.act.filterMap met) }

/-- A test of the operands d, a and b and the results of a thread's siblings, under `ctl.canc` (R60). -/
abbrev FTest := Nat → Tri Nat → Tri Nat → Tri Nat → Tri Nat → Met

/-- Cancellation: everything is finite, and the operands' least digits exceed the result's by more than the limit (R60). -/
def cancelled (fmt : Fmt) (canc : Nat) (ops : List (Tri Nat)) (least : Nat) (res : Tri Nat) : Met :=
  let d := digits fmt res.x0 res.x1 res.x2
  if (res :: ops).all (fun t => t.toList.all (isFinite fmt)) && Nat.blt (d + canc) least then
    some ⟨.C, false, false, d + least * 256⟩ else none

/-- No condition. -/
def untested : FTest := fun _ _ _ _ _ => none
/-- C of a sum (R60). -/
def sumTest (fmt : Fmt) : FTest := fun canc _ a b res =>
  cancelled fmt canc [a, b] (min (digTri fmt a) (digTri fmt b)) res
/-- C of a fused form, whose operands are the product and d (R60). -/
def fusedTest (fmt : Fmt) : FTest := fun canc d a b res =>
  cancelled fmt canc [d, a, b] (min (min (digTri fmt a) (digTri fmt b)) (digTri fmt d)) res
/-- Z of a divisor (R60). -/
def zeroTest (fmt : Fmt) (x : Tri Nat) : Met := if digTri fmt x = 0 then some ⟨.Z, false, false, 0⟩ else none

/-- An instruction of two operands: whether it reads d, the values it draws for, what it computes and what it tests. -/
abbrev FloatRow := FormT × Bool × Nat × (Rnd → Nat → Nat → Nat → FRes) × FTest

/-- FP32 arithmetic (R98). -/
def floats32 : List FloatRow :=
  [ (.fadd, false, 1, fun r _ a b => fAdd fp32 r a b, sumTest fp32),
    (.fsub, false, 1, fun r _ a b => fSub fp32 r a b, sumTest fp32),
    (.fmul, false, 1, fun r _ a b => fMul fp32 r a b, untested),
    (.fmin, false, 0, fun _ _ a b => fMinMax fp32 false a b, untested),
    (.fmax, false, 0, fun _ _ a b => fMinMax fp32 true a b, untested),
    (.ffma, true, 1, fun r d a b => fFma fp32 r false a b d, fusedTest fp32),
    (.ffms, true, 1, fun r d a b => fFma fp32 r true a b d, fusedTest fp32),
    (.fdiv, false, 1, fun r _ a b => fDiv fp32 r a b, fun _ _ _ b _ => zeroTest fp32 b) ]

/-- FP64 arithmetic (R101). -/
def floats64 : List FloatRow :=
  [ (.dadd, false, 1, fun r _ a b => fAdd fp64 r a b, sumTest fp64),
    (.dsub, false, 1, fun r _ a b => fSub fp64 r a b, sumTest fp64),
    (.dmul, false, 1, fun r _ a b => fMul fp64 r a b, untested),
    (.dmin, false, 0, fun _ _ a b => fMinMax fp64 false a b, untested),
    (.dmax, false, 0, fun _ _ a b => fMinMax fp64 true a b, untested),
    (.dfma, true, 1, fun r d a b => fFma fp64 r false a b d, fusedTest fp64),
    (.ddiv, false, 1, fun r _ a b => fDiv fp64 r a b, fun _ _ _ b _ => zeroTest fp64 b) ]

/-- The function unit (R99, R100). -/
def functions : List (FormU × Nat × (Rnd → Nat → FRes) × (Tri Nat → Met)) :=
  [ (.fsqrt, 1, fun r a => fSqrt fp32 r a, fun _ => none),
    (.frcp, 1, fun r a => fRcp fp32 r a, zeroTest fp32),
    (.frsq, 1, fun r a => fRsq r a, zeroTest fp32),
    (.fexp2, 1, fun r a => fExp2 r a, fun _ => none),
    (.flog2, 1, fun r a => fLog2 r a, fun _ => none),
    (.fsin, 1, fun r a => fSinCos false r a, fun _ => none),
    (.fcos, 1, fun r a => fSinCos true r a, fun _ => none),
    (.fabs, 0, fun _ a => ⟨a % 2 ^ 31, 0⟩, fun _ => none),
    (.fneg, 0, fun _ a => ⟨(a + 2 ^ 31) % 2 ^ 32, 0⟩, fun _ => none),
    (.ffloor, 0, fun _ a => fToIntegral fp32 .down a, fun _ => none),
    (.fceil, 0, fun _ a => fToIntegral fp32 .up a, fun _ => none),
    (.ftrunc, 0, fun _ a => fToIntegral fp32 .zero a, fun _ => none),
    (.frint, 1, fun r a => fRint fp32 r a, fun _ => none) ]

/-- Packed 16-bit arithmetic (R102). -/
def packedOps : List (FormT × Bool × Fmt × (Rnd → Nat → Nat → Nat → FRes)) :=
  [ (.hadd2, false, fp16, fun r _ a b => fAdd fp16 r a b),
    (.hmul2, false, fp16, fun r _ a b => fMul fp16 r a b),
    (.hfma2, true, fp16, fun r d a b => fFma fp16 r false a b d),
    (.bfma2, true, bf16, fun r d a b => fFma bf16 r false a b d) ]

/-- The values of an operand of n registers in a thread's siblings. -/
def operandVals (f : Flight) (x : Nat) (a : BitVec 7) (n : Nat) : Tri Nat :=
  Tri.of fun k => if n = 2 then pairVal f x a k else ((f.opnd x a).get k).toNat

/-- The conditions of FCMP and DCMP: a NaN is unordered with everything, −0 equals +0 (R27, R103). -/
def fltTrue (c : FltCond) (o : FOrd) : Bool :=
  match c with
  | .eq => o = .eq
  | .ne => o ≠ .eq
  | .lt => o = .lt
  | .le => o = .lt ∨ o = .eq
  | .gt => o = .gt
  | .ge => o = .gt ∨ o = .eq
  | .ord => o ≠ .un
  | .uno => o = .un

/-- The orderings signal for any NaN, the other conditions for a signalling one (R104). -/
def fltFlags (fmt : Fmt) (c : FltCond) (a b : Nat) : Flags :=
  let loud := fun x => match c with
    | .lt | .le | .gt | .ge => isNaN fmt x
    | .eq | .ne | .ord | .uno => isSNaN fmt x
  if loud a || loud b then flNV else 0

/-- A floating compare completes: the majority outcome is combined into the predicate of each active thread, and a thread whose
siblings disagree meets D once its predicate is written (R61, R103, R104). -/
def ComparesFloats (i : Instr) (s : State) (w : Nat) (f : Flight) (c : ClauseRun) (fmt : Fmt) (n : Nat) (u : Bool)
    (mode : CombMode) (p : BitVec 4) (a b : BitVec 7) (cond : FltCond) : Prop :=
  let src := computes u c
  let v := fun x r k => (operandVals f x r n).get k
  let out := fun x => Tri.of fun k => fltTrue cond (fOrd fmt (v x a k) (v x b k))
  let met : Nat → Met := fun x =>
    let o := out (src x)
    if o.x0 = o.x1 ∧ o.x1 = o.x2 then none else some ⟨.D, false, false, 0⟩
  let flags := (c.act.map src).foldl (fun acc x => acc ||| (fltFlags fmt cond (v x a 0) (v x b 0)
    ||| fltFlags fmt cond (v x a 1) (v x b 1) ||| fltFlags fmt cond (v x a 2) (v x b 2))) 0
  Does i s w f c (regsS [(a, n), (b, n)] [] u 0 f) (fun _ _ => Tri.rep 0)
    (fun x => if x ∈ c.act then
        afterMet f.ctl c (withPred (f.thread x) p
          (combined mode ((f.thread x).preds.getLsbD p.toNat) (majorityOf (out (src x))))) (met x)
      else f.thread x)
    { f with ctl := counted f.ctl flags (c.act.filterMap met) }

/-- The three copies of a value as the registers hold them, a 16-bit type in bits [15:0] (R106). -/
def copiesOf (f : Flight) (x : Nat) (ty : SibType) (a : BitVec 7) (k : Nat) : Nat :=
  let r := fun n => (f.readReg (f.regName (a.toNat + n)) x k).toNat
  match ty with
  | .f32 => r 0
  | .f64 => r 0 + 2 ^ 32 * r 1
  | .f16 | .bf16 => r 0 % 2 ^ 16

/-- The block of QBX that an active thread belongs to, and the code and exponent pair that it takes from sibling k's block
(R112). -/
def quantized (f : Flight) (c : ClauseRun) (fmt : BxFmt) (had : Hadamard) (a : BitVec 7) (x k : Nat) : Nat × Nat :=
  match f.qbxBlocks.find? (fun sl => sl.contains x) with
  | none => (0, 0)
  | some sl =>
    let b := qbxOf f c.act fmt had a (if f.single x then 0 else k) sl
    ((b.codes[sl.findIdx (fun y => y == x)]?).getD 0, b.e0 + 256 * b.e1)

/-! ## Across the flight -/

/-- What a reader takes from source index `src` (R123): its own copy from outside the domain, 0 from an exited thread or an empty
slot, else the source's copy; a narrow half takes the index modulo 16. -/
def crossRead (f : Flight) (x name k : Nat) (src : Int) : Word :=
  let n : Int := if f.narrow then src % 16 else src
  if 0 ≤ n ∧ n < (f.domain x).length then
    match (f.domain x)[n.toNat]? with
    | some y => if (f.thread y).st = .exited then 0 else f.readReg name y k
    | none => 0
  else f.readReg name x k

/-- The shuffles, with the source index from the reader's index and its copy of b (R124). -/
def shuffles : List ((BitVec 7 → BitVec 7 → BitVec 7 → Bool → Bool → Instr) × (Nat → Nat → Int)) :=
  [ (.shflIdx, fun _ b => b), (.shflUp, fun i b => i - b), (.shflDn, fun i b => i + b),
    (.shflXor, fun i b => ((i ^^^ b : Nat) : Int)) ]

/-- The active threads of a reader's domain, ascending (R123). -/
def activeAround (f : Flight) (c : ClauseRun) (x : Nat) : List Nat := (f.domain x).filter (fun y => decide (y ∈ c.act))

/-- A predicate of a thread. -/
def predOf (f : Flight) (a : BitVec 4) (y : Nat) : Bool := (f.thread y).preds.getLsbD a.toNat

/-- The ballot of a reader's group of 32 (R125). -/
def ballotOf (f : Flight) (c : ClauseRun) (a : BitVec 4) (x : Nat) : Nat :=
  let first := f.domIdx x / 32 * 32
  ((List.range 32).map (fun j => match (f.domain x)[first + j]? with
    | some y => if y ∈ c.act ∧ predOf f a y then 2 ^ j else 0
    | none => 0)).sum

/-- The reductions of R126: whether only threads up to the reader count, and how the values combine. -/
def reductions : List ((BitVec 7 → BitVec 7 → Bool → Instr) × Bool × (List Word → Word)) :=
  [ (.xadd, false, fun vs => BitVec.ofNat 32 (vs.map (·.toNat)).sum),
    (.xmin, false, fun vs => BitVec.ofInt 32 ((vs.map (·.toInt)).min?.getD 0)),
    (.xmax, false, fun vs => BitVec.ofInt 32 ((vs.map (·.toInt)).max?.getD 0)),
    (.xscan, true, fun vs => BitVec.ofNat 32 (vs.map (·.toNat)).sum) ]

/-! ## Transfers -/

/-- A flight that differs from another only in its registers, its threads, the progress of its clause and its path
signature. -/
def OnwardSigned (f g : Flight) : Prop :=
  Onward { f with sig := g.sig, sigq := g.sigq } g

/-- The address of the code region that a flight's transfers stay in (R282). -/
def InRegion (s : State) (f : Flight) (a : BitVec 64) : Prop := s.inRegion f a.toNat = true

/-- The 64-bit target that a thread's siblings name with a pair, and whether they agree (R57, R118). -/
def targetFrom (f : Flight) (x name : Nat) : BitVec 64 × Bool :=
  let t := (f.operand x name).zip (fun lo hi => hi ++ lo) (f.operand x (name + 1))
  (majorityOf t, decide (t.x0 = t.x1 ∧ t.x1 = t.x2))

/-- Where a thread that leaves its handler goes on: its record's resume point (R207). -/
def Thread.resumesAt (t : Thread) : BitVec 64 × Nat × Option Nat :=
  match t.inst with
  | some r => (r.resumePc, r.resumeOp, r.resumeBody)
  | none => (t.token, 0, none)

/-! ## Memory operations -/

/-- The 64-bit address that a thread's siblings form by majority, and whether they agree (R57, R127). -/
def globalAt (f : Flight) (base : BitVec 7) (off : Nat) (x : Nat) : Nat × Bool :=
  let t := Tri.of fun k => (pairVal f x base k + off) % 2 ^ 64
  (majorityOf t, decide (t.x0 = t.x1 ∧ t.x1 = t.x2))

/-- The offset in the cluster store or in constant space that a thread's siblings form by majority, and whether they agree
(R57, R127). -/
def offsetAt (f : Flight) (base : BitVec 7) (off : Nat) (x : Nat) : Nat × Bool :=
  let t := Tri.of fun k => (((f.opnd x base).get k).toNat + off) % 2 ^ 32
  (majorityOf t, decide (t.x0 = t.x1 ∧ t.x1 = t.x2))

/-- The threads that access: with U = 1, the lowest active one (R133). -/
def accessing (u : Bool) (c : ClauseRun) : List Nat := if u then c.act.take 1 else c.act

/-- The accesses of an operation whose threads' addresses are given. -/
def accesses (u : Bool) (c : ClauseRun) (at' : Nat → Nat × Bool) : List AddrOf :=
  (accessing u c).map (fun x => ⟨x, (at' x).1, (at' x).2⟩)

/-- A thread whose address is split meets D; with U = 1, every active thread where the lowest one's is (R60, R127, R198). -/
def splits (u : Bool) (c : ClauseRun) (at' : Nat → Nat × Bool) (x : Nat) : Met :=
  if (at' (computes u c x)).2 then none else some ⟨.D, true, false, 0⟩

/-- A global address passes the checks of R127, for an access that reads, writes or both. -/
def Permitted (s : State) (f : Flight) (read write : Bool) (size va : Nat) : Prop :=
  (va / 2 ^ 56 = 0 ∨ va / 2 ^ 56 = 255) ∧ va % size = 0 ∧
    ∃ e, s.xlate f.core f.context (va % 2 ^ 57) = .ok e ∧ (e.pte.testBit 4 = true → (s.ctxt f.context).sys = true)
      ∧ (read = true → e.pte.testBit 1 = true) ∧ (write = true → e.pte.testBit 2 = true)

/-- Nothing holds a memory operation back: the permission count lets the flight on (R266), and fewer than 128 operations are in
flight (R282). -/
def Admitted (s : State) (w : Nat) (f : Flight) (c : ClauseRun) : Prop := s.throttled w f c = false ∧ f.entries.length < 128

/-- Entries that are as they were, but for which of their loaded values a later store of the flight has fixed (R285). -/
def Kept (xs ys : List Entry) : Prop :=
  ys.map (fun e => { e with fixed := [] }) = xs.map (fun e => { e with fixed := [] })

/-- Entries that are as they were, but for which of their loaded values a later store has fixed (R285) and when the matrix unit could
first fetch for them (R216). -/
def SameEntries (xs ys : List Entry) : Prop :=
  let forget := fun (e : Entry) => { e with
    fixed := [], pay := match e.pay with | .engine x => .engine { x with fetchAt := 0 } | p => p }
  ys.map forget = xs.map forget

/-- The banks can record n more receipts: no die's spill ring is full, and the ring, or every book of the die, has room for them all
(R284). -/
def RecordRoom (s : State) (n : Nat) : Prop :=
  ∀ d < 4, (s.die d).spill.length < ringCap d
    ∧ ((s.die d).spill.length + n ≤ ringCap d ∨ ∀ b < 128, (mgetD (s.die d).books b []).length + n ≤ 1024)

/-- The banks can record all that is outstanding: every request, and every write that has no place yet (R284). -/
def RingRoom (s : State) : Prop :=
  s.requests = [] ∨ RecordRoom s (s.requests.length + (s.cores.map (fun p => (p.2.pend.map (fun q => q.2.length)).sum)).sum)

/-- No agent's access makes another act first: no atomic of the module waits to be performed, or no engine holds a lease (R238). -/
def Calm (s : State) : Prop := s.requests = [] ∨ ∀ p ∈ s.clusters, p.2.leases = []

/-- A memory operation has issued (R76, R77, R244, R281): flight g differs from f in one entry more, which keeps what R281 asks
and will do `pay`, in its flag's count, in the scoreboard bits of the destinations, in the conditions met, and in where its
threads go on. No register has a new value. -/
structure Issued (s : State) (f g : Flight) (c : ClauseRun) (cls : EClass) (tag flag : Nat) (srcs dsts : List Nat)
    (as : List AddrOf) (met : Nat → Met) (pay : Payload) : Prop where
  entry : ∃ id old, Kept f.entries old ∧ g.entries = old ++ [
    { id := id, cls := cls, flag := flag, op := c.next, body := c.body.map (· + c.next), word := c.word, pc := c.addr, tag := tag
      mask := c.act, done := 0, opnds := srcs.map (fun n => (n, (mget f.regs n).getD (.lanes [])))
      addrs := as.foldl (fun m a => mset m a.slot a.addr) [], pay := pay, issued := s.cycAt f.core, acked := false
      parked := none, discards := [], replay := false, resent := false, sent := [], fixed := []
      core := f.core }]
  flags : ∀ k, g.flagCount k = if k = flag ∧ flag ≠ 15 then f.flagCount k + 1 else f.flagCount k
  scoreboard : g.sb = f.sb ++ dsts
  names : ∀ n, n ∉ dsts → mget g.regs n = mget f.regs n
  mapped : ∀ n ∈ dsts, (mget g.regs n).isSome = true
  values : ∀ n x k, g.readReg n x k = f.readReg n x k
  threads : ∀ a, (a ∈ c.act → a ∈ f.live) →
    Moved (if a ∈ c.act then afterMet f.ctl c (f.thread a) (met a) else f.thread a) (g.thread a)
  rest : Onward { f with
    entries := g.entries, flags := g.flags, sb := g.sb, ctl := counted f.ctl 0 (c.act.filterMap met), score := g.score
    sig := g.sig, sigq := g.sigq, pubWait := g.pubWait } g

/-- What else of the module an operation of a flight on memory may change: counts, TLBs and the lines of L1 of cores, the
pending writes of its own core, the TLBs and leases of clusters, what a bank notes of agents that reached it, the receipt tags of
contexts, a session's list of its operations, the table bits of R291 with their coherence order, and numbers that are given
out; of quarters, the occupancy of the flight's own datapath. Of another flight, only that it no longer holds. -/
structure Reached (s t : State) (w core : Nat) : Prop where
  rest : t = { s with flights := t.flights, cores := t.cores, clusters := t.clusters, dies := t.dies, contexts := t.contexts
                      sessions := t.sessions, nextId := t.nextId, stamp := t.stamp, mem := t.mem, co := t.co }
  core : ∀ k, t.core k = { s.core k with
    cntV := (t.core k).cntV, quarters := (t.core k).quarters, tlb := (t.core k).tlb, l1 := (t.core k).l1
    victims := (t.core k).victims, pend := if k = core then (t.core k).pend else (s.core k).pend }
  quarter : ∀ f, mget s.flights w = some f → OnlyOccupied s t f
  cluster : ∀ k, t.cluster k = { s.cluster k with tlb := (t.cluster k).tlb, leases := (t.cluster k).leases }
  die : ∀ k, t.die k = { s.die k with outside := (t.die k).outside }
  context : ∀ k, t.ctxt k = { s.ctxt k with rseq := (t.ctxt k).rseq, live := (t.ctxt k).live }
  session : (∀ q ∈ s.sessions, q.2.running = false) → t.sessions = s.sessions
  others : ∀ v, v ≠ w → mget t.flights v = (mget s.flights v).map (fun g => { g with stall := none })

/-- The bytes of physical memory differ at most in bits 2 and 3, the `a` and `d` bits of a table entry's second byte (R291). -/
def MarksOnly (s t : State) : Prop := ∀ a, memGet t.mem a &&& 0xF3#8 = memGet s.mem a &&& 0xF3#8

/-- The value that sibling k of a thread loads under the page's form (R70 to R73). -/
def loadedAt (s : State) (f : Flight) (x : Nat) (size : MemSize) (l : Located) (k : Nat) : Nat :=
  let bytes := fun frame => leNat (s.snapRead f.core (l.pa + frame * l.page) size.bytes)
  if l.form = 1 ∧ f.single x = false then bytes k
  else if l.form = 2 ∧ size.bytes = 4 ∨ l.form = 3 ∧ size.bytes = 8 then
    (uncoin (decide (l.form = 3)) (f.single x) (bytes 0)).get k
  else bytes 0

/-- A loaded value widened to register words (R128). -/
def widened (size : MemSize) (v : Nat) : List Word :=
  match size with
  | .b8 | .b16 | .b32 => [BitVec.ofNat 32 v]
  | .b64 => [BitVec.ofNat 32 v, BitVec.ofNat 32 (v / 2 ^ 32)]
  | .b128 => (List.range 4).map (fun i => BitVec.ofNat 32 (v / 2 ^ (32 * i)))
  | .s8 => [BitVec.ofInt 32 (BitVec.ofNat 8 v).toInt]
  | .s16 => [BitVec.ofInt 32 (BitVec.ofNat 16 v).toInt]

/-- The bytes that a thread's value of n bytes at an address writes, lowest first (R6). -/
def bytesAt (pa n v : Nat) : List (Nat × Byte) := (List.range n).map (fun i => (pa + i, BitVec.ofNat 8 (v / 2 ^ (8 * i))))

/-- The bytes that an ST writes, thread after thread (R70 to R73, R129). -/
def writesOf (s : State) (f : Flight) (d : BitVec 7) (size : MemSize) (as : List AddrOf) : List (Nat × Byte) :=
  as.flatMap fun a =>
    let l := s.locate f a.addr
    (storeFrames f a.slot d size l.form).flatMap fun p => bytesAt (l.pa + p.1 * l.page) size.bytes p.2

/-- The byte that remains of some writes: the last one's (R129). -/
def remaining (ws : List (Nat × Byte)) (a : Nat) : Option Byte := (ws.filter (fun p => p.1 == a)).getLast?.map (·.2)

/-- What one thread of a triple kernel stores of a value of n bytes on a plain page (R71). -/
def mergedOf (n : Nat) (v : Nat → Nat) : Nat :=
  if v 0 = v 1 ∨ v 0 = v 2 then v 0
  else if v 1 = v 2 then v 1
  else if n = 4 then (mean3 fp32 (v 0) (v 1) (v 2)).pat
  else if n = 8 then (mean3 fp64 (v 0) (v 1) (v 2)).pat
  else v 0

/-- The value part of a coined word: sibling 0's value in a lane kernel or a solo stretch, else the unrounded mean of the three, rounded
to 18 fraction bits, or with 64 bits to 46 (R73). -/
def coinedMean (wide one : Bool) (x0 x1 x2 : Nat) : Nat :=
  let fmt := if wide then fp64 else fp32
  let cut : Fmt := if wide then ⟨11, 46⟩ else ⟨8, 18⟩
  if one = true then (fConvert fmt cut (Rnd.all .near) x0).pat
  else
    match mean3Cases fmt x0 x1 x2 with
    | .pat p _ => (fConvert fmt cut (Rnd.all .near) p).pat
    | .val v z => (roundVal cut (Rnd.all .near) z v.exact).pat

/-- The three values of a coined word: m - δ, m and m + δ for the count d that it holds, δ being |m| × 2^-(d + 2); a zero without
digits gives the smallest normals, and a solo reader takes m alone (R73). -/
def uncoined (wide one : Bool) (w : Nat) : Tri Nat :=
  let fmt := if wide then fp64 else fp32
  let n := if wide then 6 else 5
  let m := w - w % 2 ^ n
  let d : Nat := min (w % 2 ^ n) (if wide then 47 else 19)
  let v := (unpack fmt m).dy
  let δ : Dy := ⟨(v.m.natAbs : Int), v.e - (d + 2 : Nat)⟩
  let near := fun (x : Dy) => (roundVal fmt (Rnd.all .near) false x.exact).pat
  if one = true ∨ isFinite fmt m = false then Tri.rep m
  else if isZero fmt m = true then (if d = 0 then ⟨fmt.signW + 2 ^ fmt.fbits, m, 2 ^ fmt.fbits⟩ else Tri.rep m)
  else ⟨near (v.sub δ), m, near (v.add δ)⟩

/-- The value of a thread's operand block in sibling k, cut to n bytes (R129). -/
def storedOf (f : Flight) (x : Nat) (d : BitVec 7) (size : MemSize) (k : Nat) : Nat :=
  ((List.range size.regs).map (fun i => ((f.operand x (f.regName (d.toNat + i))).get k).toNat * 2 ^ (32 * i))).sum
    % 2 ^ (8 * size.bytes)

/-- What a thread stores on a plain page or in the cluster store (R71, R131): a 128-bit value word by word. -/
def plainOf (f : Flight) (x : Nat) (d : BitVec 7) (size : MemSize) : Nat :=
  let v := storedOf f x d size
  if f.single x then v 0
  else if size.bytes = 16 then
    ((List.range 4).map (fun i => mergedOf 4 (fun k => v k / 2 ^ (32 * i) % 2 ^ 32) % 2 ^ 32 * 2 ^ (32 * i))).sum
  else mergedOf size.bytes v

/-- The operand block of an atomic: the majority of the siblings, or where no two agree Mean3 in FP32 for `aop` 13 to 15 and
sibling 0's block otherwise (R134). -/
def atomTakes (f : Flight) (x : Nat) (d : BitVec 7) (aop : AtomOp) : List Word :=
  let t := Tri.of fun k => (List.range aop.regs).map fun i => (f.operand x (f.regName (d.toNat + i))).get k
  if aop ∈ [.fadd32, .fmin32, .fmax32] ∧ t.x0 ≠ t.x1 ∧ t.x0 ≠ t.x2 ∧ t.x1 ≠ t.x2 then
    [BitVec.ofNat 32 (mean3 fp32 (wordsNat t.x0) (wordsNat t.x1) (wordsNat t.x2)).pat]
  else majorityOf t

/-- The requests of an atomic: one for each active thread, with its operands (R134, R135). -/
def requestsOf (f : Flight) (c : ClauseRun) (d : BitVec 7) (aop : AtomOp) (place : Nat → Nat) : List AtomReq :=
  c.act.map fun x =>
    let ws := atomTakes f x d aop
    let n := match aop with | .cas32 => 1 | .cas64 => 2 | _ => aop.regs
    ⟨x, place x, wordsNat (ws.take n), wordsNat (ws.drop n), false, 0, false⟩

/-- The physical addresses of n bytes of constant space (R45, R132, R225): the pages as they stood when the launch was
accepted. -/
def constantAt (g : Gallery) (off n : Nat) : List Nat :=
  (List.range n).map fun i =>
    if off < 0x10000 then
      mgetD g.argPages ((g.launch.args + off + i) % 2 ^ 57 / 4096) 0 + (g.launch.args + off + i) % 4096
    else
      mgetD g.constPages ((g.desc.consts + (off - 0x10000) + i) % 2 ^ 57 / 4096) 0 + (g.desc.consts + (off - 0x10000) + i) % 4096

/-! ## Special and control registers, and traps -/

/-- What sibling k of thread x reads of the special registers that describe its place (R171, R172, R300): number, value in a hall
of gallery g, and value in a task flight. -/
def placeRegisters (s : State) (f : Flight) (g : Gallery) (x : Nat) : List (Nat × Nat × Nat) :=
  let t := f.thread x
  let r := g.launch
  [ (0x00, if f.narrow then t.hidx % 16 else x, t.hidx),
    (0x01, t.hidx, t.hidx),
    (0x02, f.hall, 0xFFFFFFFF),
    (0x03, f.hall % r.gx, 0xFFFFFFFF),
    (0x04, f.hall / r.gx % r.gy, 0xFFFFFFFF),
    (0x05, f.hall / (r.gx * r.gy) % r.gz, 0xFFFFFFFF),
    (0x06, f.hall / (r.gx * r.gy * r.gz), 0),
    (0x07, wingOf r f.hall, match f.win.bind (mget s.windows) with
      | some z => if z.isTask then 0xFFFFFFFF else z.index
      | none => 0xFFFFFFFF),
    (0x08, r.gx, r.gx), (0x09, r.gy, r.gy), (0x0A, r.gz, r.gz),
    (0x0B, r.tx * r.ty * r.tz, f.threads.length),
    (0x0C, if f.narrow then 16 else if f.lane then 96 else 32, if f.narrow then 16 else if f.lane then 96 else 32),
    (0x0D, if f.narrow then t.hidx / 16 else f.index, 0) ]

/-- What sibling k of thread x reads of the other special registers and of the control registers (R62, R130, R171, R173, R209,
R301), by number. -/
def otherRegisters (s : State) (f : Flight) (g : Gallery) (c : ClauseRun) (x k : Nat) : List (Nat × Nat) :=
  let t := f.thread x
  let count := fun n => f.flagCount n % 64
  let of := fun (v : InstRec → Nat) => if t.handler then match t.inst with | some r => v r | none => 0 else 0
  let link := ((t.hlink[k]?).getD 0).toNat
  [ (0x0E, if f.single x then 0 else k),
    (0x0F, if t.solo then 1 else 0),
    (0x10, f.core), (0x11, f.core / 8), (0x12, f.core / 96), (0x13, s.boot.number.toNat),
    (0x14, t.rcount.toNat % 2 ^ 32), (0x15, t.rcount.toNat / 2 ^ 32),
    (0x16, c.addr.toNat % 2 ^ 32), (0x17, c.addr.toNat / 2 ^ 32),
    (0x18, if f.level == 3 then 0 else f.window),
    (0x19, count 0 + count 1 * 2 ^ 6 + count 2 * 2 ^ 12 + count 3 * 2 ^ 18 + count 4 * 2 ^ 24),
    (0x1A, count 5 + count 6 * 2 ^ 6 + count 7 * 2 ^ 12 + count 8 * 2 ^ 18 + count 9 * 2 ^ 24),
    (0x1B, count 10 + count 11 * 2 ^ 6),
    (0x1C, match f.task with | some k => k.1 | none => 0xFFFFFFFF),
    (0x1D, f.level), (0x1E, f.planes.getD 0xFFFFFFFF), (0x1F, 256 - s.sliceUse f.core),
    (0x20, of (·.icause)), (0x21, of (fun r => r.iclause.toNat % 2 ^ 32)), (0x22, of (fun r => r.iclause.toNat / 2 ^ 32)),
    (0x23, of (·.iop)), (0x24, of (fun r => r.iword.toNat)), (0x25, of (·.idig)),
    (0x26, of (fun _ => link % 2 ^ 32)), (0x27, of (fun _ => link / 2 ^ 32)), (0x28, of (fun _ => 1)),
    (0x100, f.ctl.round.toNat), (0x101, if f.ctl.rsrc then 1 else 0),
    (0x102, f.ctl.rpat.toNat % 2 ^ 32), (0x103, f.ctl.rpat.toNat / 2 ^ 32),
    (0x104, f.seed.toNat % 2 ^ 32), (0x105, f.seed.toNat / 2 ^ 32),
    (0x106, f.ctl.canc.toNat), (0x107, f.ctl.itrap.toNat),
    (0x108, f.ctl.ccnt.toNat + f.ctl.dcnt.toNat * 2 ^ 10 + f.ctl.zcnt.toNat * 2 ^ 20),
    (0x109, f.ctl.fexc.toNat), (0x10A, f.ctl.fair.toNat), (0x10B, if f.narrow || f.ctl.prog then 1 else 0),
    (0x10C, (s.ctxt f.context).pdead % 2 ^ 32),
    (0x10D, g.launch.scopes % 2 ^ 32), (0x10E, g.launch.scopes / 2 ^ 32), (0x10F, f.ctl.ordscope.toNat) ]

/-- The control registers once v is written (R62, R130, R173, R301): number and registers. Writes to read-only fields and reserved
bits are ignored, and ones clear `ctl.fexc`. -/
def writtenControl (narrow : Bool) (k : Ctl) (v : Word) : List (Nat × Ctl) :=
  let n := v.toNat
  [ (0x100, { k with round := BitVec.ofNat 2 n }), (0x101, { k with rsrc := v.getLsbD 0 }),
    (0x102, { k with rpat := BitVec.ofNat 64 (k.rpat.toNat / 2 ^ 32 * 2 ^ 32 + n) }),
    (0x103, { k with rpat := BitVec.ofNat 64 (k.rpat.toNat % 2 ^ 32 + n * 2 ^ 32) }),
    (0x104, k), (0x105, k),
    (0x106, { k with canc := BitVec.ofNat 6 n }), (0x107, { k with itrap := BitVec.ofNat 3 n }),
    (0x108, { k with ccnt := BitVec.ofNat 10 n, dcnt := BitVec.ofNat 10 (n / 2 ^ 10), zcnt := BitVec.ofNat 10 (n / 2 ^ 20) }),
    (0x109, { k with fexc := k.fexc &&& ~~~(BitVec.ofNat 5 n) }), (0x10A, { k with fair := BitVec.ofNat 16 n }),
    (0x10B, { k with prog := if narrow then k.prog || v.getLsbD 0 else v.getLsbD 0 }),
    (0x10C, k), (0x10D, k), (0x10E, k), (0x10F, { k with ordscope := BitVec.ofNat 5 n }) ]

/-- A field of a fault record: n bytes from offset o, lowest first (R287). -/
def faultField (r : List Byte) (o n : Nat) : Nat := leNat ((r.drop o).take n)

/-- A fault record tells of an operation outside macro bodies (R287): what failed, where, for which threads, and the values that
the operation's registers had for the lowest active one. -/
def Tells (r : List Byte) (f : Flight) (c : ClauseRun) (code cause addr elem : Nat) (srcs threads : List Nat) : Prop :=
  r.length = 64 ∧ faultField r 0 1 = code % 256 ∧ faultField r 1 1 = cause % 256 ∧ faultField r 2 1 = c.next % 256 ∧ faultField r 3 1 = 0
    ∧ faultField r 4 4 = c.word % 2 ^ 32 ∧ faultField r 8 8 = c.addr.toNat ∧ faultField r 16 8 = addr % 2 ^ 64
    ∧ faultField r 24 4 = elem % 2 ^ 32 ∧ faultField r 28 4 = (f.core + f.quarter * 2 ^ 9 + f.slot * 2 ^ 11) % 2 ^ 32
    ∧ (∀ j < 4, faultField r (32 + 4 * j) 4 = ((srcs[j]?).map (fun n => (f.readReg n (lowest c) 0).toNat)).getD 0)
    ∧ (∀ i < 96, (faultField r 48 12).testBit i = decide (i ∈ threads)) ∧ faultField r 60 4 = 0

/-- The operation traps (R127, R188, R286, R287): the flight is frozen and else as it was, the record goes to the context's fault
ring and to the control cores, and of the rest of the module only counts and the trace differ. -/
def Traps (i : Instr) (s : State) (w : Nat) (f : Flight) (c : ClauseRun) (code : TrapCode) (cause addr elem : Nat)
    (srcs threads : List Nat) : Prop :=
  ∃ t r, exec i s = .next t ∧ Tells r f c code.num cause addr elem srcs threads
    ∧ mget t.flights w = some { f with frozen := some ⟨code, c.next, r, none⟩, stall := none }
    ∧ (∀ v, v ≠ w → mget t.flights v = mget s.flights v)
    ∧ (∀ k, t.ctxt k = if k = f.context then { s.ctxt k with faults := (s.ctxt k).faults ++ [r] } else s.ctxt k)
    ∧ t = { s with flights := t.flights, contexts := t.contexts, cores := t.cores, dies := t.dies
                   outputs := .fault f.context r :: s.outputs }
    ∧ (∀ k, t.core k = { s.core k with cntV := (t.core k).cntV })
    ∧ (∀ d, t.die d = { s.die d with trace := (t.die d).trace })

/-- The first failing check of a global access, in the order of R127: its place in that order, the trap and the cause, and the key
of a translation that is not there. -/
def firstFailing (s : State) (f : Flight) (read write : Bool) (size va : Nat) : Option (Nat × TrapCode × Nat × Option MissKey) :=
  let top := va / 2 ^ 56
  let page := va % 2 ^ 57
  let key := MissKey.page f.context (page / 4096)
  if top ≠ 0 ∧ top ≠ 255 then some (0, .translation, 0, none)
  else if va % size ≠ 0 then some (1, .misaligned, 0, none)
  else
    match s.xlate f.core f.context page with
    | .missing => some (2, .translation, 0, some key)
    | .malformed => some (2, .translation, 1, some key)
    | .ok e =>
      if e.pte.testBit 4 ∧ (s.ctxt f.context).sys = false then some (3, .privilege, 0, none)
      else if (read ∧ e.pte.testBit 1 = false) ∨ (write ∧ e.pte.testBit 2 = false) then some (4, .permission, 0, none)
      else none

/-! ## Phases, waits and engines -/

/-- The core has performed Publish towards a set of cores (R230): none of its writes is pending, and every write up to a floor of
its snapshot is shown by it to each core of the set. -/
def Published (t : State) (core set : Nat) : Prop :=
  (∀ a, mget (t.core core).pend a = none) ∧
    ∀ p ∈ (t.core core).floors, ∀ x ∈ t.coOf p.1, x.stamp ≤ p.2 → ∀ k, set.testBit k = true →
      (mgetD x.seen core 0).testBit k = true

/-- The writes that a core has pending are listed byte by byte and have numbers that were given out. -/
abbrev OwnPending (s : State) (core : Nat) : Prop :=
  msorted (s.core core).pend = true ∧ ∀ p ∈ (s.core core).pend, p.2 ≠ [] ∧ ∀ x ∈ p.2, x.1 < s.nextId

/-- The core has performed Refresh from a set of cores (R230): its floor of every byte rises to the newest write that one of them
has published to it. -/
def Refreshed (s t : State) (core set : Nat) : Prop :=
  ∀ a, mgetD (t.core core).floors a 0 =
    match (mget s.co a).bind (·.find? (fun x => x.seen.any (fun q => set.testBit q.1 && q.2.testBit core))) with
    | some x => max (mgetD (s.core core).floors a 0) x.stamp
    | none => mgetD (s.core core).floors a 0

/-- A uniform operand and whether its siblings agree (R143): the lowest active thread's, by majority; a register or a pair. -/
def uniform (f : Flight) (c : ClauseRun) (pair : Bool) (a : BitVec 7) : Nat × Bool :=
  let t := Tri.of fun k => if pair then pairVal f (lowest c) a k else ((f.opnd (lowest c) a).get k).toNat
  (majorityOf t, decide (t.x0 = t.x1 ∧ t.x1 = t.x2))

/-- Whether a descriptor's base, the address of its pair, is unanimous (R143, R154). -/
def baseUniform (f : Flight) (c : ClauseRun) (a : BitVec 7) : Bool :=
  let t := (f.opnd (lowest c) a).map (fun w => w.toNat % 2 ^ 24)
  decide (t.x0 = t.x1 ∧ t.x1 = t.x2)

/-- The thread that a split uniform address makes meet D (R143). -/
def uniformSplit (c : ClauseRun) (agree : Bool) (x : Nat) : Met :=
  if x = lowest c ∧ agree = false then some ⟨.D, true, false, 0⟩ else none

/-- The operations of the matrix unit (R155). -/
def ofUnit (k : EngKind) : Bool :=
  match k with
  | .mzero | .mfree | .mld | .mst | .mma | .mmag => true
  | _ => false

/-- An engine operation has issued: of the module, only flights, the cluster's range scoreboard, counts, the occupancy of the flight's
datapath, the queue and plane sets of its quarter's matrix unit where it is one of its operations, and numbers given out differ, and the
operation's entry is in the scoreboard where it reaches the cluster store (R145, R155). -/
structure Started (s t : State) (w : Nat) (f : Flight) (e : Engine) : Prop where
  rest : t = { s with flights := t.flights, clusters := t.clusters, cores := t.cores, sessions := t.sessions, nextId := t.nextId }
  core : ∀ k, t.core k = { s.core k with cntV := (t.core k).cntV, quarters := (t.core k).quarters }
  quarter : ∀ k q, t.quarter k q =
    if k = f.core ∧ q = f.quarter then { s.quarter k q with
      freeAt := (t.quarter k q).freeAt
      mq := if ofUnit e.kind = true then (s.quarter k q).mq ++ [(w, s.nextId)] else (s.quarter k q).mq
      planes := if ofUnit e.kind = true then (t.quarter k q).planes else (s.quarter k q).planes }
    else s.quarter k q
  session : (∀ q ∈ s.sessions, q.2.running = false) → t.sessions = s.sessions
  others : ∀ v, v ≠ w → mget t.flights v = (mget s.flights v).map (fun g => { g with stall := none })
  board : ∀ k, t.cluster k = { s.cluster k with
    sb := (s.cluster k).sb ++ (if k = clusterOf f.core ∧ ¬(e.reads = [] ∧ e.writes = []) then
      [⟨f.core, e.win, e.reads, e.writes, w, s.nextId, e.key⟩] else []) }

/-- Room for an engine operation: in the flight's record (R282), and in the slice's scoreboard where it has a footprint (R145); the
flight's threads have no ATOMS outstanding, nor the flight one on the bytes of the footprint (R236). -/
def Room (s : State) (w : Nat) (f : Flight) (c : ClauseRun) (e : Engine) : Prop :=
  f.entries.length < 128 ∧ (¬(e.reads = [] ∧ e.writes = []) →
    s.sliceUse f.core < 256 ∧ s.atomsAhead w c.act (e.reads ++ e.writes) = false)

/-- The store interval from the first to the last byte of some rows of n bytes (R151). -/
def hullOf (starts : List Nat) (n : Nat) : List (Nat × Nat) :=
  match starts.min?, starts.max? with
  | some lo, some hi => [(lo, hi + n)]
  | _, _ => []

/-- A canonical address (R127). -/
def isCanonical (a : Nat) : Prop := a / 2 ^ 56 = 0 ∨ a / 2 ^ 56 = 255

/-- What a COPY between memories keeps at issue (R143, R150, R151): the operands, the rows of the issue, its footprint and its
chunks. -/
def copyEngine (s : State) (f : Flight) (c : ClauseRun) (kind : EngKind) (gsrc gdst : Bool) (d a b : BitVec 7) : Engine :=
  let shape := (uniform f c true b).1
  let len16 := shape % 2 ^ 16
  let rows := shape / 2 ^ 16 % 2 ^ 16
  let sp := shape / 2 ^ 32 % 2 ^ 16
  let dp := shape / 2 ^ 48 % 2 ^ 16
  let src := (uniform f c gsrc a).1
  let dst := (uniform f c gdst d).1
  let n := s.hallThreads f
  let own := if len16 = 0 then [] else (List.range rows).filter (fun r => c.act.any (fun x => (f.thread x).hidx == r % n))
  { kind := kind, win := f.win.getD 0, src := src, dst := dst, len16 := len16, rows := rows, spitch := sp, dpitch := dp
    per := [(0, own)], form := .f32, asrc := .v, q := false, ctl := 0, groups := 0, aBlk := [], bScale := [], n0 := []
    reads := if gsrc then [] else hullOf (own.map (fun r => src + 16 * r * sp)) (16 * len16)
    writes := if gdst then [] else hullOf (own.map (fun r => dst + 16 * r * dp)) (16 * len16)
    key := takeKey s f, total := own.length * ((16 * len16 + 4095) / 4096), started := false, out := [], plane := none
    cost := 1, fetch := 0, fetchAt := 0, fl := 0 }

/-- The checks of a COPY's addresses (R144): bases are multiples of 16, global rows are canonical from their first to their last
byte, and store rows lie in the store. -/
def copyReaches (f : Flight) (e : Engine) (gsrc gdst : Bool) : Prop :=
  e.src % 16 = 0 ∧ e.dst % 16 = 0 ∧ ∀ r ∈ mgetD e.per 0 [],
    (let at' := e.src + 16 * r * e.spitch
     if gsrc then isCanonical (at' % 2 ^ 64) ∧ isCanonical ((at' % 2 ^ 64 + 16 * e.len16 - 1) % 2 ^ 64)
     else at' + 16 * e.len16 ≤ f.winSize)
    ∧ (let at' := e.dst + 16 * r * e.dpitch
       if gdst then isCanonical (at' % 2 ^ 64) ∧ isCanonical ((at' % 2 ^ 64 + 16 * e.len16 - 1) % 2 ^ 64)
       else at' + 16 * e.len16 ≤ f.winSize)

/-- What an operation of the matrix unit keeps of each owning thread (R143, R158, R159): its index t, its rounding counter and
whether it computes one value. -/
def owning (f : Flight) (c : ClauseRun) : NMap (List Nat) :=
  c.act.map fun x => (x, [(f.thread x).t, (f.thread x).rcount.toNat, if f.single x then 1 else 0])

/-- A descriptor passes the checks of R144 for the units it reaches (R154). -/
def descriptorFits (m : MDesc) (f : Flight) (us : List Nat) : Prop :=
  m.base % 16 = 0 ∧ m.bad = false ∧ ∀ o ∈ us, o + 16 ≤ f.winSize

/-- What MMA and MMAG keep at issue (R143, R158, R161; the A rows of log 109): the descriptors, the owners' A rows and
scales, the columns' B scales, the group registers, the rounding registers and the footprint. -/
def mmaEngine (f : Flight) (c : ClauseRun) (kind : EngKind) (src : ASource) (form : MmaForm) (d a : BitVec 7) (scale : BitVec 5)
    (q : Bool) : Engine :=
  let sc := 4 * scale.toNat
  let b := mdesc (uniform f c true a).1
  let am := mdesc (uniform f c true d).1
  let g := if kind = .mmag then (uniform f c true (a + 2)).1 else 0
  let owned := ownedPlanes f.lane (owning f c)
  let rows := owned.filter (fun p => (tileOf kind g p.2.1).isSome)
  let tiles := tilesOf kind g (rows.map (fun p => p.2.1))
  let scaleRows := if kind = .mmag ∧ form.isBx = true then tiles.map (fun t => (16 * b.tpitch * t, 32)) else []
  let n := formBytes form
  let chunks := (formK form).1 / (formK form).2
  { Engine.empty kind with
    win := f.win.getD 0, src := if src = .s then (uniform f c true d).1 else 0, dst := (uniform f c true a).1
    per := owning f c, form := form, asrc := src, q := q
    ctl := f.ctl.round.toNat + (if f.ctl.rsrc then 4 else 0) + f.ctl.rpat.toNat * 8, groups := g
    aBlk := c.act.map (fun x => (x, aCapture f src form d sc q x))
    bScale := if form.isBx = true ∧ kind = .mma then (List.range 96).map (fun x => (x, bCapture f sc q x)) else []
    reads := b.span (b.units (bRows b tiles) n ++ b.units scaleRows 128)
      ++ (if src = .s then am.span (am.units (aRows f am owned) n) else [])
    total := chunks, cost := formCycles form / chunks
    fetch := b.fetchTime (bRows b tiles) n + b.fetchTime scaleRows 128
      + (if src = .s then am.fetchTime (aRows f am owned) n else 0) }

/-- The operands of an MMA or MMAG pass the checks of R144, R154 and R161. -/
def mmaReaches (f : Flight) (c : ClauseRun) (kind : EngKind) (src : ASource) (form : MmaForm) (d a : BitVec 7) : Prop :=
  let b := mdesc (uniform f c true a).1
  let am := mdesc (uniform f c true d).1
  let g := if kind = .mmag then (uniform f c true (a + 2)).1 else 0
  let owned := ownedPlanes f.lane (owning f c)
  let rows := owned.filter (fun p => (tileOf kind g p.2.1).isSome)
  let tiles := tilesOf kind g (rows.map (fun p => p.2.1))
  let scaleRows := if kind = .mmag ∧ form.isBx = true then tiles.map (fun t => (16 * b.tpitch * t, 32)) else []
  descriptorFits b f (b.units (bRows b tiles) (formBytes form) ++ b.units scaleRows 128)
    ∧ (src = .s → descriptorFits am f (am.units (aRows f am owned) (formBytes form)))
    ∧ (kind = .mmag → ∀ k < 4, g / 2 ^ (8 * k) % 256 ≤ 32)

/-- The plane set that an operation of the matrix unit works on: the flight's own, or the lowest free one, which the flight acquires
where no older flight of its quarter waits for one (R155, R217). -/
def PlaneOf (s : State) (w : Nat) (f : Flight) (k : Nat) : Prop :=
  let planes := (s.quarter f.core f.quarter).planes
  f.planes = some k ∨
    (f.planes = none ∧ k < 8 ∧ mget planes k = none ∧ (∀ j < k, (mget planes j).isSome = true) ∧ (∀ p ∈ planes, p.2.holder ≠ w)
      ∧ ∀ p ∈ s.flights, p.1 ≠ w → p.2.core = f.core → p.2.quarter = f.quarter → p.2.wantPlanes = true → f.age < p.2.age)

/-- A matrix operation has joined the unit's queue (R143, R155): its entry holds e, but for the cycle in which its fetch begins; a
plane set that the flight acquires holds +0 throughout. -/
def Queued (i : Instr) (s : State) (w : Nat) (f f' : Flight) (c : ClauseRun) (flag : Nat) (srcs : List Nat) (met : Nat → Met)
    (e : Engine) (planes : NMap PlaneSet) : Prop :=
  ∃ t g n, exec i s = .next t ∧ mget t.flights w = some g
    ∧ Issued s f' g c .k 0 flag srcs [] [] met (.engine { e with fetchAt := n, key := takeKey s f })
    ∧ Started s t w f { e with fetchAt := n, key := takeKey s f }
    ∧ (t.quarter f.core f.quarter).mq = (s.quarter f.core f.quarter).mq ++ [(w, s.nextId)]
    ∧ (t.quarter f.core f.quarter).planes = planes

/-- The counting bank takes one from the count of a join block at an address, and at zero pushes the block's continuation: into its
queue with the owner's identity, or where the queue is full into the overflow ring; a malformed continuation, an absent queue or a full
overflow ring discards it. Other queues stand (R162, R163, R166, R262). -/
def Joined (f : Flight) (x y : State) (pa old : Nat) : Prop :=
  let die := State.homeDie pa
  let q := (memGet x.mem (pa + 4)).toNat % 8
  let r := memRead x.mem (pa + 32) 32
  let m := memWrite x.mem pa (leBytes 4 ((old + 2 ^ 32 - 1) % 2 ^ 32))
  let k := x.taskQ f.context die q
  let place := ({ x with mem := m } : State).taskSlot f.context die q
  let leaves := fun (m' : List Host.Cell) (k' : TaskQ) =>
    (∀ b, memGet y.mem b = memGet m' b) ∧ y.taskQ f.context die q = k'
      ∧ ∀ d n, ¬(d = die ∧ n = q) → y.taskQ f.context d n = x.taskQ f.context d n
  old = leNat (memRead x.mem pa 4)
    ∧ (old ≠ 1 ∨ place = none ∨ recordBad f.lane r = true → leaves m k)
    ∧ ∀ slot own, old = 1 → place = some slot → mget x.galleries f.gallery = some own → recordBad f.lane r = false →
      let put := r.take 29 ++ leBytes 1 (128 + own.queue % 64) ++ leBytes 2 (own.seq % 2 ^ 16)
      if k.open_ slot = true then
        leaves (memWrite m (slot.at_ k.tail) put) { k with
          tail := k.tail + 1, recs := if k.recs.length = k.depth ∧ k.recs.length < 64 then k.recs ++ [put] else k.recs }
      else if k.spilled < slot.overCap then leaves (memWrite m (slot.over k.otail) put) { k with otail := k.otail + 1 }
      else leaves m k

/-! ## Steps that no word encodes -/

/-- Of the module, only flights differ; of a flight other than u, only that it no longer holds. -/
structure Alone (s t : State) (u : Nat) : Prop where
  rest : t = { s with flights := t.flights }
  others : ∀ v, v ≠ u → mget t.flights v = (mget s.flights v).map (fun g => { g with stall := none })

/-- The number of the trap that reports an instability condition where there is no handler (R286). -/
def conditionTrap (icause : Nat) : Nat := match icause % 4 with | 1 => 7 | 2 => 8 | _ => 9

/-- What an atomic leaves at its location (R135). -/
def atomicResult (op : AtomOp) (old x y : Nat) : Nat :=
  let signed := fun v : Nat => (BitVec.ofNat 32 v).toInt
  match op with
  | .add32 => (old + x) % 2 ^ 32
  | .add64 => (old + x) % 2 ^ 64
  | .smin32 => if signed x < signed old then x else old
  | .smax32 => if signed old < signed x then x else old
  | .umin32 => if x < old then x else old
  | .umax32 => if old < x then x else old
  | .and32 => old &&& x
  | .or32 => old ||| x
  | .xor32 => old ^^^ x
  | .exch32 | .exch64 => x
  | .cas32 | .cas64 => if old = x then y else old
  | .fadd32 => (fAdd fp32 (Rnd.all .near) old x).pat
  | .fmin32 => (fMinMax fp32 false old x).pat
  | .fmax32 => (fMinMax fp32 true old x).pat

/-- Requests performed one after another on some bytes: the old values and what the bytes become (R134, R135). -/
def performed (op : AtomOp) : List AtomReq → List Host.Cell → List Nat × List Host.Cell
  | [], m => ([], m)
  | r :: rs, m =>
    let old := leNat (memRead m r.pa op.bytes)
    let p := performed op rs (memWrite m r.pa (leBytes op.bytes (atomicResult op old r.x r.y)))
    (old :: p.1, p.2)

/-- Requests with what performing them returned. -/
def answered (rs : List AtomReq) (olds : List Nat) : List AtomReq :=
  (rs.zip olds).map fun p => { p.1 with done := true, old := p.2 }

/-- The requests of a `.spec` atomic, each with whether its agent refuses it, on some bytes: one that is refused changes nothing (R137). -/
def attempted (op : AtomOp) : List (AtomReq × Bool) → List Host.Cell → List AtomReq × List Host.Cell
  | [], m => ([], m)
  | (r, true) :: rs, m => let p := attempted op rs m; ({ r with done := true, refused := true } :: p.1, p.2)
  | (r, false) :: rs, m =>
    let old := leNat (memRead m r.pa op.bytes)
    let p := attempted op rs (memWrite m r.pa (leBytes op.bytes (atomicResult op old r.x r.y)))
    ({ r with done := true, old := old } :: p.1, p.2)

/-- A request of an ATOM or ATOMS is queued ahead of request ix of an entry at the same cluster engine, in the same 64-byte granule
(R137). -/
def QueuedAhead (s : State) (f : Flight) (e : Entry) (win : Option Nat) (ix pa : Nat) : Prop :=
  ∃ p ∈ s.requests, p.win = win ∧ p.post = false ∧ p.lo / 64 = pa / 64 ∧ clusterOf p.core = clusterOf f.core
    ∧ keyLt p.key [e.issued, f.core, f.quarter, f.slot, e.id, ix] = true

/-- An outstanding operation has written back in cycle `now` (R76, R77, R244): `val` gives what register j of the destinations takes
in a thread's sibling, if anything; the entry is gone, its destinations are no longer awaited and its flag has fallen by one,
which a start test of this cycle does not see (R75). -/
structure WrittenBack (now : Nat) (f g : Flight) (e : Entry) (dests : List Nat) (val : Nat → Nat → Nat → Option Word) : Prop where
  values : ∀ j n, dests[j]? = some n → ∀ x k w, k < 3 → val j x (shown f k) = some w → g.readReg n x k = w
  kept : ∀ j n, dests[j]? = some n → ∀ x ∈ f.live, x < slots f → ∀ k < 3, val j x (shown f k) = none →
    g.readReg n x k = f.readReg n x k
  names : ∀ n, n ∉ dests → mget g.regs n = mget f.regs n
  scoreboard : g.sb = f.sb.filter (fun n => !dests.contains n)
  entries : g.entries = f.entries.filter (fun x => x.id != e.id)
  flags : ∀ k, g.flagCount k = if k = e.flag ∧ k ≠ 15 then f.flagCount k - 1 else f.flagCount k
  seen : ∀ k, g.flagSeen now k = f.flagSeen now k ∨ k = e.flag ∧ f.flagCount k = 0
  rest : g = { f with
    regs := g.regs, sb := g.sb, entries := g.entries, flags := g.flags, lowered := g.lowered, sig := g.sig, sigq := g.sigq
    stall := none }

/-- The physical address of a byte that translates (R291). -/
def physical (s : State) (f : Flight) (va : Nat) : Nat :=
  match s.xlate f.core f.context (va % 2 ^ 57) with
  | .ok e => e.frameAddr (va % 2 ^ 57) 0
  | _ => 0

/-- Chunk n of a COPY between global memory and the store or within the store (R148, R151): its length, where its bytes come from
and where they go; a chunk is one row or 4,096 bytes of one. -/
def copySpan (e : Engine) (n : Nat) : Nat × Nat × Nat :=
  let parts := (16 * e.len16 + 4095) / 4096
  let row := ((mgetD e.per 0 [])[n / parts]?).getD 0
  let off := n % parts * 4096
  (min 4096 (16 * e.len16 - off), e.src + 16 * row * e.spitch + off, e.dst + 16 * row * e.dpitch + off)

/-- The bytes of global memory that chunk n of an engine operation reaches, if it does: length and first address (R148, R151 to
R153). -/
def globalSpan (e : Engine) (n : Nat) : Option (Nat × Nat) :=
  match e.kind, e.per[n]? with
  | .g2s, _ => some ((copySpan e n).1, (copySpan e n).2.1 % 2 ^ 64)
  | .s2g, _ => some ((copySpan e n).1, (copySpan e n).2.2 % 2 ^ 64)
  | .gath, some (_, _ :: g :: _) => some (16 * e.len16, g)
  | .g2v, some (_, h :: _) => some (16 * e.len16, (e.src + 16 * h * e.spitch) % 2 ^ 64)
  | _, _ => none

/-- Where chunk n leaves bytes in the store: the offset in the window, if it does (R151, R153). -/
def storeAt (e : Engine) (n : Nat) : Option Nat :=
  match e.kind, e.per[n]? with
  | .g2s, _ => some (copySpan e n).2.2
  | .s2s, _ => some (copySpan e n).2.2
  | .gath, some (_, off :: _) => some off
  | _, _ => none

/-- An engine has read an aligned unit of 16 bytes whole (R146, R226): as it stood at one moment, not before what its core had made
or the module had been shown when operation id issued, with the core's own earlier writes in their places. -/
def UnitRead (s : State) (core id : Nat) (pas : List Nat) (bs : List Byte) : Prop :=
  let low := (pas.map (engineLow s core id)).foldl max 0
  let at' := fun (byte : Nat → Byte) => bs = pas.map (fun a => (engineOwn s core id a).getD (byte a))
  (∃ m ∈ s.moments low pas, at' (fun a => s.byteAt a m)) ∨ (s.moments low pas = [] ∧ at' s.latest)

/-- An engine has read some bytes of global memory, unit by unit (R226). -/
def EngineReads (s : State) (core id : Nat) (pas : List Nat) (bs : List Byte) : Prop :=
  bs.length = pas.length ∧ ∀ j, 16 * j < pas.length →
    UnitRead s core id ((pas.drop (16 * j)).take 16) ((bs.drop (16 * j)).take 16)

/-- A chunk has been performed (R145, R148): the entry holds e and counts one more; after the last, what the flight's registers
take is written, the entry is gone with its scoreboard entry, and the bytes for global memory are writes of the core under a
number of their own (R146). -/
def ChunkDone (s t : State) (u : Nat) (f : Flight) (x : Entry) (e : Engine) : Prop :=
  ∃ g, mget t.flights u = some g
    ∧ (x.done + 1 < e.total →
        SameEntries (f.entries.map (fun y => if y.id = x.id then { x with done := x.done + 1, pay := .engine e } else y)) g.entries
        ∧ g = { f with entries := g.entries, stall := none }
        ∧ (∀ k, (t.cluster k).sb = (s.cluster k).sb) ∧ (t.core f.core).pend = (s.core f.core).pend)
    ∧ (e.total ≤ x.done + 1 →
        (∃ g', WrittenBack (s.cycAt f.core) f g' x (if e.kind = .g2v then e.n0.map (·.2) else [])
            (fun j i _ => (mget e.aBlk i).map fun ws => BitVec.ofNat 32 ((ws.head?).getD 0 / 2 ^ (32 * j)))
          ∧ SameEntries g'.entries g.entries
          ∧ g = { g' with entries := g.entries, wrote := f.wrote ++ (if e.out = [] then [] else [(s.nextId, e.out)]) })
        ∧ (∀ k, (t.cluster k).sb = if k = clusterOf f.core then (s.cluster k).sb.filter (fun y => y.entry != x.id) else (s.cluster k).sb)
        ∧ ∀ a, mget (t.core f.core).pend a =
            match mget e.out a with
            | some v => some ((s.nextId, v) :: mgetD (s.core f.core).pend a [])
            | none => mget (s.core f.core).pend a)

/-- A record of a queue has completed (R252, R258): its entry stands in the completion ring, and the record is no longer taken. -/
structure Completed (s t : State) (q seq kind tag status : Nat) : Prop where
  entry : memRead t.mem ((s.queue q).cpl + 16 * (seq % 2 ^ (s.queue q).lg)) 16 =
    leBytes 4 tag ++ leBytes 1 status ++ leBytes 1 kind ++ leBytes 2 0 ++ leBytes 4 seq ++ leBytes 4 s.time
  taken : ∀ r ∈ (t.queue q).taken, r.seq ≠ seq

/-- The next record of a queue has been taken (R252). -/
def TakenNext (s t : State) (q : Nat) : Prop :=
  (t.queue q).head = ((s.queue q).head + 1) % 2 ^ 32 ∧ (t.queue q).recs = (s.queue q).recs.drop 1 ∧ (t.queue q).tail = (s.queue q).tail

/-- Bytes stand in memory from an address on, and every other byte is as before. -/
structure BytesPut (m m' : List Host.Cell) (pa : Nat) (bs : List Byte) : Prop where
  here : memRead m' pa bs.length = bs
  others : ∀ a, a < pa ∨ pa + bs.length ≤ a → memGet m' a = memGet m a

/-- Where byte i of a block lies whose pages are known. -/
def blockAt (pages : NMap Nat) (va i : Nat) : Nat :=
  mgetD pages ((va + i) % 2 ^ 57 / 4096) 0 + (va + i) % 4096

/-- Bytes stand in a block whose pages are known, the last where two would share a place, and every other byte is as before. -/
structure BlockPut (m m' : List Host.Cell) (pages : NMap Nat) (va : Nat) (bs : List Byte) : Prop where
  here : ∀ i b, bs[i]? = some b → (∀ j < bs.length, i < j → blockAt pages va j ≠ blockAt pages va i) →
    memGet m' (blockAt pages va i) = b
  others : ∀ a, (∀ i < bs.length, blockAt pages va i ≠ a) → memGet m' a = memGet m a

/-- A write of an agent outside the cores is the latest of its byte and published to every core (R229, R363). -/
def ShownToAll (t : State) (publisher pa n : Nat) : Prop :=
  ∀ i < n, ∃ w ws, t.coOf (pa + i) = w :: ws ∧ w.val = memGet t.mem (pa + i) ∧ mgetD w.seen publisher 0 = 2 ^ 384 - 1

/-- What a reduction makes of an element and the next rank's (R341, R349). -/
def reducedElement (ctype cop x y : Nat) : Nat :=
  let signed := fun v : Nat => (BitVec.ofNat 32 v).toInt
  if ctype = 2 then
    if cop = 0 then (x + y) % 2 ^ 32
    else if cop = 1 then (if signed x ≤ signed y then x else y)
    else if signed y ≤ signed x then x else y
  else
    let fmt := if ctype = 0 then fp32 else fp64
    if cop = 0 then (fAdd fmt (Rnd.all .near) x y).pat else (fMinMax fmt (cop == 2) x y).pat

/-- The class in which a die's engine serves a collective: a bulk one that has waited long there as normal (R351). -/
def servedClass (die : Nat) (c : Coll) : Nat := if mgetD c.aged die false = true then 2 else c.ccls

/-- A segment has been served by a die's engine: there the collective waits anew, and unless it is urgent its turn at that engine is behind
those of its class (R351, R352). -/
def afterTurn (s : State) (die : Nat) (c : Coll) (turn : Nat) : Coll :=
  { c with
    aged := mset c.aged die false, waitFrom := mset c.waitFrom die (s.dieCyc die)
    turn := if c.ccls = 0 then c.turn else mset c.turn die turn }

/-- An engine has read bytes of a tile that was fired at a stamp: each unit of 16 bytes as it stood whole at one moment, then or since
(R226, R350). -/
def TileRead (s : State) (fired : Nat) (pas : List Nat) (bs : List Byte) : Prop :=
  bs.length = pas.length ∧ ∀ j, 16 * j < pas.length →
    let us := (pas.drop (16 * j)).take 16
    let stood := fun a => match (s.coOf a).find? (fun w => decide (w.stamp ≤ fired)) with | some w => w.stamp | none => 0
    let low := (us.map stood).foldl max 0
    (∃ m ∈ s.moments low us, (bs.drop (16 * j)).take 16 = us.map (fun a => s.byteAt a m))
      ∨ (s.moments low us = [] ∧ (bs.drop (16 * j)).take 16 = us.map s.latest)

/-- No program has written a byte since a collective's firing (R342). -/
def Unraced (s : State) (id fired a : Nat) : Prop :=
  ∀ w ws, s.coOf a = w :: ws → w.stamp ≤ fired ∨ 384 ≤ w.writer ∨ w.id = id

/-! ## The invariant of memory -/

/-- The module's memory has its canonical form. -/
def State.Canonical (s : State) : Prop := memWf s.mem = true

end Sys2Proof.Machine
end

