-- ==== Sys2Proof/Certificates/Slice0/Obligations.lean ====
section
/-! DEFINITION. What is claimed of the model: one statement for each definition, each formalising rules of the spec. -/

open Sys2Proof Sys2Proof.Machine

/-- For every flight and clause about to execute one of the twelve instructions of R84 that nothing holds back, exec
answers a next state in which d holds, in every sibling of every active thread, what R84 gives for the operands (with
U = 1, the lowest active thread's), every other register, thread, flag and byte of memory standing. (R84) -/
def Obligations.IntegerArithmetic : Prop :=
  (∀ p ∈ arithmetic, ∀ u d a b la lb s w f c, Issuing s w f c → Ready s w f c (regs3 u d a b 1 1 1 la lb false 0 f) →
    WritesRegs (p.1 u d a b la lb) s w f c (regs3 u d a b 1 1 1 la lb false 0 f) fun _ x =>
      (f.opnd x a).zip p.2 (f.opnd x b))
  ∧ ∀ p ∈ accumulating, ∀ u d a b la lb s w f c, Issuing s w f c → Ready s w f c (regs3 u d a b 1 1 1 la lb true 0 f) →
    WritesRegs (p.1 u d a b la lb) s w f c (regs3 u d a b 1 1 1 la lb true 0 f) fun _ x =>
      Tri.of fun k => p.2 ((f.opnd x d).get k) ((f.opnd x a).get k) ((f.opnd x b).get k)

/-- For every flight and clause about to execute one of the thirteen instructions of R85 that nothing holds back, exec
answers a next state in which d holds what R85 (for BFX and BFI, R86) gives for the operands, every other register,
thread, flag and byte of memory standing. (R85, R86) -/
def Obligations.LogicShiftsAndBitFields : Prop :=
  (∀ p ∈ logic, ∀ u d a b la lb s w f c, Issuing s w f c → Ready s w f c (regs3 u d a b 1 1 1 la lb false 0 f) →
    WritesRegs (p.1 u d a b la lb) s w f c (regs3 u d a b 1 1 1 la lb false 0 f) fun _ x =>
      (f.opnd x a).zip p.2 (f.opnd x b))
  ∧ (∀ p ∈ counting, ∀ u d a la s w f c, Issuing s w f c → Ready s w f c (regs2 u d a 1 1 la false 0 f) →
    WritesRegs (p.1 u d a la) s w f c (regs2 u d a 1 1 la false 0 f) fun _ x => (f.opnd x a).map p.2)
  ∧ ∀ u d a b la lb s w f c, Issuing s w f c → Ready s w f c (regs3 u d a b 1 1 1 la lb true 0 f) →
    WritesRegs (.bfi u d a b la lb) s w f c (regs3 u d a b 1 1 1 la lb true 0 f) fun _ x =>
      Tri.of fun k => inserted ((f.opnd x d).get k) ((f.opnd x a).get k) ((f.opnd x b).get k)

/-- For every flight and clause about to execute IADDI, ANDI, ORI, XORI, SHLI, SHRI, SARI or ROLI that nothing holds
back, exec answers a next state in which d holds what R88 gives for a and the sign-extended immediate or the amount,
every other register, thread, flag and byte of memory standing. For every flight and clause about to execute MOV,
MOVP, MOVI or MOVH that nothing holds back, exec answers a next state in which d holds what R87 gives; PMOV gives each
predicate of each active thread the majority of its siblings' bit of a. All else stands. (R88, R87) -/
def Obligations.ImmediateFormsAndMoves : Prop :=
  (
  (∀ p ∈ immediates, ∀ u d a (imm : BitVec 10) la s w f c, Issuing s w f c →
    Ready s w f c (regs2 u d a 1 1 la false 0 f) →
    WritesRegs (p.1 u d a imm la) s w f c (regs2 u d a 1 1 la false 0 f) fun _ x =>
      (f.opnd x a).map fun v => p.2 v (BitVec.ofInt 32 imm.toInt))
  ∧ ∀ p ∈ immediateShifts, ∀ u d a (amt : BitVec 5) la s w f c, Issuing s w f c →
    Ready s w f c (regs2 u d a 1 1 la false 0 f) →
    WritesRegs (p.1 u d a amt la) s w f c (regs2 u d a 1 1 la false 0 f) fun _ x =>
      (f.opnd x a).map fun v => p.2 v amt.toNat)
  ∧ (
  (∀ u d a la s w f c, Issuing s w f c → Ready s w f c (regs2 u d a 1 1 la false 0 f) →
    WritesRegs (.mov u d a la) s w f c (regs2 u d a 1 1 la false 0 f) fun _ x => f.opnd x a)
  ∧ (∀ d s w f c, Issuing s w f c → Ready s w f c (regsD d 1 false 0 f) →
    WritesRegs (.movp d) s w f c (regsD d 1 false 0 f) fun _ x => Tri.rep (BitVec.ofNat 32 (f.thread x).preds.toNat))
  ∧ (∀ a la s w f c, Issuing s w f c → Ready s w f c (regsS [(a, 1)] (if la then [a] else []) false 0 f) →
    Does (.pmov a la) s w f c (regsS [(a, 1)] (if la then [a] else []) false 0 f) (fun _ _ => Tri.rep 0)
      (fun x => if x ∈ c.act then { f.thread x with preds := majorityBits (f.opnd x a) } else f.thread x) f)
  ∧ (∀ u d (imm : BitVec 18) s w f c, Issuing s w f c → Ready s w f c (regsD d 1 u 0 f) →
    WritesRegs (.movi u d imm) s w f c (regsD d 1 u 0 f) fun _ _ => Tri.rep (BitVec.ofInt 32 imm.toInt))
  ∧ ∀ u d (imm : BitVec 14) s w f c, Issuing s w f c →
    Ready s w f c ⟨f.block d.toNat 1, f.block d.toNat 1, [], u, 0⟩ →
    WritesRegs (.movh u d imm) s w f c ⟨f.block d.toNat 1, f.block d.toNat 1, [], u, 0⟩ fun _ x =>
      (f.opnd x d).map fun v => BitVec.ofNat 32 (imm.toNat * 2 ^ 18 + v.toNat % 2 ^ 18))

/-- For every flight and clause about to execute one of the five pair instructions of R89 that nothing holds back,
exec answers a next state in which the pair at d holds the low 64 bits of the exact result of R89, every other
register, thread, flag and byte of memory standing; LA and LB release both registers of a pair. (R89) -/
def Obligations.SixtyFourBitIntegers : Prop :=
  (∀ u d a b (sh : BitVec 2) la lb s w f c, Issuing s w f c → Ready s w f c (regs3 u d a b 2 2 1 la lb false 0 f) →
    WritesRegs (.lea u d a b sh la lb) s w f c (regs3 u d a b 2 2 1 la lb false 0 f) fun j x =>
      pairOut (fun k => pairVal f x a k + ((f.opnd x b).get k).toInt * 2 ^ sh.toNat) j)
  ∧ (∀ u d a b la lb s w f c, Issuing s w f c → Ready s w f c (regs3 u d a b 2 2 2 la lb false 0 f) →
    WritesRegs (.iadd64 u d a b la lb) s w f c (regs3 u d a b 2 2 2 la lb false 0 f) (fun j x =>
      pairOut (fun k => pairVal f x a k + pairVal f x b k) j)
    ∧ WritesRegs (.isub64 u d a b la lb) s w f c (regs3 u d a b 2 2 2 la lb false 0 f) (fun j x =>
      pairOut (fun k => (pairVal f x a k : Int) - pairVal f x b k) j))
  ∧ (∀ u d a b la lb s w f c, Issuing s w f c → Ready s w f c (regs3 u d a b 2 1 1 la lb false 0 f) →
    WritesRegs (.imulw u d a b la lb) s w f c (regs3 u d a b 2 1 1 la lb false 0 f) fun j x =>
      pairOut (fun k => ((f.opnd x a).get k).toInt * ((f.opnd x b).get k).toInt) j)
  ∧ ∀ u d a b la lb s w f c, Issuing s w f c → Ready s w f c (regs3 u d a b 2 2 1 la lb false 0 f) →
    WritesRegs (.shl64 u d a b la lb) s w f c (regs3 u d a b 2 2 1 la lb false 0 f) fun j x =>
      pairOut (fun k => pairVal f x a k * 2 ^ (((f.opnd x b).get k).toNat % 256)) j

/-- For every flight and clause about to execute SEL that nothing holds back, exec answers a next state in which d
holds, sibling by sibling, a where the thread's predicate is 1 and b where it is 0; with U = 1 the lowest active
thread's predicate and operands serve all. (R90) -/
def Obligations.SelectByPredicate : Prop :=
  ∀ u d a b (p : BitVec 4) s w f c, Issuing s w f c → Ready s w f c (regs3 u d a b 1 1 1 false false false 0 f) →
    WritesRegs (.sel u d a b p) s w f c (regs3 u d a b 1 1 1 false false false 0 f) fun _ x =>
      if (f.thread x).preds.getLsbD p.toNat then f.opnd x a else f.opnd x b

/-- For every flight and clause about to execute ICMP that nothing holds back, exec answers a next state in which
predicate N of every active thread is combined with the majority of the siblings' outcomes of the condition on a and b
(with U = 1, of the lowest active thread's), and nothing else has changed: no flag, no counter of conditions, no
register. For every flight and clause about to execute PAND, POR, PXOR or PNOT, exec answers a next state in which
predicate d of every active thread is the combination of its predicates a and b, and nothing else has changed. (R91,
R92) -/
def Obligations.CompareIntegersAndPredicateLogic : Prop :=
  (
  ∀ u (mode : CombMode) (p : BitVec 4) a b (cond : IntCond) s w f c, Issuing s w f c →
    Ready s w f c (regsS [(a, 1), (b, 1)] [] u 0 f) →
    Does (.icmp u mode p a b cond) s w f c (regsS [(a, 1), (b, 1)] [] u 0 f) (fun _ _ => Tri.rep 0)
      (fun x => if x ∈ c.act then withPred (f.thread x) p (combined mode ((f.thread x).preds.getLsbD p.toNat)
          (majorityOf ((f.opnd (computes u c x) a).zip (compares cond) (f.opnd (computes u c x) b))))
        else f.thread x) f)
  ∧ (
  ∀ (d a b : BitVec 4) s w f c, Issuing s w f c → Ready s w f c (regs0 0 f) →
    let p := fun x (n : BitVec 4) => (f.thread x).preds.getLsbD n.toNat
    let gives := fun (i : Instr) (v : Nat → Bool) => Does i s w f c (regs0 0 f) (fun _ _ => Tri.rep 0)
      (fun x => if x ∈ c.act then withPred (f.thread x) d (v x) else f.thread x) f
    gives (.pand d a b) (fun x => p x a && p x b) ∧ gives (.por d a b) (fun x => p x a || p x b)
    ∧ gives (.pxor d a b) (fun x => xor (p x a) (p x b)) ∧ gives (.pnot d a) (fun x => !p x a))

/-- For every flight and clause about to execute one of the fifteen instructions of R98 and R101 (DSQRT apart) that
nothing holds back, exec answers a next state in which d holds each sibling's rounded result, fexc has gained the
flags of every computing sibling, the rounding counter of each active thread has advanced by its draws, each thread
that meets C or Z is counted once and, where the trap is enabled, masked with its record; all else stands. That with U = 1 a solo
thread of a triple kernel counts what the lowest active thread met is the model's choice (assumption 80). (R94, R95,
R98, R101, R60, R61, R54, R52) -/
def Obligations.FloatingArithmetic : Prop :=
  (∀ p ∈ floats32, ∀ u d a b la lb s w f c, c.act.Nodup → Issuing s w f c →
    Ready s w f c (regs3 u d a b 1 1 1 la lb p.2.1 0 f) →
    let out := fun x k => p.2.2.2.1 (f.rnd x k 0) ((f.opnd x d).get k).toNat ((f.opnd x a).get k).toNat ((f.opnd x b).get k).toNat
    Computes (p.1 u d a b la lb) s w f c (regs3 u d a b 1 1 1 la lb p.2.1 0 f) p.2.2.1
      (fun x k => ([BitVec.ofNat 32 (out x k).pat], (out x k).fl))
      (fun x => p.2.2.2.2 f.ctl.canc.toNat (operandVals f x d 1) (operandVals f x a 1) (operandVals f x b 1)
        (Tri.of fun k => (out x k).pat % 2 ^ 32)))
  ∧ ∀ p ∈ floats64, ∀ u d a b la lb s w f c, c.act.Nodup → Issuing s w f c →
    Ready s w f c (regs3 u d a b 2 2 2 la lb p.2.1 0 f) →
    let out := fun x k => p.2.2.2.1 (f.rnd x k 0) (pairVal f x d k) (pairVal f x a k) (pairVal f x b k)
    Computes (p.1 u d a b la lb) s w f c (regs3 u d a b 2 2 2 la lb p.2.1 0 f) p.2.2.1
      (fun x k => ([BitVec.ofNat 32 (out x k).pat, BitVec.ofNat 32 ((out x k).pat / 2 ^ 32)], (out x k).fl))
      (fun x => p.2.2.2.2 f.ctl.canc.toNat (operandVals f x d 2) (operandVals f x a 2) (operandVals f x b 2)
        (Tri.of fun k => (out x k).pat % 2 ^ 64))

/-- For every flight and clause about to execute one of the thirteen functions of R99 or DSQRT that nothing holds
back, exec answers a next state in which d holds each sibling's result, fexc has gained their flags, the rounding
counters of the active threads have advanced by the draws, and a thread whose operand of FRCP or FRSQ has no digits
meets Z; FABS and FNEG change bit 31 alone and set no flag. All else stands. (Where the model cannot decide a 34-bit
rounding of R100, assumption 10 leaves it free; that with U = 1 a solo thread of a triple kernel counts the Z that the lowest active
thread met is assumption 80.) (R94, R95, R99, R100, R101, R60, R61, R54, R52) -/
def Obligations.FunctionUnit : Prop :=
  (∀ p ∈ functions, ∀ u d a la s w f c, c.act.Nodup → Issuing s w f c → Ready s w f c (regs2 u d a 1 1 la false 0 f) →
    let out := fun x k => p.2.2.1 (f.rnd x k 0) ((f.opnd x a).get k).toNat
    Computes (p.1 u d a la) s w f c (regs2 u d a 1 1 la false 0 f) p.2.1
      (fun x k => ([BitVec.ofNat 32 (out x k).pat], (out x k).fl)) (fun x => p.2.2.2 (operandVals f x a 1)))
  ∧ ∀ u d a la s w f c, c.act.Nodup → Issuing s w f c → Ready s w f c (regs2 u d a 2 2 la false 0 f) →
    let out := fun x k => fSqrt fp64 (f.rnd x k 0) (pairVal f x a k)
    Computes (.dsqrt u d a la) s w f c (regs2 u d a 2 2 la false 0 f) 1
      (fun x k => ([BitVec.ofNat 32 (out x k).pat, BitVec.ofNat 32 ((out x k).pat / 2 ^ 32)], (out x k).fl)) (fun _ => none)

/-- For every flight and clause about to execute a packed 16-bit instruction or a conversion that nothing holds back, exec answers a next
state in which d holds each sibling's result (the two halves computed apart, the low half with the first draw; a conversion by its code),
fexc has gained the flags, the rounding counters have advanced by two for a packed form and for codes 24 and 25 and by one for any other
conversion, and no condition is tested. All else stands. That 0 times infinity beside a quiet NaN raises nv in the packed fused forms too
is the model's choice (assumption 78). (R94, R95, R102, R105, R63, R25, R54, R52) -/
def Obligations.PackedArithmeticAndConversions : Prop :=
  (∀ p ∈ packedOps, ∀ u d a b la lb s w f c, c.act.Nodup → Issuing s w f c →
    Ready s w f c (regs3 u d a b 1 1 1 la lb p.2.1 0 f) →
    let half := fun x k (n : Nat) =>
      let v := fun r => ((f.opnd x r).get k).toNat / 2 ^ (16 * n) % 2 ^ 16
      p.2.2.2 (f.rnd x k n) (v d) (v a) (v b)
    Computes (p.1 u d a b la lb) s w f c (regs3 u d a b 1 1 1 la lb p.2.1 0 f) 2
      (fun x k => ([BitVec.ofNat 32 ((half x k 0).pat % 2 ^ 16 + (half x k 1).pat * 2 ^ 16)], (half x k 0).fl ||| (half x k 1).fl))
      (fun _ => none))
  ∧ ∀ u d a (code : BitVec 5) la s w f c, c.act.Nodup → Issuing s w f c →
    let n := cvtWidths code.toNat
    Ready s w f c (regs2 u d a n.1 n.2 la false 0 f) →
    let out := fun x k => convert code.toNat (f.rnd x k 0) (f.rnd x k 1) ((operandVals f x a n.2).get k)
    Computes (.cvt u d a code la) s w f c (regs2 u d a n.1 n.2 la false 0 f)
      (if code.toNat = 24 ∨ code.toNat = 25 then 2 else 1) (fun x k => ((out x k).words, (out x k).fl)) (fun _ => none)

/-- For every flight and clause about to execute FCMP or DCMP that nothing holds back, exec answers a next state in
which predicate N of each active thread is combined with the majority of its siblings' outcomes (with U = 1, the
lowest active thread's), nv is set as R104 says, and a thread whose outcomes are not unanimous is counted in dcnt and,
where the trap is enabled, masked with its record after the predicate is written. No register and no rounding counter
changes. That with U = 1 a solo thread of a triple kernel counts what the lowest active thread met is the model's choice
(assumption 80). (R103, R104, R61, R27, R95) -/
def Obligations.FloatingCompares : Prop :=
  ∀ u mode (p : BitVec 4) a b cond s w f c, c.act.Nodup → Issuing s w f c →
    (Ready s w f c (regsS [(a, 1), (b, 1)] [] u 0 f) →
      ComparesFloats (.fcmp u mode p a b cond) s w f c fp32 1 u mode p a b cond)
    ∧ (Ready s w f c (regsS [(a, 2), (b, 2)] [] u 0 f) →
      ComparesFloats (.dcmp u mode p a b cond) s w f c fp64 2 u mode p a b cond)

/-- For every flight and clause about to execute DIGITS, SIB, MEAN or CHKD that nothing holds back, exec answers a next state: DIGITS
writes the digit count, SIB sibling k's bits and MEAN the mean of the three copies into all siblings of d; MEAN sets its flags and
advances the counters by one; CHKD writes nothing, and a thread of a triple kernel outside a solo stretch meets D where c is 0 and its
copies differ, or C where they hold fewer than c digits. All else stands. MEAN's value rests on the reading of assumption 8 and its
underflow flag on that of assumption 103. (R106, R107, R108, R109, R58, R59) -/
def Obligations.ReadingTheSiblings : Prop :=
  ∀ d a (ty : SibType) la s w f c, c.act.Nodup → Issuing s w f c →
    let n := if ty = .f64 then 2 else 1
    let v := fun x k => copiesOf f x ty a k
    let words := fun (y : Nat) j => Tri.rep (BitVec.ofNat 32 (y / 2 ^ (32 * j)))
    (Ready s w f c (regs2 false d a 1 n la false 0 f) →
      WritesRegs (.digits d a ty la) s w f c (regs2 false d a 1 n la false 0 f) fun _ x =>
        Tri.rep (BitVec.ofNat 32 (digits (sibFmt ty) (v x 0) (v x 1) (v x 2))))
    ∧ (Ready s w f c (regs2 false d a n n la false 0 f) →
      (∀ k : BitVec 2, k.toNat < 3 → WritesRegs (.sib d a ty k la) s w f c (regs2 false d a n n la false 0 f) fun j x =>
        words (v x k.toNat) j)
      ∧ Does (.mean d a ty la) s w f c (regs2 false d a n n la false 0 f)
        (fun j x => words (mean3 (sibFmt ty) (v x 0) (v x 1) (v x 2)).pat j)
        (fun x => if x ∈ c.act then { f.thread x with rcount := (f.thread x).rcount + 1 } else f.thread x)
        (let fl := c.act.foldl (fun acc x => acc ||| (mean3 (sibFmt ty) (v x 0) (v x 1) (v x 2)).fl) 0
         { f with ctl := counted f.ctl fl [] }))
    ∧ ∀ need : BitVec 5, Ready s w f c ⟨f.block a.toNat n, [], relOf la (f.block a.toNat n), false, 0⟩ →
      let met : Nat → Met := fun x =>
        let g := digits (sibFmt ty) (v x 0) (v x 1) (v x 2)
        if f.single x then none
        else if need = 0 then (if v x 0 = v x 1 ∧ v x 1 = v x 2 then none else some ⟨.D, false, true, g⟩)
        else if g < need.toNat then some ⟨.C, false, true, g⟩ else none
      Does (.chkd a ty need la) s w f c ⟨f.block a.toNat n, [], relOf la (f.block a.toNat n), false, 0⟩ (fun _ _ => Tri.rep 0)
        (fun x => if x ∈ c.act then afterMet f.ctl c (f.thread x) (met x) else f.thread x)
        { f with ctl := counted f.ctl 0 (c.act.filterMap met) }

/-- For every flight and clause about to execute SOLO or TRIO, exec answers a next state in which the solo bit of each
active thread is set or clear; no other thread, register or flag changes. (R110) -/
def Obligations.SoloBits : Prop :=
  ∀ s w f c, Issuing s w f c → Ready s w f c (regs0 0 f) →
    let gives := fun (i : Instr) (v : Bool) => Does i s w f c (regs0 0 f) (fun _ _ => Tri.rep 0)
      (fun x => if x ∈ c.act then { f.thread x with solo := v } else f.thread x) f
    gives .solo true ∧ gives .trio false

/-- For every flight and clause about to execute QBX that nothing holds back, exec answers a next state in which each
active thread holds in d the element code and in b the exponent pair of its block (sibling by sibling in a triple
thread, sibling 0's block in a solo thread), the counter of each active thread has advanced by 32, and the flags of
every block with an active thread are set; DQBX writes the decoded element and nothing else. All else stands. That the exponent pair
remains where d and b are one register is the model's choice (assumption 82). (R112,
R113, R65, R66, R67) -/
def Obligations.BlockQuantization : Prop :=
  (∀ (fmt : BxFmt) (had : Hadamard) d a b s w f c, c.act.Nodup → Issuing s w f c →
    Ready s w f c ⟨[f.regName a.toNat], [f.regName d.toNat, f.regName b.toNat], [], false, 0⟩ →
    Does (.qbx fmt had d a b) s w f c ⟨[f.regName a.toNat], [f.regName d.toNat, f.regName b.toNat], [], false, 0⟩
      (fun j x => Tri.of fun k => BitVec.ofNat 32
        (if j = 0 then (quantized f c fmt had a x k).1 else (quantized f c fmt had a x k).2))
      (fun x => if x ∈ c.act then { f.thread x with rcount := (f.thread x).rcount + 32 } else f.thread x)
      (let fl := (f.qbxBlocks.filter (fun sl => sl.any (fun y => decide (y ∈ c.act)))).foldl
        (fun acc sl => (List.range 3).foldl
          (fun acc k => acc ||| (qbxOf f c.act fmt had a (if f.lane then 0 else k) sl).fl) acc) 0
       { f with ctl := counted f.ctl fl [] }))
  ∧ ∀ (fmt : BxFmt) d a b s w f c, Issuing s w f c → Ready s w f c (regs3 false d a b 1 1 1 false false false 0 f) →
    let m := if fmt = .bx8 then 6 else if fmt = .bx6 then 4 else 2
    WritesRegs (.dqbx fmt d a b) s w f c (regs3 false d a b 1 1 1 false false false 0 f) fun _ x =>
      (f.opnd x a).zip (fun code pair => BitVec.ofNat 32
        (bxPattern m (code.toNat % 2 ^ (m + 2)) (pair.toNat % 256) (pair.toNat / 2 ^ 8 % 256))) (f.opnd x b)

/-- For every flight and clause about to execute one of the four SHFL forms that nothing holds back, exec answers a
next state in which each active thread's sibling k holds in d what R123 gives for the source index that R124 computes
from its own copy k of b (a solo thread and a lane from copy 0), read before any write; all else stands. (R123, R124)
-/
def Obligations.ShufflesReadTheDomain : Prop :=
  ∀ p ∈ shuffles, ∀ d a b la lb s w f c, Issuing s w f c → Ready s w f c (regs3 false d a b 1 1 1 la lb false 0 f) →
    WritesRegs (p.1 d a b la lb) s w f c (regs3 false d a b 1 1 1 la lb false 0 f) fun _ x => Tri.of fun j =>
      let k := if f.single x then 0 else j
      crossRead f x (f.regName a.toNat) k (p.2 (f.domIdx x) (f.readReg (f.regName b.toNat) x k).toNat)

/-- For every flight and clause about to execute a VOTE that nothing holds back, exec answers a next state in which
ANY and ALL write predicate d of each active thread, and BALLOT and COUNT its register d in all siblings, as R125 says
of the active threads of its domain; all else stands. (R125) -/
def Obligations.VotesCountActiveThreads : Prop :=
  ∀ s w f c, Issuing s w f c →
    (∀ (d a : BitVec 4), Ready s w f c (regs0 0 f) →
      let gives := fun (i : Instr) (v : Nat → Bool) => Does i s w f c (regs0 0 f) (fun _ _ => Tri.rep 0)
        (fun x => if x ∈ c.act then withPred (f.thread x) d (v x) else f.thread x) f
      gives (.voteAny d a) (fun x => (activeAround f c x).any (predOf f a))
      ∧ gives (.voteAll d a) (fun x => (activeAround f c x).all (predOf f a)))
    ∧ ∀ d (a : BitVec 4), Ready s w f c (regsD d 1 false 0 f) →
      WritesRegs (.voteBallot d a) s w f c (regsD d 1 false 0 f) (fun _ x => Tri.rep (BitVec.ofNat 32 (ballotOf f c a x)))
      ∧ WritesRegs (.voteCount d a) s w f c (regsD d 1 false 0 f)
        (fun _ x => Tri.rep (BitVec.ofNat 32 ((activeAround f c x).filter (predOf f a)).length))

/-- For every flight and clause about to execute XADD, XMIN, XMAX or XSCAN that nothing holds back, exec answers a
next state in which sibling k of each active thread holds the combination of the copies k of a over the active threads
of its domain (for XSCAN those up to itself); a solo reader takes what sibling 0 combines. That a solo source gives
its copy k is the model's reading (assumption 18). All else stands. (R126, R123) -/
def Obligations.FlightReductions : Prop :=
  ∀ p ∈ reductions, ∀ d a la s w f c, Issuing s w f c → Ready s w f c (regs2 false d a 1 1 la false 0 f) →
    WritesRegs (p.1 d a la) s w f c (regs2 false d a 1 1 la false 0 f) fun _ x => Tri.of fun j =>
      let k := if f.single x then 0 else j
      p.2.2 (((activeAround f c x).filter (fun y => !p.2.1 || decide (y ≤ x))).map
        (fun y => f.readReg (f.regName a.toNat) y k))

/-- For every flight and clause about to execute BRA or CALL, whose taken threads' target lies in the code region,
exec answers a next state in which each active thread stands at H + 4 × offset where it takes the branch and at the
following clause where it does not, and CALL links the following clause into v14:v15 of the taken threads, in every
sibling; a CALL that no thread takes needs and writes no register; no other register, thread or flag changes. (R117) -/
def Obligations.BranchesAndCalls : Prop :=
  ∀ (link : Bool) (p : BitVec 4) (sense : Bool) (off : BitVec 21) s w f c, Issuing s w f c →
    let taken := fun x => p == 15 || xor (predOf f p x) sense
    let links := link && c.act.any taken
    Ready s w f c ⟨[], if links then [14, 15] else [], [], false, 0⟩ →
    let target := BitVec.ofInt 64 (c.addr.toNat + 4 * off.toInt)
    let next := c.addr + BitVec.ofNat 64 (4 * (c.hdr.len + 2))
    ((∃ x ∈ c.act, taken x = true) → InRegion s f target) →
    ∃ t g, exec (if link then .call p sense off else .bra p sense off) s = .next t ∧ mget t.flights w = some g
      ∧ OnwardSigned f g ∧ Quiet s t w
      ∧ (∀ x, x ∈ f.live ∨ x ∉ c.act → Moved (f.thread x) (g.thread x))
      ∧ (∀ x ∈ c.act, x ∈ f.live → (g.thread x).pc = if taken x then target else next)
      ∧ (∀ n, (links = true → n ≠ 14 ∧ n ≠ 15) → mget g.regs n = mget f.regs n)
      ∧ (∀ x ∈ f.live, x < slots f → ¬(link = true ∧ x ∈ c.act ∧ taken x = true) → ∀ n, ∀ k < 3,
          g.readReg n x k = f.readReg n x k)
      ∧ (link = true → ∀ x ∈ c.act, taken x = true → ∀ k < 3,
          g.readReg 14 x k = next.extractLsb' 0 32 ∧ g.readReg 15 x k = next.extractLsb' 32 32)

/-- For every flight and clause about to execute BRX or RET whose targets are multiples of 4 in the code region, exec
answers a next state in which each active thread stands at its majority target, one whose siblings disagree is counted
in dcnt and, where the trap is enabled, masked with the target as its resume point, and a handler-mode thread whose
RET goes to its token gets back its v14:v15 sibling by sibling and is ready at its record's resume point, no longer in
handler mode; all else stands. (R118, R207, R60, R203, R282) -/
def Obligations.IndirectTransfersAndHandlerReturn : Prop :=
  ∀ (ret : Bool) (a : BitVec 7) s w f c, c.act.Nodup → Issuing s w f c →
    let name := if ret then 14 else f.regName a.toNat
    let back := fun x => ret && (f.thread x).handler && (f.thread x).token == (targetFrom f x name).1
    Ready s w f c ⟨[name, name + 1], if c.act.any back then [14, 15] else [], [], false, 0⟩ →
    (∀ x ∈ c.act, (targetFrom f x name).1.toNat % 4 = 0 ∧ InRegion s f (targetFrom f x name).1) →
    let met : Nat → Met := fun x => if (targetFrom f x name).2 then none else some ⟨.D, true, false, 0⟩
    ∃ t g, exec (if ret then .ret else .brx a) s = .next t ∧ mget t.flights w = some g ∧ Quiet s t w
      ∧ OnwardSigned { f with ctl := counted f.ctl 0 (c.act.filterMap met) } g
      ∧ (∀ x, x ∉ c.act → Moved (f.thread x) (g.thread x))
      ∧ (∀ x ∈ c.act, x ∈ f.live → g.thread x =
          if back x then
            { f.thread x with
              st := .ready, handler := false, inst := none, token := 0, hlink := [], pc := (Thread.resumesAt (f.thread x)).1
              fromOp := (Thread.resumesAt (f.thread x)).2.1, fromBody := (Thread.resumesAt (f.thread x)).2.2 }
          else
            let t := { f.thread x with pc := (targetFrom f x name).1, fromOp := 0, fromBody := none }
            match met x with
            | some m => if f.ctl.enabled .D && !t.handler && t.st != .masked then
                t.mask (instRecord c m (some (targetFrom f x name).1)) else t
            | none => t)
      ∧ (∀ n, n ≠ 14 → n ≠ 15 → mget g.regs n = mget f.regs n)
      ∧ (∀ x ∈ f.live, x < slots f → ¬(x ∈ c.act ∧ back x = true) → ∀ n, ∀ k < 3, g.readReg n x k = f.readReg n x k)
      ∧ (∀ x ∈ c.act, x < slots f → back x = true → ∀ k < 3,
          let link := (((f.thread x).hlink)[shown f k]?).getD 0
          g.readReg 14 x k = link.extractLsb' 0 32 ∧ g.readReg 15 x k = link.extractLsb' 32 32)

/-- For every flight and clause about to execute YIELD, NAP, WIN or PYIELD (NAP and PYIELD outside handler mode), exec answers a next
state: YIELD makes the flight wait for others for the 32 cycles after its clause has issued, NAP n makes the active threads nap until 16 ×
n cycles from the start of the clause have passed (NAP 0 none) and stand at the next clause, WIN n sets the window base to 16 × n, and
PYIELD withholds the flight while a request is pending; nothing else changes but where threads go on. (R120, R121, R122, R178) -/
def Obligations.YieldNapWindowAndPyield : Prop :=
  ∀ s w f c, Issuing s w f c → Ready s w f c (regs0 0 f) →
    let gives := fun (i : Instr) thr own more => Does i s w f c (regs0 0 f) (fun _ _ => Tri.rep 0) thr own more
    gives .yield f.thread { f with clause := some { c with yielded := true } } (fun g => match g.clause with
        | none => g.yieldEnd = s.cycAt f.core + 32
        | some k => k.yielded = true ∧ g.yieldEnd = f.yieldEnd)
    ∧ (∀ n : BitVec 5, gives (.win n) f.thread { f with window := 16 * n.toNat } (fun _ => True))
    ∧ ((∀ x ∈ c.act, (f.thread x).handler = false) →
      (∀ n : BitVec 7, gives (.nap n)
        (fun x => if x ∈ c.act then
            { f.thread x with st := if n = 0 then (f.thread x).st else .napping, napEnd := c.began + 16 * n.toNat }
          else f.thread x) f
        (fun g => c.body = none → ∀ x ∈ c.act, x ∈ f.live → (g.thread x).pc = c.after))
      ∧ gives .pyield f.thread { f with pyield := f.pyield || (s.ctxt f.context).deadline.isSome } (fun _ => True))

/-- For every flight and clause about to execute EXIT or TEND, exec answers a next state in which every active thread
is exited and no longer in handler mode and no register of the flight has changed; where no thread of the hall waits
at a barrier, nothing else of the module has changed. (Where the exit completes a waiting generation of R139, its
threads go on as BAR's statement says.) (R119, R167, R139, R206) -/
def Obligations.ExitedThreadsLeaveTheFlight : Prop :=
  ∀ i ∈ [Instr.exit, Instr.tend], ∀ s w f c, Issuing s w f c → Ready s w f c (regs0 0 f) →
    let thr := fun x => if x ∈ c.act then
        { f.thread x with st := .exited, handler := false, inst := none, barred := false }
      else f.thread x
    (∃ t g, exec i s = .next t ∧ mget t.flights w = some g ∧ g.regs = f.regs
      ∧ ∀ x ∈ c.act, x ∈ f.live → (g.thread x).st = .exited ∧ (g.thread x).handler = false)
    ∧ ((∀ q ∈ s.flights, ∀ p ∈ q.2.threads, p.2.barred = false) →
      Does i s w f c (regs0 0 f) (fun _ _ => Tri.rep 0) thr f)

/-- For every flight and clause about to execute LD, when nothing holds it back, every accessed address passes the
checks of R127 and none is a binding slot, no ATOM of the core on those bytes is still out (R239), and with `.acq` the core can pass the
phase boundary, exec answers a next state in which an entry of class I joins the flight
with the three values that R70 to R73 give for each thread, widened as R128 says, read (with `.acq` after Refresh at
the scope of `ctl.ordscope`) from the core's snapshot; the destinations' scoreboard bits and the flag's count are
raised, split addresses meet D, no register has a new value, and no byte of memory changes but table bits a and d. That a plain LD's
values are those of the snapshot at issue is the model's reading (assumption 11). (R127, R128, R130, R133, R70, R71, R72, R73, R76, R77, R281) -/
def Obligations.GlobalLoads : Prop :=
  ∀ (u : Bool) (d base : BitVec 7) (size : MemSize) (order : MemOrder) (off : BitVec 6) s w f c,
    Issuing s w f c → c.act ≠ [] →
    let r : OpRegs := ⟨f.block base.toNat 2, f.block d.toNat size.regs, [], u, 0⟩
    Ready s w f c r → Admitted s w f c →
    let at' := globalAt f base (off.toNat * size.bytes)
    let as := accesses u c at'
    (∀ x ∈ as, Permitted s f true false size.bytes x.addr ∧ bindingSlot s f size x.addr = none) →
    (order = .sync → s.canBound f.core false = true) → (order ≠ .sync → s.atomAhead f.core (loadBytes s f size as) = false) →
    let s0 := if order = .sync then (s.boundary w f none (some f.ctl.ordscope.toNat)).2 else s
    let f0 := (mget s0.flights w).getD f
    let s1 := s0.usePages f0 false (as.map (·.addr))
    Calm s0 →
    ∃ t g vals, exec (.ld u d base size order off) s = .next t ∧ mget t.flights w = some g
      ∧ Issued s0 f0 g c .i 0 c.flag r.srcs r.dsts as (splits u c at') (.load size u r.dsts vals)
      ∧ (∀ x ∈ c.act, mget vals x = some ((List.range 3).map fun k =>
          widened size (loadedAt s1 f0 (computes u c x) size (s1.locate f0 (at' (computes u c x)).1) k)))
      ∧ MarksOnly s0 t ∧ Reached s0 t w f.core ∧ (t.core f.core).pend = (s0.core f.core).pend

/-- For every flight and clause about to execute LD.64 of any order, U = 1 among them, with some accessed address a binding slot, when
nothing holds it back, no atomic of the module is outstanding, every address passes the checks of R127, the banks can record what the
reads place, and the miss table has room, exec answers a next state in which an entry joins the flight. Each slot is read at its home bank
behind the core's own writes of it, and the core's floor of its bytes is that write or later; a thread whose slot is not 0 takes its value
for all siblings; a thread whose slot is 0 is parked behind the slot's key, and the first park in the module on a key announces the miss
and reports code 14 with the address and the slot's number; where none is parked the entry is a load's, and the flight is not frozen. That
the slots are read, and parked, in the issuing step is the model's reading (assumption 11). (R305, R293, R128, R130, R133) -/
def Obligations.BindingLoads : Prop :=
  ∀ (u : Bool) (d base : BitVec 7) (order : MemOrder) (off : BitVec 6) s w f c, Issuing s w f c → c.act ≠ [] → c.act.Nodup →
    let r : OpRegs := ⟨f.block base.toNat 2, f.block d.toNat 2, [], u, 0⟩
    Ready s w f c r → Admitted s w f c →
    let at' := globalAt f base (off.toNat * 8)
    let as := accesses u c at'
    let slot := fun va => bindingSlot s f .b64 va
    (∀ x ∈ as, Permitted s f true false 8 x.addr) → (∃ x ∈ as, slot x.addr ≠ none) →
    (order = .sync → s.canBound f.core false = true) → (order ≠ .sync → s.atomAhead f.core (loadBytes s f .b64 as) = false) →
    let s0 := if order = .sync then (s.boundary w f none (some f.ctl.ordscope.toNat)).2 else s
    let f0 := (mget s0.flights w).getD f
    s0.requests = [] →
    let read := bindReads f0 .b64 as (s0.usePages f0 false (as.map (·.addr)))
    let s2 := read.2.2
    s0.recordedWell s2 = true → bindSettled s2 f0 .b64 as = true → bindRoom s2 f0 read.2.1 = true →
    let value := fun va => s2.numAt (s2.locate f0 va).pa 8
    let waits := as.filter (fun x => (slot x.addr).isSome && value x.addr == 0)
    ∃ t g e, exec (.ld u d base .b64 order off) s = .next t ∧ mget t.flights w = some g
      ∧ g.entries.getLast? = some e ∧ g.entries.length = f0.entries.length + 1 ∧ e.mask = c.act ∧ e.flag = c.flag
      ∧ g.frozen = f0.frozen ∧ g.sb = f0.sb ++ r.dsts ∧ (∀ n x k, g.readReg n x k = f.readReg n x k) ∧ t.mem = s2.mem
      ∧ (∀ x ∈ as, slot x.addr ≠ none → ∀ i < 8, ∀ y ys, t.coOf ((s2.locate f0 x.addr).pa + i) = y :: ys →
          y.stamp ≤ mgetD (t.core f.core).floors ((s2.locate f0 x.addr).pa + i) 0)
      ∧ (∃ vals parked, e.pay = (if waits = [] then .load .b64 u r.dsts vals else .bindLoad r.dsts vals parked)
        ∧ (∀ x ∈ c.act, let va := (at' (computes u c x)).1
          (slot va ≠ none → value va ≠ 0 → mget vals x = some (List.replicate 3 (widened .b64 (value va))))
          ∧ (slot va = none → mget vals x = some ((List.range 3).map fun k =>
              widened .b64 (loadedAt s2 f0 (computes u c x) .b64 (s2.locate f0 va) k))))
        ∧ (∀ x k, mget parked x = some k ↔ ∃ y ∈ waits, y.slot = x ∧ slot y.addr = some k))
      ∧ ∀ x ∈ waits, ∀ k, slot x.addr = some k → let key := MissKey.slot f.context k
        (∃ m, t.missOf (dieOf f.core) key = some m ∧ Parked.bind w e.id x.slot ∈ m.parked)
        ∧ (s.missAnywhere key = false → Out.missing key ∈ t.outputs ∧ ∃ r, Out.fault f.context r ∈ t.outputs
            ∧ faultField r 0 1 = 14 ∧ faultField r 16 8 = x.addr % 2 ^ 64 ∧ faultField r 24 4 = k % 2 ^ 32)

/-- On a plain page, and on a coined page for an access of another width, a thread stores one value: the one that at least two siblings
hold, or where all three differ sibling 0's for 8 and 16 bits and Mean3 for 32 and 64 bits, a 128-bit store word by word, and
in a lane kernel or a solo stretch its own; on a triple page sibling k stores to frame k, and a lane kernel or a solo stretch stores its
value into all three frames; on a coined-32 page a 32-bit store, and on a coined-64 page a 64-bit store, stores the mean of the three
values rounded into the word's upper bits and the digits they share, or the most that the count holds, below (R73). A load gives all
siblings the value on a plain page, copy k on a triple page, and of a coined word the values of R73. That narrow stores compare the cut
bits is the model's reading (assumption 24). (R70, R71, R72, R73, R129) -/
def Obligations.StoredValues : Prop :=
  ∀ (s : State) (f : Flight) (x : Nat) (d : BitVec 7) (size : MemSize),
    let v := storedOf f x d size
    let coined := fun form => form = 2 ∧ size.bytes = 4 ∨ form = 3 ∧ size.bytes = 8
    (∀ form, form ≠ 1 → ¬coined form → storeFrames f x d size form = [(0, plainOf f x d size)])
    ∧ storeFrames f x d size 1 = (List.range 3).map (fun k => (k, if f.single x then v 0 else v k))
    ∧ (∀ form, coined form →
        let wide := decide (form = 3)
        let bits := if wide then 6 else 5
        let most := if wide then 47 else 19
        ∃ m n, storeFrames f x d size form = [(0, m * 2 ^ bits + n)]
          ∧ n = (if f.single x then most else min most (digits (if wide then fp64 else fp32) (v 0) (v 1) (v 2)))
          ∧ m = coinedMean wide (f.single x) (v 0) (v 1) (v 2))
    ∧ ∀ pa page,
        (∀ form, form ≠ 1 → ¬coined form → loadVals s f x size ⟨pa, page, form⟩ =
          List.replicate 3 (widened size (leNat (s.snapRead f.core pa size.bytes))))
        ∧ loadVals s f x size ⟨pa, page, 1⟩ = ((List.range 3).map fun k =>
            widened size (leNat (s.snapRead f.core (pa + (if f.single x then 0 else k) * page) size.bytes)))
        ∧ ∀ form, coined form → loadVals s f x size ⟨pa, page, form⟩ = (List.range 3).map fun k =>
            widened size ((uncoined (decide (form = 3)) (f.single x) (leNat (s.snapRead f.core pa size.bytes))).get k)

/-- For every flight and clause about to execute a plain or `.str` ST, when nothing holds it back, a receipt tag is
free and every accessed address passes the checks of R127, exec answers a next state in which an entry of class T with
the next tag joins the flight, the core's snapshot holds at every byte what the last thread that writes it stores
there and is else as it was, every other core's snapshot is as it was, no byte of memory changes but table bits a and
d, and no register has a new value. (R129, R127, R71, R76, R244, R283, R281) -/
def Obligations.GlobalStores : Prop :=
  ∀ (u : Bool) (d base : BitVec 7) (size : MemSize) (order : MemOrder) (off : BitVec 6) s w f c,
    Issuing s w f c → c.act ≠ [] → order ≠ .sync →
    let r : OpRegs := ⟨inOrder [f.block d.toNat size.regs, f.block base.toNat 2], [], [], u, 0⟩
    Ready s w f c r → Admitted s w f c → s.nextTag f ∉ (s.ctxt f.context).live → f.pubWait = none →
    let at' := globalAt f base (off.toNat * size.bytes)
    let as := accesses u c at'
    (∀ x ∈ as, Permitted s f false true size.bytes x.addr) → Calm s →
    let s1 := s.usePages f true (as.map (·.addr))
    let stored := remaining (writesOf s1 f d size as)
    ∃ t g bytes, exec (.st u d base size order off) s = .next t ∧ mget t.flights w = some g
      ∧ Issued s f g c .t (s.nextTag f) 15 r.srcs [] as (splits u c at') (.store bytes (stUnits s1 f size as))
      ∧ (∀ a, mget bytes a = stored a)
      ∧ (∀ a, t.snap f.core a = (stored a).getD (s1.snap f.core a))
      ∧ (∀ k, k ≠ f.core → ∀ a, t.snap k a = s1.snap k a)
      ∧ MarksOnly s t ∧ Reached s t w f.core

/-- For every flight and clause about to execute ST.rel outside sessions, when nothing holds it back, the core can pass the phase
boundary, its pending writes are ones that it made, the banks can record what the store places, and every accessed address passes the
checks of R127, exec answers a next state. Where the first Publish sends no fabric write, the boundary at the scope of `ctl.ordscope`
is done, an entry of class T joins the flight, the stored bytes stand in memory as the latest writes with the scope's members named,
and of the core's writes none is pending; at scope 4 the store's own fabric writes are sent and its entry waits for them.
Where the first Publish sends fabric writes, the flight holds with the boundary done and waits for them; when it issues again after
their acknowledgements, the core's atomics are performed before the store is made and published. (R130, R230, R232, R129, R229) -/
def Obligations.ReleasingStores : Prop :=
  ∀ (u : Bool) (d base : BitVec 7) (size : MemSize) (off : BitVec 6) s w f c,
    Issuing s w f c → c.act ≠ [] → (∀ q ∈ s.sessions, q.2.running = false) → memWf s.mem = true → OwnPending s f.core →
    let r : OpRegs := ⟨inOrder [f.block d.toNat size.regs, f.block base.toNat 2], [], [], u, 0⟩
    Ready s w f c r → Admitted s w f c → s.nextTag f ∉ (s.ctxt f.context).live →
    let at' := globalAt f base (off.toNat * size.bytes)
    let as := accesses u c at'
    (∀ x ∈ as, Permitted s f false true size.bytes x.addr) → s.canBound f.core true = true →
    let sc := f.ctl.ordscope.toNat
    let first := s.boundary w f (some sc) none
    let made := fun (s0 : State) (f0 : Flight) =>
      let s1 := s0.usePages f0 true (as.map (·.addr))
      let stored := remaining (writesOf s1 f0 d size as)
      ∃ t g e old, exec (.st u d base size .sync off) s = .next t ∧ mget t.flights w = some g
        ∧ g.entries = old ++ [e] ∧ Kept f0.entries old ∧ e.cls = .t ∧ e.tag = s0.nextTag f0 ∧ e.mask = c.act ∧ e.acked = false
        ∧ (∃ bytes, e.pay = .store bytes (stUnits s1 f0 size as) ∧ ∀ a, mget bytes a = stored a)
        ∧ (sc ≠ 4 ∨ s0.fabricUp = false → Issued s0 f0 g c .t (s0.nextTag f0) 15 r.srcs [] as (splits u c at') e.pay)
        ∧ (∀ i ∈ e.sent, ∃ x, mget t.fabricOut i = some x ∧ x.core = f.core)
        ∧ g.pubWait = none ∧ g.regs = f.regs
        ∧ (∀ a v, stored a = some v → memGet t.mem a = v
            ∧ ∃ x xs, t.coOf a = x :: xs ∧ x.val = v ∧
              ∀ k, (members (s0.scopesOf f0.gallery) sc f.core).testBit k = true → (mgetD x.seen f.core 0).testBit k = true)
        ∧ (∀ a, stored a = none → mget (s0.core f.core).pend a = none → memGet t.mem a &&& 0xF3#8 = memGet s0.mem a &&& 0xF3#8)
        ∧ (∀ a, mget (t.core f.core).pend a = none)
    (f.pubWait = none →
      (first.1 = [] → let s0 := first.2
        let f0 := (mget s0.flights w).getD f
        s0.requests = [] → s0.recordedWell (issueStore s0 w f0 c r d size .sync as) = true → made s0 f0)
      ∧ (first.1 ≠ [] → ∃ g, mget first.2.flights w = some g ∧ exec (.st u d base size .sync off) s =
          .next (first.2.setFlight w { g with pubWait := some first.1, stall := some .memory })
        ∧ ∀ i ∈ first.1, ∃ x, mget first.2.fabricOut i = some x ∧ x.core = f.core))
    ∧ (f.pubWait ≠ none →
      let s0 := (s.setFlight w { f with pubWait := none }).performAll f.core
      let f0 := (mget s0.flights w).getD f
      s0.requests = [] → s0.recordedWell (issueStore s0 w f0 c r d size .sync as) = true → OwnPending s0 f.core → memWf s0.mem = true →
      made s0 f0)

/-- For every flight and clause about to execute LDS or STS, when nothing holds it back, every accessed offset is a multiple of the size
and lies within the store, and no outstanding interval and no ATOMS of the flight on those bytes or of an active thread is in the way,
exec answers a next state: LDS takes the window's current bytes for all siblings; STS changes exactly the bytes of its threads to what the
last of them stores, each thread's value as on a plain page. Memory and registers keep their values. That LDS reads and STS is performed
in the issuing step is the model's reading (assumptions 11 and 29), as is that narrow stores compare the cut bits (assumption 24). (R131) -/
def Obligations.ClusterStoreAccess : Prop :=
  ∀ (u : Bool) (d base : BitVec 7) (size : MemSize) (off : BitVec 6) s w f c win z,
    Issuing s w f c → c.act ≠ [] → f.entries.length < 128 → f.win = some win → mget s.windows win = some z →
    let at' := offsetAt f base (off.toNat * size.bytes)
    let as := accesses u c at'
    let at1 := as.map (fun x => (x.addr, x.addr + size.bytes))
    (∀ x ∈ as, x.addr % size.bytes = 0 ∧ x.addr + size.bytes ≤ f.winSize) → s.atomsAhead w c.act at1 = false →
    (let r : OpRegs := ⟨[f.regName base.toNat], f.block d.toNat size.regs, [], u, 0⟩
     Ready s w f c r → s.storeBusy win false at1 = false →
      ∃ t g vals, exec (.lds u d base size off) s = .next t ∧ mget t.flights w = some g
        ∧ Issued s f g c .i 0 c.flag r.srcs r.dsts as (splits u c at') (.load size u r.dsts vals)
        ∧ (∀ x ∈ c.act, mget vals x = some (List.replicate 3
            (widened size (leNat (memRead z.bytes (at' (computes u c x)).1 size.bytes)))))
        ∧ t.mem = s.mem ∧ Reached s t w f.core)
    ∧ (let r : OpRegs := ⟨inOrder [f.block d.toNat size.regs, [f.regName base.toNat]], [], [], u, 0⟩
       Ready s w f c r → s.storeBusy win true at1 = false → s.nextTag f ∉ (s.ctxt f.context).live →
       (∀ q ∈ s.flights, ∀ p ∈ q.2.threads, p.2.awaiting = none) → memWf z.bytes = true →
       let stored := remaining (as.flatMap fun x => bytesAt x.addr size.bytes (plainOf f x.slot d size))
       ∃ t g z', exec (.sts u d base size off) s = .next t ∧ mget t.flights w = some g
        ∧ Issued s f g c .t (s.nextTag f) 15 r.srcs [] as (splits u c at') .sts
        ∧ mget t.windows win = some z' ∧ z' = { z with bytes := z'.bytes }
        ∧ (∀ a, memGet z'.bytes a = (stored a).getD (memGet z.bytes a))
        ∧ (∀ v, v ≠ win → mget t.windows v = mget s.windows v)
        ∧ t.mem = s.mem ∧ Reached { s with windows := t.windows } t w f.core)

/-- For every flight and clause about to execute LDC, when nothing holds it back, every accessed offset is a multiple
of the size and lies below 0x1_0000 within the descriptor's args bytes or from there within its constsize bytes, exec
answers a next state in which an entry of class I joins the flight with one value for all siblings, each byte of which
is one that the byte's physical address held when the launch was accepted or has held since; memory and registers keep
their values. That a write not yet placed in coherence order is no value held since is the model's choice (assumption
106, DESIGN CHOICE). (R132, R225, R45) -/
def Obligations.ConstantLoads : Prop :=
  ∀ (u : Bool) (d base : BitVec 7) (size : MemSize) (off : BitVec 6) s w f c g,
    Issuing s w f c → c.act ≠ [] → f.entries.length < 128 → mget s.galleries f.gallery = some g →
    let r : OpRegs := ⟨[f.regName base.toNat], f.block d.toNat size.regs, [], u, 0⟩
    Ready s w f c r →
    let at' := offsetAt f base (off.toNat * size.bytes)
    let as := accesses u c at'
    (∀ x ∈ as, x.addr % size.bytes = 0 ∧
      if x.addr < 0x10000 then x.addr + size.bytes ≤ g.desc.args else x.addr - 0x10000 + size.bytes ≤ g.desc.constsize) →
    ∃ t h vals, exec (.ldc u d base size off) s = .next t ∧ mget t.flights w = some h
      ∧ Issued s f h c .i 0 c.flag r.srcs r.dsts as (splits u c at') (.load size u r.dsts vals)
      ∧ (∀ x ∈ c.act, ∃ bs : List Byte, bs.length = size.bytes ∧ mget vals x = some (List.replicate 3 (widened size (leNat bs)))
        ∧ ∀ (i pa : Nat), (constantAt g (at' (computes u c x)).1 size.bytes)[i]? = some pa →
            s.sinceValues pa g.accepted ≠ [] → ∃ b ∈ s.sinceValues pa g.accepted, bs[i]? = some b)
      ∧ t.mem = s.mem ∧ Reached { s with free := t.free } t w f.core

/-- For every flight and clause about to execute ATOM, POST or ATOMS, when nothing holds it back and every address
passes its checks, exec answers a next state in which an entry joins the flight with one request for each active
thread, at the thread's address with the operand that R134 takes from its siblings; ATOM and ATOMS await their
destinations and count under the clause's flag, POST counts under none; nothing is performed yet: no register has a
new value, no byte of the store changes, and none of memory but table bits a and d. (R134, R135, R127, R76, R244,
R281, R283) -/
def Obligations.AtomicsIssue : Prop :=
  ∀ (aop : AtomOp) (use : AtomUse) (d a : BitVec 7) (off : BitVec 5) s w f c, Issuing s w f c → c.act ≠ [] →
    let names := f.block d.toNat (atomWidth aop use)
    let dests := names.take (aop.bytes / 4) ++ (if use = .spec then names.drop aop.regs else [])
    (∀ post : Bool,
      let r : OpRegs := ⟨inOrder [names.take aop.regs, f.block a.toNat 2], if post then [] else dests, [], false, 0⟩
      let at' := globalAt f a (off.toNat * aop.bytes)
      let as := accesses false c at'
      Ready s w f c r → Admitted s w f c → s.nextTag f ∉ (s.ctxt f.context).live → Calm s →
      (∀ x ∈ as, Permitted s f true true aop.bytes x.addr) →
      ∃ t g, exec (if post then .post aop use d a off else .atom aop use d a off) s = .next t ∧ mget t.flights w = some g
        ∧ Issued s f g c .t (s.nextTag f) (if post then 15 else c.flag) r.srcs r.dsts as (splits false c at')
            (.atom post aop use r.dsts (requestsOf f c d aop (fun x => (s.locate f (at' x).1).pa)))
        ∧ MarksOnly s t ∧ Reached s t w f.core)
    ∧ (let r : OpRegs := ⟨inOrder [names.take aop.regs, [f.regName a.toNat]], dests, [], false, 0⟩
      let at' := offsetAt f a (off.toNat * aop.bytes)
      let as := accesses false c at'
      Ready s w f c r → f.entries.length < 128 →
      (∀ x ∈ as, x.addr % aop.bytes = 0 ∧ x.addr + aop.bytes ≤ f.winSize) →
      s.storeBusy (f.win.getD 0) true (as.map (fun x => (x.addr, x.addr + aop.bytes))) = false →
      ∃ t g, exec (.atoms aop use d a off) s = .next t ∧ mget t.flights w = some g
        ∧ Issued s f g c .t 0 c.flag r.srcs r.dsts as (splits false c at')
            (.atoms aop use r.dsts (f.win.getD 0) (requestsOf f c d aop (fun x => (at' x).1)))
        ∧ t.mem = s.mem ∧ Reached s t w f.core)

/-- For every flight of a gallery and clause about to execute SRD, SWR, TIME or PREQ that nothing holds back, exec
answers a next state: SRD writes into d of each active thread, sibling by sibling, what R171 to R173 give for the
register; SWR gives the control register the lowest active thread's value by majority, read-only fields and reserved
bits ignored; TIME writes the count of nanoseconds; PREQ writes 0, or where a request is pending the nanoseconds left,
at least 1 and at most 2^32 - 1. Nothing else changes. That a solo thread in handler mode reads its three link copies at 0x26 and 0x27
is the model's choice (assumption 81). (R62, R130, R170, R171, R172, R173, R176, R177, R209, R301) -/
def Obligations.SystemRegisters : Prop :=
  ∀ s w f c, Issuing s w f c → c.act ≠ [] →
    (∀ (d : BitVec 7) g, mget s.galleries f.gallery = some g → Ready s w f c (regsD d 1 false 0 f) →
      (∀ (num : Nat) (hall task : Nat → Nat), (∀ x ∈ c.act, (num, hall x, task x) ∈ placeRegisters s f g x) →
        WritesRegs (.srd d (BitVec.ofNat 14 num)) s w f c (regsD d 1 false 0 f)
          (fun _ x => Tri.rep (BitVec.ofNat 32 (if f.task.isSome then task x else hall x))))
      ∧ ∀ (num : Nat) (val : Nat → Nat → Nat), (∀ x ∈ c.act, ∀ k < 3, (num, val x k) ∈ otherRegisters s f g c x k) →
        WritesRegs (.srd d (BitVec.ofNat 14 num)) s w f c (regsD d 1 false 0 f)
          (fun _ x => Tri.of fun k => BitVec.ofNat 32 (val x k)))
    ∧ (∀ d : BitVec 7, Ready s w f c (regsS [(d, 1)] [] false 0 f) →
      ∀ p ∈ writtenControl f.narrow f.ctl (majorityOf (f.opnd (lowest c) d)),
        Does (.swr d (BitVec.ofNat 14 p.1)) s w f c (regsS [(d, 1)] [] false 0 f) (fun _ _ => Tri.rep 0) f.thread
          { f with ctl := p.2 })
    ∧ (∀ d : BitVec 7, Ready s w f c (regsD d 2 false 0 f) →
      WritesRegs (.time d) s w f c (regsD d 2 false 0 f)
        (fun j _ => Tri.rep (BitVec.ofNat 32 (s.time % 2 ^ 64 / 2 ^ (32 * j)))))
    ∧ (∀ d : BitVec 7, Ready s w f c (regsD d 1 false 0 f) →
      WritesRegs (.preq d) s w f c (regsD d 1 false 0 f) fun _ _ => Tri.rep (BitVec.ofNat 32 (
        match (s.ctxt f.context).deadline with
        | none => 0
        | some t => if t ≤ s.time then 1 else if t - s.time < 2 ^ 32 then t - s.time else 2 ^ 32 - 1)))

/-- For every flight and clause about to execute MCALL, TRC or IPF that nothing holds back, exec answers a next state:
MCALL of a valid macro of its gallery's table makes its body, parameters replaced, run next for the clause's threads; TRC
without tracing has no effect, and with it offers one record for each active thread, with sibling 0's value and the split mark, a record
that finds 1,024 queued being lost, which a lost record at its place tells; IPF changes nothing that a program can read. The lost record's
place is the model's reading (assumption 92), as is that a prefetch evicts no line (assumption 35). (R36, R37, R38, R169,
R175, R179, R320, R325) -/
def Obligations.MacrosTraceAndPrefetch : Prop :=
  ∀ s w f c, Issuing s w f c → c.act ≠ [] →
    (∀ (mac : BitVec 6) (p0 p1 : BitVec 7) (p2 : BitVec 6) store gl ws, Ready s w f c (regs0 0 f) → c.body = none → ws ≠ [] →
      (s.core f.core).store = some store → mget s.galleries f.gallery = some gl → store.context = f.context →
      store.addr = gl.desc.macros → mget store.macros mac.toNat = some ws →
      (∀ x ∈ c.group, (f.thread x).fromBody = none) →
      Does (.mcall mac p0 p1 p2) s w f c (regs0 0 f) (fun _ _ => Tri.rep 0) f.thread f fun g =>
        ∃ hint, g.body = some ⟨Clause.macroBody p0.toNat p1.toNat p2.toNat 0 ws, 0, c.group, [], c.word, hint⟩)
    ∧ (∀ (a kind : BitVec 7), let r := regsS [(a, 1)] [] false 0 f
      Ready s w f c r →
      let die := dieOf f.core
      let tr := (s.die die).trace
      let recs := c.act.map fun x =>
        let v := f.opnd x a
        let n := s.naming f (f.thread x).hidx
        (⟨s.time, f.core, f.quarter, f.slot, (f.thread x).hidx,
          kind.toNat * 2 ^ 24 + (if v.x0 = v.x1 ∧ v.x1 = v.x2 then 0 else 2 ^ 31), n.1, n.2, v.x0.toNat, false⟩ : TraceRec)
      ((tr.flags.testBit 0 = false ∨ tr.context ≠ f.context) → WritesRegs (.trc a kind) s w f c r fun _ _ => Tri.rep 0)
      ∧ (tr.flags.testBit 0 = true → tr.context = f.context → ∃ t g, exec (.trc a kind) s = .next t
        ∧ mget t.flights w = some g ∧ Onward f g ∧ g.regs = f.regs ∧ (∀ x, Moved (f.thread x) (g.thread x))
        ∧ Quiet { s with dies := t.dies } t w ∧ (∀ d, d ≠ die → t.die d = s.die d)
        ∧ (t.die die) = { s.die die with trace := (t.die die).trace }
        ∧ (let kept := recs.take (1024 - tr.queued)
           let gone := recs.drop (1024 - tr.queued)
           (t.die die).trace = { tr with
             queue := gone.foldl (fun q x => insertLost x q) (kept.foldl (fun q x => insertRec x q) tr.queue)
             lostTotal := tr.lostTotal + gone.length })))
    ∧ ∀ a : BitVec 7, Ready s w f c (regsS [(a, 2)] [] false 0 f) → ∃ t g, exec (.ipf a) s = .next t
      ∧ mget t.flights w = some g ∧ Onward f g ∧ g.regs = f.regs ∧ (∀ x, Moved (f.thread x) (g.thread x))
      ∧ Quiet { s with clusters := t.clusters, free := t.free } t w
      ∧ ∀ k, t.cluster k = { s.cluster k with icache := (t.cluster k).icache }
          ∧ ∀ l ∈ (s.cluster k).icache, l ∈ (t.cluster k).icache

/-- For every flight and clause about to execute such an operation outside macro bodies, when nothing holds it back, exec answers the next
state in which the trap is taken: the flight is frozen and else as it was, and the fault record of R287 (code, operation, word, clause,
address, number, place, operand values, threads) is in the context's fault ring. That BRX and RET test alignment before the code region
and count no D where they trap is the model's choice (assumption 83). (R174, R286, R287, R188, R38, R206, R118, R282) -/
def Obligations.TrapsFreezeTheFlight : Prop :=
  ∀ s w f c, Issuing s w f c → c.act ≠ [] → c.body = none →
    (Ready s w f c (regs0 0 f) →
      (∀ n : BitVec 7, Traps (.trap n) s w f c .trap 0 0 n.toNat [] c.act ∧ Traps (.bkpt n) s w f c .bkpt 0 0 n.toNat [] c.act)
      ∧ (∀ (mac : BitVec 6) (p0 p1 : BitVec 7) (p2 : BitVec 6),
        (∀ k gl, (s.core f.core).store = some k → mget s.galleries f.gallery = some gl → k.context = f.context →
          k.addr = gl.desc.macros → mget k.macros mac.toNat = none) →
        Traps (.mcall mac p0 p1 p2) s w f c .macroFault 0 0 0 [] c.act)
      ∧ ((∃ x ∈ c.act, (f.thread x).handler = true) → ∀ n : BitVec 7,
        ∀ i ∈ [Instr.nap n, .pyield, .bar], Traps i s w f c .permission 0 0 0 [] c.act))
    ∧ ((∃ x ∈ c.act, (f.thread x).handler = true) → ∀ (scope : BitVec 5) (a b : BitVec 7),
      (Ready s w f c (regsS [(a, 1), (b, 1)] [] false 0 f) →
        Traps (.await a b) s w f c .permission 0 0 0 [f.regName a.toNat, f.regName b.toNat] c.act)
      ∧ (Ready s w f c (regsS [(a, 2), (b, 1)] [] false 0 f) →
        Traps (.waitge scope a b) s w f c .permission 0 0 0
          [f.regName a.toNat, f.regName b.toNat, f.regName (a.toNat + 1)] c.act))
    ∧ (∀ (ret : Bool) (a : BitVec 7),
      let name := if ret then 14 else f.regName a.toNat
      let traps := Traps (if ret then .ret else .brx a) s w f c
      let bad := c.act.filter (fun x => (targetFrom f x name).1.toNat % 4 ≠ 0)
      let out := c.act.filter (fun x => !(s.inRegion f (targetFrom f x name).1.toNat))
      let back := fun x => ret && (f.thread x).handler && (f.thread x).token == (targetFrom f x name).1
      Ready s w f c ⟨[name, name + 1], if c.act.any back then [14, 15] else [], [], false, 0⟩ →
      (∀ x ∈ bad.head?, traps .misaligned 0 (targetFrom f x name).1.toNat 0 [name, name + 1] bad)
      ∧ (bad = [] → ∀ x ∈ out.head?, traps .permission 0 (targetFrom f x name).1.toNat 0 [name, name + 1] out))
    ∧ ∀ (link : Bool) (p : BitVec 4) (sense : Bool) (off : BitVec 21),
      let taken := c.act.filter (fun x => p == 15 || xor (predOf f p x) sense)
      let target := BitVec.ofInt 64 (c.addr.toNat + 4 * off.toInt)
      Ready s w f c ⟨[], if link then [14, 15] else [], [], false, 0⟩ → taken ≠ [] → ¬InRegion s f target →
      Traps (if link then .call p sense off else .bra p sense off) s w f c .permission 0 target.toNat 0 [] taken

/-- For every flight and clause about to execute LD, ST, ATOM or POST outside macro bodies whose threads fail checks of R127, and which
the permission count lets issue, exec answers the next state in which nothing of the access is done and the trap is the check that comes
first in R127's order among the threads' failures, naming every thread that fails it and the lowest one's address; a missing translation
whose key is not yet missed also takes an entry of the miss table, one already missed parks the flight without a new fault, and with a
full table the flight holds. LDS, STS, ATOMS and ARRIVE trap likewise for alignment and then for the store's size. A flight that the
permission count holds back makes no check and holds with the reason throttle. That a non-canonical address has no key to wait behind is
the model's reading (assumption 23), as is that the checks of registers come before the throttle's hold (assumption 43). (R127, R131,
R134, R265, R286, R287, R293, R294) -/
def Obligations.AccessChecksInOrder : Prop :=
  ∀ s w f c, Issuing s w f c → c.act ≠ [] → c.body = none →
    let global := fun (i : Instr) (u : Bool) (base : BitVec 7) (off size : Nat) (rd wr : Bool) (r : OpRegs) =>
      Ready s w f c r →
      let as := accesses u c (globalAt f base off)
      (s.throttled w f c = true → exec i s = .next (s.setFlight w { f with stall := some .throttle })) ∧
      (s.throttled w f c = false →
      let fails := as.filterMap (fun x => (firstFailing s f rd wr size x.addr).map (fun y => (x, y)))
      ∀ rank, (∀ p ∈ fails, rank ≤ p.2.1) → ∀ x y rest, fails.filter (fun p => p.2.1 == rank) = (x, y) :: rest →
      let threads := x.slot :: rest.map (fun p => p.1.slot)
      let die := dieOf f.core
      match y.2.2.2 with
      | none => Traps i s w f c y.2.1 y.2.2.1 x.addr 0 r.srcs threads
      | some key =>
        ∃ t, exec i s = .next t ∧ t.mem = s.mem ∧ (∀ v, v ≠ w → mget t.flights v = mget s.flights v) ∧
        if (s.missOf die key).isNone ∧ 512 ≤ (s.die die).miss.length then t = s.setFlight w { f with stall := some .memory }
        else ∃ r', Tells r' f c y.2.1.num y.2.2.1 x.addr 0 r.srcs threads
          ∧ mget t.flights w = some { f with frozen := some ⟨y.2.1, c.next, r', none⟩, stall := none }
          ∧ match s.missOf die key with
            | some m => (t.missOf die key).map (·.parked) = some (m.parked ++ [.flight w r'])
              ∧ t.outputs = s.outputs ∧ t.ctxt f.context = s.ctxt f.context
            | none => (t.missOf die key).map (·.parked) = some [.flight w []]
              ∧ t.outputs = .missing key :: .fault f.context r' :: s.outputs
              ∧ (t.ctxt f.context).faults = (s.ctxt f.context).faults ++ [r'])
    let local' := fun (i : Instr) (u : Bool) (base : BitVec 7) (off size : Nat) (r : OpRegs) =>
      Ready s w f c r →
      let as := accesses u c (offsetAt f base off)
      let odd := as.filter (fun x => x.addr % size ≠ 0)
      let beyond := as.filter (fun x => x.addr % size = 0 ∧ f.winSize < x.addr + size)
      (∀ x ∈ odd.head?, Traps i s w f c .misaligned 0 x.addr 0 r.srcs (odd.map (·.slot)))
      ∧ (odd = [] → ∀ x ∈ beyond.head?, Traps i s w f c .permission 0 x.addr 0 r.srcs (beyond.map (·.slot)))
    (∀ (u : Bool) (d base : BitVec 7) (size : MemSize) (order : MemOrder) (off : BitVec 6),
      let n := size.bytes
      global (.ld u d base size order off) u base (off.toNat * n) n true false
        ⟨f.block base.toNat 2, f.block d.toNat size.regs, [], u, 0⟩
      ∧ global (.st u d base size order off) u base (off.toNat * n) n false true
        ⟨inOrder [f.block d.toNat size.regs, f.block base.toNat 2], [], [], u, 0⟩
      ∧ local' (.lds u d base size off) u base (off.toNat * n) n ⟨[f.regName base.toNat], f.block d.toNat size.regs, [], u, 0⟩
      ∧ local' (.sts u d base size off) u base (off.toNat * n) n
        ⟨inOrder [f.block d.toNat size.regs, [f.regName base.toNat]], [], [], u, 0⟩)
    ∧ (∀ (aop : AtomOp) (use : AtomUse) (d a : BitVec 7) (off : BitVec 5),
      let names := f.block d.toNat (atomWidth aop use)
      let dests := names.take (aop.bytes / 4) ++ (if use = .spec then names.drop aop.regs else [])
      let reads := inOrder [names.take aop.regs, f.block a.toNat 2]
      global (.atom aop use d a off) false a (off.toNat * aop.bytes) aop.bytes true true ⟨reads, dests, [], false, 0⟩
      ∧ global (.post aop use d a off) false a (off.toNat * aop.bytes) aop.bytes true true ⟨reads, [], [], false, 0⟩
      ∧ local' (.atoms aop use d a off) false a (off.toNat * aop.bytes) aop.bytes
        ⟨inOrder [names.take aop.regs, [f.regName a.toNat]], dests, [], false, 0⟩)
    ∧ ∀ a : BitVec 7, local' (.arrive a) false a 0 4 (regsS [(a, 1)] [] false 0 f)

/-- For every frozen flight whose hall has no whole generation waiting, FLIGHT_RESUME answers a next state. Resumed at the operation, the
flight is no longer frozen, and it and its clause are else as they were; resumed past it, the next operation
index with an active thread is next, or else the clause is over and its threads stand after it; past an illegal clause its threads stand
after that clause; the threads of an instability report stand ready at their resume points; and after a breakpoint the clause's next start
does not meet it again. Entries to be issued again then are, up to the next T entry: a K entry with its scoreboard entry held, a load
reading anew, or trapping at that entry; past an entry that trapped, the operation is over. A flight frozen by a late fault goes on where it
stood, however it is asked (DEDUCED, log 54). CONTEXT_END answers a next state in which the context's
flights, requests and saved part are gone and its galleries end with status 7, while memory and every other context's
flights stand. (R289, R174, R205, R288) -/
def Obligations.ReturnFromTraps : Prop :=
  (∀ s w f z, mget s.flights w = some f → f.frozen = some z → z.entry = none →
    (∀ e, f.entries.find? (·.replay) = some e → e.cls = .t) → (s.hallArrived w f = 0 ∨ s.hallArrived w f ≠ s.hallLive w f) →
    let gives := fun (how : ResumeHow) (P : Flight → Prop) => ∃ t g, exec (.flightResume w how) s = .next t
      ∧ mget t.flights w = some g ∧ P g ∧ t = { s with flights := t.flights }
      ∧ ∀ v, v ≠ w → mget t.flights v = (mget s.flights v).map (fun h => { h with stall := none })
    (z.code = .bkpt → z.op = 0 → f.clause = none → ∀ how, gives how (fun g => g = { f with
      frozen := none, stall := none, bpSkip := (faultField z.report 24 4 - 0x80, faultField z.report 8 8) :: f.bpSkip }))
    ∧ (z.code = .illegal → f.clause = none → gives .next (fun g =>
        let pc := faultField z.report 8 8
        let h := Clause.header (leNat (memRead s.mem (s.locate f pc).pa 4))
        g = { f with frozen := none, stall := none, threads := g.threads }
        ∧ ∀ x, g.thread x = if x ∈ f.choice ∧ (f.thread x).pc.toNat = pc then
            { f.thread x with pc := BitVec.ofNat 64 (pc + 4 * (h.len + 2)), fromOp := 0, fromBody := none }
          else f.thread x))
    ∧ (¬(z.code = .bkpt ∧ z.op = 0) → (z.code ∉ [.instC, .instD, .instZ] → gives .retry (fun g => g = { f with frozen := none, stall := none }))
    ∧ (∀ how, z.code = .late → gives how (fun g => g = { f with frozen := none, stall := none }))
    ∧ (z.code ∉ [.instC, .instD, .instZ, .late] → ∀ c, f.clause = some c → gives .next (fun g =>
        Onward { f with frozen := none } g ∧ g.regs = f.regs ∧ (∀ x, Moved (f.thread x) (g.thread x))
        ∧ (∀ n, c.next < n → n ≤ c.words.length → c.activeAt n ≠ [] → (∀ m, c.next < m → m < n → c.activeAt m = []) →
            g.clause = some { c with next := n })
        ∧ ((∀ n, c.next < n → n ≤ c.words.length → c.activeAt n = []) → g.clause = none
          ∧ (f.body = none → ∀ x ∈ c.group, x ∉ c.moved → x ∈ f.live → (g.thread x).pc = c.after))))
    ∧ (z.code ∈ [.instC, .instD, .instZ] → ∀ how, gives how (fun g =>
        g = { f with frozen := none, stall := none, threads := g.threads }
        ∧ ∀ x, g.thread x =
          match (f.thread x).st, (f.thread x).inst, (f.thread x).handler with
          | .masked, some r, false =>
            { f.thread x with st := .ready, pc := r.resumePc, fromOp := r.resumeOp, fromBody := r.resumeBody, inst := none }
          | _, _, _ => f.thread x))))
  ∧ (∀ s w f z e, mget s.flights w = some f → f.frozen = some z → z.code ∉ [.instC, .instD, .instZ] → ¬(z.code = .bkpt ∧ z.op = 0) →
    f.entry? e.id = some e → (f.entries.map (·.id)).Nodup → (s.hallArrived w f = 0 ∨ s.hallArrived w f ≠ s.hallLive w f) →
    let gives := fun (how : ResumeHow) (P : State → Flight → Prop) => ∃ t g, exec (.flightResume w how) s = .next t
      ∧ mget t.flights w = some g ∧ P t g ∧ t.mem = s.mem ∧ t.windows = s.windows
      ∧ ∀ v, v ≠ w → mget t.flights v = (mget s.flights v).map (fun h => { h with stall := none })
    (f.entries.find? (·.replay) = some e → (∀ x ∈ f.entries, x.replay = true → x.id = e.id) → s.hallHeld f = true →
      z.entry = none ∨ z.entry = some e.id →
      let again := fun (pay : Payload) => { f with
        frozen := none, stall := none
        entries := f.entries.map (fun x => if x.id = e.id then { e with pay := pay, replay := false, issued := s.cycAt f.core } else x) }
      (e.cls = .k → matrixEntry e = false → gives .retry (fun _ g => g = again e.pay))
      ∧ (∀ uni d b size off dests vals win y, e.cls = .i → decodeWord e.word = .ok (.lds uni d b size off) → e.pay = .load size uni dests vals →
        f.win = some win → mget s.windows win = some y → e.fixed = [] → e.addrs ≠ [] →
        s.againBusy win (e.addrs.map (fun p => (p.2, p.2 + size.bytes))) = false →
        s.atomsAhead w e.mask (e.addrs.map (fun p => (p.2, p.2 + size.bytes))) = false →
        let at' := fun (a : Nat) => List.replicate 3 (widened size (leNat (memRead y.bytes a size.bytes)))
        gives .retry (fun _ g => g = again (.load size uni dests
          (if uni = true then e.mask.map (fun i => (i, at' ((e.addrs.head?.map (·.2)).getD 0))) else e.addrs.map (fun p => (p.1, at' p.2))))))
      ∧ ∀ uni d b size order off x va rank code cause, e.cls = .i → decodeWord e.word = .ok (.ld uni d b size order off) →
        e.addrs = [(x, va)] → va < 2 ^ 64 → firstFailing s f true false size.bytes va = some (rank, code, cause, none) →
        gives .retry (fun t g => ∃ r, g = { f with
            frozen := some ⟨code, (if e.body = none then e.op else 1), r, some e.id⟩, stall := none }
          ∧ (t.ctxt f.context).faults = (s.ctxt f.context).faults ++ [r] ∧ faultField r 0 1 = code.num ∧ faultField r 1 1 = cause
          ∧ faultField r 16 8 = va ∧ (e.body = none → faultField r 2 1 = e.op % 256)))
    ∧ (z.entry = some e.id → e.cls ≠ .b → (∀ x ∈ f.entries, x.id ≠ e.id → x.replay = false) → gives .next (fun _ g =>
        g = { f with
          frozen := none, stall := none, entries := f.entries.filter (fun x => x.id != e.id)
          sb := f.sb.filter (fun n => !((entryDests e).contains n)), flags := g.flags, lowered := g.lowered }
        ∧ ∀ k, g.flagCount k = if k = e.flag ∧ k ≠ 15 then f.flagCount k - 1 else f.flagCount k)))
  ∧ ∀ s k, msorted s.flights = true → ∃ t, exec (.contextEnd k) s = .next t ∧ t.mem = s.mem
    ∧ (∀ p ∈ t.flights, p.2.context ≠ k)
    ∧ (∀ w f, mget s.flights w = some f → f.context ≠ k → (f.entries.map (·.id)).Nodup → ∃ g, mget t.flights w = some g
        ∧ SameEntries f.entries g.entries ∧ g = { f with entries := g.entries, stall := none })
    ∧ (t.ctxt k).saved = none ∧ (t.ctxt k).deadline = none ∧ (t.ctxt k).live = []
    ∧ ∀ g, mget t.galleries g = (mget s.galleries g).map (fun x => if x.context = k then { x with ended := some 7 } else x)

/-- For every flight and clause about to execute PHASE, when nothing holds it back and the core's pending writes are ones that it made,
exec answers a next state. Where its Publish sends no fabric write, the core's writes are all published to the members of the scope,
its snapshot then rises to the newest write that a member has published to it, and registers, memory after the publication, and every
other core's snapshot are left alone. At scope 4, where the Publish sends fabric writes, the flight holds with the
publication done until each of them is acknowledged, and then performs the Refresh alone. (R138, R230, R232, R229) -/
def Obligations.PhasesPublishAndRefresh : Prop :=
  ∀ (scope : BitVec 5) s w f c, Issuing s w f c → Ready s w f c (regs0 0 f) → msorted s.co = true → OwnPending s f.core →
    let set := members (s.scopesOf f.gallery) scope.toNat f.core
    let first := s.boundary w f (some scope.toNat) none
    let refreshes := fun (s0 : State) (f0 : Flight) => ∃ t g, exec (.phase scope) s = .next t ∧ mget t.flights w = some g
      ∧ Refreshed s0 t f.core set
      ∧ Onward { f0 with pubWait := none } g ∧ g.regs = f.regs ∧ (∀ x, Moved (f0.thread x) (g.thread x)) ∧ t.mem = s0.mem
      ∧ t = { s0 with flights := t.flights, cores := t.cores } ∧ OnlyOccupied s0 t f
      ∧ ∀ k, t.core k = { s0.core k with
          cntV := (t.core k).cntV, quarters := (t.core k).quarters
          floors := if k = f.core then (t.core k).floors else (s0.core k).floors }
    (s.answered f = false → exec (.phase scope) s = .next (s.setFlight w { f with stall := some .memory }))
    ∧ (s.answered f = true → f.pubWait = none → s.canBound f.core true = true →
      Published (s.boundaryStep w f (some scope.toNat) none).2 f.core set
      ∧ (scope.toNat ≠ 4 ∨ s.fabricUp = false → first.1 = [])
      ∧ (first.1 = [] → refreshes first.2 ((mget first.2.flights w).getD f))
      ∧ (first.1 ≠ [] → exec (.phase scope) s =
          .next (first.2.modFlight w (fun g => { g with pubWait := some first.1, stall := some .memory }))
        ∧ ∀ i ∈ first.1, ∃ x, mget first.2.fabricOut i = some x ∧ x.core = f.core))
    ∧ (s.answered f = true → f.pubWait ≠ none → scope.toNat = 4 → refreshes s f)

/-- For every flight and clause about to execute BAR outside handler mode and macro bodies, when nothing holds it
back, exec answers a next state: where the arrivals of the hall stay below its live threads, the active threads are
blocked at the barrier with the following clause next; where they reach them, every arrived thread of the hall is
ready at the clause after its BAR. No register of the flight changes. (R139, R199) -/
def Obligations.BarrierArrivals : Prop :=
  ∀ s w f c, Issuing s w f c → Ready s w f c (regs0 0 f) → c.body = none → f.entries.length < 128 → c.act ≠ [] → c.act.Nodup →
    (∀ x ∈ c.act, x ∈ f.live ∧ (f.thread x).handler = false ∧ (f.thread x).barred = false ∧ (f.thread x).awaiting = none) →
    (∀ v q x, mget s.flights v = some q → (q.thread x).barred = true → (q.thread x).awaiting = none) →
    msorted s.flights = true → msorted f.threads = true → s.canBound f.core true = true →
    let s0 := (s.boundary w f (some 0) none).2
    let f0 := (mget s0.flights w).getD f
    let arrived := s.hallArrived w f + c.act.length
    ∃ t g, exec .bar s = .next t ∧ mget t.flights w = some g ∧ g.regs = f.regs
      ∧ (arrived ≠ s.hallLive w f → (∀ x ∈ c.act, g.thread x =
          { f.thread x with st := .blocked, barred := true, next := c.after, fromOp := 0, fromBody := none })
        ∧ (∀ x, x ∉ c.act → Moved (f0.thread x) (g.thread x))
        ∧ ∃ e, g.entries.getLast? = some e ∧ e.cls = .b ∧ e.mask = c.act ∧ e.pay = .bar c.act.length)
      ∧ (arrived = s.hallLive w f → (∀ x ∈ c.act, g.thread x =
          { f.thread x with st := .ready, barred := false, pc := c.after, next := c.after, fromOp := 0, fromBody := none })
        ∧ ∀ v q h x, mget s.flights v = some q → sameHall w f (v, q) = true → v ≠ w → mget t.flights v = some h →
          (q.thread x).barred = true →
          h.thread x = { q.thread x with st := .ready, barred := false, pc := (q.thread x).next })

/-- For every flight and clause about to execute ARRIVE or AWAIT outside handler mode and macro bodies, when nothing
holds it back and every thread's offset is agreed, a multiple of 4 and within the store, exec answers a next state:
ARRIVE, while no thread waits and no ATOMS is outstanding on its words or of its threads, adds to each word the number of active threads
at its address modulo 2^32; AWAIT, while its core has no ATOMS outstanding, lets a thread on to the next clause where
its word less its count, modulo 2^32, is below 2^31, and blocks the others there with their count. No register
changes. (R140, R141, R127) -/
def Obligations.StoreWordWaits : Prop :=
  ∀ s w f c win z, Issuing s w f c → f.win = some win → mget s.windows win = some z → c.body = none → c.act.Nodup →
    (∀ (a : BitVec 7), let at' := offsetAt f a 0
      let as := accesses false c at'
      Ready s w f c (regsS [(a, 1)] [] false 0 f) → (∀ q ∈ s.flights, ∀ p ∈ q.2.threads, p.2.awaiting = none) →
      memWf z.bytes = true →
      (∀ x ∈ as, x.unanimous = true ∧ x.addr % 4 = 0 ∧ x.addr + 4 ≤ f.winSize) →
      s.storeBusy win true (as.map (fun x => (x.addr, x.addr + 4))) = false → s.canBound f.core true = true →
      (∀ r ∈ s.requests, r.win = some win → ¬(r.flight = w ∧ r.thread ∈ c.act) ∧
        ∀ x ∈ as, r.lo + r.len ≤ x.addr ∨ x.addr + 4 ≤ r.lo) →
      let s0 := (s.boundary w f (some 1) none).2
      ∃ t g z0 z', exec (.arrive a) s = .next t ∧ mget t.flights w = some g ∧ g.regs = f.regs
        ∧ (∀ x, Moved (f.thread x) (g.thread x)) ∧ mget s0.windows win = some z0 ∧ mget t.windows win = some z'
        ∧ z' = { z with bytes := z'.bytes } ∧ (∀ v, v ≠ win → mget t.windows v = mget s0.windows v)
        ∧ (∀ p, p % 4 = 0 → leNat (memRead z'.bytes p 4) =
            (leNat (memRead z0.bytes p 4) + (as.filter (fun x => x.addr = p)).length) % 2 ^ 32))
    ∧ ∀ (a b : BitVec 7), let at' := offsetAt f a 0
      let as := accesses false c at'
      Ready s w f c (regsS [(a, 1), (b, 1)] [] false 0 f) → (∀ x ∈ c.act, x ∈ f.live ∧ (f.thread x).handler = false) →
      (∀ x ∈ as, x.unanimous = true ∧ x.addr % 4 = 0 ∧ x.addr + 4 ≤ f.winSize) →
      s.storeBusy win false (as.map (fun x => (x.addr, x.addr + 4))) = false →
      s.atomsAhead w c.act (as.map (fun x => (x.addr, x.addr + 4))) = false →
      (∀ r ∈ s.requests, r.core = f.core → r.win = none) → s.canBound f.core false = true →
      let count := fun x => majorityOf (f.opnd x b)
      let passes := fun x => (leNat (memRead z.bytes (at' x).1 4) + 2 ^ 32 - (count x).toNat) % 2 ^ 32 < 2 ^ 31
      ∃ t g, exec (.await a b) s = .next t ∧ mget t.flights w = some g ∧ g.regs = f.regs ∧ t.windows = s.windows
        ∧ (∀ x, x ∉ c.act → Moved (f.thread x) (g.thread x))
        ∧ (∀ x ∈ c.act, passes x → g.thread x = { f.thread x with pc := c.after, fromOp := 0, fromBody := none })
        ∧ (∀ x ∈ c.act, ¬passes x → g.thread x =
            { f.thread x with
              st := .blocked, pc := c.addr, next := c.after, awaiting := some ((at' x).1, count x), fromOp := 0
              fromBody := none })
        ∧ ((∀ x ∈ c.act, ¬passes x) → Quiet s t w)

/-- For every flight and clause about to execute WAITGE outside handler mode and macro bodies, when nothing holds it back, no agent's
access makes another act first and every thread's address is agreed and passes the checks of R127, exec answers a next state with one poll
outstanding: its passing threads are those whose word, read from the snapshot after Refresh at the scope, less their count, modulo 2^32,
is below 2^31. When a poll returns, its passing threads are ready at the following clause, the others stay runnable at theirs, and the
clause is held for 16 cycles where there are others. (R142, R180, R127) -/
def Obligations.GlobalPolls : Prop :=
  (∀ (scope : BitVec 5) (a b : BitVec 7) s w f c, Issuing s w f c → c.body = none → s.throttled w f c = false →
    Ready s w f c (regsS [(a, 2), (b, 1)] [] false 0 f) → (∀ x ∈ c.act, x ∈ f.live ∧ (f.thread x).handler = false) →
    let at' := globalAt f a 0
    let as := accesses false c at'
    (∀ x ∈ as, x.unanimous = true ∧ Permitted s f true false 4 x.addr) →
    s.canBound f.core false = true →
    let s0 := (s.boundary w f none (some scope.toNat)).2
    let f0 := (mget s0.flights w).getD f
    Calm s0 →
    let s1 := s0.usePages f0 false (as.map (·.addr))
    let word := fun x : Nat => leNat (s1.snapRead f.core (s1.locate f0 (at' x).1).pa 4)
    let passes := fun x : Nat => Nat.blt ((word x + 2 ^ 32 - (majorityOf (f.opnd x b)).toNat) % 2 ^ 32) (2 ^ 31)
    ∃ t g n, exec (.waitge scope a b) s = .next t ∧ mget t.flights w = some g ∧ g.regs = f.regs
      ∧ (∀ x, Moved (f0.thread x) (g.thread x)) ∧ MarksOnly s0 t
      ∧ g.pollsOut = mset f.pollsOut n
          ⟨c.addr.toNat, c.act, c.act.filter passes, c.after, none, none⟩
      ∧ ∀ v, v ≠ w → mget t.flights v = (mget s0.flights v).map (fun h => { h with stall := none }))
  ∧ ∀ s w f n p, mget s.flights w = some f → mget f.pollsOut n = some p → (∀ x ∈ p.group ++ p.pass, x ∈ f.live) →
    ∃ t g, exec (.waitgePollReturn w n) s = .next t ∧ mget t.flights w = some g
      ∧ t = { s with flights := t.flights, cores := t.cores }
      ∧ (∀ v, v ≠ w → mget t.flights v = (mget s.flights v).map (fun h => { h with stall := none }))
      ∧ g.pollsOut = mdel f.pollsOut n ∧ g.regs = f.regs
      ∧ (∀ x, g.thread x =
          if x ∈ p.group ∧ x ∉ p.pass then
            { f.thread x with st := .polling, fromBody := p.stayBody, polls := (g.thread x).polls }
          else if x ∈ p.pass then
            { f.thread x with st := .ready, pc := p.next, fromOp := 0, fromBody := p.nextBody, polls := 0 }
          else f.thread x)
      ∧ g.pollHold = if ∀ x ∈ p.group, x ∈ p.pass then f.pollHold else mset f.pollHold p.addr (s.cycAt f.core + 16)

/-- For every flight and clause about to execute COPY of any form or GATH, when nothing holds it back, there is room,
and every address and offset passes the checks of R144, exec answers a next state in which an entry joins the flight
with the captured operands, the rows of the issue's own threads, their chunks and the footprint, and takes its place
in the range scoreboard where it reaches the store; a split uniform address makes the lowest thread meet D. No byte
moves yet and no register has a new value. (R143, R144, R145, R150, R151, R152, R153) -/
def Obligations.CopiesAndGathersIssue : Prop :=
  ∀ s w f c (d a b : BitVec 7), Issuing s w f c → c.act ≠ [] → c.act.Nodup →
    (∀ p ∈ [(Instr.copyG2s d a b, EngKind.g2s, true, false), (.copyS2g d a b, .s2g, false, true),
        (.copyS2s d a b, .s2s, false, false)],
      let r := regsS [(d, if p.2.2.2 then 2 else 1), (a, if p.2.2.1 then 2 else 1), (b, 2)] [] false 0 f
      let e := copyEngine s f c p.2.1 p.2.2.1 p.2.2.2 d a b
      Ready s w f c r → Room s w f c e → copyReaches f e p.2.2.1 p.2.2.2 → (p.2.2.1 = true → s.throttled w f c = false) →
      ∃ t g, exec p.1 s = .next t ∧ mget t.flights w = some g ∧ Started s t w f e
        ∧ Issued s f g c .k 0 c.flag r.srcs [] []
            (uniformSplit c ((uniform f c p.2.2.1 a).2 && (uniform f c p.2.2.2 d).2)) (.engine e))
    ∧ (let shape := (uniform f c true b).1
       let len16 := shape % 2 ^ 16
       let rows := shape / 2 ^ 16 % 2 ^ 16
       let sp := shape / 2 ^ 32 % 2 ^ 16
       let src := (uniform f c true a).1
       let n := if len16 = 0 ∨ rows = 0 then 0 else 4 * len16
       let own := if n = 0 then [] else (c.act.map (fun x => (x, (f.thread x).hidx))).filter (fun p => p.2 < rows)
       let dests := f.block d.toNat n
       let e : Engine := { Engine.empty .g2v with
         src := src, len16 := len16, rows := rows, spitch := sp, per := own.map (fun p => (p.1, [p.2])), groups := n
         total := own.length, n0 := dests.zipIdx.map (fun p => (p.2, p.1)), key := takeKey s f }
       let r : OpRegs := ⟨inOrder [f.block a.toNat 2, f.block b.toNat 2], dests, [], false, 0⟩
       Ready s w f c r → Room s w f c e → s.throttled w f c = false → src % 16 = 0 →
       (n ≠ 0 → len16 ∈ [1, 2, 4] ∧ d.toNat % n = 0 ∧ (f.level = 3 → n = 4)) →
       (∀ p ∈ own, isCanonical ((src + 16 * p.2 * sp) % 2 ^ 64)
         ∧ isCanonical (((src + 16 * p.2 * sp) % 2 ^ 64 + 16 * len16 - 1) % 2 ^ 64)) →
       ∃ t g, exec (.copyG2v d a b) s = .next t ∧ mget t.flights w = some g ∧ Started s t w f e
         ∧ Issued s f g c .i 0 c.flag r.srcs dests [] (uniformSplit c (uniform f c true a).2) (.engine e))
    ∧ (let base := uniform f c true a
       let ctl := (uniform f c false (b + 1)).1
       let len16 := ctl % 2 ^ 16
       let sp := ctl / 2 ^ 16 % 2 ^ 16
       let index := fun x => (majorityOf (f.opnd x b)).toNat
       let off := fun x => (majorityOf (f.opnd x d)).toNat
       let from' := fun x => (base.1 + 16 * index x * sp) % 2 ^ 64
       let e : Engine := { Engine.empty .gath with
         win := f.win.getD 0, src := base.1, len16 := len16, spitch := sp, total := c.act.length, key := takeKey s f
         per := c.act.map (fun x => (x, if index x = 0xFFFFFFFF then [off x] else [off x, from' x]))
         writes := hullOf (c.act.map off) (16 * len16) }
       let r := regsS [(d, 1), (a, 2), (b, 2)] [] false 0 f
       let same := fun (t : Tri Word) => decide (t.x0 = t.x1 ∧ t.x1 = t.x2)
       Ready s w f c r → Room s w f c e → s.throttled w f c = false → base.1 % 16 = 0 → 1 ≤ len16 →
       len16 ≤ 4096 → (∀ x ∈ c.act, off x % 16 = 0 ∧ off x + 16 * len16 ≤ f.winSize ∧ (index x ≠ 0xFFFFFFFF →
         isCanonical (from' x) ∧ isCanonical ((from' x + 16 * len16 - 1) % 2 ^ 64))) →
       ∃ t g, exec (.gath d a b) s = .next t ∧ mget t.flights w = some g ∧ Started s t w f e
         ∧ Issued s f g c .k 0 c.flag r.srcs [] [] (fun x =>
             if same (f.opnd x b) && same (f.opnd x d) && (base.2 || x != lowest c) then none else some ⟨.D, true, false, 0⟩)
             (.engine e))

/-- For every flight and clause about to execute an operation of the matrix unit, when nothing holds it back, there is
room in the record, the scoreboard and the unit's queue, a plane set is held or free where one is needed, and the
operands pass their checks, exec answers a next state in which the operation is last in the unit's queue with its
captured operands and footprint; a newly acquired set holds +0, MMA and MMAG advance the active threads' rounding
counters, MFREE gives the set up, and MFREE without a set has no effect. No register has a new value. That a begun
operation takes no room in the queue is the model's reading (assumption 28), as are that a descriptor's addresses split
in the base alone (assumption 25) and that MMAG's A rows are all the owners' rows (assumption 109). (R154, R155, R157,
R158, R161, R143, R144, R217) -/
def Obligations.MatrixOperationsQueue : Prop :=
  ∀ s w f c, Issuing s w f c → c.act ≠ [] → c.act.Nodup →
    let q := s.quarter f.core f.quarter
    let free := (q.mq.filter (fun p => !(s.begun p))).length < 4
    let taken := fun k => if f.planes = none then mset q.planes k ⟨w, []⟩ else q.planes
    let held := fun k : Nat => { f with planes := some k, wantPlanes := false }
    (Ready s w f c (regs0 0 f) → free → f.entries.length < 128 →
      (∀ k, PlaneOf s w f k → Queued .mzero s w f (held k) c 15 [] (fun _ => none)
        { Engine.empty .mzero with win := f.win.getD 0, per := owning f c, total := 1, cost := 4, plane := some k } (taken k))
      ∧ (∀ k, f.planes = some k → Queued .mfree s w f { f with planes := none, wantPlanes := false } c 15 [] (fun _ => none)
        { Engine.empty .mfree with win := f.win.getD 0, total := 1, plane := some k } q.planes))
    ∧ (f.planes = none → Ready s w f c (regs0 0 f) → WritesRegs .mfree s w f c (regs0 0 f) fun _ _ => Tri.rep 0)
    ∧ (∀ (store : Bool) (a : BitVec 7), let d := (uniform f c true a).1
      let m := mdesc d
      let rows := (ownedPlanes f.lane (owning f c)).map (fun p => (p.1, p.2.1))
      let us := m.units (rows.map (fun p => (16 * p.1 * m.tpitch, p.2))) 128
      let steps := stepRows rows
      let e : Engine := { Engine.empty (if store then .mst else .mld) with
        win := f.win.getD 0, dst := d, per := owning f c, total := steps.length
        n0 := steps.zipIdx.map (fun p => (p.2, p.1)), reads := if store then [] else m.span us
        writes := if store then m.span us else [] }
      let r := regsS [(a, 2)] [] false 0 f
      Ready s w f c r → free → Room s w f c e → descriptorFits m f us →
      (store = false → ∀ k, PlaneOf s w f k → Queued (.mld a) s w f (held k) c c.flag r.srcs (uniformSplit c (baseUniform f c a))
        { e with plane := some k } (taken k))
      ∧ (store = true → Queued (.mst a) s w f { f with wantPlanes := false } c c.flag r.srcs (uniformSplit c (baseUniform f c a))
        { e with plane := f.planes } q.planes))
    ∧ ∀ (grouped : Bool) (src : ASource) (form : MmaForm) (d a : BitVec 7) (scale : BitVec 5) (hi : Bool),
      let kind := if grouped then EngKind.mmag else .mma
      let e := mmaEngine f c kind src form d a scale hi
      let ab := f.block d.toNat (if src = .v then formBytes form / 4 else 2)
      let r : OpRegs := ⟨inOrder [ab, f.block a.toNat (if grouped then 4 else 2),
        if form.isBx then f.block (4 * scale.toNat) (if grouped then 2 else 4) else []], [], [], false, 0⟩
      let split := uniformSplit c (baseUniform f c a && (src = .v || baseUniform f c d))
      Ready s w f c r → free → Room s w f c e → mmaReaches f c kind src form d a → (∀ x ∈ c.act, x ∈ f.live) →
      ∀ k, PlaneOf s w f k → ∃ f', f' = { held k with threads := f'.threads }
        ∧ (∀ x, f'.thread x = if x ∈ c.act then
            { f.thread x with rcount := (f.thread x).rcount + BitVec.ofNat 48 (32 * e.total) } else f.thread x)
        ∧ Queued (if grouped then .mmag src form d a scale hi else .mma src form d a scale hi) s w f f' c c.flag r.srcs split
            { e with plane := some k } (taken k)

/-- For every flight and clause about to execute one of them, when nothing holds it back, its checks pass and the core's pending
writes are ones that it made, exec answers a next state after Publish(3): SPAWN's entry holds one checked record for each active thread; TJOIN
takes one from each active thread's count, thread after thread, and at zero pushes the continuation; CFIRE and CFIRE.IDX hand a chunk that has not
fired to the die's engine, and CFIRE of a hall without a chunk fires nothing. No register has a new value. That CFIRE of a task
flight fires nothing, that a task ring and its die's records go together and that TJOIN decrements in the issuing step are the model's
readings (assumptions 34, 30 and 31). (R162, R163, R166, R168, R262, R136) -/
def Obligations.TasksAndFiring : Prop :=
  ∀ s w f c, Issuing s w f c → c.act ≠ [] → f.entries.length < 128 → s.canBound f.core true = true → msorted s.co = true →
    OwnPending s f.core →
    let s0 := (s.boundary w f (some 3) none).2
    let f0 := (mget s0.flights w).getD f
    Published (s.boundaryStep w f (some 3) none).2 f.core (members (s.scopesOf f.gallery) 3 f.core)
    ∧ (∀ (a : BitVec 7) (q : BitVec 3), Ready s w f c (regsS [(a, 8)] [] false 0 f) →
      let rec' := fun x => leBytes 32 (wordsNat (majorityOf (Tri.of fun k => (List.range 8).map fun i =>
        (f.operand x (f.regName (a.toNat + i))).get k)))
      (s.taskSlot f.context (dieOf f.core) q.toNat).isSome = true →
      (∀ x ∈ c.act, let r := rec' x
        leNat (r.take 8) % 4 = 0 ∧ leNat ((r.drop 16).take 8) % 64 = 0 ∧ leNat ((r.drop 28).take 1) ≤ (if f.lane then 95 else 31)
        ∧ leNat ((r.drop 29).take 1) = 1 ∧ leNat ((r.drop 30).take 2) = 0 ∧ s.inRegion f (leNat (r.take 8)) = true) →
      ∃ t g, exec (.spawn a q) s = .next t ∧ mget t.flights w = some g
        ∧ (let e : Engine := { Engine.empty .spawn with
             per := c.act.map (fun x => (x, [leNat (rec' x)])), groups := q.toNat, total := c.act.length, key := takeKey s0 f0 }
           Issued s0 f0 g c .k 0 c.flag (regsS [(a, 8)] [] false 0 f).srcs [] [] (fun _ => none) (.engine e)
           ∧ Started s0 t w f0 e))
    ∧ (∀ a : BitVec 7, Ready s w f c (regsS [(a, 2)] [] false 0 f) →
      let as := accesses false c (globalAt f a 0)
      (∀ x ∈ as, Permitted s f true true 64 x.addr) → s.nextTag f ∉ (s.ctxt f.context).live →
      (∀ q ∈ s.sessions, q.2.running = false) → memWf s.mem = true → Calm s0 →
      let s1 := s0.usePagesAs f0 f0.core false true (as.map (·.addr))
      let pas := as.map (fun x => (s1.locate f0 x.addr).pa)
      RecordRoom s1 c.act.length →
      ∃ t g e rs, exec (.tjoin a) s = .next t ∧ mget t.flights w = some g ∧ g.regs = f.regs
        ∧ g.entries.getLast? = some e ∧ e.cls = .t ∧ e.mask = c.act ∧ e.pay = .tjoin rs ∧ rs.length = pas.length
        ∧ (∀ r ∈ rs, r.done = true)
        ∧ ∃ st : Nat → State, st 0 = s1 ∧ (∀ b, memGet t.mem b = memGet (st pas.length).mem b)
          ∧ (∀ d n, t.taskQ f.context d n = (st pas.length).taskQ f.context d n)
          ∧ ∀ i pa r, pas[i]? = some pa → rs[i]? = some r → Joined f (st i) (st (i + 1)) pa r.old)
    ∧ ∀ (i : Instr) (k : Option Nat) r own id col, mget s.galleries f.gallery = some own → own.coll = some id →
      mget s.colls id = some col →
      ((i = .cfire ∧ r = regs0 0 f ∧ k = if f.task.isSome then none else hallChunk own f.hall)
        ∨ ∃ a, i = .cfireIdx a ∧ r = regsS [(a, 1)] [] false 0 f ∧ k = some (uniform f c false a).1
          ∧ (uniform f c false a).1 < leNat ((own.launch.coll.drop 24).take 4)) →
      Ready s w f c r →
      ∃ t g e, exec i s = .next t ∧ mget t.flights w = some g ∧ e.kind = .cfire ∧ e.src = k.getD 0
        ∧ Issued s0 f0 g c .k 0 c.flag r.srcs [] [] (fun _ => none) (.engine e) ∧ t.mem = s0.mem
        ∧ (∀ n, k = some n → n ∉ own.fired →
            (mget t.galleries f.gallery).map (·.fired) = some (own.fired ++ [n])
            ∧ (mget t.colls id).map (·.fired) = some (col.fired ++ [(n, dieOf f.core, s0.stamp)]))
        ∧ ((∀ n, k = some n → n ∈ own.fired) → t.galleries = s0.galleries ∧ t.colls = s0.colls)

/-- For every flight that its quarter chooses, outside a clause and a macro body, with no instability record to deliver,
no WAITGE poll of the clause out and its words at hand, CLAUSE_START answers a next state. A legal clause whose `wait` flags are zero, whose flags
have room, on which no late fault waits and at which no breakpoint lies starts with the threads of the issue group
whose guard holds, at the first operation that one of them takes part in; with none, the group goes to the next
clause. A flag that is up, or that was lowered in the same cycle, holds the flight; an illegal word traps it. Once they are zero, of the late
faults whose flags `wait` names the one whose operation issued first is delivered, once, and freezes the flight; a breakpoint freezes it before
an operation where a thread is active. No register changes. (R12, R14, R75, R78, R79, R147, R190, R208, R288, R337) -/
def Obligations.ClausesStart : Prop :=
  ∀ s w f a hw ws s1, s.cur = some w → mget s.flights w = some f → f.clause = none → f.body = none → s.chosen w f = true →
    deliverable f = false → f.issueAddr = some a → pollBlocks s f a = false → Calm s →
    let group := f.choice.filter (fun i => (f.thread i).pc.toNat = a)
    fetchClause s f group a = .clause hw ws s1 →
    let h := Clause.header hw
    let first := fun i => if (f.thread i).fromOp = 0 then 1 else (f.thread i).fromOp
    let act := group.filter fun i =>
      (f.thread i).fromOp ≠ 0 || h.guard = 15 || (f.thread i).preds.getLsbD h.guard ≠ h.sense
    let seen := f.flagSeen (s.cycAt f.core)
    let up := (List.range 12).any fun k => h.wait.testBit k && seen k ≠ 0
    let room := ∀ k, k = h.seta ∨ k = h.setb → k ≠ 15 →
      seen k + (if k = h.seta then 1 else 0) + (if k = h.setb then 1 else 0) ≤ 63
    let past := fun (g : Flight) => { f with
      threads := g.threads, clause := g.clause, bpSkip := g.bpSkip, waiting := 0, overdue := false, waitFrom := 0, waitHeld := 0
      stall := none, turn := g.turn, fairC := g.fairC, fairDue := g.fairDue }
    ∃ t g, exec .clauseStart s = .next t ∧ mget t.flights w = some g ∧ g.regs = f.regs
      ∧ MarksOnly s t ∧ t.windows = s.windows ∧ (∀ v, v ≠ w → mget t.flights v = mget s.flights v)
      ∧ (∀ n, Clause.decode f.level f.lane hw ws = .error n → ∃ r, g = { f with frozen := some ⟨.illegal, n, r, none⟩, stall := none }
          ∧ faultField r 0 1 = 1 ∧ faultField r 2 1 = n % 256 ∧ faultField r 8 8 = a % 2 ^ 64)
      ∧ (∀ is, Clause.decode f.level f.lane hw ws = .ok (h, is) →
          (up = true → g = { f with stall := some .flag, waitFrom := g.waitFrom })
          ∧ (∀ l ∈ f.late, up = false → h.wait.testBit l.flag = true → l.flag < 12 →
              (∀ m ∈ f.late, h.wait.testBit m.flag = true → m.flag < 12 → m = l ∨ l.order < m.order) →
              g = { f with
                frozen := some ⟨.late, 0, l.report, none⟩, late := f.late.filter (fun x => x != l), stall := none, waitFrom := 0
                waitHeld := g.waitHeld }
              ∧ (t.ctxt f.context).faults = (s.ctxt f.context).faults ++ [l.report])
          ∧ (up = false → (∀ l ∈ f.late, h.wait.testBit l.flag = false ∨ 12 ≤ l.flag) →
              (room → act ≠ [] → ∀ n b earlier later, (s.ctxt f.context).bps = earlier ++ (n, b) :: later →
                let meets := fun (p : Nat × BreakPt) => p.2.addr.toNat = a ∧ a ≠ 0 ∧ (p.1, a) ∉ f.bpSkip
                  ∧ (p.2.hall = 2 ^ 32 - 1 ∨ (f.task = none ∧ p.2.hall = f.hall))
                meets (n, b) → (∀ p ∈ earlier, ¬(meets p)) →
                ∃ r, g = { f with frozen := some ⟨.bkpt, 0, r, none⟩, stall := none, waitFrom := 0, waitHeld := g.waitHeld }
                  ∧ (t.ctxt f.context).faults = (s.ctxt f.context).faults ++ [r] ∧ faultField r 0 1 = 11 ∧ faultField r 2 1 = 0
                  ∧ faultField r 8 8 = a % 2 ^ 64 ∧ faultField r 24 4 = (0x80 + n) % 2 ^ 32
                  ∧ ∀ i < 96, (faultField r 48 12).testBit i = decide (i ∈ act))
              ∧ (¬room → g = { f with stall := some .flag, waitFrom := 0, waitHeld := g.waitHeld })
              ∧ (room → act = [] → g = past g ∧ g.clause = none
                  ∧ ∀ x, g.thread x = if x ∈ group then
                      { f.thread x with pc := BitVec.ofNat 64 a + BitVec.ofNat 64 (4 * (h.len + 2)), fromOp := 0, fromBody := none }
                    else f.thread x)
              ∧ (room → (∃ i ∈ act, first i ≤ ws.length) →
                  (∀ p ∈ (s.ctxt f.context).bps, p.2.addr.toNat ≠ a ∨ a = 0 ∨ (p.1, a) ∈ f.bpSkip
                    ∨ (p.2.hall ≠ 2 ^ 32 - 1 ∧ (f.task.isSome = true ∨ p.2.hall ≠ f.hall))) →
                  ∃ c, g.clause = some c ∧ g = past g ∧ g.threads = f.threads ∧ g.turn = f.turn
                    ∧ c.addr = BitVec.ofNat 64 a ∧ c.hdr = h ∧ c.words = ws ∧ c.group = group ∧ c.active = act ∧ c.moved = []
                    ∧ (∀ m, c.activeAt m = act.filter (fun i => decide (first i ≤ m)))
                    ∧ 1 ≤ c.next ∧ c.act ≠ [] ∧ ∀ m, 1 ≤ m → m < c.next → c.activeAt m = [])))

/-- FAIRNESS_TIMER_EXPIRY gives a turn to the lowest PC above the minimum and the turn base, else the lowest above the minimum, if there
is one, and clears the timer; NAP_END makes the threads whose nap is over ready; YIELD_PERIOD_END ends the 32 cycles after a YIELD;
FLIGHT_OVERDUE marks a flight that waited 4,096 cycles; THROTTLE_WINDOW_END moves the permission count by the quarter's scores and clears
them; ICACHE_FILL brings the lines of the clause at the issue address and makes the flight eligible. Each completes where its condition
holds and changes nothing else. That the window's sum keeps the scores of flights that left (log 42) and that an instruction line once
filled stays (log 35) are inferences (DEDUCED). (R191, R121, R120, R264, R265, R267) -/
def Obligations.FairnessAndSchedulerClocks : Prop :=
  (∀ s u f rn, s.cur = some u → mget s.flights u = some f → f.fairDue = some rn →
    let pc := fun i => (f.thread i).pc.toNat
    let next := fun (b h : Nat) => (∃ i ∈ rn, pc i = h) ∧ b < h ∧ ∀ i ∈ rn, b < pc i → h ≤ pc i
    let rest := { f with fairDue := none, fairC := 0 }
    ∃ t g, exec .fairnessTimerExpiry s = .next t ∧ mget t.flights u = some g ∧ (∀ v, v ≠ u → mget t.flights v = mget s.flights v)
      ∧ t = { s with flights := t.flights, cores := t.cores } ∧ (∀ k, t.core k = { s.core k with cntV := (t.core k).cntV })
      ∧ (rn = [] → g = rest)
      ∧ ∀ m, (∃ i ∈ rn, pc i = m) → (∀ i ∈ rn, m ≤ pc i) →
        ((∀ i ∈ rn, pc i ≤ m) → g = rest)
        ∧ ∀ h, next (max m f.turnBase) h ∨ ((∀ i ∈ rn, pc i ≤ max m f.turnBase) ∧ next m h) →
          g = { rest with turn := some (rn.filter (fun i => pc i = h), 0), turnBase := h })
  ∧ (∀ s u f, mget s.flights u = some f →
    let now := s.cycAt f.core
    let awake := fun (t : Thread) => t.st = .napping ∧ t.napEnd ≤ now
    ((∃ p ∈ f.threads, awake p.2) → ∃ t g, exec (.napEnd u) s = .next t ∧ mget t.flights u = some g ∧ Alone s t u
      ∧ g = { f with threads := g.threads, stall := none }
      ∧ ∀ x, g.thread x = if awake (f.thread x) then { f.thread x with st := .ready, napEnd := 0 } else f.thread x)
    ∧ (f.yieldEnd ≠ 0 → f.yieldEnd ≤ now → exec (.yieldPeriodEnd u) s = .next (s.setFlight u { f with yieldEnd := 0 }))
    ∧ (4096 ≤ f.waiting → f.overdue = false → exec (.flightOverdue u) s = .next (s.setFlight u { f with overdue := true }))
    ∧ (f.slip = true → ∃ t, exec (.icacheFill u) s = .next t
      ∧ t = { s with flights := mset s.flights u { f with slip := false }, clusters := t.clusters }
      ∧ (∀ k, t.cluster k = { s.cluster k with icache := (t.cluster k).icache })
      ∧ (∀ a, f.issueAddr = some a → icKey f.context a ∈ (t.cluster (clusterOf f.core)).icache)
      ∧ ∀ k, ∀ line ∈ (s.cluster k).icache, line ∈ (t.cluster k).icache))
  ∧ ∀ s core q, (s.quarter core q).windowStart + 1024 ≤ s.cycAt core →
    let old := s.quarter core q
    let a := ((s.flights.filter (fun p => p.2.core = core && p.2.quarter = q)).map (fun p => p.2.score)).sum + old.left
    ∃ t, exec (.throttleWindowEnd core q) s = .next t ∧ t = { s with flights := t.flights, cores := t.cores }
      ∧ (∀ k, k ≠ core → t.core k = s.core k)
      ∧ t.quarter core q = { old with
          perm := if 128 ≤ a then max 1 (old.perm / 2) else if a < 32 then min 16 (old.perm + 1) else old.perm
          windowStart := old.windowStart + 1024, left := 0 }
      ∧ ∀ v, mget t.flights v = (mget s.flights v).map fun g =>
          { g with stall := none, score := if g.core = core ∧ g.quarter = q then 0 else g.score }

/-- For every flight that its quarter chooses, outside a clause, neither frozen nor withheld, with no ready and no handler-mode thread,
that holds recorded threads, INSTABILITY_DELIVERY answers a next state. With a handler, each of them is in handler mode at its address,
sibling by sibling its v14:v15 saved and then holding the PC of its resume point, and no other register or thread changes. With none, the
flight is frozen and one record for each condition met reports the threads. That a delivery maps v14 and v15 past the declared peak too,
and draws them from the pool, is the model's choice (DESIGN CHOICE, log 86). (R204, R205, R206, R286) -/
def Obligations.InstabilityRecordsAreDelivered : Prop :=
  ∀ s u f own, mget s.flights u = some f → mget s.galleries f.gallery = some own → msorted f.threads = true →
    f.clause = none → f.frozen = none → f.debugFrozen = false → f.pyield = false → f.started = true →
    (∀ p ∈ f.threads, p.2.st ≠ .ready ∧ (p.2.handler = true → p.2.st = .exited)) →
    let recorded := fun x => (f.thread x).st = .masked ∧ (f.thread x).handler = false ∧ (f.thread x).inst.isSome = true
    (∃ x, recorded x) → (∀ p ∈ f.threads, p.1 < slots f) → s.chosen u f = true →
    (own.desc.handler ≠ 0 → s.canMap u f (f.footprint + (f.unmapped [14, 15]).length) = true) →
    ∃ t g, exec (.instabilityDelivery u) s = .next t ∧ mget t.flights u = some g
      ∧ (own.desc.handler ≠ 0 → Quiet s t u
        ∧ g = { f with threads := g.threads, regs := g.regs, body := none, stall := none }
        ∧ (∀ x, g.thread x = if recorded x then
            { f.thread x with
              handler := true, token := (f.thread x).pc, pc := BitVec.ofNat 64 own.desc.handler, fromOp := 0, fromBody := none
              hlink := [0, 1, 2].map (fun k => f.readReg 15 x k ++ f.readReg 14 x k) }
          else f.thread x)
        ∧ (∀ n, n ≠ 14 → n ≠ 15 → mget g.regs n = mget f.regs n)
        ∧ ∀ n, ∀ x < slots f, ∀ k < 3, g.readReg n x k =
            if recorded x ∧ n = 14 then (f.thread x).pc.extractLsb' 0 32
            else if recorded x ∧ n = 15 then (f.thread x).pc.extractLsb' 32 32 else f.readReg n x k)
      ∧ (own.desc.handler = 0 → ∃ code op r rs,
        g = { f with frozen := some ⟨code, op, r, none⟩, body := none, stall := none }
        ∧ (∀ k, t.ctxt k = if k = f.context then { s.ctxt k with faults := (s.ctxt k).faults ++ rs } else s.ctxt k)
        ∧ (∃ r' ∈ rs, r' = r) ∧ rs.map (fun r => faultField r 0 1) = [7, 8, 9].filter (fun n =>
            f.threads.any (fun p => p.2.st = .masked && p.2.handler = false && (p.2.inst.map (fun i => conditionTrap i.icause)) = some n))
        ∧ ∀ r ∈ rs, r.length = 64 ∧ ∀ i < 96, (faultField r 48 12).testBit i =
            decide (recorded i ∧ ((f.thread i).inst.map (fun r => conditionTrap r.icause)) = some (faultField r 0 1)))

/-- For every outstanding load whose values are at hand, LOAD_COMPLETE writes them back, clears its scoreboard bits and lowers its flag.
For every ATOM, ATOMS or POST but a .quant POST, with no request and no write of its core before it, ATOMIC_PERFORM performs its requests
one after another as R135 says, on memory in coherence order with the publication of R233 or on the store; of a .spec ATOM or ATOMS it may
refuse a request with no effect where R137 lets it. A .quant POST waits for a phase boundary of its core, where it is performed and
published to the module. For every returning atomic that is performed, ATOM_RETURN writes the old values into every sibling, and for .spec
the status, retires its receipts, and raises the core's snapshot to its effect but for .nord. Nothing else changes. (R76, R77, R128, R133,
R134, R135, R233, R236, R237, R244, R335) -/
def Obligations.LoadsAndAtomicsComplete : Prop :=
  ∀ s u f e, mget s.flights u = some f → f.entry? e.id = some e → e.replay = false → e.discards = [] →
    let now := s.cycAt f.core
    let first := ∀ r ∈ s.requests, r.flight = u ∧ r.entry = e.id ∨ ∀ q ∈ entryRequests u f e, s.before r q = false
    (∀ (size : MemSize) (uni : Bool) dests (vals : NMap (List (List Word))),
      e.pay = .load size uni dests vals ∨ (uni = e.isUniform ∧ e.pay = .bindLoad dests vals []) → dests.Nodup →
      (vals.map (·.1)).Nodup → e.mask = vals.map (·.1) → (uni = true → ∀ p ∈ vals, ∀ q ∈ vals, p.2 = q.2) →
      ∃ t g, exec (.loadComplete u e.id) s = .next t ∧ mget t.flights u = some g
        ∧ WrittenBack now f g e dests (fun j x k => (mget vals x).map (fun ws => (((ws[k]?).getD [])[j]?).getD 0))
        ∧ t = { s with flights := t.flights, cores := t.cores }
        ∧ (∀ k, t.core k = { s.core k with monitors := (t.core k).monitors })
        ∧ ∀ v, v ≠ u → mget t.flights v = (mget s.flights v).map (fun h => { h with stall := none }))
    ∧ (∀ (post : Bool) (op : AtomOp) (use : AtomUse) dests rs, e.pay = .atom post op use dests rs → rs ≠ [] →
      ¬(post = true ∧ use = .quant) → (∀ r ∈ rs, r.done = false ∧ r.refused = false) → e.resent = false →
      RecordRoom s rs.length →
      msorted s.flights = true → (∀ p ∈ (s.core f.core).pend, ∀ x ∈ p.2, e.id ≤ x.1) → first → (∀ q ∈ s.sessions, q.2.running = false) →
      (∀ q ∈ s.flights, ∀ p ∈ q.2.threads, p.2.awaiting = none) →
      let done := performed op rs s.mem
      ∃ t g, exec (.atomicPerform u e.id) s = .next t ∧ mget t.flights u = some g
        ∧ (∀ x, g.entry? e.id = some x → (atomRequests x).all (·.done) = true ∧ x = { e with pay := x.pay })
        ∧ (use = .spec → ∃ no : List Bool, no.length = rs.length
          ∧ g = { f with
              entries := f.entries.map (fun x => if x.id = e.id then
                { e with pay := .atom post op use dests (attempted op (rs.zip no) s.mem).1 } else x), stall := none }
          ∧ t.mem = (attempted op (rs.zip no) s.mem).2
          ∧ ∀ i r, no[i]? = some true → rs[i]? = some r → post = true ∨ s.leased (clusterOf f.core) (r.pa / 64) = false
              ∨ QueuedAhead s f e none i r.pa)
        ∧ (use ≠ .spec →
          g = { f with
            entries := f.entries.map (fun x => if x.id = e.id then { e with pay := .atom post op use dests (answered rs done.1) } else x)
            stall := none }
          ∧ t.mem = done.2
          ∧ (∀ b, ∃ ws, t.coOf b = ws ++ s.coOf b ∧ (ws = [] ↔ ∀ r ∈ rs, b < r.pa ∨ r.pa + op.bytes ≤ b)
              ∧ ∀ w ∈ ws, w.id = e.id ∧ w.writer = f.core ∧ w.seen = if use = .quant then [] else [(f.core, allCores)])
          ∧ t = { s with
              flights := t.flights, cores := t.cores, clusters := t.clusters, dies := t.dies, outputs := t.outputs
              stamp := t.stamp, mem := t.mem, co := t.co }
          ∧ (∀ k, t.core k = { s.core k with cntV := (t.core k).cntV, owed := (t.core k).owed })
          ∧ (∀ k, t.cluster k = { s.cluster k with leases := (t.cluster k).leases })
          ∧ ∀ k, t.die k = { s.die k with outside := (t.die k).outside, books := (t.die k).books, spill := (t.die k).spill }))
    ∧ (∀ (op : AtomOp) dests rs, e.pay = .atom true op .quant dests rs →
      exec (.atomicPerform u e.id) s = .next { s with undone := s.undone + 1 }
      ∧ ∀ (scope : BitVec 5) w h c, Issuing s w h c → Ready s w h c (regs0 0 h) → h.core = f.core → scope.toNat ≤ 3 →
        s.answered h = true → h.pubWait = none → rs ≠ [] → (∀ r ∈ rs, r.done = false ∧ r.refused = false) → e.resent = false →
        e.acked = false → (∀ r ∈ s.requests, r.flight = u ∧ r.entry = e.id) → (∀ a, mget (s.core f.core).pend a = none) →
        RecordRoom s rs.length → msorted s.flights = true → (∀ q ∈ s.sessions, q.2.running = false) →
        let done := performed op rs s.mem
        ∃ t g, exec (.phase scope) s = .next t ∧ mget t.flights u = some g ∧ t.mem = done.2
          ∧ g.entry? e.id = some { e with pay := .atom true op .quant dests (answered rs done.1) }
          ∧ ∀ b, (∃ r ∈ rs, r.pa ≤ b ∧ b < r.pa + op.bytes) → ∃ x xs, t.coOf b = x :: xs ∧ x.id = e.id ∧ x.writer = f.core
              ∧ ∀ k < 384, (mgetD x.seen f.core 0).testBit k = true)
    ∧ (∀ (op : AtomOp) dests win rs z, e.pay = .atoms op .spec dests win rs → rs ≠ [] →
      (∀ r ∈ rs, r.done = false ∧ r.refused = false ∧ s.storeBusy win true [(r.pa, r.pa + op.bytes)] = false) → msorted s.flights = true → first →
      mget s.windows win = some z → (∀ q ∈ s.flights, ∀ p ∈ q.2.threads, p.2.awaiting = none) →
      ∃ t g, ∃ no : List Bool, exec (.atomicPerform u e.id) s = .next t ∧ mget t.flights u = some g ∧ no.length = rs.length
        ∧ g = { f with
            entries := f.entries.map (fun x => if x.id = e.id then
              { e with pay := .atoms op .spec dests win (attempted op (rs.zip no) z.bytes).1 } else x)
            stall := none }
        ∧ mget t.windows win = some { z with bytes := (attempted op (rs.zip no) z.bytes).2 } ∧ t.mem = s.mem
        ∧ ∀ i r, no[i]? = some true → rs[i]? = some r → QueuedAhead s f e (some win) i r.pa)
    ∧ (∀ (op : AtomOp) (use : AtomUse) dests win rs z, e.pay = .atoms op use dests win rs → rs ≠ [] → use ≠ .spec →
      (∀ r ∈ rs, r.done = false ∧ r.refused = false ∧ s.storeBusy win true [(r.pa, r.pa + op.bytes)] = false) → msorted s.flights = true → first →
      mget s.windows win = some z → (∀ q ∈ s.flights, ∀ p ∈ q.2.threads, p.2.awaiting = none) →
      let done := performed op rs z.bytes
      ∃ t g, exec (.atomicPerform u e.id) s = .next t ∧ mget t.flights u = some g
        ∧ g = { f with
            entries := f.entries.map (fun x => if x.id = e.id then { e with pay := .atoms op use dests win (answered rs done.1) } else x)
            stall := none }
        ∧ t = { s with flights := t.flights, windows := t.windows } ∧ mget t.windows win = some { z with bytes := done.2 }
        ∧ ∀ k, k ≠ win → mget t.windows k = mget s.windows k)
    ∧ ∀ (op : AtomOp) (use : AtomUse) dests rs,
      e.pay = .atom false op use dests rs ∨ (∃ win, e.pay = .atoms op use dests win rs) → dests.Nodup →
      (rs.map (·.slot)).Nodup → (∀ r ∈ rs, r.done = true) →
      ∃ t g, exec (.atomReturn u e.id) s = .next t ∧ mget t.flights u = some g
        ∧ WrittenBack now f g e dests (fun j x _ => (rs.find? (fun r => r.slot = x)).bind fun r =>
            if j < op.bytes / 4 then (if r.refused then none else some (BitVec.ofNat 32 (r.old / 2 ^ (32 * j))))
            else some (if j = op.bytes / 4 ∧ r.refused = true then 1 else 0))
        ∧ t = { s with flights := t.flights, cores := t.cores, contexts := t.contexts, dies := t.dies } ∧ t.mem = s.mem
        ∧ (e.pay = .atom false op use dests rs → e.tag ∉ (t.ctxt f.context).live
          ∧ ∀ d, (∀ r ∈ (t.die d).spill, r.tag ≠ e.tag) ∧ ∀ p ∈ (t.die d).books, ∀ r ∈ p.2, r.tag ≠ e.tag)
        ∧ (e.pay = .atom false op .nord dests rs → ∀ k, (t.core k).floors = (s.core k).floors)
        ∧ (∀ i, op.bytes ≤ i ∨ use = .nord ∨ ∃ win, e.pay = .atoms op use dests win rs ∨
            ∀ r ∈ rs, r.refused = false → ∀ w, (s.coOf (r.pa + i)).find? (fun w => w.id = e.id) = some w →
              w.stamp ≤ mgetD (t.core f.core).floors (r.pa + i) 0)
        ∧ ∀ v, v ≠ u → mget t.flights v = (mget s.flights v).map (fun h => { h with stall := none })

/-- For every COPY or GATH that no earlier scoreboard entry of its window blocks, ENGINE_CHUNK answers a next state in which its next
chunk is performed: bytes of global memory that R146 allows, each aligned unit of 16 whole, come into the store or the thread's row, bytes
of the store go to another place or into the writes of the core, and a GATH row without an index is zeros; the last chunk completes the
operation. Where the chunk's first failing byte has no translation the operation parks and the first miss on the page is reported; where
the byte fails another check, the operation ends with a late fault. No other byte of memory changes but table bits. That the bytes an
operation may read include those its core writes under an earlier number is the model's choice (DESIGN CHOICE, log 85); the cause and the
address of the late fault are inferences (DEDUCED, log 60). (R145, R146, R147, R148, R150, R151, R152, R153, R293) -/
def Obligations.EngineChunksMoveRows : Prop :=
  ∀ s u f x e, mget s.flights u = some f → f.entry? x.id = some x → x.pay = .engine e →
    e.kind ∈ [.g2s, .s2g, .s2s, .gath, .g2v] → x.parked = none → x.replay = false → x.discards = [] → x.done < e.total →
    s.engineBlocked f.core x.id e = false → (∀ q ∈ s.flights, ∀ p ∈ q.2.threads, p.2.awaiting = none) → Calm s →
    0 < e.len16 → (f.entries.map (·.id)).Nodup → e.n0.length ≤ e.groups → (e.n0.map (·.2)).Nodup → (e.aBlk.map (·.1)).Nodup → msorted e.out = true →
    let n := x.done
    let wr := decide (e.kind = .s2g)
    let reach := fun (va len : Nat) => ∀ i < len, Permitted s f (!wr) wr 1 ((va + i) % 2 ^ 64)
    let got := fun (va len : Nat) =>
      let pas := (List.range len).map (fun i => physical s f ((va + i) % 2 ^ 64))
      EngineReads (s.engineReach f x pas [va % 2 ^ 57, (va + len - 1) % 2 ^ 57]) f.core x.id pas
    (∀ len va off z, e.kind ≠ .s2g → globalSpan e n = some (len, va) → va < 2 ^ 64 → reach va len → storeAt e n = some off →
      mget s.windows e.win = some z →
      ∃ (t : State) (bs : List Byte), exec (.engineChunk u x.id) s = .next t ∧ bs.length = len ∧ got va len bs
        ∧ mget t.windows e.win = some { z with bytes := memWrite z.bytes off bs }
        ∧ (∀ k, k ≠ e.win → mget t.windows k = mget s.windows k) ∧ ChunkDone s t u f x e ∧ MarksOnly s t)
    ∧ (∀ len va slot h, e.kind = .g2v → e.per[n]? = some (slot, [h]) → globalSpan e n = some (len, va) → reach va len →
      (∀ p ∈ e.aBlk, p.1 ≠ slot) →
      ∃ (t : State) (bs : List Byte), exec (.engineChunk u x.id) s = .next t ∧ bs.length = len ∧ got va len bs
        ∧ t.windows = s.windows ∧ ChunkDone s t u f x { e with aBlk := mset e.aBlk slot [leNat bs] } ∧ MarksOnly s t)
    ∧ (∀ len va z, e.kind = .s2g → globalSpan e n = some (len, va) → reach va len → mget s.windows e.win = some z →
      let bytes := (List.range len).map fun i =>
        (physical s f ((va + i) % 2 ^ 64), memGet z.bytes ((copySpan e n).2.1 + i))
      ∃ t out, exec (.engineChunk u x.id) s = .next t ∧ t.windows = s.windows ∧ ChunkDone s t u f x { e with out := out }
        ∧ (∀ a, mget out a = (remaining bytes a).orElse fun _ => mget e.out a) ∧ MarksOnly s t)
    ∧ (∀ off z, globalSpan e n = none → storeAt e n = some off → mget s.windows e.win = some z →
      let len := if e.kind = .s2s then (copySpan e n).1 else 16 * e.len16
      let bs := if e.kind = .s2s then memRead z.bytes (copySpan e n).2.1 len else List.replicate len 0#8
      ∃ t, exec (.engineChunk u x.id) s = .next t ∧ mget t.windows e.win = some { z with bytes := memWrite z.bytes off bs }
        ∧ ChunkDone s t u f x e ∧ t.mem = s.mem)
    ∧ ∀ len va i code cause key rank, globalSpan e n = some (len, va) → va < 2 ^ 64 → i < len → reach va i →
      firstFailing s f (!wr) wr 1 ((va + i) % 2 ^ 64) = some (rank, code, cause, key) →
      (key = none → ∃ t g l, exec (.engineChunk u x.id) s = .next t ∧ mget t.flights u = some g ∧ t.windows = s.windows ∧ t.mem = s.mem
        ∧ g.late = f.late ++ [l] ∧ l.flag = x.flag ∧ l.order = x.id ∧ faultField l.report 0 1 = 6
        ∧ faultField l.report 1 1 = code.num ∧ faultField l.report 16 8 = (va + i) % 2 ^ 64
        ∧ SameEntries (f.entries.filter (fun y => y.id != x.id)) g.entries)
      ∧ (∀ k, key = some k → (s.missOf (dieOf f.core) k).isSome = true ∨ s.missFull (dieOf f.core) = false →
        ∃ t, exec (.engineChunk u x.id) s = .next t ∧ t.windows = s.windows ∧ t.mem = s.mem
          ∧ mget t.flights u = some { f with
              entries := f.entries.map (fun y => if y.id = x.id then { x with parked := some k } else y), stall := none }
          ∧ (∃ m, t.missOf (dieOf f.core) k = some m ∧ .engine u x.id ∈ m.parked)
          ∧ (t.ctxt f.context).faults.length = (s.ctxt f.context).faults.length
              + if (s.missOf (dieOf f.core) k).isSome = true then 0 else 1)

/-- For every quarter whose unit is free and whose queue has an operation at its head that no earlier scoreboard entry blocks,
MATRIX_UNIT_OPERATION answers a next state. One that has not begun begins: the unit is busy until its fetch, from when it was first free
to fetch, and one chunk are over. One that has begun performs its next chunk: MZERO makes the owned rows +0, MFREE frees the set, MLD and
MST move one row between planes and store, and MMA and MMAG add one chunk to each owned element as R159 says. After the last chunk the
operation leaves the queue and completes, and its flags are raised. When a fetch begins and when a chunk reads its operands (log 75), and
what a NaN raises in a chunk (log 27), are inferences (DEDUCED). (R155, R157, R158, R159, R160, R161, R215, R216) -/
def Obligations.MatrixUnitPerformsItsQueue : Prop :=
  ∀ s core q u x f e rest, let old := s.quarter core q
    old.mq = (u, x.id) :: rest → old.busyUntil ≤ s.cycAt core → mget s.flights u = some f → f.core = core → f.quarter = q →
    f.entry? x.id = some x → x.pay = .engine e → x.replay = false → x.discards = [] → s.engineBlocked core x.id e = false →
    (∀ p ∈ s.flights, ∀ t ∈ p.2.threads, t.2.awaiting = none) → (∀ p ∈ old.planes, msorted p.2.elems = true) →
    (f.entries.map (·.id)).Nodup →
    let owned := ownedPlanes f.lane e.per
    let cost := fun n => if e.kind = .mld ∨ e.kind = .mst then (owned.filter (fun o => o.2.1 = mgetD e.n0 n 0)).length else e.cost
    (e.started = false → ∃ t, exec (.matrixUnitOperation core q) s = .next t ∧ t.mem = s.mem ∧ t.windows = s.windows
      ∧ (let now := s.cycAt core
         t.quarter core q = { old with
           busyUntil := max now ((if e.fetchAt = 0 then now else e.fetchAt - 1) + e.fetch) + cost x.done })
      ∧ mget t.flights u = some { f with
          entries := f.entries.map (fun y => if y.id = x.id then { x with pay := .engine { e with started := true } } else y)
          stall := none })
    ∧ (e.started = true → x.done < e.total → (∀ p ∈ e.per, p.1 < slots f) → (e.per.map (·.1)).Nodup →
      let set := match e.plane with | some k => s.planeSet core q k | none => ⟨u, []⟩
      let row := mgetD e.n0 x.done 0
      let m := mdesc e.dst
      let mine := fun p i => owned.any (fun o => o.1 = p && o.2.1 = i)
      ∃ t g fl, exec (.matrixUnitOperation core q) s = .next t ∧ mget t.flights u = some g ∧ t.mem = s.mem
        ∧ (e.kind ∈ [.mzero, .mfree, .mld, .mst] → fl = e.fl)
        ∧ (x.done + 1 < e.total → (t.quarter core q).mq = old.mq
          ∧ (t.quarter core q).busyUntil = old.busyUntil + cost (x.done + 1) ∧ g.ctl = f.ctl
          ∧ g.entries = f.entries.map (fun y =>
              if y.id = x.id then { x with done := x.done + 1, pay := .engine { e with fl := fl } } else y))
        ∧ (e.total ≤ x.done + 1 → (t.quarter core q).mq = rest
          ∧ SameEntries (f.entries.filter (fun y => y.id != x.id)) g.entries
          ∧ g.ctl = { f.ctl with fexc := f.ctl.fexc ||| fl }
          ∧ g.flagCount x.flag = (if x.flag = 15 then f.flagCount 15 else f.flagCount x.flag - 1)
          ∧ ∀ y ∈ (t.cluster (clusterOf core)).sb, y.entry ≠ x.id)
        ∧ (e.kind ≠ .mst → t.windows = s.windows)
        ∧ (e.kind = .mzero → ∀ k, e.plane = some k → ∀ p i j, i < 32 → j < 32 →
            (t.planeSet core q k).at_ p i j = if mine p i then 0 else set.at_ p i j)
        ∧ (e.kind = .mfree → msorted old.planes = true → ∀ k, e.plane = some k → mget (t.quarter core q).planes k = none)
        ∧ (e.kind = .mld → ∀ k, e.plane = some k → ∀ p i j, i < 32 → j < 32 →
            (t.planeSet core q k).at_ p i j = if mine p i && i = row then
              BitVec.ofNat 32 (leNat (s.winRead e.win (m.unit (16 * p * m.tpitch) i (j / 4) + j % 4 * 4) 4)) else set.at_ p i j)
        ∧ (e.kind = .mst → ∀ z, mget s.windows e.win = some z → memWf z.bytes = true →
            ∃ z', mget t.windows e.win = some z' ∧ z' = { z with bytes := z'.bytes }
              ∧ (∀ a, (∀ p ∈ List.range 3, mine p row = true → ∀ k < 8,
                    a < m.unit (16 * p * m.tpitch) row k ∨ m.unit (16 * p * m.tpitch) row k + 16 ≤ a) →
                  memGet z.bytes a = memGet z'.bytes a)
              ∧ ∀ p, mine p row = true → (∀ p', mine p' row = true → p' ≠ p → ∀ k < 8, ∀ k' < 8,
                    m.unit (16 * p * m.tpitch) row k + 16 ≤ m.unit (16 * p' * m.tpitch) row k'
                      ∨ m.unit (16 * p' * m.tpitch) row k' + 16 ≤ m.unit (16 * p * m.tpitch) row k) → ∀ j < 32,
                  leNat (memRead z'.bytes (m.unit (16 * p * m.tpitch) row (j / 4) + j % 4 * 4) 4) = (set.at_ p row j).toNat)
        ∧ (e.kind = .mma ∨ e.kind = .mmag → ∀ k, e.plane = some k → ∀ p i j, i < 32 → j < 32 →
            (t.planeSet core q k).at_ p i j =
              match owned.find? (fun o => o.1 = p && o.2.1 = i), tileOf e.kind e.groups i with
              | some o, some tile =>
                let a := aRow s f e p i o.2.2.1 o.2.2.2
                let b := bColumn s f e tile p o.2.2.2 j
                let products := ((mElems e.form a.row a.exps x.done).zip (mElems e.form b.row b.exps x.done)).map
                  fun y => mProd y.1 y.2
                BitVec.ofNat 32 (accumulate (mRnd f e (mgetD e.per o.2.2.1 []) p (32 * x.done + j)) (set.at_ p i j).toNat
                  (chunkSum (formShift e.form) products)).pat
              | _, _ => set.at_ p i j))

/-- Where no agent's access makes another act first, DOORBELL of a queue, of an attached host where a port runs as an endpoint, answers a
next state: a write that passes the checks of R250 sets the tail and reads the records up to it, any other is counted and announced.
LAUNCH_RECORD takes the next record: one whose checks pass becomes a gallery with the record's fields, one that fails completes with a
status that applies, and one that meets a missing page holds the queue. BARRIER_RECORD and SIGNAL_RECORD take theirs: a barrier completes
once everything before it is complete and the named queue has reached its number, a signal writes its value and may interrupt. A completed
record's entry stands in the completion ring. The event numbers 250 and 257 are the model's choice (DESIGN CHOICE, log 33); that records
are read at the doorbell (log 44), that a taken barrier holds its queue (log 49) and the tag 0 of an unknown kind (log 77) are inferences
(DEDUCED). (R249, R250, R251, R252, R253, R254, R256, R257, R258, R367) -/
def Obligations.QueuesTakeTheirRecords : Prop :=
  (∀ s q origin nbytes (tail : BitVec 32) key, q < 64 → memWf s.mem = true → Calm s →
    (origin = .host → s.boot.pcieEndpoint = true) →
    let x := s.readQueue q
    let n := (tail.toNat + 2 ^ 32 - x.tail) % 2 ^ 32
    let good := 16 ≤ nbytes ∧ x.enabled = true ∧ (origin = .control ∨ (x.key ≠ 0 ∧ key = x.key))
      ∧ n + (x.tail + 2 ^ 32 - x.head) % 2 ^ 32 ≤ 2 ^ x.lg
    ∃ t, exec (.doorbell q origin nbytes tail key) s = .next t ∧ (∀ k, k ≠ q → t.queue k = s.queue k)
      ∧ (good → ∃ rs, t.queue q = { x with tail := tail.toNat, recs := (s.queue q).recs ++ rs } ∧ rs.length = n
          ∧ (∀ i r, rs[i]? = some r → r = memRead s.mem (x.ring + 128 * ((x.tail + i) % 2 ^ x.lg)) 128)
          ∧ memRead t.mem (s.tables.queues + 64 * q + 36) 4 = leBytes 4 tail.toNat)
      ∧ (¬good → t.queue q = { x with refused := x.refused + 1 } ∧ t.mem = s.mem ∧ t.outputs = .event 250 [q] :: s.outputs))
  ∧ ∀ s q raw, s.nextRecord q = some raw → memWf s.mem = true → Calm s →
    let x := s.queue q
    let fld := fun a n => leNat ((raw.drop a).take n)
    (s.inService = true →
      (recordKind raw = .other → ∃ t, exec (.launchRecord q) s = .next t ∧ TakenNext s t q ∧ Completed s t q x.head (fld 1 1) 0 1
        ∧ t.galleries = s.galleries)
      ∧ (recordKind raw = .launch →
        let k := checkLaunch s q raw (launchOf raw)
        (k.bad ≠ [] → ∃ t, ∃ status ∈ k.bad, exec (.launchRecord q) s = .next t ∧ TakenNext s t q
          ∧ Completed s t q x.head 1 (fld 4 4) status ∧ t.galleries = s.galleries)
        ∧ (∀ key more, k.bad = [] → k.miss = key :: more → (s.missOf 0 key).isSome = true ∨ s.missFull 0 = false →
          ∃ t, exec (.launchRecord q) s = .next t ∧ t.nextRecord q = none ∧ t.queues = s.queues ∧ t.galleries = s.galleries
            ∧ ∃ m, t.missOf 0 key = some m ∧ .queue q x.head ∈ m.parked)
        ∧ (∀ d, k.bad = [] → k.miss = [] → k.blocks.desc = some d →
          ∃ t gid g, exec (.launchRecord q) s = .next t ∧ TakenNext s t q ∧ (t.queue q).taken = x.taken ++ [⟨x.head, 1, raw⟩]
            ∧ memRead t.mem (s.tables.queues + 64 * q + 32) 4 = leBytes 4 ((x.head + 1) % 2 ^ 32)
            ∧ mget t.galleries gid = some g ∧ g.context = x.context ∧ g.queue = q ∧ g.seq = x.head ∧ g.desc = d ∧ g.halls = []
            ∧ g.launch.tag = fld 4 4 ∧ g.launch.cls = fld 3 1 ∧ [g.launch.gx, g.launch.gy, g.launch.gz] = [fld 8 2, fld 10 2, fld 12 2]
            ∧ [g.launch.tx, g.launch.ty, g.launch.tz] = [fld 16 2, fld 18 2, fld 20 2]
            ∧ [g.launch.wx, g.launch.wy, g.launch.wz] = [fld 22 1, fld 23 1, fld 24 1] ∧ g.launch.pdead = fld 28 4
            ∧ g.launch.args = fld 40 8 ∧ g.launch.seed = BitVec.ofNat 64 (fld 48 8)
            ∧ (∀ k, k ≠ gid → mget t.galleries k = mget s.galleries k))))
    ∧ (recordKind raw = .barrier → (∀ r ∈ x.taken, r.seq ≠ x.head) →
      (barrierBad raw = true → ∃ t, exec (.barrierRecord q) s = .next t ∧ TakenNext s t q ∧ Completed s t q x.head 2 0 1)
      ∧ (barrierBad raw = false →
        let s1 := s.takeRecord q 2
        let met := x.taken = [] ∧ (fld 2 1 % 2 = 1 → s1.queueReached (fld 3 1) (fld 4 4) = true)
        ∃ t, exec (.barrierRecord q) s = .next t ∧ TakenNext s t q
          ∧ (met → Completed s t q x.head 2 0 0)
          ∧ (¬met → (t.queue q).taken = x.taken ++ [⟨x.head, 2, raw⟩] ∧ t.nextRecord q = none)))
    ∧ (recordKind raw = .signal → (∀ r ∈ x.taken, r.kind ≠ 3) →
      (signalBad raw = true → ∃ t, exec (.signalRecord q) s = .next t ∧ TakenNext s t q ∧ Completed s t q x.head 3 0 1)
      ∧ (signalBad raw = false →
        let s1 := s.takeRecord q 3
        let addr := fld 8 8
        let va := addr % 2 ^ 57 / 4096 * 4096
        (x.taken ≠ [] → exec (.signalRecord q) s = .next s1 ∧ TakenNext s s1 q)
        ∧ (∀ e, x.taken = [] → isCanonical addr → s1.walk x.context va = .ok e → e.pte.testBit 2 = true →
          (e.pte.testBit 4 = true → (s1.ctxt x.context).sys = true) →
          let pa := e.frameAddr va 0 + addr % 4096
          let ring := x.cpl + 16 * (x.head % 2 ^ x.lg)
          ∃ t, exec (.signalRecord q) s = .next t ∧ TakenNext s t q ∧ Completed s t q x.head 3 0 0
            ∧ (pa + 8 ≤ ring ∨ ring + 16 ≤ pa → memRead t.mem pa 8 = leBytes 8 (fld 16 8))
            ∧ (.event 257 [q, x.head] ∈ t.outputs ↔ fld 2 1 / 2 % 2 = 1 ∨ .event 257 [q, x.head] ∈ s.outputs))))

/-- WING_PLACEMENT puts each hall of the next wing of the gallery that is served first on the core that R260 gives, its flights admitted
and a window of zeros made; HALL_START starts a placed hall's flights; BULK_GALLERY_AGEING serves a waiting bulk gallery as normal class;
TASK_POP pops a record and starts its task flight with the frame, index and tag of R164; FLIGHT_RETIREMENT delivers a late fault, or
publishes and, once its stores are acknowledged, frees the flight; GALLERY_COMPLETION publishes, writes the completion entry and ends the
gallery, whole or ended by system software. Each completes where its condition holds. Ageing by the clock of die 0 is the model's choice
(DESIGN CHOICE, log 41); the retirement of a flight with unacknowledged stores (log 102), task pops (log 38) and placement around a save
(log 55) are inferences (DEDUCED). (R182, R184, R185, R200, R222, R258, R259, R260, R164, R165, R119, R288) -/
def Obligations.GalleriesArePlacedRunAndComplete : Prop :=
  (∀ s gid g cl as, mget s.galleries gid = some g → s.servedBefore gid g = false → s.placement gid g = some (cl, as) →
    (∀ p ∈ s.flights, p.1 < s.nextId ∧ p.2.age < s.nextId) → (s.searchOrder gid g).find? (fun c => (s.clusterTakes gid g c).isSome) = some cl
      ∧ as.map (·.1) = unitHalls g.launch g.nextWing
      ∧ ∃ t g', exec (.wingPlacement gid) s = .next t ∧ mget t.galleries gid = some g' ∧ g'.nextWing = g.nextWing + 1
        ∧ g'.lastCluster = some cl ∧ t.lastCluster = cl ∧ t.mem = s.mem ∧ (∀ v f, mget s.flights v = some f → mget t.flights v = some f)
        ∧ ((as.map (·.1)).Nodup → ∀ p ∈ as, ∃ h, mget g'.halls p.1 = some h ∧ h.core = p.2 ∧ h.core / 8 = cl ∧ h.started = false
            ∧ h.exited = false ∧ h.flights.length = flightCount g.launch g.desc
            ∧ (g.desc.store = 0 → h.win = none)
            ∧ (g.desc.store ≠ 0 → ∃ w, h.win = some w ∧ mget t.windows w = some ⟨gid, g.nextWing, cl, g.desc.store, [], [], false⟩)
            ∧ ∀ i u, h.flights[i]? = some u → ∃ f, mget t.flights u = some f ∧ f.context = g.context ∧ f.gallery = gid ∧ f.hall = p.1
              ∧ f.index = i ∧ f.core = p.2 ∧ f.quarter = i % 4 ∧ f.task = none ∧ f.win = h.win ∧ f.started = false ∧ f.regs = []
              ∧ f.clause = none ∧ f.threads = hallFlightThreads g p.1 i))
  ∧ (∀ s gid g hall h, mget s.galleries gid = some g → mget g.halls hall = some h →
    (∃ u ∈ h.flights, ∃ f, mget s.flights u = some f ∧ f.started = false) →
    (let per := g.launch.gx * g.launch.gy * g.launch.gz
     hall < per ∨ ∃ low, mget g.halls (hall - per) = some low ∧ low.started = true) →
    s.canBound h.core false = true → (∀ q ∈ s.flights, ∀ p ∈ q.2.threads, p.2.awaiting = none) →
    ∃ t, exec (.hallStart gid hall) s = .next t ∧ ∀ u ∈ h.flights, ∀ f, mget s.flights u = some f →
      ∃ f', mget t.flights u = some f' ∧ f'.started = true ∧ f'.threads = f.threads ∧ f'.regs = f.regs)
  ∧ (∀ s gid g, mget s.galleries gid = some g → g.launch.cls = 3 → g.aged = false → g.unplaced = true →
    g.acceptTime + 2000000 ≤ s.dieCyc 0 → exec (.bulkGalleryAgeing gid) s = .next (s.setGallery gid { g with aged := true }))
  ∧ (∀ s context core q k r gid g, s.popReady context core q = some (k, r, gid, g) → (∀ p ∈ s.flights, p.1 < s.nextId) →
    s.canBound core false = true → (∀ r ∈ s.requests, ∀ w, r.win = some w → w < s.nextId) →
    let fld := fun a n => leNat ((r.drop a).take n)
    ∃ t u f, exec (.taskPop context core q) s = .next t ∧ mget s.flights u = none ∧ mget t.flights u = some f ∧ f.started = true
      ∧ f.context = g.context ∧ f.gallery = gid ∧ f.core = core ∧ f.quarter = q ∧ f.task = some (fld 24 4, fld 28 1) ∧ f.clause = none
      ∧ f.threads = (List.range (fld 28 1 + 1)).map (fun i =>
          (i, Thread.start i ((2 ^ 47 + fld 24 4 * 96 + i) % 2 ^ 48) (fld 0 8)))
      ∧ (∀ i ≤ fld 28 1, ∀ j < 3, f.readReg 0 i j = BitVec.ofNat 32 (fld 8 8) ∧ f.readReg 1 i j = BitVec.ofNat 32 (fld 8 8 / 2 ^ 32)
          ∧ f.readReg 2 i j = BitVec.ofNat 32 i ∧ f.readReg 3 i j = BitVec.ofNat 32 (fld 24 4))
      ∧ (∃ more, (t.taskQ context (dieOf core) k).recs = (s.taskQ context (dieOf core) k).recs.drop 1 ++ more)
      ∧ (s.taskWindow gid g core = .none → f.win = none) ∧ (∀ w, s.taskWindow gid g core = .have w → f.win = some w)
      ∧ (s.taskWindow gid g core = .create → ∃ w x, f.win = some w ∧ mget t.windows w = some x ∧ x.bytes = [] ∧ x.isTask = true
          ∧ x.size = g.desc.store ∧ x.tasks = [u]))
  ∧ (∀ s u f, mget s.flights u = some f → msorted s.flights = true → f.live = [] → f.clause = none → f.frozen = none →
    f.debugFrozen = false → f.sb = [] → (∀ p ∈ f.flags, p.2 = 0) → (∀ e ∈ f.entries, e.replay = false) → f.started = true →
    (∀ l ∈ f.late, ∃ t, ∃ first ∈ f.late, exec (.flightRetirement u) s = .next t ∧ (∀ m ∈ f.late, first.order ≤ m.order)
      ∧ mget t.flights u = some { f with
          frozen := some ⟨.late, 0, first.report, none⟩, stall := none, late := f.late.filter (fun x => x != first) })
    ∧ (f.late = [] → s.canBound f.core true = true → msorted s.co = true →
      OwnPending s f.core →
      let s1 := (s.boundary u f (some 3) none).2
      Published (s.boundaryStep u f (some 3) none).2 f.core (members (s.scopesOf f.gallery) 3 f.core)
      ∧ (allAcked f = false → f.leaving = false → ∃ t g, exec (.flightRetirement u) s = .next t ∧ t.mem = s1.mem
        ∧ mget t.flights u = some g ∧ g.leaving = true)
      ∧ (allAcked f = true → ∃ t, exec (.flightRetirement u) s = .next t ∧ t.mem = s1.mem
        ∧ mget t.flights u = none ∧ (∀ v, v ≠ u → (mget t.flights v).isSome = (mget s.flights v).isSome)
        ∧ (∀ p ∈ (t.quarter f.core f.quarter).planes, p.2.holder ≠ u) ∧ (∀ p ∈ (t.quarter f.core f.quarter).mq, p.1 ≠ u)
        ∧ ∀ g h, f.task = none → mget s.galleries f.gallery = some g → mget g.halls f.hall = some h →
          ∃ g' h', mget t.galleries f.gallery = some g' ∧ mget g'.halls f.hall = some h'
            ∧ h'.flights = h.flights.filter (fun x => x != u) ∧ h'.exited = h'.flights.isEmpty)))
  ∧ ∀ s gid g n, mget s.galleries gid = some g → msorted s.galleries = true → memWf s.mem = true → s.inSession gid = false → Calm s →
    n = (match g.ended with | some k => k | none => ((s.collOfGallery g).bind (·.failed)).getD 0) →
    (∀ ids, g.pubs = some ids → (∀ i ∈ ids, mget s.fabricOut i = none) →
      ∃ t, exec (.galleryCompletion gid) s = .next t ∧ mget t.galleries gid = none ∧ Completed s t g.queue g.seq 1 g.launch.tag n)
    ∧ (g.pubs = none → g.ended.isSome = true ∨ (s.allDone gid g = true ∧ g.coll = none) → s.fabricUp = false →
      (∀ q ∈ s.sessions, q.2.running = false) →
      let g1 := if g.ended = none ∧ g.completed = false then { g with completed := true } else g
      let s1 := if g.ended = none ∧ g.completed = false then (s.setGallery gid g1).setDead g.context else s
      s1.recordedWell (s1.publishGallery g1).2 = true →
      (∀ c ∈ g.ran, OwnPending s c) →
      ∃ t, exec (.galleryCompletion gid) s = .next t ∧ mget t.galleries gid = none ∧ Completed s t g.queue g.seq 1 g.launch.tag n
        ∧ ∀ c ∈ g.ran, ∀ a, mget (t.core c).pend a = none)

/-- PREEMPTION_REQUEST starts the deadline unless one is pending and PREEMPTION_WITHDRAWAL ends it. FORCED_SAVE at the deadline saves
every flight of the context, with its registers, its clause in progress and its entries to be issued again, and writes the save area;
LIGHT_SAVE saves a flight that has yielded. STORE_ACKNOWLEDGEMENT acknowledges a store-class entry whose operation its bank has performed,
of a resident or a saved flight. CONTEXT_SAVED_REPORT reports the context once all are acknowledged, and keeps its image. CONTEXT_RESUME
restores every flight where it fits, each flag at the number of entries that name it, or ends a context whose area has another format.
T_ENTRY_RESEND performs a store anew or, where a receipt is kept, leaves memory alone and returns the old value. Event 273 is the model's
choice (DESIGN CHOICE, log 33); one step of resumption (log 51) from the structured copy (log 52), a nap saved as ready (log 57) and an
acknowledgement that places nothing (log 88) are inferences (DEDUCED). (R178, R244, R246, R247, R270, R271, R272, R273, R276, R296, R309,
R366) -/
def Obligations.ContextsAreSavedAndResumed : Prop :=
  (∀ s c,
    exec (.preemptionRequest c) s = .next (if (s.ctxt c).deadline.isSome = true then s
      else s.setCtxt c { s.ctxt c with deadline := some (s.time + (s.ctxt c).pdead) })
    ∧ exec (.preemptionWithdrawal c) s = .next (s.setCtxt c { s.ctxt c with deadline := none }))
  ∧ (∀ s c t0, (s.ctxt c).deadline = some t0 → t0 ≤ s.time → msorted s.flights = true → memWf s.mem = true → RingRoom s →
    ∃ t v, exec (.forcedSave c) s = .next t ∧ (∀ p ∈ t.flights, p.2.context ≠ c) ∧ (t.ctxt c).deadline = none
      ∧ (t.ctxt c).saved = some v ∧ memRead t.mem (t.ctxt c).area (saveImage t c v).length = saveImage t c v
      ∧ ∀ u f, mget s.flights u = some f → f.context = c → ∃ g, mget v.flights u = some g ∧ v.reported = false
        ∧ g.clause = f.clause ∧ g.body = f.body ∧ g.frozen = f.frozen ∧ g.window = f.window ∧ g.turn = f.turn
        ∧ (∀ e ∈ g.entries, e.replay = true ∧ e.parked = none)
        ∧ ((∀ e ∈ f.entries, (∀ op use dests win rs, e.pay ≠ .atoms op use dests win rs)
            ∧ ∀ x, e.pay = .engine x → x.kind = .g2v → x.started = false) → g.regs = f.regs)
        ∧ ((∀ q ∈ s.flights, ∀ p ∈ q.2.threads, p.2.awaiting = none) → ∀ x, g.thread x =
            if (f.thread x).st = .napping then { f.thread x with st := .ready, napEnd := 0 } else f.thread x))
  ∧ (∀ s u f, mget s.flights u = some f → msorted s.flights = true → lightReady f = true → RingRoom s →
    (∀ e ∈ f.entries, (∀ op use dests win rs, e.pay ≠ .atoms op use dests win rs)
        ∧ ∀ x, e.pay = .engine x → x.kind = .g2v → x.started = false) →
    ∃ t v g, exec (.lightSave u) s = .next t ∧ mget t.flights u = none ∧ (t.ctxt f.context).saved = some v
      ∧ mget v.flights u = some g ∧ u ∈ v.light ∧ g.regs = f.regs ∧ g.clause = none)
  ∧ (∀ s c v s1, (s.ctxt c).saved = some v → v.reported = false → (∀ p ∈ s.flights, p.2.context ≠ c) →
    (∀ p ∈ v.flights, ∀ e ∈ p.2.entries, (e.storeClass = true → e.acked = true) ∧ ∀ r ∈ atomRequests e, r.done = true) →
    s.settleSaved v = some s1 →
    let x := s1.ctxt c
    let v1 := { v with reported := true }
    exec (.contextSavedReport c) s = .next ((s1.setCtxt c { x with
      saved := some v1, deadline := none, images := (memRead s1.mem x.area (saveImage s1 c v).length, v1) :: x.images }).emit
        (.event 273 [c])))
  ∧ (∀ s u f e, f.entry? e.id = some e → e.acked = false → e.storeClass = true → (∀ i ∈ e.sent, mget s.fabricOut i = none) →
    (∀ r ∈ atomRequests e, r.done = true) →
    let acked := fun (f : Flight) => { f with entries := f.entries.map (fun x => if x.id = e.id then { e with acked := true } else x) }
    let placed := fun (t : State) => ∀ bytes fr, e.pay = .store bytes fr → t.pending f.core e.id bytes = false
    (mget s.flights u = some f → e.replay = false → s.recordedWell (s.reached e) = true →
      ∃ t, exec (.storeAcknowledgement u e.id) s = .next t ∧ mget t.flights u = some { acked f with stall := none }
        ∧ Alone (s.reached e) t u
        ∧ ∀ bytes fr, e.pay = .store bytes fr → ∀ p ∈ bytes, s.receiptsOf e.tag (p.1 / 8 * 8) ≠ []
            ∨ (t.receiptsOf e.tag (p.1 / 8 * 8)).map (·.old) = [0])
    ∧ ∀ c x v, mget s.flights u = none → s.savedIn u = some (c, x, v, f) → s.ctxt c = x →
      let s1 := match e.pay with | .store bytes _ => s.settleWrite f.core e.id bytes | _ => s
      placed s1 → s.recordedWell s1 = true → ∃ t v', exec (.storeAcknowledgement u e.id) s = .next t ∧ t.mem = s1.mem
        ∧ (t.ctxt c).saved = some v' ∧ mget v'.flights u = some (acked f) ∧ ∀ w, w ≠ u → mget v'.flights w = mget v.flights w)
  ∧ (∀ s c core v s0, s.resumable c = some (v, s0) → (s.ctxt c).deadline = none → core < 384 →
    (s.areaGood c v = false → exec (.contextResume c core) s = .next (s.endContext c))
    ∧ ∀ s1, s.areaGood c v = true → s0.placeSaved v (s.ctxt c).sys core (State.hallGroups v) = some s1 → msorted v.flights = true →
      (∀ k < 384, s1.canBound k false = true) → RingRoom s →
      ∃ t, exec (.contextResume c core) s = .next t ∧ (t.ctxt c).saved = none
        ∧ ∀ u f, mget v.flights u = some f → ∃ g, mget t.flights u = some g ∧ g.regs = f.regs ∧ g.ctl = f.ctl ∧ g.window = f.window
          ∧ (f.body = none → g.clause = f.clause) ∧ (∀ k, k ≠ 15 → g.flagCount k = (f.entries.filter (fun e => e.flag = k)).length)
          ∧ ∀ r ∈ (f.entries.map entryDests).flatten, r ∈ g.sb)
  ∧ ∀ s u f e, mget s.flights u = some f → f.entries.find? (·.replay) = some e → f.entry? e.id = some e → e.cls = .t → f.frozen = none →
    s.hallHeld f = true → (∀ p ∈ f.threads, p.2.barred = false) → s.requests = [] → (∀ a, mget (s.core f.core).pend a = none) → e.id < s.nextId →
    (f.entries.map (·.id)).Nodup → (∀ x ∈ f.entries, x.replay = true → x.id = e.id) → (∀ q ∈ s.sessions, q.2.running = false) →
    memWf s.mem = true → s.recordedWell (s.resend u f e) = true →
    let resent := fun (pay : Payload) => { f with
      stall := none
      entries := f.entries.map (fun x => if x.id = e.id then { e with pay := pay, replay := false, acked := false } else x) }
    (∀ bytes fr, e.pay = .store bytes fr → msorted bytes = true →
      ∃ t, exec (.tEntryResend u e.id) s = .next t ∧ mget t.flights u = some (resent e.pay)
        ∧ (∀ a, (∀ p ∈ bytes, p.1 ≠ a) → memGet t.mem a = memGet s.mem a)
        ∧ ∀ p ∈ bytes, memGet t.mem p.1 = if s.receiptsOf e.tag (p.1 / 8 * 8) = [] then p.2 else memGet s.mem p.1)
    ∧ (∀ (post : Bool) (op : AtomOp) (use : AtomUse) dests rs, e.pay = .atom post op use dests rs → e.resent = true → ¬(post = true ∧ use = .quant) →
      (rs.map (·.pa)).Nodup → (∀ r ∈ rs, r.refused = false) →
      ∀ olds : List Nat, olds.length = rs.length → (∀ p ∈ rs.zip olds, ∃ q more, s.receiptsOf e.tag p.1.pa = q :: more ∧ q.old = p.2) →
        ∃ t, exec (.tEntryResend u e.id) s = .next t ∧ mget t.flights u = some (resent (.atom post op use dests (answered rs olds)))
          ∧ t.mem = s.mem)
    ∧ (∀ (op : AtomOp) dests rs, e.pay = .atom true op .quant dests rs → ∃ t, exec (.tEntryResend u e.id) s = .next t ∧ t.mem = s.mem
        ∧ mget t.flights u = some (resent (.atom true op .quant dests (rs.map (fun r => { r with done := r.refused && r.done })))))
    ∧ (e.pay = .sts → ∃ t, exec (.tEntryResend u e.id) s = .next t ∧ mget t.flights u = some (resent e.pay) ∧ t.mem = s.mem)

/-- TRANSLATION_KEY_RESOLVED removes the key and lets what is parked behind it go on, TRANSLATION_KEY_DECLINED gives it its own trap, stop
or refusal; collectives that hold for the page go on or fail. BINDING_SLOT_RESOLVE writes the slot and a parked load takes its value;
BINDING_SLOT_DECLINE gives it zero with a late fault of cause 14. INVALIDATION is pending until INVALIDATION_EFFECT removes every TLB
entry in its range. UNCORRECTABLE_ERROR traps the read with code 13, stops the engine operation, ends the contexts or fails the
collective; CORRECTABLE_ERROR is counted. Each completes where its condition holds. Cause 4 of a declined engine operation (log 60), the
contexts that a bank's error ends (log 61), flights that stay parked over a save (log 58) and collectives freed by their key (log 63) are
inferences (DEDUCED). (R147, R292, R293, R295, R306, R354, R367) -/
def Obligations.MissesInvalidationsAndErrors : Prop :=
  (∀ s die key, (s.missOf die key).isSome = true ∨ (∃ p ∈ s.colls, ∃ h ∈ p.2.holds, h.2.2 = key) → msorted s.colls = true →
    (s.recordedWell ((s.releaseKey key die).freeColls key) = true → ∃ t, exec (.translationKeyResolved die key) s = .next t
      ∧ (∀ i, mget t.colls i = (mget s.colls i).map (fun c => { c with holds := c.holds.filter (fun h => h.2.2 != key) }))
      ∧ (∀ m, s.missOf die key = some m →
        (m.parked = [] → t.missOf die key = none ∧ t.mem = s.mem)
        ∧ (∀ u r f z, m.parked = [.flight u r] → mget s.flights u = some f → f.frozen = some z → z.code = .translation →
            (∀ e ∈ f.entries, e.replay = false) →
            mget t.flights u = some { f with frozen := none, stall := none } ∧ t.missOf die key = none ∧ t.mem = s.mem)
        ∧ ∀ u id f e, m.parked = [.engine u id] → mget s.flights u = some f → f.entry? id = some e →
            mget t.flights u = some { f with
              entries := f.entries.map (fun x => if x.id = e.id then { e with parked := none } else x), stall := none }
            ∧ t.missOf die key = none ∧ t.mem = s.mem))
    ∧ ∃ t, exec (.translationKeyDeclined die key) s = .next t ∧ t.missOf die key = none ∧ t.mem = s.mem
      ∧ (∀ i c, mget s.colls i = some c → (∃ h ∈ c.holds, h.2.2 = key) → c.failed = none →
          mget t.colls i = some { c with failed := some 7, holds := [] })
      ∧ (∀ m, s.missOf die key = some m →
        (∀ u r f z, m.parked = [.flight u r] → mget s.flights u = some f → f.frozen = some z → z.code = .translation → r ≠ [] →
            mget t.flights u = some { f with stall := none } ∧ (t.ctxt f.context).faults = (s.ctxt f.context).faults ++ [r])
        ∧ (∀ u id f x e, m.parked = [.engine u id] → mget s.flights u = some f → f.entry? id = some x → x.pay = .engine e →
            ∃ g l, mget t.flights u = some g ∧ SameEntries (f.entries.filter (fun y => y.id != x.id)) g.entries ∧ g.late = f.late ++ [l]
              ∧ l.flag = x.flag ∧ faultField l.report 0 1 = 6 ∧ faultField l.report 1 1 = 4 ∧ faultField l.report 24 4 = x.done % 2 ^ 32)
        ∧ ∀ q n, m.parked = [.queue q n] → (t.queue q).declined = (s.queue q).declined ++ [(n, key)]))
  ∧ (∀ s gid g slot (value : BitVec 64) pa, mget s.galleries gid = some g → slotAddr s g slot = some pa → value ≠ 0 →
    memWf s.mem = true → Calm s →
    let key := MissKey.slot g.context slot
    let s1 := s.externalWrite pa (leBytes 8 value.toNat)
    s.recordedWell ((s1.diesWith key).foldl (fun s d => s.releaseKey key d) s1) = true →
    ∃ t, exec (.bindingSlotResolve gid slot value) s = .next t
      ∧ ((∀ d < 4, s.missOf d key = none) → memRead t.mem pa 8 = leBytes 8 value.toNat)
      ∧ ∀ d m u id x f e dests vals, d < 4 → (∀ d' < 4, d' ≠ d → s.missOf d' key = none) → s.missOf d key = some m →
        m.parked = [.bind u id x] → mget s.flights u = some f → f.entry? id = some e → e.pay = .bindLoad dests vals [(x, slot)] →
        (s1.locate f (mgetD e.addrs x 0)).pa = pa → s.requests = [] → (∀ a, mget (s.core f.core).pend a = none) → memRead t.mem pa 8 = leBytes 8 value.toNat ∧ ∃ g' e' vals',
          mget t.flights u = some g' ∧ g'.entry? e.id = some e' ∧ e' = { e with pay := .bindLoad dests vals' [] }
          ∧ ∀ i ∈ (if e.addrs.length = 1 then e.mask else [x]), mget vals' i = some (List.replicate 3
              [BitVec.ofNat 32 value.toNat, BitVec.ofNat 32 (value.toNat / 2 ^ 32)]))
  ∧ (∀ s gid g slot, mget s.galleries gid = some g →
    let key := MissKey.slot g.context slot
    (∃ d < 4, (s.missOf d key).isSome = true) → ∃ t, exec (.bindingSlotDecline gid slot) s = .next t ∧ (∀ d < 4, t.missOf d key = none)
      ∧ ∀ d m u id x f e dests vals, d < 4 → (∀ d' < 4, d' ≠ d → s.missOf d' key = none) → s.missOf d key = some m →
        m.parked = [.bind u id x] → mget s.flights u = some f → f.entry? id = some e → e.pay = .bindLoad dests vals [(x, slot)] →
        ∃ g' e' vals' l, mget t.flights u = some g' ∧ g'.entry? e.id = some e' ∧ e' = { e with pay := .bindLoad dests vals' [] }
          ∧ (∀ i ∈ (if e.addrs.length = 1 then e.mask else [x]), mget vals' i = some (List.replicate 3 [0, 0]))
          ∧ g'.late = f.late ++ [l] ∧ l.flag = e.flag ∧ l.dests = dests ∧ faultField l.report 0 1 = 6 ∧ faultField l.report 1 1 = 14)
  ∧ (∀ s c base len, exec (.invalidation c base len) s =
      .next { s with nextId := s.nextId + 1, invals := mset s.invals s.nextId ⟨c, base, len⟩ })
  ∧ (∀ s n v, mget s.invals n = some v →
    let kept := fun (es : List TlbEnt) => es.filter fun e =>
      !(e.context = v.context && decide (e.vpn * 4096 < v.base + v.len) && decide (v.base < (e.vpn + e.pages) * 4096))
    ∃ t, exec (.invalidationEffect n) s = .next t ∧ t.mem = s.mem ∧ t.invals = mdel s.invals n
      ∧ (∀ k, t.core k = { s.core k with tlb := kept (s.core k).tlb })
      ∧ ∀ k, t.cluster k = { s.cluster k with tlb := kept (s.cluster k).tlb })
  ∧ (∀ s w f c i srcs as, mget s.flights w = some f → f.clause = some c → c.body = none → f.frozen = none →
    decodeWord c.word = .ok i → dataRead f c i = some (srcs, as) →
    Traps (.uncorrectableError (.read w)) s w f c .dataError 0 ((as.head?.map (·.addr)).getD 0) 0 srcs c.act)
  ∧ (∀ s u id f x e, mget s.flights u = some f → f.entry? id = some x → x.pay = .engine e →
    ∃ t g l, exec (.uncorrectableError (.engine u id)) s = .next t ∧ mget t.flights u = some g ∧ g.late = f.late ++ [l]
      ∧ faultField l.report 0 1 = 6 ∧ faultField l.report 1 1 = 13
      ∧ SameEntries (f.entries.filter (fun y => y.id != x.id)) g.entries ∧ t.mem = s.mem)
  ∧ (∀ s c, exec (.uncorrectableError (.owned c)) s = exec (.contextEnd c) s)
  ∧ (∀ s b, msorted s.flights = true → ∃ t, exec (.uncorrectableError (.bank b)) s = .next t ∧ t.mem = s.mem
      ∧ (∀ r ∈ mgetD (s.die (b / 128)).books (b % 128) [], ∀ p ∈ t.flights, p.2.context ≠ r.tag / 2 ^ 20)
      ∧ ∀ r ∈ (s.die (b / 128)).spill, State.homeBank r.pa = b % 128 → ∀ p ∈ t.flights, p.2.context ≠ r.tag / 2 ^ 20)
  ∧ (∀ s i c, mget s.colls i = some c → c.failed = none → ∃ t, exec (.uncorrectableError (.collective i)) s = .next t
    ∧ mget t.colls i = some { c with failed := some 7, holds := [] } ∧ t.mem = s.mem)
  ∧ ∀ s die cls core, ∃ t, exec (.correctableError die cls core) s = .next t ∧ t = { s with dies := t.dies, cores := t.cores }
    ∧ (∀ k, t.core k = { s.core k with cntV := (t.core k).cntV }) ∧ (∀ d, d ≠ die → t.die d = s.die d)
    ∧ ∀ n, mgetD (t.die die).corr n 0 = mgetD (s.die die).corr n 0 + if n = cls then 1 else 0

/-- COLLECTIVE_SEGMENT serves, of the collectives of a die, one of the lowest class and of those the earliest turn: it reads the next
segment of a fired chunk and sends it to the members that need it, or writes the next segment of a destination, a reduction combining each
element over ascending rank; a missing page raises a trigger fault and a forbidden one fails the collective. COLLECTIVE_AGEING serves a
long-waiting bulk collective as normal. COLLECTIVE_TRAFFIC_ARRIVAL joins a segment once digests agree, COLLECTIVE_REFUSAL_ANNOUNCEMENT
fails with the announced status and MEMBER_LOST with status 7. Where a bulk collective's waiting is counted by each die's own clock (log 41) the model
reads R3 and R351 so (DESIGN CHOICE); that early traffic is kept (log 50), urgency and holds at a die (log 62) and the messages of a
failure with their statuses (log 64) are inferences (DEDUCED). (R341, R346, R348, R349, R350, R351, R352, R354, R355) -/
def Obligations.CollectivesGoOnAndFail : Prop :=
  (∀ s die id c ws, s.nextColl die = some (id, c, ws) → s.Canonical → Calm s → msorted s.colls = true →
    let failed := some { c with failed := some 7, holds := [] }
    let stops := fun (read : Bool) (va k g : Nat) (found : Pages) =>
      (found = .bad → ∃ t, exec (.collectiveSegment die) s = .next t ∧ (c.failed = none → mget t.colls id = failed) ∧ t.mem = s.mem)
      ∧ ∀ v, found = .miss (.page c.context v) →
        ∃ t r, exec (.collectiveSegment die) s = .next t ∧ mget t.colls id = some { c with holds := c.holds ++ [(die, read, .page c.context v)] }
          ∧ t.mem = s.mem ∧ (t.die die).ering = (s.die die).ering ++ [r] ∧ r.length = 32 ∧ faultField r 0 2 = c.context % 2 ^ 16
          ∧ faultField r 2 2 = c.peers % 2 ^ 16 ∧ faultField r 4 4 = c.number % 2 ^ 32 ∧ faultField r 8 4 = k % 2 ^ 32
          ∧ faultField r 12 4 = g % 2 ^ 32 ∧ (v < 2 ^ 45 → faultField r 16 8 % 2 ^ 57 / 4096 = v) ∧ faultField r 24 8 = 0
          ∧ (v = va % 2 ^ 57 / 4096 → va < 2 ^ 64 → faultField r 16 8 = va)
    (∀ p ∈ s.colls, s.worksNow die p.2 false ≠ [] → p.2.ccls ≠ 0 →
      servedClass die c < servedClass die p.2
        ∨ (servedClass die c = servedClass die p.2 ∧ mgetD c.turn die 0 ≤ mgetD p.2.turn die 0))
    ∧ (∀ k, ws = [.read k] →
      let g := mgetD c.read k 0
      let n := c.segBytes g
      let va := (c.tbase + c.tpitch * k + 65536 * g) % 2 ^ 64
      let found := findBlock s c.context Want.load false [] va n
      stops true va k g found
      ∧ ∀ m, found = .ok m →
        ∃ t bs turn, exec (.collectiveSegment die) s = .next t ∧ t.mem = (markPages s c.context false m).mem
          ∧ TileRead (markPages s c.context false m) (State.firedAt c k) ((List.range n).map (blockAt m va)) bs ∧ s.nextId ≤ turn
          ∧ mget t.colls id = some { afterTurn s die c turn with
              read := mset c.read k (g + 1)
              data := c.data ++ (if c.wants c.rank k then [(c.rank, k, g, bs)] else []) }
          ∧ ∀ r < c.count, r ≠ c.rank → c.wants r k = true → ∀ dest, c.members[r]? = some dest →
            (markPages s c.context false m).portsTo dest ≠ [] →
            ∃ i, Out.packet i dest (if c.ccls = 0 then 1 else 0) (.segment c.peers c.number c.rank k g c.digest bs) ∈ t.outputs)
    ∧ ∀ r k a bs, ws = [.write r k a] →
      let key := r * 65536 + k
      let g := mgetD c.written key 0
      let va := (a + 65536 * g) % 2 ^ 64
      let found := findBlock s c.context Want.store false [] va (c.segBytes g)
      c.result r k g = some bs →
        stops false va k g found
        ∧ (∀ m, found = .ok m → (∀ q ∈ s.sessions, q.2.running = false) →
          (∀ i < bs.length, Unraced s id (State.firedAt c k) (blockAt m va i)) →
          ∃ t turn rest, exec (.collectiveSegment die) s = .next t ∧ BlockPut (markPages s c.context true m).mem t.mem m va bs
            ∧ s.nextId ≤ turn
            ∧ mget t.colls id = some { afterTurn s die c turn with written := mset c.written key (g + 1), data := rest })
        ∧ (3 ≤ c.ckind → c.segData r k g = some bs)
        ∧ ∀ x xs w, c.ckind ≤ 2 → (List.range c.count).map (fun q => c.segData q k g) = (x :: xs).map some → c.cop < 3 → c.ctype < 3 →
          w = (if c.ctype = 1 then 8 else 4) → x.length % w = 0 → (∀ y ∈ xs, y.length = x.length) →
          let el := fun (y : List Byte) (i : Nat) => leNat ((y.drop (w * i)).take w)
          bs.length = x.length ∧ ∀ i < x.length / w,
            el bs i = xs.foldl (fun v y => reducedElement c.ctype c.cop v (el y i) % 2 ^ (8 * w)) (el x i))
  ∧ (∀ s i c, mget s.colls i = some c → c.ccls = 3 → c.ended = false →
    let waits := fun (d : Nat) => c.fired.any (fun p => p.2.1 = d) && !(mgetD c.aged d false) && decide (mgetD c.waitFrom d 0 + 2000000 ≤ s.dieCyc d)
    (∃ d < 4, waits d = true) →
    ∃ a, exec (.collectiveAgeing i) s = .next { s with colls := mset s.colls i { c with aged := a } }
      ∧ ∀ d, mgetD a d false = (mgetD c.aged d false || (decide (d < 4) && waits d)))
  ∧ (∀ s p n r k g d (bs : List Byte), msorted s.colls = true →
    (∀ i c, s.collAt p n = some (i, c) → c.failed = none →
      (d = c.digest → exec (.collectiveTrafficArrival p n r k g d bs) s = .next
        { s with colls := mset s.colls i { c with data := c.data ++ [(r, k, g, bs)] } })
      ∧ (d ≠ c.digest → ∃ t, exec (.collectiveTrafficArrival p n r k g d bs) s = .next t ∧ t.mem = s.mem
        ∧ mget t.colls i = some { c with failed := some 5, holds := [] }
        ∧ ∀ m ∈ c.members, m ≠ s.boot.number.toNat → s.portsTo m ≠ [] →
          ∃ ident, Out.packet ident m 2 (.failure c.peers c.number 5) ∈ t.outputs))
    ∧ (∀ i c, s.collAt p n = some (i, c) → c.failed ≠ none → exec (.collectiveTrafficArrival p n r k g d bs) s = .next s)
    ∧ (s.collAt p n = none → exec (.collectiveTrafficArrival p n r k g d bs) s = .next (if mgetD s.bound p 0 ≤ n
        then { s with early := s.early ++ [⟨p, n, r, k, g, d, bs⟩] } else s)))
  ∧ (∀ s p n status,
    (∀ i c, s.collAt p n = some (i, c) → c.failed = none →
      ∃ t, exec (.collectiveRefusalAnnouncement p ⟨n, status⟩) s = .next t ∧ t.mem = s.mem
        ∧ t.colls = mset s.colls i { c with failed := some status, holds := [] })
    ∧ (s.collAt p n = none → exec (.collectiveRefusalAnnouncement p ⟨n, status⟩) s = .next (if mgetD s.bound p 0 ≤ n
        then { s with announced := s.announced ++ [(p, n, status)] } else s)))
  ∧ ∀ s m, msorted s.colls = true → ∃ t, exec (.memberLost m) s = .next t ∧ t.mem = s.mem
    ∧ ∀ i, mget t.colls i = (mget s.colls i).map (fun c =>
        if m ∈ c.members ∧ c.failed = none then { c with failed := some 7, holds := [] } else c)

/-- FABRIC_WRITE_ARRIVAL and CONTROL_CORE_WRITE change exactly their bytes and show them to every core; a control core also reads memory,
the identity page and the doorbell page, which reads as zero. RDMA_WRITE, RDMA_READ and PCIE_HOST_WRITE act inside a window that permits
them and are answered with an error elsewhere, with memory unchanged; SEND goes to the control cores, and a request of another operation
is answered with an error. FABRIC_WRITE_ACKNOWLEDGEMENT ends one wait. LINK_TRAINED sends the bring-up frame once the number is written,
BRINGUP_FRAME takes the highest common version or leaves the port down, and LINK_FAILURE takes the port out of every route mask and sends
its traffic again. LEASE_RECALL performs what the engine accepted and returns the line. Event 310 is the model's choice (DESIGN CHOICE,
log 33); the cleared bits and the resending (log 65), the moment of the first frames (log 66) and the step of a recall (log 40) are
inferences (DEDUCED). (R229, R230, R238, R250, R308, R310, R356, R357, R358, R363, R364) -/
def Obligations.AgentsOutsideWriteReadAndJoin : Prop :=
  (∀ s pa (bs : List Byte), s.Canonical → Calm s → State.inMap pa bs.length = true →
    (∃ t, exec (.fabricWriteArrival pa bs) s = .next t ∧ BytesPut s.mem t.mem pa bs ∧ ShownToAll t 385 pa bs.length)
    ∧ ∃ t, exec (.controlCoreWrite pa (.write bs)) s = .next t ∧ BytesPut s.mem t.mem pa bs ∧ ShownToAll t 384 pa bs.length)
  ∧ (∀ s pa n,
    let bytes := (List.range n).map (fun i => identityAt (pa + i))
    (Calm s → State.inMap pa n = true → ∃ t, exec (.controlCoreWrite pa (.read n)) s = .next t ∧ t.mem = s.mem
      ∧ t.outputs = .reply (memRead s.mem pa n) :: s.outputs)
    ∧ (s.boot.stage = .running → Config.identityPage ≤ pa → pa + n ≤ Config.identityPage + 4096 →
      exec (.controlCoreWrite pa (.read n)) s = .next { s with outputs := .reply bytes :: s.outputs })
    ∧ (s.boot.stage = .running → Config.doorbellPage ≤ pa → pa + n ≤ Config.doorbellPage + 4096 →
      exec (.controlCoreWrite pa (.read n)) s = .next { s with outputs := .reply (List.replicate n 0) :: s.outputs })
    ∧ (pa = Config.identityPage → n = 64 → bytes = (Config.capability.map (leBytes 4)).flatten))
  ∧ (∀ s n w, mget s.fabricOut n = some w → ∃ t, exec (.fabricWriteAcknowledgement n) s = .next t
    ∧ t = { s with fabricOut := mdel s.fabricOut n, wire := mdel s.wire n, flights := t.flights }
    ∧ ∀ u, mget t.flights u = (mget s.flights u).map (fun f => { f with stall := none }))
  ∧ (∀ s n va (bs : List Byte), s.Canonical → Calm s → va < 2 ^ 64 →
    let inside := fun (write : Bool) (len : Nat) (ws : List MemWin) =>
      ∃ w ∈ ws.take 16, w.base ≤ va ∧ va + len ≤ w.base + w.len ∧ (if write then w.write else w.read) = true
    let reaches := fun (write : Bool) (context len : Nat) (ws : List MemWin) (m : NMap Nat) =>
      inside write len ws ∧ findBlock s context (if write then Want.store else Want.load) false [] va len = .ok m
        ∧ ∀ p ∈ m, hidden s p.2 4096 = false
    let error := Host.Outcome.next { s with outputs := .remoteError n :: s.outputs }
    let writes := fun (i : Instr) (context : Nat) (ws : List MemWin) =>
      (∀ m, reaches true context bs.length ws m →
        ∃ t, exec i s = .next t ∧ BlockPut (markPages s context true m).mem t.mem m va bs ∧ t.outputs = s.outputs)
      ∧ ((∀ m, ¬(reaches true context bs.length ws m)) → exec i s = error)
    let reads := fun (i : Nat → Instr) (context : Nat) (ws : List MemWin) => ∀ len,
      (∀ m, reaches false context len ws m → ∃ t, exec (i len) s = .next t ∧ t.mem = (markPages s context false m).mem
        ∧ t.outputs = .reply (pageBytes (markPages s context false m) m va len) :: s.outputs)
      ∧ ((∀ m, ¬(reaches false context len ws m)) → exec (i len) s = error)
    (∀ x, mget s.qpairs n = some x → writes (.rdmaWrite n va bs) x.context x.wins ∧ reads (.rdmaRead n va) x.context x.wins
      ∧ exec (.send n (.send bs)) s = .next { s with outputs := .send n bs :: s.outputs } ∧ exec (.send n .other) s = error)
    ∧ (mget s.qpairs n = none → exec (.rdmaWrite n va bs) s = error ∧ (∀ len, exec (.rdmaRead n va len) s = error)
      ∧ ∀ request, exec (.send n request) s = error)
    ∧ (s.boot.pcieEndpoint = true →
      (∀ c w, mget s.hostWins n = some (c, w) → writes (.pcieHostWrite n va (.write bs)) c [w]
        ∧ reads (fun len => .pcieHostWrite n va (.read len)) c [w])
      ∧ (mget s.hostWins n = none → ∀ access, exec (.pcieHostWrite n va access) s = error)))
  ∧ (∀ s p, p < 18 → (s.port p).trained = false →
    exec (.linkTrained p) s = .next { s with
      ports := mset s.ports p ⟨true, false, 0, 0, 0, false⟩
      outputs := (if s.boot.numbered then [.bringup 2 p 2 2 s.boot.number.toNat] else []) ++ s.outputs })
  ∧ (∀ s p lo hi peer peerPort, (s.port p).trained = true → (s.port p).up = false →
    exec (.bringupFrame p lo hi peer peerPort) s = .next (if lo ≤ 2 ∧ 2 ≤ hi
      then { s with ports := mset s.ports p { s.port p with version := 2, peer := peer, peerPort := peerPort, up := s.boot.numbered } }
      else { s with outputs := .event 310 [p] :: s.outputs }))
  ∧ (∀ s p, s.Canonical → Calm s → p < 18 → (s.port p).trained = true → s.tables.routes ≠ 0 → msorted s.wire = true →
    ∃ t, exec (.linkFailure p) s = .next t ∧ t.ports = mset s.ports p ⟨false, false, 0, 0, 0, true⟩
      ∧ (∀ a, memGet t.mem a = if s.tables.routes ≤ a ∧ a < s.tables.routes + 2 ^ 24 ∧ (a - s.tables.routes) % 4 = p / 8
          then memGet s.mem a &&& ~~~(1#8 <<< (p % 8)) else memGet s.mem a)
      ∧ ∀ q ∈ s.wire, q.2.port = p → t.portsTo q.2.dest ≠ [] →
          (∃ port ∈ t.portsTo q.2.dest, mget t.wire q.1 = some { q.2 with port := port })
          ∧ .packet q.1 q.2.dest q.2.vc q.2.packet ∈ t.outputs)
  ∧ ∀ s cl line, (∃ l ∈ (s.cluster cl).leases, l.line = line ∧ l.recalled = true) →
    let accepted := fun (r : Request) => r.win.isNone && !r.post && r.line == line && clusterOf r.core == cl
    s.recordedWell (s.performWhere .recall accepted) = true →
    ∃ t, exec (.leaseRecall cl line) s = .next t ∧ (∀ l ∈ (t.cluster cl).leases, l.line ≠ line)
      ∧ t.mem = (s.performWhere .recall accepted).mem
      ∧ ((∀ r ∈ s.requests, accepted r = false) → ∀ k, t.cluster k = if k = cl then { s.cluster cl with
          leases := (s.cluster cl).leases.filter (fun l => l.line != line) } else s.cluster k)

/-- POWER_ON starts the firmware where each stage has an image that verifies, extends register 0 with the first stage's digest and
register 1 with the later ones', and otherwise halts with a report, and with what it has measured. MODULE_NUMBER_WRITE sends the frames of
the trained ports. CLOCK_CHANGE loses no cycle and records each core's change. FIRMWARE_HANDSHAKE agrees on version 1 or refuses; a
service call with any other version is refused without effect. MEASUREMENT_EXTEND extends registers 2 to 7 alone, and ATTESTATION_REPORT
answers with the report of R361. The image's layout, the device key and what a signature draws are open (assumption 13). Events 308 and
359 are the model's choice (DESIGN CHOICE, log 33); SHA-384 and P-384 are those of the public standards (PRESUMED, log 94); the version
check of every call (log 67), the numbering (log 66) and the cycles over a clock change (log 72) are inferences (DEDUCED). (R308, R310,
R311, R324, R331, R359, R360, R361, R362, R365) -/
def Obligations.BootMeasuresAndServicesAnswer : Prop :=
  (∀ s, s.boot.stage = .off →
    let pick := fun (p : List Byte × List Byte) =>
      if s.boot.verifies p.1 then some (imageDigest p.1) else if s.boot.verifies p.2 then some (imageDigest p.2) else none
    let extended := fun (m : BitVec 384) (d : List Byte) =>
      BitVec.ofNat 384 (Sha.beNat (Sha.sha384 (Sha.beBytes 48 m.toNat ++ d)))
    ∀ stages : List (List Byte × List Byte), s.boot.flash = (stages.map (fun p => [p.1, p.2])).flatten →
      (∀ d ds, stages.map pick = (d :: ds).map some → ∃ t, exec .powerOn s = .next t ∧ t.boot.stage = .running ∧ t.boot.number = 0
        ∧ t.boot.numbered = false ∧ t.boot.agreed = none ∧ mgetD t.boot.meas 0 0 = extended 0 d
        ∧ mgetD t.boot.meas 1 0 = ds.foldl extended 0 ∧ (∀ r, 2 ≤ r → mgetD t.boot.meas r 0 = 0)
        ∧ t = { s with boot := t.boot, tables := t.tables, outputs := .event 308 [Config.identityPage, Config.doorbellPage] :: s.outputs })
      ∧ ((stages = [] ∨ ∃ p ∈ stages, pick p = none) → ∃ t, exec .powerOn s = .next t ∧ t.boot.stage = .halted
        ∧ (let ds := ((stages.map pick).takeWhile (·.isSome)).filterMap id
          mgetD t.boot.meas 0 0 = (ds.take 1).foldl extended 0 ∧ mgetD t.boot.meas 1 0 = (ds.drop 1).foldl extended 0)
        ∧ t = { s with boot := t.boot, outputs := .event 359 [] :: s.outputs }))
  ∧ (∀ (b : Boot) image, b.verifies image = true ↔
    (∃ p ∈ b.fused, p.1 < 16 ∧ b.revoked.getLsbD p.1 = false ∧ p.2 = Sha.sha384 (Config.imageKey image))
      ∧ P384.verify (Config.keyPoint (Config.imageKey image)) (Sha.beNat (Sha.sha384 (Config.imageBody image)))
        (Config.imageSignature image).1 (Config.imageSignature image).2 = true)
  ∧ (∀ s n, s.boot.stage = .running → s.boot.numbered = false →
    ∃ t, exec (.moduleNumberWrite n) s = .next t ∧ t.boot = { s.boot with number := n, numbered := true } ∧ t.mem = s.mem
      ∧ (∀ p ∈ s.ports, p.2.trained = true → .bringup 2 p.1 2 2 n.toNat ∈ t.outputs)
      ∧ ∀ p, mget t.ports p = (mget s.ports p).map (fun x => { x with up := x.trained && x.version != 0 }))
  ∧ (∀ s (target : ClockTarget) mhz, s.boot.stage = .running →
    let covers := fun (cl : Nat) => match target with | .die n => cl / 12 = n | .cluster n => cl = n
    (match target with | .die n => n < 4 | .cluster n => n < 48) →
    ∃ t, exec (.clockChange target mhz) s = .next t ∧ t.time = s.time ∧ t.mem = s.mem ∧ (∀ cl, t.cyc cl = s.cyc cl)
      ∧ (∀ cl, covers cl → (t.cluster cl).mhz = mhz) ∧ (∀ cl, ¬(covers cl) → t.cluster cl = s.cluster cl)
      ∧ ∀ d, (∀ r ∈ (s.die d).trace.queue, r ∈ (t.die d).trace.queue)
        ∧ (∀ core, core < 384 → core / 96 = d → covers (core / 8) → (s.cluster (core / 8)).mhz ≠ mhz →
            (s.die d).trace.flags.testBit 0 = true → (⟨s.time, core, 0, 0, 0, 2, core, 0, mhz, true⟩ : TraceRec) ∈ (t.die d).trace.queue)
          ∧ ∀ r ∈ (t.die d).trace.queue, r ∈ (s.die d).trace.queue ∨ covers (r.core / 8) ∧ (s.cluster (r.core / 8)).mhz ≠ mhz)
  ∧ (∀ s v, s.boot.stage = .running → exec (.firmwareHandshake v) s = .next (if 1 ≤ v
    then { s with boot := { s.boot with agreed := some 1 }, outputs := .service 0 [1] :: s.outputs }
    else { s with outputs := .service 1 [] :: s.outputs }))
  ∧ (∀ s ver, s.boot.stage = .running → s.boot.agreed ≠ some ver →
    ∀ d a n i sl si va bp ha sys setup (fl : Option Nat) ms dg nonce,
    ∀ call ∈ ([.traceBlockLoad ver d a, .traceStatusRead ver d, .sieveCountersRead ver d true, .sieveCountersRead ver d false,
      .sessionArm ver a, .sessionCancel ver a, .freeze ver n fl, .unfreeze ver n fl, .debugRead ver n i sl si, .debugWrite ver n i sl si va,
      .breakpointSet ver n d bp ha, .counterProgram ver d sys setup, .monitorProgram ver d n ms, .stallHistogramRead ver d,
      .measurementExtend ver n dg, .attestationReport ver nonce] : List Instr),
      exec call s = .next { s with outputs := .service 1 [] :: s.outputs })
  ∧ ∀ s ver, s.boot.stage = .running → s.boot.agreed = some ver →
    (∀ r d, exec (.measurementExtend ver r d) s = .next (if 2 ≤ r ∧ r ≤ 7
      then { s with
        boot := { s.boot with meas := mset s.boot.meas r (BitVec.ofNat 384 (Sha.beNat (Sha.sha384
          (Sha.beBytes 48 (mgetD s.boot.meas r 0).toNat ++ Sha.beBytes 48 d.toNat)))) }
        outputs := .service 0 [] :: s.outputs }
      else { s with outputs := .service 1 [] :: s.outputs }))
    ∧ ∀ nonce, ∃ r, exec (.attestationReport ver nonce) s = .next { s with outputs := .report r :: .service 0 [] :: s.outputs }
      ∧ r.length = 544 ∧ faultField r 0 4 = 1 ∧ faultField r 4 4 = s.boot.number.toNat ∧ (r.drop 8).take 48 = Sha.beBytes 48 nonce.toNat
      ∧ (∀ i < 8, (r.drop (56 + 48 * i)).take 48 = Sha.beBytes 48 (mgetD s.boot.meas i 0).toNat)
      ∧ faultField r 440 8 = s.boot.revoked.toNat

/-- TRACE_BLOCK_LOAD puts a block in force that keeps the table of R326, refuses any other and is busy while records wait; status and
sieve counters are read and cleared. SIEVE_RUN sieves the first record once no earlier one can come, and writes a kept one with a
full-time and a lost record before it where they are due, or counts it lost without room; a lost record that stands in the queue is
written where it stands. SESSION_ARM takes a block that keeps the table of R312; SESSION_PASS_START puts leases, granules, TLBs, books,
windows and counters in order; SESSION_PASS_END writes the results and ends the session after its last pass; SESSION_CANCEL ends it. When
a block is busy, the delta that the sieve sees and the room that a record needs (log 68), a cancelled session (log 69), the place of a
lost record (log 92) and cores of two sessions (log 93) are inferences (DEDUCED). (R312, R313, R314, R315, R316, R320, R323, R325, R326,
R327, R330, R331) -/
def Obligations.TraceCoresAndSessionsRun : Prop :=
  (∀ s ver, s.boot.stage = .running → s.boot.agreed = some ver →
    let answer := fun (t : State) (status : Nat) (data : List Nat) =>
      (Host.Outcome.next { t with outputs := .service status data :: t.outputs } : Host.Outcome State Fault Refusal)
    (∀ die addr, die < 4 → State.inMap addr 64 = true →
      let b := s.readLatest addr 64
      let fld := fun (a n : Nat) => leNat ((b.drop a).take n)
      let keeps := fld 0 8 % 4096 = 0 ∧ 8 ≤ fld 8 1 ∧ fld 8 1 ≤ 28 ∧ fld 9 1 < 16 ∧ fld 10 2 < 4096 ∧ fld 12 4 = 0 ∧ fld 16 8 % 2 = 0
        ∧ (fld 16 8 ≠ 0 → 1 ≤ fld 24 2 ∧ fld 24 2 ≤ 256) ∧ fld 26 6 = 0 ∧ (∀ k < 8, fld (32 + k) 1 < 16) ∧ fld 40 24 = 0
        ∧ State.inMap (fld 0 8) (16 * 2 ^ fld 8 1) = true
      let program := if fld 16 8 = 0 then [] else (List.range (fld 24 2)).map (fun i => leNat (s.readLatest (fld 16 8 + 2 * i) 2))
      (keeps → (fld 16 8 ≠ 0 → sieveOk program = true) → exec (.traceBlockLoad ver die addr) s =
        if (s.die die).trace.queue.all (fun r => r.w0 % 16 == 4) = true then
          answer (s.setDie die { s.die die with trace :=
            ⟨fld 0 8, fld 8 1, fld 9 1, fld 10 2, program, (List.range 8).map (fun k => fld (32 + k) 1), 0, 0, [], 0, none,
              ((s.die die).trace.queue.map (·.w3)).foldl (· + ·) (s.die die).trace.lost, 0, false, [], (fld 9 1).testBit 3⟩ }) 0 []
        else answer s 3 [])
      ∧ (¬keeps ∨ (fld 16 8 ≠ 0 ∧ sieveOk program = false) → exec (.traceBlockLoad ver die addr) s = answer s 1 []))
    ∧ (∀ die, die < 4 →
      let t := (s.die die).trace
      exec (.traceStatusRead ver die) s =
          answer s 0 [if t.flags.testBit 1 then t.windex % 2 ^ t.lg else t.windex, if t.armed then 1 else 0, t.lostTotal]
      ∧ exec (.sieveCountersRead ver die false) s = answer s 0 ((List.range 16).map (fun i => mgetD t.counters i 0))
      ∧ exec (.sieveCountersRead ver die true) s =
          answer (s.setDie die { s.die die with trace := { t with counters := [] } }) 0 ((List.range 16).map (fun i => mgetD t.counters i 0)))
    ∧ (∀ addr, addr % 128 = 0 → State.inMap addr 128 = true →
      let b := s.readLatest addr 128
      let fld := fun (a n : Nat) => leNat ((b.drop a).take n)
      let keeps := fld 0 1 = 1 ∧ 1 ≤ fld 1 1 ∧ fld 1 1 ≤ 8 ∧ fld 2 1 ≤ 63 ∧ fld 3 1 < 2 ∧ fld 4 4 = 0 ∧ fld 8 8 % 4096 = 0 ∧ 1 ≤ fld 16 4
        ∧ fld 16 4 ≤ 511 ∧ fld 20 4 = 0 ∧ fld 24 8 % 64 = 0 ∧ (∀ i < 4 * fld 1 1, fld (32 + i) 1 ≤ 63) ∧ fld 64 64 = 0
      (keeps → mget s.sessions (fld 2 1) = none → ∃ t z, exec (.sessionArm ver addr) s = .next t ∧ t.mem = s.mem
        ∧ t.sessions = mset s.sessions (fld 2 1) z ∧ z.block = addr ∧ z.passes = fld 1 1 ∧ z.queue = fld 2 1 ∧ z.sig = (fld 3 1).testBit 0
        ∧ z.wsarea = fld 8 8 ∧ z.wsmax = fld 16 4 ∧ z.results = fld 24 8 ∧ (∀ i < 32, z.evsel[i]? = some (fld (32 + i) 1))
        ∧ z.gallery = none ∧ z.pass = 0 ∧ z.running = false ∧ z.cores = [])
      ∧ (¬keeps ∨ (mget s.sessions (fld 2 1)).isSome = true → exec (.sessionArm ver addr) s = answer s 1 []))
    ∧ ∀ addr,
      (∀ q z, s.sessionOf (fun z => z.block == addr) = some (q, z) → ∃ t, exec (.sessionCancel ver addr) s = .next t ∧ t.mem = s.mem
        ∧ t.sessions = mdel s.sessions q ∧ ∀ gid g, z.gallery = some gid → mget s.galleries gid = some g →
            mget t.galleries gid = some { g with session := false, pins := [] })
      ∧ ((∀ q ∈ s.sessions, q.2.block ≠ addr) → exec (.sessionCancel ver addr) s = answer s 1 []))
  ∧ (∀ s die r rs, (s.die die).trace.queue = r :: rs → r.stamp < s.time → s.Canonical → Calm s →
    let k := (s.die die).trace
    let place := fun (i : Nat) => k.buf + 16 * ((k.windex + i) % 2 ^ k.lg)
    let room := fun (n : Nat) => k.flags.testBit 1 = true ∨ k.windex + n ≤ 2 ^ k.lg
    let fullTime := fun (t : State) (i : Nat) =>
      memRead t.mem (place i) 16 = leBytes 4 1 ++ leBytes 4 (r.stamp / 2 ^ 32) ++ leBytes 4 0 ++ leBytes 4 (r.stamp % 2 ^ 32)
    let lostAt := fun (t : State) (n : Nat) => fullTime t 0
      ∧ memRead t.mem (place 1) 16 = leBytes 4 4 ++ leBytes 4 0 ++ leBytes 4 0 ++ leBytes 4 (min n 0xFFFFFFFF)
    (r.w0 % 16 = 4 → ∃ t, exec (.sieveRun die) s = .next t ∧ (t.die die).trace.queue = rs
      ∧ (k.lost + r.w3 ≠ 0 → room 2 → (1 ≤ k.lg → lostAt t (k.lost + r.w3)) ∧ (t.die die).trace.windex = k.windex + 2
          ∧ (t.die die).trace.lost = 0 ∧ (t.die die).trace.gap = true)
      ∧ (k.lost + r.w3 = 0 ∨ ¬(room 2) → t.mem = s.mem ∧ (t.die die).trace.lost = k.lost + r.w3 ∧ (t.die die).trace.windex = k.windex))
    ∧ (r.w0 % 16 ≠ 4 →
      let due := k.lost ≠ 0
      let full := due ∨ k.gap = true ∨ k.last.all (fun l => decide (0xFFFFF < r.stamp - l)) = true
      let before := (if due then 2 else 0) + (if full then 1 else 0)
      let delta := if full then 0 else r.stamp - k.last.getD 0
      let run := sieveRun k.sieve 0 ⟨[BitVec.ofNat 64 (r.w0 + 16 * delta + r.w1 * 2 ^ 32), BitVec.ofNat 64 (r.w2 + r.w3 * 2 ^ 32), 0, 0, 0, 0,
        k.w6, k.w7], k.counters, []⟩
      (r.bypass = true ∨ (run.2 = true ∧ run.1.fired = [] ∧ k.armed = false)) →
        ∃ t, exec (.sieveRun die) s = .next t ∧ (t.die die).trace.queue = rs
          ∧ (r.bypass = false →
              (t.die die).trace.w6 = run.1.reg 6 ∧ (t.die die).trace.w7 = run.1.reg 7 ∧ (t.die die).trace.counters = run.1.counters)
          ∧ (room (before + 1) →
            memRead t.mem (place before) 16 = leBytes 4 (r.w0 + 16 * delta) ++ leBytes 4 r.w1 ++ leBytes 4 r.w2 ++ leBytes 4 r.w3
            ∧ (2 ≤ k.lg → full → fullTime t (before - 1)) ∧ (2 ≤ k.lg → due → lostAt t k.lost)
            ∧ (t.die die).trace.windex = k.windex + before + 1 ∧ (t.die die).trace.last = some r.stamp ∧ (t.die die).trace.lost = 0
            ∧ (t.die die).trace.gap = false)
          ∧ (¬(room (before + 1)) → (t.die die).trace.lostTotal = k.lostTotal + 1
            ∧ (due → room 2 → lostAt t k.lost ∧ (t.die die).trace.lost = 1 ∧ (t.die die).trace.windex = k.windex + 2)
            ∧ (¬due ∨ ¬(room 2) → t.mem = s.mem ∧ (t.die die).trace.lost = k.lost + 1 ∧ (t.die die).trace.windex = k.windex))))
  ∧ (∀ s die r rs, (s.die die).trace.queue = r :: rs → r.stamp < s.time → r.bypass = false → r.w0 % 16 ≠ 4 → (s.die die).trace.lost = 0 →
    (∀ v, (sieveRun (s.die die).trace.sieve 0 v).2 = false) → ∃ t, exec (.sieveRun die) s = .next t ∧ t.mem = s.mem
      ∧ (t.die die).trace.queue = rs ∧ (t.die die).trace.windex = (s.die die).trace.windex)
  ∧ (∀ s q z gid g, s.sessionOf (fun z => !z.running && z.gallery.isSome) = some (q, z) → z.gallery = some gid →
    mget s.galleries gid = some g → s.Canonical → Calm s →
    (z.pass ≠ 0 → s.pinsFree gid (g.again z (s.dieCyc 0)) = true) →
    ∃ t y, exec .sessionPassStart s = .next t ∧ mget t.sessions q = some y
      ∧ y = { z with pass := z.pass + 1, running := true, ids := [], overflow := false, sigs := [], shared := y.shared
                     writtenBack := if z.pass = 0 then 0 else z.granules.length }
      ∧ (∀ c ∈ z.cores, (t.core c).l1 = [] ∧ (t.core c).tlb = [] ∧ (t.cluster (c / 8)).tlb = [])
      ∧ (∀ c ∈ z.cores, (∀ o x, s.ownerOf c = some (o, x) → o = q) →
          (t.core c).cntV = [] ∧ ∀ i < 4, (t.core c).selected i = ((z.evsel.drop (4 * z.pass))[i]?).getD 0 % 64)
      ∧ (∀ k, ∀ l ∈ (t.cluster k).leases, l.context ≠ g.context)
      ∧ (∀ d, (∀ b, ∀ r ∈ mgetD (t.die d).books b [], r.tag / 2 ^ 20 ≠ g.context) ∧ ∀ r ∈ (t.die d).spill, r.tag / 2 ^ 20 ≠ g.context)
      ∧ (∀ p ∈ t.windows, p.2.gallery ≠ gid)
      ∧ (z.pass = 0 → BytesPut s.mem t.mem z.wsarea (List.replicate 8 0))
      ∧ (z.pass ≠ 0 → mget t.galleries gid = some (g.again z (s.dieCyc 0))
        ∧ ((∀ x ∈ z.granules, x % 4096 = 0 ∧ ∀ j < z.granules.length, x ≠ z.wsarea + 4096 * (j + 1)) → z.wsarea % 4096 = 0 → z.granules.Nodup →
            ∀ i x, z.granules[i]? = some x → memRead t.mem x 4096 = memRead s.mem (z.wsarea + 4096 * (i + 1)) 4096)))
  ∧ ∀ s q z gid g, s.sessionOf (fun z => z.running && (match z.gallery.bind (fun g => (mget s.galleries g).map (fun x => (g, x))) with
      | some (i, x) => x.ended.isSome || s.allDone i x
      | none => false)) = some (q, z) → z.gallery = some gid → mget s.galleries gid = some g → s.Canonical → Calm s →
    z.cores.Nodup →
    let n := 64 * (1 + z.cores.length)
    let r := resultsRecord s z
    let ended := z.pass = z.passes ∨ z.overflow = true ∨ s.statusOf g ≠ 0
    ∃ t, exec .sessionPassEnd s = .next t ∧ BytesPut s.mem t.mem (z.results + n * (z.pass - 1)) r ∧ r.length = n
      ∧ faultField r 0 1 = z.pass % 256 ∧ (faultField r 1 1).testBit 0 = (leastOf (mismatches z)).isSome
      ∧ (faultField r 1 1).testBit 1 = z.overflow ∧ faultField r 2 2 = z.cores.length % 2 ^ 16
      ∧ faultField r 4 4 = z.writtenBack % 2 ^ 32 ∧ faultField r 8 4 = z.granules.length % 2 ^ 32
      ∧ (mismatches z = [] → faultField r 12 4 = 0xFFFFFFFF ∧ faultField r 16 2 = 0)
      ∧ (ended → mget t.galleries gid = some { g with session := false, pins := [] } ∧ t.sessions = mdel s.sessions q)
      ∧ (¬ended → t.galleries = s.galleries ∧ ∃ y, mget t.sessions q = some y ∧ y.running = false ∧ y.pass = z.pass ∧ y.gallery = z.gallery
          ∧ y.firstSigs = if z.pass = 1 then z.sigs else z.firstSigs)

/-- FREEZE and UNFREEZE hold and release a context's flights, resident and saved, or one flight. DEBUG_READ and DEBUG_WRITE read and write
the registers, predicates, PC, state byte, window and control registers of a held flight; a write marks the outstanding write-backs of the
thread to the register as discarded. BREAKPOINT_SET, COUNTER_PROGRAM, MONITOR_PROGRAM and STALL_HISTOGRAM_READ do what R331 says,
MONITOR_SAMPLE samples every 64 cycles, and ARITHMETIC_CLOCK_CYCLE advances the time base, counts cycles and lets flights wait. Each
completes where its condition holds. The statuses of the debugger and a written PC (log 70), the readings of counters, monitors and bins
(log 71) and the counts of cycles and of waiting (log 72) are inferences (DEDUCED). (R176, R197, R264, R331, R332, R333, R334, R335, R336,
R337, R338, R339) -/
def Obligations.DebuggersCountersAndTheClock : Prop :=
  (∀ s ver, s.boot.stage = .running → s.boot.agreed = some ver →
    let answer := fun (t : State) (status : Nat) (data : List Nat) =>
      (Host.Outcome.next { t with outputs := .service status data :: t.outputs } : Host.Outcome State Fault Refusal)
    (∀ (on : Bool),
      let call := fun (c : Nat) (u : Option Nat) => if on = true then Instr.freeze ver c u else Instr.unfreeze ver c u
      (∀ c, c < 4096 → ∃ t, exec (call c none) s = .next t ∧ t.mem = s.mem
        ∧ (∀ u, mget t.flights u = (mget s.flights u).map (fun f =>
            { f with debugFrozen := if f.context = c then on else f.debugFrozen, stall := none }))
        ∧ ∀ k v, (s.ctxt k).saved = some v → ∃ v', (t.ctxt k).saved = some v' ∧ (k ≠ c → v' = v)
          ∧ (k = c → ∀ u, mget v'.flights u = (mget v.flights u).map (fun f =>
              { f with debugFrozen := if f.context = c then on else f.debugFrozen })))
      ∧ (∀ c u f, c < 4096 → mget s.flights u = some f → f.context = c → ∃ t, exec (call c (some u)) s = .next t ∧ t.mem = s.mem
        ∧ mget t.flights u = some { f with debugFrozen := on, stall := none }
        ∧ ∀ v, v ≠ u → mget t.flights v = (mget s.flights v).map (fun g => { g with stall := none }))
      ∧ ∀ c u f, c < 4096 → mget s.flights u = some f → f.context ≠ c → exec (call c (some u)) s = answer s 1 [])
    ∧ (∀ u f, mget s.flights u = some f → f.debugFrozen = false → f.frozen = none → ∀ item x sibs v,
      exec (.debugRead ver u item x sibs) s = answer s 2 [] ∧ exec (.debugWrite ver u item x sibs v) s = answer s 2 [])
    ∧ (∀ u f, mget s.flights u = some f → f.debugFrozen = true ∨ f.frozen.isSome = true → ∀ x t0, mget f.threads x = some t0 → msorted f.regs = true →
      ∀ (sibs : BitVec 3) (v : BitVec 64),
      let read := fun (item : DebugItem) (vs : List Nat) => exec (.debugRead ver u item x sibs) s = answer s 0 vs
      let calm := fun (h : Flight) => ∀ p ∈ h.threads, p.2.barred = false
      let writeOf := fun (item : DebugItem) (g : Flight) (expanded drawn : Nat) =>
        let s1 := (s.count f 0x33 expanded).count f 0x32 drawn
        exec (.debugWrite ver u item x sibs v) s = answer ((s1.setFlight u g).barrierCheck u g) 0 []
        ∧ ((∀ p ∈ s.flights, calm p.2) → calm g → exec (.debugWrite ver u item x sibs v) s = answer (s1.setFlight u g) 0 [])
      let write := fun (item : DebugItem) (g : Flight) => writeOf item g 0 0
      (∀ n, n < (if f.level = 3 then 128 else 512) →
        read (.reg n) (((if f.lane then [0] else [0, 1, 2]).filter (fun k => sibs.getLsbD k)).map (fun k => (f.readReg n x k).toNat))
        ∧ (mget f.regs n = none → f.peak ≤ f.footprint → exec (.debugWrite ver u (.reg n) x sibs v) s = answer s 1 [])
        ∧ ((mget f.regs n).isSome = true ∨ (mget f.regs n = none ∧ f.footprint < f.peak ∧ s.canMap u f (f.footprint + 1) = true) →
          ∃ g, writeOf (.reg n) g (match mget f.regs n with | some (.uni _ _ _) => 1 | _ => 0)
              (if mget f.regs n = none ∧ f.typical ≤ f.footprint then 1 else 0) ∧ (∀ k < 3, g.readReg n x k = if sibs.getLsbD (shown f k) = true then v.setWidth 32 else f.readReg n x k)
            ∧ (∀ m, m ≠ n → mget g.regs m = mget f.regs m) ∧ (∀ y ≠ x, y < slots f → ∀ k < 3, g.readReg n y k = f.readReg n y k)
            ∧ g = { f with regs := g.regs, entries := f.entries.map (fun e =>
                if n ∈ discardable e ∧ x ∈ e.mask then { e with discards := (x, n) :: e.discards } else e) }))
      ∧ (read .preds [t0.preds.toNat] ∧ write .preds (f.setThread x { t0 with preds := v.setWidth 12 }))
      ∧ (read .pc [t0.pc.toNat] ∧ (v.toNat % 4 = 0 → ∃ g, write .pc g ∧ (g.thread x).pc = v ∧ g.regs = f.regs
          ∧ (∀ y ≠ x, g.thread y = f.thread y)))
      ∧ (read .state [stateByte t0] ∧ ∀ st, byteState v.toNat = some st → v.toNat < 128 → (v.toNat.testBit 5 = true → t0.inst.isSome = true) →
          write .state (f.setThread x { t0 with
            st := st, solo := v.toNat.testBit 3, handler := v.toNat.testBit 4, barred := v.toNat.testBit 6
            inst := if v.toNat.testBit 5 then t0.inst else none }))
      ∧ (read .window [f.window] ∧ (f.level ≠ 3 → v.toNat ≤ 480 → v.toNat % 16 = 0 → write .window { f with window := v.toNat }))
      ∧ (read .flags ((List.range 12).map f.flagCount) ∧ read .scoreboard f.sb
        ∧ (∃ words operands, recordImage f.lane (32 * f.entries.length) f.entries = (words, operands)
          ∧ read .record ((words ++ operands).map (·.toNat)))
        ∧ ∀ item ∈ ([.flags, .scoreboard, .record] : List DebugItem), exec (.debugWrite ver u item x sibs v) s = answer s 1 [])
      ∧ ∀ num ∈ ([0x100, 0x101, 0x102, 0x103, 0x106, 0x107, 0x108, 0x10A, 0x10B, 0x10F] : List Nat),
        read (.ctl (BitVec.ofNat 14 num)) [ctlReg s f num]
        ∧ ∀ k, (num, k) ∈ writtenControl f.narrow f.ctl (v.setWidth 32) → write (.ctl (BitVec.ofNat 14 num)) { f with ctl := k })
    ∧ (∀ c z w u f, mget s.flights u = none → s.savedIn u = some (c, z, w, f) → s.ctxt c = z → z.saved = some w →
      f.debugFrozen = true ∨ f.frozen.isSome = true → ∀ x t0, mget f.threads x = some t0 → ∀ (sibs : BitVec 3) (v : BitVec 64),
      let read := fun (item : DebugItem) (vs : List Nat) => exec (.debugRead ver u item x sibs) s = answer s 0 vs
      let write := fun (item : DebugItem) (g : Flight) => exec (.debugWrite ver u item x sibs v) s =
        answer (s.setCtxt c { z with saved := some { w with flights := mset w.flights u g } }) 0 []
      (∀ n, n < (if f.level = 3 then 128 else 512) → msorted f.regs = true →
        read (.reg n) (((if f.lane then [0] else [0, 1, 2]).filter (fun k => sibs.getLsbD k)).map (fun k => (f.readReg n x k).toNat))
        ∧ ((mget f.regs n).isSome = true ∨ f.footprint < f.peak → ∃ g, write (.reg n) g
          ∧ ∀ k < 3, g.readReg n x k = if sibs.getLsbD (shown f k) = true then v.setWidth 32 else f.readReg n x k))
      ∧ (read .preds [t0.preds.toNat] ∧ write .preds { f.setThread x { t0 with preds := v.setWidth 12 } with sb := [] })
      ∧ read .pc [t0.pc.toNat] ∧ read .state [stateByte t0] ∧ read .window [f.window] ∧ read .flags ((List.range 12).map f.flagCount))
    ∧ (∀ c i (a : BitVec 64) (h : BitVec 32), c < 4096 → i < 4 → exec (.breakpointSet ver c i a h) s = answer (s.setCtxt c { s.ctxt c with
        bps := if a = 0 then mdel (s.ctxt c).bps i else mset (s.ctxt c).bps i ⟨a, h.toNat⟩ }) 0 [])
    ∧ (∀ core (setup : CounterSetup), core < 384 →
      let k := s.core core
      ((∀ q ∈ s.sessions, core ∈ q.2.cores → core ∈ q.2.shared) → ∃ k',
        exec (.counterProgram ver core true setup) s = answer (s.setCore core k') 0
          ([k'.cntSel.toNat, k'.cntCtl.toNat] ++ (List.range 4).map (fun i => mgetD k'.cntV i 0))
        ∧ k' = { k with cntSel := k'.cntSel, cntCtl := k'.cntCtl, cntV := k'.cntV }
        ∧ (∀ i < 4, k'.selected i = ((setup.sel.getD k.cntSel).toNat / 2 ^ (8 * i)) % 64)
        ∧ k'.cntCtl.getLsbD 0 = (setup.ctl.getD k.cntCtl).getLsbD 0 ∧ k'.cntCtl.getLsbD 1 = (setup.ctl.getD k.cntCtl).getLsbD 1
        ∧ k'.cntCtl.toNat / 16 = (setup.ctl.getD k.cntCtl).toNat / 16 % 4096
        ∧ ∀ i, mgetD k'.cntV i 0 = match setup.counts.reverse.find? (fun p => p.1.toNat == i) with
            | some p => p.2.toNat
            | none => mgetD k.cntV i 0)
      ∧ ((∃ q ∈ s.sessions, core ∈ q.2.cores ∧ core ∉ q.2.shared) → exec (.counterProgram ver core true setup) s = answer s 3 [])
      ∧ exec (.counterProgram ver core false setup) s = answer s 1 [])
    ∧ (∀ core i m, core < 384 → i < 4 →
      (m.quantity < 8 → ∃ m', exec (.monitorProgram ver core i (some m)) s = answer (s.setCore core { s.core core with
          monitors := mset (s.core core).monitors i ⟨{ m with filter := m' }, 0, 0, 0, 0, []⟩
          samples := if (s.core core).monitors = [] then s.cycAt core / 64 else (s.core core).samples }) 0 (List.replicate 20 0)
        ∧ ∀ c < 4096, filterOn m' c = filterOn m.filter c)
      ∧ ∀ v, mget (s.core core).monitors i = some v → exec (.monitorProgram ver core i none) s =
          answer s 0 ([v.count, v.min, v.max, v.sum] ++ (List.range 16).map (fun b => mgetD v.bins b 0)))
    ∧ ∀ core, core < 384 → ∃ t, exec (.stallHistogramRead ver core) s = answer t 0
        ((List.range 100).map (fun n => mgetD (s.quarter core (n / 25)).hist (n % 25) 0))
      ∧ t = { s with cores := t.cores } ∧ ∀ q < 4, t.quarter core q = { s.quarter core q with hist := [] })
  ∧ (∀ s core, 64 * ((s.core core).samples + 1) ≤ s.cycAt core → ∃ k, exec (.monitorSample core) s = .next (s.setCore core k)
    ∧ k = { s.core core with samples := s.cycAt core / 64, monitors := k.monitors }
    ∧ ∀ i m, mget (s.core core).monitors i = some m →
      (m.setup.quantity < 5 ∨ m.setup.filter.getLsbD 0 = false → mget k.monitors i = some m)
      ∧ (5 ≤ m.setup.quantity → m.setup.filter.getLsbD 0 = true → ∃ m', mget k.monitors i = some m' ∧ m'.count = m.count + 1
        ∧ (m.setup.quantity = 6 → m'.sum = m.sum + (s.flights.filter (fun p => p.2.core == core && filterOn m.setup.filter p.2.context)).length)))
  ∧ ∀ s, (∀ p ∈ s.flights, (∀ e ∈ p.2.entries, e.replay = false) ∧ ∀ t ∈ p.2.threads, t.2.barred = false ∧ t.2.awaiting = none) →
    ∃ t, exec .arithmeticClockCycle s = .next t ∧ t.time = s.time + 1
    ∧ t = { s with time := s.time + 1, cores := t.cores, flights := t.flights }
    ∧ (∀ k, t.core k = { s.core k with cntV := (t.core k).cntV, quarters := (t.core k).quarters })
    ∧ (∀ k q, t.quarter k q = { s.quarter k q with hist := (t.quarter k q).hist, took := (t.quarter k q).took }
      ∧ (q < 4 → (t.quarter k q).took = if t.cyc (k / 8) = s.cyc (k / 8) then (s.quarter k q).took else []))
    ∧ (∀ k q, q < 4 → (s.core k).cntCtl.getLsbD 0 = true →
      let lets := fun (c : Nat) => filterOn (s.core k).cntCtl c
      let took := (s.quarter k q).took
      let eligible := (took.filter (fun p => lets p.2)).length + (s.flights.filter (fun p => p.2.core == k && p.2.quarter == q
        && s.eligible p.2 && !(took.any (fun x => x.1 == p.1)) && lets p.2.context)).length
      mgetD (t.quarter k q).hist eligible 0 =
        if t.cyc (k / 8) = s.cyc (k / 8) then mgetD (s.quarter k q).hist eligible 0
        else (mgetD (s.quarter k q).hist eligible 0 + (t.cyc (k / 8) - s.cyc (k / 8))) % 2 ^ 64)
    ∧ (∀ cl, (s.cluster cl).mhz = 1000 → (s.cluster cl).since ≤ s.time → t.cyc cl = s.cyc cl + 1)
    ∧ ∀ u f, mget s.flights u = some f →
      let n := t.cyc (f.core / 8) - s.cyc (f.core / 8)
      mget t.flights u = some { f with
        waiting := if n = 0 then f.waiting else if s.eligible f = true ∧ s.tookNow u f = false then f.waiting + n else 0
        stall := if f.stall = some .nap ∨ (n ≠ 0 ∧ f.stall = some .flag) then none else f.stall }

/-- For each format, words put together bit by bit from the tables of the spec decode to the operations they stand
for: majors, minors, modes, conditions, sizes, orders, types and scale registers. (R16, R21, R22, R23, R26, R28, R30,
R33, R34, R35, R36, R126) -/
def Obligations.DecodedWords : Prop :=
  ∀ p ∈ ([
    (0x0C50A960, .iaddmin false 20 21 22 false false), (0x52505678, .movi true 20 0x05678), (0x4C50AA0A, .shri false 20 21 5 false),
    (0x2400A150, .icmp false .set 0 20 21 .eq), (0x5C50A964, .ffma false 20 21 22 false false),
    (0x6850B180, .ddiv false 20 22 24 false false), (0x7050A820, .cvt false 20 21 2 false), (0x7458A000, .digits 22 20 .f32 false),
    (0x7400A17C, .chkd 20 .f32 23 false), (0x7C250A96, .qbx .bx8 .h16 20 21 22), (0x7E05CA16, .dqbx .bx8 23 20 22),
    (0x8050A964, .shflUp 20 21 22 false false), (0x885CA80C, .xscan 23 21 false), (0x8860A800, .xadd 24 21 false),
    (0x8464000C, .voteCount 25 0), (0x78000000, .solo), (0x93C00008, .call 15 false 8), (0x94200000, .ret), (0x98000000, .exit),
    (0x9E508241, .ld true 20 16 .b32 .sync 1), (0x9C548200, .ld false 21 16 .b32 .plain 0), (0xA0508200, .st false 20 16 .b32 .plain 0),
    (0xBC400280, .arrive 5), (0xBC600286, .await 5 6), (0xBC80C814, .waitge 3 16 20), (0xBC000003, .phase 3), (0xBC200000, .bar),
    (0xC0010814, .copyG2s 4 16 20), (0xC0248214, .copyS2g 18 4 20), (0xC8080818, .mma .v .bx8 32 16 6 false),
    (0xDC328545, .mcall 3 20 21 5), (0xE005010A, .srd 20 0x10A), (0xE025010A, .swr 20 0x10A)] : List (Nat × Instr)),
    decodeWord p.1 = .ok p.2

/-- For every operation whose operands are legal, the encoder writes a word of 32 bits and the decoder reads the same
operation, with every operand, from it; the decoder answers only operations whose operands are legal; and every
constructor that has no word is a step. (R16, R19, R21, R22, R27, R28, R29, R30, R33, R35, R36) -/
def Obligations.EveryOperationDecodesFromItsWord : Prop :=
  (∀ i w, i.wf = true → encode i = some w → w < 2 ^ 32 ∧ decodeWord w = .ok i)
  ∧ (∀ w i, decodeWord w = .ok i → i.wf = true)
  ∧ ∀ i, encode i = none ↔ i.isStep = true

/-- Where the agenda asks for a flight's issue, or with an empty agenda where no fairness turn is due, every flight's
eligibility is known and the flight is the first that its quarter chooses, a step is exec of the operation that the
next word of the flight's clause decodes to, with that flight selected; a word that is no operation raises the
illegal-encoding trap; without a clause in progress the step is the delivery of the flight's instability records where
that is due, else the start of its next clause. Beside exec's effect the issue is noted: the quarter has chosen the flight in this cycle, its
wait is over, and it is overdue no more; where the attempt left it held, or its fetch slipped, or did not happen, nothing is
noted. Where the agenda asks for a step of the machine on units that the module has, the step is exec of it, noted as an issue where it is
one; a cycle of the clock first waits until every eligibility is known and no sample is due; and where it asks for anything else as an
event, nothing happens. A word placed by withFetchWord after reset is run by the very next step. The agenda and the order of
agents are the model's (log 2), the look at a flight's eligibility is an inference (log 22), and that withFetchWord stands for the placing of a
gallery is the model's choice (log 16). (R12, R13, R190, R204, R264) -/
def Obligations.AStepRunsTheDecodedOperation : Prop :=
  let runs := fun (s t : State) (u : Nat) (f : Flight) =>
    let issues := fun (r : Res) => step s = noteIssue u f s.undone r
    (∀ c i, f.clause = some c → decodeWord c.word = .ok i → issues (exec i { t with cur := some u }))
    ∧ (∀ c e, f.clause = some c → decodeWord c.word = .error e →
      issues (.next (({ t with cur := some u } : State).takeTrap u f c [] ⟨.illegal, 0, 0, 0, c.group⟩)))
    ∧ (f.clause = none → deliverable f = true → issues (exec (.instabilityDelivery u) t))
    ∧ (f.clause = none → deliverable f = false → issues (exec .clauseStart { t with cur := some u }))
  (∀ s u f rest, s.agenda = .issue u :: rest → mget s.flights u = some f → s.chosen u f = true → runs s { s with agenda := rest } u f)
  ∧ (∀ s u f, s.agenda = [] → msorted s.flights = true → (∀ p ∈ s.flights, p.2.fairDue = none) →
    (∀ p ∈ s.flights, s.ready p.2 = true → p.2.stall ≠ none) →
    s.flights.find? (fun p => s.chosen p.1 p.2) = some (u, f) → runs s s u f)
  ∧ (∀ u f n (r : Res),
    ((∀ t, r ≠ .next t) → noteIssue u f n r = r)
    ∧ ∀ t, r = .next t →
      (t.undone ≠ n → noteIssue u f n r = r)
      ∧ ∀ g, mget t.flights u = some g → t.undone = n →
        ((g.stall ≠ none ∧ g.stall ≠ some .clear) ∨ g.slip = true → noteIssue u f n r = r)
        ∧ (g.stall = none ∨ g.stall = some .clear → g.slip = false → ∃ t', noteIssue u f n r = .next t'
          ∧ (let noted := { g with waiting := 0, overdue := false, opEnd := (t.quarter f.core f.quarter).freeAt }
            t' = { t with cores := t'.cores, flights := mset t.flights u noted })
          ∧ (∀ k, t'.core k = { t.core k with quarters := (t'.core k).quarters })
          ∧ ∀ k q, ∃ took, t'.quarter k q = { t.quarter k q with took := took }
            ∧ ∀ p, p ∈ took ↔ p ∈ (t.quarter k q).took ∨ (k = f.core ∧ q = f.quarter ∧ p = (u, f.context) ∧ ∀ x ∈ (t.quarter k q).took, x.1 ≠ u)))
  ∧ (∀ s i rest, s.agenda = .event i :: rest →
    let t := { s with agenda := rest }
    (i.isStep = true → i.wf = true → i ≠ .arithmeticClockCycle →
      ((∀ u f, mget s.flights u = some f → ¬(i = .instabilityDelivery u) ∧ ¬(i = .clauseStart ∧ s.cur = some u)) → step s = exec i t)
      ∧ ∀ u f, mget s.flights u = some f → i = .instabilityDelivery u ∨ (i = .clauseStart ∧ s.cur = some u) →
          step s = noteIssue u f s.undone (exec i t))
    ∧ (i = .arithmeticClockCycle → (∀ p ∈ s.flights, s.ready p.2 = true → p.2.stall ≠ none) →
      ((∀ p ∈ s.cores, s.sampleDue p.1 = false) → step s = exec i t)
      ∧ ∀ p, s.cores.find? (fun p => s.sampleDue p.1) = some p → step s = exec (.monitorSample p.1) s)
    ∧ ((i.isStep = false ∨ i.wf = false) → step s = .next { t with undone := s.undone + 1 }))
  ∧ ∀ w i, w < 2 ^ 32 → decodeWord w = .ok i → ∃ f, mget (State.reset.withFetchWord 32 w).flights 1 = some f
    ∧ step (State.reset.withFetchWord 32 w) =
      noteIssue 1 f 0 (exec i { State.reset.withFetchWord 32 w with agenda := [], cur := some 1 })

/-- After reset every doorbell's tail is 0, the next wing is searched from cluster 0, the permission counts are 16,
the counters and their registers are 0, every cluster's clock is the nominal 1,000 MHz, the measurement registers and
the module number are zero and the number is not written, and memory is in canonical form. That unwritten memory reads
zero is the model's choice (log 1). (R3, R250, R260, R265, R332, R360, R365) -/
def Obligations.TheModuleAfterReset : Prop :=
  let s := State.reset
  (∀ q, (s.queue q).tail = 0) ∧ (s.lastCluster + 1) % 48 = 0 ∧ (∀ c q, (s.quarter c q).perm = 16)
    ∧ (∀ c, (s.core c).cntSel = 0 ∧ (s.core c).cntCtl = 0 ∧ ∀ i, mgetD (s.core c).cntV i 0 = 0)
    ∧ (∀ cl, (s.cluster cl).mhz = 1000) ∧ (∀ r, mgetD s.boot.meas r 0 = 0) ∧ s.boot.number = 0 ∧ s.boot.numbered = false
    ∧ s.Canonical ∧ ∀ a, memGet s.mem a = 0

/-- Whatever the step, of a flight's operation or of any unit, where it answers a next state from a state whose memory
is in canonical form, memory is again in canonical form: bytes at strictly rising addresses, none listed that reads as
an unlisted one. The form itself is the model's (log 1). (R6, R227, R363, R364) -/
def Obligations.MemoryStaysCanonical : Prop :=
  ∀ s t, s.Canonical → step s = .next t → t.Canonical
end

