-- ==== Sys2Proof/Laws/Dispatch.lean ====
section
/-! SUPPORT. What each instruction and step means, one equation for each constructor. -/

namespace Sys2Proof.Machine

theorem exec_iadd {u d a b la lb} (s : State) : exec (.iadd u d a b la lb) s = execIadd u d a b la lb s := rfl
theorem exec_isub {u d a b la lb} (s : State) : exec (.isub u d a b la lb) s = execIsub u d a b la lb s := rfl
theorem exec_imin {u d a b la lb} (s : State) : exec (.imin u d a b la lb) s = execImin u d a b la lb s := rfl
theorem exec_imax {u d a b la lb} (s : State) : exec (.imax u d a b la lb) s = execImax u d a b la lb s := rfl
theorem exec_imul {u d a b la lb} (s : State) : exec (.imul u d a b la lb) s = execImul u d a b la lb s := rfl
theorem exec_imulh {u d a b la lb} (s : State) : exec (.imulh u d a b la lb) s = execImulh u d a b la lb s := rfl
theorem exec_imulhu {u d a b la lb} (s : State) : exec (.imulhu u d a b la lb) s = execImulhu u d a b la lb s := rfl
theorem exec_imad {u d a b la lb} (s : State) : exec (.imad u d a b la lb) s = execImad u d a b la lb s := rfl
theorem exec_iaddmin {u d a b la lb} (s : State) : exec (.iaddmin u d a b la lb) s = execIaddmin u d a b la lb s := rfl
theorem exec_iaddmax {u d a b la lb} (s : State) : exec (.iaddmax u d a b la lb) s = execIaddmax u d a b la lb s := rfl
theorem exec_iabsd {u d a b la lb} (s : State) : exec (.iabsd u d a b la lb) s = execIabsd u d a b la lb s := rfl
theorem exec_iminu {u d a b la lb} (s : State) : exec (.iminu u d a b la lb) s = execIminu u d a b la lb s := rfl
theorem exec_andR {u d a b la lb} (s : State) : exec (.andR u d a b la lb) s = execAndR u d a b la lb s := rfl
theorem exec_orR {u d a b la lb} (s : State) : exec (.orR u d a b la lb) s = execOrR u d a b la lb s := rfl
theorem exec_xorR {u d a b la lb} (s : State) : exec (.xorR u d a b la lb) s = execXorR u d a b la lb s := rfl
theorem exec_andn {u d a b la lb} (s : State) : exec (.andn u d a b la lb) s = execAndn u d a b la lb s := rfl
theorem exec_shl {u d a b la lb} (s : State) : exec (.shl u d a b la lb) s = execShl u d a b la lb s := rfl
theorem exec_shr {u d a b la lb} (s : State) : exec (.shr u d a b la lb) s = execShr u d a b la lb s := rfl
theorem exec_sar {u d a b la lb} (s : State) : exec (.sar u d a b la lb) s = execSar u d a b la lb s := rfl
theorem exec_rol {u d a b la lb} (s : State) : exec (.rol u d a b la lb) s = execRol u d a b la lb s := rfl
theorem exec_popc {u d a la} (s : State) : exec (.popc u d a la) s = execPopc u d a la s := rfl
theorem exec_clz {u d a la} (s : State) : exec (.clz u d a la) s = execClz u d a la s := rfl
theorem exec_brev {u d a la} (s : State) : exec (.brev u d a la) s = execBrev u d a la s := rfl
theorem exec_bfx {u d a b la lb} (s : State) : exec (.bfx u d a b la lb) s = execBfx u d a b la lb s := rfl
theorem exec_mov {u d a la} (s : State) : exec (.mov u d a la) s = execMov u d a la s := rfl
theorem exec_movp {d} (s : State) : exec (.movp d) s = execMovp d s := rfl
theorem exec_pmov {a la} (s : State) : exec (.pmov a la) s = execPmov a la s := rfl
theorem exec_bfi {u d a b la lb} (s : State) : exec (.bfi u d a b la lb) s = execBfi u d a b la lb s := rfl
theorem exec_sel {u d a b p} (s : State) : exec (.sel u d a b p) s = execSel u d a b p s := rfl
theorem exec_icmp {u mode p a b cond} (s : State) : exec (.icmp u mode p a b cond) s = execIcmp u mode p a b cond s := rfl
theorem exec_fcmp {u mode p a b cond} (s : State) : exec (.fcmp u mode p a b cond) s = execFcmp u mode p a b cond s := rfl
theorem exec_dcmp {u mode p a b cond} (s : State) : exec (.dcmp u mode p a b cond) s = execDcmp u mode p a b cond s := rfl
theorem exec_pand {d a b} (s : State) : exec (.pand d a b) s = execPand d a b s := rfl
theorem exec_por {d a b} (s : State) : exec (.por d a b) s = execPor d a b s := rfl
theorem exec_pxor {d a b} (s : State) : exec (.pxor d a b) s = execPxor d a b s := rfl
theorem exec_pnot {d a} (s : State) : exec (.pnot d a) s = execPnot d a s := rfl
theorem exec_lea {u d a b sh la lb} (s : State) : exec (.lea u d a b sh la lb) s = execLea u d a b sh la lb s := rfl
theorem exec_iadd64 {u d a b la lb} (s : State) : exec (.iadd64 u d a b la lb) s = execIadd64 u d a b la lb s := rfl
theorem exec_isub64 {u d a b la lb} (s : State) : exec (.isub64 u d a b la lb) s = execIsub64 u d a b la lb s := rfl
theorem exec_imulw {u d a b la lb} (s : State) : exec (.imulw u d a b la lb) s = execImulw u d a b la lb s := rfl
theorem exec_shl64 {u d a b la lb} (s : State) : exec (.shl64 u d a b la lb) s = execShl64 u d a b la lb s := rfl
theorem exec_iaddi {u d a imm la} (s : State) : exec (.iaddi u d a imm la) s = execIaddi u d a imm la s := rfl
theorem exec_andi {u d a imm la} (s : State) : exec (.andi u d a imm la) s = execAndi u d a imm la s := rfl
theorem exec_ori {u d a imm la} (s : State) : exec (.ori u d a imm la) s = execOri u d a imm la s := rfl
theorem exec_xori {u d a imm la} (s : State) : exec (.xori u d a imm la) s = execXori u d a imm la s := rfl
theorem exec_shli {u d a amt la} (s : State) : exec (.shli u d a amt la) s = execShli u d a amt la s := rfl
theorem exec_shri {u d a amt la} (s : State) : exec (.shri u d a amt la) s = execShri u d a amt la s := rfl
theorem exec_sari {u d a amt la} (s : State) : exec (.sari u d a amt la) s = execSari u d a amt la s := rfl
theorem exec_roli {u d a amt la} (s : State) : exec (.roli u d a amt la) s = execRoli u d a amt la s := rfl
theorem exec_movi {u d imm} (s : State) : exec (.movi u d imm) s = execMovi u d imm s := rfl
theorem exec_movh {u d imm} (s : State) : exec (.movh u d imm) s = execMovh u d imm s := rfl
theorem exec_fadd {u d a b la lb} (s : State) : exec (.fadd u d a b la lb) s = execFadd u d a b la lb s := rfl
theorem exec_fsub {u d a b la lb} (s : State) : exec (.fsub u d a b la lb) s = execFsub u d a b la lb s := rfl
theorem exec_fmul {u d a b la lb} (s : State) : exec (.fmul u d a b la lb) s = execFmul u d a b la lb s := rfl
theorem exec_fmin {u d a b la lb} (s : State) : exec (.fmin u d a b la lb) s = execFmin u d a b la lb s := rfl
theorem exec_fmax {u d a b la lb} (s : State) : exec (.fmax u d a b la lb) s = execFmax u d a b la lb s := rfl
theorem exec_ffma {u d a b la lb} (s : State) : exec (.ffma u d a b la lb) s = execFfma u d a b la lb s := rfl
theorem exec_ffms {u d a b la lb} (s : State) : exec (.ffms u d a b la lb) s = execFfms u d a b la lb s := rfl
theorem exec_fdiv {u d a b la lb} (s : State) : exec (.fdiv u d a b la lb) s = execFdiv u d a b la lb s := rfl
theorem exec_fsqrt {u d a la} (s : State) : exec (.fsqrt u d a la) s = execFsqrt u d a la s := rfl
theorem exec_frcp {u d a la} (s : State) : exec (.frcp u d a la) s = execFrcp u d a la s := rfl
theorem exec_frsq {u d a la} (s : State) : exec (.frsq u d a la) s = execFrsq u d a la s := rfl
theorem exec_fexp2 {u d a la} (s : State) : exec (.fexp2 u d a la) s = execFexp2 u d a la s := rfl
theorem exec_flog2 {u d a la} (s : State) : exec (.flog2 u d a la) s = execFlog2 u d a la s := rfl
theorem exec_fsin {u d a la} (s : State) : exec (.fsin u d a la) s = execFsin u d a la s := rfl
theorem exec_fcos {u d a la} (s : State) : exec (.fcos u d a la) s = execFcos u d a la s := rfl
theorem exec_fabs {u d a la} (s : State) : exec (.fabs u d a la) s = execFabs u d a la s := rfl
theorem exec_fneg {u d a la} (s : State) : exec (.fneg u d a la) s = execFneg u d a la s := rfl
theorem exec_ffloor {u d a la} (s : State) : exec (.ffloor u d a la) s = execFfloor u d a la s := rfl
theorem exec_fceil {u d a la} (s : State) : exec (.fceil u d a la) s = execFceil u d a la s := rfl
theorem exec_ftrunc {u d a la} (s : State) : exec (.ftrunc u d a la) s = execFtrunc u d a la s := rfl
theorem exec_frint {u d a la} (s : State) : exec (.frint u d a la) s = execFrint u d a la s := rfl
theorem exec_dadd {u d a b la lb} (s : State) : exec (.dadd u d a b la lb) s = execDadd u d a b la lb s := rfl
theorem exec_dsub {u d a b la lb} (s : State) : exec (.dsub u d a b la lb) s = execDsub u d a b la lb s := rfl
theorem exec_dmul {u d a b la lb} (s : State) : exec (.dmul u d a b la lb) s = execDmul u d a b la lb s := rfl
theorem exec_dfma {u d a b la lb} (s : State) : exec (.dfma u d a b la lb) s = execDfma u d a b la lb s := rfl
theorem exec_ddiv {u d a b la lb} (s : State) : exec (.ddiv u d a b la lb) s = execDdiv u d a b la lb s := rfl
theorem exec_dsqrt {u d a la} (s : State) : exec (.dsqrt u d a la) s = execDsqrt u d a la s := rfl
theorem exec_dmin {u d a b la lb} (s : State) : exec (.dmin u d a b la lb) s = execDmin u d a b la lb s := rfl
theorem exec_dmax {u d a b la lb} (s : State) : exec (.dmax u d a b la lb) s = execDmax u d a b la lb s := rfl
theorem exec_hadd2 {u d a b la lb} (s : State) : exec (.hadd2 u d a b la lb) s = execHadd2 u d a b la lb s := rfl
theorem exec_hmul2 {u d a b la lb} (s : State) : exec (.hmul2 u d a b la lb) s = execHmul2 u d a b la lb s := rfl
theorem exec_hfma2 {u d a b la lb} (s : State) : exec (.hfma2 u d a b la lb) s = execHfma2 u d a b la lb s := rfl
theorem exec_bfma2 {u d a b la lb} (s : State) : exec (.bfma2 u d a b la lb) s = execBfma2 u d a b la lb s := rfl
theorem exec_cvt {u d a code la} (s : State) : exec (.cvt u d a code la) s = execCvt u d a code la s := rfl
theorem exec_digits {d a ty la} (s : State) : exec (.digits d a ty la) s = execDigits d a ty la s := rfl
theorem exec_sib {d a ty k la} (s : State) : exec (.sib d a ty k la) s = execSib d a ty k la s := rfl
theorem exec_mean {d a ty la} (s : State) : exec (.mean d a ty la) s = execMean d a ty la s := rfl
theorem exec_chkd {a ty c la} (s : State) : exec (.chkd a ty c la) s = execChkd a ty c la s := rfl
theorem exec_solo (s : State) : exec .solo s = execSolo s := rfl
theorem exec_trio (s : State) : exec .trio s = execTrio s := rfl
theorem exec_qbx {fmt had d a b} (s : State) : exec (.qbx fmt had d a b) s = execQbx fmt had d a b s := rfl
theorem exec_dqbx {fmt d a b} (s : State) : exec (.dqbx fmt d a b) s = execDqbx fmt d a b s := rfl
theorem exec_shflIdx {d a b la lb} (s : State) : exec (.shflIdx d a b la lb) s = execShflIdx d a b la lb s := rfl
theorem exec_shflUp {d a b la lb} (s : State) : exec (.shflUp d a b la lb) s = execShflUp d a b la lb s := rfl
theorem exec_shflDn {d a b la lb} (s : State) : exec (.shflDn d a b la lb) s = execShflDn d a b la lb s := rfl
theorem exec_shflXor {d a b la lb} (s : State) : exec (.shflXor d a b la lb) s = execShflXor d a b la lb s := rfl
theorem exec_voteAny {d a} (s : State) : exec (.voteAny d a) s = execVoteAny d a s := rfl
theorem exec_voteAll {d a} (s : State) : exec (.voteAll d a) s = execVoteAll d a s := rfl
theorem exec_voteBallot {d a} (s : State) : exec (.voteBallot d a) s = execVoteBallot d a s := rfl
theorem exec_voteCount {d a} (s : State) : exec (.voteCount d a) s = execVoteCount d a s := rfl
theorem exec_xadd {d a la} (s : State) : exec (.xadd d a la) s = execXadd d a la s := rfl
theorem exec_xmin {d a la} (s : State) : exec (.xmin d a la) s = execXmin d a la s := rfl
theorem exec_xmax {d a la} (s : State) : exec (.xmax d a la) s = execXmax d a la s := rfl
theorem exec_xscan {d a la} (s : State) : exec (.xscan d a la) s = execXscan d a la s := rfl
theorem exec_bra {p sense off} (s : State) : exec (.bra p sense off) s = execBra p sense off s := rfl
theorem exec_call {p sense off} (s : State) : exec (.call p sense off) s = execCall p sense off s := rfl
theorem exec_brx {a} (s : State) : exec (.brx a) s = execBrx a s := rfl
theorem exec_ret (s : State) : exec .ret s = execRet s := rfl
theorem exec_exit (s : State) : exec .exit s = execExit s := rfl
theorem exec_yield (s : State) : exec .yield s = execYield s := rfl
theorem exec_nap {n} (s : State) : exec (.nap n) s = execNap n s := rfl
theorem exec_win {n} (s : State) : exec (.win n) s = execWin n s := rfl
theorem exec_ld {u d base size order off} (s : State) : exec (.ld u d base size order off) s = execLd u d base size order off s := rfl
theorem exec_st {u d base size order off} (s : State) : exec (.st u d base size order off) s = execSt u d base size order off s := rfl
theorem exec_lds {u d base size off} (s : State) : exec (.lds u d base size off) s = execLds u d base size off s := rfl
theorem exec_sts {u d base size off} (s : State) : exec (.sts u d base size off) s = execSts u d base size off s := rfl
theorem exec_ldc {u d base size off} (s : State) : exec (.ldc u d base size off) s = execLdc u d base size off s := rfl
theorem exec_atom {aop use d a off} (s : State) : exec (.atom aop use d a off) s = execAtom aop use d a off s := rfl
theorem exec_atoms {aop use d a off} (s : State) : exec (.atoms aop use d a off) s = execAtoms aop use d a off s := rfl
theorem exec_post {aop use d a off} (s : State) : exec (.post aop use d a off) s = execPost aop use d a off s := rfl
theorem exec_phase {scope} (s : State) : exec (.phase scope) s = execPhase scope s := rfl
theorem exec_bar (s : State) : exec .bar s = execBar s := rfl
theorem exec_arrive {a} (s : State) : exec (.arrive a) s = execArrive a s := rfl
theorem exec_await {a b} (s : State) : exec (.await a b) s = execAwait a b s := rfl
theorem exec_waitge {scope a b} (s : State) : exec (.waitge scope a b) s = execWaitge scope a b s := rfl
theorem exec_copyG2s {d a b} (s : State) : exec (.copyG2s d a b) s = execCopyG2s d a b s := rfl
theorem exec_copyS2g {d a b} (s : State) : exec (.copyS2g d a b) s = execCopyS2g d a b s := rfl
theorem exec_copyG2v {d a b} (s : State) : exec (.copyG2v d a b) s = execCopyG2v d a b s := rfl
theorem exec_copyS2s {d a b} (s : State) : exec (.copyS2s d a b) s = execCopyS2s d a b s := rfl
theorem exec_gath {d a b} (s : State) : exec (.gath d a b) s = execGath d a b s := rfl
theorem exec_mma {src form d a scale q} (s : State) : exec (.mma src form d a scale q) s = execMma src form d a scale q s := rfl
theorem exec_mmag {src form d a scale q} (s : State) : exec (.mmag src form d a scale q) s = execMmag src form d a scale q s := rfl
theorem exec_mzero (s : State) : exec .mzero s = execMzero s := rfl
theorem exec_mld {a} (s : State) : exec (.mld a) s = execMld a s := rfl
theorem exec_mst {a} (s : State) : exec (.mst a) s = execMst a s := rfl
theorem exec_mfree (s : State) : exec .mfree s = execMfree s := rfl
theorem exec_spawn {a q} (s : State) : exec (.spawn a q) s = execSpawn a q s := rfl
theorem exec_tjoin {a} (s : State) : exec (.tjoin a) s = execTjoin a s := rfl
theorem exec_tend (s : State) : exec .tend s = execTend s := rfl
theorem exec_cfire (s : State) : exec .cfire s = execCfire s := rfl
theorem exec_cfireIdx {a} (s : State) : exec (.cfireIdx a) s = execCfireIdx a s := rfl
theorem exec_mcall {mac p0 p1 p2} (s : State) : exec (.mcall mac p0 p1 p2) s = execMcall mac p0 p1 p2 s := rfl
theorem exec_srd {d num} (s : State) : exec (.srd d num) s = execSrd d num s := rfl
theorem exec_swr {d num} (s : State) : exec (.swr d num) s = execSwr d num s := rfl
theorem exec_trap {n} (s : State) : exec (.trap n) s = execTrap n s := rfl
theorem exec_bkpt {n} (s : State) : exec (.bkpt n) s = execBkpt n s := rfl
theorem exec_trc {a kind} (s : State) : exec (.trc a kind) s = execTrc a kind s := rfl
theorem exec_time {d} (s : State) : exec (.time d) s = execTime d s := rfl
theorem exec_preq {d} (s : State) : exec (.preq d) s = execPreq d s := rfl
theorem exec_pyield (s : State) : exec .pyield s = execPyield s := rfl
theorem exec_ipf {a} (s : State) : exec (.ipf a) s = execIpf a s := rfl
theorem exec_clauseStart (s : State) : exec .clauseStart s = execClauseStart s := rfl
theorem exec_fairnessTimerExpiry (s : State) : exec .fairnessTimerExpiry s = execFairnessTimerExpiry s := rfl
theorem exec_loadComplete {flight entry} (s : State) : exec (.loadComplete flight entry) s = execLoadComplete flight entry s := rfl
theorem exec_atomicPerform {flight entry} (s : State) : exec (.atomicPerform flight entry) s = execAtomicPerform flight entry s := rfl
theorem exec_atomReturn {flight entry} (s : State) : exec (.atomReturn flight entry) s = execAtomReturn flight entry s := rfl
theorem exec_leaseRecall {cluster line} (s : State) : exec (.leaseRecall cluster line) s = execLeaseRecall cluster line s := rfl
theorem exec_engineChunk {flight entry} (s : State) : exec (.engineChunk flight entry) s = execEngineChunk flight entry s := rfl
theorem exec_matrixUnitOperation {core quarter} (s : State) : exec (.matrixUnitOperation core quarter) s = execMatrixUnitOperation core quarter s := rfl
theorem exec_napEnd {flight} (s : State) : exec (.napEnd flight) s = execNapEnd flight s := rfl
theorem exec_flightOverdue {flight} (s : State) : exec (.flightOverdue flight) s = execFlightOverdue flight s := rfl
theorem exec_throttleWindowEnd {core quarter} (s : State) : exec (.throttleWindowEnd core quarter) s = execThrottleWindowEnd core quarter s := rfl
theorem exec_icacheFill {flight} (s : State) : exec (.icacheFill flight) s = execIcacheFill flight s := rfl
theorem exec_instabilityDelivery {flight} (s : State) : exec (.instabilityDelivery flight) s = execInstabilityDelivery flight s := rfl
theorem exec_flightRetirement {flight} (s : State) : exec (.flightRetirement flight) s = execFlightRetirement flight s := rfl
theorem exec_doorbell {q origin nbytes tail key} (s : State) : exec (.doorbell q origin nbytes tail key) s = execDoorbell q origin nbytes tail key s := rfl
theorem exec_launchRecord {q} (s : State) : exec (.launchRecord q) s = execLaunchRecord q s := rfl
theorem exec_barrierRecord {q} (s : State) : exec (.barrierRecord q) s = execBarrierRecord q s := rfl
theorem exec_signalRecord {q} (s : State) : exec (.signalRecord q) s = execSignalRecord q s := rfl
theorem exec_wingPlacement {gallery} (s : State) : exec (.wingPlacement gallery) s = execWingPlacement gallery s := rfl
theorem exec_hallStart {gallery hall} (s : State) : exec (.hallStart gallery hall) s = execHallStart gallery hall s := rfl
theorem exec_bulkGalleryAgeing {gallery} (s : State) : exec (.bulkGalleryAgeing gallery) s = execBulkGalleryAgeing gallery s := rfl
theorem exec_taskPop {context core quarter} (s : State) : exec (.taskPop context core quarter) s = execTaskPop context core quarter s := rfl
theorem exec_galleryCompletion {gallery} (s : State) : exec (.galleryCompletion gallery) s = execGalleryCompletion gallery s := rfl
theorem exec_preemptionRequest {context} (s : State) : exec (.preemptionRequest context) s = execPreemptionRequest context s := rfl
theorem exec_preemptionWithdrawal {context} (s : State) : exec (.preemptionWithdrawal context) s = execPreemptionWithdrawal context s := rfl
theorem exec_forcedSave {context} (s : State) : exec (.forcedSave context) s = execForcedSave context s := rfl
theorem exec_lightSave {flight} (s : State) : exec (.lightSave flight) s = execLightSave flight s := rfl
theorem exec_contextSavedReport {context} (s : State) : exec (.contextSavedReport context) s = execContextSavedReport context s := rfl
theorem exec_contextResume {context core} (s : State) : exec (.contextResume context core) s = execContextResume context core s := rfl
theorem exec_tEntryResend {flight entry} (s : State) : exec (.tEntryResend flight entry) s = execTEntryResend flight entry s := rfl
theorem exec_flightResume {flight how} (s : State) : exec (.flightResume flight how) s = execFlightResume flight how s := rfl
theorem exec_contextEnd {context} (s : State) : exec (.contextEnd context) s = execContextEnd context s := rfl
theorem exec_translationKeyResolved {die key} (s : State) : exec (.translationKeyResolved die key) s = execTranslationKeyResolved die key s := rfl
theorem exec_translationKeyDeclined {die key} (s : State) : exec (.translationKeyDeclined die key) s = execTranslationKeyDeclined die key s := rfl
theorem exec_bindingSlotResolve {gallery slot value} (s : State) : exec (.bindingSlotResolve gallery slot value) s = execBindingSlotResolve gallery slot value s := rfl
theorem exec_bindingSlotDecline {gallery slot} (s : State) : exec (.bindingSlotDecline gallery slot) s = execBindingSlotDecline gallery slot s := rfl
theorem exec_invalidation {context base len} (s : State) : exec (.invalidation context base len) s = execInvalidation context base len s := rfl
theorem exec_invalidationEffect {ident} (s : State) : exec (.invalidationEffect ident) s = execInvalidationEffect ident s := rfl
theorem exec_uncorrectableError {target} (s : State) : exec (.uncorrectableError target) s = execUncorrectableError target s := rfl
theorem exec_correctableError {die cls core} (s : State) : exec (.correctableError die cls core) s = execCorrectableError die cls core s := rfl
theorem exec_collectiveSegment {die} (s : State) : exec (.collectiveSegment die) s = execCollectiveSegment die s := rfl
theorem exec_collectiveAgeing {ident} (s : State) : exec (.collectiveAgeing ident) s = execCollectiveAgeing ident s := rfl
theorem exec_collectiveTrafficArrival {peers number rank chunk segment digest data} (s : State) : exec (.collectiveTrafficArrival peers number rank chunk segment digest data) s = execCollectiveTrafficArrival peers number rank chunk segment digest data s := rfl
theorem exec_collectiveRefusalAnnouncement {peers failure} (s : State) : exec (.collectiveRefusalAnnouncement peers failure) s = execCollectiveRefusalAnnouncement peers failure s := rfl
theorem exec_memberLost {member} (s : State) : exec (.memberLost member) s = execMemberLost member s := rfl
theorem exec_linkTrained {port} (s : State) : exec (.linkTrained port) s = execLinkTrained port s := rfl
theorem exec_bringupFrame {port linkmin linkmax peer peerPort} (s : State) : exec (.bringupFrame port linkmin linkmax peer peerPort) s = execBringupFrame port linkmin linkmax peer peerPort s := rfl
theorem exec_linkFailure {port} (s : State) : exec (.linkFailure port) s = execLinkFailure port s := rfl
theorem exec_rdmaWrite {qp va data} (s : State) : exec (.rdmaWrite qp va data) s = execRdmaWrite qp va data s := rfl
theorem exec_rdmaRead {qp va len} (s : State) : exec (.rdmaRead qp va len) s = execRdmaRead qp va len s := rfl
theorem exec_send {qp request} (s : State) : exec (.send qp request) s = execSend qp request s := rfl
theorem exec_powerOn (s : State) : exec .powerOn s = execPowerOn s := rfl
theorem exec_clockChange {target mhz} (s : State) : exec (.clockChange target mhz) s = execClockChange target mhz s := rfl
theorem exec_moduleNumberWrite {n} (s : State) : exec (.moduleNumberWrite n) s = execModuleNumberWrite n s := rfl
theorem exec_firmwareHandshake {version} (s : State) : exec (.firmwareHandshake version) s = execFirmwareHandshake version s := rfl
theorem exec_measurementExtend {ver reg digest} (s : State) : exec (.measurementExtend ver reg digest) s = execMeasurementExtend ver reg digest s := rfl
theorem exec_attestationReport {ver nonce} (s : State) : exec (.attestationReport ver nonce) s = execAttestationReport ver nonce s := rfl
theorem exec_traceBlockLoad {ver die addr} (s : State) : exec (.traceBlockLoad ver die addr) s = execTraceBlockLoad ver die addr s := rfl
theorem exec_traceStatusRead {ver die} (s : State) : exec (.traceStatusRead ver die) s = execTraceStatusRead ver die s := rfl
theorem exec_sieveCountersRead {ver die clear} (s : State) : exec (.sieveCountersRead ver die clear) s = execSieveCountersRead ver die clear s := rfl
theorem exec_sessionArm {ver addr} (s : State) : exec (.sessionArm ver addr) s = execSessionArm ver addr s := rfl
theorem exec_sessionCancel {ver addr} (s : State) : exec (.sessionCancel ver addr) s = execSessionCancel ver addr s := rfl
theorem exec_sessionPassStart (s : State) : exec .sessionPassStart s = execSessionPassStart s := rfl
theorem exec_sessionPassEnd (s : State) : exec .sessionPassEnd s = execSessionPassEnd s := rfl
theorem exec_freeze {ver context flight} (s : State) : exec (.freeze ver context flight) s = execFreeze ver context flight s := rfl
theorem exec_unfreeze {ver context flight} (s : State) : exec (.unfreeze ver context flight) s = execUnfreeze ver context flight s := rfl
theorem exec_debugRead {ver flight item thread sibs} (s : State) : exec (.debugRead ver flight item thread sibs) s = execDebugRead ver flight item thread sibs s := rfl
theorem exec_debugWrite {ver flight item thread sibs value} (s : State) : exec (.debugWrite ver flight item thread sibs value) s = execDebugWrite ver flight item thread sibs value s := rfl
theorem exec_breakpointSet {ver context index addr hall} (s : State) : exec (.breakpointSet ver context index addr hall) s = execBreakpointSet ver context index addr hall s := rfl
theorem exec_counterProgram {ver core sys setup} (s : State) : exec (.counterProgram ver core sys setup) s = execCounterProgram ver core sys setup s := rfl
theorem exec_monitorProgram {ver core index setup} (s : State) : exec (.monitorProgram ver core index setup) s = execMonitorProgram ver core index setup s := rfl
theorem exec_stallHistogramRead {ver core} (s : State) : exec (.stallHistogramRead ver core) s = execStallHistogramRead ver core s := rfl
theorem exec_monitorSample {core} (s : State) : exec (.monitorSample core) s = execMonitorSample core s := rfl
theorem exec_sieveRun {die} (s : State) : exec (.sieveRun die) s = execSieveRun die s := rfl
theorem exec_waitgePollReturn {flight poll} (s : State) : exec (.waitgePollReturn flight poll) s = execWaitgePollReturn flight poll s := rfl
theorem exec_storeAcknowledgement {flight entry} (s : State) : exec (.storeAcknowledgement flight entry) s = execStoreAcknowledgement flight entry s := rfl
theorem exec_yieldPeriodEnd {flight} (s : State) : exec (.yieldPeriodEnd flight) s = execYieldPeriodEnd flight s := rfl
theorem exec_fabricWriteArrival {pa data} (s : State) : exec (.fabricWriteArrival pa data) s = execFabricWriteArrival pa data s := rfl
theorem exec_fabricWriteAcknowledgement {ident} (s : State) : exec (.fabricWriteAcknowledgement ident) s = execFabricWriteAcknowledgement ident s := rfl
theorem exec_controlCoreWrite {pa access} (s : State) : exec (.controlCoreWrite pa access) s = execControlCoreWrite pa access s := rfl
theorem exec_pcieHostWrite {window va access} (s : State) : exec (.pcieHostWrite window va access) s = execPcieHostWrite window va access s := rfl
theorem exec_arithmeticClockCycle (s : State) : exec .arithmeticClockCycle s = execArithmeticClockCycle s := rfl

end Sys2Proof.Machine
end

