-- ==== Sys2Proof/Laws/Encoding.lean ====
section
/-! SUPPORT. What the field readers of the decoder find in a word that the encoder built: one lemma for each field of each
format of spec/01_words.md R16. -/

namespace Sys2Proof.Laws

/-! ## Field readers -/

theorem bit_le (b : Bool) : Enc.bit b ≤ 1 := by cases b <;> decide

theorem bit_false : Enc.bit false = 0 := rfl

theorem reg_of {w lo x : Nat} (h : w / 2 ^ lo % 128 = x) : Dec.reg w lo = BitVec.ofNat 7 x := by
  apply BitVec.eq_of_toNat_eq; simp [Dec.reg, BitVec.toNat_ofNat, ← h]

theorem flag_of {w lo x : Nat} (h : w / 2 ^ lo % 2 = x) : Dec.flag w lo = (x == 1) := by rw [← h]; rfl

theorem fld_of {n w lo x : Nat} (h : w / 2 ^ lo % 2 ^ n = x) : Dec.fld n w lo = BitVec.ofNat n x := by
  apply BitVec.eq_of_toNat_eq; simp [Dec.fld, BitVec.toNat_ofNat, ← h]

theorem bit_beq (b : Bool) : (Enc.bit b == 1) = b := by cases b <;> rfl

theorem toNat_lt_128 (r : BitVec 7) : r.toNat < 128 := r.isLt

/-! ## The layout of the T, TP, I, M and P formats: opcode, U, d, a, and eleven bits -/

/-- The common layout of the register formats. -/
def word5 (maj u d a r : Nat) : Nat := maj * 2 ^ 26 + u * 2 ^ 25 + d * 2 ^ 18 + a * 2 ^ 11 + r

section word5
variable {maj u d a r : Nat} (hm : maj < 64) (hu : u ≤ 1) (hd : d < 128) (ha : a < 128) (hr : r < 2048)
include hu hd ha hr

include hm in
theorem word5_lt : word5 maj u d a r < 2 ^ 32 := by simp only [word5]; omega
include hm in
theorem word5_maj : bits (word5 maj u d a r) 31 26 = maj := by simp only [word5, bits]; omega
theorem word5_u : Dec.flag (word5 maj u d a r) 25 = (u == 1) := flag_of (by simp only [word5]; omega)
theorem word5_d : Dec.reg (word5 maj u d a r) 18 = BitVec.ofNat 7 d := reg_of (by simp only [word5]; omega)
theorem word5_a : Dec.reg (word5 maj u d a r) 11 = BitVec.ofNat 7 a := reg_of (by simp only [word5]; omega)
theorem word5_dbits : bits (word5 maj u d a r) 24 18 = d := by simp only [word5, bits]; omega
theorem word5_dhi : bits (word5 maj u d a r) 24 22 = d / 16 := by simp only [word5, bits]; omega
theorem word5_ahi : bits (word5 maj u d a r) 17 15 = a / 16 := by simp only [word5, bits]; omega
theorem word5_d4 : Dec.fld 4 (word5 maj u d a r) 18 = BitVec.ofNat 4 (d % 16) := fld_of (by simp only [word5]; omega)
theorem word5_a4 : Dec.fld 4 (word5 maj u d a r) 11 = BitVec.ofNat 4 (a % 16) := fld_of (by simp only [word5]; omega)
theorem word5_ab : bits (word5 maj u d a r) 17 4 = a * 128 + r / 16 := by simp only [word5, bits]; omega
theorem word5_atop : bits (word5 maj u d a r) 17 14 = a / 8 := by simp only [word5, bits]; omega
theorem word5_low18 : Dec.fld 18 (word5 maj u d a r) 0 = BitVec.ofNat 18 (a * 2048 + r) :=
  fld_of (by simp only [word5]; omega)
theorem word5_low14 : Dec.fld 14 (word5 maj u d a r) 0 = BitVec.ofNat 14 (a % 8 * 2048 + r) :=
  fld_of (by simp only [word5]; omega)
omit hu hd ha hr
theorem word5_bits {hi lo : Nat} (h : hi < 11) (hl : lo ≤ hi) : bits (word5 maj u d a r) hi lo = bits r hi lo := by
  have e : word5 maj u d a r = (maj * 2 ^ 15 + u * 2 ^ 14 + d * 2 ^ 7 + a) * 2 ^ 11 + r := by simp only [word5]; omega
  have e2 : (2 : Nat) ^ 11 = 2 ^ lo * (2 ^ (hi + 1 - lo) * 2 ^ (10 - hi)) := by
    rw [← Nat.pow_add, ← Nat.pow_add]; congr 1; omega
  have e3 : ∀ q : Nat, q * 2 ^ 11 + r = r + 2 ^ lo * (2 ^ (hi + 1 - lo) * (2 ^ (10 - hi) * q)) := by
    intro q; rw [e2, Nat.mul_comm q, Nat.mul_assoc, Nat.mul_assoc, Nat.add_comm]
  unfold bits
  rw [e, e3, Nat.add_mul_div_left _ _ (Nat.two_pow_pos lo), Nat.add_mul_mod_self_left]
theorem word5_fld {n lo : Nat} (h : lo + n ≤ 11) (hn : 0 < n) :
    Dec.fld n (word5 maj u d a r) lo = BitVec.ofNat n (r / 2 ^ lo % 2 ^ n) := by
  apply fld_of
  have := word5_bits (maj := maj) (u := u) (d := d) (a := a) (r := r) (hi := lo + n - 1) (lo := lo) (by omega) (by omega)
  simpa [bits, show lo + n - 1 + 1 - lo = n by omega] using this
theorem word5_reg {lo : Nat} (h : lo ≤ 4) : Dec.reg (word5 maj u d a r) lo = BitVec.ofNat 7 (r / 2 ^ lo % 128) := by
  have := word5_fld (maj := maj) (u := u) (d := d) (a := a) (r := r) (n := 7) (lo := lo) (by omega) (by omega)
  simpa [Dec.fld, Dec.reg] using this
theorem word5_flag {lo : Nat} (h : lo ≤ 10) : Dec.flag (word5 maj u d a r) lo = (r / 2 ^ lo % 2 == 1) := by
  apply flag_of
  have := word5_bits (maj := maj) (u := u) (d := d) (a := a) (r := r) (hi := lo) (lo := lo) (by omega) (by omega)
  simpa [bits, show lo + 1 - lo = 1 by omega] using this
end word5


/-! ## Format T -/

section t
variable (maj mn : Nat) (u : Bool) (d a b : BitVec 7) (la lb : Bool)

theorem t_low (hn : mn < 4) : b.toNat * 2 ^ 4 + mn * 2 ^ 2 + Enc.bit la * 2 + Enc.bit lb < 2048 := by
  have := bit_le la; have := bit_le lb; have := b.isLt; omega
theorem t_word : Enc.t maj mn u d a b la lb
    = word5 maj (Enc.bit u) d.toNat a.toNat (b.toNat * 2 ^ 4 + mn * 2 ^ 2 + Enc.bit la * 2 + Enc.bit lb) := by
  simp only [Enc.t, word5]; omega
theorem t_lt (hm : maj < 64) (hn : mn < 4) : Enc.t maj mn u d a b la lb < 2 ^ 32 := by
  rw [t_word]; exact word5_lt hm (bit_le u) d.isLt a.isLt (t_low mn b la lb hn)
theorem t_maj (hm : maj < 64) (hn : mn < 4) : bits (Enc.t maj mn u d a b la lb) 31 26 = maj := by
  rw [t_word]; exact word5_maj hm (bit_le u) d.isLt a.isLt (t_low mn b la lb hn)
theorem t_u (hn : mn < 4) : Dec.flag (Enc.t maj mn u d a b la lb) 25 = u := by
  rw [t_word, word5_u (bit_le u) d.isLt a.isLt (t_low mn b la lb hn), bit_beq]
theorem t_d (hn : mn < 4) : Dec.reg (Enc.t maj mn u d a b la lb) 18 = d := by
  rw [t_word, word5_d (bit_le u) d.isLt a.isLt (t_low mn b la lb hn), BitVec.ofNat_toNat, BitVec.setWidth_eq]
theorem t_a (hn : mn < 4) : Dec.reg (Enc.t maj mn u d a b la lb) 11 = a := by
  rw [t_word, word5_a (bit_le u) d.isLt a.isLt (t_low mn b la lb hn), BitVec.ofNat_toNat, BitVec.setWidth_eq]
theorem t_b (hn : mn < 4) : Dec.reg (Enc.t maj mn u d a b la lb) 4 = b := by
  have := bit_le la; have := bit_le lb; have := b.isLt
  rw [t_word, word5_reg (by omega)]; apply BitVec.eq_of_toNat_eq; rw [BitVec.toNat_ofNat]; omega
theorem t_mn (hn : mn < 4) : Dec.minor (Enc.t maj mn u d a b la lb) = mn := by
  have := bit_le la; have := bit_le lb; have := b.isLt
  rw [t_word, Dec.minor, word5_bits (by omega) (by omega), bits]; omega
theorem t_la (hn : mn < 4) : Dec.flag (Enc.t maj mn u d a b la lb) 1 = la := by
  have := bit_le la; have := bit_le lb; have := b.isLt
  rw [t_word, word5_flag (by omega), show (b.toNat * 2 ^ 4 + mn * 2 ^ 2 + Enc.bit la * 2 + Enc.bit lb) / 2 ^ 1 % 2 = Enc.bit la by omega,
    bit_beq]
theorem t_lb (hn : mn < 4) : Dec.flag (Enc.t maj mn u d a b la lb) 0 = lb := by
  have := bit_le la; have := bit_le lb; have := b.isLt
  rw [t_word, word5_flag (by omega), show (b.toNat * 2 ^ 4 + mn * 2 ^ 2 + Enc.bit la * 2 + Enc.bit lb) / 2 ^ 0 % 2 = Enc.bit lb by omega,
    bit_beq]
theorem t_b2 (hn : mn < 4) : Dec.fld 2 (Enc.t maj mn u d a b la lb) 2 = BitVec.ofNat 2 mn := by
  have := bit_le la; have := bit_le lb; have := b.isLt
  rw [t_word, word5_fld (by omega) (by omega)]; congr 1; omega
theorem t_ab (hn : mn < 4) : bits (Enc.t maj mn u d a b la lb) 17 4 = a.toNat * 128 + b.toNat := by
  have := bit_le la; have := bit_le lb; have := b.isLt
  rw [t_word, word5_ab (bit_le u) d.isLt a.isLt (t_low mn b la lb hn)]; omega
theorem t_lalb (hn : mn < 4) : bits (Enc.t maj mn u d a b la lb) 1 0 = Enc.bit la * 2 + Enc.bit lb := by
  have := bit_le la; have := bit_le lb; have := b.isLt
  rw [t_word, word5_bits (by omega) (by omega), bits]; omega
theorem t_dbits (hn : mn < 4) : bits (Enc.t maj mn u d a b la lb) 24 18 = d.toNat := by
  rw [t_word, word5_dbits (bit_le u) d.isLt a.isLt (t_low mn b la lb hn)]
theorem t_bbits (hn : mn < 4) : bits (Enc.t maj mn u d a b la lb) 10 4 = b.toNat := by
  have := bit_le la; have := bit_le lb; have := b.isLt
  rw [t_word, word5_bits (by omega) (by omega), bits]; omega

end t

/-! ## Format T with a number in field b, and format I -/

/-- An encoded T word whose field b is a number is the T word of that field. -/
theorem tn_eq (maj mn : Nat) (u : Bool) (d a : BitVec 7) (b : Nat) (la : Bool) (hb : b < 128) :
    Enc.tn maj mn u d a b la = Enc.t maj mn u d a (BitVec.ofNat 7 b) la false := by
  simp only [Enc.tn, Enc.t, BitVec.toNat_ofNat, bit_false, show b % 2 ^ 7 = b by omega, Nat.add_zero]

theorem t_b5 (maj mn : Nat) (u : Bool) (d a b : BitVec 7) (la lb : Bool) (hn : mn < 4) :
    Dec.fld 5 (Enc.t maj mn u d a b la lb) 4 = BitVec.ofNat 5 b.toNat := by
  have := bit_le la; have := bit_le lb; have := b.isLt
  rw [t_word, word5_fld (by omega) (by omega)]; apply BitVec.eq_of_toNat_eq; simp only [BitVec.toNat_ofNat]; omega

theorem t_b2lo (maj mn : Nat) (u : Bool) (d a b : BitVec 7) (la lb : Bool) (hn : mn < 4) :
    Dec.fld 2 (Enc.t maj mn u d a b la lb) 4 = BitVec.ofNat 2 b.toNat := by
  have := bit_le la; have := bit_le lb; have := b.isLt
  rw [t_word, word5_fld (by omega) (by omega)]; apply BitVec.eq_of_toNat_eq; simp only [BitVec.toNat_ofNat]; omega

theorem t_bhi (maj mn : Nat) (u : Bool) (d a b : BitVec 7) (la lb : Bool) (hn : mn < 4) :
    bits (Enc.t maj mn u d a b la lb) 10 9 = b.toNat / 32 := by
  have := bit_le la; have := bit_le lb; have := b.isLt
  rw [t_word, word5_bits (by omega) (by omega), bits]; omega

theorem t_blo (maj mn : Nat) (u : Bool) (d a b : BitVec 7) (la lb : Bool) (hn : mn < 4) :
    bits (Enc.t maj mn u d a b la lb) 8 4 = b.toNat % 32 := by
  have := bit_le la; have := bit_le lb; have := b.isLt
  rw [t_word, word5_bits (by omega) (by omega), bits]; omega

section i
variable (maj : Nat) (u : Bool) (d a : BitVec 7) (imm : Nat) (la : Bool)

theorem i_word : Enc.i maj u d a imm la = word5 maj (Enc.bit u) d.toNat a.toNat (imm * 2 + Enc.bit la) := by
  simp only [Enc.i, word5]; omega
theorem i_low (h : imm < 1024) : imm * 2 + Enc.bit la < 2048 := by have := bit_le la; omega
theorem i_lt (hm : maj < 64) (h : imm < 1024) : Enc.i maj u d a imm la < 2 ^ 32 := by
  rw [i_word]; exact word5_lt hm (bit_le u) d.isLt a.isLt (i_low imm la h)
theorem i_maj (hm : maj < 64) (h : imm < 1024) : bits (Enc.i maj u d a imm la) 31 26 = maj := by
  rw [i_word]; exact word5_maj hm (bit_le u) d.isLt a.isLt (i_low imm la h)
theorem i_u (h : imm < 1024) : Dec.flag (Enc.i maj u d a imm la) 25 = u := by
  rw [i_word, word5_u (bit_le u) d.isLt a.isLt (i_low imm la h), bit_beq]
theorem i_d (h : imm < 1024) : Dec.reg (Enc.i maj u d a imm la) 18 = d := by
  rw [i_word, word5_d (bit_le u) d.isLt a.isLt (i_low imm la h), BitVec.ofNat_toNat, BitVec.setWidth_eq]
theorem i_a (h : imm < 1024) : Dec.reg (Enc.i maj u d a imm la) 11 = a := by
  rw [i_word, word5_a (bit_le u) d.isLt a.isLt (i_low imm la h), BitVec.ofNat_toNat, BitVec.setWidth_eq]
theorem i_imm (h : imm < 1024) : Dec.fld 10 (Enc.i maj u d a imm la) 1 = BitVec.ofNat 10 imm := by
  have := bit_le la
  rw [i_word, word5_fld (by omega) (by omega)]; congr 1; omega
theorem i_imm5 (h : imm < 1024) : Dec.fld 5 (Enc.i maj u d a imm la) 1 = BitVec.ofNat 5 imm := by
  have := bit_le la
  rw [i_word, word5_fld (by omega) (by omega)]; apply BitVec.eq_of_toNat_eq; simp only [BitVec.toNat_ofNat]; omega
theorem i_la (h : imm < 1024) : Dec.flag (Enc.i maj u d a imm la) 0 = la := by
  have := bit_le la
  rw [i_word, word5_flag (by omega), show (imm * 2 + Enc.bit la) / 2 ^ 0 % 2 = Enc.bit la by omega, bit_beq]
theorem i_hi (h : imm < 1024) : bits (Enc.i maj u d a imm la) 10 9 = imm / 256 := by
  have := bit_le la
  rw [i_word, word5_bits (by omega) (by omega), bits]; omega
theorem i_mid (h : imm < 1024) : bits (Enc.i maj u d a imm la) 8 6 = imm % 256 / 32 := by
  have := bit_le la
  rw [i_word, word5_bits (by omega) (by omega), bits]; omega

end i

/-! ## Format TP, and majors 0x0C and 0x21 -/

section tp
variable (maj : Nat) (u : Bool) (d : Nat) (a b : BitVec 7) (k : Nat)

theorem tp_word : Enc.tp maj u d a b k = word5 maj (Enc.bit u) d a.toNat (b.toNat * 2 ^ 4 + k) := by
  simp only [Enc.tp, word5]; omega
theorem tp_low (hk : k < 16) : b.toNat * 2 ^ 4 + k < 2048 := by have := b.isLt; omega
theorem tp_lt (hm : maj < 64) (hd : d < 128) (hk : k < 16) : Enc.tp maj u d a b k < 2 ^ 32 := by
  rw [tp_word]; exact word5_lt hm (bit_le u) hd a.isLt (tp_low b k hk)
theorem tp_maj (hm : maj < 64) (hd : d < 128) (hk : k < 16) : bits (Enc.tp maj u d a b k) 31 26 = maj := by
  rw [tp_word]; exact word5_maj hm (bit_le u) hd a.isLt (tp_low b k hk)
theorem tp_u (hd : d < 128) (hk : k < 16) : Dec.flag (Enc.tp maj u d a b k) 25 = u := by
  rw [tp_word, word5_u (bit_le u) hd a.isLt (tp_low b k hk), bit_beq]
theorem tp_d (hd : d < 128) (hk : k < 16) : Dec.reg (Enc.tp maj u d a b k) 18 = BitVec.ofNat 7 d := by
  rw [tp_word, word5_d (bit_le u) hd a.isLt (tp_low b k hk)]
theorem tp_dhi (hd : d < 128) (hk : k < 16) : bits (Enc.tp maj u d a b k) 24 22 = d / 16 := by
  rw [tp_word, word5_dhi (bit_le u) hd a.isLt (tp_low b k hk)]
theorem tp_d4 (hd : d < 128) (hk : k < 16) : Dec.fld 4 (Enc.tp maj u d a b k) 18 = BitVec.ofNat 4 (d % 16) := by
  rw [tp_word, word5_d4 (bit_le u) hd a.isLt (tp_low b k hk)]
theorem tp_a (hd : d < 128) (hk : k < 16) : Dec.reg (Enc.tp maj u d a b k) 11 = a := by
  rw [tp_word, word5_a (bit_le u) hd a.isLt (tp_low b k hk), BitVec.ofNat_toNat, BitVec.setWidth_eq]
theorem tp_b (hk : k < 16) : Dec.reg (Enc.tp maj u d a b k) 4 = b := by
  have := b.isLt
  rw [tp_word, word5_reg (by omega)]; apply BitVec.eq_of_toNat_eq; rw [BitVec.toNat_ofNat]; omega
theorem tp_k (hk : k < 16) : bits (Enc.tp maj u d a b k) 3 0 = k := by
  rw [tp_word, word5_bits (by omega) (by omega), bits]; omega
theorem tp_k4 (hk : k < 16) : Dec.fld 4 (Enc.tp maj u d a b k) 0 = BitVec.ofNat 4 k := by
  rw [tp_word, word5_fld (by omega) (by omega)]; congr 1; omega

end tp

section p
variable (maj mn d a b : Nat)

theorem p_word : Enc.p maj mn d a b = word5 maj 0 d a (b * 2 ^ 4 + mn * 2 ^ 2) := by simp only [Enc.p, word5]; omega

variable (hm : maj < 64) (hn : mn < 4) (hd : d < 128) (ha : a < 128) (hb : b < 128)
include hn hd ha hb
include hm in
theorem p_lt : Enc.p maj mn d a b < 2 ^ 32 := by rw [p_word]; exact word5_lt hm (by omega) hd ha (by omega)
include hm in
theorem p_maj : bits (Enc.p maj mn d a b) 31 26 = maj := by rw [p_word]; exact word5_maj hm (by omega) hd ha (by omega)
theorem p_u : Dec.flag (Enc.p maj mn d a b) 25 = false := by rw [p_word, word5_u (by omega) hd ha (by omega)]; rfl
theorem p_dhi : Dec.predHi (Enc.p maj mn d a b) 18 = (d / 16 == 0) := by
  rw [Dec.predHi, p_word, word5_dhi (by omega) hd ha (by omega)]
theorem p_ahi : Dec.predHi (Enc.p maj mn d a b) 11 = (a / 16 == 0) := by
  rw [Dec.predHi, p_word, word5_ahi (by omega) hd ha (by omega)]
theorem p_d : Dec.reg (Enc.p maj mn d a b) 18 = BitVec.ofNat 7 d := by
  rw [p_word, word5_d (by omega) hd ha (by omega)]
theorem p_d4 : Dec.fld 4 (Enc.p maj mn d a b) 18 = BitVec.ofNat 4 (d % 16) := by
  rw [p_word, word5_d4 (by omega) hd ha (by omega)]
theorem p_a4 : Dec.fld 4 (Enc.p maj mn d a b) 11 = BitVec.ofNat 4 (a % 16) := by
  rw [p_word, word5_a4 (by omega) hd ha (by omega)]
omit hd ha
theorem p_mn : Dec.minor (Enc.p maj mn d a b) = mn := by
  rw [Dec.minor, p_word, word5_bits (by omega) (by omega), bits]; omega
theorem p_la : Dec.flag (Enc.p maj mn d a b) 1 = false := by
  rw [p_word, word5_flag (by omega), beq_eq_false_iff_ne]; omega
theorem p_lb : Dec.flag (Enc.p maj mn d a b) 0 = false := by
  rw [p_word, word5_flag (by omega), beq_eq_false_iff_ne]; omega
theorem p_bhi : Dec.predHi (Enc.p maj mn d a b) 4 = (b / 16 == 0) := by
  rw [Dec.predHi, p_word, word5_bits (by omega) (by omega), bits]; congr 1; omega
theorem p_b : bits (Enc.p maj mn d a b) 10 4 = b := by
  rw [p_word, word5_bits (by omega) (by omega), bits]; omega
theorem p_b4 : Dec.fld 4 (Enc.p maj mn d a b) 4 = BitVec.ofNat 4 (b % 16) := by
  rw [p_word, word5_fld (by omega) (by omega)]; congr 1; omega

end p

/-! ## Formats W and M -/

section i0
variable (maj : Nat) (u : Bool) (d : BitVec 7) (imm : Nat)

theorem i0_word : Enc.i0 maj u d imm = word5 maj (Enc.bit u) d.toNat (imm / 2048) (imm % 2048) := by
  simp only [Enc.i0, word5]; omega

variable (h : imm < 2 ^ 18)
include h
theorem i0_lt (hm : maj < 64) : Enc.i0 maj u d imm < 2 ^ 32 := by
  rw [i0_word]; exact word5_lt hm (bit_le u) d.isLt (by omega) (by omega)
theorem i0_maj (hm : maj < 64) : bits (Enc.i0 maj u d imm) 31 26 = maj := by
  rw [i0_word]; exact word5_maj hm (bit_le u) d.isLt (by omega) (by omega)
theorem i0_u : Dec.flag (Enc.i0 maj u d imm) 25 = u := by
  rw [i0_word, word5_u (bit_le u) d.isLt (by omega) (by omega), bit_beq]
theorem i0_d : Dec.reg (Enc.i0 maj u d imm) 18 = d := by
  rw [i0_word, word5_d (bit_le u) d.isLt (by omega) (by omega), BitVec.ofNat_toNat, BitVec.setWidth_eq]
theorem i0_imm : Dec.fld 18 (Enc.i0 maj u d imm) 0 = BitVec.ofNat 18 imm := by
  rw [i0_word, word5_low18 (bit_le u) d.isLt (by omega) (by omega)]; congr 1; omega
theorem i0_imm14 : Dec.fld 14 (Enc.i0 maj u d imm) 0 = BitVec.ofNat 14 imm := by
  rw [i0_word, word5_low14 (bit_le u) d.isLt (by omega) (by omega)]
  apply BitVec.eq_of_toNat_eq; simp only [BitVec.toNat_ofNat]; omega
theorem i0_top : bits (Enc.i0 maj u d imm) 17 14 = imm / 16384 := by
  rw [i0_word, word5_atop (bit_le u) d.isLt (by omega) (by omega)]; omega

end i0

section m
variable (maj : Nat) (u : Bool) (d base : BitVec 7) (size order : Nat) (off : BitVec 6)

theorem m_word : Enc.m maj u d base size order off
    = word5 maj (Enc.bit u) d.toNat base.toNat (size * 2 ^ 8 + order * 2 ^ 6 + off.toNat) := by
  simp only [Enc.m, word5]; omega

variable (hs : size < 8) (ho : order < 4)
include hs ho
theorem m_low : size * 2 ^ 8 + order * 2 ^ 6 + off.toNat < 2048 := by have := off.isLt; omega
theorem m_lt (hm : maj < 64) : Enc.m maj u d base size order off < 2 ^ 32 := by
  rw [m_word]; exact word5_lt hm (bit_le u) d.isLt base.isLt (m_low size order off hs ho)
theorem m_maj (hm : maj < 64) : bits (Enc.m maj u d base size order off) 31 26 = maj := by
  rw [m_word]; exact word5_maj hm (bit_le u) d.isLt base.isLt (m_low size order off hs ho)
theorem m_u : Dec.flag (Enc.m maj u d base size order off) 25 = u := by
  rw [m_word, word5_u (bit_le u) d.isLt base.isLt (m_low size order off hs ho), bit_beq]
theorem m_d : Dec.reg (Enc.m maj u d base size order off) 18 = d := by
  rw [m_word, word5_d (bit_le u) d.isLt base.isLt (m_low size order off hs ho), BitVec.ofNat_toNat, BitVec.setWidth_eq]
theorem m_base : Dec.reg (Enc.m maj u d base size order off) 11 = base := by
  rw [m_word, word5_a (bit_le u) d.isLt base.isLt (m_low size order off hs ho), BitVec.ofNat_toNat, BitVec.setWidth_eq]
theorem m_size : bits (Enc.m maj u d base size order off) 10 8 = size := by
  have := off.isLt
  rw [m_word, word5_bits (by omega) (by omega), bits]; omega
theorem m_order : bits (Enc.m maj u d base size order off) 7 6 = order := by
  have := off.isLt
  rw [m_word, word5_bits (by omega) (by omega), bits]; omega
theorem m_off : Dec.fld 6 (Enc.m maj u d base size order off) 0 = off := by
  have := off.isLt
  rw [m_word, word5_fld (by omega) (by omega)]; apply BitVec.eq_of_toNat_eq; rw [BitVec.toNat_ofNat]; omega

end m

/-! ## Formats X, B, A and C -/

section x
variable (maj sub d ra rb : Nat) (hm : maj < 64) (hs : sub < 32) (hd : d < 128) (ha : ra < 128) (hb : rb < 128)

include hm hs hd ha hb in
theorem x_lt : Enc.x maj sub d ra rb < 2 ^ 32 := by simp only [Enc.x]; omega
include hs hd ha hb
include hm in
theorem x_maj : bits (Enc.x maj sub d ra rb) 31 26 = maj := by simp only [Enc.x, bits]; omega
theorem x_sub : bits (Enc.x maj sub d ra rb) 25 21 = sub := by simp only [Enc.x, bits]; omega
theorem x_top : Dec.flag (Enc.x maj sub d ra rb) 25 = (sub / 16 == 1) := flag_of (by simp only [Enc.x]; omega)
theorem x_form : bits (Enc.x maj sub d ra rb) 24 21 = sub % 16 := by simp only [Enc.x, bits]; omega
theorem x_fmt : bits (Enc.x maj sub d ra rb) 24 23 = sub % 16 / 4 := by simp only [Enc.x, bits]; omega
theorem x_had : bits (Enc.x maj sub d ra rb) 22 21 = sub % 4 := by simp only [Enc.x, bits]; omega
omit hs
theorem x_dbits : bits (Enc.x maj sub d ra rb) 20 14 = d := by simp only [Enc.x, bits]; omega
theorem x_dtop : bits (Enc.x maj sub d ra rb) 20 19 = d / 32 := by simp only [Enc.x, bits]; omega
theorem x_d : Dec.reg (Enc.x maj sub d ra rb) 14 = BitVec.ofNat 7 d := reg_of (by simp only [Enc.x]; omega)
theorem x_d5 : Dec.fld 5 (Enc.x maj sub d ra rb) 14 = BitVec.ofNat 5 (d % 32) := fld_of (by simp only [Enc.x]; omega)
omit hd
theorem x_abits : bits (Enc.x maj sub d ra rb) 13 7 = ra := by simp only [Enc.x, bits]; omega
theorem x_a : Dec.reg (Enc.x maj sub d ra rb) 7 = BitVec.ofNat 7 ra := reg_of (by simp only [Enc.x]; omega)
omit ha
theorem x_bbits : bits (Enc.x maj sub d ra rb) 6 0 = rb := by simp only [Enc.x, bits]; omega
theorem x_btop : bits (Enc.x maj sub d ra rb) 6 5 = rb / 32 := by simp only [Enc.x, bits]; omega
theorem x_b : Dec.reg (Enc.x maj sub d ra rb) 0 = BitVec.ofNat 7 rb := reg_of (by simp only [Enc.x]; omega)
theorem x_b5 : Dec.fld 5 (Enc.x maj sub d ra rb) 0 = BitVec.ofNat 5 (rb % 32) := fld_of (by simp only [Enc.x]; omega)
theorem x_b3 : Dec.fld 3 (Enc.x maj sub d ra rb) 0 = BitVec.ofNat 3 (rb % 8) := fld_of (by simp only [Enc.x]; omega)
theorem x_b52 : Dec.fld 5 (Enc.x maj sub d ra rb) 2 = BitVec.ofNat 5 (rb / 4) := fld_of (by simp only [Enc.x]; omega)
theorem x_b1 : Dec.flag (Enc.x maj sub d ra rb) 1 = (rb / 2 % 2 == 1) := flag_of (by simp only [Enc.x]; omega)
theorem x_b0 : Dec.flag (Enc.x maj sub d ra rb) 0 = (rb % 2 == 1) := flag_of (by simp only [Enc.x]; omega)

end x

/-- An SRD or SWR word is an X word with the number in fields a and b. -/
theorem xn_eq (sub : Nat) (d : BitVec 7) (num : BitVec 14) :
    Enc.xn sub d num = Enc.x 56 sub d.toNat (num.toNat / 128) (num.toNat % 128) := by
  simp only [Enc.xn, Enc.x]; omega

theorem x_num (maj sub d ra rb : Nat) (ha : ra < 128) (hb : rb < 128) :
    Dec.fld 14 (Enc.x maj sub d ra rb) 0 = BitVec.ofNat 14 (ra * 128 + rb) := fld_of (by simp only [Enc.x]; omega)

section b
variable (maj : Nat) (pr : BitVec 4) (sense : Bool) (off : BitVec 21)

theorem b_lt (hm : maj < 64) : Enc.b maj pr sense off < 2 ^ 32 := by
  have := pr.isLt; have := bit_le sense; have := off.isLt; simp only [Enc.b]; omega
theorem b_maj (hm : maj < 64) : bits (Enc.b maj pr sense off) 31 26 = maj := by
  have := pr.isLt; have := bit_le sense; have := off.isLt; simp only [Enc.b, bits]; omega
theorem b_pred : Dec.fld 4 (Enc.b maj pr sense off) 22 = pr := by
  have := pr.isLt; have := bit_le sense; have := off.isLt
  rw [fld_of (x := pr.toNat) (by simp only [Enc.b]; omega), BitVec.ofNat_toNat, BitVec.setWidth_eq]
theorem b_sense : Dec.flag (Enc.b maj pr sense off) 21 = sense := by
  have := pr.isLt; have := bit_le sense; have := off.isLt
  rw [flag_of (x := Enc.bit sense) (by simp only [Enc.b]; omega), bit_beq]
theorem b_off : Dec.fld 21 (Enc.b maj pr sense off) 0 = off := by
  have := pr.isLt; have := bit_le sense; have := off.isLt
  rw [fld_of (x := off.toNat) (by simp only [Enc.b]; omega), BitVec.ofNat_toNat, BitVec.setWidth_eq]

end b

section a
variable (maj aop use : Nat) (d ra : BitVec 7) (off : BitVec 5) (ho : aop < 16) (hu : use < 8)
include ho hu

theorem a_lt (hm : maj < 64) : Enc.a maj aop use d ra off < 2 ^ 32 := by
  have := d.isLt; have := ra.isLt; have := off.isLt; simp only [Enc.a]; omega
theorem a_maj (hm : maj < 64) : bits (Enc.a maj aop use d ra off) 31 26 = maj := by
  have := d.isLt; have := ra.isLt; have := off.isLt; simp only [Enc.a, bits]; omega
theorem a_op : bits (Enc.a maj aop use d ra off) 25 22 = aop := by
  have := d.isLt; have := ra.isLt; have := off.isLt; simp only [Enc.a, bits]; omega
theorem a_use : bits (Enc.a maj aop use d ra off) 21 19 = use := by
  have := d.isLt; have := ra.isLt; have := off.isLt; simp only [Enc.a, bits]; omega
theorem a_d : Dec.reg (Enc.a maj aop use d ra off) 12 = d := by
  have := d.isLt; have := ra.isLt; have := off.isLt
  rw [reg_of (x := d.toNat) (by simp only [Enc.a]; omega), BitVec.ofNat_toNat, BitVec.setWidth_eq]
theorem a_ra : Dec.reg (Enc.a maj aop use d ra off) 5 = ra := by
  have := d.isLt; have := ra.isLt; have := off.isLt
  rw [reg_of (x := ra.toNat) (by simp only [Enc.a]; omega), BitVec.ofNat_toNat, BitVec.setWidth_eq]
theorem a_off : Dec.fld 5 (Enc.a maj aop use d ra off) 0 = off := by
  have := d.isLt; have := ra.isLt; have := off.isLt
  rw [fld_of (x := off.toNat) (by simp only [Enc.a]; omega), BitVec.ofNat_toNat, BitVec.setWidth_eq]

end a

section c
variable (mac : BitVec 6) (p0 p1 : BitVec 7) (p2 : BitVec 6)

theorem c_lt : Enc.c mac p0 p1 p2 < 2 ^ 32 := by
  have := mac.isLt; have := p0.isLt; have := p1.isLt; have := p2.isLt; simp only [Enc.c]; omega
theorem c_maj : bits (Enc.c mac p0 p1 p2) 31 26 = 55 := by
  have := mac.isLt; have := p0.isLt; have := p1.isLt; have := p2.isLt; simp only [Enc.c, bits]; omega
theorem c_mac : Dec.fld 6 (Enc.c mac p0 p1 p2) 20 = mac := by
  have := mac.isLt; have := p0.isLt; have := p1.isLt; have := p2.isLt
  rw [fld_of (x := mac.toNat) (by simp only [Enc.c]; omega), BitVec.ofNat_toNat, BitVec.setWidth_eq]
theorem c_p0 : Dec.reg (Enc.c mac p0 p1 p2) 13 = p0 := by
  have := mac.isLt; have := p0.isLt; have := p1.isLt; have := p2.isLt
  rw [reg_of (x := p0.toNat) (by simp only [Enc.c]; omega), BitVec.ofNat_toNat, BitVec.setWidth_eq]
theorem c_p1 : Dec.reg (Enc.c mac p0 p1 p2) 6 = p1 := by
  have := mac.isLt; have := p0.isLt; have := p1.isLt; have := p2.isLt
  rw [reg_of (x := p1.toNat) (by simp only [Enc.c]; omega), BitVec.ofNat_toNat, BitVec.setWidth_eq]
theorem c_p2 : Dec.fld 6 (Enc.c mac p0 p1 p2) 0 = p2 := by
  have := mac.isLt; have := p0.isLt; have := p1.isLt; have := p2.isLt
  rw [fld_of (x := p2.toNat) (by simp only [Enc.c]; omega), BitVec.ofNat_toNat, BitVec.setWidth_eq]

end c

end Sys2Proof.Laws
end

