-- ==== Sys2Proof/Laws/Map.lean ====
section
/-! SUPPORT. Sparse maps and memory: a read after a write to the same key gives the value written, a write leaves every other
key alone, and every memory operation keeps the canonical form. -/

namespace Sys2Proof.Machine

variable {α β : Type}

/-! ## Reads after writes -/

@[simp] theorem mget_mset_same (m : NMap α) (k : Nat) (v : α) : mget (mset m k v) k = some v := by
  induction m with
  | nil => simp [mset, mget]
  | cons p m ih =>
    obtain ⟨j, w⟩ := p
    simp only [mset]
    by_cases h : j = k
    · subst h; simp [mget]
    · simp only [beq_iff_eq, h, if_false]
      split
      · simp [mget]
      · simp [mget, h, ih]

theorem mget_mset_ne (m : NMap α) {k l : Nat} (v : α) (h : l ≠ k) : mget (mset m k v) l = mget m l := by
  induction m with
  | nil => simp [mset, mget, Ne.symm h]
  | cons p m ih =>
    obtain ⟨j, w⟩ := p
    simp only [mset]
    by_cases e : j = k
    · subst e; simp [mget, Ne.symm h]
    · simp only [beq_iff_eq, e, if_false]
      split
      · simp [mget, Ne.symm h]
      · simp only [mget]; split <;> simp_all

theorem mget_mset (m : NMap α) (k l : Nat) (v : α) : mget (mset m k v) l = if l = k then some v else mget m l := by
  split
  · next h => subst h; simp
  · next h => exact mget_mset_ne m v h

@[simp] theorem mgetD_mset_same (m : NMap α) (k : Nat) (v d : α) : mgetD (mset m k v) k d = v := by simp [mgetD]

theorem mgetD_mset_ne (m : NMap α) {k l : Nat} (v d : α) (h : l ≠ k) : mgetD (mset m k v) l d = mgetD m l d := by
  simp [mgetD, mget_mset_ne m v h]

theorem mgetD_mset (m : NMap α) (k l : Nat) (v d : α) : mgetD (mset m k v) l d = if l = k then v else mgetD m l d := by
  simp only [mgetD, mget_mset]; split <;> rfl

theorem mget_mdel_ne (m : NMap α) {k l : Nat} (h : l ≠ k) : mget (mdel m k) l = mget m l := by
  induction m with
  | nil => rfl
  | cons p m ih =>
    obtain ⟨j, w⟩ := p
    simp only [mdel]
    by_cases e : j = k
    · subst e; simp [mget, Ne.symm h]
    · simp only [beq_iff_eq, e, if_false, mget]; split <;> simp_all

theorem mget_mmapv (f : α → β) (m : NMap α) (k : Nat) : mget (mmapv f m) k = (mget m k).map f := by
  induction m with
  | nil => rfl
  | cons p m ih =>
    obtain ⟨j, w⟩ := p
    simp only [mmapv, mget]; split <;> simp_all

theorem mgetD_mmapv (f : α → β) (m : NMap α) (k : Nat) (d : α) : mgetD (mmapv f m) k (f d) = f (mgetD m k d) := by
  simp only [mgetD, mget_mmapv]; cases mget m k <;> rfl

theorem mget_mmod (m : NMap α) (k l : Nat) (f : α → α) :
    mget (mmod m k f) l = if l = k then (mget m l).map f else mget m l := by
  simp only [mmod]
  split
  · next v h =>
    rw [mget_mset]; split
    · next e => subst e; simp [h]
    · rfl
  · next h =>
    split
    · next e => subst e; simp [h]
    · rfl

@[simp] theorem mget_mmod_same (m : NMap α) (k : Nat) (f : α → α) : mget (mmod m k f) k = (mget m k).map f := by
  simp [mget_mmod]

theorem mget_mmod_ne (m : NMap α) {k l : Nat} (f : α → α) (h : l ≠ k) : mget (mmod m k f) l = mget m l := by
  simp [mget_mmod, h]

/-! ## Keys -/

/-- Every key of the map is above k. -/
def above (k : Nat) (m : NMap α) : Prop := ∀ p ∈ m, k < p.1

theorem msorted_cons {j : Nat} {v : α} {m : NMap α} : msorted ((j, v) :: m) = true ↔ above j m ∧ msorted m = true := by
  induction m generalizing j v with
  | nil => simp [msorted, above]
  | cons p m ih =>
    obtain ⟨k, w⟩ := p
    rw [msorted, Bool.and_eq_true, Nat.blt_eq, ih]
    constructor
    · rintro ⟨h, ha, hm⟩
      refine ⟨?_, ha, hm⟩
      intro q hq
      rcases List.mem_cons.mp hq with rfl | hq
      · exact h
      · exact Nat.lt_trans h (ha q hq)
    · rintro ⟨h, ha, hm⟩
      exact ⟨h (k, w) (List.mem_cons_self ..), ha, hm⟩

theorem mget_above {k : Nat} {m : NMap α} (h : above k m) : mget m k = none := by
  induction m with
  | nil => rfl
  | cons p m ih =>
    obtain ⟨j, w⟩ := p
    have := h (j, w) (List.mem_cons_self ..)
    have : j ≠ k := by simp only at this; omega
    simp only [mget, beq_iff_eq, this, if_false]
    exact ih (fun q hq => h q (List.mem_cons_of_mem _ hq))

theorem mget_isSome_of_mem {m : NMap α} {p : Nat × α} (h : p ∈ m) : (mget m p.1).isSome = true := by
  induction m with
  | nil => cases h
  | cons q m ih =>
    obtain ⟨k, v⟩ := q
    unfold mget
    split
    · rfl
    · next e =>
      rcases List.mem_cons.1 h with rfl | h
      · simp at e
      · exact ih h

theorem mem_mset {m : NMap α} {k : Nat} {v : α} {p : Nat × α} (h : p ∈ mset m k v) : p = (k, v) ∨ p ∈ m := by
  induction m with
  | nil => simp_all [mset]
  | cons q m ih =>
    obtain ⟨j, w⟩ := q
    simp only [mset] at h
    split at h
    · rcases List.mem_cons.mp h with h | h
      · exact .inl h
      · exact .inr (List.mem_cons_of_mem _ h)
    · split at h
      · rcases List.mem_cons.mp h with h | h
        · exact .inl h
        · exact .inr h
      · rcases List.mem_cons.mp h with h | h
        · exact .inr (h ▸ List.mem_cons_self ..)
        · rcases ih h with h | h
          · exact .inl h
          · exact .inr (List.mem_cons_of_mem _ h)

theorem mem_mdel {m : NMap α} {k : Nat} {p : Nat × α} (h : p ∈ mdel m k) : p ∈ m := by
  induction m with
  | nil => simp_all [mdel]
  | cons q m ih =>
    obtain ⟨j, w⟩ := q
    simp only [mdel] at h
    split at h
    · exact List.mem_cons_of_mem _ h
    · rcases List.mem_cons.mp h with h | h
      · exact h ▸ List.mem_cons_self ..
      · exact List.mem_cons_of_mem _ (ih h)

theorem msorted_mset {m : NMap α} (h : msorted m = true) (k : Nat) (v : α) : msorted (mset m k v) = true := by
  induction m with
  | nil => rfl
  | cons q m ih =>
    obtain ⟨j, w⟩ := q
    obtain ⟨ha, hm⟩ := msorted_cons.mp h
    simp only [mset]
    split
    · next e => rw [beq_iff_eq] at e; subst e; exact msorted_cons.mpr ⟨ha, hm⟩
    · next e =>
      rw [beq_iff_eq] at e
      split
      · next l =>
        rw [Nat.blt_eq] at l
        exact msorted_cons.mpr ⟨fun p hp => by
          rcases List.mem_cons.mp hp with rfl | hp
          · exact l
          · exact Nat.lt_trans l (ha p hp), h⟩
      · next l =>
        rw [Nat.blt_eq] at l
        refine msorted_cons.mpr ⟨fun p hp => ?_, ih hm⟩
        rcases mem_mset hp with rfl | hp
        · simp only; omega
        · exact ha p hp

theorem msorted_mdel {m : NMap α} (h : msorted m = true) (k : Nat) : msorted (mdel m k) = true := by
  induction m with
  | nil => rfl
  | cons q m ih =>
    obtain ⟨j, w⟩ := q
    obtain ⟨ha, hm⟩ := msorted_cons.mp h
    simp only [mdel]
    split
    · exact hm
    · exact msorted_cons.mpr ⟨fun p hp => ha p (mem_mdel hp), ih hm⟩

theorem mget_mdel_same {m : NMap α} (h : msorted m = true) (k : Nat) : mget (mdel m k) k = none := by
  induction m with
  | nil => rfl
  | cons q m ih =>
    obtain ⟨j, w⟩ := q
    obtain ⟨ha, hm⟩ := msorted_cons.mp h
    simp only [mdel]
    split
    · next e => rw [beq_iff_eq] at e; subst e; exact mget_above ha
    · next e => simp only [mget, e]; exact ih hm

/-! ## Memory -/

theorem memWf_nil : memWf [] = true := rfl

/-- A write of one byte keeps the canonical form. -/
theorem memWf_memSet {m : List Host.Cell} (h : memWf m = true) (a : Nat) (v : Byte) : memWf (memSet m a v) = true := by
  simp only [memWf, Bool.and_eq_true, List.all_eq_true] at h ⊢
  simp only [memSet]
  split
  · exact ⟨msorted_mdel h.1 a, fun p hp => h.2 p (mem_mdel hp)⟩
  · next e =>
    refine ⟨msorted_mset h.1 a v, fun p hp => ?_⟩
    rcases mem_mset hp with rfl | hp
    · simpa [bne] using e
    · exact h.2 p hp

/-- A read after a write to the same address gives the byte written. -/
theorem memGet_memSet_same {m : List Host.Cell} (h : memWf m = true) (a : Nat) (v : Byte) : memGet (memSet m a v) a = v := by
  simp only [memWf, Bool.and_eq_true] at h
  simp only [memSet, memGet]
  split
  · next e => rw [beq_iff_eq] at e; subst e; simp [mgetD, mget_mdel_same h.1]
  · simp

/-- A write of one byte leaves every other address alone. -/
theorem memGet_memSet_ne (m : List Host.Cell) {a b : Nat} (v : Byte) (h : b ≠ a) : memGet (memSet m a v) b = memGet m b := by
  simp only [memSet, memGet]
  split
  · simp [mgetD, mget_mdel_ne m h]
  · exact mgetD_mset_ne m v _ h

/-- A write of several bytes keeps the canonical form. -/
theorem memWf_memWrite {m : List Host.Cell} (h : memWf m = true) (a : Nat) (bs : List Byte) :
    memWf (memWrite m a bs) = true := by
  induction bs generalizing m a with
  | nil => exact h
  | cons b bs ih => exact ih (memWf_memSet h a b) (a + 1)

/-- A write of several bytes leaves every address outside them alone. -/
theorem memGet_memWrite_out (m : List Host.Cell) (a : Nat) (bs : List Byte) {b : Nat} (h : b < a ∨ a + bs.length ≤ b) :
    memGet (memWrite m a bs) b = memGet m b := by
  induction bs generalizing m a with
  | nil => rfl
  | cons v bs ih =>
    rw [memWrite, ih, memGet_memSet_ne]
    · simp only [List.length_cons] at h; omega
    · simp only [List.length_cons] at h; omega

/-- Two canonical memories that read alike at every address are equal. -/
theorem memWf_ext {m n : List Host.Cell} (hm : memWf m = true) (hn : memWf n = true) (h : ∀ a, memGet m a = memGet n a) :
    m = n := by
  have key : ∀ {x : List Host.Cell}, memWf x = true → ∀ a, memGet x a = 0#8 → mget x a = none := by
    intro x hx a ha
    simp only [memGet, mgetD] at ha
    cases e : mget x a with
    | none => rfl
    | some v =>
      exfalso
      have hv : v = 0#8 := by simpa [e] using ha
      subst hv
      clear ha
      simp only [memWf, Bool.and_eq_true, List.all_eq_true] at hx
      have : ∀ {y : NMap Byte}, mget y a = some 0#8 → (a, 0#8) ∈ y := by
        intro y
        induction y with
        | nil => simp [mget]
        | cons p y ih =>
          obtain ⟨j, w⟩ := p
          simp only [mget]
          split
          · next e => rw [beq_iff_eq] at e; subst e; intro h; simp_all
          · intro h; exact List.mem_cons_of_mem _ (ih h)
      simpa using hx.2 _ (this e)
  have get : ∀ a, mget m a = mget n a := by
    intro a
    by_cases z : memGet m a = 0#8
    · rw [key hm a z, key hn a (h a ▸ z)]
    · have := h a
      simp only [memGet, mgetD] at this z
      cases em : mget m a with
      | none => simp [em] at z
      | some v =>
        cases en : mget n a with
        | none => simp [em, en] at this; simp [em] at z; exact absurd this z
        | some w => simp [em, en] at this; rw [this]
  have sm : msorted m = true := by simp only [memWf, Bool.and_eq_true] at hm; exact hm.1
  have sn : msorted n = true := by simp only [memWf, Bool.and_eq_true] at hn; exact hn.1
  clear key h hm hn
  induction m generalizing n with
  | nil =>
    cases n with
    | nil => rfl
    | cons p n => have := get p.1; simp [mget] at this
  | cons p m ih =>
    obtain ⟨j, v⟩ := p
    cases n with
    | nil => have := get j; simp [mget] at this
    | cons q n =>
      obtain ⟨k, w⟩ := q
      obtain ⟨am, sm2⟩ := msorted_cons.mp sm
      obtain ⟨an, sn2⟩ := msorted_cons.mp sn
      have hjk : j = k := by
        rcases Nat.lt_trichotomy j k with l | l | l
        · have g := get j
          have : above j n := fun x hx => Nat.lt_trans l (an x hx)
          simp [mget, Nat.ne_of_gt l, mget_above this] at g
        · exact l
        · have g := get k
          have : above k m := fun x hx => Nat.lt_trans l (am x hx)
          simp [mget, Nat.ne_of_gt l, mget_above this] at g
      subst hjk
      have hv : v = w := by have g := get j; simpa [mget] using g
      subst hv
      congr 1
      refine ih (fun a => ?_) sm2 sn2
      by_cases e : j = a
      · subst e; rw [mget_above am, mget_above an]
      · have g := get a; simpa [mget, e] using g

end Sys2Proof.Machine
end

