-- ==== Sys2Proof/Laws/State.lean ====
section
/-! SUPPORT. One lemma for each field of the state and of a flight under each named update, true by rfl, and what reading a part
of the state back after an update gives. -/

namespace Sys2Proof.Machine

/-! ## Updates of the state -/

@[simp] theorem State.setCore_agenda (s : State) (c : Nat) (v : Core) : (s.setCore c v).agenda = s.agenda := rfl
@[simp] theorem State.setCore_cur (s : State) (c : Nat) (v : Core) : (s.setCore c v).cur = s.cur := rfl
@[simp] theorem State.setCore_free (s : State) (c : Nat) (v : Core) : (s.setCore c v).free = s.free := rfl
@[simp] theorem State.setCore_nextId (s : State) (c : Nat) (v : Core) : (s.setCore c v).nextId = s.nextId := rfl
@[simp] theorem State.setCore_stamp (s : State) (c : Nat) (v : Core) : (s.setCore c v).stamp = s.stamp := rfl
@[simp] theorem State.setCore_time (s : State) (c : Nat) (v : Core) : (s.setCore c v).time = s.time := rfl
@[simp] theorem State.setCore_mem (s : State) (c : Nat) (v : Core) : (s.setCore c v).mem = s.mem := rfl
@[simp] theorem State.setCore_co (s : State) (c : Nat) (v : Core) : (s.setCore c v).co = s.co := rfl
@[simp] theorem State.setCore_cores (s : State) (c : Nat) (v : Core) : (s.setCore c v).cores = mset s.cores c v := rfl
@[simp] theorem State.setCore_clusters (s : State) (c : Nat) (v : Core) : (s.setCore c v).clusters = s.clusters := rfl
@[simp] theorem State.setCore_dies (s : State) (c : Nat) (v : Core) : (s.setCore c v).dies = s.dies := rfl
@[simp] theorem State.setCore_contexts (s : State) (c : Nat) (v : Core) : (s.setCore c v).contexts = s.contexts := rfl
@[simp] theorem State.setCore_queues (s : State) (c : Nat) (v : Core) : (s.setCore c v).queues = s.queues := rfl
@[simp] theorem State.setCore_galleries (s : State) (c : Nat) (v : Core) : (s.setCore c v).galleries = s.galleries := rfl
@[simp] theorem State.setCore_flights (s : State) (c : Nat) (v : Core) : (s.setCore c v).flights = s.flights := rfl
@[simp] theorem State.setCore_windows (s : State) (c : Nat) (v : Core) : (s.setCore c v).windows = s.windows := rfl
@[simp] theorem State.setCore_colls (s : State) (c : Nat) (v : Core) : (s.setCore c v).colls = s.colls := rfl
@[simp] theorem State.setCore_bound (s : State) (c : Nat) (v : Core) : (s.setCore c v).bound = s.bound := rfl
@[simp] theorem State.setCore_early (s : State) (c : Nat) (v : Core) : (s.setCore c v).early = s.early := rfl
@[simp] theorem State.setCore_announced (s : State) (c : Nat) (v : Core) : (s.setCore c v).announced = s.announced := rfl
@[simp] theorem State.setCore_ports (s : State) (c : Nat) (v : Core) : (s.setCore c v).ports = s.ports := rfl
@[simp] theorem State.setCore_fabricOut (s : State) (c : Nat) (v : Core) : (s.setCore c v).fabricOut = s.fabricOut := rfl
@[simp] theorem State.setCore_wire (s : State) (c : Nat) (v : Core) : (s.setCore c v).wire = s.wire := rfl
@[simp] theorem State.setCore_unreached (s : State) (c : Nat) (v : Core) : (s.setCore c v).unreached = s.unreached := rfl
@[simp] theorem State.setCore_qpairs (s : State) (c : Nat) (v : Core) : (s.setCore c v).qpairs = s.qpairs := rfl
@[simp] theorem State.setCore_hostWins (s : State) (c : Nat) (v : Core) : (s.setCore c v).hostWins = s.hostWins := rfl
@[simp] theorem State.setCore_invals (s : State) (c : Nat) (v : Core) : (s.setCore c v).invals = s.invals := rfl
@[simp] theorem State.setCore_sessions (s : State) (c : Nat) (v : Core) : (s.setCore c v).sessions = s.sessions := rfl
@[simp] theorem State.setCore_boot (s : State) (c : Nat) (v : Core) : (s.setCore c v).boot = s.boot := rfl
@[simp] theorem State.setCore_tables (s : State) (c : Nat) (v : Core) : (s.setCore c v).tables = s.tables := rfl
@[simp] theorem State.setCore_lastCluster (s : State) (c : Nat) (v : Core) : (s.setCore c v).lastCluster = s.lastCluster := rfl
@[simp] theorem State.setCore_outputs (s : State) (c : Nat) (v : Core) : (s.setCore c v).outputs = s.outputs := rfl
@[simp] theorem State.setCore_undone (s : State) (c : Nat) (v : Core) : (s.setCore c v).undone = s.undone := rfl

@[simp] theorem State.setCluster_agenda (s : State) (c : Nat) (v : Cluster) : (s.setCluster c v).agenda = s.agenda := rfl
@[simp] theorem State.setCluster_cur (s : State) (c : Nat) (v : Cluster) : (s.setCluster c v).cur = s.cur := rfl
@[simp] theorem State.setCluster_free (s : State) (c : Nat) (v : Cluster) : (s.setCluster c v).free = s.free := rfl
@[simp] theorem State.setCluster_nextId (s : State) (c : Nat) (v : Cluster) : (s.setCluster c v).nextId = s.nextId := rfl
@[simp] theorem State.setCluster_stamp (s : State) (c : Nat) (v : Cluster) : (s.setCluster c v).stamp = s.stamp := rfl
@[simp] theorem State.setCluster_time (s : State) (c : Nat) (v : Cluster) : (s.setCluster c v).time = s.time := rfl
@[simp] theorem State.setCluster_mem (s : State) (c : Nat) (v : Cluster) : (s.setCluster c v).mem = s.mem := rfl
@[simp] theorem State.setCluster_co (s : State) (c : Nat) (v : Cluster) : (s.setCluster c v).co = s.co := rfl
@[simp] theorem State.setCluster_cores (s : State) (c : Nat) (v : Cluster) : (s.setCluster c v).cores = s.cores := rfl
@[simp] theorem State.setCluster_clusters (s : State) (c : Nat) (v : Cluster) :
    (s.setCluster c v).clusters = mset s.clusters c v := rfl
@[simp] theorem State.setCluster_dies (s : State) (c : Nat) (v : Cluster) : (s.setCluster c v).dies = s.dies := rfl
@[simp] theorem State.setCluster_contexts (s : State) (c : Nat) (v : Cluster) : (s.setCluster c v).contexts = s.contexts := rfl
@[simp] theorem State.setCluster_queues (s : State) (c : Nat) (v : Cluster) : (s.setCluster c v).queues = s.queues := rfl
@[simp] theorem State.setCluster_galleries (s : State) (c : Nat) (v : Cluster) : (s.setCluster c v).galleries = s.galleries
    := rfl
@[simp] theorem State.setCluster_flights (s : State) (c : Nat) (v : Cluster) : (s.setCluster c v).flights = s.flights := rfl
@[simp] theorem State.setCluster_windows (s : State) (c : Nat) (v : Cluster) : (s.setCluster c v).windows = s.windows := rfl
@[simp] theorem State.setCluster_colls (s : State) (c : Nat) (v : Cluster) : (s.setCluster c v).colls = s.colls := rfl
@[simp] theorem State.setCluster_bound (s : State) (c : Nat) (v : Cluster) : (s.setCluster c v).bound = s.bound := rfl
@[simp] theorem State.setCluster_early (s : State) (c : Nat) (v : Cluster) : (s.setCluster c v).early = s.early := rfl
@[simp] theorem State.setCluster_announced (s : State) (c : Nat) (v : Cluster) : (s.setCluster c v).announced = s.announced
    := rfl
@[simp] theorem State.setCluster_ports (s : State) (c : Nat) (v : Cluster) : (s.setCluster c v).ports = s.ports := rfl
@[simp] theorem State.setCluster_fabricOut (s : State) (c : Nat) (v : Cluster) : (s.setCluster c v).fabricOut = s.fabricOut
    := rfl
@[simp] theorem State.setCluster_wire (s : State) (c : Nat) (v : Cluster) : (s.setCluster c v).wire = s.wire := rfl
@[simp] theorem State.setCluster_unreached (s : State) (c : Nat) (v : Cluster) : (s.setCluster c v).unreached = s.unreached
    := rfl
@[simp] theorem State.setCluster_qpairs (s : State) (c : Nat) (v : Cluster) : (s.setCluster c v).qpairs = s.qpairs := rfl
@[simp] theorem State.setCluster_hostWins (s : State) (c : Nat) (v : Cluster) : (s.setCluster c v).hostWins = s.hostWins := rfl
@[simp] theorem State.setCluster_invals (s : State) (c : Nat) (v : Cluster) : (s.setCluster c v).invals = s.invals := rfl
@[simp] theorem State.setCluster_sessions (s : State) (c : Nat) (v : Cluster) : (s.setCluster c v).sessions = s.sessions := rfl
@[simp] theorem State.setCluster_boot (s : State) (c : Nat) (v : Cluster) : (s.setCluster c v).boot = s.boot := rfl
@[simp] theorem State.setCluster_tables (s : State) (c : Nat) (v : Cluster) : (s.setCluster c v).tables = s.tables := rfl
@[simp] theorem State.setCluster_lastCluster (s : State) (c : Nat) (v : Cluster) :
    (s.setCluster c v).lastCluster = s.lastCluster := rfl
@[simp] theorem State.setCluster_outputs (s : State) (c : Nat) (v : Cluster) : (s.setCluster c v).outputs = s.outputs := rfl
@[simp] theorem State.setCluster_undone (s : State) (c : Nat) (v : Cluster) : (s.setCluster c v).undone = s.undone := rfl

@[simp] theorem State.setDie_agenda (s : State) (d : Nat) (v : Die) : (s.setDie d v).agenda = s.agenda := rfl
@[simp] theorem State.setDie_cur (s : State) (d : Nat) (v : Die) : (s.setDie d v).cur = s.cur := rfl
@[simp] theorem State.setDie_free (s : State) (d : Nat) (v : Die) : (s.setDie d v).free = s.free := rfl
@[simp] theorem State.setDie_nextId (s : State) (d : Nat) (v : Die) : (s.setDie d v).nextId = s.nextId := rfl
@[simp] theorem State.setDie_stamp (s : State) (d : Nat) (v : Die) : (s.setDie d v).stamp = s.stamp := rfl
@[simp] theorem State.setDie_time (s : State) (d : Nat) (v : Die) : (s.setDie d v).time = s.time := rfl
@[simp] theorem State.setDie_mem (s : State) (d : Nat) (v : Die) : (s.setDie d v).mem = s.mem := rfl
@[simp] theorem State.setDie_co (s : State) (d : Nat) (v : Die) : (s.setDie d v).co = s.co := rfl
@[simp] theorem State.setDie_cores (s : State) (d : Nat) (v : Die) : (s.setDie d v).cores = s.cores := rfl
@[simp] theorem State.setDie_clusters (s : State) (d : Nat) (v : Die) : (s.setDie d v).clusters = s.clusters := rfl
@[simp] theorem State.setDie_dies (s : State) (d : Nat) (v : Die) : (s.setDie d v).dies = mset s.dies d v := rfl
@[simp] theorem State.setDie_contexts (s : State) (d : Nat) (v : Die) : (s.setDie d v).contexts = s.contexts := rfl
@[simp] theorem State.setDie_queues (s : State) (d : Nat) (v : Die) : (s.setDie d v).queues = s.queues := rfl
@[simp] theorem State.setDie_galleries (s : State) (d : Nat) (v : Die) : (s.setDie d v).galleries = s.galleries := rfl
@[simp] theorem State.setDie_flights (s : State) (d : Nat) (v : Die) : (s.setDie d v).flights = s.flights := rfl
@[simp] theorem State.setDie_windows (s : State) (d : Nat) (v : Die) : (s.setDie d v).windows = s.windows := rfl
@[simp] theorem State.setDie_colls (s : State) (d : Nat) (v : Die) : (s.setDie d v).colls = s.colls := rfl
@[simp] theorem State.setDie_bound (s : State) (d : Nat) (v : Die) : (s.setDie d v).bound = s.bound := rfl
@[simp] theorem State.setDie_early (s : State) (d : Nat) (v : Die) : (s.setDie d v).early = s.early := rfl
@[simp] theorem State.setDie_announced (s : State) (d : Nat) (v : Die) : (s.setDie d v).announced = s.announced := rfl
@[simp] theorem State.setDie_ports (s : State) (d : Nat) (v : Die) : (s.setDie d v).ports = s.ports := rfl
@[simp] theorem State.setDie_fabricOut (s : State) (d : Nat) (v : Die) : (s.setDie d v).fabricOut = s.fabricOut := rfl
@[simp] theorem State.setDie_wire (s : State) (d : Nat) (v : Die) : (s.setDie d v).wire = s.wire := rfl
@[simp] theorem State.setDie_unreached (s : State) (d : Nat) (v : Die) : (s.setDie d v).unreached = s.unreached := rfl
@[simp] theorem State.setDie_qpairs (s : State) (d : Nat) (v : Die) : (s.setDie d v).qpairs = s.qpairs := rfl
@[simp] theorem State.setDie_hostWins (s : State) (d : Nat) (v : Die) : (s.setDie d v).hostWins = s.hostWins := rfl
@[simp] theorem State.setDie_invals (s : State) (d : Nat) (v : Die) : (s.setDie d v).invals = s.invals := rfl
@[simp] theorem State.setDie_sessions (s : State) (d : Nat) (v : Die) : (s.setDie d v).sessions = s.sessions := rfl
@[simp] theorem State.setDie_boot (s : State) (d : Nat) (v : Die) : (s.setDie d v).boot = s.boot := rfl
@[simp] theorem State.setDie_tables (s : State) (d : Nat) (v : Die) : (s.setDie d v).tables = s.tables := rfl
@[simp] theorem State.setDie_lastCluster (s : State) (d : Nat) (v : Die) : (s.setDie d v).lastCluster = s.lastCluster := rfl
@[simp] theorem State.setDie_outputs (s : State) (d : Nat) (v : Die) : (s.setDie d v).outputs = s.outputs := rfl
@[simp] theorem State.setDie_undone (s : State) (d : Nat) (v : Die) : (s.setDie d v).undone = s.undone := rfl

@[simp] theorem State.setCtxt_agenda (s : State) (c : Nat) (v : Context) : (s.setCtxt c v).agenda = s.agenda := rfl
@[simp] theorem State.setCtxt_cur (s : State) (c : Nat) (v : Context) : (s.setCtxt c v).cur = s.cur := rfl
@[simp] theorem State.setCtxt_free (s : State) (c : Nat) (v : Context) : (s.setCtxt c v).free = s.free := rfl
@[simp] theorem State.setCtxt_nextId (s : State) (c : Nat) (v : Context) : (s.setCtxt c v).nextId = s.nextId := rfl
@[simp] theorem State.setCtxt_stamp (s : State) (c : Nat) (v : Context) : (s.setCtxt c v).stamp = s.stamp := rfl
@[simp] theorem State.setCtxt_time (s : State) (c : Nat) (v : Context) : (s.setCtxt c v).time = s.time := rfl
@[simp] theorem State.setCtxt_mem (s : State) (c : Nat) (v : Context) : (s.setCtxt c v).mem = s.mem := rfl
@[simp] theorem State.setCtxt_co (s : State) (c : Nat) (v : Context) : (s.setCtxt c v).co = s.co := rfl
@[simp] theorem State.setCtxt_cores (s : State) (c : Nat) (v : Context) : (s.setCtxt c v).cores = s.cores := rfl
@[simp] theorem State.setCtxt_clusters (s : State) (c : Nat) (v : Context) : (s.setCtxt c v).clusters = s.clusters := rfl
@[simp] theorem State.setCtxt_dies (s : State) (c : Nat) (v : Context) : (s.setCtxt c v).dies = s.dies := rfl
@[simp] theorem State.setCtxt_contexts (s : State) (c : Nat) (v : Context) : (s.setCtxt c v).contexts = mset s.contexts c v
    := rfl
@[simp] theorem State.setCtxt_queues (s : State) (c : Nat) (v : Context) : (s.setCtxt c v).queues = s.queues := rfl
@[simp] theorem State.setCtxt_galleries (s : State) (c : Nat) (v : Context) : (s.setCtxt c v).galleries = s.galleries := rfl
@[simp] theorem State.setCtxt_flights (s : State) (c : Nat) (v : Context) : (s.setCtxt c v).flights = s.flights := rfl
@[simp] theorem State.setCtxt_windows (s : State) (c : Nat) (v : Context) : (s.setCtxt c v).windows = s.windows := rfl
@[simp] theorem State.setCtxt_colls (s : State) (c : Nat) (v : Context) : (s.setCtxt c v).colls = s.colls := rfl
@[simp] theorem State.setCtxt_bound (s : State) (c : Nat) (v : Context) : (s.setCtxt c v).bound = s.bound := rfl
@[simp] theorem State.setCtxt_early (s : State) (c : Nat) (v : Context) : (s.setCtxt c v).early = s.early := rfl
@[simp] theorem State.setCtxt_announced (s : State) (c : Nat) (v : Context) : (s.setCtxt c v).announced = s.announced := rfl
@[simp] theorem State.setCtxt_ports (s : State) (c : Nat) (v : Context) : (s.setCtxt c v).ports = s.ports := rfl
@[simp] theorem State.setCtxt_fabricOut (s : State) (c : Nat) (v : Context) : (s.setCtxt c v).fabricOut = s.fabricOut := rfl
@[simp] theorem State.setCtxt_wire (s : State) (c : Nat) (v : Context) : (s.setCtxt c v).wire = s.wire := rfl
@[simp] theorem State.setCtxt_unreached (s : State) (c : Nat) (v : Context) : (s.setCtxt c v).unreached = s.unreached := rfl
@[simp] theorem State.setCtxt_qpairs (s : State) (c : Nat) (v : Context) : (s.setCtxt c v).qpairs = s.qpairs := rfl
@[simp] theorem State.setCtxt_hostWins (s : State) (c : Nat) (v : Context) : (s.setCtxt c v).hostWins = s.hostWins := rfl
@[simp] theorem State.setCtxt_invals (s : State) (c : Nat) (v : Context) : (s.setCtxt c v).invals = s.invals := rfl
@[simp] theorem State.setCtxt_sessions (s : State) (c : Nat) (v : Context) : (s.setCtxt c v).sessions = s.sessions := rfl
@[simp] theorem State.setCtxt_boot (s : State) (c : Nat) (v : Context) : (s.setCtxt c v).boot = s.boot := rfl
@[simp] theorem State.setCtxt_tables (s : State) (c : Nat) (v : Context) : (s.setCtxt c v).tables = s.tables := rfl
@[simp] theorem State.setCtxt_lastCluster (s : State) (c : Nat) (v : Context) : (s.setCtxt c v).lastCluster = s.lastCluster
    := rfl
@[simp] theorem State.setCtxt_outputs (s : State) (c : Nat) (v : Context) : (s.setCtxt c v).outputs = s.outputs := rfl
@[simp] theorem State.setCtxt_undone (s : State) (c : Nat) (v : Context) : (s.setCtxt c v).undone = s.undone := rfl

@[simp] theorem State.setQueue_agenda (s : State) (q : Nat) (v : Queue) : (s.setQueue q v).agenda = s.agenda := rfl
@[simp] theorem State.setQueue_cur (s : State) (q : Nat) (v : Queue) : (s.setQueue q v).cur = s.cur := rfl
@[simp] theorem State.setQueue_free (s : State) (q : Nat) (v : Queue) : (s.setQueue q v).free = s.free := rfl
@[simp] theorem State.setQueue_nextId (s : State) (q : Nat) (v : Queue) : (s.setQueue q v).nextId = s.nextId := rfl
@[simp] theorem State.setQueue_stamp (s : State) (q : Nat) (v : Queue) : (s.setQueue q v).stamp = s.stamp := rfl
@[simp] theorem State.setQueue_time (s : State) (q : Nat) (v : Queue) : (s.setQueue q v).time = s.time := rfl
@[simp] theorem State.setQueue_mem (s : State) (q : Nat) (v : Queue) : (s.setQueue q v).mem = s.mem := rfl
@[simp] theorem State.setQueue_co (s : State) (q : Nat) (v : Queue) : (s.setQueue q v).co = s.co := rfl
@[simp] theorem State.setQueue_cores (s : State) (q : Nat) (v : Queue) : (s.setQueue q v).cores = s.cores := rfl
@[simp] theorem State.setQueue_clusters (s : State) (q : Nat) (v : Queue) : (s.setQueue q v).clusters = s.clusters := rfl
@[simp] theorem State.setQueue_dies (s : State) (q : Nat) (v : Queue) : (s.setQueue q v).dies = s.dies := rfl
@[simp] theorem State.setQueue_contexts (s : State) (q : Nat) (v : Queue) : (s.setQueue q v).contexts = s.contexts := rfl
@[simp] theorem State.setQueue_queues (s : State) (q : Nat) (v : Queue) : (s.setQueue q v).queues = mset s.queues q v := rfl
@[simp] theorem State.setQueue_galleries (s : State) (q : Nat) (v : Queue) : (s.setQueue q v).galleries = s.galleries := rfl
@[simp] theorem State.setQueue_flights (s : State) (q : Nat) (v : Queue) : (s.setQueue q v).flights = s.flights := rfl
@[simp] theorem State.setQueue_windows (s : State) (q : Nat) (v : Queue) : (s.setQueue q v).windows = s.windows := rfl
@[simp] theorem State.setQueue_colls (s : State) (q : Nat) (v : Queue) : (s.setQueue q v).colls = s.colls := rfl
@[simp] theorem State.setQueue_bound (s : State) (q : Nat) (v : Queue) : (s.setQueue q v).bound = s.bound := rfl
@[simp] theorem State.setQueue_early (s : State) (q : Nat) (v : Queue) : (s.setQueue q v).early = s.early := rfl
@[simp] theorem State.setQueue_announced (s : State) (q : Nat) (v : Queue) : (s.setQueue q v).announced = s.announced := rfl
@[simp] theorem State.setQueue_ports (s : State) (q : Nat) (v : Queue) : (s.setQueue q v).ports = s.ports := rfl
@[simp] theorem State.setQueue_fabricOut (s : State) (q : Nat) (v : Queue) : (s.setQueue q v).fabricOut = s.fabricOut := rfl
@[simp] theorem State.setQueue_wire (s : State) (q : Nat) (v : Queue) : (s.setQueue q v).wire = s.wire := rfl
@[simp] theorem State.setQueue_unreached (s : State) (q : Nat) (v : Queue) : (s.setQueue q v).unreached = s.unreached := rfl
@[simp] theorem State.setQueue_qpairs (s : State) (q : Nat) (v : Queue) : (s.setQueue q v).qpairs = s.qpairs := rfl
@[simp] theorem State.setQueue_hostWins (s : State) (q : Nat) (v : Queue) : (s.setQueue q v).hostWins = s.hostWins := rfl
@[simp] theorem State.setQueue_invals (s : State) (q : Nat) (v : Queue) : (s.setQueue q v).invals = s.invals := rfl
@[simp] theorem State.setQueue_sessions (s : State) (q : Nat) (v : Queue) : (s.setQueue q v).sessions = s.sessions := rfl
@[simp] theorem State.setQueue_boot (s : State) (q : Nat) (v : Queue) : (s.setQueue q v).boot = s.boot := rfl
@[simp] theorem State.setQueue_tables (s : State) (q : Nat) (v : Queue) : (s.setQueue q v).tables = s.tables := rfl
@[simp] theorem State.setQueue_lastCluster (s : State) (q : Nat) (v : Queue) : (s.setQueue q v).lastCluster = s.lastCluster
    := rfl
@[simp] theorem State.setQueue_outputs (s : State) (q : Nat) (v : Queue) : (s.setQueue q v).outputs = s.outputs := rfl
@[simp] theorem State.setQueue_undone (s : State) (q : Nat) (v : Queue) : (s.setQueue q v).undone = s.undone := rfl

@[simp] theorem State.setFlight_agenda (s : State) (u : Nat) (f : Flight) : (s.setFlight u f).agenda = s.agenda := rfl
@[simp] theorem State.setFlight_cur (s : State) (u : Nat) (f : Flight) : (s.setFlight u f).cur = s.cur := rfl
@[simp] theorem State.setFlight_free (s : State) (u : Nat) (f : Flight) : (s.setFlight u f).free = s.free := rfl
@[simp] theorem State.setFlight_nextId (s : State) (u : Nat) (f : Flight) : (s.setFlight u f).nextId = s.nextId := rfl
@[simp] theorem State.setFlight_stamp (s : State) (u : Nat) (f : Flight) : (s.setFlight u f).stamp = s.stamp := rfl
@[simp] theorem State.setFlight_time (s : State) (u : Nat) (f : Flight) : (s.setFlight u f).time = s.time := rfl
@[simp] theorem State.setFlight_mem (s : State) (u : Nat) (f : Flight) : (s.setFlight u f).mem = s.mem := rfl
@[simp] theorem State.setFlight_co (s : State) (u : Nat) (f : Flight) : (s.setFlight u f).co = s.co := rfl
@[simp] theorem State.setFlight_cores (s : State) (u : Nat) (f : Flight) : (s.setFlight u f).cores = s.cores := rfl
@[simp] theorem State.setFlight_clusters (s : State) (u : Nat) (f : Flight) : (s.setFlight u f).clusters = s.clusters := rfl
@[simp] theorem State.setFlight_dies (s : State) (u : Nat) (f : Flight) : (s.setFlight u f).dies = s.dies := rfl
@[simp] theorem State.setFlight_contexts (s : State) (u : Nat) (f : Flight) : (s.setFlight u f).contexts = s.contexts := rfl
@[simp] theorem State.setFlight_queues (s : State) (u : Nat) (f : Flight) : (s.setFlight u f).queues = s.queues := rfl
@[simp] theorem State.setFlight_galleries (s : State) (u : Nat) (f : Flight) : (s.setFlight u f).galleries = s.galleries := rfl
@[simp] theorem State.setFlight_flights (s : State) (u : Nat) (f : Flight) : (s.setFlight u f).flights = mset s.flights u f
    := rfl
@[simp] theorem State.setFlight_windows (s : State) (u : Nat) (f : Flight) : (s.setFlight u f).windows = s.windows := rfl
@[simp] theorem State.setFlight_colls (s : State) (u : Nat) (f : Flight) : (s.setFlight u f).colls = s.colls := rfl
@[simp] theorem State.setFlight_bound (s : State) (u : Nat) (f : Flight) : (s.setFlight u f).bound = s.bound := rfl
@[simp] theorem State.setFlight_early (s : State) (u : Nat) (f : Flight) : (s.setFlight u f).early = s.early := rfl
@[simp] theorem State.setFlight_announced (s : State) (u : Nat) (f : Flight) : (s.setFlight u f).announced = s.announced := rfl
@[simp] theorem State.setFlight_ports (s : State) (u : Nat) (f : Flight) : (s.setFlight u f).ports = s.ports := rfl
@[simp] theorem State.setFlight_fabricOut (s : State) (u : Nat) (f : Flight) : (s.setFlight u f).fabricOut = s.fabricOut := rfl
@[simp] theorem State.setFlight_wire (s : State) (u : Nat) (f : Flight) : (s.setFlight u f).wire = s.wire := rfl
@[simp] theorem State.setFlight_unreached (s : State) (u : Nat) (f : Flight) : (s.setFlight u f).unreached = s.unreached := rfl
@[simp] theorem State.setFlight_qpairs (s : State) (u : Nat) (f : Flight) : (s.setFlight u f).qpairs = s.qpairs := rfl
@[simp] theorem State.setFlight_hostWins (s : State) (u : Nat) (f : Flight) : (s.setFlight u f).hostWins = s.hostWins := rfl
@[simp] theorem State.setFlight_invals (s : State) (u : Nat) (f : Flight) : (s.setFlight u f).invals = s.invals := rfl
@[simp] theorem State.setFlight_sessions (s : State) (u : Nat) (f : Flight) : (s.setFlight u f).sessions = s.sessions := rfl
@[simp] theorem State.setFlight_boot (s : State) (u : Nat) (f : Flight) : (s.setFlight u f).boot = s.boot := rfl
@[simp] theorem State.setFlight_tables (s : State) (u : Nat) (f : Flight) : (s.setFlight u f).tables = s.tables := rfl
@[simp] theorem State.setFlight_lastCluster (s : State) (u : Nat) (f : Flight) : (s.setFlight u f).lastCluster = s.lastCluster
    := rfl
@[simp] theorem State.setFlight_outputs (s : State) (u : Nat) (f : Flight) : (s.setFlight u f).outputs = s.outputs := rfl
@[simp] theorem State.setFlight_undone (s : State) (u : Nat) (f : Flight) : (s.setFlight u f).undone = s.undone := rfl

@[simp] theorem State.modFlight_agenda (s : State) (u : Nat) (g : Flight → Flight) : (s.modFlight u g).agenda = s.agenda := rfl
@[simp] theorem State.modFlight_cur (s : State) (u : Nat) (g : Flight → Flight) : (s.modFlight u g).cur = s.cur := rfl
@[simp] theorem State.modFlight_free (s : State) (u : Nat) (g : Flight → Flight) : (s.modFlight u g).free = s.free := rfl
@[simp] theorem State.modFlight_nextId (s : State) (u : Nat) (g : Flight → Flight) : (s.modFlight u g).nextId = s.nextId := rfl
@[simp] theorem State.modFlight_stamp (s : State) (u : Nat) (g : Flight → Flight) : (s.modFlight u g).stamp = s.stamp := rfl
@[simp] theorem State.modFlight_time (s : State) (u : Nat) (g : Flight → Flight) : (s.modFlight u g).time = s.time := rfl
@[simp] theorem State.modFlight_mem (s : State) (u : Nat) (g : Flight → Flight) : (s.modFlight u g).mem = s.mem := rfl
@[simp] theorem State.modFlight_co (s : State) (u : Nat) (g : Flight → Flight) : (s.modFlight u g).co = s.co := rfl
@[simp] theorem State.modFlight_cores (s : State) (u : Nat) (g : Flight → Flight) : (s.modFlight u g).cores = s.cores := rfl
@[simp] theorem State.modFlight_clusters (s : State) (u : Nat) (g : Flight → Flight) : (s.modFlight u g).clusters = s.clusters
    := rfl
@[simp] theorem State.modFlight_dies (s : State) (u : Nat) (g : Flight → Flight) : (s.modFlight u g).dies = s.dies := rfl
@[simp] theorem State.modFlight_contexts (s : State) (u : Nat) (g : Flight → Flight) : (s.modFlight u g).contexts = s.contexts
    := rfl
@[simp] theorem State.modFlight_queues (s : State) (u : Nat) (g : Flight → Flight) : (s.modFlight u g).queues = s.queues := rfl
@[simp] theorem State.modFlight_galleries (s : State) (u : Nat) (g : Flight → Flight) :
    (s.modFlight u g).galleries = s.galleries := rfl
@[simp] theorem State.modFlight_flights (s : State) (u : Nat) (g : Flight → Flight) :
    (s.modFlight u g).flights = mmod s.flights u g := rfl
@[simp] theorem State.modFlight_windows (s : State) (u : Nat) (g : Flight → Flight) : (s.modFlight u g).windows = s.windows
    := rfl
@[simp] theorem State.modFlight_colls (s : State) (u : Nat) (g : Flight → Flight) : (s.modFlight u g).colls = s.colls := rfl
@[simp] theorem State.modFlight_bound (s : State) (u : Nat) (g : Flight → Flight) : (s.modFlight u g).bound = s.bound := rfl
@[simp] theorem State.modFlight_early (s : State) (u : Nat) (g : Flight → Flight) : (s.modFlight u g).early = s.early := rfl
@[simp] theorem State.modFlight_announced (s : State) (u : Nat) (g : Flight → Flight) :
    (s.modFlight u g).announced = s.announced := rfl
@[simp] theorem State.modFlight_ports (s : State) (u : Nat) (g : Flight → Flight) : (s.modFlight u g).ports = s.ports := rfl
@[simp] theorem State.modFlight_fabricOut (s : State) (u : Nat) (g : Flight → Flight) :
    (s.modFlight u g).fabricOut = s.fabricOut := rfl
@[simp] theorem State.modFlight_wire (s : State) (u : Nat) (g : Flight → Flight) : (s.modFlight u g).wire = s.wire := rfl
@[simp] theorem State.modFlight_unreached (s : State) (u : Nat) (g : Flight → Flight) :
    (s.modFlight u g).unreached = s.unreached := rfl
@[simp] theorem State.modFlight_qpairs (s : State) (u : Nat) (g : Flight → Flight) : (s.modFlight u g).qpairs = s.qpairs := rfl
@[simp] theorem State.modFlight_hostWins (s : State) (u : Nat) (g : Flight → Flight) : (s.modFlight u g).hostWins = s.hostWins
    := rfl
@[simp] theorem State.modFlight_invals (s : State) (u : Nat) (g : Flight → Flight) : (s.modFlight u g).invals = s.invals := rfl
@[simp] theorem State.modFlight_sessions (s : State) (u : Nat) (g : Flight → Flight) : (s.modFlight u g).sessions = s.sessions
    := rfl
@[simp] theorem State.modFlight_boot (s : State) (u : Nat) (g : Flight → Flight) : (s.modFlight u g).boot = s.boot := rfl
@[simp] theorem State.modFlight_tables (s : State) (u : Nat) (g : Flight → Flight) : (s.modFlight u g).tables = s.tables := rfl
@[simp] theorem State.modFlight_lastCluster (s : State) (u : Nat) (g : Flight → Flight) :
    (s.modFlight u g).lastCluster = s.lastCluster := rfl
@[simp] theorem State.modFlight_outputs (s : State) (u : Nat) (g : Flight → Flight) : (s.modFlight u g).outputs = s.outputs
    := rfl
@[simp] theorem State.modFlight_undone (s : State) (u : Nat) (g : Flight → Flight) : (s.modFlight u g).undone = s.undone := rfl

@[simp] theorem State.setGallery_agenda (s : State) (g : Nat) (v : Gallery) : (s.setGallery g v).agenda = s.agenda := rfl
@[simp] theorem State.setGallery_cur (s : State) (g : Nat) (v : Gallery) : (s.setGallery g v).cur = s.cur := rfl
@[simp] theorem State.setGallery_free (s : State) (g : Nat) (v : Gallery) : (s.setGallery g v).free = s.free := rfl
@[simp] theorem State.setGallery_nextId (s : State) (g : Nat) (v : Gallery) : (s.setGallery g v).nextId = s.nextId := rfl
@[simp] theorem State.setGallery_stamp (s : State) (g : Nat) (v : Gallery) : (s.setGallery g v).stamp = s.stamp := rfl
@[simp] theorem State.setGallery_time (s : State) (g : Nat) (v : Gallery) : (s.setGallery g v).time = s.time := rfl
@[simp] theorem State.setGallery_mem (s : State) (g : Nat) (v : Gallery) : (s.setGallery g v).mem = s.mem := rfl
@[simp] theorem State.setGallery_co (s : State) (g : Nat) (v : Gallery) : (s.setGallery g v).co = s.co := rfl
@[simp] theorem State.setGallery_cores (s : State) (g : Nat) (v : Gallery) : (s.setGallery g v).cores = s.cores := rfl
@[simp] theorem State.setGallery_clusters (s : State) (g : Nat) (v : Gallery) : (s.setGallery g v).clusters = s.clusters := rfl
@[simp] theorem State.setGallery_dies (s : State) (g : Nat) (v : Gallery) : (s.setGallery g v).dies = s.dies := rfl
@[simp] theorem State.setGallery_contexts (s : State) (g : Nat) (v : Gallery) : (s.setGallery g v).contexts = s.contexts := rfl
@[simp] theorem State.setGallery_queues (s : State) (g : Nat) (v : Gallery) : (s.setGallery g v).queues = s.queues := rfl
@[simp] theorem State.setGallery_galleries (s : State) (g : Nat) (v : Gallery) :
    (s.setGallery g v).galleries = mset s.galleries g v := rfl
@[simp] theorem State.setGallery_flights (s : State) (g : Nat) (v : Gallery) : (s.setGallery g v).flights = s.flights := rfl
@[simp] theorem State.setGallery_windows (s : State) (g : Nat) (v : Gallery) : (s.setGallery g v).windows = s.windows := rfl
@[simp] theorem State.setGallery_colls (s : State) (g : Nat) (v : Gallery) : (s.setGallery g v).colls = s.colls := rfl
@[simp] theorem State.setGallery_bound (s : State) (g : Nat) (v : Gallery) : (s.setGallery g v).bound = s.bound := rfl
@[simp] theorem State.setGallery_early (s : State) (g : Nat) (v : Gallery) : (s.setGallery g v).early = s.early := rfl
@[simp] theorem State.setGallery_announced (s : State) (g : Nat) (v : Gallery) : (s.setGallery g v).announced = s.announced
    := rfl
@[simp] theorem State.setGallery_ports (s : State) (g : Nat) (v : Gallery) : (s.setGallery g v).ports = s.ports := rfl
@[simp] theorem State.setGallery_fabricOut (s : State) (g : Nat) (v : Gallery) : (s.setGallery g v).fabricOut = s.fabricOut
    := rfl
@[simp] theorem State.setGallery_wire (s : State) (g : Nat) (v : Gallery) : (s.setGallery g v).wire = s.wire := rfl
@[simp] theorem State.setGallery_unreached (s : State) (g : Nat) (v : Gallery) : (s.setGallery g v).unreached = s.unreached
    := rfl
@[simp] theorem State.setGallery_qpairs (s : State) (g : Nat) (v : Gallery) : (s.setGallery g v).qpairs = s.qpairs := rfl
@[simp] theorem State.setGallery_hostWins (s : State) (g : Nat) (v : Gallery) : (s.setGallery g v).hostWins = s.hostWins := rfl
@[simp] theorem State.setGallery_invals (s : State) (g : Nat) (v : Gallery) : (s.setGallery g v).invals = s.invals := rfl
@[simp] theorem State.setGallery_sessions (s : State) (g : Nat) (v : Gallery) : (s.setGallery g v).sessions = s.sessions := rfl
@[simp] theorem State.setGallery_boot (s : State) (g : Nat) (v : Gallery) : (s.setGallery g v).boot = s.boot := rfl
@[simp] theorem State.setGallery_tables (s : State) (g : Nat) (v : Gallery) : (s.setGallery g v).tables = s.tables := rfl
@[simp] theorem State.setGallery_lastCluster (s : State) (g : Nat) (v : Gallery) :
    (s.setGallery g v).lastCluster = s.lastCluster := rfl
@[simp] theorem State.setGallery_outputs (s : State) (g : Nat) (v : Gallery) : (s.setGallery g v).outputs = s.outputs := rfl
@[simp] theorem State.setGallery_undone (s : State) (g : Nat) (v : Gallery) : (s.setGallery g v).undone = s.undone := rfl

@[simp] theorem State.setWindow_agenda (s : State) (w : Nat) (v : Window) : (s.setWindow w v).agenda = s.agenda := rfl
@[simp] theorem State.setWindow_cur (s : State) (w : Nat) (v : Window) : (s.setWindow w v).cur = s.cur := rfl
@[simp] theorem State.setWindow_free (s : State) (w : Nat) (v : Window) : (s.setWindow w v).free = s.free := rfl
@[simp] theorem State.setWindow_nextId (s : State) (w : Nat) (v : Window) : (s.setWindow w v).nextId = s.nextId := rfl
@[simp] theorem State.setWindow_stamp (s : State) (w : Nat) (v : Window) : (s.setWindow w v).stamp = s.stamp := rfl
@[simp] theorem State.setWindow_time (s : State) (w : Nat) (v : Window) : (s.setWindow w v).time = s.time := rfl
@[simp] theorem State.setWindow_mem (s : State) (w : Nat) (v : Window) : (s.setWindow w v).mem = s.mem := rfl
@[simp] theorem State.setWindow_co (s : State) (w : Nat) (v : Window) : (s.setWindow w v).co = s.co := rfl
@[simp] theorem State.setWindow_cores (s : State) (w : Nat) (v : Window) : (s.setWindow w v).cores = s.cores := rfl
@[simp] theorem State.setWindow_clusters (s : State) (w : Nat) (v : Window) : (s.setWindow w v).clusters = s.clusters := rfl
@[simp] theorem State.setWindow_dies (s : State) (w : Nat) (v : Window) : (s.setWindow w v).dies = s.dies := rfl
@[simp] theorem State.setWindow_contexts (s : State) (w : Nat) (v : Window) : (s.setWindow w v).contexts = s.contexts := rfl
@[simp] theorem State.setWindow_queues (s : State) (w : Nat) (v : Window) : (s.setWindow w v).queues = s.queues := rfl
@[simp] theorem State.setWindow_galleries (s : State) (w : Nat) (v : Window) : (s.setWindow w v).galleries = s.galleries := rfl
@[simp] theorem State.setWindow_flights (s : State) (w : Nat) (v : Window) : (s.setWindow w v).flights = s.flights := rfl
@[simp] theorem State.setWindow_windows (s : State) (w : Nat) (v : Window) : (s.setWindow w v).windows = mset s.windows w v
    := rfl
@[simp] theorem State.setWindow_colls (s : State) (w : Nat) (v : Window) : (s.setWindow w v).colls = s.colls := rfl
@[simp] theorem State.setWindow_bound (s : State) (w : Nat) (v : Window) : (s.setWindow w v).bound = s.bound := rfl
@[simp] theorem State.setWindow_early (s : State) (w : Nat) (v : Window) : (s.setWindow w v).early = s.early := rfl
@[simp] theorem State.setWindow_announced (s : State) (w : Nat) (v : Window) : (s.setWindow w v).announced = s.announced := rfl
@[simp] theorem State.setWindow_ports (s : State) (w : Nat) (v : Window) : (s.setWindow w v).ports = s.ports := rfl
@[simp] theorem State.setWindow_fabricOut (s : State) (w : Nat) (v : Window) : (s.setWindow w v).fabricOut = s.fabricOut := rfl
@[simp] theorem State.setWindow_wire (s : State) (w : Nat) (v : Window) : (s.setWindow w v).wire = s.wire := rfl
@[simp] theorem State.setWindow_unreached (s : State) (w : Nat) (v : Window) : (s.setWindow w v).unreached = s.unreached := rfl
@[simp] theorem State.setWindow_qpairs (s : State) (w : Nat) (v : Window) : (s.setWindow w v).qpairs = s.qpairs := rfl
@[simp] theorem State.setWindow_hostWins (s : State) (w : Nat) (v : Window) : (s.setWindow w v).hostWins = s.hostWins := rfl
@[simp] theorem State.setWindow_invals (s : State) (w : Nat) (v : Window) : (s.setWindow w v).invals = s.invals := rfl
@[simp] theorem State.setWindow_sessions (s : State) (w : Nat) (v : Window) : (s.setWindow w v).sessions = s.sessions := rfl
@[simp] theorem State.setWindow_boot (s : State) (w : Nat) (v : Window) : (s.setWindow w v).boot = s.boot := rfl
@[simp] theorem State.setWindow_tables (s : State) (w : Nat) (v : Window) : (s.setWindow w v).tables = s.tables := rfl
@[simp] theorem State.setWindow_lastCluster (s : State) (w : Nat) (v : Window) : (s.setWindow w v).lastCluster = s.lastCluster
    := rfl
@[simp] theorem State.setWindow_outputs (s : State) (w : Nat) (v : Window) : (s.setWindow w v).outputs = s.outputs := rfl
@[simp] theorem State.setWindow_undone (s : State) (w : Nat) (v : Window) : (s.setWindow w v).undone = s.undone := rfl

@[simp] theorem State.setQuarter_agenda (s : State) (c q : Nat) (v : Quarter) : (s.setQuarter c q v).agenda = s.agenda := rfl
@[simp] theorem State.setQuarter_cur (s : State) (c q : Nat) (v : Quarter) : (s.setQuarter c q v).cur = s.cur := rfl
@[simp] theorem State.setQuarter_free (s : State) (c q : Nat) (v : Quarter) : (s.setQuarter c q v).free = s.free := rfl
@[simp] theorem State.setQuarter_nextId (s : State) (c q : Nat) (v : Quarter) : (s.setQuarter c q v).nextId = s.nextId := rfl
@[simp] theorem State.setQuarter_stamp (s : State) (c q : Nat) (v : Quarter) : (s.setQuarter c q v).stamp = s.stamp := rfl
@[simp] theorem State.setQuarter_time (s : State) (c q : Nat) (v : Quarter) : (s.setQuarter c q v).time = s.time := rfl
@[simp] theorem State.setQuarter_mem (s : State) (c q : Nat) (v : Quarter) : (s.setQuarter c q v).mem = s.mem := rfl
@[simp] theorem State.setQuarter_co (s : State) (c q : Nat) (v : Quarter) : (s.setQuarter c q v).co = s.co := rfl
@[simp] theorem State.setQuarter_cores (s : State) (c q : Nat) (v : Quarter) :
    (s.setQuarter c q v).cores = mset s.cores c { s.core c with quarters := mset (s.core c).quarters q v } := rfl
@[simp] theorem State.setQuarter_clusters (s : State) (c q : Nat) (v : Quarter) : (s.setQuarter c q v).clusters = s.clusters
    := rfl
@[simp] theorem State.setQuarter_dies (s : State) (c q : Nat) (v : Quarter) : (s.setQuarter c q v).dies = s.dies := rfl
@[simp] theorem State.setQuarter_contexts (s : State) (c q : Nat) (v : Quarter) : (s.setQuarter c q v).contexts = s.contexts
    := rfl
@[simp] theorem State.setQuarter_queues (s : State) (c q : Nat) (v : Quarter) : (s.setQuarter c q v).queues = s.queues := rfl
@[simp] theorem State.setQuarter_galleries (s : State) (c q : Nat) (v : Quarter) : (s.setQuarter c q v).galleries = s.galleries
    := rfl
@[simp] theorem State.setQuarter_flights (s : State) (c q : Nat) (v : Quarter) : (s.setQuarter c q v).flights = s.flights := rfl
@[simp] theorem State.setQuarter_windows (s : State) (c q : Nat) (v : Quarter) : (s.setQuarter c q v).windows = s.windows := rfl
@[simp] theorem State.setQuarter_colls (s : State) (c q : Nat) (v : Quarter) : (s.setQuarter c q v).colls = s.colls := rfl
@[simp] theorem State.setQuarter_bound (s : State) (c q : Nat) (v : Quarter) : (s.setQuarter c q v).bound = s.bound := rfl
@[simp] theorem State.setQuarter_early (s : State) (c q : Nat) (v : Quarter) : (s.setQuarter c q v).early = s.early := rfl
@[simp] theorem State.setQuarter_announced (s : State) (c q : Nat) (v : Quarter) : (s.setQuarter c q v).announced = s.announced
    := rfl
@[simp] theorem State.setQuarter_ports (s : State) (c q : Nat) (v : Quarter) : (s.setQuarter c q v).ports = s.ports := rfl
@[simp] theorem State.setQuarter_fabricOut (s : State) (c q : Nat) (v : Quarter) : (s.setQuarter c q v).fabricOut = s.fabricOut
    := rfl
@[simp] theorem State.setQuarter_wire (s : State) (c q : Nat) (v : Quarter) : (s.setQuarter c q v).wire = s.wire := rfl
@[simp] theorem State.setQuarter_unreached (s : State) (c q : Nat) (v : Quarter) : (s.setQuarter c q v).unreached = s.unreached
    := rfl
@[simp] theorem State.setQuarter_qpairs (s : State) (c q : Nat) (v : Quarter) : (s.setQuarter c q v).qpairs = s.qpairs := rfl
@[simp] theorem State.setQuarter_hostWins (s : State) (c q : Nat) (v : Quarter) : (s.setQuarter c q v).hostWins = s.hostWins
    := rfl
@[simp] theorem State.setQuarter_invals (s : State) (c q : Nat) (v : Quarter) : (s.setQuarter c q v).invals = s.invals := rfl
@[simp] theorem State.setQuarter_sessions (s : State) (c q : Nat) (v : Quarter) : (s.setQuarter c q v).sessions = s.sessions
    := rfl
@[simp] theorem State.setQuarter_boot (s : State) (c q : Nat) (v : Quarter) : (s.setQuarter c q v).boot = s.boot := rfl
@[simp] theorem State.setQuarter_tables (s : State) (c q : Nat) (v : Quarter) : (s.setQuarter c q v).tables = s.tables := rfl
@[simp] theorem State.setQuarter_lastCluster (s : State) (c q : Nat) (v : Quarter) :
    (s.setQuarter c q v).lastCluster = s.lastCluster := rfl
@[simp] theorem State.setQuarter_outputs (s : State) (c q : Nat) (v : Quarter) : (s.setQuarter c q v).outputs = s.outputs := rfl
@[simp] theorem State.setQuarter_undone (s : State) (c q : Nat) (v : Quarter) : (s.setQuarter c q v).undone = s.undone := rfl

@[simp] theorem State.setSession_agenda (s : State) (q : Nat) (z : Session) : (s.setSession q z).agenda = s.agenda := rfl
@[simp] theorem State.setSession_cur (s : State) (q : Nat) (z : Session) : (s.setSession q z).cur = s.cur := rfl
@[simp] theorem State.setSession_free (s : State) (q : Nat) (z : Session) : (s.setSession q z).free = s.free := rfl
@[simp] theorem State.setSession_nextId (s : State) (q : Nat) (z : Session) : (s.setSession q z).nextId = s.nextId := rfl
@[simp] theorem State.setSession_stamp (s : State) (q : Nat) (z : Session) : (s.setSession q z).stamp = s.stamp := rfl
@[simp] theorem State.setSession_time (s : State) (q : Nat) (z : Session) : (s.setSession q z).time = s.time := rfl
@[simp] theorem State.setSession_mem (s : State) (q : Nat) (z : Session) : (s.setSession q z).mem = s.mem := rfl
@[simp] theorem State.setSession_co (s : State) (q : Nat) (z : Session) : (s.setSession q z).co = s.co := rfl
@[simp] theorem State.setSession_cores (s : State) (q : Nat) (z : Session) : (s.setSession q z).cores = s.cores := rfl
@[simp] theorem State.setSession_clusters (s : State) (q : Nat) (z : Session) : (s.setSession q z).clusters = s.clusters := rfl
@[simp] theorem State.setSession_dies (s : State) (q : Nat) (z : Session) : (s.setSession q z).dies = s.dies := rfl
@[simp] theorem State.setSession_contexts (s : State) (q : Nat) (z : Session) : (s.setSession q z).contexts = s.contexts := rfl
@[simp] theorem State.setSession_queues (s : State) (q : Nat) (z : Session) : (s.setSession q z).queues = s.queues := rfl
@[simp] theorem State.setSession_galleries (s : State) (q : Nat) (z : Session) : (s.setSession q z).galleries = s.galleries
    := rfl
@[simp] theorem State.setSession_flights (s : State) (q : Nat) (z : Session) : (s.setSession q z).flights = s.flights := rfl
@[simp] theorem State.setSession_windows (s : State) (q : Nat) (z : Session) : (s.setSession q z).windows = s.windows := rfl
@[simp] theorem State.setSession_colls (s : State) (q : Nat) (z : Session) : (s.setSession q z).colls = s.colls := rfl
@[simp] theorem State.setSession_bound (s : State) (q : Nat) (z : Session) : (s.setSession q z).bound = s.bound := rfl
@[simp] theorem State.setSession_early (s : State) (q : Nat) (z : Session) : (s.setSession q z).early = s.early := rfl
@[simp] theorem State.setSession_announced (s : State) (q : Nat) (z : Session) : (s.setSession q z).announced = s.announced
    := rfl
@[simp] theorem State.setSession_ports (s : State) (q : Nat) (z : Session) : (s.setSession q z).ports = s.ports := rfl
@[simp] theorem State.setSession_fabricOut (s : State) (q : Nat) (z : Session) : (s.setSession q z).fabricOut = s.fabricOut
    := rfl
@[simp] theorem State.setSession_wire (s : State) (q : Nat) (z : Session) : (s.setSession q z).wire = s.wire := rfl
@[simp] theorem State.setSession_unreached (s : State) (q : Nat) (z : Session) : (s.setSession q z).unreached = s.unreached
    := rfl
@[simp] theorem State.setSession_qpairs (s : State) (q : Nat) (z : Session) : (s.setSession q z).qpairs = s.qpairs := rfl
@[simp] theorem State.setSession_hostWins (s : State) (q : Nat) (z : Session) : (s.setSession q z).hostWins = s.hostWins := rfl
@[simp] theorem State.setSession_invals (s : State) (q : Nat) (z : Session) : (s.setSession q z).invals = s.invals := rfl
@[simp] theorem State.setSession_sessions (s : State) (q : Nat) (z : Session) :
    (s.setSession q z).sessions = mset s.sessions q z := rfl
@[simp] theorem State.setSession_boot (s : State) (q : Nat) (z : Session) : (s.setSession q z).boot = s.boot := rfl
@[simp] theorem State.setSession_tables (s : State) (q : Nat) (z : Session) : (s.setSession q z).tables = s.tables := rfl
@[simp] theorem State.setSession_lastCluster (s : State) (q : Nat) (z : Session) :
    (s.setSession q z).lastCluster = s.lastCluster := rfl
@[simp] theorem State.setSession_outputs (s : State) (q : Nat) (z : Session) : (s.setSession q z).outputs = s.outputs := rfl
@[simp] theorem State.setSession_undone (s : State) (q : Nat) (z : Session) : (s.setSession q z).undone = s.undone := rfl

@[simp] theorem State.emit_agenda (s : State) (o : Out) : (s.emit o).agenda = s.agenda := rfl
@[simp] theorem State.emit_cur (s : State) (o : Out) : (s.emit o).cur = s.cur := rfl
@[simp] theorem State.emit_free (s : State) (o : Out) : (s.emit o).free = s.free := rfl
@[simp] theorem State.emit_nextId (s : State) (o : Out) : (s.emit o).nextId = s.nextId := rfl
@[simp] theorem State.emit_stamp (s : State) (o : Out) : (s.emit o).stamp = s.stamp := rfl
@[simp] theorem State.emit_time (s : State) (o : Out) : (s.emit o).time = s.time := rfl
@[simp] theorem State.emit_mem (s : State) (o : Out) : (s.emit o).mem = s.mem := rfl
@[simp] theorem State.emit_co (s : State) (o : Out) : (s.emit o).co = s.co := rfl
@[simp] theorem State.emit_cores (s : State) (o : Out) : (s.emit o).cores = s.cores := rfl
@[simp] theorem State.emit_clusters (s : State) (o : Out) : (s.emit o).clusters = s.clusters := rfl
@[simp] theorem State.emit_dies (s : State) (o : Out) : (s.emit o).dies = s.dies := rfl
@[simp] theorem State.emit_contexts (s : State) (o : Out) : (s.emit o).contexts = s.contexts := rfl
@[simp] theorem State.emit_queues (s : State) (o : Out) : (s.emit o).queues = s.queues := rfl
@[simp] theorem State.emit_galleries (s : State) (o : Out) : (s.emit o).galleries = s.galleries := rfl
@[simp] theorem State.emit_flights (s : State) (o : Out) : (s.emit o).flights = s.flights := rfl
@[simp] theorem State.emit_windows (s : State) (o : Out) : (s.emit o).windows = s.windows := rfl
@[simp] theorem State.emit_colls (s : State) (o : Out) : (s.emit o).colls = s.colls := rfl
@[simp] theorem State.emit_bound (s : State) (o : Out) : (s.emit o).bound = s.bound := rfl
@[simp] theorem State.emit_early (s : State) (o : Out) : (s.emit o).early = s.early := rfl
@[simp] theorem State.emit_announced (s : State) (o : Out) : (s.emit o).announced = s.announced := rfl
@[simp] theorem State.emit_ports (s : State) (o : Out) : (s.emit o).ports = s.ports := rfl
@[simp] theorem State.emit_fabricOut (s : State) (o : Out) : (s.emit o).fabricOut = s.fabricOut := rfl
@[simp] theorem State.emit_wire (s : State) (o : Out) : (s.emit o).wire = s.wire := rfl
@[simp] theorem State.emit_unreached (s : State) (o : Out) : (s.emit o).unreached = s.unreached := rfl
@[simp] theorem State.emit_qpairs (s : State) (o : Out) : (s.emit o).qpairs = s.qpairs := rfl
@[simp] theorem State.emit_hostWins (s : State) (o : Out) : (s.emit o).hostWins = s.hostWins := rfl
@[simp] theorem State.emit_invals (s : State) (o : Out) : (s.emit o).invals = s.invals := rfl
@[simp] theorem State.emit_sessions (s : State) (o : Out) : (s.emit o).sessions = s.sessions := rfl
@[simp] theorem State.emit_boot (s : State) (o : Out) : (s.emit o).boot = s.boot := rfl
@[simp] theorem State.emit_tables (s : State) (o : Out) : (s.emit o).tables = s.tables := rfl
@[simp] theorem State.emit_lastCluster (s : State) (o : Out) : (s.emit o).lastCluster = s.lastCluster := rfl
@[simp] theorem State.emit_outputs (s : State) (o : Out) : (s.emit o).outputs = o :: s.outputs := rfl
@[simp] theorem State.emit_undone (s : State) (o : Out) : (s.emit o).undone = s.undone := rfl

@[simp] theorem State.wake_agenda (s : State) : (s.wake).agenda = s.agenda := rfl
@[simp] theorem State.wake_cur (s : State) : (s.wake).cur = s.cur := rfl
@[simp] theorem State.wake_free (s : State) : (s.wake).free = s.free := rfl
@[simp] theorem State.wake_nextId (s : State) : (s.wake).nextId = s.nextId := rfl
@[simp] theorem State.wake_stamp (s : State) : (s.wake).stamp = s.stamp := rfl
@[simp] theorem State.wake_time (s : State) : (s.wake).time = s.time := rfl
@[simp] theorem State.wake_mem (s : State) : (s.wake).mem = s.mem := rfl
@[simp] theorem State.wake_co (s : State) : (s.wake).co = s.co := rfl
@[simp] theorem State.wake_cores (s : State) : (s.wake).cores = s.cores := rfl
@[simp] theorem State.wake_clusters (s : State) : (s.wake).clusters = s.clusters := rfl
@[simp] theorem State.wake_dies (s : State) : (s.wake).dies = s.dies := rfl
@[simp] theorem State.wake_contexts (s : State) : (s.wake).contexts = s.contexts := rfl
@[simp] theorem State.wake_queues (s : State) : (s.wake).queues = s.queues := rfl
@[simp] theorem State.wake_galleries (s : State) : (s.wake).galleries = s.galleries := rfl
@[simp] theorem State.wake_flights (s : State) : (s.wake).flights = mmapv (fun f => { f with stall := none }) s.flights := rfl
@[simp] theorem State.wake_windows (s : State) : (s.wake).windows = s.windows := rfl
@[simp] theorem State.wake_colls (s : State) : (s.wake).colls = s.colls := rfl
@[simp] theorem State.wake_bound (s : State) : (s.wake).bound = s.bound := rfl
@[simp] theorem State.wake_early (s : State) : (s.wake).early = s.early := rfl
@[simp] theorem State.wake_announced (s : State) : (s.wake).announced = s.announced := rfl
@[simp] theorem State.wake_ports (s : State) : (s.wake).ports = s.ports := rfl
@[simp] theorem State.wake_fabricOut (s : State) : (s.wake).fabricOut = s.fabricOut := rfl
@[simp] theorem State.wake_wire (s : State) : (s.wake).wire = s.wire := rfl
@[simp] theorem State.wake_unreached (s : State) : (s.wake).unreached = s.unreached := rfl
@[simp] theorem State.wake_qpairs (s : State) : (s.wake).qpairs = s.qpairs := rfl
@[simp] theorem State.wake_hostWins (s : State) : (s.wake).hostWins = s.hostWins := rfl
@[simp] theorem State.wake_invals (s : State) : (s.wake).invals = s.invals := rfl
@[simp] theorem State.wake_sessions (s : State) : (s.wake).sessions = s.sessions := rfl
@[simp] theorem State.wake_boot (s : State) : (s.wake).boot = s.boot := rfl
@[simp] theorem State.wake_tables (s : State) : (s.wake).tables = s.tables := rfl
@[simp] theorem State.wake_lastCluster (s : State) : (s.wake).lastCluster = s.lastCluster := rfl
@[simp] theorem State.wake_outputs (s : State) : (s.wake).outputs = s.outputs := rfl
@[simp] theorem State.wake_undone (s : State) : (s.wake).undone = s.undone := rfl

/-! ## Updates of a flight -/

@[simp] theorem Flight.setThread_context (f : Flight) (i : Nat) (t : Thread) : (f.setThread i t).context = f.context := rfl
@[simp] theorem Flight.setThread_gallery (f : Flight) (i : Nat) (t : Thread) : (f.setThread i t).gallery = f.gallery := rfl
@[simp] theorem Flight.setThread_hall (f : Flight) (i : Nat) (t : Thread) : (f.setThread i t).hall = f.hall := rfl
@[simp] theorem Flight.setThread_index (f : Flight) (i : Nat) (t : Thread) : (f.setThread i t).index = f.index := rfl
@[simp] theorem Flight.setThread_task (f : Flight) (i : Nat) (t : Thread) : (f.setThread i t).task = f.task := rfl
@[simp] theorem Flight.setThread_core (f : Flight) (i : Nat) (t : Thread) : (f.setThread i t).core = f.core := rfl
@[simp] theorem Flight.setThread_quarter (f : Flight) (i : Nat) (t : Thread) : (f.setThread i t).quarter = f.quarter := rfl
@[simp] theorem Flight.setThread_slot (f : Flight) (i : Nat) (t : Thread) : (f.setThread i t).slot = f.slot := rfl
@[simp] theorem Flight.setThread_age (f : Flight) (i : Nat) (t : Thread) : (f.setThread i t).age = f.age := rfl
@[simp] theorem Flight.setThread_lane (f : Flight) (i : Nat) (t : Thread) : (f.setThread i t).lane = f.lane := rfl
@[simp] theorem Flight.setThread_narrow (f : Flight) (i : Nat) (t : Thread) : (f.setThread i t).narrow = f.narrow := rfl
@[simp] theorem Flight.setThread_level (f : Flight) (i : Nat) (t : Thread) : (f.setThread i t).level = f.level := rfl
@[simp] theorem Flight.setThread_threads (f : Flight) (i : Nat) (t : Thread) :
    (f.setThread i t).threads = mset f.threads i t := rfl
@[simp] theorem Flight.setThread_regs (f : Flight) (i : Nat) (t : Thread) : (f.setThread i t).regs = f.regs := rfl
@[simp] theorem Flight.setThread_sb (f : Flight) (i : Nat) (t : Thread) : (f.setThread i t).sb = f.sb := rfl
@[simp] theorem Flight.setThread_flags (f : Flight) (i : Nat) (t : Thread) : (f.setThread i t).flags = f.flags := rfl
@[simp] theorem Flight.setThread_window (f : Flight) (i : Nat) (t : Thread) : (f.setThread i t).window = f.window := rfl
@[simp] theorem Flight.setThread_ctl (f : Flight) (i : Nat) (t : Thread) : (f.setThread i t).ctl = f.ctl := rfl
@[simp] theorem Flight.setThread_fairC (f : Flight) (i : Nat) (t : Thread) : (f.setThread i t).fairC = f.fairC := rfl
@[simp] theorem Flight.setThread_turn (f : Flight) (i : Nat) (t : Thread) : (f.setThread i t).turn = f.turn := rfl
@[simp] theorem Flight.setThread_turnBase (f : Flight) (i : Nat) (t : Thread) : (f.setThread i t).turnBase = f.turnBase := rfl
@[simp] theorem Flight.setThread_fairDue (f : Flight) (i : Nat) (t : Thread) : (f.setThread i t).fairDue = f.fairDue := rfl
@[simp] theorem Flight.setThread_clause (f : Flight) (i : Nat) (t : Thread) : (f.setThread i t).clause = f.clause := rfl
@[simp] theorem Flight.setThread_body (f : Flight) (i : Nat) (t : Thread) : (f.setThread i t).body = f.body := rfl
@[simp] theorem Flight.setThread_stall (f : Flight) (i : Nat) (t : Thread) : (f.setThread i t).stall = f.stall := rfl
@[simp] theorem Flight.setThread_frozen (f : Flight) (i : Nat) (t : Thread) : (f.setThread i t).frozen = f.frozen := rfl
@[simp] theorem Flight.setThread_debugFrozen (f : Flight) (i : Nat) (t : Thread) :
    (f.setThread i t).debugFrozen = f.debugFrozen := rfl
@[simp] theorem Flight.setThread_bpSkip (f : Flight) (i : Nat) (t : Thread) : (f.setThread i t).bpSkip = f.bpSkip := rfl
@[simp] theorem Flight.setThread_slip (f : Flight) (i : Nat) (t : Thread) : (f.setThread i t).slip = f.slip := rfl
@[simp] theorem Flight.setThread_yieldEnd (f : Flight) (i : Nat) (t : Thread) : (f.setThread i t).yieldEnd = f.yieldEnd := rfl
@[simp] theorem Flight.setThread_pollHold (f : Flight) (i : Nat) (t : Thread) : (f.setThread i t).pollHold = f.pollHold := rfl
@[simp] theorem Flight.setThread_pollsOut (f : Flight) (i : Nat) (t : Thread) : (f.setThread i t).pollsOut = f.pollsOut := rfl
@[simp] theorem Flight.setThread_planes (f : Flight) (i : Nat) (t : Thread) : (f.setThread i t).planes = f.planes := rfl
@[simp] theorem Flight.setThread_wantPlanes (f : Flight) (i : Nat) (t : Thread) :
    (f.setThread i t).wantPlanes = f.wantPlanes := rfl
@[simp] theorem Flight.setThread_entries (f : Flight) (i : Nat) (t : Thread) : (f.setThread i t).entries = f.entries := rfl
@[simp] theorem Flight.setThread_late (f : Flight) (i : Nat) (t : Thread) : (f.setThread i t).late = f.late := rfl
@[simp] theorem Flight.setThread_typical (f : Flight) (i : Nat) (t : Thread) : (f.setThread i t).typical = f.typical := rfl
@[simp] theorem Flight.setThread_peak (f : Flight) (i : Nat) (t : Thread) : (f.setThread i t).peak = f.peak := rfl
@[simp] theorem Flight.setThread_pyield (f : Flight) (i : Nat) (t : Thread) : (f.setThread i t).pyield = f.pyield := rfl
@[simp] theorem Flight.setThread_waiting (f : Flight) (i : Nat) (t : Thread) : (f.setThread i t).waiting = f.waiting := rfl
@[simp] theorem Flight.setThread_overdue (f : Flight) (i : Nat) (t : Thread) : (f.setThread i t).overdue = f.overdue := rfl
@[simp] theorem Flight.setThread_score (f : Flight) (i : Nat) (t : Thread) : (f.setThread i t).score = f.score := rfl
@[simp] theorem Flight.setThread_sig (f : Flight) (i : Nat) (t : Thread) : (f.setThread i t).sig = f.sig := rfl
@[simp] theorem Flight.setThread_sigq (f : Flight) (i : Nat) (t : Thread) : (f.setThread i t).sigq = f.sigq := rfl
@[simp] theorem Flight.setThread_seed (f : Flight) (i : Nat) (t : Thread) : (f.setThread i t).seed = f.seed := rfl
@[simp] theorem Flight.setThread_win (f : Flight) (i : Nat) (t : Thread) : (f.setThread i t).win = f.win := rfl
@[simp] theorem Flight.setThread_winSize (f : Flight) (i : Nat) (t : Thread) : (f.setThread i t).winSize = f.winSize := rfl
@[simp] theorem Flight.setThread_started (f : Flight) (i : Nat) (t : Thread) : (f.setThread i t).started = f.started := rfl
@[simp] theorem Flight.setThread_pubWait (f : Flight) (i : Nat) (t : Thread) : (f.setThread i t).pubWait = f.pubWait := rfl
@[simp] theorem Flight.setThread_owed (f : Flight) (i : Nat) (t : Thread) : (f.setThread i t).owed = f.owed := rfl
@[simp] theorem Flight.setThread_wrote (f : Flight) (i : Nat) (t : Thread) : (f.setThread i t).wrote = f.wrote := rfl
@[simp] theorem Flight.setThread_waitFrom (f : Flight) (i : Nat) (t : Thread) : (f.setThread i t).waitFrom = f.waitFrom := rfl
@[simp] theorem Flight.setThread_waitHeld (f : Flight) (i : Nat) (t : Thread) : (f.setThread i t).waitHeld = f.waitHeld := rfl
@[simp] theorem Flight.setThread_lowered (f : Flight) (i : Nat) (t : Thread) : (f.setThread i t).lowered = f.lowered := rfl
@[simp] theorem Flight.setThread_leaving (f : Flight) (i : Nat) (t : Thread) : (f.setThread i t).leaving = f.leaving := rfl
@[simp] theorem Flight.setThread_opEnd (f : Flight) (i : Nat) (t : Thread) : (f.setThread i t).opEnd = f.opEnd := rfl

@[simp] theorem Flight.modThread_context (f : Flight) (i : Nat) (g : Thread → Thread) :
    (f.modThread i g).context = f.context := rfl
@[simp] theorem Flight.modThread_gallery (f : Flight) (i : Nat) (g : Thread → Thread) :
    (f.modThread i g).gallery = f.gallery := rfl
@[simp] theorem Flight.modThread_hall (f : Flight) (i : Nat) (g : Thread → Thread) : (f.modThread i g).hall = f.hall := rfl
@[simp] theorem Flight.modThread_index (f : Flight) (i : Nat) (g : Thread → Thread) : (f.modThread i g).index = f.index := rfl
@[simp] theorem Flight.modThread_task (f : Flight) (i : Nat) (g : Thread → Thread) : (f.modThread i g).task = f.task := rfl
@[simp] theorem Flight.modThread_core (f : Flight) (i : Nat) (g : Thread → Thread) : (f.modThread i g).core = f.core := rfl
@[simp] theorem Flight.modThread_quarter (f : Flight) (i : Nat) (g : Thread → Thread) :
    (f.modThread i g).quarter = f.quarter := rfl
@[simp] theorem Flight.modThread_slot (f : Flight) (i : Nat) (g : Thread → Thread) : (f.modThread i g).slot = f.slot := rfl
@[simp] theorem Flight.modThread_age (f : Flight) (i : Nat) (g : Thread → Thread) : (f.modThread i g).age = f.age := rfl
@[simp] theorem Flight.modThread_lane (f : Flight) (i : Nat) (g : Thread → Thread) : (f.modThread i g).lane = f.lane := rfl
@[simp] theorem Flight.modThread_narrow (f : Flight) (i : Nat) (g : Thread → Thread) :
    (f.modThread i g).narrow = f.narrow := rfl
@[simp] theorem Flight.modThread_level (f : Flight) (i : Nat) (g : Thread → Thread) : (f.modThread i g).level = f.level := rfl
@[simp] theorem Flight.modThread_threads (f : Flight) (i : Nat) (g : Thread → Thread) :
    (f.modThread i g).threads = mmod f.threads i g := rfl
@[simp] theorem Flight.modThread_regs (f : Flight) (i : Nat) (g : Thread → Thread) : (f.modThread i g).regs = f.regs := rfl
@[simp] theorem Flight.modThread_sb (f : Flight) (i : Nat) (g : Thread → Thread) : (f.modThread i g).sb = f.sb := rfl
@[simp] theorem Flight.modThread_flags (f : Flight) (i : Nat) (g : Thread → Thread) : (f.modThread i g).flags = f.flags := rfl
@[simp] theorem Flight.modThread_window (f : Flight) (i : Nat) (g : Thread → Thread) :
    (f.modThread i g).window = f.window := rfl
@[simp] theorem Flight.modThread_ctl (f : Flight) (i : Nat) (g : Thread → Thread) : (f.modThread i g).ctl = f.ctl := rfl
@[simp] theorem Flight.modThread_fairC (f : Flight) (i : Nat) (g : Thread → Thread) : (f.modThread i g).fairC = f.fairC := rfl
@[simp] theorem Flight.modThread_turn (f : Flight) (i : Nat) (g : Thread → Thread) : (f.modThread i g).turn = f.turn := rfl
@[simp] theorem Flight.modThread_turnBase (f : Flight) (i : Nat) (g : Thread → Thread) :
    (f.modThread i g).turnBase = f.turnBase := rfl
@[simp] theorem Flight.modThread_fairDue (f : Flight) (i : Nat) (g : Thread → Thread) :
    (f.modThread i g).fairDue = f.fairDue := rfl
@[simp] theorem Flight.modThread_clause (f : Flight) (i : Nat) (g : Thread → Thread) :
    (f.modThread i g).clause = f.clause := rfl
@[simp] theorem Flight.modThread_body (f : Flight) (i : Nat) (g : Thread → Thread) : (f.modThread i g).body = f.body := rfl
@[simp] theorem Flight.modThread_stall (f : Flight) (i : Nat) (g : Thread → Thread) : (f.modThread i g).stall = f.stall := rfl
@[simp] theorem Flight.modThread_frozen (f : Flight) (i : Nat) (g : Thread → Thread) :
    (f.modThread i g).frozen = f.frozen := rfl
@[simp] theorem Flight.modThread_debugFrozen (f : Flight) (i : Nat) (g : Thread → Thread) :
    (f.modThread i g).debugFrozen = f.debugFrozen := rfl
@[simp] theorem Flight.modThread_bpSkip (f : Flight) (i : Nat) (g : Thread → Thread) :
    (f.modThread i g).bpSkip = f.bpSkip := rfl
@[simp] theorem Flight.modThread_slip (f : Flight) (i : Nat) (g : Thread → Thread) : (f.modThread i g).slip = f.slip := rfl
@[simp] theorem Flight.modThread_yieldEnd (f : Flight) (i : Nat) (g : Thread → Thread) :
    (f.modThread i g).yieldEnd = f.yieldEnd := rfl
@[simp] theorem Flight.modThread_pollHold (f : Flight) (i : Nat) (g : Thread → Thread) :
    (f.modThread i g).pollHold = f.pollHold := rfl
@[simp] theorem Flight.modThread_pollsOut (f : Flight) (i : Nat) (g : Thread → Thread) :
    (f.modThread i g).pollsOut = f.pollsOut := rfl
@[simp] theorem Flight.modThread_planes (f : Flight) (i : Nat) (g : Thread → Thread) :
    (f.modThread i g).planes = f.planes := rfl
@[simp] theorem Flight.modThread_wantPlanes (f : Flight) (i : Nat) (g : Thread → Thread) :
    (f.modThread i g).wantPlanes = f.wantPlanes := rfl
@[simp] theorem Flight.modThread_entries (f : Flight) (i : Nat) (g : Thread → Thread) :
    (f.modThread i g).entries = f.entries := rfl
@[simp] theorem Flight.modThread_late (f : Flight) (i : Nat) (g : Thread → Thread) : (f.modThread i g).late = f.late := rfl
@[simp] theorem Flight.modThread_typical (f : Flight) (i : Nat) (g : Thread → Thread) :
    (f.modThread i g).typical = f.typical := rfl
@[simp] theorem Flight.modThread_peak (f : Flight) (i : Nat) (g : Thread → Thread) : (f.modThread i g).peak = f.peak := rfl
@[simp] theorem Flight.modThread_pyield (f : Flight) (i : Nat) (g : Thread → Thread) :
    (f.modThread i g).pyield = f.pyield := rfl
@[simp] theorem Flight.modThread_waiting (f : Flight) (i : Nat) (g : Thread → Thread) :
    (f.modThread i g).waiting = f.waiting := rfl
@[simp] theorem Flight.modThread_overdue (f : Flight) (i : Nat) (g : Thread → Thread) :
    (f.modThread i g).overdue = f.overdue := rfl
@[simp] theorem Flight.modThread_score (f : Flight) (i : Nat) (g : Thread → Thread) : (f.modThread i g).score = f.score := rfl
@[simp] theorem Flight.modThread_sig (f : Flight) (i : Nat) (g : Thread → Thread) : (f.modThread i g).sig = f.sig := rfl
@[simp] theorem Flight.modThread_sigq (f : Flight) (i : Nat) (g : Thread → Thread) : (f.modThread i g).sigq = f.sigq := rfl
@[simp] theorem Flight.modThread_seed (f : Flight) (i : Nat) (g : Thread → Thread) : (f.modThread i g).seed = f.seed := rfl
@[simp] theorem Flight.modThread_win (f : Flight) (i : Nat) (g : Thread → Thread) : (f.modThread i g).win = f.win := rfl
@[simp] theorem Flight.modThread_winSize (f : Flight) (i : Nat) (g : Thread → Thread) :
    (f.modThread i g).winSize = f.winSize := rfl
@[simp] theorem Flight.modThread_started (f : Flight) (i : Nat) (g : Thread → Thread) :
    (f.modThread i g).started = f.started := rfl
@[simp] theorem Flight.modThread_pubWait (f : Flight) (i : Nat) (g : Thread → Thread) :
    (f.modThread i g).pubWait = f.pubWait := rfl
@[simp] theorem Flight.modThread_owed (f : Flight) (i : Nat) (g : Thread → Thread) : (f.modThread i g).owed = f.owed := rfl
@[simp] theorem Flight.modThread_wrote (f : Flight) (i : Nat) (g : Thread → Thread) : (f.modThread i g).wrote = f.wrote := rfl
@[simp] theorem Flight.modThread_waitFrom (f : Flight) (i : Nat) (g : Thread → Thread) :
    (f.modThread i g).waitFrom = f.waitFrom := rfl
@[simp] theorem Flight.modThread_waitHeld (f : Flight) (i : Nat) (g : Thread → Thread) :
    (f.modThread i g).waitHeld = f.waitHeld := rfl
@[simp] theorem Flight.modThread_lowered (f : Flight) (i : Nat) (g : Thread → Thread) :
    (f.modThread i g).lowered = f.lowered := rfl
@[simp] theorem Flight.modThread_leaving (f : Flight) (i : Nat) (g : Thread → Thread) :
    (f.modThread i g).leaving = f.leaving := rfl
@[simp] theorem Flight.modThread_opEnd (f : Flight) (i : Nat) (g : Thread → Thread) : (f.modThread i g).opEnd = f.opEnd := rfl

@[simp] theorem Flight.setPred_context (f : Flight) (i : Nat) (p : BitVec 4) (v : Bool) :
    (f.setPred i p v).context = f.context := rfl
@[simp] theorem Flight.setPred_gallery (f : Flight) (i : Nat) (p : BitVec 4) (v : Bool) :
    (f.setPred i p v).gallery = f.gallery := rfl
@[simp] theorem Flight.setPred_hall (f : Flight) (i : Nat) (p : BitVec 4) (v : Bool) : (f.setPred i p v).hall = f.hall := rfl
@[simp] theorem Flight.setPred_index (f : Flight) (i : Nat) (p : BitVec 4) (v : Bool) : (f.setPred i p v).index = f.index := rfl
@[simp] theorem Flight.setPred_task (f : Flight) (i : Nat) (p : BitVec 4) (v : Bool) : (f.setPred i p v).task = f.task := rfl
@[simp] theorem Flight.setPred_core (f : Flight) (i : Nat) (p : BitVec 4) (v : Bool) : (f.setPred i p v).core = f.core := rfl
@[simp] theorem Flight.setPred_quarter (f : Flight) (i : Nat) (p : BitVec 4) (v : Bool) :
    (f.setPred i p v).quarter = f.quarter := rfl
@[simp] theorem Flight.setPred_slot (f : Flight) (i : Nat) (p : BitVec 4) (v : Bool) : (f.setPred i p v).slot = f.slot := rfl
@[simp] theorem Flight.setPred_age (f : Flight) (i : Nat) (p : BitVec 4) (v : Bool) : (f.setPred i p v).age = f.age := rfl
@[simp] theorem Flight.setPred_lane (f : Flight) (i : Nat) (p : BitVec 4) (v : Bool) : (f.setPred i p v).lane = f.lane := rfl
@[simp] theorem Flight.setPred_narrow (f : Flight) (i : Nat) (p : BitVec 4) (v : Bool) :
    (f.setPred i p v).narrow = f.narrow := rfl
@[simp] theorem Flight.setPred_level (f : Flight) (i : Nat) (p : BitVec 4) (v : Bool) : (f.setPred i p v).level = f.level := rfl
@[simp] theorem Flight.setPred_threads (f : Flight) (i : Nat) (p : BitVec 4) (v : Bool) :
    (f.setPred i p v).threads = mmod f.threads i (fun t => { t with preds := setPredBit t.preds p.toNat v }) := rfl
@[simp] theorem Flight.setPred_regs (f : Flight) (i : Nat) (p : BitVec 4) (v : Bool) : (f.setPred i p v).regs = f.regs := rfl
@[simp] theorem Flight.setPred_sb (f : Flight) (i : Nat) (p : BitVec 4) (v : Bool) : (f.setPred i p v).sb = f.sb := rfl
@[simp] theorem Flight.setPred_flags (f : Flight) (i : Nat) (p : BitVec 4) (v : Bool) : (f.setPred i p v).flags = f.flags := rfl
@[simp] theorem Flight.setPred_window (f : Flight) (i : Nat) (p : BitVec 4) (v : Bool) :
    (f.setPred i p v).window = f.window := rfl
@[simp] theorem Flight.setPred_ctl (f : Flight) (i : Nat) (p : BitVec 4) (v : Bool) : (f.setPred i p v).ctl = f.ctl := rfl
@[simp] theorem Flight.setPred_fairC (f : Flight) (i : Nat) (p : BitVec 4) (v : Bool) : (f.setPred i p v).fairC = f.fairC := rfl
@[simp] theorem Flight.setPred_turn (f : Flight) (i : Nat) (p : BitVec 4) (v : Bool) : (f.setPred i p v).turn = f.turn := rfl
@[simp] theorem Flight.setPred_turnBase (f : Flight) (i : Nat) (p : BitVec 4) (v : Bool) :
    (f.setPred i p v).turnBase = f.turnBase := rfl
@[simp] theorem Flight.setPred_fairDue (f : Flight) (i : Nat) (p : BitVec 4) (v : Bool) :
    (f.setPred i p v).fairDue = f.fairDue := rfl
@[simp] theorem Flight.setPred_clause (f : Flight) (i : Nat) (p : BitVec 4) (v : Bool) :
    (f.setPred i p v).clause = f.clause := rfl
@[simp] theorem Flight.setPred_body (f : Flight) (i : Nat) (p : BitVec 4) (v : Bool) : (f.setPred i p v).body = f.body := rfl
@[simp] theorem Flight.setPred_stall (f : Flight) (i : Nat) (p : BitVec 4) (v : Bool) : (f.setPred i p v).stall = f.stall := rfl
@[simp] theorem Flight.setPred_frozen (f : Flight) (i : Nat) (p : BitVec 4) (v : Bool) :
    (f.setPred i p v).frozen = f.frozen := rfl
@[simp] theorem Flight.setPred_debugFrozen (f : Flight) (i : Nat) (p : BitVec 4) (v : Bool) :
    (f.setPred i p v).debugFrozen = f.debugFrozen := rfl
@[simp] theorem Flight.setPred_bpSkip (f : Flight) (i : Nat) (p : BitVec 4) (v : Bool) :
    (f.setPred i p v).bpSkip = f.bpSkip := rfl
@[simp] theorem Flight.setPred_slip (f : Flight) (i : Nat) (p : BitVec 4) (v : Bool) : (f.setPred i p v).slip = f.slip := rfl
@[simp] theorem Flight.setPred_yieldEnd (f : Flight) (i : Nat) (p : BitVec 4) (v : Bool) :
    (f.setPred i p v).yieldEnd = f.yieldEnd := rfl
@[simp] theorem Flight.setPred_pollHold (f : Flight) (i : Nat) (p : BitVec 4) (v : Bool) :
    (f.setPred i p v).pollHold = f.pollHold := rfl
@[simp] theorem Flight.setPred_pollsOut (f : Flight) (i : Nat) (p : BitVec 4) (v : Bool) :
    (f.setPred i p v).pollsOut = f.pollsOut := rfl
@[simp] theorem Flight.setPred_planes (f : Flight) (i : Nat) (p : BitVec 4) (v : Bool) :
    (f.setPred i p v).planes = f.planes := rfl
@[simp] theorem Flight.setPred_wantPlanes (f : Flight) (i : Nat) (p : BitVec 4) (v : Bool) :
    (f.setPred i p v).wantPlanes = f.wantPlanes := rfl
@[simp] theorem Flight.setPred_entries (f : Flight) (i : Nat) (p : BitVec 4) (v : Bool) :
    (f.setPred i p v).entries = f.entries := rfl
@[simp] theorem Flight.setPred_late (f : Flight) (i : Nat) (p : BitVec 4) (v : Bool) : (f.setPred i p v).late = f.late := rfl
@[simp] theorem Flight.setPred_typical (f : Flight) (i : Nat) (p : BitVec 4) (v : Bool) :
    (f.setPred i p v).typical = f.typical := rfl
@[simp] theorem Flight.setPred_peak (f : Flight) (i : Nat) (p : BitVec 4) (v : Bool) : (f.setPred i p v).peak = f.peak := rfl
@[simp] theorem Flight.setPred_pyield (f : Flight) (i : Nat) (p : BitVec 4) (v : Bool) :
    (f.setPred i p v).pyield = f.pyield := rfl
@[simp] theorem Flight.setPred_waiting (f : Flight) (i : Nat) (p : BitVec 4) (v : Bool) :
    (f.setPred i p v).waiting = f.waiting := rfl
@[simp] theorem Flight.setPred_overdue (f : Flight) (i : Nat) (p : BitVec 4) (v : Bool) :
    (f.setPred i p v).overdue = f.overdue := rfl
@[simp] theorem Flight.setPred_score (f : Flight) (i : Nat) (p : BitVec 4) (v : Bool) : (f.setPred i p v).score = f.score := rfl
@[simp] theorem Flight.setPred_sig (f : Flight) (i : Nat) (p : BitVec 4) (v : Bool) : (f.setPred i p v).sig = f.sig := rfl
@[simp] theorem Flight.setPred_sigq (f : Flight) (i : Nat) (p : BitVec 4) (v : Bool) : (f.setPred i p v).sigq = f.sigq := rfl
@[simp] theorem Flight.setPred_seed (f : Flight) (i : Nat) (p : BitVec 4) (v : Bool) : (f.setPred i p v).seed = f.seed := rfl
@[simp] theorem Flight.setPred_win (f : Flight) (i : Nat) (p : BitVec 4) (v : Bool) : (f.setPred i p v).win = f.win := rfl
@[simp] theorem Flight.setPred_winSize (f : Flight) (i : Nat) (p : BitVec 4) (v : Bool) :
    (f.setPred i p v).winSize = f.winSize := rfl
@[simp] theorem Flight.setPred_started (f : Flight) (i : Nat) (p : BitVec 4) (v : Bool) :
    (f.setPred i p v).started = f.started := rfl
@[simp] theorem Flight.setPred_pubWait (f : Flight) (i : Nat) (p : BitVec 4) (v : Bool) :
    (f.setPred i p v).pubWait = f.pubWait := rfl
@[simp] theorem Flight.setPred_owed (f : Flight) (i : Nat) (p : BitVec 4) (v : Bool) : (f.setPred i p v).owed = f.owed := rfl
@[simp] theorem Flight.setPred_wrote (f : Flight) (i : Nat) (p : BitVec 4) (v : Bool) : (f.setPred i p v).wrote = f.wrote := rfl
@[simp] theorem Flight.setPred_waitFrom (f : Flight) (i : Nat) (p : BitVec 4) (v : Bool) :
    (f.setPred i p v).waitFrom = f.waitFrom := rfl
@[simp] theorem Flight.setPred_waitHeld (f : Flight) (i : Nat) (p : BitVec 4) (v : Bool) :
    (f.setPred i p v).waitHeld = f.waitHeld := rfl
@[simp] theorem Flight.setPred_lowered (f : Flight) (i : Nat) (p : BitVec 4) (v : Bool) :
    (f.setPred i p v).lowered = f.lowered := rfl
@[simp] theorem Flight.setPred_leaving (f : Flight) (i : Nat) (p : BitVec 4) (v : Bool) :
    (f.setPred i p v).leaving = f.leaving := rfl
@[simp] theorem Flight.setPred_opEnd (f : Flight) (i : Nat) (p : BitVec 4) (v : Bool) : (f.setPred i p v).opEnd = f.opEnd := rfl

@[simp] theorem Flight.writeReg_context (f : Flight) (u all : Bool) (n : Nat) (v : List (Nat × Tri Word)) :
    (f.writeReg u all n v).context = f.context := rfl
@[simp] theorem Flight.writeReg_gallery (f : Flight) (u all : Bool) (n : Nat) (v : List (Nat × Tri Word)) :
    (f.writeReg u all n v).gallery = f.gallery := rfl
@[simp] theorem Flight.writeReg_hall (f : Flight) (u all : Bool) (n : Nat) (v : List (Nat × Tri Word)) :
    (f.writeReg u all n v).hall = f.hall := rfl
@[simp] theorem Flight.writeReg_index (f : Flight) (u all : Bool) (n : Nat) (v : List (Nat × Tri Word)) :
    (f.writeReg u all n v).index = f.index := rfl
@[simp] theorem Flight.writeReg_task (f : Flight) (u all : Bool) (n : Nat) (v : List (Nat × Tri Word)) :
    (f.writeReg u all n v).task = f.task := rfl
@[simp] theorem Flight.writeReg_core (f : Flight) (u all : Bool) (n : Nat) (v : List (Nat × Tri Word)) :
    (f.writeReg u all n v).core = f.core := rfl
@[simp] theorem Flight.writeReg_quarter (f : Flight) (u all : Bool) (n : Nat) (v : List (Nat × Tri Word)) :
    (f.writeReg u all n v).quarter = f.quarter := rfl
@[simp] theorem Flight.writeReg_slot (f : Flight) (u all : Bool) (n : Nat) (v : List (Nat × Tri Word)) :
    (f.writeReg u all n v).slot = f.slot := rfl
@[simp] theorem Flight.writeReg_age (f : Flight) (u all : Bool) (n : Nat) (v : List (Nat × Tri Word)) :
    (f.writeReg u all n v).age = f.age := rfl
@[simp] theorem Flight.writeReg_lane (f : Flight) (u all : Bool) (n : Nat) (v : List (Nat × Tri Word)) :
    (f.writeReg u all n v).lane = f.lane := rfl
@[simp] theorem Flight.writeReg_narrow (f : Flight) (u all : Bool) (n : Nat) (v : List (Nat × Tri Word)) :
    (f.writeReg u all n v).narrow = f.narrow := rfl
@[simp] theorem Flight.writeReg_level (f : Flight) (u all : Bool) (n : Nat) (v : List (Nat × Tri Word)) :
    (f.writeReg u all n v).level = f.level := rfl
@[simp] theorem Flight.writeReg_threads (f : Flight) (u all : Bool) (n : Nat) (v : List (Nat × Tri Word)) :
    (f.writeReg u all n v).threads = f.threads := rfl
@[simp] theorem Flight.writeReg_regs (f : Flight) (u all : Bool) (n : Nat) (v : List (Nat × Tri Word)) :
    (f.writeReg u all n v).regs = mset f.regs n (f.regAfter (mget f.regs n) u all v) := rfl
@[simp] theorem Flight.writeReg_sb (f : Flight) (u all : Bool) (n : Nat) (v : List (Nat × Tri Word)) :
    (f.writeReg u all n v).sb = f.sb := rfl
@[simp] theorem Flight.writeReg_flags (f : Flight) (u all : Bool) (n : Nat) (v : List (Nat × Tri Word)) :
    (f.writeReg u all n v).flags = f.flags := rfl
@[simp] theorem Flight.writeReg_window (f : Flight) (u all : Bool) (n : Nat) (v : List (Nat × Tri Word)) :
    (f.writeReg u all n v).window = f.window := rfl
@[simp] theorem Flight.writeReg_ctl (f : Flight) (u all : Bool) (n : Nat) (v : List (Nat × Tri Word)) :
    (f.writeReg u all n v).ctl = f.ctl := rfl
@[simp] theorem Flight.writeReg_fairC (f : Flight) (u all : Bool) (n : Nat) (v : List (Nat × Tri Word)) :
    (f.writeReg u all n v).fairC = f.fairC := rfl
@[simp] theorem Flight.writeReg_turn (f : Flight) (u all : Bool) (n : Nat) (v : List (Nat × Tri Word)) :
    (f.writeReg u all n v).turn = f.turn := rfl
@[simp] theorem Flight.writeReg_turnBase (f : Flight) (u all : Bool) (n : Nat) (v : List (Nat × Tri Word)) :
    (f.writeReg u all n v).turnBase = f.turnBase := rfl
@[simp] theorem Flight.writeReg_fairDue (f : Flight) (u all : Bool) (n : Nat) (v : List (Nat × Tri Word)) :
    (f.writeReg u all n v).fairDue = f.fairDue := rfl
@[simp] theorem Flight.writeReg_clause (f : Flight) (u all : Bool) (n : Nat) (v : List (Nat × Tri Word)) :
    (f.writeReg u all n v).clause = f.clause := rfl
@[simp] theorem Flight.writeReg_body (f : Flight) (u all : Bool) (n : Nat) (v : List (Nat × Tri Word)) :
    (f.writeReg u all n v).body = f.body := rfl
@[simp] theorem Flight.writeReg_stall (f : Flight) (u all : Bool) (n : Nat) (v : List (Nat × Tri Word)) :
    (f.writeReg u all n v).stall = f.stall := rfl
@[simp] theorem Flight.writeReg_frozen (f : Flight) (u all : Bool) (n : Nat) (v : List (Nat × Tri Word)) :
    (f.writeReg u all n v).frozen = f.frozen := rfl
@[simp] theorem Flight.writeReg_debugFrozen (f : Flight) (u all : Bool) (n : Nat) (v : List (Nat × Tri Word)) :
    (f.writeReg u all n v).debugFrozen = f.debugFrozen := rfl
@[simp] theorem Flight.writeReg_bpSkip (f : Flight) (u all : Bool) (n : Nat) (v : List (Nat × Tri Word)) :
    (f.writeReg u all n v).bpSkip = f.bpSkip := rfl
@[simp] theorem Flight.writeReg_slip (f : Flight) (u all : Bool) (n : Nat) (v : List (Nat × Tri Word)) :
    (f.writeReg u all n v).slip = f.slip := rfl
@[simp] theorem Flight.writeReg_yieldEnd (f : Flight) (u all : Bool) (n : Nat) (v : List (Nat × Tri Word)) :
    (f.writeReg u all n v).yieldEnd = f.yieldEnd := rfl
@[simp] theorem Flight.writeReg_pollHold (f : Flight) (u all : Bool) (n : Nat) (v : List (Nat × Tri Word)) :
    (f.writeReg u all n v).pollHold = f.pollHold := rfl
@[simp] theorem Flight.writeReg_pollsOut (f : Flight) (u all : Bool) (n : Nat) (v : List (Nat × Tri Word)) :
    (f.writeReg u all n v).pollsOut = f.pollsOut := rfl
@[simp] theorem Flight.writeReg_planes (f : Flight) (u all : Bool) (n : Nat) (v : List (Nat × Tri Word)) :
    (f.writeReg u all n v).planes = f.planes := rfl
@[simp] theorem Flight.writeReg_wantPlanes (f : Flight) (u all : Bool) (n : Nat) (v : List (Nat × Tri Word)) :
    (f.writeReg u all n v).wantPlanes = f.wantPlanes := rfl
@[simp] theorem Flight.writeReg_entries (f : Flight) (u all : Bool) (n : Nat) (v : List (Nat × Tri Word)) :
    (f.writeReg u all n v).entries = f.entries := rfl
@[simp] theorem Flight.writeReg_late (f : Flight) (u all : Bool) (n : Nat) (v : List (Nat × Tri Word)) :
    (f.writeReg u all n v).late = f.late := rfl
@[simp] theorem Flight.writeReg_typical (f : Flight) (u all : Bool) (n : Nat) (v : List (Nat × Tri Word)) :
    (f.writeReg u all n v).typical = f.typical := rfl
@[simp] theorem Flight.writeReg_peak (f : Flight) (u all : Bool) (n : Nat) (v : List (Nat × Tri Word)) :
    (f.writeReg u all n v).peak = f.peak := rfl
@[simp] theorem Flight.writeReg_pyield (f : Flight) (u all : Bool) (n : Nat) (v : List (Nat × Tri Word)) :
    (f.writeReg u all n v).pyield = f.pyield := rfl
@[simp] theorem Flight.writeReg_waiting (f : Flight) (u all : Bool) (n : Nat) (v : List (Nat × Tri Word)) :
    (f.writeReg u all n v).waiting = f.waiting := rfl
@[simp] theorem Flight.writeReg_overdue (f : Flight) (u all : Bool) (n : Nat) (v : List (Nat × Tri Word)) :
    (f.writeReg u all n v).overdue = f.overdue := rfl
@[simp] theorem Flight.writeReg_score (f : Flight) (u all : Bool) (n : Nat) (v : List (Nat × Tri Word)) :
    (f.writeReg u all n v).score = f.score := rfl
@[simp] theorem Flight.writeReg_sig (f : Flight) (u all : Bool) (n : Nat) (v : List (Nat × Tri Word)) :
    (f.writeReg u all n v).sig = f.sig := rfl
@[simp] theorem Flight.writeReg_sigq (f : Flight) (u all : Bool) (n : Nat) (v : List (Nat × Tri Word)) :
    (f.writeReg u all n v).sigq = f.sigq := rfl
@[simp] theorem Flight.writeReg_seed (f : Flight) (u all : Bool) (n : Nat) (v : List (Nat × Tri Word)) :
    (f.writeReg u all n v).seed = f.seed := rfl
@[simp] theorem Flight.writeReg_win (f : Flight) (u all : Bool) (n : Nat) (v : List (Nat × Tri Word)) :
    (f.writeReg u all n v).win = f.win := rfl
@[simp] theorem Flight.writeReg_winSize (f : Flight) (u all : Bool) (n : Nat) (v : List (Nat × Tri Word)) :
    (f.writeReg u all n v).winSize = f.winSize := rfl
@[simp] theorem Flight.writeReg_started (f : Flight) (u all : Bool) (n : Nat) (v : List (Nat × Tri Word)) :
    (f.writeReg u all n v).started = f.started := rfl
@[simp] theorem Flight.writeReg_pubWait (f : Flight) (u all : Bool) (n : Nat) (v : List (Nat × Tri Word)) :
    (f.writeReg u all n v).pubWait = f.pubWait := rfl
@[simp] theorem Flight.writeReg_owed (f : Flight) (u all : Bool) (n : Nat) (v : List (Nat × Tri Word)) :
    (f.writeReg u all n v).owed = f.owed := rfl
@[simp] theorem Flight.writeReg_wrote (f : Flight) (u all : Bool) (n : Nat) (v : List (Nat × Tri Word)) :
    (f.writeReg u all n v).wrote = f.wrote := rfl
@[simp] theorem Flight.writeReg_waitFrom (f : Flight) (u all : Bool) (n : Nat) (v : List (Nat × Tri Word)) :
    (f.writeReg u all n v).waitFrom = f.waitFrom := rfl
@[simp] theorem Flight.writeReg_waitHeld (f : Flight) (u all : Bool) (n : Nat) (v : List (Nat × Tri Word)) :
    (f.writeReg u all n v).waitHeld = f.waitHeld := rfl
@[simp] theorem Flight.writeReg_lowered (f : Flight) (u all : Bool) (n : Nat) (v : List (Nat × Tri Word)) :
    (f.writeReg u all n v).lowered = f.lowered := rfl
@[simp] theorem Flight.writeReg_leaving (f : Flight) (u all : Bool) (n : Nat) (v : List (Nat × Tri Word)) :
    (f.writeReg u all n v).leaving = f.leaving := rfl
@[simp] theorem Flight.writeReg_opEnd (f : Flight) (u all : Bool) (n : Nat) (v : List (Nat × Tri Word)) :
    (f.writeReg u all n v).opEnd = f.opEnd := rfl

@[simp] theorem Flight.unmap_context (f : Flight) (ns : List Nat) : (f.unmap ns).context = f.context := rfl
@[simp] theorem Flight.unmap_gallery (f : Flight) (ns : List Nat) : (f.unmap ns).gallery = f.gallery := rfl
@[simp] theorem Flight.unmap_hall (f : Flight) (ns : List Nat) : (f.unmap ns).hall = f.hall := rfl
@[simp] theorem Flight.unmap_index (f : Flight) (ns : List Nat) : (f.unmap ns).index = f.index := rfl
@[simp] theorem Flight.unmap_task (f : Flight) (ns : List Nat) : (f.unmap ns).task = f.task := rfl
@[simp] theorem Flight.unmap_core (f : Flight) (ns : List Nat) : (f.unmap ns).core = f.core := rfl
@[simp] theorem Flight.unmap_quarter (f : Flight) (ns : List Nat) : (f.unmap ns).quarter = f.quarter := rfl
@[simp] theorem Flight.unmap_slot (f : Flight) (ns : List Nat) : (f.unmap ns).slot = f.slot := rfl
@[simp] theorem Flight.unmap_age (f : Flight) (ns : List Nat) : (f.unmap ns).age = f.age := rfl
@[simp] theorem Flight.unmap_lane (f : Flight) (ns : List Nat) : (f.unmap ns).lane = f.lane := rfl
@[simp] theorem Flight.unmap_narrow (f : Flight) (ns : List Nat) : (f.unmap ns).narrow = f.narrow := rfl
@[simp] theorem Flight.unmap_level (f : Flight) (ns : List Nat) : (f.unmap ns).level = f.level := rfl
@[simp] theorem Flight.unmap_threads (f : Flight) (ns : List Nat) : (f.unmap ns).threads = f.threads := rfl
@[simp] theorem Flight.unmap_regs (f : Flight) (ns : List Nat) : (f.unmap ns).regs = ns.foldl mdel f.regs := rfl
@[simp] theorem Flight.unmap_sb (f : Flight) (ns : List Nat) : (f.unmap ns).sb = f.sb := rfl
@[simp] theorem Flight.unmap_flags (f : Flight) (ns : List Nat) : (f.unmap ns).flags = f.flags := rfl
@[simp] theorem Flight.unmap_window (f : Flight) (ns : List Nat) : (f.unmap ns).window = f.window := rfl
@[simp] theorem Flight.unmap_ctl (f : Flight) (ns : List Nat) : (f.unmap ns).ctl = f.ctl := rfl
@[simp] theorem Flight.unmap_fairC (f : Flight) (ns : List Nat) : (f.unmap ns).fairC = f.fairC := rfl
@[simp] theorem Flight.unmap_turn (f : Flight) (ns : List Nat) : (f.unmap ns).turn = f.turn := rfl
@[simp] theorem Flight.unmap_turnBase (f : Flight) (ns : List Nat) : (f.unmap ns).turnBase = f.turnBase := rfl
@[simp] theorem Flight.unmap_fairDue (f : Flight) (ns : List Nat) : (f.unmap ns).fairDue = f.fairDue := rfl
@[simp] theorem Flight.unmap_clause (f : Flight) (ns : List Nat) : (f.unmap ns).clause = f.clause := rfl
@[simp] theorem Flight.unmap_body (f : Flight) (ns : List Nat) : (f.unmap ns).body = f.body := rfl
@[simp] theorem Flight.unmap_stall (f : Flight) (ns : List Nat) : (f.unmap ns).stall = f.stall := rfl
@[simp] theorem Flight.unmap_frozen (f : Flight) (ns : List Nat) : (f.unmap ns).frozen = f.frozen := rfl
@[simp] theorem Flight.unmap_debugFrozen (f : Flight) (ns : List Nat) : (f.unmap ns).debugFrozen = f.debugFrozen := rfl
@[simp] theorem Flight.unmap_bpSkip (f : Flight) (ns : List Nat) : (f.unmap ns).bpSkip = f.bpSkip := rfl
@[simp] theorem Flight.unmap_slip (f : Flight) (ns : List Nat) : (f.unmap ns).slip = f.slip := rfl
@[simp] theorem Flight.unmap_yieldEnd (f : Flight) (ns : List Nat) : (f.unmap ns).yieldEnd = f.yieldEnd := rfl
@[simp] theorem Flight.unmap_pollHold (f : Flight) (ns : List Nat) : (f.unmap ns).pollHold = f.pollHold := rfl
@[simp] theorem Flight.unmap_pollsOut (f : Flight) (ns : List Nat) : (f.unmap ns).pollsOut = f.pollsOut := rfl
@[simp] theorem Flight.unmap_planes (f : Flight) (ns : List Nat) : (f.unmap ns).planes = f.planes := rfl
@[simp] theorem Flight.unmap_wantPlanes (f : Flight) (ns : List Nat) : (f.unmap ns).wantPlanes = f.wantPlanes := rfl
@[simp] theorem Flight.unmap_entries (f : Flight) (ns : List Nat) : (f.unmap ns).entries = f.entries := rfl
@[simp] theorem Flight.unmap_late (f : Flight) (ns : List Nat) : (f.unmap ns).late = f.late := rfl
@[simp] theorem Flight.unmap_typical (f : Flight) (ns : List Nat) : (f.unmap ns).typical = f.typical := rfl
@[simp] theorem Flight.unmap_peak (f : Flight) (ns : List Nat) : (f.unmap ns).peak = f.peak := rfl
@[simp] theorem Flight.unmap_pyield (f : Flight) (ns : List Nat) : (f.unmap ns).pyield = f.pyield := rfl
@[simp] theorem Flight.unmap_waiting (f : Flight) (ns : List Nat) : (f.unmap ns).waiting = f.waiting := rfl
@[simp] theorem Flight.unmap_overdue (f : Flight) (ns : List Nat) : (f.unmap ns).overdue = f.overdue := rfl
@[simp] theorem Flight.unmap_score (f : Flight) (ns : List Nat) : (f.unmap ns).score = f.score := rfl
@[simp] theorem Flight.unmap_sig (f : Flight) (ns : List Nat) : (f.unmap ns).sig = f.sig := rfl
@[simp] theorem Flight.unmap_sigq (f : Flight) (ns : List Nat) : (f.unmap ns).sigq = f.sigq := rfl
@[simp] theorem Flight.unmap_seed (f : Flight) (ns : List Nat) : (f.unmap ns).seed = f.seed := rfl
@[simp] theorem Flight.unmap_win (f : Flight) (ns : List Nat) : (f.unmap ns).win = f.win := rfl
@[simp] theorem Flight.unmap_winSize (f : Flight) (ns : List Nat) : (f.unmap ns).winSize = f.winSize := rfl
@[simp] theorem Flight.unmap_started (f : Flight) (ns : List Nat) : (f.unmap ns).started = f.started := rfl
@[simp] theorem Flight.unmap_pubWait (f : Flight) (ns : List Nat) : (f.unmap ns).pubWait = f.pubWait := rfl
@[simp] theorem Flight.unmap_owed (f : Flight) (ns : List Nat) : (f.unmap ns).owed = f.owed := rfl
@[simp] theorem Flight.unmap_wrote (f : Flight) (ns : List Nat) : (f.unmap ns).wrote = f.wrote := rfl
@[simp] theorem Flight.unmap_waitFrom (f : Flight) (ns : List Nat) : (f.unmap ns).waitFrom = f.waitFrom := rfl
@[simp] theorem Flight.unmap_waitHeld (f : Flight) (ns : List Nat) : (f.unmap ns).waitHeld = f.waitHeld := rfl
@[simp] theorem Flight.unmap_lowered (f : Flight) (ns : List Nat) : (f.unmap ns).lowered = f.lowered := rfl
@[simp] theorem Flight.unmap_leaving (f : Flight) (ns : List Nat) : (f.unmap ns).leaving = f.leaving := rfl
@[simp] theorem Flight.unmap_opEnd (f : Flight) (ns : List Nat) : (f.unmap ns).opEnd = f.opEnd := rfl

@[simp] theorem Flight.setEntry_context (f : Flight) (e : Entry) : (f.setEntry e).context = f.context := rfl
@[simp] theorem Flight.setEntry_gallery (f : Flight) (e : Entry) : (f.setEntry e).gallery = f.gallery := rfl
@[simp] theorem Flight.setEntry_hall (f : Flight) (e : Entry) : (f.setEntry e).hall = f.hall := rfl
@[simp] theorem Flight.setEntry_index (f : Flight) (e : Entry) : (f.setEntry e).index = f.index := rfl
@[simp] theorem Flight.setEntry_task (f : Flight) (e : Entry) : (f.setEntry e).task = f.task := rfl
@[simp] theorem Flight.setEntry_core (f : Flight) (e : Entry) : (f.setEntry e).core = f.core := rfl
@[simp] theorem Flight.setEntry_quarter (f : Flight) (e : Entry) : (f.setEntry e).quarter = f.quarter := rfl
@[simp] theorem Flight.setEntry_slot (f : Flight) (e : Entry) : (f.setEntry e).slot = f.slot := rfl
@[simp] theorem Flight.setEntry_age (f : Flight) (e : Entry) : (f.setEntry e).age = f.age := rfl
@[simp] theorem Flight.setEntry_lane (f : Flight) (e : Entry) : (f.setEntry e).lane = f.lane := rfl
@[simp] theorem Flight.setEntry_narrow (f : Flight) (e : Entry) : (f.setEntry e).narrow = f.narrow := rfl
@[simp] theorem Flight.setEntry_level (f : Flight) (e : Entry) : (f.setEntry e).level = f.level := rfl
@[simp] theorem Flight.setEntry_threads (f : Flight) (e : Entry) : (f.setEntry e).threads = f.threads := rfl
@[simp] theorem Flight.setEntry_regs (f : Flight) (e : Entry) : (f.setEntry e).regs = f.regs := rfl
@[simp] theorem Flight.setEntry_sb (f : Flight) (e : Entry) : (f.setEntry e).sb = f.sb := rfl
@[simp] theorem Flight.setEntry_flags (f : Flight) (e : Entry) : (f.setEntry e).flags = f.flags := rfl
@[simp] theorem Flight.setEntry_window (f : Flight) (e : Entry) : (f.setEntry e).window = f.window := rfl
@[simp] theorem Flight.setEntry_ctl (f : Flight) (e : Entry) : (f.setEntry e).ctl = f.ctl := rfl
@[simp] theorem Flight.setEntry_fairC (f : Flight) (e : Entry) : (f.setEntry e).fairC = f.fairC := rfl
@[simp] theorem Flight.setEntry_turn (f : Flight) (e : Entry) : (f.setEntry e).turn = f.turn := rfl
@[simp] theorem Flight.setEntry_turnBase (f : Flight) (e : Entry) : (f.setEntry e).turnBase = f.turnBase := rfl
@[simp] theorem Flight.setEntry_fairDue (f : Flight) (e : Entry) : (f.setEntry e).fairDue = f.fairDue := rfl
@[simp] theorem Flight.setEntry_clause (f : Flight) (e : Entry) : (f.setEntry e).clause = f.clause := rfl
@[simp] theorem Flight.setEntry_body (f : Flight) (e : Entry) : (f.setEntry e).body = f.body := rfl
@[simp] theorem Flight.setEntry_stall (f : Flight) (e : Entry) : (f.setEntry e).stall = f.stall := rfl
@[simp] theorem Flight.setEntry_frozen (f : Flight) (e : Entry) : (f.setEntry e).frozen = f.frozen := rfl
@[simp] theorem Flight.setEntry_debugFrozen (f : Flight) (e : Entry) : (f.setEntry e).debugFrozen = f.debugFrozen := rfl
@[simp] theorem Flight.setEntry_bpSkip (f : Flight) (e : Entry) : (f.setEntry e).bpSkip = f.bpSkip := rfl
@[simp] theorem Flight.setEntry_slip (f : Flight) (e : Entry) : (f.setEntry e).slip = f.slip := rfl
@[simp] theorem Flight.setEntry_yieldEnd (f : Flight) (e : Entry) : (f.setEntry e).yieldEnd = f.yieldEnd := rfl
@[simp] theorem Flight.setEntry_pollHold (f : Flight) (e : Entry) : (f.setEntry e).pollHold = f.pollHold := rfl
@[simp] theorem Flight.setEntry_pollsOut (f : Flight) (e : Entry) : (f.setEntry e).pollsOut = f.pollsOut := rfl
@[simp] theorem Flight.setEntry_planes (f : Flight) (e : Entry) : (f.setEntry e).planes = f.planes := rfl
@[simp] theorem Flight.setEntry_wantPlanes (f : Flight) (e : Entry) : (f.setEntry e).wantPlanes = f.wantPlanes := rfl
@[simp] theorem Flight.setEntry_entries (f : Flight) (e : Entry) :
    (f.setEntry e).entries = f.entries.map (fun x => if x.id == e.id then e else x) := rfl
@[simp] theorem Flight.setEntry_late (f : Flight) (e : Entry) : (f.setEntry e).late = f.late := rfl
@[simp] theorem Flight.setEntry_typical (f : Flight) (e : Entry) : (f.setEntry e).typical = f.typical := rfl
@[simp] theorem Flight.setEntry_peak (f : Flight) (e : Entry) : (f.setEntry e).peak = f.peak := rfl
@[simp] theorem Flight.setEntry_pyield (f : Flight) (e : Entry) : (f.setEntry e).pyield = f.pyield := rfl
@[simp] theorem Flight.setEntry_waiting (f : Flight) (e : Entry) : (f.setEntry e).waiting = f.waiting := rfl
@[simp] theorem Flight.setEntry_overdue (f : Flight) (e : Entry) : (f.setEntry e).overdue = f.overdue := rfl
@[simp] theorem Flight.setEntry_score (f : Flight) (e : Entry) : (f.setEntry e).score = f.score := rfl
@[simp] theorem Flight.setEntry_sig (f : Flight) (e : Entry) : (f.setEntry e).sig = f.sig := rfl
@[simp] theorem Flight.setEntry_sigq (f : Flight) (e : Entry) : (f.setEntry e).sigq = f.sigq := rfl
@[simp] theorem Flight.setEntry_seed (f : Flight) (e : Entry) : (f.setEntry e).seed = f.seed := rfl
@[simp] theorem Flight.setEntry_win (f : Flight) (e : Entry) : (f.setEntry e).win = f.win := rfl
@[simp] theorem Flight.setEntry_winSize (f : Flight) (e : Entry) : (f.setEntry e).winSize = f.winSize := rfl
@[simp] theorem Flight.setEntry_started (f : Flight) (e : Entry) : (f.setEntry e).started = f.started := rfl
@[simp] theorem Flight.setEntry_pubWait (f : Flight) (e : Entry) : (f.setEntry e).pubWait = f.pubWait := rfl
@[simp] theorem Flight.setEntry_owed (f : Flight) (e : Entry) : (f.setEntry e).owed = f.owed := rfl
@[simp] theorem Flight.setEntry_wrote (f : Flight) (e : Entry) : (f.setEntry e).wrote = f.wrote := rfl
@[simp] theorem Flight.setEntry_waitFrom (f : Flight) (e : Entry) : (f.setEntry e).waitFrom = f.waitFrom := rfl
@[simp] theorem Flight.setEntry_waitHeld (f : Flight) (e : Entry) : (f.setEntry e).waitHeld = f.waitHeld := rfl
@[simp] theorem Flight.setEntry_lowered (f : Flight) (e : Entry) : (f.setEntry e).lowered = f.lowered := rfl
@[simp] theorem Flight.setEntry_leaving (f : Flight) (e : Entry) : (f.setEntry e).leaving = f.leaving := rfl
@[simp] theorem Flight.setEntry_opEnd (f : Flight) (e : Entry) : (f.setEntry e).opEnd = f.opEnd := rfl

@[simp] theorem Flight.dropEntry_context (f : Flight) (e : Nat) : (f.dropEntry e).context = f.context := rfl
@[simp] theorem Flight.dropEntry_gallery (f : Flight) (e : Nat) : (f.dropEntry e).gallery = f.gallery := rfl
@[simp] theorem Flight.dropEntry_hall (f : Flight) (e : Nat) : (f.dropEntry e).hall = f.hall := rfl
@[simp] theorem Flight.dropEntry_index (f : Flight) (e : Nat) : (f.dropEntry e).index = f.index := rfl
@[simp] theorem Flight.dropEntry_task (f : Flight) (e : Nat) : (f.dropEntry e).task = f.task := rfl
@[simp] theorem Flight.dropEntry_core (f : Flight) (e : Nat) : (f.dropEntry e).core = f.core := rfl
@[simp] theorem Flight.dropEntry_quarter (f : Flight) (e : Nat) : (f.dropEntry e).quarter = f.quarter := rfl
@[simp] theorem Flight.dropEntry_slot (f : Flight) (e : Nat) : (f.dropEntry e).slot = f.slot := rfl
@[simp] theorem Flight.dropEntry_age (f : Flight) (e : Nat) : (f.dropEntry e).age = f.age := rfl
@[simp] theorem Flight.dropEntry_lane (f : Flight) (e : Nat) : (f.dropEntry e).lane = f.lane := rfl
@[simp] theorem Flight.dropEntry_narrow (f : Flight) (e : Nat) : (f.dropEntry e).narrow = f.narrow := rfl
@[simp] theorem Flight.dropEntry_level (f : Flight) (e : Nat) : (f.dropEntry e).level = f.level := rfl
@[simp] theorem Flight.dropEntry_threads (f : Flight) (e : Nat) : (f.dropEntry e).threads = f.threads := rfl
@[simp] theorem Flight.dropEntry_regs (f : Flight) (e : Nat) : (f.dropEntry e).regs = f.regs := rfl
@[simp] theorem Flight.dropEntry_sb (f : Flight) (e : Nat) : (f.dropEntry e).sb = f.sb := rfl
@[simp] theorem Flight.dropEntry_flags (f : Flight) (e : Nat) : (f.dropEntry e).flags = f.flags := rfl
@[simp] theorem Flight.dropEntry_window (f : Flight) (e : Nat) : (f.dropEntry e).window = f.window := rfl
@[simp] theorem Flight.dropEntry_ctl (f : Flight) (e : Nat) : (f.dropEntry e).ctl = f.ctl := rfl
@[simp] theorem Flight.dropEntry_fairC (f : Flight) (e : Nat) : (f.dropEntry e).fairC = f.fairC := rfl
@[simp] theorem Flight.dropEntry_turn (f : Flight) (e : Nat) : (f.dropEntry e).turn = f.turn := rfl
@[simp] theorem Flight.dropEntry_turnBase (f : Flight) (e : Nat) : (f.dropEntry e).turnBase = f.turnBase := rfl
@[simp] theorem Flight.dropEntry_fairDue (f : Flight) (e : Nat) : (f.dropEntry e).fairDue = f.fairDue := rfl
@[simp] theorem Flight.dropEntry_clause (f : Flight) (e : Nat) : (f.dropEntry e).clause = f.clause := rfl
@[simp] theorem Flight.dropEntry_body (f : Flight) (e : Nat) : (f.dropEntry e).body = f.body := rfl
@[simp] theorem Flight.dropEntry_stall (f : Flight) (e : Nat) : (f.dropEntry e).stall = f.stall := rfl
@[simp] theorem Flight.dropEntry_frozen (f : Flight) (e : Nat) : (f.dropEntry e).frozen = f.frozen := rfl
@[simp] theorem Flight.dropEntry_debugFrozen (f : Flight) (e : Nat) : (f.dropEntry e).debugFrozen = f.debugFrozen := rfl
@[simp] theorem Flight.dropEntry_bpSkip (f : Flight) (e : Nat) : (f.dropEntry e).bpSkip = f.bpSkip := rfl
@[simp] theorem Flight.dropEntry_slip (f : Flight) (e : Nat) : (f.dropEntry e).slip = f.slip := rfl
@[simp] theorem Flight.dropEntry_yieldEnd (f : Flight) (e : Nat) : (f.dropEntry e).yieldEnd = f.yieldEnd := rfl
@[simp] theorem Flight.dropEntry_pollHold (f : Flight) (e : Nat) : (f.dropEntry e).pollHold = f.pollHold := rfl
@[simp] theorem Flight.dropEntry_pollsOut (f : Flight) (e : Nat) : (f.dropEntry e).pollsOut = f.pollsOut := rfl
@[simp] theorem Flight.dropEntry_planes (f : Flight) (e : Nat) : (f.dropEntry e).planes = f.planes := rfl
@[simp] theorem Flight.dropEntry_wantPlanes (f : Flight) (e : Nat) : (f.dropEntry e).wantPlanes = f.wantPlanes := rfl
@[simp] theorem Flight.dropEntry_entries (f : Flight) (e : Nat) :
    (f.dropEntry e).entries = f.entries.filter (fun x => x.id != e) := rfl
@[simp] theorem Flight.dropEntry_late (f : Flight) (e : Nat) : (f.dropEntry e).late = f.late := rfl
@[simp] theorem Flight.dropEntry_typical (f : Flight) (e : Nat) : (f.dropEntry e).typical = f.typical := rfl
@[simp] theorem Flight.dropEntry_peak (f : Flight) (e : Nat) : (f.dropEntry e).peak = f.peak := rfl
@[simp] theorem Flight.dropEntry_pyield (f : Flight) (e : Nat) : (f.dropEntry e).pyield = f.pyield := rfl
@[simp] theorem Flight.dropEntry_waiting (f : Flight) (e : Nat) : (f.dropEntry e).waiting = f.waiting := rfl
@[simp] theorem Flight.dropEntry_overdue (f : Flight) (e : Nat) : (f.dropEntry e).overdue = f.overdue := rfl
@[simp] theorem Flight.dropEntry_score (f : Flight) (e : Nat) : (f.dropEntry e).score = f.score := rfl
@[simp] theorem Flight.dropEntry_sig (f : Flight) (e : Nat) : (f.dropEntry e).sig = f.sig := rfl
@[simp] theorem Flight.dropEntry_sigq (f : Flight) (e : Nat) : (f.dropEntry e).sigq = f.sigq := rfl
@[simp] theorem Flight.dropEntry_seed (f : Flight) (e : Nat) : (f.dropEntry e).seed = f.seed := rfl
@[simp] theorem Flight.dropEntry_win (f : Flight) (e : Nat) : (f.dropEntry e).win = f.win := rfl
@[simp] theorem Flight.dropEntry_winSize (f : Flight) (e : Nat) : (f.dropEntry e).winSize = f.winSize := rfl
@[simp] theorem Flight.dropEntry_started (f : Flight) (e : Nat) : (f.dropEntry e).started = f.started := rfl
@[simp] theorem Flight.dropEntry_pubWait (f : Flight) (e : Nat) : (f.dropEntry e).pubWait = f.pubWait := rfl
@[simp] theorem Flight.dropEntry_owed (f : Flight) (e : Nat) : (f.dropEntry e).owed = f.owed := rfl
@[simp] theorem Flight.dropEntry_wrote (f : Flight) (e : Nat) : (f.dropEntry e).wrote = f.wrote := rfl
@[simp] theorem Flight.dropEntry_waitFrom (f : Flight) (e : Nat) : (f.dropEntry e).waitFrom = f.waitFrom := rfl
@[simp] theorem Flight.dropEntry_waitHeld (f : Flight) (e : Nat) : (f.dropEntry e).waitHeld = f.waitHeld := rfl
@[simp] theorem Flight.dropEntry_lowered (f : Flight) (e : Nat) : (f.dropEntry e).lowered = f.lowered := rfl
@[simp] theorem Flight.dropEntry_leaving (f : Flight) (e : Nat) : (f.dropEntry e).leaving = f.leaving := rfl
@[simp] theorem Flight.dropEntry_opEnd (f : Flight) (e : Nat) : (f.dropEntry e).opEnd = f.opEnd := rfl

@[simp] theorem Flight.raise_context (f : Flight) (x : Flags) : (f.raise x).context = f.context := rfl
@[simp] theorem Flight.raise_gallery (f : Flight) (x : Flags) : (f.raise x).gallery = f.gallery := rfl
@[simp] theorem Flight.raise_hall (f : Flight) (x : Flags) : (f.raise x).hall = f.hall := rfl
@[simp] theorem Flight.raise_index (f : Flight) (x : Flags) : (f.raise x).index = f.index := rfl
@[simp] theorem Flight.raise_task (f : Flight) (x : Flags) : (f.raise x).task = f.task := rfl
@[simp] theorem Flight.raise_core (f : Flight) (x : Flags) : (f.raise x).core = f.core := rfl
@[simp] theorem Flight.raise_quarter (f : Flight) (x : Flags) : (f.raise x).quarter = f.quarter := rfl
@[simp] theorem Flight.raise_slot (f : Flight) (x : Flags) : (f.raise x).slot = f.slot := rfl
@[simp] theorem Flight.raise_age (f : Flight) (x : Flags) : (f.raise x).age = f.age := rfl
@[simp] theorem Flight.raise_lane (f : Flight) (x : Flags) : (f.raise x).lane = f.lane := rfl
@[simp] theorem Flight.raise_narrow (f : Flight) (x : Flags) : (f.raise x).narrow = f.narrow := rfl
@[simp] theorem Flight.raise_level (f : Flight) (x : Flags) : (f.raise x).level = f.level := rfl
@[simp] theorem Flight.raise_threads (f : Flight) (x : Flags) : (f.raise x).threads = f.threads := rfl
@[simp] theorem Flight.raise_regs (f : Flight) (x : Flags) : (f.raise x).regs = f.regs := rfl
@[simp] theorem Flight.raise_sb (f : Flight) (x : Flags) : (f.raise x).sb = f.sb := rfl
@[simp] theorem Flight.raise_flags (f : Flight) (x : Flags) : (f.raise x).flags = f.flags := rfl
@[simp] theorem Flight.raise_window (f : Flight) (x : Flags) : (f.raise x).window = f.window := rfl
@[simp] theorem Flight.raise_ctl (f : Flight) (x : Flags) : (f.raise x).ctl = { f.ctl with fexc := f.ctl.fexc ||| x } := rfl
@[simp] theorem Flight.raise_fairC (f : Flight) (x : Flags) : (f.raise x).fairC = f.fairC := rfl
@[simp] theorem Flight.raise_turn (f : Flight) (x : Flags) : (f.raise x).turn = f.turn := rfl
@[simp] theorem Flight.raise_turnBase (f : Flight) (x : Flags) : (f.raise x).turnBase = f.turnBase := rfl
@[simp] theorem Flight.raise_fairDue (f : Flight) (x : Flags) : (f.raise x).fairDue = f.fairDue := rfl
@[simp] theorem Flight.raise_clause (f : Flight) (x : Flags) : (f.raise x).clause = f.clause := rfl
@[simp] theorem Flight.raise_body (f : Flight) (x : Flags) : (f.raise x).body = f.body := rfl
@[simp] theorem Flight.raise_stall (f : Flight) (x : Flags) : (f.raise x).stall = f.stall := rfl
@[simp] theorem Flight.raise_frozen (f : Flight) (x : Flags) : (f.raise x).frozen = f.frozen := rfl
@[simp] theorem Flight.raise_debugFrozen (f : Flight) (x : Flags) : (f.raise x).debugFrozen = f.debugFrozen := rfl
@[simp] theorem Flight.raise_bpSkip (f : Flight) (x : Flags) : (f.raise x).bpSkip = f.bpSkip := rfl
@[simp] theorem Flight.raise_slip (f : Flight) (x : Flags) : (f.raise x).slip = f.slip := rfl
@[simp] theorem Flight.raise_yieldEnd (f : Flight) (x : Flags) : (f.raise x).yieldEnd = f.yieldEnd := rfl
@[simp] theorem Flight.raise_pollHold (f : Flight) (x : Flags) : (f.raise x).pollHold = f.pollHold := rfl
@[simp] theorem Flight.raise_pollsOut (f : Flight) (x : Flags) : (f.raise x).pollsOut = f.pollsOut := rfl
@[simp] theorem Flight.raise_planes (f : Flight) (x : Flags) : (f.raise x).planes = f.planes := rfl
@[simp] theorem Flight.raise_wantPlanes (f : Flight) (x : Flags) : (f.raise x).wantPlanes = f.wantPlanes := rfl
@[simp] theorem Flight.raise_entries (f : Flight) (x : Flags) : (f.raise x).entries = f.entries := rfl
@[simp] theorem Flight.raise_late (f : Flight) (x : Flags) : (f.raise x).late = f.late := rfl
@[simp] theorem Flight.raise_typical (f : Flight) (x : Flags) : (f.raise x).typical = f.typical := rfl
@[simp] theorem Flight.raise_peak (f : Flight) (x : Flags) : (f.raise x).peak = f.peak := rfl
@[simp] theorem Flight.raise_pyield (f : Flight) (x : Flags) : (f.raise x).pyield = f.pyield := rfl
@[simp] theorem Flight.raise_waiting (f : Flight) (x : Flags) : (f.raise x).waiting = f.waiting := rfl
@[simp] theorem Flight.raise_overdue (f : Flight) (x : Flags) : (f.raise x).overdue = f.overdue := rfl
@[simp] theorem Flight.raise_score (f : Flight) (x : Flags) : (f.raise x).score = f.score := rfl
@[simp] theorem Flight.raise_sig (f : Flight) (x : Flags) : (f.raise x).sig = f.sig := rfl
@[simp] theorem Flight.raise_sigq (f : Flight) (x : Flags) : (f.raise x).sigq = f.sigq := rfl
@[simp] theorem Flight.raise_seed (f : Flight) (x : Flags) : (f.raise x).seed = f.seed := rfl
@[simp] theorem Flight.raise_win (f : Flight) (x : Flags) : (f.raise x).win = f.win := rfl
@[simp] theorem Flight.raise_winSize (f : Flight) (x : Flags) : (f.raise x).winSize = f.winSize := rfl
@[simp] theorem Flight.raise_started (f : Flight) (x : Flags) : (f.raise x).started = f.started := rfl
@[simp] theorem Flight.raise_pubWait (f : Flight) (x : Flags) : (f.raise x).pubWait = f.pubWait := rfl
@[simp] theorem Flight.raise_owed (f : Flight) (x : Flags) : (f.raise x).owed = f.owed := rfl
@[simp] theorem Flight.raise_wrote (f : Flight) (x : Flags) : (f.raise x).wrote = f.wrote := rfl
@[simp] theorem Flight.raise_waitFrom (f : Flight) (x : Flags) : (f.raise x).waitFrom = f.waitFrom := rfl
@[simp] theorem Flight.raise_waitHeld (f : Flight) (x : Flags) : (f.raise x).waitHeld = f.waitHeld := rfl
@[simp] theorem Flight.raise_lowered (f : Flight) (x : Flags) : (f.raise x).lowered = f.lowered := rfl
@[simp] theorem Flight.raise_leaving (f : Flight) (x : Flags) : (f.raise x).leaving = f.leaving := rfl
@[simp] theorem Flight.raise_opEnd (f : Flight) (x : Flags) : (f.raise x).opEnd = f.opEnd := rfl

/-! ## Reading parts of the state back -/

@[simp] theorem State.setCore_core_same (s : State) (c : Nat) (v : Core) : (s.setCore c v).core c = v := by simp [State.core]
theorem State.setCore_core (s : State) (c k : Nat) (v : Core) : (s.setCore c v).core k = if k = c then v else s.core k := by
  simp only [State.core, State.setCore_cores, mgetD_mset]
@[simp] theorem State.setDie_die_same (s : State) (d : Nat) (v : Die) : (s.setDie d v).die d = v := by simp [State.die]
theorem State.setDie_die (s : State) (d k : Nat) (v : Die) : (s.setDie d v).die k = if k = d then v else s.die k := by
  simp only [State.die, State.setDie_dies, mgetD_mset]
@[simp] theorem State.setCluster_cluster_same (s : State) (c : Nat) (v : Cluster) : (s.setCluster c v).cluster c = v := by
  simp [State.cluster]
@[simp] theorem State.setCtxt_ctxt_same (s : State) (c : Nat) (v : Context) : (s.setCtxt c v).ctxt c = v := by
  simp [State.ctxt]
@[simp] theorem State.setQueue_queue_same (s : State) (q : Nat) (v : Queue) : (s.setQueue q v).queue q = v := by
  simp [State.queue]
@[simp] theorem State.setQuarter_quarter_same (s : State) (c q : Nat) (v : Quarter) : (s.setQuarter c q v).quarter c q = v := by
  simp [State.quarter, State.setQuarter]

theorem State.wake_flight (s : State) (w : Nat) :
    mget s.wake.flights w = (mget s.flights w).map (fun f => { f with stall := none }) := mget_mmapv _ _ _

end Sys2Proof.Machine
end

