-- ==== Sys2Proof/Laws/Ops.lean ====
section
/-! SUPPORT. What the shared operations can do: counting and occupying the datapath, moving past an operation, running one, and
writing registers. -/

namespace Sys2Proof.Machine

/-! ## Cores: counting and occupying -/

/-- A state that differs in event counters of cores and in the occupancy of flight f's quarter alone. -/
structure Busy (f : Flight) (s t : State) : Prop where
  rest : t = { s with cores := t.cores }
  core : ∀ k, t.core k = { s.core k with cntV := (t.core k).cntV, quarters := (t.core k).quarters }
  quarter : OnlyOccupied s t f

theorem OnlyOccupied.refl (s : State) (f : Flight) : OnlyOccupied s s f := fun k q => by split <;> rfl

theorem OnlyOccupied.trans {s t v : State} {f : Flight} (a : OnlyOccupied s t f) (b : OnlyOccupied t v f) : OnlyOccupied s v f := by
  intro k q
  have ha := a k q
  have hb := b k q
  split at hb
  · next h =>
    rw [if_pos h] at ha ⊢
    rw [ha] at hb; exact hb
  · next h => rw [if_neg h] at ha ⊢; rw [hb, ha]

theorem Busy.refl (f : Flight) (s : State) : Busy f s s := ⟨rfl, fun _ => rfl, .refl s f⟩

theorem Busy.trans {f : Flight} {s t v : State} (a : Busy f s t) (b : Busy f t v) : Busy f s v := by
  refine ⟨?_, fun k => ?_, a.quarter.trans b.quarter⟩
  · have h := b.rest; rw [a.rest] at h; exact h
  · have h := b.core k; rw [a.core k] at h; exact h

theorem busy_setCore {f : Flight} {s : State} {c : Nat} {v : Core} (h : v = { s.core c with cntV := v.cntV }) :
    Busy f s (s.setCore c v) := by
  have hc : ∀ k, ((s.setCore c v).core k).quarters = (s.core k).quarters := fun k => by
    rw [State.setCore_core]
    split
    · next e => subst e; rw [h]
    · rfl
  refine ⟨rfl, fun k => ?_, fun k q => ?_⟩
  · rw [State.setCore_core]
    split
    · next e => subst e; rw [h]
    · rfl
  · have e : (s.setCore c v).quarter k q = s.quarter k q := by unfold State.quarter; rw [hc]
    rw [e]; split <;> rfl

theorem busy_count (f g : Flight) (s : State) (e n : Nat) : Busy f s (s.count g e n) := by
  unfold State.count
  split
  · exact busy_setCore rfl
  · exact .refl f s

theorem busy_setQuarter (f : Flight) (s : State) (n : Nat) :
    Busy f s (s.setQuarter f.core f.quarter { s.quarter f.core f.quarter with freeAt := n }) := by
  refine ⟨rfl, fun k => ?_, fun k q => ?_⟩
  · unfold State.setQuarter
    rw [State.setCore_core]
    split
    · next e => subst e; rfl
    · rfl
  · unfold State.setQuarter State.quarter
    rw [State.setCore_core]
    by_cases hk : k = f.core
    · subst hk
      by_cases hq : q = f.quarter
      · subst hq; simp [mgetD, mget_mset_same]
      · simp [mgetD, mget_mset_ne _ _ hq, hq]
    · simp [hk]

theorem busy_occupy (s : State) (f : Flight) (c : ClauseRun) (r : OpRegs) : Busy f s (s.occupy f c r) := by
  unfold State.occupy
  exact (((((((busy_setQuarter ..).trans (busy_count ..)).trans (busy_count ..)).trans
    (busy_count ..)).trans (busy_count ..)).trans (busy_count ..)).trans (busy_count ..))

theorem busy_countMeets (f g : Flight) (s : State) (ms : List (Nat × Meet)) : Busy f s (s.countMeets g ms) := by
  induction ms generalizing s with
  | nil => exact .refl f s
  | cons m ms ih => exact (busy_count f g s _ _).trans (ih _)

theorem Busy.flights {f : Flight} {s t : State} (h : Busy f s t) : t.flights = s.flights := by rw [h.rest]

/-! ## Threads -/

theorem Moved.refl (t : Thread) : Moved t t := rfl
theorem Moved.trans {t t' t'' : Thread} (a : Moved t t') (b : Moved t' t'') : Moved t t'' := by
  unfold Moved at *; rw [a] at b; exact b

theorem Flight.thread_modThread (f : Flight) (i j : Nat) (g : Thread → Thread) :
    (f.modThread i g).thread j = if j = i ∧ (mget f.threads i).isSome then g (f.thread i) else f.thread j := by
  simp only [Flight.thread, Flight.modThread_threads, mgetD, mget_mmod]
  by_cases h : j = i
  · subst h; simp only [if_true, true_and]; cases e : mget f.threads j <;> simp
  · simp [h]

/-- What a change of several threads does to each, given what it does to one. -/
theorem Flight.modThreads_rel {R : Thread → Thread → Prop} (refl : ∀ t, R t t) (trans : ∀ {a b c}, R a b → R b c → R a c)
    {g : Thread → Thread} (h : ∀ t, R t (g t)) (l : List Nat) (f : Flight) (i : Nat) :
    R (f.thread i) ((f.modThreads l g).thread i) := by
  induction l generalizing f with
  | nil => exact refl _
  | cons j l ih =>
    refine trans ?_ (ih (f.modThread j g))
    rw [Flight.thread_modThread]
    split
    · next e => rw [e.1]; exact h _
    · exact refl _

theorem Flight.modThreads_rest (l : List Nat) (g : Thread → Thread) (f : Flight) :
    f.modThreads l g = { f with threads := (f.modThreads l g).threads } := by
  induction l generalizing f with
  | nil => rfl
  | cons j l ih => exact ih (f.modThread j g)

/-! ## Moving past an operation -/

/-- A flight changed in where its threads go on and the progress of its clause alone. -/
structure Passed (f g : Flight) : Prop where
  rest : g = { f with threads := g.threads, clause := g.clause, body := g.body, turn := g.turn
                      fairC := g.fairC, fairDue := g.fairDue, stall := g.stall }
  thread : ∀ i, Moved (f.thread i) (g.thread i)

theorem Passed.trans {f g h : Flight} (a : Passed f g) (b : Passed g h) : Passed f h :=
  ⟨by have e := b.rest; rw [a.rest] at e; exact e, fun i => (a.thread i).trans (b.thread i)⟩

theorem passed_of_eq {f g : Flight} (h : g = { f with clause := g.clause, body := g.body, turn := g.turn, fairC := g.fairC
                                                      fairDue := g.fairDue, stall := g.stall }) : Passed f g := by
  refine ⟨by rw [h], fun i => ?_⟩
  rw [h]; exact .refl _

theorem passed_fairness (f : Flight) (c : ClauseRun) (e : Bool) : Passed f (f.fairness c e) := by
  apply passed_of_eq
  unfold Flight.fairness
  dsimp only
  repeat' split
  all_goals rfl

theorem passed_modThreads (f : Flight) (l : List Nat) {g : Thread → Thread} (h : ∀ t, Moved t (g t)) :
    Passed f (f.modThreads l g) :=
  ⟨by rw [Flight.modThreads_rest], Flight.modThreads_rel Moved.refl Moved.trans h l f⟩

theorem passed_endBody (f : Flight) (b : BodyRun) (a : BitVec 64) (m : List Nat) : Passed f (f.endBody b a m) :=
  (passed_modThreads f _ (g := fun t => { t with pc := a, fromOp := 0, fromBody := none }) (fun _ => rfl)).trans (passed_of_eq rfl)

theorem passed_endClause (f : Flight) (c : ClauseRun) : Passed f (f.endClause c) := by
  unfold Flight.endClause
  split
  · exact ((passed_modThreads f _ (g := fun t => { t with pc := c.after, fromOp := 0, fromBody := none })
      (fun _ => rfl)).trans (passed_of_eq rfl)).trans (passed_fairness _ _ _)
  · next b _ =>
    dsimp only
    split
    · exact (passed_of_eq (f := f) rfl).trans (passed_fairness _ _ _)
    · split
      · exact (passed_of_eq (f := f) rfl).trans (passed_fairness _ _ _)
      · split
        · exact (passed_of_eq (f := f) rfl).trans (passed_fairness _ _ _)
        · exact ((passed_endBody f b _ _).trans (passed_of_eq rfl)).trans (passed_fairness _ _ _)

theorem passed_advance (f : Flight) (c : ClauseRun) : Passed f (f.advance c) := by
  unfold Flight.advance
  split
  · exact passed_of_eq rfl
  · exact passed_endClause f c

/-- A flight that has moved past an operation of clause c: it may also be chosen last for a while, where the clause yielded (R120). -/
structure Gone (f g : Flight) (c : ClauseRun) : Prop where
  rest : g = { f with threads := g.threads, clause := g.clause, body := g.body, turn := g.turn
                      fairC := g.fairC, fairDue := g.fairDue, stall := g.stall, yieldEnd := g.yieldEnd }
  thread : ∀ i, Moved (f.thread i) (g.thread i)
  yield : c.yielded = false → g.yieldEnd = f.yieldEnd

theorem Passed.gone {f g : Flight} (h : Passed f g) (c : ClauseRun) : Gone f g c :=
  ⟨by have e := h.rest; rw [e], h.thread, fun _ => by rw [h.rest]⟩

theorem gone_moveOn (f : Flight) (c : ClauseRun) (now : Nat) (x : Option Stall) :
    Gone f { f.moveOn c now with stall := x } c := by
  have p := passed_advance f c
  unfold Flight.moveOn
  dsimp only
  split
  · next h =>
    refine ⟨?_, p.thread, fun hy => ?_⟩
    · have e := p.rest
      exact congrArg (fun g : Flight => { g with stall := x, yieldEnd := now + 32 }) e
    · rw [hy] at h; simp at h
  · have hy : (f.advance c).yieldEnd = f.yieldEnd := by rw [p.rest]
    exact ⟨(congrArg (fun g : Flight => { g with stall := x }) p.rest).trans (by rw [hy]), p.thread, fun _ => hy⟩

/-- The end of an operation: the flight moves on, and no flight holds any more. -/
theorem finishOp_eq {s : State} {u : Nat} {f : Flight} {c : ClauseRun} (h : mget s.flights u = some f)
    (hc : f.clause = some c) : s.finishOp u = (s.setFlight u (f.moveOn c (s.cycAt f.core))).wake := by
  simp only [State.finishOp, h, hc]

theorem finishOp_flight {s : State} {u : Nat} {f : Flight} {c : ClauseRun} (h : mget s.flights u = some f)
    (hc : f.clause = some c) :
    mget (s.finishOp u).flights u = some { f.moveOn c (s.cycAt f.core) with stall := none } := by
  rw [finishOp_eq h hc, State.wake_flight]; simp

/-- A state that differs from s by a change of flight u and in counters and quarters alone, once the operation has ended. -/
theorem quiet_finishOp {s t : State} {u : Nat} {f0 f : Flight} (h0 : mget s.flights u = some f0) (b : Busy f0 (s.setFlight u f) t)
    {c : ClauseRun} (hc : f.clause = some c) : Quiet s (t.finishOp u) u := by
  have hf : mget t.flights u = some f := by rw [b.flights]; simp
  rw [finishOp_eq hf hc]
  refine ⟨?_, fun k => ?_, fun g hg => ?_, fun w hw => ?_⟩
  · have h := b.rest
    show ({ t.setFlight u (f.moveOn c (t.cycAt f.core)) with flights := _ } : State) = _
    rw [h]; rfl
  · exact b.core k
  · rw [h0] at hg; rw [← Option.some.inj hg]; exact b.quarter
  · rw [State.wake_flight, State.setFlight_flights, mget_mset_ne _ _ hw, b.flights, State.setFlight_flights, mget_mset_ne _ _ hw]

/-! ## Running an operation -/

theorem firstLate_nil_of {ls : List LateFault} (h : ls = []) : firstLate ls = none := by subst h; rfl

/-- The conditions under which an operation executes are those of the checks before it. -/
theorem regCheck_ready {s : State} {u : Nat} {f : Flight} {c : ClauseRun} {r : OpRegs} (h : Ready s u f c r) :
    regCheck s u f c r = none := by
  have l : readLate f r = none := by
    apply firstLate_nil_of
    rw [List.filter_eq_nil_iff]
    intro x hx
    simp only [List.any_eq_true, not_exists, not_and]
    intro n hn hc
    exact h.late x hx n hn (by simpa using hc)
  have b : (r.srcs ++ r.dsts).any (fun n => f.sb.contains n) = false := by
    rw [List.any_eq_false]
    intro n hn hc
    exact h.scoreboard n hn (by simpa using hc)
  have p : (Nat.blt f.peak (footprintAfter f c r) && Nat.blt f.footprint (footprintAfter f c r)) = false := by
    rw [Bool.and_eq_false_iff, Bool.eq_false_iff, Bool.eq_false_iff, ne_eq, ne_eq, Nat.blt_eq, Nat.blt_eq]
    rcases h.peak with h | h
    · exact .inl (by omega)
    · exact .inr (by omega)
  have m := h.pool
  unfold regCheck
  rw [l]
  unfold footprintAfter at p m
  simp only [b, p, m, Bool.false_eq_true, if_false, Bool.not_true]

/-- An operation that executes does what its own effect says. -/
theorem runOp_ready {s : State} {u : Nat} {f : Flight} {c : ClauseRun} (a : Issuing s u f c) {regs : Flight → OpRegs}
    (h : Ready s u f c (regs f)) (k : Nat → Flight → ClauseRun → Eff) :
    runOp s regs k = settle s u f c (regs f).srcs (k u f c) := by
  simp only [runOp, a.cur, a.flight, a.clause, regCheck_ready h, Option.getD_none]

/-! ## Registers -/

theorem Tri.get_zero {α : Type} (t : Tri α) : t.get 0 = t.x0 := rfl

theorem Flight.readReg_eq (f : Flight) (n i k : Nat) : f.readReg n i k =
    match mget f.regs n with
    | none => 0
    | some (.uni r0 r1 r2) => if f.lane then r0 else (Tri.mk r0 r1 r2).get k
    | some (.lanes m) => mgetD m (f.laneOf i k) 0 := rfl

theorem mgetD_range (g : Nat → Word) (n l : Nat) (h : l < n) :
    mgetD ((List.range n).map (fun l => (l, g l))) l 0 = g l := by
  have key : ∀ (xs : List Nat), l ∈ xs → mget (xs.map (fun l => (l, g l))) l = some (g l) := by
    intro xs
    induction xs with
    | nil => simp
    | cons x xs ih =>
      intro hx
      simp only [List.map_cons, mget]
      by_cases e : x = l
      · subst e; simp
      · simp only [beq_iff_eq, e, if_false]
        exact ih (by simpa [Ne.symm e] using hx)
  simp [mgetD, key _ (List.mem_range.mpr h)]

theorem tri_get_mod {t : Tri Word} {i k : Nat} (h : k < 3) : t.get ((3 * i + k) % 3) = t.get k := by
  congr 1; omega

/-- Expanding a register changes no live lane. -/
theorem Flight.expand_read (f : Flight) (r : RegVal) (i k : Nat) (hi : i < slots f) (hk : k < 3) :
    mgetD (f.expand r) (f.laneOf i k) 0 =
      match r with
      | .uni r0 r1 r2 => if f.lane then r0 else (Tri.mk r0 r1 r2).get k
      | .lanes m => mgetD m (f.laneOf i k) 0 := by
  cases r with
  | lanes m => rfl
  | uni r0 r1 r2 =>
    simp only [Flight.expand]
    have hl : f.laneOf i k < 96 := by
      simp only [Flight.laneOf, slots] at *; split at hi <;> simp_all <;> omega
    rw [mgetD_range _ _ _ hl]
    split
    · rfl
    · next h => simp only [Flight.laneOf, h]; exact tri_get_mod hk

/-- Writing one thread's copies: that thread's lanes hold them. -/
theorem Flight.setLanes_same (f : Flight) (i : Nat) (v : Tri Word) (m : NMap Word) (k : Nat) (hk : k < 3) :
    mgetD (f.setLanes i v m) (f.laneOf i k) 0 = v.get (shown f k) := by
  simp only [Flight.setLanes, Flight.laneOf, shown]
  split
  · simp [Tri.get]
  · match k, hk with
    | 0, _ => rw [mgetD_mset_ne _ _ _ (by omega), mgetD_mset_ne _ _ _ (by omega)]; simp [Tri.get]
    | 1, _ => rw [mgetD_mset_ne _ _ _ (by omega)]; simp [Tri.get]
    | 2, _ => simp [Tri.get]

/-- Writing one thread's copies leaves the others' lanes. -/
theorem Flight.setLanes_ne (f : Flight) {i j : Nat} (h : i ≠ j) (v : Tri Word) (m : NMap Word) (k : Nat) (hk : k < 3) :
    mgetD (f.setLanes j v m) (f.laneOf i k) 0 = mgetD m (f.laneOf i k) 0 := by
  simp only [Flight.setLanes, Flight.laneOf]
  split
  · rw [mgetD_mset_ne _ _ _ h]
  · rw [mgetD_mset_ne _ _ _ (by omega), mgetD_mset_ne _ _ _ (by omega), mgetD_mset_ne _ _ _ (by omega)]

theorem Flight.foldLanes_mem (f : Flight) (val : Nat → Tri Word) (k : Nat) (hk : k < 3) (i : Nat) :
    ∀ (l : List Nat) (m : NMap Word), i ∈ l →
      mgetD ((l.map (fun j => (j, val j))).foldl (fun m p => f.setLanes p.1 p.2 m) m) (f.laneOf i k) 0
        = (val i).get (shown f k) := by
  intro l
  induction l with
  | nil => simp
  | cons j l ih =>
    intro m h
    simp only [List.map_cons, List.foldl_cons]
    by_cases hl : i ∈ l
    · exact ih _ hl
    · have hij : i = j := by simpa [hl] using h
      subst hij
      have out : ∀ (xs : List Nat) (m : NMap Word), i ∉ xs →
          mgetD ((xs.map (fun j => (j, val j))).foldl (fun m p => f.setLanes p.1 p.2 m) m) (f.laneOf i k) 0
            = mgetD m (f.laneOf i k) 0 := by
        intro xs
        induction xs with
        | nil => intros; rfl
        | cons x xs ihx =>
          intro m hx
          simp only [List.mem_cons, not_or] at hx
          simp only [List.map_cons, List.foldl_cons]
          rw [ihx _ hx.2, Flight.setLanes_ne f hx.1 _ _ _ hk]
      rw [out l _ hl, Flight.setLanes_same f i _ _ k hk]

theorem Flight.foldLanes_not (f : Flight) (vs : List (Nat × Tri Word)) (k : Nat) (hk : k < 3) (i : Nat) :
    ∀ (m : NMap Word), i ∉ vs.map (·.1) →
      mgetD (vs.foldl (fun m p => f.setLanes p.1 p.2 m) m) (f.laneOf i k) 0 = mgetD m (f.laneOf i k) 0 := by
  induction vs with
  | nil => intros; rfl
  | cons x xs ih =>
    intro m h
    simp only [List.map_cons, List.mem_cons, not_or] at h
    rw [List.foldl_cons, ih _ h.2, Flight.setLanes_ne f h.1 _ _ _ hk]

/-- A register holds w in the threads of a list. -/
def Holds (f : Flight) (n : Nat) (act : List Nat) (w : Nat → Tri Word) : Prop :=
  ∀ a ∈ act, ∀ k < 3, f.readReg n a k = (w a).get (shown f k)

theorem Flight.writeReg_holds (f : Flight) (u all : Bool) (n : Nat) (act : List Nat) (w : Nat → Tri Word)
    (hu : u = true → ∀ a ∈ act, ∀ b ∈ act, w a = w b) :
    Holds (f.writeReg u all n (act.map (fun a => (a, w a)))) n act w := by
  intro a ha k hk
  cases act with
  | nil => cases ha
  | cons b act =>
    simp only [Flight.readReg_eq, Flight.writeReg_regs, mget_mset_same, Flight.regAfter, List.map_cons]
    cases hc : u && all with
    | true =>
      have hu' : u = true := by cases u <;> simp_all
      have e := hu' |> hu
      have e := e a ha b (List.mem_cons_self ..)
      rw [e]
      by_cases hl : f.lane = true
      · simp [shown, hl, Tri.get]
      · simp [shown, hl]
    | false =>
      simp only
      have h := Flight.foldLanes_mem f w k hk a (b :: act)
        (match mget f.regs n with | none => [] | some r => f.expand r) ha
      exact h

theorem Flight.writeRegs_name (u all : Bool) :
    ∀ (ns : List Nat) (vss : List (List (Nat × Tri Word))) (f : Flight) {n : Nat}, n ∉ ns →
      mget (f.writeRegs u all ns vss).regs n = mget f.regs n := by
  intro ns
  induction ns with
  | nil => intro vss f n _; cases vss <;> rfl
  | cons m ns ih =>
    intro vss f n h
    simp only [List.mem_cons, not_or] at h
    cases vss with
    | nil => rfl
    | cons vs vss =>
      simp only [Flight.writeRegs]
      rw [ih vss _ h.2, Flight.writeReg_regs, mget_mset_ne _ _ h.1]

theorem Flight.writeRegs_rest (u all : Bool) :
    ∀ (ns : List Nat) (vss : List (List (Nat × Tri Word))) (f : Flight),
      f.writeRegs u all ns vss = { f with regs := (f.writeRegs u all ns vss).regs } := by
  intro ns
  induction ns with
  | nil => intro vss f; cases vss <;> rfl
  | cons m ns ih =>
    intro vss f
    cases vss with
    | nil => rfl
    | cons vs vss => exact ih vss (f.writeReg u all m vs)

theorem Flight.writeRegs_lane (u all : Bool) (ns : List Nat) (vss : List (List (Nat × Tri Word))) (f : Flight) :
    (f.writeRegs u all ns vss).lane = f.lane := by rw [Flight.writeRegs_rest]

theorem Flight.readReg_congr {f g : Flight} (hl : g.lane = f.lane) {n : Nat} (h : mget g.regs n = mget f.regs n) (i k : Nat) :
    g.readReg n i k = f.readReg n i k := by
  simp only [Flight.readReg_eq, h, Flight.laneOf, hl]

/-- The last of the destinations with a name holds its values. -/
theorem Flight.writeRegs_holds (u all : Bool) (act : List Nat) :
    ∀ (ns : List Nat) (vss : List (List (Nat × Tri Word))) (f : Flight) (j n : Nat) (w : Nat → Tri Word),
      ns[j]? = some n → (∀ j', j < j' → ns[j']? ≠ some n) → vss[j]? = some (act.map (fun a => (a, w a))) →
      (u = true → ∀ a ∈ act, ∀ b ∈ act, w a = w b) → Holds (f.writeRegs u all ns vss) n act w := by
  intro ns
  induction ns with
  | nil => intro vss f j n w h; simp at h
  | cons m ns ih =>
    intro vss f j n w hn hl hv hu
    cases vss with
    | nil => simp at hv
    | cons vs vss =>
      cases j with
      | zero =>
        simp only [List.getElem?_cons_zero, Option.some.injEq] at hn hv
        subst hn hv
        have hnot : m ∉ ns := by
          intro hm
          obtain ⟨j', hj⟩ := List.getElem?_of_mem hm
          exact hl (j' + 1) (Nat.succ_pos _) (by simpa using hj)
        intro a ha k hk
        have h := Flight.writeReg_holds f u all m act w hu a ha k hk
        simp only [Flight.writeRegs]
        rw [Flight.readReg_congr (Flight.writeRegs_lane ..) (Flight.writeRegs_name u all ns vss _ hnot), h]
        simp only [shown, Flight.writeRegs_lane]
      | succ j =>
        simp only [List.getElem?_cons_succ] at hn hv
        exact ih vss (f.writeReg u all m vs) j n w hn (fun j' hj => by
          have := hl (j' + 1) (Nat.succ_lt_succ hj); simpa using this) hv hu

/-- Writing some threads leaves the registers of another, where not every live thread is written. -/
theorem Flight.writeReg_other (f : Flight) (u : Bool) (n m i k : Nat) (vs : List (Nat × Tri Word)) (hi : i < slots f)
    (hk : k < 3) (h : i ∉ vs.map (·.1)) : (f.writeReg u false n vs).readReg m i k = f.readReg m i k := by
  by_cases e : m = n
  · subst e
    simp only [Flight.readReg_eq, Flight.writeReg_regs, mget_mset_same, Flight.regAfter, Bool.and_false]
    have h' := Flight.foldLanes_not f vs k hk i
      (match mget f.regs m with | none => [] | some r => f.expand r) h
    refine h'.trans ?_
    cases hr : mget f.regs m with
    | none => rfl
    | some r => exact (Flight.expand_read f r i k hi hk).trans (by cases r <;> rfl)
  · exact Flight.readReg_congr (f := f) (g := f.writeReg u false n vs) rfl (mget_mset_ne _ _ e) i k

theorem Flight.writeRegs_other (u : Bool) (i k : Nat) (hk : k < 3) :
    ∀ (ns : List Nat) (vss : List (List (Nat × Tri Word))) (f : Flight) (m : Nat), i < slots f →
      (∀ vs ∈ vss, i ∉ vs.map (·.1)) → (f.writeRegs u false ns vss).readReg m i k = f.readReg m i k := by
  intro ns
  induction ns with
  | nil => intro vss f m _ _; cases vss <;> rfl
  | cons x ns ih =>
    intro vss f m hi h
    cases vss with
    | nil => rfl
    | cons vs vss =>
      simp only [Flight.writeRegs]
      rw [ih vss (f.writeReg u false x vs) m hi (fun v hv => h v (List.mem_cons_of_mem _ hv))]
      exact Flight.writeReg_other f u x m i k vs hi hk (h vs (List.mem_cons_self ..))

/-! ## An operation's destinations -/

theorem spread_eq (u : Bool) (c : ClauseRun) (g : Nat → List (Tri Word)) :
    spread u c.act g = c.act.map (fun a => (a, g (computes u c a))) := by
  cases u with
  | false => simp [spread, computes]
  | true =>
    simp only [computes, lowest, if_true]
    cases c.act with
    | nil => rfl
    | cons x xs => rfl

/-- The j-th result of a thread. -/
def nth (l : List (Tri Word)) (j : Nat) : Tri Word := (l[j]?).getD (Tri.rep 0)

theorem column_spread (u : Bool) (c : ClauseRun) (g : Nat → List (Tri Word)) (j : Nat) :
    column (spread u c.act g) j = c.act.map (fun a => (a, nth (g (computes u c a)) j)) := by
  simp only [column, spread_eq, List.map_map, nth]; rfl

theorem released_rest (f : Flight) (c : ClauseRun) (r : OpRegs) :
    released f c r = { f with regs := (released f c r).regs } := by
  unfold released; split <;> rfl

theorem foldl_mdel_ne {n : Nat} : ∀ (ns : List Nat) (m : NMap RegVal), n ∉ ns → mget (ns.foldl mdel m) n = mget m n := by
  intro ns
  induction ns with
  | nil => intros; rfl
  | cons x ns ih =>
    intro m h
    simp only [List.mem_cons, not_or] at h
    rw [List.foldl_cons, ih _ h.2, mget_mdel_ne _ h.1]

theorem foldl_mdel_mem {n : Nat} : ∀ (ns : List Nat) (m : NMap RegVal), msorted m = true → n ∈ ns →
    mget (ns.foldl mdel m) n = none := by
  intro ns
  induction ns with
  | nil => intro _ _ h; cases h
  | cons x ns ih =>
    intro m hm h
    rw [List.foldl_cons]
    by_cases hn : n ∈ ns
    · exact ih _ (msorted_mdel hm x) hn
    · rcases List.mem_cons.1 h with e | e
      · rw [foldl_mdel_ne _ _ hn, e]; exact mget_mdel_same hm x
      · exact absurd e hn

theorem released_name (f : Flight) (c : ClauseRun) (r : OpRegs) {n : Nat} (h : allActive f c = true → n ∉ r.rels) :
    mget (released f c r).regs n = mget f.regs n := by
  unfold released
  split
  · next e => exact foldl_mdel_ne _ _ (h e)
  · rfl

theorem allActive_false {f : Flight} {c : ClauseRun} {i : Nat} (hl : i ∈ f.live) (ha : i ∉ c.act) : allActive f c = false := by
  unfold allActive
  rw [Bool.eq_false_iff]
  intro h
  rw [beq_iff_eq] at h
  exact ha (h ▸ hl)

theorem writeDests_rest (f : Flight) (c : ClauseRun) (r : OpRegs) (vals : List (Nat × List (Tri Word))) :
    writeDests f c r vals = { f with regs := (writeDests f c r vals).regs } := by
  have key : ∀ g h : Flight, g = { f with regs := g.regs } → h = { g with regs := h.regs } → h = { f with regs := h.regs } :=
    fun g h a b => by rw [a] at b; exact b
  exact key _ _ (released_rest f c r) (Flight.writeRegs_rest ..)

/-- What writing an operation's destinations does: the last destination of a name holds its results, and the registers that
the operation neither writes nor releases, and those of live threads that are not active, stand. -/
theorem writeDests_spec (f : Flight) (c : ClauseRun) (r : OpRegs) (g : Nat → List (Tri Word)) :
    (∀ j n, r.dsts[j]? = some n → (∀ j', j < j' → r.dsts[j']? ≠ some n) →
      Holds (writeDests f c r (spread r.u c.act g)) n c.act (fun a => nth (g (computes r.u c a)) j))
    ∧ (allActive f c = true → msorted f.regs = true → ∀ n ∈ r.rels, n ∉ r.dsts → mget (writeDests f c r (spread r.u c.act g)).regs n = none)
    ∧ RegsKept f (writeDests f c r (spread r.u c.act g)) c r := by
  refine ⟨fun j n hn hl => ?_, fun hall hm n hr hd => ?_, ⟨fun n hd hr => ?_, fun i hi ha hs n k hk => ?_⟩⟩
  · unfold writeDests
    have hj : j < r.dsts.length := by
      rcases Nat.lt_or_ge j r.dsts.length with h | h
      · exact h
      · rw [List.getElem?_eq_none h] at hn; cases hn
    refine Flight.writeRegs_holds _ _ c.act _ _ _ j n _ hn hl ?_ ?_
    · rw [List.getElem?_map, List.getElem?_range hj, Option.map_some, column_spread]
    · intro hu a _ b _; simp only [computes, hu, if_true]
  · unfold writeDests
    rw [Flight.writeRegs_name _ _ _ _ _ hd]
    unfold released
    rw [if_pos hall]
    exact foldl_mdel_mem _ _ hm hr
  · unfold writeDests
    rw [Flight.writeRegs_name _ _ _ _ _ hd, released_name f c r hr]
  · have hall := allActive_false hi ha
    unfold writeDests
    have hrel : released f c r = f := by unfold released; rw [hall]; rfl
    rw [hrel, hall]
    refine Flight.writeRegs_other _ i k hk _ _ f n hs ?_
    intro vs hv
    rw [List.mem_map] at hv
    obtain ⟨j, -, rfl⟩ := hv
    rw [column_spread, List.map_map]
    intro hm
    rw [List.mem_map] at hm
    obtain ⟨a, ha', rfl⟩ := hm
    exact ha ha'

/-! ## Operations that complete -/

theorem settle_done (s : State) (u : Nat) (f : Flight) (c : ClauseRun) (srcs : List Nat) (t : State) :
    settle s u f c srcs (.done t) = .next (t.finishOp u) := rfl

theorem Gone.regs {f g : Flight} {c : ClauseRun} (h : Gone f g c) : g.regs = f.regs := by rw [h.rest]
theorem Gone.lane {f g : Flight} {c : ClauseRun} (h : Gone f g c) : g.lane = f.lane := by rw [h.rest]

theorem Gone.readReg {f g : Flight} {c : ClauseRun} (h : Gone f g c) (n i k : Nat) : g.readReg n i k = f.readReg n i k :=
  Flight.readReg_congr h.lane (by rw [h.regs]) i k

theorem RegsKept.gone {f g h : Flight} {c d : ClauseRun} {r : OpRegs} (a : RegsKept f g c r) (b : Gone g h d) :
    RegsKept f h c r :=
  ⟨fun n hd hr => by rw [b.regs]; exact a.name n hd hr, fun i hi ha hs n k hk => by rw [b.readReg]; exact a.thread i hi ha hs n k hk⟩

theorem Onward.gone {f g h : Flight} {c : ClauseRun} (a : Onward f g) (b : Gone g h c) (hc : g.clause = some c)
    (hy : f.clause.any (·.yielded) = false → c.yielded = false) : Onward f h := by
  refine ⟨?_, fun hf _ => ?_⟩
  · have e := b.rest; have er := b.regs
    rw [a.1] at e; rw [e]
  · rw [b.yield (hy hf)]; exact a.2 hf (by rw [hc]; exact hy hf)

/-- An operation whose effect is done ends in a next state. -/
theorem runOp_done {s : State} {u : Nat} {f : Flight} {c : ClauseRun} (a : Issuing s u f c) {regs : Flight → OpRegs}
    (h : Ready s u f c (regs f)) {k : Nat → Flight → ClauseRun → Eff} {t : State} (e : k u f c = .done t) :
    runOp s regs k = .next (t.finishOp u) := by rw [runOp_ready a h, e]; rfl

/-- What the flight of a finished operation is. -/
theorem finished {s t : State} {u : Nat} {f0 f : Flight} {c : ClauseRun} (b : Busy f0 (s.setFlight u f) t)
    (hc : f.clause = some c) : ∃ g, mget (t.finishOp u).flights u = some g ∧ Gone f g c := by
  have hf : mget t.flights u = some f := by rw [b.flights]; simp
  exact ⟨_, finishOp_flight hf hc, gone_moveOn f c _ _⟩

/-- What an operation does whose own flight becomes g before it moves on. -/
theorem does_of {i : Instr} {s t : State} {u : Nat} {f g own : Flight} {c c' : ClauseRun} {r : OpRegs}
    {val : Nat → Nat → Tri Word} {thr : Nat → Thread} (h0 : mget s.flights u = some f)
    (e : exec i s = .next (t.finishOp u)) (b : Busy f (s.setFlight u g) t) (hc : g.clause = some c') (ho : Onward own g) (hl : own.lane = f.lane)
    (hy : own.clause.any (·.yielded) = false → c'.yielded = false)
    (hv : ∀ j n, r.dsts[j]? = some n → (∀ j', j < j' → r.dsts[j']? ≠ some n) →
      Holds g n c.act (fun a => val j (computes r.u c a)))
    (hr : allActive f c = true → msorted f.regs = true → ∀ n ∈ r.rels, n ∉ r.dsts → mget g.regs n = none)
    (hk : RegsKept f g c r) (ht : ∀ a, (a ∈ c.act → a ∈ f.live) → Moved (thr a) (g.thread a))
    {more : Flight → Prop} (hm : ∀ now, more { g.moveOn c' now with stall := none }) :
    Does i s u f c r val thr own more := by
  obtain ⟨h, hf, hp⟩ := finished b hc
  have hm' : more h := by
    have e := finishOp_flight (s := t) (u := u) (f := g) (c := c') (by rw [b.flights]; simp) hc
    rw [hf] at e; rw [Option.some.inj e]; exact hm _
  refine ⟨_, h, e, hf, fun j n hn hlast x hx k hk3 => ?_, fun ha hm n hn hd => ?_, hk.gone hp, ho.gone hp hc hy,
    fun a ha => (ht a ha).trans (hp.thread a), hm', quiet_finishOp h0 b hc⟩
  · rw [hp.readReg, hv j n hn hlast x hx k hk3]
    simp only [shown, show g.lane = f.lane by rw [ho.1, hl]]
  · rw [hp.regs]; exact hr ha hm n hn hd

theorem clause_yielded {s : State} {u : Nat} {f : Flight} {c : ClauseRun} (a : Issuing s u f c) :
    f.clause.any (·.yielded) = false → c.yielded = false := by rw [a.clause]; exact id

/-- An operation that writes its destinations in its flight and does nothing else. -/
theorem writesRegs_of {i : Instr} {s : State} {u : Nat} {f : Flight} {c : ClauseRun} {r : OpRegs} (a : Issuing s u f c)
    {g : Nat → List (Tri Word)} {t : State} (e : exec i s = .next (t.finishOp u))
    (b : Busy f (s.setFlight u (writeDests f c r (spread r.u c.act g))) t) :
    WritesRegs i s u f c r (fun j x => nth (g x) j) := by
  have rest := writeDests_rest f c r (spread r.u c.act g)
  obtain ⟨hv, hr, hk⟩ := writeDests_spec f c r g
  refine does_of a.flight e b (c' := c) (by rw [rest]; exact a.clause) ⟨by rw [rest], fun _ _ => by rw [rest]⟩ rfl (clause_yielded a) hv hr hk
    (fun i _ => ?_) (fun _ => trivial)
  rw [show (writeDests f c r (spread r.u c.act g)).thread i = f.thread i by rw [rest]; rfl]
  exact Moved.refl _

/-- An operation on registers. -/
theorem regOp_writes {i : Instr} {s : State} {u : Nat} {f : Flight} {c : ClauseRun} (a : Issuing s u f c)
    {regs : Flight → OpRegs} (h : Ready s u f c (regs f)) {g : Flight → Nat → List (Tri Word)}
    (e : exec i s = regOp s regs g) : WritesRegs i s u f c (regs f) (fun j x => nth (g f x) j) :=
  writesRegs_of a (g := g f) (e.trans (runOp_done a h rfl)) (busy_occupy _ _ _ _)

/-- The values may be given otherwise, where they are destinations' and, for threads, the computing ones'. -/
theorem Does.congr {i : Instr} {s : State} {u : Nat} {f own : Flight} {c : ClauseRun} {r : OpRegs} {thr : Nat → Thread}
    {v w : Nat → Nat → Tri Word} (h : Does i s u f c r v thr own)
    (e : ∀ j x k, j < r.dsts.length → k < 3 → (v j x).get (shown f k) = (w j x).get (shown f k)) :
    Does i s u f c r w thr own := by
  obtain ⟨t, g, h1, h2, h3, h4⟩ := h
  refine ⟨t, g, h1, h2, fun j n hn hl x hx k hk => ?_, h4⟩
  have hj : j < r.dsts.length := by
    rcases Nat.lt_or_ge j r.dsts.length with h | h
    · exact h
    · rw [List.getElem?_eq_none h] at hn; cases hn
  rw [h3 j n hn hl x hx k hk, e j _ _ hj hk]

/-- The operand form may be given with another occupancy. -/
theorem Ready.occ {s : State} {u : Nat} {f : Flight} {c : ClauseRun} {r q : OpRegs} (h : Ready s u f c r)
    (e : q = { r with occ := q.occ }) : Ready s u f c q := by
  rw [e]; exact ⟨h.late, h.scoreboard, h.peak, h.pool⟩

theorem Does.occ {i : Instr} {s : State} {u : Nat} {f own : Flight} {c : ClauseRun} {r q : OpRegs} {thr : Nat → Thread}
    {v : Nat → Nat → Tri Word} (h : Does i s u f c r v thr own) (e : q = { r with occ := q.occ }) :
    Does i s u f c q v thr own := by
  rw [e]; obtain ⟨t, g, h1, h2, h3, h4, h5, h6⟩ := h; exact ⟨t, g, h1, h2, h3, h4, ⟨h5.name, h5.thread⟩, h6⟩

/-- An operation on registers, with the values as the rules give them. -/
theorem regOp_gives {i : Instr} {s : State} {u : Nat} {f : Flight} {c : ClauseRun} {r : OpRegs} {v : Nat → Nat → Tri Word}
    (a : Issuing s u f c) (h : Ready s u f c r) {regs : Flight → OpRegs} {g : Flight → Nat → List (Tri Word)}
    (e : exec i s = regOp s regs g) (hr : regs f = { r with occ := (regs f).occ })
    (hv : ∀ j x k, j < r.dsts.length → k < 3 → (nth (g f x) j).get (shown f k) = (v j x).get (shown f k)) :
    WritesRegs i s u f c r v := by
  have w := regOp_writes a (h.occ hr) e
  refine Does.congr (Does.occ w (q := r) ?_) hv
  rw [hr]

/-! ## Names of blocks -/

theorem Flight.block_length (f : Flight) (x n : Nat) : (f.block x n).length = n := by simp [Flight.block]

theorem Flight.block_one (f : Flight) (x : Nat) : f.block x 1 = [f.regName x] := rfl
theorem Flight.block_two (f : Flight) (x : Nat) : f.block x 2 = [f.regName x, f.regName (x + 1)] := rfl

/-- The two names of a pair differ. -/
theorem Flight.regName_succ_ne (f : Flight) (x : Nat) : f.regName (x + 1) ≠ f.regName x := by
  unfold Flight.regName
  split <;> split
  all_goals simp_all
  all_goals omega

/-! ## Operations on threads -/

theorem Flight.live_some {f : Flight} {a : Nat} (h : a ∈ f.live) : (mget f.threads a).isSome = true := by
  simp only [Flight.live, List.mem_map, List.mem_filter] at h
  obtain ⟨p, ⟨hp, _⟩, rfl⟩ := h
  exact mget_isSome_of_mem hp

/-- Changes of several threads, each once or with no further effect a second time. -/
theorem Flight.foldMod_thread (F : Nat → Thread → Thread) (l : List Nat) (f : Flight) (a : Nat)
    (h : l.Nodup ∨ ∀ i t, F i (F i t) = F i t) :
    (l.foldl (fun g i => g.modThread i (F i)) f).thread a
      = if a ∈ l ∧ (mget f.threads a).isSome then F a (f.thread a) else f.thread a := by
  induction l generalizing f with
  | nil => simp
  | cons j l ih =>
    rw [List.foldl_cons, ih _ (h.imp_left fun n => (List.nodup_cons.1 n).2), Flight.thread_modThread]
    have hs : (mget (f.modThread j (F j)).threads a).isSome = (mget f.threads a).isSome := by
      rw [Flight.modThread_threads, mget_mmod]
      split
      · next e => subst e; cases mget f.threads a <;> rfl
      · rfl
    rw [hs]
    by_cases hj : a = j
    · subst hj
      by_cases ho : (mget f.threads a).isSome = true
      · by_cases hm : a ∈ l
        · rcases h with n | i
          · exact absurd hm (List.nodup_cons.1 n).1
          · simp [ho, hm, i]
        · simp [ho, hm]
      · simp [ho]
    · simp [hj]

theorem Flight.foldMod_rest (F : Nat → Thread → Thread) (l : List Nat) (f : Flight) :
    l.foldl (fun g i => g.modThread i (F i)) f
      = { f with threads := (l.foldl (fun g i => g.modThread i (F i)) f).threads } := by
  induction l generalizing f with
  | nil => rfl
  | cons j l ih => rw [List.foldl_cons, ih]; rfl

theorem Flight.setPreds_eq (p : BitVec 4) (v : Nat → Bool) (l : List Nat) (f : Flight) :
    f.setPreds p (l.map fun i => (i, v i))
      = l.foldl (fun g i => g.modThread i fun t => { t with preds := setPredBit t.preds p.toNat (v i) }) f := by
  induction l generalizing f with
  | nil => rfl
  | cons j l ih => exact ih _

theorem setPredBit_twice (x : BitVec 12) (n : Nat) (v : Bool) : setPredBit (setPredBit x n v) n v = setPredBit x n v := by
  unfold setPredBit
  cases v
  · simp only [Bool.false_eq_true, if_false, BitVec.and_assoc, BitVec.and_self]
  · simp only [if_true, BitVec.or_assoc, BitVec.or_self]

/-- An operation that changes its active threads and writes no register. -/
theorem threads_does {i : Instr} {s t : State} {u : Nat} {f : Flight} {c : ClauseRun} {r : OpRegs} (a : Issuing s u f c)
    (hd : r.dsts = []) (F : Nat → Thread → Thread) (hi : c.act.Nodup ∨ ∀ i t, F i (F i t) = F i t)
    (e : exec i s = .next (t.finishOp u))
    (b : Busy f (s.setFlight u (c.act.foldl (fun g i => g.modThread i (F i)) (released f c r))) t)
    (val : Nat → Nat → Tri Word) :
    Does i s u f c r val (fun x => if x ∈ c.act then F x (f.thread x) else f.thread x) f := by
  have h1 := Flight.foldMod_rest F c.act (released f c r)
  have h2 := released_rest f c r
  have hr : (c.act.foldl (fun g i => g.modThread i (F i)) (released f c r)).regs = (released f c r).regs := by rw [h1]
  refine does_of a.flight e b (c' := c) (by rw [h1, h2]; exact a.clause) ⟨by rw [h1, h2], fun _ _ => by rw [h1, h2]⟩ rfl (clause_yielded a)
    ?_ ?_ ⟨?_, ?_⟩ ?_ (fun _ => trivial)
  · intro j n h; rw [hd] at h; cases h
  · intro ha hm n hn _
    rw [hr]; unfold released; rw [if_pos ha]; exact foldl_mdel_mem _ _ hm hn
  · intro n _ h; rw [hr]; exact released_name f c r h
  · intro x hx ha hs n k hk
    refine Flight.readReg_congr (by rw [h1, h2]) ?_ _ _
    rw [hr]; unfold released; rw [allActive_false hx ha]; rfl
  · intro x hx
    rw [Flight.foldMod_thread _ _ _ _ hi]
    have ht : (released f c r).threads = f.threads := by rw [h2]
    have ht' : (released f c r).thread x = f.thread x := by unfold Flight.thread; rw [ht]
    rw [ht, ht']
    by_cases hm : x ∈ c.act
    · simp only [hm, Flight.live_some (hx hm), and_self, if_true]; exact Moved.refl _
    · simp only [hm, false_and, if_false]; exact Moved.refl _

/-- An operation that writes one predicate. -/
theorem predOp_does {i : Instr} {s : State} {u : Nat} {f : Flight} {c : ClauseRun} {r : OpRegs} (a : Issuing s u f c)
    (h : Ready s u f c r) {regs : Flight → OpRegs} {p : BitVec 4} {g : Flight → ClauseRun → Nat → Bool}
    (e : exec i s = predOp s regs p g) (hr : regs f = { r with occ := (regs f).occ }) (hd : r.dsts = [])
    (val : Nat → Nat → Tri Word) :
    Does i s u f c r val (fun x => if x ∈ c.act then withPred (f.thread x) p (g f c x) else f.thread x) f := by
  refine Does.occ (q := r) (threads_does (r := regs f) a ?_
    (fun x t => { t with preds := setPredBit t.preds p.toNat (g f c x) })
    (.inr fun x t => by simp only [setPredBit_twice]) (e.trans (runOp_done a (h.occ hr) rfl)) ?_ val) ?_
  · rw [hr]; exact hd
  · rw [Flight.setPreds_eq]; exact busy_occupy _ _ _ _
  · rw [hr]

/-! ## Shapes of register operations -/

theorem nth_one (t : Tri Word) : nth [t] 0 = t := rfl

theorem tri_of_get {α} (f : Nat → α) {k : Nat} (h : k < 3) : (Tri.of f).get k = f k := by
  match k, h with | 0, _ | 1, _ | 2, _ => rfl
theorem tri_map_get {α β} (f : α → β) (t : Tri α) {k : Nat} (h : k < 3) : (t.map f).get k = f (t.get k) := by
  match k, h with | 0, _ | 1, _ | 2, _ => rfl
theorem tri_zip_get {α β γ}
    (f : α → β → γ) (t : Tri α) (v : Tri β) {k : Nat} (h : k < 3) : (t.zip f v).get k = f (t.get k) (v.get k) := by
  match k, h with | 0, _ | 1, _ | 2, _ => rfl
theorem tri_rep_get {α} (x : α) (k : Nat) : (Tri.rep x).get k = x := by
  match k with | 0 | 1 | _+2 => rfl
theorem shown_lt {f : Flight} {k : Nat} (h : k < 3) : shown f k < 3 := by unfold shown; split <;> omega

theorem int3_gives {i : Instr} {u d a b la lb acc occ} {g : Word → Word → Word → Word} {s w f c} (q : Issuing s w f c)
   (h : Ready s w f c (regs3 u d a b 1 1 1 la lb acc 0 f)) (e : exec i s = int3 s u d a b la lb acc occ g) {v : Nat → Nat → Tri Word}
   (hv : ∀ x k, k < 3 → (v 0 x).get k = g ((f.opnd x d).get k) ((f.opnd x a).get k) ((f.opnd x b).get k)) :
   WritesRegs i s w f c (regs3 u d a b 1 1 1 la lb acc 0 f) v := by
  refine regOp_gives q h e rfl fun j x k hj hk => ?_
  have hj0 : j = 0 := by simp [regs3, Flight.block] at hj; exact hj
  subst hj0
  rw [nth_one, tri_of_get _ (shown_lt hk), hv x _ (shown_lt hk)]

theorem int2_gives {i : Instr} {u d a la acc occ} {g : Word → Word → Word} {s w f c} (q : Issuing s w f c)
   (h : Ready s w f c (regs2 u d a 1 1 la acc 0 f)) (e : exec i s = int2 s u d a la acc occ g) {v : Nat → Nat → Tri Word}
   (hv : ∀ x k, k < 3 → (v 0 x).get k = g ((f.opnd x d).get k) ((f.opnd x a).get k)) :
   WritesRegs i s w f c (regs2 u d a 1 1 la acc 0 f) v := by
  refine regOp_gives q h e rfl fun j x k hj hk => ?_
  have hj0 : j = 0 := by simp [regs2, Flight.block] at hj; exact hj
  subst hj0
  rw [nth_one, tri_of_get _ (shown_lt hk), hv x _ (shown_lt hk)]

end Sys2Proof.Machine
end

