-- ==== Sys2Proof/Laws/Flags.lean ====
section
/-! SUPPORT. What meeting conditions does to a flight, and what a floating-point operation does. -/

namespace Sys2Proof.Machine

/-! ## Meeting conditions -/

/-- What a list of conditions does to one thread. -/
def metThread (k : Ctl) (c : ClauseRun) (ms : List (Nat × Meet)) (a : Nat) (t : Thread) : Thread :=
  match ms.find? (fun m => m.1 == a) with
  | some m => if k.enabled m.2.cond && !t.handler && t.st != .masked then t.mask (instRecord c m.2 none) else t
  | none => t

/-- The same clause but for its active set and the threads already transferred. -/
def SameOp (c d : ClauseRun) : Prop := d = { c with active := d.active, moved := d.moved }

theorem SameOp.record {c d : ClauseRun} (h : SameOp c d) (m : Meet) (t : Option (BitVec 64)) :
    instRecord d m t = instRecord c m t := by rw [h]; rfl

/-- A condition counted. -/
def Ctl.counts (k : Ctl) (ms : List (Nat × Meet)) : Ctl := ms.foldl (fun k m => k.bump m.2.cond) k

theorem Ctl.counts_itrap (ms : List (Nat × Meet)) (k : Ctl) : (k.counts ms).itrap = k.itrap := by
  induction ms generalizing k with
  | nil => rfl
  | cons m ms ih =>
    show ((k.bump m.2.cond).counts ms).itrap = _
    rw [ih]; cases m.2.cond <;> rfl

theorem Ctl.bump_enabled (k : Ctl) (a b : Cond) : (k.bump a).enabled b = k.enabled b := by cases a <;> cases b <;> rfl

structure MetBy (f g : Flight) (c : ClauseRun) (ms : List (Nat × Meet)) : Prop where
  rest : g = { f with threads := g.threads, clause := g.clause, ctl := f.ctl.counts ms }
  clause : ∃ d, g.clause = some d ∧ SameOp c d
  thread : (ms.map (·.1)).Nodup → ∀ a, g.thread a = metThread f.ctl c ms a (f.thread a)

theorem Flight.meets_met (ms : List (Nat × Meet)) (f : Flight) (c d : ClauseRun) (hc : f.clause = some d) (hd : SameOp c d) :
    MetBy f (f.meets ms) c ms := by
  induction ms generalizing f d with
  | nil => exact ⟨rfl, ⟨d, hc, hd⟩, fun _ _ => rfl⟩
  | cons m ms ih =>
    obtain ⟨i, m⟩ := m
    have key : ∃ d', (f.meet i m none).clause = some d' ∧ SameOp c d' ∧
        (f.meet i m none) = { f with threads := (f.meet i m none).threads, clause := (f.meet i m none).clause
                                     ctl := f.ctl.bump m.cond } ∧
        ∀ a, (f.meet i m none).thread a = metThread f.ctl c [(i, m)] a (f.thread a) := by
      unfold Flight.meet
      rw [hc]
      dsimp only
      by_cases he : (f.ctl.enabled m.cond && !(f.thread i).handler && (f.thread i).st != .masked) = true
      · rw [if_pos he]
        refine ⟨_, rfl, ?_, rfl, fun a => ?_⟩
        · unfold SameOp at *; rw [hd]
        · simp only [metThread, List.find?_cons, List.find?_nil]
          by_cases ha : i = a
          · subst ha
            rw [beq_self_eq_true]
            simp only [he, if_true]
            show mgetD (mset f.threads i _) i _ = _
            rw [mgetD_mset_same, hd.record]
          · have : (i == a) = false := by simpa using ha
            rw [this]
            show mgetD (mset f.threads i _) a _ = _
            exact mgetD_mset_ne f.threads _ _ (Ne.symm ha)
      · rw [if_neg he]
        refine ⟨d, rfl, hd, rfl, fun a => ?_⟩
        simp only [metThread, List.find?_cons, List.find?_nil]
        by_cases ha : i = a
        · subst ha
          rw [beq_self_eq_true]
          simp only [he]; rfl
        · have : (i == a) = false := by simpa using ha
          rw [this]; rfl
    obtain ⟨d', h1, h2, h3, h4⟩ := key
    have r := ih (f.meet i m none) d' h1 h2
    refine ⟨?_, r.clause, fun hn a => ?_⟩
    · refine r.rest.trans ?_
      exact (congrArg (fun x : Flight => { x with threads := ((f.meet i m none).meets ms).threads
                                                  clause := ((f.meet i m none).meets ms).clause
                                                  ctl := x.ctl.counts ms }) h3).trans rfl
    · show ((f.meet i m none).meets ms).thread a = _
      rw [List.map_cons, List.nodup_cons] at hn
      rw [r.thread hn.2 a, h4 a]
      have hk : (f.meet i m none).ctl = f.ctl.bump m.cond := by rw [h3]
      rw [hk]
      simp only [metThread, List.find?_cons, List.find?_nil, Ctl.bump_enabled]
      by_cases ha : i = a
      · subst ha
        rw [beq_self_eq_true]
        have hnone : ms.find? (fun m => m.1 == i) = none := by
          rw [List.find?_eq_none]
          intro x hx h
          exact hn.1 (List.mem_map.2 ⟨x, hx, by simpa using h⟩)
        rw [hnone]
      · have : (i == a) = false := by simpa using ha
        rw [this]

/-! ## Counting -/

theorem satInc_toNat (x : BitVec 10) : (satInc x).toNat = min 1023 (x.toNat + 1) := by
  unfold satInc
  have := x.isLt
  split
  · next e => rw [beq_iff_eq] at e; subst e; rfl
  · next e =>
    have : x.toNat ≠ 1023 := fun h => e (by rw [beq_iff_eq]; exact BitVec.eq_of_toNat_eq h)
    rw [BitVec.toNat_add]
    show (x.toNat + 1) % 2 ^ 10 = _
    omega

/-- One saturating counter after a number of events. -/
theorem sat_count {x y : BitVec 10} {n : Nat} (h : y.toNat = min 1023 (x.toNat + n)) :
    y = BitVec.ofNat 10 (min 1023 (x.toNat + n)) := by
  apply BitVec.eq_of_toNat_eq
  rw [BitVec.toNat_ofNat, h]
  have := x.isLt
  omega

theorem Ctl.counts_eq (ms : List (Nat × Meet)) (k : Ctl) :
    k.counts ms = counted k 0 (ms.map (·.2)) := by
  have key : (k.counts ms) = { k with ccnt := (k.counts ms).ccnt, dcnt := (k.counts ms).dcnt, zcnt := (k.counts ms).zcnt } ∧
      (k.counts ms).ccnt.toNat = min 1023 (k.ccnt.toNat + ((ms.map (·.2)).filter (fun m => m.cond == Cond.C)).length) ∧
      (k.counts ms).dcnt.toNat = min 1023 (k.dcnt.toNat + ((ms.map (·.2)).filter (fun m => m.cond == Cond.D)).length) ∧
      (k.counts ms).zcnt.toNat = min 1023 (k.zcnt.toNat + ((ms.map (·.2)).filter (fun m => m.cond == Cond.Z)).length) := by
    induction ms generalizing k with
    | nil =>
      have := k.ccnt.isLt; have := k.dcnt.isLt; have := k.zcnt.isLt
      refine ⟨rfl, ?_, ?_, ?_⟩ <;> simp only [Ctl.counts, List.foldl_nil, List.map_nil, List.filter_nil, List.length_nil] <;> omega
    | cons m ms ih =>
      obtain ⟨h1, h2, h3, h4⟩ := ih (k.bump m.2.cond)
      have e : k.counts (m :: ms) = (k.bump m.2.cond).counts ms := rfl
      rw [e]
      refine ⟨?_, ?_, ?_, ?_⟩
      · rw [h1]; cases m.2.cond <;> rfl
      · rw [h2, List.map_cons, List.filter_cons]
        cases m.2.cond <;> simp only [Ctl.bump, satInc_toNat] <;> simp <;> omega
      · rw [h3, List.map_cons, List.filter_cons]
        cases m.2.cond <;> simp only [Ctl.bump, satInc_toNat] <;> simp <;> omega
      · rw [h4, List.map_cons, List.filter_cons]
        cases m.2.cond <;> simp only [Ctl.bump, satInc_toNat] <;> simp <;> omega
  obtain ⟨h1, h2, h3, h4⟩ := key
  rw [h1]
  unfold counted
  rw [sat_count h2, sat_count h3, sat_count h4]
  simp

/-! ## Floating-point operations -/

/-- The conditions of an operation, as a list of the active threads'. -/
theorem meetsOf_eq (u : Bool) (c : ClauseRun) (cond : Nat → Option Meet) :
    meetsOf u c cond = c.act.filterMap fun x => (cond (computes u c x)).map fun m => (x, m) := by
  unfold meetsOf computes lowest
  cases u with
  | false => cases c.act <;> rfl
  | true =>
    cases h : c.act with
    | nil => rfl
    | cons i is =>
      simp only [List.head?_cons, Option.getD_some, if_true]
      cases cond i with
      | none => simp
      | some m =>
        simp only [Option.map_some]
        rw [← List.filterMap_eq_map]; rfl

theorem find_met (cond : Nat → Option Meet) (l : List Nat) (a : Nat) :
    (l.filterMap fun x => (cond x).map fun m => (x, m)).find? (fun m => m.1 == a)
      = if a ∈ l then (cond a).map fun m => (a, m) else none := by
  induction l with
  | nil => rfl
  | cons x l ih =>
    rw [List.filterMap_cons]
    cases h : cond x with
    | none =>
      simp only [Option.map_none, ih]
      by_cases hx : a = x
      · subst hx; simp [h]
      · simp [hx]
    | some m =>
      simp only [Option.map_some, List.find?_cons, ih]
      by_cases hx : a = x
      · subst hx; simp [h]
      · have : (x == a) = false := by simpa using Ne.symm hx
        simp [this, hx]

theorem or_fold (l : List Flags) (a : Flags) : l.foldl (fun a b => a ||| b) a = a ||| l.foldl (fun a b => a ||| b) 0 := by
  induction l generalizing a with
  | nil => simp
  | cons x l ih =>
    rw [List.foldl_cons, List.foldl_cons, ih, ih (0 ||| x)]
    simp [BitVec.or_assoc]

/-- The flags of the computing threads are those of the active threads' sources. -/
theorem computing_flags (u : Bool) (c : ClauseRun) (g : Nat → Flags) :
    (computing u c).foldl (fun a i => a ||| g i) 0 = (c.act.map (computes u c)).foldl (fun a i => a ||| g i) 0 := by
  unfold computing computes lowest
  cases u with
  | false => cases h : c.act <;> simp
  | true =>
    cases h : c.act with
    | nil => rfl
    | cons i is =>
      simp only [List.head?_cons, Option.getD_some, if_true, List.map_cons, List.foldl_cons, List.foldl_nil]
      clear h
      induction is with
      | nil => rfl
      | cons j js ih =>
        rw [List.map_cons, List.foldl_cons]
        have : (0 ||| g i ||| g i) = 0 ||| g i := by simp
        rw [this]
        exact ih

theorem onward_ctl {f g : Flight} {a : NMap RegVal} {b : NMap Thread} {c : Option ClauseRun} {k : Ctl}
    (h : g = { f with regs := a, threads := b, clause := c, ctl := k }) : Onward { f with ctl := k } g := by
  subst h; exact ⟨rfl, fun _ _ => rfl⟩

theorem outVals_get (n j : Nat) (o : Tri SibOut) {k : Nat} (hk : k < 3) (hj : j < n) :
    (nth (outVals n o) j).get k = ((o.get k).words[j]?).getD 0 := by
  unfold nth outVals
  rw [List.getElem?_map, List.getElem?_range hj, Option.map_some, Option.getD_some, tri_map_get _ _ hk]

/-- A floating-point operation completes as R94 and R95 say. -/
theorem fpOp_computes {i : Instr} {s : State} {u : Nat} {f : Flight} {c : ClauseRun} {r : OpRegs} (q : Issuing s u f c)
    (hn : c.act.Nodup) (h : Ready s u f c r) {regs : Flight → OpRegs} {draws : Nat} {g : Flight → Nat → Nat → SibOut}
    {cond : Flight → Nat → Tri SibOut → Option Meet} (e : exec i s = fpOp s regs draws g cond)
    (hr : regs f = { r with occ := (regs f).occ }) {out : Nat → Nat → List Word × Flags} {test : Nat → Met}
    (hw : ∀ x k j, k < 3 → j < r.dsts.length →
      ((((sibOuts f x (g f x)).get k).words[j]?).getD 0) = ((out x k).1[j]?).getD 0)
    (hf : ∀ x, outFlags (sibOuts f x (g f x)) = (out x 0).2 ||| (out x 1).2 ||| (out x 2).2)
    (ht : ∀ x, f.single x = false → cond f x (sibOuts f x (g f x)) = test x) :
    Computes i s u f c r draws out test := by
  have hq : regs f = { r with occ := (regs f).occ } := hr
  have hu : (regs f).u = r.u := by rw [hr]
  have hdst : (regs f).dsts = r.dsts := by rw [hr]
  let o := fun x => sibOuts f x (g f x)
  let fl : Flags := (computing r.u c).foldl (fun a x => a ||| outFlags (o x)) flNone
  let ms := meetsOf r.u c (fun x => if f.single x then none else cond f x (o x))
  let f1 := writeDests f c (regs f) (spread r.u c.act (fun x => outVals r.dsts.length (o x)))
  let f2 := (f1.raise fl).advanceCounters c.act draws
  have e1 : exec i s = .next (((((s.setFlight u (f2.meets ms)).occupy f c (regs f)).countMeets f ms)).finishOp u) := by
    have := e.trans (runOp_done q (h.occ hr) rfl)
    rw [this]
    simp only [hu, hdst, f2, ms, f1, fl, o]
  have b : Busy f (s.setFlight u (f2.meets ms)) (((s.setFlight u (f2.meets ms)).occupy f c (regs f)).countMeets f ms) :=
    (busy_occupy _ _ _ _).trans (busy_countMeets ..)
  have rest1 : f1 = { f with regs := f1.regs } := writeDests_rest ..
  have rest2 : f2 = { f1.raise fl with threads := f2.threads } := Flight.modThreads_rest ..
  have hc2 : f2.clause = some c := by rw [rest2]; show f1.clause = _; rw [rest1]; exact q.clause
  obtain ⟨m1, ⟨d, m2, m3⟩, m4⟩ := Flight.meets_met ms f2 c c hc2 rfl
  have hregs : (f2.meets ms).regs = f1.regs := by rw [m1, rest2]; rfl
  have hlane : (f2.meets ms).lane = f1.lane := by rw [m1, rest2]; rfl
  have hmet : ms = c.act.filterMap fun x =>
      (if f.single (computes r.u c x) then none else test (computes r.u c x) : Met).map fun m => (x, m) := by
    simp only [ms, meetsOf_eq]
    congr 1; funext x
    by_cases hs : f.single (computes r.u c x) = true
    · simp [hs]
    · rw [if_neg hs, if_neg hs, ht _ (by simpa using hs)]
  have hnd : (ms.map (·.1)).Nodup := by
    have : ∀ (l : List Nat) (k : Nat → Met), l.Nodup →
        ((l.filterMap fun x => (k x).map fun m => (x, m)).map (·.1)).Nodup ∧
        ∀ y ∈ (l.filterMap fun x => (k x).map fun m => (x, m)).map (·.1), y ∈ l := by
      intro l k hl
      induction l with
      | nil => simp
      | cons x l ih =>
        obtain ⟨h1, h2⟩ := ih (List.nodup_cons.1 hl).2
        rw [List.filterMap_cons]
        cases k x with
        | none => exact ⟨h1, fun y hy => List.mem_cons_of_mem _ (h2 y hy)⟩
        | some m =>
          simp only [Option.map_some, List.map_cons]
          refine ⟨List.nodup_cons.2 ⟨fun hm => (List.nodup_cons.1 hl).1 (h2 _ hm), h1⟩, fun y hy => ?_⟩
          rcases List.mem_cons.1 hy with rfl | hy
          · exact List.mem_cons_self ..
          · exact List.mem_cons_of_mem _ (h2 y hy)
    rw [hmet]; exact (this _ _ hn).1
  obtain ⟨hv, hrel, hk⟩ := writeDests_spec f c (regs f) (fun x => outVals r.dsts.length (o x))
  unfold Computes
  refine Does.occ (r := regs f) ?_ (by rw [hr])
  refine does_of q.flight e1 b m2 ?_ (by rfl) ?_ (fun j n hj hl a ha k hk3 => ?_) ?_ ⟨fun n h1 h2 => ?_, fun x h1 h2 h3 n k hk3 => ?_⟩ ?_ ?_
  · have hfl : fl = (c.act.map (computes (regs f).u c)).foldl
        (fun a x => a ||| ((out x 0).2 ||| (out x 1).2 ||| (out x 2).2)) 0 := by
      rw [hu]
      refine (computing_flags r.u c fun x => outFlags (o x)).trans ?_
      congr 1; funext a x; rw [hf]
    have hctl : f2.ctl.counts ms = counted f.ctl fl (c.act.filterMap fun x =>
        if f.single (computes (regs f).u c x) then none else test (computes (regs f).u c x)) := by
      have : f2.ctl = { f.ctl with fexc := f.ctl.fexc ||| fl } := by
        rw [rest2]; show (f1.raise fl).ctl = _; unfold Flight.raise; rw [rest1]
      rw [this, Ctl.counts_eq, hmet, hu]
      have : ((c.act.filterMap fun x =>
          (if f.single (computes r.u c x) then none else test (computes r.u c x) : Met).map fun m => (x, m)).map (·.2))
          = c.act.filterMap fun x => if f.single (computes r.u c x) then none else test (computes r.u c x) := by
        rw [List.map_filterMap]
        congr 1; funext x
        rw [Option.map_map]
        cases (if f.single (computes r.u c x) then none else test (computes r.u c x) : Met) <;> rfl
      rw [this]
      unfold counted; simp
    have e2 : f2 = { f with regs := f1.regs, threads := f2.threads, ctl := { f.ctl with fexc := f.ctl.fexc ||| fl } } := by
      have h1 : f1.raise fl = { f with regs := f1.regs, ctl := { f.ctl with fexc := f.ctl.fexc ||| fl } } := by
        unfold Flight.raise
        exact (congrArg (fun x : Flight => { x with ctl := { x.ctl with fexc := x.ctl.fexc ||| fl } }) rest1).trans rfl
      exact rest2.trans ((congrArg (fun x : Flight => { x with threads := f2.threads }) h1).trans rfl)
    have e3 : f2.meets ms = { f with
        regs := f1.regs, threads := (f2.meets ms).threads, clause := (f2.meets ms).clause, ctl := f2.ctl.counts ms } := by
      refine m1.trans ?_
      exact congrArg (fun x : Flight => { x with
        threads := (f2.meets ms).threads, clause := (f2.meets ms).clause, ctl := f2.ctl.counts ms }) e2
    rw [hctl, hfl, hu] at e3
    exact onward_ctl e3
  · exact fun hy => (congrArg (·.yielded) m3).trans (clause_yielded q hy)
  · have h1 := hv j n hj hl a ha k hk3
    rw [Flight.readReg_congr hlane (by rw [hregs])]
    rw [hu] at h1 ⊢
    have hj' : j < r.dsts.length := by
      rcases Nat.lt_or_ge j r.dsts.length with h | h
      · exact h
      · rw [hdst, List.getElem?_eq_none h] at hj; cases hj
    have hl1 : f1.lane = f.lane := by rw [rest1]
    refine h1.trans ?_
    have hs1 : shown f1 k = shown f k := by unfold shown; rw [hl1]
    have hs2 : shown (f2.meets ms) k = shown f k := by unfold shown; rw [hlane, hl1]
    rw [hs1, hs2, outVals_get _ _ _ (shown_lt hk3) hj', hw _ _ _ (shown_lt hk3) hj', tri_of_get _ (shown_lt hk3)]
  · intro ha hm n h1 h2
    rw [hregs]
    have := hrel ha hm n h1 h2
    rw [hu] at this; exact this
  · rw [hregs]
    have := hk.name n h1 h2
    rw [hu] at this; exact this
  · rw [Flight.readReg_congr hlane (by rw [hregs])]
    have := hk.thread x h1 h2 h3 n k hk3
    rw [hu] at this; exact this
  · intro x hx
    rw [m4 hnd x]
    have ht2 : f2.thread x = if x ∈ c.act then
        { f.thread x with rcount := (f.thread x).rcount + BitVec.ofNat 48 draws } else f.thread x := by
      show ((c.act.foldl (fun g i => g.modThread i fun t => { t with rcount := t.rcount + BitVec.ofNat 48 draws }) (f1.raise fl))).thread x = _
      rw [Flight.foldMod_thread (fun _ t => { t with rcount := t.rcount + BitVec.ofNat 48 draws }) _ _ _ (.inl hn)]
      have hth : (f1.raise fl).threads = f.threads := by unfold Flight.raise; rw [rest1]
      have hth' : (f1.raise fl).thread x = f.thread x := by unfold Flight.thread; rw [hth]
      rw [hth, hth']
      by_cases hm : x ∈ c.act
      · simp only [hm, Flight.live_some (hx hm), and_self, if_true]
      · simp only [hm, false_and, if_false]
    have hen : ∀ n, f2.ctl.enabled n = f.ctl.enabled n := by
      have : f2.ctl = { f.ctl with fexc := f.ctl.fexc ||| fl } := by
        rw [rest2]; show (f1.raise fl).ctl = _; unfold Flight.raise; rw [rest1]
      intro n; rw [this]; cases n <;> rfl
    unfold metThread
    rw [hmet, find_met (fun x => if f.single (computes r.u c x) then none else test (computes r.u c x)), ht2]
    by_cases hm : x ∈ c.act
    · simp only [hm, if_true]
      cases (if f.single (computes r.u c x) then none else test (computes r.u c x) : Met) with
      | none => exact Moved.refl _
      | some m => simp only [Option.map_some, afterMet, hen]; exact Moved.refl _
    · simp only [hm, if_false]; exact Moved.refl _
  · exact fun _ => trivial

end Sys2Proof.Machine
end

