-- ==== Sys2Proof/Laws/PerInstr.lean ====
section
/-! SUPPORT. The family RoundTrip: for every operation, the word that the encoder writes has 32 bits and the decoder reads the
operation from it; every other constructor of Instr is a step, which has no word. One lemma for each constructor. -/

set_option linter.unusedSimpArgs false

namespace Sys2Proof.Laws.RoundTrip

/-- The encoder's word of an operation is a word, and decodes to the operation where its operands are legal (R16 to R36). -/
def Statement (i : Instr) : Prop :=
  match encode i with
  | some w => w < 2 ^ 32 ∧ (i.wf = true → decodeWord w = .ok i)
  | none => i.isStep = true

/-- The operand rules are the last check of the decoder. -/
theorem decode_of {i : Instr} {w : Nat} (f : Dec.fields w = .ok i) (h : i.wf = true) : decodeWord w = .ok i := by
  simp only [decodeWord, f, h, ↓reduceIte]

/-! ## The majors: what the decoder does with a word of a major opcode -/

theorem fields_1 {w : Nat} (h : bits w 31 26 = 1) : Dec.fields w = (Dec.byMinor w (Dec.t3 .iadd) (Dec.t3 .isub) (Dec.t3 .imin) (Dec.t3 .imax)) := by
  unfold Dec.fields; rw [h]; rfl
theorem fields_2 {w : Nat} (h : bits w 31 26 = 2) : Dec.fields w = (Dec.byMinor w (Dec.t3 .imul) (Dec.t3 .imulh) (Dec.t3 .imulhu) (Dec.t3 .imad)) := by
  unfold Dec.fields; rw [h]; rfl
theorem fields_3 {w : Nat} (h : bits w 31 26 = 3) : Dec.fields w = (Dec.byMinor w (Dec.t3 .iaddmin) (Dec.t3 .iaddmax) (Dec.t3 .iabsd) (Dec.t3 .iminu)) := by
  unfold Dec.fields; rw [h]; rfl
theorem fields_4 {w : Nat} (h : bits w 31 26 = 4) : Dec.fields w = (Dec.byMinor w (Dec.t3 .andR) (Dec.t3 .orR) (Dec.t3 .xorR) (Dec.t3 .andn)) := by
  unfold Dec.fields; rw [h]; rfl
theorem fields_5 {w : Nat} (h : bits w 31 26 = 5) : Dec.fields w = (Dec.byMinor w (Dec.t3 .shl) (Dec.t3 .shr) (Dec.t3 .sar) (Dec.t3 .rol)) := by
  unfold Dec.fields; rw [h]; rfl
theorem fields_6 {w : Nat} (h : bits w 31 26 = 6) : Dec.fields w = (Dec.byMinor w (Dec.t2 .popc) (Dec.t2 .clz) (Dec.t2 .brev) (Dec.t3 .bfx)) := by
  unfold Dec.fields; rw [h]; rfl
theorem fields_7 {w : Nat} (h : bits w 31 26 = 7) : Dec.fields w = (Dec.moves w) := by
  unfold Dec.fields; rw [h]; rfl
theorem fields_8 {w : Nat} (h : bits w 31 26 = 8) : Dec.fields w = (.ok (.sel (Dec.flag w 25) (Dec.reg w 18) (Dec.reg w 11) (Dec.reg w 4) (Dec.fld 4 w 0))) := by
  unfold Dec.fields; rw [h]; rfl
theorem fields_9 {w : Nat} (h : bits w 31 26 = 9) : Dec.fields w = (Dec.cmp Dec.intCond .icmp w) := by
  unfold Dec.fields; rw [h]; rfl
theorem fields_10 {w : Nat} (h : bits w 31 26 = 10) : Dec.fields w = (Dec.cmp Dec.fltCond .fcmp w) := by
  unfold Dec.fields; rw [h]; rfl
theorem fields_11 {w : Nat} (h : bits w 31 26 = 11) : Dec.fields w = (Dec.cmp Dec.fltCond .dcmp w) := by
  unfold Dec.fields; rw [h]; rfl
theorem fields_12 {w : Nat} (h : bits w 31 26 = 12) : Dec.fields w = (Dec.preds w) := by
  unfold Dec.fields; rw [h]; rfl
theorem fields_13 {w : Nat} (h : bits w 31 26 = 13) : Dec.fields w = (.ok (.lea (Dec.flag w 25) (Dec.reg w 18) (Dec.reg w 11) (Dec.reg w 4) (Dec.fld 2 w 2) (Dec.flag w 1) (Dec.flag w 0))) := by
  unfold Dec.fields; rw [h]; rfl
theorem fields_14 {w : Nat} (h : bits w 31 26 = 14) : Dec.fields w = (Dec.byMinor w (Dec.t3 .iadd64) (Dec.t3 .isub64) (Dec.t3 .imulw) (Dec.t3 .shl64)) := by
  unfold Dec.fields; rw [h]; rfl
theorem fields_15 {w : Nat} (h : bits w 31 26 = 15) : Dec.fields w = (Dec.immI .iaddi w) := by
  unfold Dec.fields; rw [h]; rfl
theorem fields_16 {w : Nat} (h : bits w 31 26 = 16) : Dec.fields w = (Dec.immI .andi w) := by
  unfold Dec.fields; rw [h]; rfl
theorem fields_17 {w : Nat} (h : bits w 31 26 = 17) : Dec.fields w = (Dec.immI .ori w) := by
  unfold Dec.fields; rw [h]; rfl
theorem fields_18 {w : Nat} (h : bits w 31 26 = 18) : Dec.fields w = (Dec.immI .xori w) := by
  unfold Dec.fields; rw [h]; rfl
theorem fields_19 {w : Nat} (h : bits w 31 26 = 19) : Dec.fields w = (Dec.shiftI w) := by
  unfold Dec.fields; rw [h]; rfl
theorem fields_20 {w : Nat} (h : bits w 31 26 = 20) : Dec.fields w = (.ok (.movi (Dec.flag w 25) (Dec.reg w 18) (Dec.fld 18 w 0))) := by
  unfold Dec.fields; rw [h]; rfl
theorem fields_21 {w : Nat} (h : bits w 31 26 = 21) : Dec.fields w = (Dec.guardZero (bits w 17 14 == 0) (.movh (Dec.flag w 25) (Dec.reg w 18) (Dec.fld 14 w 0))) := by
  unfold Dec.fields; rw [h]; rfl
theorem fields_22 {w : Nat} (h : bits w 31 26 = 22) : Dec.fields w = (Dec.byMinor w (Dec.t3 .fadd) (Dec.t3 .fsub) (Dec.t3 .fmul) (Dec.t3 .fmin)) := by
  unfold Dec.fields; rw [h]; rfl
theorem fields_23 {w : Nat} (h : bits w 31 26 = 23) : Dec.fields w = (Dec.byMinor w (Dec.t3 .fmax) (Dec.t3 .ffma) (Dec.t3 .ffms) (Dec.t3 .fdiv)) := by
  unfold Dec.fields; rw [h]; rfl
theorem fields_24 {w : Nat} (h : bits w 31 26 = 24) : Dec.fields w = (Dec.funcs w) := by
  unfold Dec.fields; rw [h]; rfl
theorem fields_25 {w : Nat} (h : bits w 31 26 = 25) : Dec.fields w = (Dec.byMinor w (Dec.t3 .dadd) (Dec.t3 .dsub) (Dec.t3 .dmul) (Dec.t3 .dfma)) := by
  unfold Dec.fields; rw [h]; rfl
theorem fields_26 {w : Nat} (h : bits w 31 26 = 26) : Dec.fields w = (Dec.byMinor w (Dec.t3 .ddiv) (Dec.t2 .dsqrt) (Dec.t3 .dmin) (Dec.t3 .dmax)) := by
  unfold Dec.fields; rw [h]; rfl
theorem fields_27 {w : Nat} (h : bits w 31 26 = 27) : Dec.fields w = (Dec.byMinor w (Dec.t3 .hadd2) (Dec.t3 .hmul2) (Dec.t3 .hfma2) (Dec.t3 .bfma2)) := by
  unfold Dec.fields; rw [h]; rfl
theorem fields_28 {w : Nat} (h : bits w 31 26 = 28) : Dec.fields w = (if Nat.blt 31 (bits w 10 4) then .error .code
    else Dec.guardZero (Dec.minor w == 0 && !Dec.flag w 0) (.cvt (Dec.flag w 25) (Dec.reg w 18) (Dec.reg w 11) (Dec.fld 5 w 4) (Dec.flag w 1))) := by
  unfold Dec.fields; rw [h]; rfl
theorem fields_29 {w : Nat} (h : bits w 31 26 = 29) : Dec.fields w = (Dec.sibs w) := by
  unfold Dec.fields; rw [h]; rfl
theorem fields_30 {w : Nat} (h : bits w 31 26 = 30) : Dec.fields w = (match bits w 25 21 with
    | 0 => Dec.guardZero (Dec.xz w true true true) .solo
    | 1 => Dec.guardZero (Dec.xz w true true true) .trio
    | _ => .error .code) := by
  unfold Dec.fields; rw [h]; rfl
theorem fields_31 {w : Nat} (h : bits w 31 26 = 31) : Dec.fields w = (Dec.qbxs w) := by
  unfold Dec.fields; rw [h]; rfl
theorem fields_32 {w : Nat} (h : bits w 31 26 = 32) : Dec.fields w = (Dec.shfls w) := by
  unfold Dec.fields; rw [h]; rfl
theorem fields_33 {w : Nat} (h : bits w 31 26 = 33) : Dec.fields w = (Dec.votes w) := by
  unfold Dec.fields; rw [h]; rfl
theorem fields_34 {w : Nat} (h : bits w 31 26 = 34) : Dec.fields w = (Dec.reduces w) := by
  unfold Dec.fields; rw [h]; rfl
theorem fields_35 {w : Nat} (h : bits w 31 26 = 35) : Dec.fields w = (.ok (.bra (Dec.fld 4 w 22) (Dec.flag w 21) (Dec.fld 21 w 0))) := by
  unfold Dec.fields; rw [h]; rfl
theorem fields_36 {w : Nat} (h : bits w 31 26 = 36) : Dec.fields w = (.ok (.call (Dec.fld 4 w 22) (Dec.flag w 21) (Dec.fld 21 w 0))) := by
  unfold Dec.fields; rw [h]; rfl
theorem fields_37 {w : Nat} (h : bits w 31 26 = 37) : Dec.fields w = (Dec.controls 0x25 w) := by
  unfold Dec.fields; rw [h]; rfl
theorem fields_38 {w : Nat} (h : bits w 31 26 = 38) : Dec.fields w = (Dec.controls 0x26 w) := by
  unfold Dec.fields; rw [h]; rfl
theorem fields_39 {w : Nat} (h : bits w 31 26 = 39) : Dec.fields w = (Dec.memG .ld w) := by
  unfold Dec.fields; rw [h]; rfl
theorem fields_40 {w : Nat} (h : bits w 31 26 = 40) : Dec.fields w = (Dec.memG .st w) := by
  unfold Dec.fields; rw [h]; rfl
theorem fields_41 {w : Nat} (h : bits w 31 26 = 41) : Dec.fields w = (Dec.memS .lds w) := by
  unfold Dec.fields; rw [h]; rfl
theorem fields_42 {w : Nat} (h : bits w 31 26 = 42) : Dec.fields w = (Dec.memS .sts w) := by
  unfold Dec.fields; rw [h]; rfl
theorem fields_43 {w : Nat} (h : bits w 31 26 = 43) : Dec.fields w = (Dec.memS .ldc w) := by
  unfold Dec.fields; rw [h]; rfl
theorem fields_44 {w : Nat} (h : bits w 31 26 = 44) : Dec.fields w = (Dec.atomics .atom w) := by
  unfold Dec.fields; rw [h]; rfl
theorem fields_45 {w : Nat} (h : bits w 31 26 = 45) : Dec.fields w = (Dec.atomics .atoms w) := by
  unfold Dec.fields; rw [h]; rfl
theorem fields_46 {w : Nat} (h : bits w 31 26 = 46) : Dec.fields w = (Dec.atomics .post w) := by
  unfold Dec.fields; rw [h]; rfl
theorem fields_47 {w : Nat} (h : bits w 31 26 = 47) : Dec.fields w = (Dec.syncs w) := by
  unfold Dec.fields; rw [h]; rfl
theorem fields_48 {w : Nat} (h : bits w 31 26 = 48) : Dec.fields w = (Dec.copies 0x30 w) := by
  unfold Dec.fields; rw [h]; rfl
theorem fields_49 {w : Nat} (h : bits w 31 26 = 49) : Dec.fields w = (Dec.copies 0x31 w) := by
  unfold Dec.fields; rw [h]; rfl
theorem fields_50 {w : Nat} (h : bits w 31 26 = 50) : Dec.fields w = (Dec.mmas .mma w) := by
  unfold Dec.fields; rw [h]; rfl
theorem fields_51 {w : Nat} (h : bits w 31 26 = 51) : Dec.fields w = (Dec.mmas .mmag w) := by
  unfold Dec.fields; rw [h]; rfl
theorem fields_52 {w : Nat} (h : bits w 31 26 = 52) : Dec.fields w = (Dec.engines 0x34 w) := by
  unfold Dec.fields; rw [h]; rfl
theorem fields_53 {w : Nat} (h : bits w 31 26 = 53) : Dec.fields w = (Dec.engines 0x35 w) := by
  unfold Dec.fields; rw [h]; rfl
theorem fields_54 {w : Nat} (h : bits w 31 26 = 54) : Dec.fields w = (Dec.engines 0x36 w) := by
  unfold Dec.fields; rw [h]; rfl
theorem fields_55 {w : Nat} (h : bits w 31 26 = 55) : Dec.fields w = (.ok (.mcall (Dec.fld 6 w 20) (Dec.reg w 13) (Dec.reg w 6) (Dec.fld 6 w 0))) := by
  unfold Dec.fields; rw [h]; rfl
theorem fields_56 {w : Nat} (h : bits w 31 26 = 56) : Dec.fields w = (Dec.systems w) := by
  unfold Dec.fields; rw [h]; rfl

/-- A known code is taken. -/
theorem code_some {α : Type} (v : α) (k : α → Except DecodeError Instr) : Dec.code (some v) k = k v := rfl

/-- A word with three register fields is read back. -/
theorem t3_t (k : Bool → BitVec 7 → BitVec 7 → BitVec 7 → Bool → Bool → Instr) (maj mn : Nat) (u : Bool) (d a b : BitVec 7)
    (la lb : Bool) (hn : mn < 4) : Dec.t3 k (Enc.t maj mn u d a b la lb) = .ok (k u d a b la lb) := by
  simp only [Dec.t3, t_u, t_d, t_a, t_b, t_la, t_lb, hn]

/-- A word with two register fields is read back. -/
theorem t2_t (k : Bool → BitVec 7 → BitVec 7 → Bool → Instr) (maj mn : Nat) (u : Bool) (d a : BitVec 7) (la : Bool)
    (hn : mn < 4) : Dec.t2 k (Enc.t maj mn u d a 0#7 la false) = .ok (k u d a la) := by
  simp only [Dec.t2, Dec.guardZero, t_u, t_d, t_a, t_bbits, t_la, t_lb, hn]; rfl

/-- An I word is read back. -/
theorem immI_i (k : Bool → BitVec 7 → BitVec 7 → BitVec 10 → Bool → Instr) (maj : Nat) (u : Bool) (d a : BitVec 7)
    (n : BitVec 10) (la : Bool) : Dec.immI k (Enc.i maj u d a n.toNat la) = .ok (k u d a n la) := by
  simp only [Dec.immI, i_u, i_d, i_a, i_la, i_imm, n.isLt, BitVec.ofNat_toNat, BitVec.setWidth_eq]

/-- A function of major 0x18 is read back. -/
theorem func_of (k : Bool → BitVec 7 → BitVec 7 → Bool → Instr) (n : Nat) (hn : n < 128)
    (e : ∀ w, bits w 10 4 = n → Dec.funcs w = Dec.guardZero (Dec.minor w == 0 && !Dec.flag w 0)
      (k (Dec.flag w 25) (Dec.reg w 18) (Dec.reg w 11) (Dec.flag w 1)))
    {u : Bool} {d a : BitVec 7} {la : Bool} : Enc.tn 24 0 u d a n la < 2 ^ 32
      ∧ ((k u d a la).wf = true → decodeWord (Enc.tn 24 0 u d a n la) = .ok (k u d a la)) := by
  rw [tn_eq _ _ _ _ _ _ _ hn]
  refine ⟨t_lt _ _ _ _ _ _ _ _ (by decide) (by decide), decode_of ?_⟩
  have e7 : (BitVec.ofNat 7 n).toNat = n := by rw [BitVec.toNat_ofNat]; omega
  have f1 := t_maj 24 0 u d a (BitVec.ofNat 7 n) la false (by decide) (by decide)
  have f2 := t_mn 24 0 u d a (BitVec.ofNat 7 n) la false (by decide)
  have f3 := t_u 24 0 u d a (BitVec.ofNat 7 n) la false (by decide)
  have f4 := t_d 24 0 u d a (BitVec.ofNat 7 n) la false (by decide)
  have f5 := t_a 24 0 u d a (BitVec.ofNat 7 n) la false (by decide)
  have f6 := t_bbits 24 0 u d a (BitVec.ofNat 7 n) la false (by decide)
  have f7 := t_la 24 0 u d a (BitVec.ofNat 7 n) la false (by decide)
  have f8 := t_lb 24 0 u d a (BitVec.ofNat 7 n) la false (by decide)
  generalize Enc.t 24 0 u d a (BitVec.ofNat 7 n) la false = w at *
  rw [e7] at f6
  simp only [fields_24, f1, e w f6, f2, f3, f4, f5, f7, f8, Dec.guardZero, BEq.rfl, Bool.not_false, Bool.and_self, ↓reduceIte]

/-- A reduction of major 0x22 is read back. -/
theorem reduce_of (k : BitVec 7 → BitVec 7 → Bool → Instr) (n : Nat) (hn : n < 4)
    (e : ∀ w, Dec.minor w = n → Dec.reduces w = Dec.guardZero (!Dec.flag w 25 && bits w 10 4 == 0 && !Dec.flag w 0)
      (k (Dec.reg w 18) (Dec.reg w 11) (Dec.flag w 1)))
    {d a : BitVec 7} {la : Bool} : Enc.tn 34 n false d a 0 la < 2 ^ 32
      ∧ ((k d a la).wf = true → decodeWord (Enc.tn 34 n false d a 0 la) = .ok (k d a la)) := by
  rw [tn_eq _ _ _ _ _ _ _ (by decide)]
  refine ⟨t_lt _ _ _ _ _ _ _ _ (by decide) hn, decode_of ?_⟩
  have f1 := t_maj 34 n false d a (BitVec.ofNat 7 0) la false (by decide) hn
  have f2 := t_mn 34 n false d a (BitVec.ofNat 7 0) la false hn
  have f3 := t_u 34 n false d a (BitVec.ofNat 7 0) la false hn
  have f4 := t_d 34 n false d a (BitVec.ofNat 7 0) la false hn
  have f5 := t_a 34 n false d a (BitVec.ofNat 7 0) la false hn
  have f6 := t_bbits 34 n false d a (BitVec.ofNat 7 0) la false hn
  have f7 := t_la 34 n false d a (BitVec.ofNat 7 0) la false hn
  have f8 := t_lb 34 n false d a (BitVec.ofNat 7 0) la false hn
  generalize Enc.t 34 n false d a (BitVec.ofNat 7 0) la false = w at *
  have f6' : bits w 10 4 = 0 := f6
  simp only [fields_34, f1, e w f2, f3, f4, f5, f6', f7, f8, Dec.guardZero, BEq.rfl, Bool.not_false, Bool.and_self, ↓reduceIte]

/-- A compare is read back. -/
theorem cmp_of {γ : Type} {dec : Nat → Option γ} (k : Bool → CombMode → BitVec 4 → BitVec 7 → BitVec 7 → γ → Instr) (maj : Nat)
    (hmaj : maj < 64) {m c : Nat} {mode : CombMode} {cond : γ} (hm : m < 3) (hc : c < 16)
    (em : Dec.combMode m = some mode) (ec : dec c = some cond)
    (e : ∀ w, bits w 31 26 = maj → Dec.fields w = Dec.cmp dec k w)
    {u : Bool} {p : BitVec 4} {a b : BitVec 7} : Enc.tp maj u (m * 16 + p.toNat) a b c < 2 ^ 32
      ∧ ((k u mode p a b cond).wf = true → decodeWord (Enc.tp maj u (m * 16 + p.toNat) a b c) = .ok (k u mode p a b cond)) := by
  have hp := p.isLt
  have hd : m * 16 + p.toNat < 128 := by omega
  refine ⟨tp_lt _ _ _ _ _ _ hmaj hd hc, decode_of ?_⟩
  have f1 := tp_maj maj u (m * 16 + p.toNat) a b c hmaj hd hc
  have f2 := tp_u maj u (m * 16 + p.toNat) a b c hd hc
  have f3 := tp_dhi maj u (m * 16 + p.toNat) a b c hd hc
  have f4 := tp_d4 maj u (m * 16 + p.toNat) a b c hd hc
  have f5 := tp_a maj u (m * 16 + p.toNat) a b c hd hc
  have f6 := tp_b maj u (m * 16 + p.toNat) a b c hc
  have f7 := tp_k maj u (m * 16 + p.toNat) a b c hc
  generalize Enc.tp maj u (m * 16 + p.toNat) a b c = w at *
  rw [show (m * 16 + p.toNat) / 16 = m by omega] at f3
  rw [show (m * 16 + p.toNat) % 16 = p.toNat by omega, BitVec.ofNat_toNat, BitVec.setWidth_eq] at f4
  rw [e w f1, Dec.cmp, f3, em, f7, ec, f2, f4, f5, f6]
  rfl
theorem iadd (u : Bool) (d a b : BitVec 7) (la lb : Bool) : Statement (.iadd u d a b la lb) := by
  exact ⟨t_lt _ _ _ _ _ _ _ _ (by decide) (by decide), decode_of (by
    simp only [fields_1, Dec.byMinor, t_maj, t_mn, t3_t, Nat.reduceLT])⟩
theorem isub (u : Bool) (d a b : BitVec 7) (la lb : Bool) : Statement (.isub u d a b la lb) := by
  exact ⟨t_lt _ _ _ _ _ _ _ _ (by decide) (by decide), decode_of (by
    simp only [fields_1, Dec.byMinor, t_maj, t_mn, t3_t, Nat.reduceLT])⟩
theorem imin (u : Bool) (d a b : BitVec 7) (la lb : Bool) : Statement (.imin u d a b la lb) := by
  exact ⟨t_lt _ _ _ _ _ _ _ _ (by decide) (by decide), decode_of (by
    simp only [fields_1, Dec.byMinor, t_maj, t_mn, t3_t, Nat.reduceLT])⟩
theorem imax (u : Bool) (d a b : BitVec 7) (la lb : Bool) : Statement (.imax u d a b la lb) := by
  exact ⟨t_lt _ _ _ _ _ _ _ _ (by decide) (by decide), decode_of (by
    simp only [fields_1, Dec.byMinor, t_maj, t_mn, t3_t, Nat.reduceLT])⟩
theorem imul (u : Bool) (d a b : BitVec 7) (la lb : Bool) : Statement (.imul u d a b la lb) := by
  exact ⟨t_lt _ _ _ _ _ _ _ _ (by decide) (by decide), decode_of (by
    simp only [fields_2, Dec.byMinor, t_maj, t_mn, t3_t, Nat.reduceLT])⟩
theorem imulh (u : Bool) (d a b : BitVec 7) (la lb : Bool) : Statement (.imulh u d a b la lb) := by
  exact ⟨t_lt _ _ _ _ _ _ _ _ (by decide) (by decide), decode_of (by
    simp only [fields_2, Dec.byMinor, t_maj, t_mn, t3_t, Nat.reduceLT])⟩
theorem imulhu (u : Bool) (d a b : BitVec 7) (la lb : Bool) : Statement (.imulhu u d a b la lb) := by
  exact ⟨t_lt _ _ _ _ _ _ _ _ (by decide) (by decide), decode_of (by
    simp only [fields_2, Dec.byMinor, t_maj, t_mn, t3_t, Nat.reduceLT])⟩
theorem imad (u : Bool) (d a b : BitVec 7) (la lb : Bool) : Statement (.imad u d a b la lb) := by
  exact ⟨t_lt _ _ _ _ _ _ _ _ (by decide) (by decide), decode_of (by
    simp only [fields_2, Dec.byMinor, t_maj, t_mn, t3_t, Nat.reduceLT])⟩
theorem iaddmin (u : Bool) (d a b : BitVec 7) (la lb : Bool) : Statement (.iaddmin u d a b la lb) := by
  exact ⟨t_lt _ _ _ _ _ _ _ _ (by decide) (by decide), decode_of (by
    simp only [fields_3, Dec.byMinor, t_maj, t_mn, t3_t, Nat.reduceLT])⟩
theorem iaddmax (u : Bool) (d a b : BitVec 7) (la lb : Bool) : Statement (.iaddmax u d a b la lb) := by
  exact ⟨t_lt _ _ _ _ _ _ _ _ (by decide) (by decide), decode_of (by
    simp only [fields_3, Dec.byMinor, t_maj, t_mn, t3_t, Nat.reduceLT])⟩
theorem iabsd (u : Bool) (d a b : BitVec 7) (la lb : Bool) : Statement (.iabsd u d a b la lb) := by
  exact ⟨t_lt _ _ _ _ _ _ _ _ (by decide) (by decide), decode_of (by
    simp only [fields_3, Dec.byMinor, t_maj, t_mn, t3_t, Nat.reduceLT])⟩
theorem iminu (u : Bool) (d a b : BitVec 7) (la lb : Bool) : Statement (.iminu u d a b la lb) := by
  exact ⟨t_lt _ _ _ _ _ _ _ _ (by decide) (by decide), decode_of (by
    simp only [fields_3, Dec.byMinor, t_maj, t_mn, t3_t, Nat.reduceLT])⟩
theorem andR (u : Bool) (d a b : BitVec 7) (la lb : Bool) : Statement (.andR u d a b la lb) := by
  exact ⟨t_lt _ _ _ _ _ _ _ _ (by decide) (by decide), decode_of (by
    simp only [fields_4, Dec.byMinor, t_maj, t_mn, t3_t, Nat.reduceLT])⟩
theorem orR (u : Bool) (d a b : BitVec 7) (la lb : Bool) : Statement (.orR u d a b la lb) := by
  exact ⟨t_lt _ _ _ _ _ _ _ _ (by decide) (by decide), decode_of (by
    simp only [fields_4, Dec.byMinor, t_maj, t_mn, t3_t, Nat.reduceLT])⟩
theorem xorR (u : Bool) (d a b : BitVec 7) (la lb : Bool) : Statement (.xorR u d a b la lb) := by
  exact ⟨t_lt _ _ _ _ _ _ _ _ (by decide) (by decide), decode_of (by
    simp only [fields_4, Dec.byMinor, t_maj, t_mn, t3_t, Nat.reduceLT])⟩
theorem andn (u : Bool) (d a b : BitVec 7) (la lb : Bool) : Statement (.andn u d a b la lb) := by
  exact ⟨t_lt _ _ _ _ _ _ _ _ (by decide) (by decide), decode_of (by
    simp only [fields_4, Dec.byMinor, t_maj, t_mn, t3_t, Nat.reduceLT])⟩
theorem shl (u : Bool) (d a b : BitVec 7) (la lb : Bool) : Statement (.shl u d a b la lb) := by
  exact ⟨t_lt _ _ _ _ _ _ _ _ (by decide) (by decide), decode_of (by
    simp only [fields_5, Dec.byMinor, t_maj, t_mn, t3_t, Nat.reduceLT])⟩
theorem shr (u : Bool) (d a b : BitVec 7) (la lb : Bool) : Statement (.shr u d a b la lb) := by
  exact ⟨t_lt _ _ _ _ _ _ _ _ (by decide) (by decide), decode_of (by
    simp only [fields_5, Dec.byMinor, t_maj, t_mn, t3_t, Nat.reduceLT])⟩
theorem sar (u : Bool) (d a b : BitVec 7) (la lb : Bool) : Statement (.sar u d a b la lb) := by
  exact ⟨t_lt _ _ _ _ _ _ _ _ (by decide) (by decide), decode_of (by
    simp only [fields_5, Dec.byMinor, t_maj, t_mn, t3_t, Nat.reduceLT])⟩
theorem rol (u : Bool) (d a b : BitVec 7) (la lb : Bool) : Statement (.rol u d a b la lb) := by
  exact ⟨t_lt _ _ _ _ _ _ _ _ (by decide) (by decide), decode_of (by
    simp only [fields_5, Dec.byMinor, t_maj, t_mn, t3_t, Nat.reduceLT])⟩
theorem popc (u : Bool) (d a : BitVec 7) (la : Bool) : Statement (.popc u d a la) := by
  refine ⟨?_, ?_⟩ <;> rw [tn_eq _ _ _ _ _ _ _ (by decide)]
  · exact t_lt _ _ _ _ _ _ _ _ (by decide) (by decide)
  · exact decode_of (by simp only [fields_6, Dec.byMinor, t_maj, t_mn, t2_t, Nat.reduceLT])
theorem clz (u : Bool) (d a : BitVec 7) (la : Bool) : Statement (.clz u d a la) := by
  refine ⟨?_, ?_⟩ <;> rw [tn_eq _ _ _ _ _ _ _ (by decide)]
  · exact t_lt _ _ _ _ _ _ _ _ (by decide) (by decide)
  · exact decode_of (by simp only [fields_6, Dec.byMinor, t_maj, t_mn, t2_t, Nat.reduceLT])
theorem brev (u : Bool) (d a : BitVec 7) (la : Bool) : Statement (.brev u d a la) := by
  refine ⟨?_, ?_⟩ <;> rw [tn_eq _ _ _ _ _ _ _ (by decide)]
  · exact t_lt _ _ _ _ _ _ _ _ (by decide) (by decide)
  · exact decode_of (by simp only [fields_6, Dec.byMinor, t_maj, t_mn, t2_t, Nat.reduceLT])
theorem bfx (u : Bool) (d a b : BitVec 7) (la lb : Bool) : Statement (.bfx u d a b la lb) := by
  exact ⟨t_lt _ _ _ _ _ _ _ _ (by decide) (by decide), decode_of (by
    simp only [fields_6, Dec.byMinor, t_maj, t_mn, t3_t, Nat.reduceLT])⟩
theorem mov (u : Bool) (d a : BitVec 7) (la : Bool) : Statement (.mov u d a la) := by
  refine ⟨?_, ?_⟩ <;> rw [tn_eq _ _ _ _ _ _ _ (by decide)]
  · exact t_lt _ _ _ _ _ _ _ _ (by decide) (by decide)
  · exact decode_of (by simp only [fields_7, Dec.byMinor, t_maj, t_mn, t2_t, Nat.reduceLT, Dec.moves])
theorem movp (d : BitVec 7) : Statement (.movp d) := by
  exact ⟨t_lt _ _ _ _ _ _ _ _ (by decide) (by decide), decode_of (by
    simp [fields_7, Dec.moves, Dec.guardZero, t_maj, t_mn, t_u, t_d, t_ab, t_lalb, bit_false])⟩
theorem pmov (a : BitVec 7) (la : Bool) : Statement (.pmov a la) := by
  exact ⟨t_lt _ _ _ _ _ _ _ _ (by decide) (by decide), decode_of (by
    simp [fields_7, Dec.moves, Dec.guardZero, t_maj, t_mn, t_u, t_a, t_dbits, t_bbits, t_la, t_lb])⟩
theorem bfi (u : Bool) (d a b : BitVec 7) (la lb : Bool) : Statement (.bfi u d a b la lb) := by
  exact ⟨t_lt _ _ _ _ _ _ _ _ (by decide) (by decide), decode_of (by
    simp only [fields_7, Dec.byMinor, t_maj, t_mn, t3_t, Nat.reduceLT, Dec.moves])⟩
theorem sel (u : Bool) (d a b : BitVec 7) (p : BitVec 4) : Statement (.sel u d a b p) := by
  have hd : d.toNat < 128 := d.isLt
  have hp : p.toNat < 16 := p.isLt
  exact ⟨tp_lt _ _ _ _ _ _ (by decide) hd hp, decode_of (by
    simp only [fields_8, tp_maj, tp_u, tp_d, tp_a, tp_b, tp_k4, hd, hp, Nat.reduceLT, BitVec.ofNat_toNat,
      BitVec.setWidth_eq])⟩
theorem icmp (u : Bool) (mode : CombMode) (p : BitVec 4) (a b : BitVec 7) (cond : IntCond) : Statement (.icmp u mode p a b cond) := by
  have hm : Enc.combMode mode < 3 := by cases mode <;> decide
  have hc : Enc.intCond cond < 16 := by cases cond <;> decide
  have em : Dec.combMode (Enc.combMode mode) = some mode := by cases mode <;> rfl
  have ec : Dec.intCond (Enc.intCond cond) = some cond := by cases cond <;> rfl
  exact cmp_of .icmp 9 (by decide) hm hc em ec (fun w h => by simp only [fields_9, h])
theorem fcmp (u : Bool) (mode : CombMode) (p : BitVec 4) (a b : BitVec 7) (cond : FltCond) : Statement (.fcmp u mode p a b cond) := by
  have hm : Enc.combMode mode < 3 := by cases mode <;> decide
  have hc : Enc.fltCond cond < 16 := by cases cond <;> decide
  have em : Dec.combMode (Enc.combMode mode) = some mode := by cases mode <;> rfl
  have ec : Dec.fltCond (Enc.fltCond cond) = some cond := by cases cond <;> rfl
  exact cmp_of .fcmp 10 (by decide) hm hc em ec (fun w h => by simp only [fields_10, h])
theorem dcmp (u : Bool) (mode : CombMode) (p : BitVec 4) (a b : BitVec 7) (cond : FltCond) : Statement (.dcmp u mode p a b cond) := by
  have hm : Enc.combMode mode < 3 := by cases mode <;> decide
  have hc : Enc.fltCond cond < 16 := by cases cond <;> decide
  have em : Dec.combMode (Enc.combMode mode) = some mode := by cases mode <;> rfl
  have ec : Dec.fltCond (Enc.fltCond cond) = some cond := by cases cond <;> rfl
  exact cmp_of .dcmp 11 (by decide) hm hc em ec (fun w h => by simp only [fields_11, h])
theorem pand (d a b : BitVec 4) : Statement (.pand d a b) := by
  have hd : d.toNat < 16 := d.isLt
  have kd : d.toNat < 128 := by omega
  have ha : a.toNat < 16 := a.isLt
  have ka : a.toNat < 128 := by omega
  have hb : b.toNat < 16 := b.isLt
  have kb : b.toNat < 128 := by omega
  refine ⟨p_lt _ _ _ _ _ (by decide) (by decide) (by omega) (by omega) (by omega), decode_of ?_⟩
  simp [fields_12, Dec.guardZero, Dec.preds, Dec.votes, p_maj, p_mn, p_u, p_la, p_lb, p_dhi, p_ahi, p_bhi, p_b, p_d, p_d4,
    p_a4, p_b4, hd, kd, ha, ka, hb, kb, Nat.div_eq_of_lt, Nat.mod_eq_of_lt]
theorem por (d a b : BitVec 4) : Statement (.por d a b) := by
  have hd : d.toNat < 16 := d.isLt
  have kd : d.toNat < 128 := by omega
  have ha : a.toNat < 16 := a.isLt
  have ka : a.toNat < 128 := by omega
  have hb : b.toNat < 16 := b.isLt
  have kb : b.toNat < 128 := by omega
  refine ⟨p_lt _ _ _ _ _ (by decide) (by decide) (by omega) (by omega) (by omega), decode_of ?_⟩
  simp [fields_12, Dec.guardZero, Dec.preds, Dec.votes, p_maj, p_mn, p_u, p_la, p_lb, p_dhi, p_ahi, p_bhi, p_b, p_d, p_d4,
    p_a4, p_b4, hd, kd, ha, ka, hb, kb, Nat.div_eq_of_lt, Nat.mod_eq_of_lt]
theorem pxor (d a b : BitVec 4) : Statement (.pxor d a b) := by
  have hd : d.toNat < 16 := d.isLt
  have kd : d.toNat < 128 := by omega
  have ha : a.toNat < 16 := a.isLt
  have ka : a.toNat < 128 := by omega
  have hb : b.toNat < 16 := b.isLt
  have kb : b.toNat < 128 := by omega
  refine ⟨p_lt _ _ _ _ _ (by decide) (by decide) (by omega) (by omega) (by omega), decode_of ?_⟩
  simp [fields_12, Dec.guardZero, Dec.preds, Dec.votes, p_maj, p_mn, p_u, p_la, p_lb, p_dhi, p_ahi, p_bhi, p_b, p_d, p_d4,
    p_a4, p_b4, hd, kd, ha, ka, hb, kb, Nat.div_eq_of_lt, Nat.mod_eq_of_lt]
theorem pnot (d a : BitVec 4) : Statement (.pnot d a) := by
  have hd : d.toNat < 16 := d.isLt
  have kd : d.toNat < 128 := by omega
  have ha : a.toNat < 16 := a.isLt
  have ka : a.toNat < 128 := by omega
  refine ⟨p_lt _ _ _ _ _ (by decide) (by decide) (by omega) (by omega) (by omega), decode_of ?_⟩
  simp [fields_12, Dec.guardZero, Dec.preds, Dec.votes, p_maj, p_mn, p_u, p_la, p_lb, p_dhi, p_ahi, p_bhi, p_b, p_d, p_d4,
    p_a4, p_b4, hd, kd, ha, ka, Nat.div_eq_of_lt, Nat.mod_eq_of_lt]
theorem lea (u : Bool) (d a b : BitVec 7) (sh : BitVec 2) (la lb : Bool) : Statement (.lea u d a b sh la lb) := by
  have hs : sh.toNat < 4 := sh.isLt
  exact ⟨t_lt _ _ _ _ _ _ _ _ (by decide) hs, decode_of (by
    simp only [fields_13, t_maj, t_u, t_d, t_a, t_b, t_b2, t_la, t_lb, hs, Nat.reduceLT, BitVec.ofNat_toNat,
      BitVec.setWidth_eq])⟩
theorem iadd64 (u : Bool) (d a b : BitVec 7) (la lb : Bool) : Statement (.iadd64 u d a b la lb) := by
  exact ⟨t_lt _ _ _ _ _ _ _ _ (by decide) (by decide), decode_of (by
    simp only [fields_14, Dec.byMinor, t_maj, t_mn, t3_t, Nat.reduceLT])⟩
theorem isub64 (u : Bool) (d a b : BitVec 7) (la lb : Bool) : Statement (.isub64 u d a b la lb) := by
  exact ⟨t_lt _ _ _ _ _ _ _ _ (by decide) (by decide), decode_of (by
    simp only [fields_14, Dec.byMinor, t_maj, t_mn, t3_t, Nat.reduceLT])⟩
theorem imulw (u : Bool) (d a b : BitVec 7) (la lb : Bool) : Statement (.imulw u d a b la lb) := by
  exact ⟨t_lt _ _ _ _ _ _ _ _ (by decide) (by decide), decode_of (by
    simp only [fields_14, Dec.byMinor, t_maj, t_mn, t3_t, Nat.reduceLT])⟩
theorem shl64 (u : Bool) (d a b : BitVec 7) (la lb : Bool) : Statement (.shl64 u d a b la lb) := by
  exact ⟨t_lt _ _ _ _ _ _ _ _ (by decide) (by decide), decode_of (by
    simp only [fields_14, Dec.byMinor, t_maj, t_mn, t3_t, Nat.reduceLT])⟩
theorem iaddi (u : Bool) (d a : BitVec 7) (imm : BitVec 10) (la : Bool) : Statement (.iaddi u d a imm la) := by
  exact ⟨i_lt _ _ _ _ _ _ (by decide) imm.isLt, decode_of (by
    simp only [fields_15, i_maj, imm.isLt, Nat.reduceLT, immI_i])⟩
theorem andi (u : Bool) (d a : BitVec 7) (imm : BitVec 10) (la : Bool) : Statement (.andi u d a imm la) := by
  exact ⟨i_lt _ _ _ _ _ _ (by decide) imm.isLt, decode_of (by
    simp only [fields_16, i_maj, imm.isLt, Nat.reduceLT, immI_i])⟩
theorem ori (u : Bool) (d a : BitVec 7) (imm : BitVec 10) (la : Bool) : Statement (.ori u d a imm la) := by
  exact ⟨i_lt _ _ _ _ _ _ (by decide) imm.isLt, decode_of (by
    simp only [fields_17, i_maj, imm.isLt, Nat.reduceLT, immI_i])⟩
theorem xori (u : Bool) (d a : BitVec 7) (imm : BitVec 10) (la : Bool) : Statement (.xori u d a imm la) := by
  exact ⟨i_lt _ _ _ _ _ _ (by decide) imm.isLt, decode_of (by
    simp only [fields_18, i_maj, imm.isLt, Nat.reduceLT, immI_i])⟩
theorem shli (u : Bool) (d a : BitVec 7) (amt : BitVec 5) (la : Bool) : Statement (.shli u d a amt la) := by
  have ha : amt.toNat < 32 := amt.isLt
  have hi : 0 + amt.toNat < 1024 := by omega
  have h1 : (0 + amt.toNat) / 256 = 0 := by omega
  have h2 : (0 + amt.toNat) % 256 / 32 = 0 := by omega
  have h3 : BitVec.ofNat 5 (0 + amt.toNat) = amt := by
    apply BitVec.eq_of_toNat_eq; rw [BitVec.toNat_ofNat]; omega
  exact ⟨i_lt _ _ _ _ _ _ (by decide) hi, decode_of (by
    simp only [fields_19, Dec.shiftI, Dec.guardZero, i_maj, i_u, i_d, i_a, i_la, i_hi, i_mid, i_imm5, hi, h1, h2, h3,
      Nat.reduceLT, BEq.rfl, ↓reduceIte])⟩
theorem shri (u : Bool) (d a : BitVec 7) (amt : BitVec 5) (la : Bool) : Statement (.shri u d a amt la) := by
  have ha : amt.toNat < 32 := amt.isLt
  have hi : 256 + amt.toNat < 1024 := by omega
  have h1 : (256 + amt.toNat) / 256 = 1 := by omega
  have h2 : (256 + amt.toNat) % 256 / 32 = 0 := by omega
  have h3 : BitVec.ofNat 5 (256 + amt.toNat) = amt := by
    apply BitVec.eq_of_toNat_eq; rw [BitVec.toNat_ofNat]; omega
  exact ⟨i_lt _ _ _ _ _ _ (by decide) hi, decode_of (by
    simp only [fields_19, Dec.shiftI, Dec.guardZero, i_maj, i_u, i_d, i_a, i_la, i_hi, i_mid, i_imm5, hi, h1, h2, h3,
      Nat.reduceLT, BEq.rfl, ↓reduceIte])⟩
theorem sari (u : Bool) (d a : BitVec 7) (amt : BitVec 5) (la : Bool) : Statement (.sari u d a amt la) := by
  have ha : amt.toNat < 32 := amt.isLt
  have hi : 512 + amt.toNat < 1024 := by omega
  have h1 : (512 + amt.toNat) / 256 = 2 := by omega
  have h2 : (512 + amt.toNat) % 256 / 32 = 0 := by omega
  have h3 : BitVec.ofNat 5 (512 + amt.toNat) = amt := by
    apply BitVec.eq_of_toNat_eq; rw [BitVec.toNat_ofNat]; omega
  exact ⟨i_lt _ _ _ _ _ _ (by decide) hi, decode_of (by
    simp only [fields_19, Dec.shiftI, Dec.guardZero, i_maj, i_u, i_d, i_a, i_la, i_hi, i_mid, i_imm5, hi, h1, h2, h3,
      Nat.reduceLT, BEq.rfl, ↓reduceIte])⟩
theorem roli (u : Bool) (d a : BitVec 7) (amt : BitVec 5) (la : Bool) : Statement (.roli u d a amt la) := by
  have ha : amt.toNat < 32 := amt.isLt
  have hi : 768 + amt.toNat < 1024 := by omega
  have h1 : (768 + amt.toNat) / 256 = 3 := by omega
  have h2 : (768 + amt.toNat) % 256 / 32 = 0 := by omega
  have h3 : BitVec.ofNat 5 (768 + amt.toNat) = amt := by
    apply BitVec.eq_of_toNat_eq; rw [BitVec.toNat_ofNat]; omega
  exact ⟨i_lt _ _ _ _ _ _ (by decide) hi, decode_of (by
    simp only [fields_19, Dec.shiftI, Dec.guardZero, i_maj, i_u, i_d, i_a, i_la, i_hi, i_mid, i_imm5, hi, h1, h2, h3,
      Nat.reduceLT, BEq.rfl, ↓reduceIte])⟩
theorem movi (u : Bool) (d : BitVec 7) (imm : BitVec 18) : Statement (.movi u d imm) := by
  exact ⟨i0_lt _ _ _ _ imm.isLt (by decide), decode_of (by
    simp only [fields_20, i0_maj, i0_u, i0_d, i0_imm, imm.isLt, Nat.reduceLT, BitVec.ofNat_toNat, BitVec.setWidth_eq])⟩
theorem movh (u : Bool) (d : BitVec 7) (imm : BitVec 14) : Statement (.movh u d imm) := by
  have h : imm.toNat < 16384 := imm.isLt
  have h18 : imm.toNat < 2 ^ 18 := by omega
  have h0 : imm.toNat / 16384 = 0 := by omega
  exact ⟨i0_lt _ _ _ _ h18 (by decide), decode_of (by
    simp only [fields_21, Dec.guardZero, i0_maj, i0_u, i0_d, i0_imm14, i0_top, h18, h0, Nat.reduceLT, BitVec.ofNat_toNat,
      BitVec.setWidth_eq, BEq.rfl, ↓reduceIte])⟩
theorem fadd (u : Bool) (d a b : BitVec 7) (la lb : Bool) : Statement (.fadd u d a b la lb) := by
  exact ⟨t_lt _ _ _ _ _ _ _ _ (by decide) (by decide), decode_of (by
    simp only [fields_22, Dec.byMinor, t_maj, t_mn, t3_t, Nat.reduceLT])⟩
theorem fsub (u : Bool) (d a b : BitVec 7) (la lb : Bool) : Statement (.fsub u d a b la lb) := by
  exact ⟨t_lt _ _ _ _ _ _ _ _ (by decide) (by decide), decode_of (by
    simp only [fields_22, Dec.byMinor, t_maj, t_mn, t3_t, Nat.reduceLT])⟩
theorem fmul (u : Bool) (d a b : BitVec 7) (la lb : Bool) : Statement (.fmul u d a b la lb) := by
  exact ⟨t_lt _ _ _ _ _ _ _ _ (by decide) (by decide), decode_of (by
    simp only [fields_22, Dec.byMinor, t_maj, t_mn, t3_t, Nat.reduceLT])⟩
theorem fmin (u : Bool) (d a b : BitVec 7) (la lb : Bool) : Statement (.fmin u d a b la lb) := by
  exact ⟨t_lt _ _ _ _ _ _ _ _ (by decide) (by decide), decode_of (by
    simp only [fields_22, Dec.byMinor, t_maj, t_mn, t3_t, Nat.reduceLT])⟩
theorem fmax (u : Bool) (d a b : BitVec 7) (la lb : Bool) : Statement (.fmax u d a b la lb) := by
  exact ⟨t_lt _ _ _ _ _ _ _ _ (by decide) (by decide), decode_of (by
    simp only [fields_23, Dec.byMinor, t_maj, t_mn, t3_t, Nat.reduceLT])⟩
theorem ffma (u : Bool) (d a b : BitVec 7) (la lb : Bool) : Statement (.ffma u d a b la lb) := by
  exact ⟨t_lt _ _ _ _ _ _ _ _ (by decide) (by decide), decode_of (by
    simp only [fields_23, Dec.byMinor, t_maj, t_mn, t3_t, Nat.reduceLT])⟩
theorem ffms (u : Bool) (d a b : BitVec 7) (la lb : Bool) : Statement (.ffms u d a b la lb) := by
  exact ⟨t_lt _ _ _ _ _ _ _ _ (by decide) (by decide), decode_of (by
    simp only [fields_23, Dec.byMinor, t_maj, t_mn, t3_t, Nat.reduceLT])⟩
theorem fdiv (u : Bool) (d a b : BitVec 7) (la lb : Bool) : Statement (.fdiv u d a b la lb) := by
  exact ⟨t_lt _ _ _ _ _ _ _ _ (by decide) (by decide), decode_of (by
    simp only [fields_23, Dec.byMinor, t_maj, t_mn, t3_t, Nat.reduceLT])⟩
theorem fsqrt (u : Bool) (d a : BitVec 7) (la : Bool) : Statement (.fsqrt u d a la) := by
  exact func_of .fsqrt 0 (by decide) (fun w h => by simp only [Dec.funcs, h, code_some])
theorem frcp (u : Bool) (d a : BitVec 7) (la : Bool) : Statement (.frcp u d a la) := by
  exact func_of .frcp 1 (by decide) (fun w h => by simp only [Dec.funcs, h, code_some])
theorem frsq (u : Bool) (d a : BitVec 7) (la : Bool) : Statement (.frsq u d a la) := by
  exact func_of .frsq 2 (by decide) (fun w h => by simp only [Dec.funcs, h, code_some])
theorem fexp2 (u : Bool) (d a : BitVec 7) (la : Bool) : Statement (.fexp2 u d a la) := by
  exact func_of .fexp2 3 (by decide) (fun w h => by simp only [Dec.funcs, h, code_some])
theorem flog2 (u : Bool) (d a : BitVec 7) (la : Bool) : Statement (.flog2 u d a la) := by
  exact func_of .flog2 4 (by decide) (fun w h => by simp only [Dec.funcs, h, code_some])
theorem fsin (u : Bool) (d a : BitVec 7) (la : Bool) : Statement (.fsin u d a la) := by
  exact func_of .fsin 5 (by decide) (fun w h => by simp only [Dec.funcs, h, code_some])
theorem fcos (u : Bool) (d a : BitVec 7) (la : Bool) : Statement (.fcos u d a la) := by
  exact func_of .fcos 6 (by decide) (fun w h => by simp only [Dec.funcs, h, code_some])
theorem fabs (u : Bool) (d a : BitVec 7) (la : Bool) : Statement (.fabs u d a la) := by
  exact func_of .fabs 7 (by decide) (fun w h => by simp only [Dec.funcs, h, code_some])
theorem fneg (u : Bool) (d a : BitVec 7) (la : Bool) : Statement (.fneg u d a la) := by
  exact func_of .fneg 8 (by decide) (fun w h => by simp only [Dec.funcs, h, code_some])
theorem ffloor (u : Bool) (d a : BitVec 7) (la : Bool) : Statement (.ffloor u d a la) := by
  exact func_of .ffloor 9 (by decide) (fun w h => by simp only [Dec.funcs, h, code_some])
theorem fceil (u : Bool) (d a : BitVec 7) (la : Bool) : Statement (.fceil u d a la) := by
  exact func_of .fceil 10 (by decide) (fun w h => by simp only [Dec.funcs, h, code_some])
theorem ftrunc (u : Bool) (d a : BitVec 7) (la : Bool) : Statement (.ftrunc u d a la) := by
  exact func_of .ftrunc 11 (by decide) (fun w h => by simp only [Dec.funcs, h, code_some])
theorem frint (u : Bool) (d a : BitVec 7) (la : Bool) : Statement (.frint u d a la) := by
  exact func_of .frint 12 (by decide) (fun w h => by simp only [Dec.funcs, h, code_some])
theorem dadd (u : Bool) (d a b : BitVec 7) (la lb : Bool) : Statement (.dadd u d a b la lb) := by
  exact ⟨t_lt _ _ _ _ _ _ _ _ (by decide) (by decide), decode_of (by
    simp only [fields_25, Dec.byMinor, t_maj, t_mn, t3_t, Nat.reduceLT])⟩
theorem dsub (u : Bool) (d a b : BitVec 7) (la lb : Bool) : Statement (.dsub u d a b la lb) := by
  exact ⟨t_lt _ _ _ _ _ _ _ _ (by decide) (by decide), decode_of (by
    simp only [fields_25, Dec.byMinor, t_maj, t_mn, t3_t, Nat.reduceLT])⟩
theorem dmul (u : Bool) (d a b : BitVec 7) (la lb : Bool) : Statement (.dmul u d a b la lb) := by
  exact ⟨t_lt _ _ _ _ _ _ _ _ (by decide) (by decide), decode_of (by
    simp only [fields_25, Dec.byMinor, t_maj, t_mn, t3_t, Nat.reduceLT])⟩
theorem dfma (u : Bool) (d a b : BitVec 7) (la lb : Bool) : Statement (.dfma u d a b la lb) := by
  exact ⟨t_lt _ _ _ _ _ _ _ _ (by decide) (by decide), decode_of (by
    simp only [fields_25, Dec.byMinor, t_maj, t_mn, t3_t, Nat.reduceLT])⟩
theorem ddiv (u : Bool) (d a b : BitVec 7) (la lb : Bool) : Statement (.ddiv u d a b la lb) := by
  exact ⟨t_lt _ _ _ _ _ _ _ _ (by decide) (by decide), decode_of (by
    simp only [fields_26, Dec.byMinor, t_maj, t_mn, t3_t, Nat.reduceLT])⟩
theorem dsqrt (u : Bool) (d a : BitVec 7) (la : Bool) : Statement (.dsqrt u d a la) := by
  refine ⟨?_, ?_⟩ <;> rw [tn_eq _ _ _ _ _ _ _ (by decide)]
  · exact t_lt _ _ _ _ _ _ _ _ (by decide) (by decide)
  · exact decode_of (by simp only [fields_26, Dec.byMinor, t_maj, t_mn, t2_t, Nat.reduceLT])
theorem dmin (u : Bool) (d a b : BitVec 7) (la lb : Bool) : Statement (.dmin u d a b la lb) := by
  exact ⟨t_lt _ _ _ _ _ _ _ _ (by decide) (by decide), decode_of (by
    simp only [fields_26, Dec.byMinor, t_maj, t_mn, t3_t, Nat.reduceLT])⟩
theorem dmax (u : Bool) (d a b : BitVec 7) (la lb : Bool) : Statement (.dmax u d a b la lb) := by
  exact ⟨t_lt _ _ _ _ _ _ _ _ (by decide) (by decide), decode_of (by
    simp only [fields_26, Dec.byMinor, t_maj, t_mn, t3_t, Nat.reduceLT])⟩
theorem hadd2 (u : Bool) (d a b : BitVec 7) (la lb : Bool) : Statement (.hadd2 u d a b la lb) := by
  exact ⟨t_lt _ _ _ _ _ _ _ _ (by decide) (by decide), decode_of (by
    simp only [fields_27, Dec.byMinor, t_maj, t_mn, t3_t, Nat.reduceLT])⟩
theorem hmul2 (u : Bool) (d a b : BitVec 7) (la lb : Bool) : Statement (.hmul2 u d a b la lb) := by
  exact ⟨t_lt _ _ _ _ _ _ _ _ (by decide) (by decide), decode_of (by
    simp only [fields_27, Dec.byMinor, t_maj, t_mn, t3_t, Nat.reduceLT])⟩
theorem hfma2 (u : Bool) (d a b : BitVec 7) (la lb : Bool) : Statement (.hfma2 u d a b la lb) := by
  exact ⟨t_lt _ _ _ _ _ _ _ _ (by decide) (by decide), decode_of (by
    simp only [fields_27, Dec.byMinor, t_maj, t_mn, t3_t, Nat.reduceLT])⟩
theorem bfma2 (u : Bool) (d a b : BitVec 7) (la lb : Bool) : Statement (.bfma2 u d a b la lb) := by
  exact ⟨t_lt _ _ _ _ _ _ _ _ (by decide) (by decide), decode_of (by
    simp only [fields_27, Dec.byMinor, t_maj, t_mn, t3_t, Nat.reduceLT])⟩
theorem cvt (u : Bool) (d a : BitVec 7) (code : BitVec 5) (la : Bool) : Statement (.cvt u d a code la) := by
  have hc : code.toNat < 32 := code.isLt
  have e7 : (BitVec.ofNat 7 code.toNat).toNat = code.toNat := by rw [BitVec.toNat_ofNat]; omega
  have hb : Nat.blt 31 code.toNat = false := by rw [Bool.eq_false_iff, ne_eq, Nat.blt_eq]; omega
  have hcode : code.toNat < 128 := by omega
  rw [Statement, show encode (.cvt u d a code la) = some (Enc.t 28 0 u d a (BitVec.ofNat 7 code.toNat) la false) from congrArg some (tn_eq 28 0 u d a code.toNat la hcode)]
  refine ⟨t_lt _ _ _ _ _ _ _ _ (by decide) (by decide), decode_of ?_⟩
  have f0 := t_maj 28 0 u d a (BitVec.ofNat 7 code.toNat) la false (by decide) (by decide)
  have f1 := t_mn 28 0 u d a (BitVec.ofNat 7 code.toNat) la false (by decide)
  have f2 := t_u 28 0 u d a (BitVec.ofNat 7 code.toNat) la false (by decide)
  have f3 := t_d 28 0 u d a (BitVec.ofNat 7 code.toNat) la false (by decide)
  have f4 := t_a 28 0 u d a (BitVec.ofNat 7 code.toNat) la false (by decide)
  have f5 := t_la 28 0 u d a (BitVec.ofNat 7 code.toNat) la false (by decide)
  have f6 := t_lb 28 0 u d a (BitVec.ofNat 7 code.toNat) la false (by decide)
  have f7 := t_bbits 28 0 u d a (BitVec.ofNat 7 code.toNat) la false (by decide)
  have f8 := t_b5 28 0 u d a (BitVec.ofNat 7 code.toNat) la false (by decide)
  generalize Enc.t 28 0 u d a (BitVec.ofNat 7 code.toNat) la false = w at *
  rw [e7] at f7 f8
  rw [fields_28 f0, f7, hb, f1, f2, f3, f4, f5, f6, f8, BitVec.ofNat_toNat, BitVec.setWidth_eq]
  rfl
theorem digits (d a : BitVec 7) (ty : SibType) (la : Bool) : Statement (.digits d a ty la) := by
  have hs : Enc.sibType ty < 4 := by cases ty <;> decide
  have es : Dec.sibType (Enc.sibType ty) = ty := by cases ty <;> rfl
  have hb : Enc.sibType ty * 32 < 128 := by omega
  have e7 : (BitVec.ofNat 7 (Enc.sibType ty * 32)).toNat = Enc.sibType ty * 32 := by rw [BitVec.toNat_ofNat]; omega
  rw [Statement, show encode (.digits d a ty la) = some (Enc.t 29 0 false d a (BitVec.ofNat 7 (Enc.sibType ty * 32)) la false)
    from congrArg some (tn_eq 29 0 false d a (Enc.sibType ty * 32) la hb)]
  refine ⟨t_lt _ _ _ _ _ _ _ _ (by decide) (by decide), decode_of ?_⟩
  have f0 := t_maj 29 0 false d a (BitVec.ofNat 7 (Enc.sibType ty * 32)) la false (by decide) (by decide)
  have f1 := t_mn 29 0 false d a (BitVec.ofNat 7 (Enc.sibType ty * 32)) la false (by decide)
  have f2 := t_u 29 0 false d a (BitVec.ofNat 7 (Enc.sibType ty * 32)) la false (by decide)
  have f3 := t_d 29 0 false d a (BitVec.ofNat 7 (Enc.sibType ty * 32)) la false (by decide)
  have f4 := t_a 29 0 false d a (BitVec.ofNat 7 (Enc.sibType ty * 32)) la false (by decide)
  have f5 := t_la 29 0 false d a (BitVec.ofNat 7 (Enc.sibType ty * 32)) la false (by decide)
  have f6 := t_lb 29 0 false d a (BitVec.ofNat 7 (Enc.sibType ty * 32)) la false (by decide)
  have f7 := t_bhi 29 0 false d a (BitVec.ofNat 7 (Enc.sibType ty * 32)) la false (by decide)
  have f8 := t_blo 29 0 false d a (BitVec.ofNat 7 (Enc.sibType ty * 32)) la false (by decide)
  generalize Enc.t 29 0 false d a (BitVec.ofNat 7 (Enc.sibType ty * 32)) la false = w at *
  rw [e7] at f7 f8
  rw [show Enc.sibType ty * 32 / 32 = Enc.sibType ty by omega] at f7
  rw [show Enc.sibType ty * 32 % 32 = 0 by omega] at f8
  rw [fields_29 f0, Dec.sibs, f1, f2, f3, f4, f5, f6, f7, f8, es]
  rfl
theorem sib (d a : BitVec 7) (ty : SibType) (k : BitVec 2) (la : Bool) : Statement (.sib d a ty k la) := by
  have hc : k.toNat < 4 := k.isLt
  have hs : Enc.sibType ty < 4 := by cases ty <;> decide
  have es : Dec.sibType (Enc.sibType ty) = ty := by cases ty <;> rfl
  have hb : Enc.sibType ty * 32 + k.toNat < 128 := by omega
  have e7 : (BitVec.ofNat 7 (Enc.sibType ty * 32 + k.toNat)).toNat = Enc.sibType ty * 32 + k.toNat := by
    rw [BitVec.toNat_ofNat]; omega
  have h2 : BitVec.ofNat 2 (Enc.sibType ty * 32 + k.toNat) = k := by
    apply BitVec.eq_of_toNat_eq; rw [BitVec.toNat_ofNat]; omega
  rw [Statement, show encode (.sib d a ty k la) = some (Enc.t 29 1 false d a (BitVec.ofNat 7 (Enc.sibType ty * 32 + k.toNat)) la false) from congrArg some (tn_eq 29 1 false d a (Enc.sibType ty * 32 + k.toNat) la hb)]
  refine ⟨t_lt _ _ _ _ _ _ _ _ (by decide) (by decide), fun wf => decode_of ?_ wf⟩
  have hk : Nat.blt 2 k.toNat = false := by
    rw [Bool.eq_false_iff, ne_eq, Nat.blt_eq]
    have h3 : k ≠ 3#2 := by rintro rfl; simp [Instr.wf] at wf
    have : k.toNat ≠ 3 := fun e => h3 (BitVec.eq_of_toNat_eq e)
    omega
  have f0 := t_maj 29 1 false d a (BitVec.ofNat 7 (Enc.sibType ty * 32 + k.toNat)) la false (by decide) (by decide)
  have f1 := t_mn 29 1 false d a (BitVec.ofNat 7 (Enc.sibType ty * 32 + k.toNat)) la false (by decide)
  have f2 := t_u 29 1 false d a (BitVec.ofNat 7 (Enc.sibType ty * 32 + k.toNat)) la false (by decide)
  have f3 := t_d 29 1 false d a (BitVec.ofNat 7 (Enc.sibType ty * 32 + k.toNat)) la false (by decide)
  have f4 := t_a 29 1 false d a (BitVec.ofNat 7 (Enc.sibType ty * 32 + k.toNat)) la false (by decide)
  have f5 := t_la 29 1 false d a (BitVec.ofNat 7 (Enc.sibType ty * 32 + k.toNat)) la false (by decide)
  have f6 := t_lb 29 1 false d a (BitVec.ofNat 7 (Enc.sibType ty * 32 + k.toNat)) la false (by decide)
  have f7 := t_bhi 29 1 false d a (BitVec.ofNat 7 (Enc.sibType ty * 32 + k.toNat)) la false (by decide)
  have f8 := t_blo 29 1 false d a (BitVec.ofNat 7 (Enc.sibType ty * 32 + k.toNat)) la false (by decide)
  have f9 := t_b2lo 29 1 false d a (BitVec.ofNat 7 (Enc.sibType ty * 32 + k.toNat)) la false (by decide)
  generalize Enc.t 29 1 false d a (BitVec.ofNat 7 (Enc.sibType ty * 32 + k.toNat)) la false = w at *
  rw [e7] at f7 f8 f9
  rw [show (Enc.sibType ty * 32 + k.toNat) / 32 = Enc.sibType ty by omega] at f7
  rw [show (Enc.sibType ty * 32 + k.toNat) % 32 = k.toNat by omega] at f8
  rw [fields_29 f0, Dec.sibs, f1, f2, f3, f4, f5, f6, f7, f8, f9, h2, es]
  simp only [hk, Bool.or_self, Bool.false_eq_true, ↓reduceIte]
theorem mean (d a : BitVec 7) (ty : SibType) (la : Bool) : Statement (.mean d a ty la) := by
  have hs : Enc.sibType ty < 4 := by cases ty <;> decide
  have es : Dec.sibType (Enc.sibType ty) = ty := by cases ty <;> rfl
  have hb : Enc.sibType ty * 32 < 128 := by omega
  have e7 : (BitVec.ofNat 7 (Enc.sibType ty * 32)).toNat = Enc.sibType ty * 32 := by rw [BitVec.toNat_ofNat]; omega
  rw [Statement, show encode (.mean d a ty la) = some (Enc.t 29 2 false d a (BitVec.ofNat 7 (Enc.sibType ty * 32)) la false)
    from congrArg some (tn_eq 29 2 false d a (Enc.sibType ty * 32) la hb)]
  refine ⟨t_lt _ _ _ _ _ _ _ _ (by decide) (by decide), decode_of ?_⟩
  have f0 := t_maj 29 2 false d a (BitVec.ofNat 7 (Enc.sibType ty * 32)) la false (by decide) (by decide)
  have f1 := t_mn 29 2 false d a (BitVec.ofNat 7 (Enc.sibType ty * 32)) la false (by decide)
  have f2 := t_u 29 2 false d a (BitVec.ofNat 7 (Enc.sibType ty * 32)) la false (by decide)
  have f3 := t_d 29 2 false d a (BitVec.ofNat 7 (Enc.sibType ty * 32)) la false (by decide)
  have f4 := t_a 29 2 false d a (BitVec.ofNat 7 (Enc.sibType ty * 32)) la false (by decide)
  have f5 := t_la 29 2 false d a (BitVec.ofNat 7 (Enc.sibType ty * 32)) la false (by decide)
  have f6 := t_lb 29 2 false d a (BitVec.ofNat 7 (Enc.sibType ty * 32)) la false (by decide)
  have f7 := t_bhi 29 2 false d a (BitVec.ofNat 7 (Enc.sibType ty * 32)) la false (by decide)
  have f8 := t_blo 29 2 false d a (BitVec.ofNat 7 (Enc.sibType ty * 32)) la false (by decide)
  generalize Enc.t 29 2 false d a (BitVec.ofNat 7 (Enc.sibType ty * 32)) la false = w at *
  rw [e7] at f7 f8
  rw [show Enc.sibType ty * 32 / 32 = Enc.sibType ty by omega] at f7
  rw [show Enc.sibType ty * 32 % 32 = 0 by omega] at f8
  rw [fields_29 f0, Dec.sibs, f1, f2, f3, f4, f5, f6, f7, f8, es]
  rfl
theorem chkd (a : BitVec 7) (ty : SibType) (c : BitVec 5) (la : Bool) : Statement (.chkd a ty c la) := by
  have hc : c.toNat < 32 := c.isLt
  have hs : Enc.sibType ty < 4 := by cases ty <;> decide
  have es : Dec.sibType (Enc.sibType ty) = ty := by cases ty <;> rfl
  have hb : Enc.sibType ty * 32 + c.toNat < 128 := by omega
  have e7 : (BitVec.ofNat 7 (Enc.sibType ty * 32 + c.toNat)).toNat = Enc.sibType ty * 32 + c.toNat := by
    rw [BitVec.toNat_ofNat]; omega
  have h2 : BitVec.ofNat 5 (Enc.sibType ty * 32 + c.toNat) = c := by
    apply BitVec.eq_of_toNat_eq; rw [BitVec.toNat_ofNat]; omega
  rw [Statement, show encode (.chkd a ty c la) = some (Enc.t 29 3 false 0 a (BitVec.ofNat 7 (Enc.sibType ty * 32 + c.toNat)) la false) from congrArg some (tn_eq 29 3 false 0 a (Enc.sibType ty * 32 + c.toNat) la hb)]
  refine ⟨t_lt _ _ _ _ _ _ _ _ (by decide) (by decide), decode_of ?_⟩
  have f0 := t_maj 29 3 false 0 a (BitVec.ofNat 7 (Enc.sibType ty * 32 + c.toNat)) la false (by decide) (by decide)
  have f1 := t_mn 29 3 false 0 a (BitVec.ofNat 7 (Enc.sibType ty * 32 + c.toNat)) la false (by decide)
  have f2 := t_u 29 3 false 0 a (BitVec.ofNat 7 (Enc.sibType ty * 32 + c.toNat)) la false (by decide)
  have f3 := t_d 29 3 false 0 a (BitVec.ofNat 7 (Enc.sibType ty * 32 + c.toNat)) la false (by decide)
  have f4 := t_a 29 3 false 0 a (BitVec.ofNat 7 (Enc.sibType ty * 32 + c.toNat)) la false (by decide)
  have f5 := t_la 29 3 false 0 a (BitVec.ofNat 7 (Enc.sibType ty * 32 + c.toNat)) la false (by decide)
  have f6 := t_lb 29 3 false 0 a (BitVec.ofNat 7 (Enc.sibType ty * 32 + c.toNat)) la false (by decide)
  have f7 := t_bhi 29 3 false 0 a (BitVec.ofNat 7 (Enc.sibType ty * 32 + c.toNat)) la false (by decide)
  have f8 := t_b5 29 3 false 0 a (BitVec.ofNat 7 (Enc.sibType ty * 32 + c.toNat)) la false (by decide)
  have f9 := t_dbits 29 3 false 0 a (BitVec.ofNat 7 (Enc.sibType ty * 32 + c.toNat)) la false (by decide)
  generalize Enc.t 29 3 false 0 a (BitVec.ofNat 7 (Enc.sibType ty * 32 + c.toNat)) la false = w at *
  rw [e7] at f7 f8
  rw [show (Enc.sibType ty * 32 + c.toNat) / 32 = Enc.sibType ty by omega] at f7
  rw [fields_29 f0, Dec.sibs, f1, f2, f4, f5, f6, f7, f8, f9, h2, es]
  rfl
theorem solo : Statement .solo := by
  refine ⟨x_lt _ _ _ _ _ (by decide) (by decide) (by omega) (by omega) (by omega), decode_of ?_⟩
  simp [fields_30, Dec.guardZero, Dec.xz, x_maj, x_sub, x_dbits, x_abits, x_bbits, x_d, x_a, x_b]
theorem trio : Statement .trio := by
  refine ⟨x_lt _ _ _ _ _ (by decide) (by decide) (by omega) (by omega) (by omega), decode_of ?_⟩
  simp [fields_30, Dec.guardZero, Dec.xz, x_maj, x_sub, x_dbits, x_abits, x_bbits, x_d, x_a, x_b]
theorem qbx (fmt : BxFmt) (had : Hadamard) (d a b : BitVec 7) : Statement (.qbx fmt had d a b) := by
  have hf : Enc.bxFmt fmt < 3 := by cases fmt <;> decide
  have ef : Dec.bxFmt (Enc.bxFmt fmt) = some fmt := by cases fmt <;> rfl
  have hh : Enc.hadamard had < 3 := by cases had <;> decide
  have eh : Dec.hadamard (Enc.hadamard had) = some had := by cases had <;> rfl
  have hs : (Enc.bxFmt fmt * 4 + Enc.hadamard had) < 32 := by omega
  have hd : d.toNat < 128 := d.isLt
  have ha : a.toNat < 128 := a.isLt
  have hb : b.toNat < 128 := b.isLt
  refine ⟨x_lt _ _ _ _ _ (by decide) hs hd ha hb, decode_of ?_⟩
  have fm := x_maj 31 (Enc.bxFmt fmt * 4 + Enc.hadamard had) d.toNat a.toNat b.toNat (by decide) hs hd ha hb
  have f2 := x_d 31 (Enc.bxFmt fmt * 4 + Enc.hadamard had) d.toNat a.toNat b.toNat hd ha hb
  have f3 := x_a 31 (Enc.bxFmt fmt * 4 + Enc.hadamard had) d.toNat a.toNat b.toNat ha hb
  have f4 := x_b 31 (Enc.bxFmt fmt * 4 + Enc.hadamard had) d.toNat a.toNat b.toNat hb
  have f5 := x_top 31 (Enc.bxFmt fmt * 4 + Enc.hadamard had) d.toNat a.toNat b.toNat hs hd ha hb
  have f6 := x_fmt 31 (Enc.bxFmt fmt * 4 + Enc.hadamard had) d.toNat a.toNat b.toNat hs hd ha hb
  have f7 := x_had 31 (Enc.bxFmt fmt * 4 + Enc.hadamard had) d.toNat a.toNat b.toNat hs hd ha hb
  rw [show (Enc.bxFmt fmt * 4 + Enc.hadamard had) / 16 = 0 by omega] at f5
  rw [show (Enc.bxFmt fmt * 4 + Enc.hadamard had) % 16 / 4 = Enc.bxFmt fmt by omega] at f6
  rw [show (Enc.bxFmt fmt * 4 + Enc.hadamard had) % 4 = Enc.hadamard had by omega] at f7
  generalize Enc.x 31 (Enc.bxFmt fmt * 4 + Enc.hadamard had) d.toNat a.toNat b.toNat = w at *
  rw [fields_31 fm, Dec.qbxs, f6, ef, code_some, f7, eh, code_some, f5, f2, f3, f4]
  simp only [Nat.reduceBEq, Bool.false_eq_true, ↓reduceIte, BitVec.ofNat_toNat, BitVec.setWidth_eq]
theorem dqbx (fmt : BxFmt) (d a b : BitVec 7) : Statement (.dqbx fmt d a b) := by
  have hf : Enc.bxFmt fmt < 3 := by cases fmt <;> decide
  have ef : Dec.bxFmt (Enc.bxFmt fmt) = some fmt := by cases fmt <;> rfl
  have hs : (16 + Enc.bxFmt fmt * 4) < 32 := by omega
  have hd : d.toNat < 128 := d.isLt
  have ha : a.toNat < 128 := a.isLt
  have hb : b.toNat < 128 := b.isLt
  refine ⟨x_lt _ _ _ _ _ (by decide) hs hd ha hb, decode_of ?_⟩
  have fm := x_maj 31 (16 + Enc.bxFmt fmt * 4) d.toNat a.toNat b.toNat (by decide) hs hd ha hb
  have f2 := x_d 31 (16 + Enc.bxFmt fmt * 4) d.toNat a.toNat b.toNat hd ha hb
  have f3 := x_a 31 (16 + Enc.bxFmt fmt * 4) d.toNat a.toNat b.toNat ha hb
  have f4 := x_b 31 (16 + Enc.bxFmt fmt * 4) d.toNat a.toNat b.toNat hb
  have f5 := x_top 31 (16 + Enc.bxFmt fmt * 4) d.toNat a.toNat b.toNat hs hd ha hb
  have f6 := x_fmt 31 (16 + Enc.bxFmt fmt * 4) d.toNat a.toNat b.toNat hs hd ha hb
  have f7 := x_had 31 (16 + Enc.bxFmt fmt * 4) d.toNat a.toNat b.toNat hs hd ha hb
  rw [show (16 + Enc.bxFmt fmt * 4) / 16 = 1 by omega] at f5
  rw [show (16 + Enc.bxFmt fmt * 4) % 16 / 4 = Enc.bxFmt fmt by omega] at f6
  rw [show (16 + Enc.bxFmt fmt * 4) % 4 = 0 by omega] at f7
  generalize Enc.x 31 (16 + Enc.bxFmt fmt * 4) d.toNat a.toNat b.toNat = w at *
  rw [fields_31 fm, Dec.qbxs, f6, ef, code_some, f7, show Dec.hadamard 0 = some .none from rfl, code_some, f5, f2, f3, f4]
  simp only [BEq.rfl, ↓reduceIte, BitVec.ofNat_toNat, BitVec.setWidth_eq]
theorem shflIdx (d a b : BitVec 7) (la lb : Bool) : Statement (.shflIdx d a b la lb) := by
  exact ⟨t_lt _ _ _ _ _ _ _ _ (by decide) (by decide), decode_of (by
    simp only [fields_32, Dec.byMinor, t_maj, t_mn, t3_t, Nat.reduceLT, Dec.shfls, Dec.guardZero, Bool.not_false, ↓reduceIte, t_u, t_d, t_a, t_b, t_la, t_lb])⟩
theorem shflUp (d a b : BitVec 7) (la lb : Bool) : Statement (.shflUp d a b la lb) := by
  exact ⟨t_lt _ _ _ _ _ _ _ _ (by decide) (by decide), decode_of (by
    simp only [fields_32, Dec.byMinor, t_maj, t_mn, t3_t, Nat.reduceLT, Dec.shfls, Dec.guardZero, Bool.not_false, ↓reduceIte, t_u, t_d, t_a, t_b, t_la, t_lb])⟩
theorem shflDn (d a b : BitVec 7) (la lb : Bool) : Statement (.shflDn d a b la lb) := by
  exact ⟨t_lt _ _ _ _ _ _ _ _ (by decide) (by decide), decode_of (by
    simp only [fields_32, Dec.byMinor, t_maj, t_mn, t3_t, Nat.reduceLT, Dec.shfls, Dec.guardZero, Bool.not_false, ↓reduceIte, t_u, t_d, t_a, t_b, t_la, t_lb])⟩
theorem shflXor (d a b : BitVec 7) (la lb : Bool) : Statement (.shflXor d a b la lb) := by
  exact ⟨t_lt _ _ _ _ _ _ _ _ (by decide) (by decide), decode_of (by
    simp only [fields_32, Dec.byMinor, t_maj, t_mn, t3_t, Nat.reduceLT, Dec.shfls, Dec.guardZero, Bool.not_false, ↓reduceIte, t_u, t_d, t_a, t_b, t_la, t_lb])⟩
theorem voteAny (d a : BitVec 4) : Statement (.voteAny d a) := by
  have hd : d.toNat < 16 := d.isLt
  have kd : d.toNat < 128 := by omega
  have ha : a.toNat < 16 := a.isLt
  have ka : a.toNat < 128 := by omega
  refine ⟨p_lt _ _ _ _ _ (by decide) (by decide) (by omega) (by omega) (by omega), decode_of ?_⟩
  simp [fields_33, Dec.guardZero, Dec.preds, Dec.votes, p_maj, p_mn, p_u, p_la, p_lb, p_dhi, p_ahi, p_bhi, p_b, p_d, p_d4,
    p_a4, p_b4, hd, kd, ha, ka, Nat.div_eq_of_lt, Nat.mod_eq_of_lt]
theorem voteAll (d a : BitVec 4) : Statement (.voteAll d a) := by
  have hd : d.toNat < 16 := d.isLt
  have kd : d.toNat < 128 := by omega
  have ha : a.toNat < 16 := a.isLt
  have ka : a.toNat < 128 := by omega
  refine ⟨p_lt _ _ _ _ _ (by decide) (by decide) (by omega) (by omega) (by omega), decode_of ?_⟩
  simp [fields_33, Dec.guardZero, Dec.preds, Dec.votes, p_maj, p_mn, p_u, p_la, p_lb, p_dhi, p_ahi, p_bhi, p_b, p_d, p_d4,
    p_a4, p_b4, hd, kd, ha, ka, Nat.div_eq_of_lt, Nat.mod_eq_of_lt]
theorem voteBallot (d : BitVec 7) (a : BitVec 4) : Statement (.voteBallot d a) := by
  have hd : d.toNat < 128 := d.isLt
  have ha : a.toNat < 16 := a.isLt
  have ka : a.toNat < 128 := by omega
  refine ⟨p_lt _ _ _ _ _ (by decide) (by decide) (by omega) (by omega) (by omega), decode_of ?_⟩
  simp [fields_33, Dec.guardZero, Dec.preds, Dec.votes, p_maj, p_mn, p_u, p_la, p_lb, p_dhi, p_ahi, p_bhi, p_b, p_d, p_d4,
    p_a4, p_b4, hd, ha, ka, Nat.div_eq_of_lt, Nat.mod_eq_of_lt]
theorem voteCount (d : BitVec 7) (a : BitVec 4) : Statement (.voteCount d a) := by
  have hd : d.toNat < 128 := d.isLt
  have ha : a.toNat < 16 := a.isLt
  have ka : a.toNat < 128 := by omega
  refine ⟨p_lt _ _ _ _ _ (by decide) (by decide) (by omega) (by omega) (by omega), decode_of ?_⟩
  simp [fields_33, Dec.guardZero, Dec.preds, Dec.votes, p_maj, p_mn, p_u, p_la, p_lb, p_dhi, p_ahi, p_bhi, p_b, p_d, p_d4,
    p_a4, p_b4, hd, ha, ka, Nat.div_eq_of_lt, Nat.mod_eq_of_lt]
theorem xadd (d a : BitVec 7) (la : Bool) : Statement (.xadd d a la) := by
  exact reduce_of .xadd 0 (by decide) (fun w h => by simp only [Dec.reduces, h])
theorem xmin (d a : BitVec 7) (la : Bool) : Statement (.xmin d a la) := by
  exact reduce_of .xmin 1 (by decide) (fun w h => by simp only [Dec.reduces, h])
theorem xmax (d a : BitVec 7) (la : Bool) : Statement (.xmax d a la) := by
  exact reduce_of .xmax 2 (by decide) (fun w h => by simp only [Dec.reduces, h])
theorem xscan (d a : BitVec 7) (la : Bool) : Statement (.xscan d a la) := by
  exact reduce_of .xscan 3 (by decide) (fun w h => by simp only [Dec.reduces, h])
theorem bra (p : BitVec 4) (sense : Bool) (off : BitVec 21) : Statement (.bra p sense off) := by
  exact ⟨b_lt _ _ _ _ (by decide), decode_of (by simp only [fields_35, b_maj, b_pred, b_sense, b_off, Nat.reduceLT])⟩
theorem call (p : BitVec 4) (sense : Bool) (off : BitVec 21) : Statement (.call p sense off) := by
  exact ⟨b_lt _ _ _ _ (by decide), decode_of (by simp only [fields_36, b_maj, b_pred, b_sense, b_off, Nat.reduceLT])⟩
theorem brx (a : BitVec 7) : Statement (.brx a) := by
  have ha : a.toNat < 128 := a.isLt
  refine ⟨x_lt _ _ _ _ _ (by decide) (by decide) (by omega) (by omega) (by omega), decode_of ?_⟩
  simp [fields_37, Dec.guardZero, Dec.controls, Dec.xz, x_maj, x_sub, x_dbits, x_abits, x_bbits, x_d, x_a, x_b, ha]
theorem ret : Statement .ret := by
  refine ⟨x_lt _ _ _ _ _ (by decide) (by decide) (by omega) (by omega) (by omega), decode_of ?_⟩
  simp [fields_37, Dec.guardZero, Dec.controls, Dec.xz, x_maj, x_sub, x_dbits, x_abits, x_bbits, x_d, x_a, x_b]
theorem exit : Statement .exit := by
  refine ⟨x_lt _ _ _ _ _ (by decide) (by decide) (by omega) (by omega) (by omega), decode_of ?_⟩
  simp [fields_38, Dec.guardZero, Dec.controls, Dec.xz, x_maj, x_sub, x_dbits, x_abits, x_bbits, x_d, x_a, x_b]
theorem yield : Statement .yield := by
  refine ⟨x_lt _ _ _ _ _ (by decide) (by decide) (by omega) (by omega) (by omega), decode_of ?_⟩
  simp [fields_38, Dec.guardZero, Dec.controls, Dec.xz, x_maj, x_sub, x_dbits, x_abits, x_bbits, x_d, x_a, x_b]
theorem nap (n : BitVec 7) : Statement (.nap n) := by
  have hn : n.toNat < 128 := n.isLt
  refine ⟨x_lt _ _ _ _ _ (by decide) (by decide) (by omega) (by omega) (by omega), decode_of ?_⟩
  simp [fields_38, Dec.guardZero, Dec.controls, Dec.xz, x_maj, x_sub, x_dbits, x_abits, x_bbits, x_d, x_a, x_b, hn]
theorem win (n : BitVec 5) : Statement (.win n) := by
  have hn : n.toNat < 32 := n.isLt
  have kn : n.toNat < 128 := by omega
  refine ⟨x_lt _ _ _ _ _ (by decide) (by decide) (by omega) (by omega) (by omega), decode_of ?_⟩
  simp [fields_38, Dec.guardZero, Dec.controls, Dec.syncs, Dec.xz, x_maj, x_sub, x_dbits, x_abits, x_btop, x_b5, hn, kn,
    Nat.div_eq_of_lt, Nat.mod_eq_of_lt]
theorem ld (u : Bool) (d base : BitVec 7) (size : MemSize) (order : MemOrder) (off : BitVec 6) : Statement (.ld u d base size order off) := by
  have hs : Enc.memSize size < 8 := by cases size <;> decide
  have ho : Enc.memOrder order < 4 := by cases order <;> decide
  have es : Dec.memSize (Enc.memSize size) = some size := by cases size <;> rfl
  have eo : Dec.memOrder (Enc.memOrder order) = some order := by cases order <;> rfl
  refine ⟨m_lt _ _ _ _ _ _ _ hs ho (by decide), decode_of ?_⟩
  rw [fields_39 (m_maj _ _ _ _ _ _ _ hs ho (by decide)), Dec.memG, m_size _ _ _ _ _ _ _ hs ho, es, code_some,
    m_order _ _ _ _ _ _ _ hs ho, eo, code_some, m_u _ _ _ _ _ _ _ hs ho, m_d _ _ _ _ _ _ _ hs ho,
    m_base _ _ _ _ _ _ _ hs ho, m_off _ _ _ _ _ _ _ hs ho]
theorem st (u : Bool) (d base : BitVec 7) (size : MemSize) (order : MemOrder) (off : BitVec 6) : Statement (.st u d base size order off) := by
  have hs : Enc.memSize size < 8 := by cases size <;> decide
  have ho : Enc.memOrder order < 4 := by cases order <;> decide
  have es : Dec.memSize (Enc.memSize size) = some size := by cases size <;> rfl
  have eo : Dec.memOrder (Enc.memOrder order) = some order := by cases order <;> rfl
  refine ⟨m_lt _ _ _ _ _ _ _ hs ho (by decide), decode_of ?_⟩
  rw [fields_40 (m_maj _ _ _ _ _ _ _ hs ho (by decide)), Dec.memG, m_size _ _ _ _ _ _ _ hs ho, es, code_some,
    m_order _ _ _ _ _ _ _ hs ho, eo, code_some, m_u _ _ _ _ _ _ _ hs ho, m_d _ _ _ _ _ _ _ hs ho,
    m_base _ _ _ _ _ _ _ hs ho, m_off _ _ _ _ _ _ _ hs ho]
theorem lds (u : Bool) (d base : BitVec 7) (size : MemSize) (off : BitVec 6) : Statement (.lds u d base size off) := by
  have hs : Enc.memSize size < 8 := by cases size <;> decide
  have ho : 0 < 4 := by decide
  have es : Dec.memSize (Enc.memSize size) = some size := by cases size <;> rfl
  refine ⟨m_lt _ _ _ _ _ _ _ hs ho (by decide), decode_of ?_⟩
  rw [fields_41 (m_maj _ _ _ _ _ _ _ hs ho (by decide)), Dec.memS, m_size _ _ _ _ _ _ _ hs ho, es, code_some,
    m_order _ _ _ _ _ _ _ hs ho, if_pos (by rfl), m_u _ _ _ _ _ _ _ hs ho, m_d _ _ _ _ _ _ _ hs ho,
    m_base _ _ _ _ _ _ _ hs ho, m_off _ _ _ _ _ _ _ hs ho]
theorem sts (u : Bool) (d base : BitVec 7) (size : MemSize) (off : BitVec 6) : Statement (.sts u d base size off) := by
  have hs : Enc.memSize size < 8 := by cases size <;> decide
  have ho : 0 < 4 := by decide
  have es : Dec.memSize (Enc.memSize size) = some size := by cases size <;> rfl
  refine ⟨m_lt _ _ _ _ _ _ _ hs ho (by decide), decode_of ?_⟩
  rw [fields_42 (m_maj _ _ _ _ _ _ _ hs ho (by decide)), Dec.memS, m_size _ _ _ _ _ _ _ hs ho, es, code_some,
    m_order _ _ _ _ _ _ _ hs ho, if_pos (by rfl), m_u _ _ _ _ _ _ _ hs ho, m_d _ _ _ _ _ _ _ hs ho,
    m_base _ _ _ _ _ _ _ hs ho, m_off _ _ _ _ _ _ _ hs ho]
theorem ldc (u : Bool) (d base : BitVec 7) (size : MemSize) (off : BitVec 6) : Statement (.ldc u d base size off) := by
  have hs : Enc.memSize size < 8 := by cases size <;> decide
  have ho : 0 < 4 := by decide
  have es : Dec.memSize (Enc.memSize size) = some size := by cases size <;> rfl
  refine ⟨m_lt _ _ _ _ _ _ _ hs ho (by decide), decode_of ?_⟩
  rw [fields_43 (m_maj _ _ _ _ _ _ _ hs ho (by decide)), Dec.memS, m_size _ _ _ _ _ _ _ hs ho, es, code_some,
    m_order _ _ _ _ _ _ _ hs ho, if_pos (by rfl), m_u _ _ _ _ _ _ _ hs ho, m_d _ _ _ _ _ _ _ hs ho,
    m_base _ _ _ _ _ _ _ hs ho, m_off _ _ _ _ _ _ _ hs ho]
theorem atom (aop : AtomOp) (use : AtomUse) (d a : BitVec 7) (off : BitVec 5) : Statement (.atom aop use d a off) := by
  have ho : Enc.atomOp aop < 16 := by cases aop <;> decide
  have hu : Enc.atomUse use < 8 := by cases use <;> decide
  have eo : Dec.atomOp (Enc.atomOp aop) = aop := by cases aop <;> rfl
  have eu : Dec.atomUse (Enc.atomUse use) = some use := by cases use <;> rfl
  exact ⟨a_lt _ _ _ _ _ _ ho hu (by decide), decode_of (by
    simp only [fields_44, Dec.atomics, code_some, a_maj, a_op, a_use, a_d, a_ra, a_off, ho, hu, eo, eu, Nat.reduceLT])⟩
theorem atoms (aop : AtomOp) (use : AtomUse) (d a : BitVec 7) (off : BitVec 5) : Statement (.atoms aop use d a off) := by
  have ho : Enc.atomOp aop < 16 := by cases aop <;> decide
  have hu : Enc.atomUse use < 8 := by cases use <;> decide
  have eo : Dec.atomOp (Enc.atomOp aop) = aop := by cases aop <;> rfl
  have eu : Dec.atomUse (Enc.atomUse use) = some use := by cases use <;> rfl
  exact ⟨a_lt _ _ _ _ _ _ ho hu (by decide), decode_of (by
    simp only [fields_45, Dec.atomics, code_some, a_maj, a_op, a_use, a_d, a_ra, a_off, ho, hu, eo, eu, Nat.reduceLT])⟩
theorem post (aop : AtomOp) (use : AtomUse) (d a : BitVec 7) (off : BitVec 5) : Statement (.post aop use d a off) := by
  have ho : Enc.atomOp aop < 16 := by cases aop <;> decide
  have hu : Enc.atomUse use < 8 := by cases use <;> decide
  have eo : Dec.atomOp (Enc.atomOp aop) = aop := by cases aop <;> rfl
  have eu : Dec.atomUse (Enc.atomUse use) = some use := by cases use <;> rfl
  exact ⟨a_lt _ _ _ _ _ _ ho hu (by decide), decode_of (by
    simp only [fields_46, Dec.atomics, code_some, a_maj, a_op, a_use, a_d, a_ra, a_off, ho, hu, eo, eu, Nat.reduceLT])⟩
theorem phase (scope : BitVec 5) : Statement (.phase scope) := by
  have hscope : scope.toNat < 32 := scope.isLt
  have kscope : scope.toNat < 128 := by omega
  refine ⟨x_lt _ _ _ _ _ (by decide) (by decide) (by omega) (by omega) (by omega), decode_of ?_⟩
  simp [fields_47, Dec.guardZero, Dec.controls, Dec.syncs, Dec.xz, x_maj, x_sub, x_dbits, x_abits, x_btop, x_b5, hscope, kscope,
    Nat.div_eq_of_lt, Nat.mod_eq_of_lt]
theorem bar : Statement .bar := by
  refine ⟨x_lt _ _ _ _ _ (by decide) (by decide) (by omega) (by omega) (by omega), decode_of ?_⟩
  simp [fields_47, Dec.guardZero, Dec.syncs, Dec.xz, x_maj, x_sub, x_dbits, x_abits, x_bbits, x_d, x_a, x_b]
theorem arrive (a : BitVec 7) : Statement (.arrive a) := by
  have ha : a.toNat < 128 := a.isLt
  refine ⟨x_lt _ _ _ _ _ (by decide) (by decide) (by omega) (by omega) (by omega), decode_of ?_⟩
  simp [fields_47, Dec.guardZero, Dec.syncs, Dec.xz, x_maj, x_sub, x_dbits, x_abits, x_bbits, x_d, x_a, x_b, ha]
theorem await (a b : BitVec 7) : Statement (.await a b) := by
  have ha : a.toNat < 128 := a.isLt
  have hb : b.toNat < 128 := b.isLt
  refine ⟨x_lt _ _ _ _ _ (by decide) (by decide) (by omega) (by omega) (by omega), decode_of ?_⟩
  simp [fields_47, Dec.guardZero, Dec.syncs, Dec.xz, x_maj, x_sub, x_dbits, x_abits, x_bbits, x_d, x_a, x_b, ha, hb]
theorem waitge (scope : BitVec 5) (a b : BitVec 7) : Statement (.waitge scope a b) := by
  have hscope : scope.toNat < 32 := scope.isLt
  have kscope : scope.toNat < 128 := by omega
  have ha : a.toNat < 128 := a.isLt
  have hb : b.toNat < 128 := b.isLt
  refine ⟨x_lt _ _ _ _ _ (by decide) (by decide) (by omega) (by omega) (by omega), decode_of ?_⟩
  simp [fields_47, Dec.guardZero, Dec.syncs, x_maj, x_sub, x_dtop, x_d5, x_a, x_b, hscope, kscope, ha, hb, Nat.div_eq_of_lt,
    Nat.mod_eq_of_lt]
theorem copyG2s (d a b : BitVec 7) : Statement (.copyG2s d a b) := by
  have hd : d.toNat < 128 := d.isLt
  have ha : a.toNat < 128 := a.isLt
  have hb : b.toNat < 128 := b.isLt
  refine ⟨x_lt _ _ _ _ _ (by decide) (by decide) (by omega) (by omega) (by omega), decode_of ?_⟩
  simp [fields_48, Dec.copies, x_maj, x_sub, x_d, x_a, x_b, hd, ha, hb]
theorem copyS2g (d a b : BitVec 7) : Statement (.copyS2g d a b) := by
  have hd : d.toNat < 128 := d.isLt
  have ha : a.toNat < 128 := a.isLt
  have hb : b.toNat < 128 := b.isLt
  refine ⟨x_lt _ _ _ _ _ (by decide) (by decide) (by omega) (by omega) (by omega), decode_of ?_⟩
  simp [fields_48, Dec.guardZero, Dec.copies, Dec.xz, x_maj, x_sub, x_dbits, x_abits, x_bbits, x_d, x_a, x_b, hd, ha, hb]
theorem copyG2v (d a b : BitVec 7) : Statement (.copyG2v d a b) := by
  have hd : d.toNat < 128 := d.isLt
  have ha : a.toNat < 128 := a.isLt
  have hb : b.toNat < 128 := b.isLt
  refine ⟨x_lt _ _ _ _ _ (by decide) (by decide) (by omega) (by omega) (by omega), decode_of ?_⟩
  simp [fields_48, Dec.guardZero, Dec.copies, Dec.xz, x_maj, x_sub, x_dbits, x_abits, x_bbits, x_d, x_a, x_b, hd, ha, hb]
theorem copyS2s (d a b : BitVec 7) : Statement (.copyS2s d a b) := by
  have hd : d.toNat < 128 := d.isLt
  have ha : a.toNat < 128 := a.isLt
  have hb : b.toNat < 128 := b.isLt
  refine ⟨x_lt _ _ _ _ _ (by decide) (by decide) (by omega) (by omega) (by omega), decode_of ?_⟩
  simp [fields_48, Dec.guardZero, Dec.copies, Dec.xz, x_maj, x_sub, x_dbits, x_abits, x_bbits, x_d, x_a, x_b, hd, ha, hb]
theorem gath (d a b : BitVec 7) : Statement (.gath d a b) := by
  have hd : d.toNat < 128 := d.isLt
  have ha : a.toNat < 128 := a.isLt
  have hb : b.toNat < 128 := b.isLt
  refine ⟨x_lt _ _ _ _ _ (by decide) (by decide) (by omega) (by omega) (by omega), decode_of ?_⟩
  simp [fields_49, Dec.guardZero, Dec.copies, Dec.xz, x_maj, x_sub, x_dbits, x_abits, x_bbits, x_d, x_a, x_b, hd, ha, hb]
theorem mma (src : ASource) (form : MmaForm) (d a : BitVec 7) (scale : BitVec 5) (q : Bool) : Statement (.mma src form d a scale q) := by
  have hf : Enc.mmaForm form < 12 := by cases form <;> decide
  have ef : Dec.mmaForm (Enc.mmaForm form) = some form := by cases form <;> rfl
  have hq := bit_le q
  have hk := scale.isLt
  have hs : (Enc.src src + Enc.mmaForm form) < 32 := by cases src <;> simp only [Enc.src] <;> omega
  have hd : d.toNat < 128 := d.isLt
  have ha : a.toNat < 128 := a.isLt
  have hb : (scale.toNat * 4 + Enc.bit q) < 128 := by omega
  refine ⟨x_lt _ _ _ _ _ (by decide) hs hd ha hb, decode_of ?_⟩
  have fm := x_maj 50 (Enc.src src + Enc.mmaForm form) d.toNat a.toNat (scale.toNat * 4 + Enc.bit q) (by decide) hs hd ha hb
  have f2 := x_d 50 (Enc.src src + Enc.mmaForm form) d.toNat a.toNat (scale.toNat * 4 + Enc.bit q) hd ha hb
  have f3 := x_a 50 (Enc.src src + Enc.mmaForm form) d.toNat a.toNat (scale.toNat * 4 + Enc.bit q) ha hb
  have f4 := x_b52 50 (Enc.src src + Enc.mmaForm form) d.toNat a.toNat (scale.toNat * 4 + Enc.bit q) hb
  have f5 := x_top 50 (Enc.src src + Enc.mmaForm form) d.toNat a.toNat (scale.toNat * 4 + Enc.bit q) hs hd ha hb
  have f6 := x_form 50 (Enc.src src + Enc.mmaForm form) d.toNat a.toNat (scale.toNat * 4 + Enc.bit q) hs hd ha hb
  have f7 := x_b0 50 (Enc.src src + Enc.mmaForm form) d.toNat a.toNat (scale.toNat * 4 + Enc.bit q) hb
  have f8 := x_b1 50 (Enc.src src + Enc.mmaForm form) d.toNat a.toNat (scale.toNat * 4 + Enc.bit q) hb
  rw [show (Enc.src src + Enc.mmaForm form) % 16 = Enc.mmaForm form by cases src <;> simp only [Enc.src] <;> omega] at f6
  rw [show (scale.toNat * 4 + Enc.bit q) / 4 = scale.toNat by omega] at f4
  rw [show (scale.toNat * 4 + Enc.bit q) % 2 = Enc.bit q by omega, bit_beq] at f7
  rw [show (scale.toNat * 4 + Enc.bit q) / 2 % 2 = 0 by omega] at f8
  have e5 : (if Dec.flag (Enc.x 50 (Enc.src src + Enc.mmaForm form) d.toNat a.toNat (scale.toNat * 4 + Enc.bit q)) 25 then ASource.s else .v) = src := by
    rw [f5]; cases src <;> simp only [Enc.src] <;> simp <;> omega
  generalize Enc.x 50 (Enc.src src + Enc.mmaForm form) d.toNat a.toNat (scale.toNat * 4 + Enc.bit q) = w at *
  rw [fields_50 fm, Dec.mmas, f6, ef, code_some, e5, f8, f7, f2, f3, f4]
  simp only [Dec.guardZero, Nat.reduceBEq, Bool.not_false, ↓reduceIte, BitVec.ofNat_toNat, BitVec.setWidth_eq]
theorem mmag (src : ASource) (form : MmaForm) (d a : BitVec 7) (scale : BitVec 5) (q : Bool) : Statement (.mmag src form d a scale q) := by
  have hf : Enc.mmaForm form < 12 := by cases form <;> decide
  have ef : Dec.mmaForm (Enc.mmaForm form) = some form := by cases form <;> rfl
  have hq := bit_le q
  have hk := scale.isLt
  have hs : (Enc.src src + Enc.mmaForm form) < 32 := by cases src <;> simp only [Enc.src] <;> omega
  have hd : d.toNat < 128 := d.isLt
  have ha : a.toNat < 128 := a.isLt
  have hb : (scale.toNat * 4 + Enc.bit q) < 128 := by omega
  refine ⟨x_lt _ _ _ _ _ (by decide) hs hd ha hb, decode_of ?_⟩
  have fm := x_maj 51 (Enc.src src + Enc.mmaForm form) d.toNat a.toNat (scale.toNat * 4 + Enc.bit q) (by decide) hs hd ha hb
  have f2 := x_d 51 (Enc.src src + Enc.mmaForm form) d.toNat a.toNat (scale.toNat * 4 + Enc.bit q) hd ha hb
  have f3 := x_a 51 (Enc.src src + Enc.mmaForm form) d.toNat a.toNat (scale.toNat * 4 + Enc.bit q) ha hb
  have f4 := x_b52 51 (Enc.src src + Enc.mmaForm form) d.toNat a.toNat (scale.toNat * 4 + Enc.bit q) hb
  have f5 := x_top 51 (Enc.src src + Enc.mmaForm form) d.toNat a.toNat (scale.toNat * 4 + Enc.bit q) hs hd ha hb
  have f6 := x_form 51 (Enc.src src + Enc.mmaForm form) d.toNat a.toNat (scale.toNat * 4 + Enc.bit q) hs hd ha hb
  have f7 := x_b0 51 (Enc.src src + Enc.mmaForm form) d.toNat a.toNat (scale.toNat * 4 + Enc.bit q) hb
  have f8 := x_b1 51 (Enc.src src + Enc.mmaForm form) d.toNat a.toNat (scale.toNat * 4 + Enc.bit q) hb
  rw [show (Enc.src src + Enc.mmaForm form) % 16 = Enc.mmaForm form by cases src <;> simp only [Enc.src] <;> omega] at f6
  rw [show (scale.toNat * 4 + Enc.bit q) / 4 = scale.toNat by omega] at f4
  rw [show (scale.toNat * 4 + Enc.bit q) % 2 = Enc.bit q by omega, bit_beq] at f7
  rw [show (scale.toNat * 4 + Enc.bit q) / 2 % 2 = 0 by omega] at f8
  have e5 : (if Dec.flag (Enc.x 51 (Enc.src src + Enc.mmaForm form) d.toNat a.toNat (scale.toNat * 4 + Enc.bit q)) 25 then ASource.s else .v) = src := by
    rw [f5]; cases src <;> simp only [Enc.src] <;> simp <;> omega
  generalize Enc.x 51 (Enc.src src + Enc.mmaForm form) d.toNat a.toNat (scale.toNat * 4 + Enc.bit q) = w at *
  rw [fields_51 fm, Dec.mmas, f6, ef, code_some, e5, f8, f7, f2, f3, f4]
  simp only [Dec.guardZero, Nat.reduceBEq, Bool.not_false, ↓reduceIte, BitVec.ofNat_toNat, BitVec.setWidth_eq]
theorem mzero : Statement .mzero := by
  refine ⟨x_lt _ _ _ _ _ (by decide) (by decide) (by omega) (by omega) (by omega), decode_of ?_⟩
  simp [fields_52, Dec.guardZero, Dec.engines, Dec.xz, x_maj, x_sub, x_dbits, x_abits, x_bbits, x_d, x_a, x_b]
theorem mld (a : BitVec 7) : Statement (.mld a) := by
  have ha : a.toNat < 128 := a.isLt
  refine ⟨x_lt _ _ _ _ _ (by decide) (by decide) (by omega) (by omega) (by omega), decode_of ?_⟩
  simp [fields_52, Dec.guardZero, Dec.engines, Dec.xz, x_maj, x_sub, x_dbits, x_abits, x_bbits, x_d, x_a, x_b, ha]
theorem mst (a : BitVec 7) : Statement (.mst a) := by
  have ha : a.toNat < 128 := a.isLt
  refine ⟨x_lt _ _ _ _ _ (by decide) (by decide) (by omega) (by omega) (by omega), decode_of ?_⟩
  simp [fields_52, Dec.guardZero, Dec.engines, Dec.xz, x_maj, x_sub, x_dbits, x_abits, x_bbits, x_d, x_a, x_b, ha]
theorem mfree : Statement .mfree := by
  refine ⟨x_lt _ _ _ _ _ (by decide) (by decide) (by omega) (by omega) (by omega), decode_of ?_⟩
  simp [fields_52, Dec.guardZero, Dec.engines, Dec.xz, x_maj, x_sub, x_dbits, x_abits, x_bbits, x_d, x_a, x_b]
theorem spawn (a : BitVec 7) (q : BitVec 3) : Statement (.spawn a q) := by
  have ha : a.toNat < 128 := a.isLt
  have hq : q.toNat < 8 := q.isLt
  have kq : q.toNat < 128 := by omega
  refine ⟨x_lt _ _ _ _ _ (by decide) (by decide) (by omega) (by omega) (by omega), decode_of ?_⟩
  have hb : Nat.blt 7 q.toNat = false := by rw [Bool.eq_false_iff, ne_eq, Nat.blt_eq]; omega
  simp [fields_53, Dec.guardZero, Dec.engines, Dec.xz, x_maj, x_sub, x_dbits, x_bbits, x_b3, x_a, ha, hq, kq, hb,
    Nat.mod_eq_of_lt]
theorem tjoin (a : BitVec 7) : Statement (.tjoin a) := by
  have ha : a.toNat < 128 := a.isLt
  refine ⟨x_lt _ _ _ _ _ (by decide) (by decide) (by omega) (by omega) (by omega), decode_of ?_⟩
  simp [fields_53, Dec.guardZero, Dec.engines, Dec.xz, x_maj, x_sub, x_dbits, x_abits, x_bbits, x_d, x_a, x_b, ha]
theorem tend : Statement .tend := by
  refine ⟨x_lt _ _ _ _ _ (by decide) (by decide) (by omega) (by omega) (by omega), decode_of ?_⟩
  simp [fields_53, Dec.guardZero, Dec.engines, Dec.xz, x_maj, x_sub, x_dbits, x_abits, x_bbits, x_d, x_a, x_b]
theorem cfire : Statement .cfire := by
  refine ⟨x_lt _ _ _ _ _ (by decide) (by decide) (by omega) (by omega) (by omega), decode_of ?_⟩
  simp [fields_54, Dec.guardZero, Dec.engines, Dec.xz, x_maj, x_sub, x_dbits, x_abits, x_bbits, x_d, x_a, x_b]
theorem cfireIdx (a : BitVec 7) : Statement (.cfireIdx a) := by
  have ha : a.toNat < 128 := a.isLt
  refine ⟨x_lt _ _ _ _ _ (by decide) (by decide) (by omega) (by omega) (by omega), decode_of ?_⟩
  simp [fields_54, Dec.guardZero, Dec.engines, Dec.xz, x_maj, x_sub, x_dbits, x_abits, x_bbits, x_d, x_a, x_b, ha]
theorem mcall (mac : BitVec 6) (p0 p1 : BitVec 7) (p2 : BitVec 6) : Statement (.mcall mac p0 p1 p2) := by
  exact ⟨c_lt _ _ _ _, decode_of (by simp only [fields_55, c_maj, c_mac, c_p0, c_p1, c_p2])⟩
theorem srd (d : BitVec 7) (num : BitVec 14) : Statement (.srd d num) := by
  have hd : d.toNat < 128 := d.isLt
  have hn := num.isLt
  have ha : num.toNat / 128 < 128 := by omega
  have hb : num.toNat % 128 < 128 := by omega
  have e : num.toNat / 128 * 128 + num.toNat % 128 = num.toNat := by omega
  refine ⟨?_, ?_⟩ <;> rw [xn_eq]
  · exact x_lt _ _ _ _ _ (by decide) (by decide) hd ha hb
  · exact decode_of (by simp [fields_56, Dec.systems, x_maj, x_sub, x_d, x_num, hd, ha, hb, e])
theorem swr (d : BitVec 7) (num : BitVec 14) : Statement (.swr d num) := by
  have hd : d.toNat < 128 := d.isLt
  have hn := num.isLt
  have ha : num.toNat / 128 < 128 := by omega
  have hb : num.toNat % 128 < 128 := by omega
  have e : num.toNat / 128 * 128 + num.toNat % 128 = num.toNat := by omega
  refine ⟨?_, ?_⟩ <;> rw [xn_eq]
  · exact x_lt _ _ _ _ _ (by decide) (by decide) hd ha hb
  · exact decode_of (by simp [fields_56, Dec.systems, x_maj, x_sub, x_d, x_num, hd, ha, hb, e])
theorem trap (n : BitVec 7) : Statement (.trap n) := by
  have hn : n.toNat < 128 := n.isLt
  refine ⟨x_lt _ _ _ _ _ (by decide) (by decide) (by omega) (by omega) (by omega), decode_of ?_⟩
  simp [fields_56, Dec.guardZero, Dec.systems, Dec.xz, x_maj, x_sub, x_dbits, x_abits, x_bbits, x_d, x_a, x_b, hn]
theorem bkpt (n : BitVec 7) : Statement (.bkpt n) := by
  have hn : n.toNat < 128 := n.isLt
  refine ⟨x_lt _ _ _ _ _ (by decide) (by decide) (by omega) (by omega) (by omega), decode_of ?_⟩
  simp [fields_56, Dec.guardZero, Dec.systems, Dec.xz, x_maj, x_sub, x_dbits, x_abits, x_bbits, x_d, x_a, x_b, hn]
theorem trc (a : BitVec 7) (kind : BitVec 7) : Statement (.trc a kind) := by
  have ha : a.toNat < 128 := a.isLt
  have hkind : kind.toNat < 128 := kind.isLt
  refine ⟨x_lt _ _ _ _ _ (by decide) (by decide) (by omega) (by omega) (by omega), decode_of ?_⟩
  simp [fields_56, Dec.guardZero, Dec.systems, Dec.xz, x_maj, x_sub, x_dbits, x_abits, x_bbits, x_d, x_a, x_b, ha, hkind]
theorem time (d : BitVec 7) : Statement (.time d) := by
  have hd : d.toNat < 128 := d.isLt
  refine ⟨x_lt _ _ _ _ _ (by decide) (by decide) (by omega) (by omega) (by omega), decode_of ?_⟩
  simp [fields_56, Dec.guardZero, Dec.systems, Dec.xz, x_maj, x_sub, x_dbits, x_abits, x_bbits, x_d, x_a, x_b, hd]
theorem preq (d : BitVec 7) : Statement (.preq d) := by
  have hd : d.toNat < 128 := d.isLt
  refine ⟨x_lt _ _ _ _ _ (by decide) (by decide) (by omega) (by omega) (by omega), decode_of ?_⟩
  simp [fields_56, Dec.guardZero, Dec.systems, Dec.xz, x_maj, x_sub, x_dbits, x_abits, x_bbits, x_d, x_a, x_b, hd]
theorem pyield : Statement .pyield := by
  refine ⟨x_lt _ _ _ _ _ (by decide) (by decide) (by omega) (by omega) (by omega), decode_of ?_⟩
  simp [fields_56, Dec.guardZero, Dec.systems, Dec.xz, x_maj, x_sub, x_dbits, x_abits, x_bbits, x_d, x_a, x_b]
theorem ipf (a : BitVec 7) : Statement (.ipf a) := by
  have ha : a.toNat < 128 := a.isLt
  refine ⟨x_lt _ _ _ _ _ (by decide) (by decide) (by omega) (by omega) (by omega), decode_of ?_⟩
  simp [fields_56, Dec.guardZero, Dec.systems, Dec.xz, x_maj, x_sub, x_dbits, x_abits, x_bbits, x_d, x_a, x_b, ha]
theorem clauseStart : Statement .clauseStart := rfl
theorem fairnessTimerExpiry : Statement .fairnessTimerExpiry := rfl
theorem loadComplete (flight entry : Nat) : Statement (.loadComplete flight entry) := rfl
theorem atomicPerform (flight entry : Nat) : Statement (.atomicPerform flight entry) := rfl
theorem atomReturn (flight entry : Nat) : Statement (.atomReturn flight entry) := rfl
theorem leaseRecall (cluster line : Nat) : Statement (.leaseRecall cluster line) := rfl
theorem engineChunk (flight entry : Nat) : Statement (.engineChunk flight entry) := rfl
theorem matrixUnitOperation (core quarter : Nat) : Statement (.matrixUnitOperation core quarter) := rfl
theorem napEnd (flight : Nat) : Statement (.napEnd flight) := rfl
theorem flightOverdue (flight : Nat) : Statement (.flightOverdue flight) := rfl
theorem throttleWindowEnd (core quarter : Nat) : Statement (.throttleWindowEnd core quarter) := rfl
theorem icacheFill (flight : Nat) : Statement (.icacheFill flight) := rfl
theorem instabilityDelivery (flight : Nat) : Statement (.instabilityDelivery flight) := rfl
theorem flightRetirement (flight : Nat) : Statement (.flightRetirement flight) := rfl
theorem doorbell (q : Nat) (origin : DoorbellOrigin) (nbytes : Nat) (tail : BitVec 32) (key : BitVec 64) : Statement (.doorbell q origin nbytes tail key) := rfl
theorem launchRecord (q : Nat) : Statement (.launchRecord q) := rfl
theorem barrierRecord (q : Nat) : Statement (.barrierRecord q) := rfl
theorem signalRecord (q : Nat) : Statement (.signalRecord q) := rfl
theorem wingPlacement (gallery : Nat) : Statement (.wingPlacement gallery) := rfl
theorem hallStart (gallery hall : Nat) : Statement (.hallStart gallery hall) := rfl
theorem bulkGalleryAgeing (gallery : Nat) : Statement (.bulkGalleryAgeing gallery) := rfl
theorem taskPop (context core quarter : Nat) : Statement (.taskPop context core quarter) := rfl
theorem galleryCompletion (gallery : Nat) : Statement (.galleryCompletion gallery) := rfl
theorem preemptionRequest (context : Nat) : Statement (.preemptionRequest context) := rfl
theorem preemptionWithdrawal (context : Nat) : Statement (.preemptionWithdrawal context) := rfl
theorem forcedSave (context : Nat) : Statement (.forcedSave context) := rfl
theorem lightSave (flight : Nat) : Statement (.lightSave flight) := rfl
theorem contextSavedReport (context : Nat) : Statement (.contextSavedReport context) := rfl
theorem contextResume (context core : Nat) : Statement (.contextResume context core) := rfl
theorem tEntryResend (flight entry : Nat) : Statement (.tEntryResend flight entry) := rfl
theorem flightResume (flight : Nat) (how : ResumeHow) : Statement (.flightResume flight how) := rfl
theorem contextEnd (context : Nat) : Statement (.contextEnd context) := rfl
theorem translationKeyResolved (die : Nat) (key : MissKey) : Statement (.translationKeyResolved die key) := rfl
theorem translationKeyDeclined (die : Nat) (key : MissKey) : Statement (.translationKeyDeclined die key) := rfl
theorem bindingSlotResolve (gallery slot : Nat) (value : BitVec 64) : Statement (.bindingSlotResolve gallery slot value) := rfl
theorem bindingSlotDecline (gallery slot : Nat) : Statement (.bindingSlotDecline gallery slot) := rfl
theorem invalidation (context base len : Nat) : Statement (.invalidation context base len) := rfl
theorem invalidationEffect (ident : Nat) : Statement (.invalidationEffect ident) := rfl
theorem uncorrectableError (target : ErrTarget) : Statement (.uncorrectableError target) := rfl
theorem correctableError (die cls : Nat) (core : Option Nat) : Statement (.correctableError die cls core) := rfl
theorem collectiveSegment (die : Nat) : Statement (.collectiveSegment die) := rfl
theorem collectiveAgeing (ident : Nat) : Statement (.collectiveAgeing ident) := rfl
theorem collectiveTrafficArrival (peers number rank chunk segment : Nat) (digest : BitVec 64) (data : List (BitVec 8)) : Statement (.collectiveTrafficArrival peers number rank chunk segment digest data) := rfl
theorem collectiveRefusalAnnouncement (peers : Nat) (failure : CollFailure) : Statement (.collectiveRefusalAnnouncement peers failure) := rfl
theorem memberLost (member : Nat) : Statement (.memberLost member) := rfl
theorem linkTrained (port : Nat) : Statement (.linkTrained port) := rfl
theorem bringupFrame (port linkmin linkmax peer peerPort : Nat) : Statement (.bringupFrame port linkmin linkmax peer peerPort) := rfl
theorem linkFailure (port : Nat) : Statement (.linkFailure port) := rfl
theorem rdmaWrite (qp va : Nat) (data : List (BitVec 8)) : Statement (.rdmaWrite qp va data) := rfl
theorem rdmaRead (qp va len : Nat) : Statement (.rdmaRead qp va len) := rfl
theorem send (qp : Nat) (request : PortRequest) : Statement (.send qp request) := rfl
theorem powerOn : Statement .powerOn := rfl
theorem clockChange (target : ClockTarget) (mhz : Nat) : Statement (.clockChange target mhz) := rfl
theorem moduleNumberWrite (n : BitVec 22) : Statement (.moduleNumberWrite n) := rfl
theorem firmwareHandshake (version : Nat) : Statement (.firmwareHandshake version) := rfl
theorem measurementExtend (ver reg : Nat) (digest : BitVec 384) : Statement (.measurementExtend ver reg digest) := rfl
theorem attestationReport (ver : Nat) (nonce : BitVec 384) : Statement (.attestationReport ver nonce) := rfl
theorem traceBlockLoad (ver die addr : Nat) : Statement (.traceBlockLoad ver die addr) := rfl
theorem traceStatusRead (ver die : Nat) : Statement (.traceStatusRead ver die) := rfl
theorem sieveCountersRead (ver die : Nat) (clear : Bool) : Statement (.sieveCountersRead ver die clear) := rfl
theorem sessionArm (ver addr : Nat) : Statement (.sessionArm ver addr) := rfl
theorem sessionCancel (ver addr : Nat) : Statement (.sessionCancel ver addr) := rfl
theorem sessionPassStart : Statement .sessionPassStart := rfl
theorem sessionPassEnd : Statement .sessionPassEnd := rfl
theorem freeze (ver context : Nat) (flight : Option Nat) : Statement (.freeze ver context flight) := rfl
theorem unfreeze (ver context : Nat) (flight : Option Nat) : Statement (.unfreeze ver context flight) := rfl
theorem debugRead (ver flight : Nat) (item : DebugItem) (thread : Nat) (sibs : BitVec 3) : Statement (.debugRead ver flight item thread sibs) := rfl
theorem debugWrite (ver flight : Nat) (item : DebugItem) (thread : Nat) (sibs : BitVec 3) (value : BitVec 64) : Statement (.debugWrite ver flight item thread sibs value) := rfl
theorem breakpointSet (ver context index : Nat) (addr : BitVec 64) (hall : BitVec 32) : Statement (.breakpointSet ver context index addr hall) := rfl
theorem counterProgram (ver core : Nat) (sys : Bool) (setup : CounterSetup) : Statement (.counterProgram ver core sys setup) := rfl
theorem monitorProgram (ver core index : Nat) (setup : Option MonitorSetup) : Statement (.monitorProgram ver core index setup) := rfl
theorem stallHistogramRead (ver core : Nat) : Statement (.stallHistogramRead ver core) := rfl
theorem monitorSample (core : Nat) : Statement (.monitorSample core) := rfl
theorem sieveRun (die : Nat) : Statement (.sieveRun die) := rfl
theorem waitgePollReturn (flight poll : Nat) : Statement (.waitgePollReturn flight poll) := rfl
theorem storeAcknowledgement (flight entry : Nat) : Statement (.storeAcknowledgement flight entry) := rfl
theorem yieldPeriodEnd (flight : Nat) : Statement (.yieldPeriodEnd flight) := rfl
theorem fabricWriteArrival (pa : Nat) (data : List (BitVec 8)) : Statement (.fabricWriteArrival pa data) := rfl
theorem fabricWriteAcknowledgement (ident : Nat) : Statement (.fabricWriteAcknowledgement ident) := rfl
theorem controlCoreWrite (pa : Nat) (access : Access) : Statement (.controlCoreWrite pa access) := rfl
theorem pcieHostWrite (window va : Nat) (access : Access) : Statement (.pcieHostWrite window va access) := rfl
theorem arithmeticClockCycle : Statement .arithmeticClockCycle := rfl

end Sys2Proof.Laws.RoundTrip
end

