-- ==== Sys2Proof/Laws/Visibility.lean ====
section
/-! SUPPORT. What the shared operations on memory can do: those that leave memory alone, those that place writes or perform atomics
and keep its canonical form, and what a write of an agent outside the cores leaves. -/

namespace Sys2Proof.Machine

/-! ## Operations that leave memory alone -/

/-- A fold keeps what each of its steps keeps. -/
theorem foldl_keeps {α β γ : Type} (p : α → γ) (f : α → β → α) (h : ∀ a b, p (f a b) = p a) :
    ∀ (l : List β) (a : α), p (l.foldl f a) = p a
  | [], _ => rfl
  | b :: l, a => by rw [List.foldl_cons, foldl_keeps p f h l, h]

theorem pick_mem (s : State) (n : Nat) : (s.pick n).2.mem = s.mem := by unfold State.pick; split <;> rfl
theorem count_mem (s : State) (f : Flight) (e n : Nat) : (s.count f e n).mem = s.mem := by unfold State.count; split <;> rfl
theorem countAt_mem (s : State) (c : Nat) (f : Flight) (e n : Nat) : (s.countAt c f e n).mem = s.mem := count_mem ..
theorem countAll_mem (s : State) (c e n : Nat) : (s.countAll c e n).mem = s.mem := by unfold State.countAll; dsimp only; split <;> rfl
theorem showUpTo_mem (s : State) (a st p set : Nat) : (s.showUpTo a st p set).mem = s.mem := rfl
theorem raiseFloor_mem (s : State) (c a st : Nat) : (s.raiseFloor c a st).mem = s.mem := by
  unfold State.raiseFloor; dsimp only; split <;> rfl
theorem ownWrite_mem (s : State) (c i a : Nat) (v : Byte) : (s.ownWrite c i a v).mem = s.mem := rfl
theorem ownWrites_mem (c i : Nat) : ∀ (ws : List (Nat × Byte)) (s : State), (s.ownWrites c i ws).mem = s.mem
  | [], _ => rfl
  | (a, v) :: ws, s => by rw [State.ownWrites, ownWrites_mem c i ws, ownWrite_mem]
theorem note_mem (s : State) (a l : Nat) : (s.note a l).mem = s.mem := rfl
theorem dropLeases_mem (s : State) (l : Nat) : (s.dropLeases l).mem = s.mem := rfl
theorem unpend_mem (s : State) (c n a : Nat) : (s.unpend c n a).mem = s.mem := rfl

theorem record_mem (s : State) (t a o : Nat) : (s.record t a o).mem = s.mem := by
  unfold State.record; dsimp only
  split
  · rfl
  · split <;> rfl

theorem recordUnit_mem (s : State) (t a : Nat) : (s.recordUnit t a).mem = s.mem := by
  unfold State.recordUnit; split
  · exact record_mem ..
  · rfl

theorem askLease_mem (s : State) (f : Flight) (c l : Nat) : (s.askLease f c l).mem = s.mem := by
  unfold State.askLease State.useLease
  dsimp only
  split
  · split <;> rfl
  · split
    · rfl
    · split
      · exact countAt_mem ..
      · exact countAt_mem ..

/-- Refresh raises floors alone (R230). -/
theorem refresh_mem (s : State) (c set : Nat) : (s.refresh c set).mem = s.mem := by
  refine foldl_keeps State.mem _ (fun s p => ?_) _ _
  split
  · rfl
  · split
    · exact raiseFloor_mem ..
    · rfl

theorem sendPacket_mem (s : State) (m vc : Nat) (x : Packet) : (s.sendPacket m vc x).2.mem = s.mem := by
  unfold State.sendPacket; split
  · rfl
  · exact pick_mem ..

theorem sendWrites_mem (c : Nat) (bs : List (Nat × Byte)) : ∀ (ms : List Nat) (s : State), (s.sendWrites c bs ms).2.mem = s.mem
  | [], _ => rfl
  | m :: ms, s => by
    rw [State.sendWrites]; dsimp only
    rw [sendWrites_mem c bs ms]
    split
    · exact sendPacket_mem ..
    · exact sendPacket_mem ..

/-! ## Operations that place writes -/

/-- A fold keeps an invariant that each of its steps keeps. -/
theorem foldl_canonical {β : Type} (f : State → β → State) (h : ∀ s b, s.Canonical → (f s b).Canonical) :
    ∀ (l : List β) (s : State), s.Canonical → (l.foldl f s).Canonical
  | [], _, hs => hs
  | b :: l, s, hs => foldl_canonical f h l _ (h s b hs)

theorem canonical_of_mem {s t : State} (h : t.mem = s.mem) (hs : s.Canonical) : t.Canonical := by
  unfold State.Canonical; rw [h]; exact hs

theorem placeRaw_canonical {s : State} (h : s.Canonical) (a : Nat) (v : Byte) (seen : NMap Nat) (i w : Nat) :
    (s.placeRaw a v seen i w).Canonical := memWf_memSet h a v

theorem placeBytes_canonical (p : Nat) : ∀ (bs : List Byte) {s : State} (a : Nat), s.Canonical → (s.placeBytes p a bs).Canonical
  | [], _, _, h => h
  | _ :: bs, _, a, h => placeBytes_canonical p bs (a + 1) (placeRaw_canonical h ..)

theorem agentWrite_canonical (p : Nat) : ∀ (bs : List Byte) {s : State} (a : Nat), s.Canonical → (s.agentWrite p a bs).Canonical
  | [], _, _, h => h
  | _ :: bs, _, a, h => agentWrite_canonical p bs (a + 1) (placeRaw_canonical h ..)

theorem captureFor_canonical {s : State} (h : s.Canonical) (mine : Session → Bool) (a : Nat) : (s.captureFor mine a).Canonical := by
  unfold State.captureFor
  split
  · exact h
  · dsimp only
    split
    · exact h
    · split
      · exact canonical_of_mem (s := s) rfl h
      · refine canonical_of_mem (State.setSession_mem ..) ?_
        apply placeBytes_canonical
        apply placeBytes_canonical
        apply placeBytes_canonical
        exact h

theorem capture_canonical {s : State} (h : s.Canonical) (a i : Nat) : (s.capture a i).Canonical := captureFor_canonical h ..

theorem place_canonical {s : State} (h : s.Canonical) (a : Nat) (v : Byte) (seen : NMap Nat) (i w : Nat) :
    (s.place a v seen i w).Canonical := placeRaw_canonical (capture_canonical h a i) ..

/-- A core's pending writes take their places in the canonical form (R226, R227). -/
theorem placeCover_canonical {s : State} (h : s.Canonical) (c : Nat) (m : NMap Nat) : (s.placeCover c m).Canonical := by
  unfold State.placeCover
  dsimp only
  refine foldl_canonical _ (fun t id ht => ?_) _ _ (foldl_canonical _ (fun t a ht => ?_) _ _
    (foldl_canonical _ (fun t id ht => foldl_canonical _ (fun v a hv => ?_) _ _ ht) _ _ h))
  · split
    · exact foldl_canonical _ (fun v u hv => canonical_of_mem (recordUnit_mem ..) hv) _ _ ht
    · exact ht
  · split
    · exact ht
    · exact canonical_of_mem (unpend_mem ..) ht
  · split
    · exact place_canonical hv ..
    · exact hv

theorem placePends_canonical {s : State} (h : s.Canonical) (c limit : Nat) (as : List Nat) : (s.placePends c limit as).Canonical :=
  placeCover_canonical h ..

/-! ## Atomics (R134, R233, R237) -/

theorem performAt_canonical {s : State} (h : s.Canonical) (f : Flight) (e : Entry) (op : AtomOp) (shown : Bool) (r : AtomReq) :
    (s.performAt f e op shown r).2.Canonical := by
  unfold State.performAt
  dsimp only
  refine canonical_of_mem (record_mem ..) ?_
  have p := placePends_canonical h f.core e.id (locBytes r.pa op.bytes)
  split
  · exact foldl_canonical _ (fun _ _ h => place_canonical h ..) _ _ p
  · exact canonical_of_mem rfl (foldl_canonical _ (fun _ _ h => place_canonical h ..) _ _ p)

theorem performGlobal_canonical {s : State} (h : s.Canonical) (w : Occasion) (all : List Request) (f : Flight) (e : Entry) (r : Request)
    (rs : List AtomReq) (q : AtomReq) : (s.performGlobal w all f e r rs q).2.Canonical := by
  unfold State.performGlobal
  dsimp only
  have asked : (if r.post then (s.dropLeases r.line).note (clusterOf f.core) r.line else s.askLease f e.core r.line).Canonical := by
    split
    · exact canonical_of_mem (s := s) rfl h
    · exact canonical_of_mem (askLease_mem ..) h
  generalize (if r.post then (s.dropLeases r.line).note (clusterOf f.core) r.line else s.askLease f e.core r.line) = s1 at asked ⊢
  split
  · exact asked
  · split
    · split
      · exact canonical_of_mem ((countAt_mem ..).trans (pick_mem ..)) asked
      · exact performAt_canonical (canonical_of_mem (pick_mem ..) asked) ..
    · exact performAt_canonical asked ..

theorem winWrite_mem (s : State) (w o : Nat) (bs : List Byte) : (s.winWrite w o bs).mem = s.mem := by
  unfold State.winWrite; split <;> rfl

theorem performStore_mem (s : State) (all : List Request) (f : Flight) (e : Entry) (win : Nat) (r : Request) (q : AtomReq) :
    (s.performStore all f e win r q).2.mem = s.mem := by
  unfold State.performStore
  dsimp only
  split
  · split
    · exact (countAt_mem ..).trans (pick_mem ..)
    · exact (winWrite_mem ..).trans (pick_mem ..)
  · exact winWrite_mem ..

theorem performOne_canonical {s : State} (h : s.Canonical) (w : Occasion) (all : List Request) (r : Request) :
    (State.performOne w all s r).Canonical := by
  unfold State.performOne
  split
  · exact h
  · dsimp only
    split
    · exact h
    · split
      · split
        · split
          · exact h
          · exact canonical_of_mem rfl (performGlobal_canonical h ..)
        · exact h
      · split
        · split
          · exact h
          · exact canonical_of_mem (performStore_mem ..) h
        · exact h
      · exact h

/-- Performing atomics keeps the canonical form. -/
theorem performWhere_canonical {s : State} (h : s.Canonical) (w : Occasion) (t : Request → Bool) :
    (s.performWhere w t).Canonical := foldl_canonical _ (fun _ _ h => performOne_canonical h ..) _ s h

/-- Where nothing waits to be performed, nothing is performed. -/
theorem performWhere_none {s : State} (h : s.requests = []) (w : Occasion) (t : Request → Bool) :
    s.performWhere w t = s := by
  unfold State.performWhere State.behind State.live; rw [h]; rfl

/-! ## Reaching a line (R238) -/

theorem reach_canonical {s : State} (h : s.Canonical) (a l : Nat) : (s.reach a l).Canonical := by
  unfold State.reach; dsimp only
  split
  · exact h
  · exact canonical_of_mem rfl (performWhere_canonical h ..)

theorem reachAll_canonical {s : State} (h : s.Canonical) (a : Nat) (ls : List Nat) : (s.reachAll a ls).Canonical :=
  foldl_canonical _ (fun _ _ h => reach_canonical h ..) ls s h

/-- Reaching a line of a calm module makes no other agent act. -/
theorem reach_calm {s : State} (h : Calm s) (a l : Nat) : (s.reach a l).mem = s.mem ∧ Calm (s.reach a l) := by
  unfold State.reach; dsimp only
  split
  · exact ⟨rfl, h⟩
  · next held =>
    rcases h with h | h
    · rw [performWhere_none h]
      exact ⟨rfl, .inl h⟩
    · refine absurd ?_ held
      rw [List.isEmpty_iff, List.map_eq_nil_iff, List.filter_eq_nil_iff]
      intro p hp
      rw [h p hp]; simp

theorem reachAll_calm (a : Nat) : ∀ (ls : List Nat) {s : State}, Calm s → (s.reachAll a ls).mem = s.mem ∧ Calm (s.reachAll a ls)
  | [], _, h => ⟨rfl, h⟩
  | l :: ls, s, h => by
    have r := reach_calm h a l
    have q := reachAll_calm a ls r.2
    exact ⟨q.1.trans r.1, q.2⟩

/-! ## What a step records (R284) -/

/-- A step that leaves every die's receipts as they were records well. -/
theorem recordedWell_of_receipts {s t : State} (h : ∀ d, t.receipts d = s.receipts d) : s.recordedWell t = true := by
  simp only [State.recordedWell, State.addsNone, List.all_eq_true, Bool.or_eq_true]
  intro d _
  exact .inl fun r _ => by rw [h d]; simp

theorem note_receipts (s : State) (a l d : Nat) : (s.note a l).receipts d = s.receipts d := by
  by_cases h : d = State.homeDie (l * 64)
  · subst h; simp only [State.note, State.receipts, State.setDie_die_same]
  · unfold State.note State.receipts; dsimp only; rw [State.setDie_die, if_neg h]

theorem reach_receipts {s : State} (h : Calm s) (a l d : Nat) : (s.reach a l).receipts d = s.receipts d := by
  unfold State.reach; dsimp only
  split
  · exact note_receipts ..
  · next held =>
    rw [note_receipts]
    rcases h with h | h
    · rw [performWhere_none h]; rfl
    · refine absurd ?_ held
      rw [List.isEmpty_iff, List.map_eq_nil_iff, List.filter_eq_nil_iff]
      intro p hp
      rw [h p hp]; simp

/-- Accesses that reach lines of a calm module record nothing. -/
theorem reachAll_receipts (a d : Nat) : ∀ (ls : List Nat) {s : State}, Calm s → (s.reachAll a ls).receipts d = s.receipts d
  | [], _, _ => rfl
  | l :: ls, _, h => (reachAll_receipts a d ls (reach_calm h a l).2).trans (reach_receipts h a l d)

/-! ## Publish and Refresh (R230) -/

theorem placeOwn_canonical {s : State} (h : s.Canonical) (c : Nat) : (s.placeOwn c).Canonical :=
  placePends_canonical (reachAll_canonical h ..) ..

/-- Publish keeps the canonical form (R230). -/
theorem publish_canonical {s : State} (h : s.Canonical) (c set : Nat) : (s.publish c set).Canonical :=
  foldl_canonical (fun (s : State) (p : Nat × Nat) => s.showUpTo p.1 p.2 c set)
    (fun _ _ h => canonical_of_mem (showUpTo_mem ..) h) _ _ (placeOwn_canonical h c)

theorem publish4_canonical {s : State} (h : s.Canonical) (c set : Nat) : (s.publish4 c set).2.Canonical := by
  unfold State.publish4
  dsimp only
  split
  · exact canonical_of_mem (sendWrites_mem ..) (publish_canonical h c set)
  · exact publish_canonical h c set

theorem refresh_canonical {s : State} (h : s.Canonical) (c set : Nat) : (s.refresh c set).Canonical :=
  canonical_of_mem (refresh_mem ..) h

/-! ## What a write of an agent outside the cores leaves (R363) -/

theorem agentWrite_mem (p : Nat) : ∀ (bs : List Byte) (s : State) (a : Nat), (s.agentWrite p a bs).mem = memWrite s.mem a bs
  | [], _, _ => rfl
  | _ :: bs, s, a => by rw [State.agentWrite, agentWrite_mem p bs]; rfl

theorem agentWrite_calm (p : Nat) : ∀ (bs : List Byte) {s : State} (a : Nat), Calm s → Calm (s.agentWrite p a bs)
  | [], _, _, h => h
  | _ :: bs, s, a, h => agentWrite_calm p bs (s := s.placeRaw a _ _ 0 p) (a + 1) h

/-- An external write keeps the canonical form (R363). -/
theorem externalWrite_canonical {s : State} (h : s.Canonical) (a : Nat) (bs : List Byte) : (s.externalWrite a bs).Canonical :=
  agentWrite_canonical _ bs a (reachAll_canonical h ..)

theorem externalWrite_mem {s : State} (h : Calm s) (a : Nat) (bs : List Byte) : (s.externalWrite a bs).mem = memWrite s.mem a bs := by
  rw [State.externalWrite, agentWrite_mem, (reachAll_calm 48 _ h).1]

theorem memRead_succ (m : List Host.Cell) (a n : Nat) : memRead m a (n + 1) = memGet m a :: memRead m (a + 1) n := by
  simp only [memRead, List.range_succ_eq_map, List.map_cons, List.map_map, Nat.add_zero]
  congr 1
  refine List.map_congr_left fun i _ => ?_
  simp only [Function.comp, Nat.succ_eq_add_one]
  congr 1
  omega

/-- Bytes written stand where they were written, and every other byte is as before. -/
theorem bytesPut_memWrite : ∀ (bs : List Byte) {m : List Host.Cell} (a : Nat), memWf m = true → BytesPut m (memWrite m a bs) a bs
  | [], _, _, _ => ⟨rfl, fun _ _ => rfl⟩
  | b :: bs, m, a, h => by
    have q := bytesPut_memWrite bs (a + 1) (memWf_memSet h a b)
    refine ⟨?_, fun x hx => memGet_memWrite_out m a (b :: bs) hx⟩
    rw [List.length_cons, memRead_succ, memWrite, q.here, memGet_memWrite_out _ _ _ (.inl (by omega)), memGet_memSet_same h]

theorem bytesPut_externalWrite {s : State} (h : s.Canonical) (q : Calm s) (a : Nat) (bs : List Byte) :
    BytesPut s.mem (s.externalWrite a bs).mem a bs := by
  rw [externalWrite_mem q]; exact bytesPut_memWrite bs a h

end Sys2Proof.Machine
end

