-- ==== Sys2Proof/Tests/Slice0.lean ====
section
/-! SUPPORT. Tests on fixed values: ill-formed operations that WellFormed refuses, words of the spec's encodings, single steps, and
for each statement a state and operands that meet its hypotheses. -/

namespace Sys2Proof.Tests

open Sys2Proof.Machine

set_option Elab.async false

/-! ## A small state -/

/-- The module with one flight, number 1, selected. -/
def st (f : Flight) : State :=
  { State.reset with
    cur := some 1, nextId := 2, flights := [(1, f)], galleries := [(1, wordGallery State.reset 1)]
    windows := [(1, ⟨1, 0, 0, 65536, [], [], false⟩)] }
/-- A clause of one word. -/
def C : ClauseRun := oneWord 0
/-- A flight of one thread about to execute it. -/
def F : Flight := wordFlight State.reset 1 0
/-- A flight with a register that every sibling holds alike. -/
def withReg (f : Flight) (n : Nat) (v : Word) : Flight := { f with regs := mset f.regs n (.uni v v v) }
/-- A flight whose thread 0 is changed. -/
def withThread (f : Flight) (t : Thread) : Flight := { f with threads := [(0, t)] }
/-- The module with a page of context 0 at address 0 in its core's TLB, its form and permissions in `pte`. -/
def paged (pte : Nat) (s : State) : State := s.setCore 0 { s.core 0 with tlb := [⟨0, 0, 16, 0, pte, 0x40000⟩] }

/-- The flight executes its clause's next operation, and nothing holds back or traps an operation with registers r. -/
def Runs (s : State) (f : Flight) (c : ClauseRun) (r : OpRegs) : Prop := Issuing s 1 f c ∧ Ready s 1 f c r

/-- What `Runs` asks, as a test. -/
def runs? (s : State) (f : Flight) (c : ClauseRun) (r : OpRegs) : Bool :=
  decide (s.cur = some 1) && decide (mget s.flights 1 = some f) && decide (f.clause = some c) && f.late.isEmpty && f.sb.isEmpty
    && Nat.ble (footprintAfter f c r) f.peak && s.canMap 1 f (footprintAfter f c r)

theorem runs {s : State} {f : Flight} {c : ClauseRun} {r : OpRegs} (h : runs? s f c r = true) : Runs s f c r := by
  simp only [runs?, Bool.and_eq_true, decide_eq_true_eq, List.isEmpty_iff, Nat.ble_eq] at h
  obtain ⟨⟨⟨⟨⟨⟨h1, h2⟩, h3⟩, h4⟩, h5⟩, h6⟩, h7⟩ := h
  exact ⟨⟨h1, h2, h3⟩, (by simp [h4]), (by simp [h5]), .inl h6, h7⟩

/-! ## Statements about registers -/

theorem test_witness_IntegerArithmetic :
    Runs (st F) F C (regs3 true 20 21 22 1 1 1 true true false 0 F) ∧ Runs (st F) F C (regs3 false 127 127 127 1 1 1 true true true 0 F) :=
  ⟨runs (by decide), runs (by decide)⟩

theorem test_witness_LogicShiftsAndBitFields :
    Runs (st F) F C (regs3 true 20 21 22 1 1 1 true true false 0 F) ∧ Runs (st F) F C (regs2 true 20 21 1 1 true false 0 F)
      ∧ Runs (st F) F C (regs3 true 20 21 22 1 1 1 true true true 0 F) :=
  ⟨runs (by decide), runs (by decide), runs (by decide)⟩

theorem test_witness_ImmediateFormsAndMoves :
    Runs (st F) F C (regs2 true 20 21 1 1 true false 0 F) ∧ Runs (st F) F C (regsD 20 1 true 0 F)
      ∧ Runs (st F) F C (regsS [(20, 1)] [20] false 0 F) ∧ Runs (st F) F C ⟨F.block 20 1, F.block 20 1, [], true, 0⟩ :=
  ⟨runs (by decide), runs (by decide), runs (by decide), runs (by decide)⟩

theorem test_witness_SixtyFourBitIntegers :
    Runs (st F) F C (regs3 true 20 22 24 2 2 1 true true false 0 F) ∧ Runs (st F) F C (regs3 true 20 22 24 2 2 2 true true false 0 F)
      ∧ Runs (st F) F C (regs3 true 20 22 24 2 1 1 true true false 0 F) :=
  ⟨runs (by decide), runs (by decide), runs (by decide)⟩

theorem test_witness_SelectByPredicate : Runs (st F) F C (regs3 true 20 21 22 1 1 1 false false false 0 F) := runs (by decide)

theorem test_witness_CompareIntegersAndPredicateLogic :
    Runs (st F) F C (regsS [(20, 1), (21, 1)] [] true 0 F) ∧ Runs (st F) F C (regs0 0 F) :=
  ⟨runs (by decide), runs (by decide)⟩

theorem test_witness_FloatingArithmetic :
    C.act.Nodup ∧ Runs (st F) F C (regs3 false 20 21 22 1 1 1 true true true 0 F)
      ∧ Runs (st F) F C (regs3 true 20 22 24 2 2 2 true true true 0 F) :=
  ⟨by decide, runs (by decide), runs (by decide)⟩

theorem test_witness_FunctionUnit :
    C.act.Nodup ∧ Runs (st F) F C (regs2 true 20 21 1 1 true false 0 F) ∧ Runs (st F) F C (regs2 true 20 22 2 2 true false 0 F) :=
  ⟨by decide, runs (by decide), runs (by decide)⟩

theorem test_witness_PackedArithmeticAndConversions :
    C.act.Nodup ∧ Runs (st F) F C (regs3 false 20 21 22 1 1 1 true true true 0 F)
      ∧ ∀ code < 32, Runs (st F) F C (regs2 true 20 22 (cvtWidths code).1 (cvtWidths code).2 true false 0 F) :=
  ⟨by decide, runs (by decide), fun code h => runs ((by decide : ∀ code < 32,
    runs? (st F) F C (regs2 true 20 22 (cvtWidths code).1 (cvtWidths code).2 true false 0 F) = true) code h)⟩

theorem test_witness_FloatingCompares :
    C.act.Nodup ∧ Runs (st F) F C (regsS [(20, 1), (21, 1)] [] true 0 F) ∧ Runs (st F) F C (regsS [(20, 2), (22, 2)] [] true 0 F) :=
  ⟨by decide, runs (by decide), runs (by decide)⟩

theorem test_witness_ReadingTheSiblings :
    C.act.Nodup ∧ (∀ n ∈ [1, 2], Runs (st F) F C (regs2 false 20 22 1 n true false 0 F)
      ∧ Runs (st F) F C (regs2 false 20 22 n n true false 0 F) ∧ Runs (st F) F C ⟨F.block 22 n, [], relOf true (F.block 22 n), false, 0⟩)
      ∧ (2 : BitVec 2).toNat < 3 :=
  ⟨by decide, by
    intro n h
    simp only [List.mem_cons, List.not_mem_nil, or_false] at h
    obtain rfl | rfl := h <;> exact ⟨runs (by decide), runs (by decide), runs (by decide)⟩, by decide⟩

theorem test_witness_SoloBits : Runs (st F) F C (regs0 0 F) := runs (by decide)

theorem test_witness_BlockQuantization :
    C.act.Nodup ∧ Runs (st F) F C ⟨[F.regName 20], [F.regName 21, F.regName 22], [], false, 0⟩
      ∧ Runs (st F) F C (regs3 false 20 21 22 1 1 1 false false false 0 F) :=
  ⟨by decide, runs (by decide), runs (by decide)⟩

theorem test_witness_ShufflesReadTheDomain : Runs (st F) F C (regs3 false 20 21 22 1 1 1 true true false 0 F) := runs (by decide)

theorem test_witness_VotesCountActiveThreads : Runs (st F) F C (regs0 0 F) ∧ Runs (st F) F C (regsD 20 1 false 0 F) :=
  ⟨runs (by decide), runs (by decide)⟩

theorem test_witness_FlightReductions : Runs (st F) F C (regs2 false 20 21 1 1 true false 0 F) := runs (by decide)

/-! ## Statements about control flow -/

theorem test_witness_BranchesAndCalls :
    (∀ sense link : Bool, let taken := fun x => (0 : BitVec 4) == 15 || xor (predOf F 0 x) sense
      (C.act.any taken = sense) ∧ Runs (st F) F C ⟨[], if link && C.act.any taken then [14, 15] else [], [], false, 0⟩)
      ∧ InRegion (st F) F (BitVec.ofInt 64 (C.addr.toNat + 4 * (-1024))) ∧ ¬InRegion (st F) F (BitVec.ofInt 64 (C.addr.toNat + 4 * (-1025))) :=
  ⟨fun sense link => by cases sense <;> cases link <;> exact ⟨by decide, runs (by decide)⟩, by unfold InRegion; decide, by
    unfold InRegion; decide⟩

/-- A flight whose thread runs a handler and returns to its token. -/
def inHandler : Flight :=
  withReg (withReg (withThread F { F.thread 0 with
    handler := true, token := 0x2000, hlink := [1, 1, 1], inst := some ⟨1, 0x1000, 1, 0, 0, 0x2000, 1, none⟩ }) 14 0x2000) 15 0

theorem test_witness_IndirectTransfersAndHandlerReturn :
    C.act.Nodup ∧ Runs (st F) F C ⟨[20, 21], [], [], false, 0⟩ ∧ Runs (st inHandler) inHandler C ⟨[14, 15], [14, 15], [], false, 0⟩
      ∧ (∀ x ∈ C.act, (targetFrom F x 20).1.toNat % 4 = 0 ∧ InRegion (st F) F (targetFrom F x 20).1)
      ∧ (∀ x ∈ C.act, (targetFrom inHandler x 14).1.toNat % 4 = 0 ∧ InRegion (st inHandler) inHandler (targetFrom inHandler x 14).1)
      ∧ (inHandler.thread 0).handler = true ∧ (inHandler.thread 0).token = (targetFrom inHandler 0 14).1 :=
  ⟨by decide, runs (by decide), runs (by decide), by unfold InRegion; decide, by unfold InRegion; decide, by decide, by decide⟩

theorem test_witness_YieldNapWindowAndPyield : Runs (st F) F C (regs0 0 F) ∧ ∀ x ∈ C.act, (F.thread x).handler = false :=
  ⟨runs (by decide), by decide⟩

theorem test_witness_ExitedThreadsLeaveTheFlight :
    Runs (st F) F C (regs0 0 F) ∧ (∀ q ∈ (st F).flights, ∀ p ∈ q.2.threads, p.2.barred = false) :=
  ⟨runs (by decide), by decide⟩

/-! ## Statements about memory -/

/-- What `Permitted` asks, as a test. -/
def permitted? (s : State) (f : Flight) (read write : Bool) (size va : Nat) : Bool :=
  (va / 2 ^ 56 == 0 || va / 2 ^ 56 == 255) && va % size == 0 &&
    match s.xlate f.core f.context (va % 2 ^ 57) with
    | .ok e => (!e.pte.testBit 4 || (s.ctxt f.context).sys) && (!read || e.pte.testBit 1) && (!write || e.pte.testBit 2)
    | _ => false

theorem permitted {s : State} {f : Flight} {read write : Bool} {size va : Nat} (h : permitted? s f read write size va = true) :
    Permitted s f read write size va := by
  unfold permitted? at h
  simp only [Bool.and_eq_true, Bool.or_eq_true, beq_iff_eq] at h
  obtain ⟨⟨h1, h2⟩, h3⟩ := h
  refine ⟨h1, h2, ?_⟩
  split at h3
  next e he =>
    refine ⟨e, he, ?_⟩
    simp only [Bool.and_eq_true, Bool.or_eq_true, Bool.not_eq_true'] at h3
    obtain ⟨⟨a, b⟩, d⟩ := h3
    refine ⟨fun p => ?_, fun p => ?_, fun p => ?_⟩
    · simpa [p] using a
    · simpa [p] using b
    · simpa [p] using d
  next => exact absurd h3 (by simp)

/-- A page that may be read and written. -/
def P : State := paged 0x27 (st F)

/-- An outstanding operation of thread 0. -/
def ent (cls : EClass) (pay : Payload) : Entry :=
  { id := 9, cls := cls, flag := 0, op := 1, body := none, word := 0, pc := 0x1000, tag := 0, mask := [0], done := 0, opnds := []
    addrs := [(0, 0)], pay := pay, issued := 0, acked := false, parked := none, discards := [], replay := false, resent := false
    sent := [], fixed := [], core := 0 }
/-- What `RecordRoom` asks where every ring is empty, as a test. -/
def recordRoom? (s : State) (n : Nat) : Bool :=
  (List.range 4).all fun d => (s.die d).spill.isEmpty && (List.range 128).all fun b => Nat.ble ((mgetD (s.die d).books b []).length + n) 1024

theorem recordRoom {s : State} {n : Nat} (h : recordRoom? s n = true) : RecordRoom s n := by
  intro d hd
  simp only [recordRoom?, List.all_eq_true, Bool.and_eq_true, List.isEmpty_iff, List.mem_range, Nat.ble_eq] at h
  obtain ⟨h1, h2⟩ := h d hd
  exact ⟨by rw [h1]; exact Nat.succ_pos _, .inr h2⟩

/-- A flight with it. -/
def busy (e : Entry) : Flight := { F with entries := [e] }
/-- A request of thread 0 on address 0. -/
def req (done : Bool) : AtomReq := ⟨0, 0, 1, 0, done, 0, false⟩

/-- The core of the small flight passes a phase boundary, and the flight has no atomic outstanding. -/
theorem test_witness_GlobalLoads :
    (P.canBound F.core false = true ∧ P.requests = [] ∧ (P.boundary 1 F none (some F.ctl.ordscope.toNat)).2.requests = []
      ∧ ∀ size as, P.atomAhead F.core (loadBytes P F size as) = false)
      ∧ C.act ≠ [] ∧ Runs P F C ⟨F.block 20 2, F.block 24 4, [], true, 0⟩ ∧ Admitted P 1 F C
      ∧ (∀ a ∈ accesses true C (globalAt F 20 0xFFF0), Permitted P F true false 16 a.addr ∧ bindingSlot P F .b128 a.addr = none)
      ∧ Runs P F C ⟨F.block 20 2, F.block 24 2, [], false, 0⟩
      ∧ ∀ a ∈ accesses false C (globalAt F 20 0), Permitted P F true false 8 a.addr ∧ bindingSlot P F .b64 a.addr = none :=
  ⟨⟨by decide, by decide, by decide, fun _ _ => rfl⟩, by decide, runs (by decide), ⟨by decide, by decide⟩, fun a h => ⟨permitted ((by
    decide : ∀ a ∈ accesses true C (globalAt F 20 0xFFF0), permitted? P F true false 16 a.addr = true) a h), (by decide :
    ∀ a ∈ accesses true C (globalAt F 20 0xFFF0), bindingSlot P F .b128 a.addr = none) a h⟩, runs (by decide), fun a h =>
    ⟨permitted ((by decide : ∀ a ∈ accesses false C (globalAt F 20 0), permitted? P F true false 8 a.addr = true) a h), (by decide :
    ∀ a ∈ accesses false C (globalAt F 20 0), bindingSlot P F .b64 a.addr = none) a h⟩⟩

/-- The module whose kernel has two binding slots at 0x108, the second of which holds 1. -/
def B : State :=
  { P with
    galleries := [(1, { wordGallery State.reset 1 with desc := { wordDesc with bindings := 0x100 }, nslot := 2 })]
    mem := [(0x110, 1#8)] }
/-- A flight that reads slot k. -/
def slotF (k : Nat) : Flight := withReg F 20 (BitVec.ofNat 32 (0x108 + 8 * k))

/-- A clause and a flight of threads 0 and 1, which read slots 0 and k. -/
def two : ClauseRun := { C with group := [0, 1], active := [0, 1] }
/-- The flight. -/
def twoF (k : Nat) : Flight :=
  { F with
    threads := [(0, F.thread 0), (1, F.thread 0)], clause := some two
    regs := [(20, .lanes (List.replicate 6 0x108#32 |>.zipIdx |>.map fun p => (p.2, p.1 + BitVec.ofNat 32 (p.2 / 3 * 8 * k))))] }

/-- Slot 1 is bound and slot 0 is not: one thread and two, every order, with U and without. -/
theorem test_witness_BindingLoads :
    ∀ k < 2, ∀ p ∈ [(C, slotF k), (two, twoF k)], ∀ u : Bool, ∀ order ∈ [MemOrder.plain, .sync, .str],
      let c := p.1; let f := p.2; let s := { B with flights := [(1, f)] }
      let as := accesses u c (globalAt f 20 0)
      let s0 := if order = .sync then (s.boundary 1 f none (some f.ctl.ordscope.toNat)).2 else s
      let f0 := (mget s0.flights 1).getD f
      let read := bindReads f0 .b64 as (s0.usePages f0 false (as.map (·.addr)))
      Runs s f c ⟨f.block 20 2, f.block 22 2, [], u, 0⟩ ∧ Admitted s 1 f c ∧ c.act ≠ [] ∧ c.act.Nodup
      ∧ (∀ x ∈ as, Permitted s f true false 8 x.addr) ∧ (∃ x ∈ as, bindingSlot s f .b64 x.addr ≠ none) ∧ s.canBound f.core false = true
      ∧ s.atomAhead f.core (loadBytes s f .b64 as) = false ∧ s0.requests = [] ∧ s0.recordedWell read.2.2 = true
      ∧ bindSettled read.2.2 f0 .b64 as = true ∧ bindRoom read.2.2 f0 read.2.1 = true
      ∧ (c = C → (read.2.1 = [] ↔ k = 1)) := by
  intro k h p hp u order ho
  simp only [List.mem_cons, List.not_mem_nil, or_false] at hp ho
  obtain rfl | rfl : k = 0 ∨ k = 1 := by omega
  all_goals obtain rfl | rfl := hp
  all_goals obtain rfl | rfl | rfl := ho
  all_goals cases u
  all_goals
    refine ⟨runs (by decide), ⟨by decide, by decide⟩, by decide, by decide, fun x hx => permitted ?_, by decide, by decide, by decide, by decide,
      by decide, by decide, by decide, by decide⟩
    revert x; decide

theorem test_witness_GlobalStores :
    P.requests = [] ∧ C.act ≠ [] ∧ (MemOrder.plain ≠ .sync ∧ MemOrder.str ≠ .sync) ∧ Runs P F C ⟨inOrder [F.block 24 4, F.block 20 2], [], [], true, 0⟩
      ∧ Admitted P 1 F C ∧ P.nextTag F ∉ (P.ctxt F.context).live ∧ F.pubWait = none
      ∧ ∀ a ∈ accesses true C (globalAt F 20 0xFFF0), Permitted P F false true 16 a.addr :=
  ⟨by decide, by decide, by decide, runs (by decide), ⟨by decide, by decide⟩, by decide, by decide, fun a h => permitted ((by decide :
    ∀ a ∈ accesses true C (globalAt F 20 0xFFF0), permitted? P F false true 16 a.addr = true) a h)⟩

/-- The module with port 0 up to module 1 and a write of core 0 pending. -/
def reaching (f : Flight) : State :=
  { P.setCore 0 { P.core 0 with pend := [(0x41000, [(1, 5#8)])] } with flights := [(1, f)], ports := [(0, ⟨true, true, 2, 1, 0, false⟩)] }
/-- A flight that orders at scope 4, with its fabric writes to wait for or none. -/
def far (wait : Option (List Nat)) : Flight := { F with ctl := { F.ctl with ordscope := 4 }, pubWait := wait }

/-- The first Publish sends nothing; it sends a fabric write; and the store issues again once that is acknowledged. -/
theorem test_witness_ReleasingStores :
    (let f := F; C.act ≠ [] ∧ P.canBound f.core true = true ∧ (P.boundary 1 f (some f.ctl.ordscope.toNat) none).1 = [] ∧ f.pubWait = none
      ∧ (let s0 := (P.boundary 1 f (some f.ctl.ordscope.toNat) none).2; let f0 := (mget s0.flights 1).getD f
        let r : OpRegs := ⟨inOrder [f.block 24 1, f.block 20 2], [], [], false, 0⟩
        s0.requests = [] ∧ s0.recordedWell (issueStore s0 1 f0 C r 24 .b32 .sync (accesses false C (globalAt f 20 0xFFFC))) = true)
      ∧ (∀ q ∈ P.sessions, q.2.running = false) ∧ memWf P.mem = true ∧ OwnPending P f.core
      ∧ Runs P f C ⟨inOrder [f.block 24 1, f.block 20 2], [], [], false, 0⟩ ∧ Admitted P 1 f C ∧ P.nextTag f ∉ (P.ctxt f.context).live
      ∧ ∀ a ∈ accesses false C (globalAt f 20 0xFFFC), Permitted P f false true 4 a.addr)
    ∧ ∀ wait ∈ [none, some [9]], let f := far wait; let s := reaching f
      let r : OpRegs := ⟨inOrder [f.block 24 1, f.block 20 2], [], [], false, 0⟩
      Runs s f C r ∧ Admitted s 1 f C ∧ s.canBound f.core true = true ∧ s.nextTag f ∉ (s.ctxt f.context).live ∧ OwnPending s f.core
      ∧ memWf s.mem = true ∧ (∀ q ∈ s.sessions, q.2.running = false) ∧ (s.boundary 1 f (some f.ctl.ordscope.toNat) none).1 ≠ []
      ∧ (let s0 := (s.setFlight 1 { f with pubWait := none }).performAll f.core; let f0 := (mget s0.flights 1).getD f
        s0.requests = [] ∧ OwnPending s0 f.core ∧ memWf s0.mem = true
          ∧ s0.recordedWell (issueStore s0 1 f0 C r 24 .b32 .sync (accesses false C (globalAt f 20 0xFFFC))) = true)
      ∧ ∀ a ∈ accesses false C (globalAt f 20 0xFFFC), Permitted s f false true 4 a.addr := by
  refine ⟨⟨by decide, by decide, by decide, by decide, ⟨by decide, by decide⟩, by decide, by decide, by decide, runs (by decide),
    ⟨by decide, by decide⟩, by decide, fun a h => permitted ((by decide :
      ∀ a ∈ accesses false C (globalAt F 20 0xFFFC), permitted? P F false true 4 a.addr = true) a h)⟩, ?_⟩
  intro wait h
  simp only [List.mem_cons, List.not_mem_nil, or_false] at h
  obtain rfl | rfl := h
  all_goals
    refine ⟨runs (by decide), ⟨by decide, by decide⟩, by decide, by decide, by decide, by decide, by decide, by decide +kernel,
      ⟨by decide, by decide, by decide, by decide +kernel⟩, fun a h => permitted ?_⟩
    revert a; decide

/-- The last 16 bytes of the store. -/
theorem test_witness_ClusterStoreAccess :
    let s := st F
    let as := accesses false C (offsetAt F 20 65520)
    let at1 := as.map (fun x => (x.addr, x.addr + 16))
    C.act ≠ [] ∧ F.entries.length < 128 ∧ F.win = some 1 ∧ mget s.windows 1 = some ⟨1, 0, 0, 65536, [], [], false⟩
      ∧ (∀ x ∈ as, x.addr % 16 = 0 ∧ x.addr + 16 ≤ F.winSize) ∧ s.atomsAhead 1 C.act at1 = false ∧ memWf ([] : List Host.Cell) = true
      ∧ Runs s F C ⟨[F.regName 20], F.block 24 4, [], false, 0⟩
      ∧ s.storeBusy 1 false at1 = false ∧ Runs s F C ⟨inOrder [F.block 24 4, [F.regName 20]], [], [], false, 0⟩
      ∧ s.storeBusy 1 true at1 = false ∧ s.nextTag F ∉ (s.ctxt F.context).live
      ∧ (∀ q ∈ s.flights, ∀ p ∈ q.2.threads, p.2.awaiting = none) :=
  ⟨by decide, by decide, by decide, by decide, by decide, by decide, by decide, runs (by decide), by decide, runs (by decide), by decide,
    by decide, by decide⟩

/-- The last argument bytes, and the last constant bytes. -/
theorem test_witness_ConstantLoads :
    let g := { wordGallery State.reset 1 with desc := { wordDesc with consts := 0x1000, constsize := 64 } }
    ∀ base ∈ [1008#32, 0x10030#32], let f := withReg F 20 base; let s := { st f with galleries := [(1, g)] }
    C.act ≠ [] ∧ f.entries.length < 128 ∧ mget s.galleries f.gallery = some g ∧ Runs s f C ⟨[f.regName 20], f.block 24 4, [], false, 0⟩
      ∧ ∀ x ∈ accesses false C (offsetAt f 20 0), x.addr % 16 = 0 ∧
        if x.addr < 0x10000 then x.addr + 16 ≤ g.desc.args else x.addr - 0x10000 + 16 ≤ g.desc.constsize := by
  intro g base h
  simp only [List.mem_cons, List.not_mem_nil, or_false] at h
  obtain rfl | rfl := h
  all_goals exact ⟨by decide, by decide, by decide, runs (by decide), by decide⟩

theorem test_witness_AtomicsIssue :
    let names := F.block 24 (atomWidth .cas64 .spec)
    let dests := names.take 2 ++ names.drop 4
    let as := accesses false C (offsetAt F 20 65528)
    C.act ≠ [] ∧ Runs P F C ⟨inOrder [names.take 4, F.block 20 2], dests, [], false, 0⟩
      ∧ Runs P F C ⟨inOrder [names.take 4, F.block 20 2], [], [], false, 0⟩ ∧ Admitted P 1 F C
      ∧ P.nextTag F ∉ (P.ctxt F.context).live ∧ (∀ a ∈ accesses false C (globalAt F 20 0xFFF8), Permitted P F true true 8 a.addr)
      ∧ Runs P F C ⟨inOrder [names.take 4, [F.regName 20]], dests, [], false, 0⟩
      ∧ (∀ x ∈ as, x.addr % 8 = 0 ∧ x.addr + 8 ≤ F.winSize)
      ∧ P.storeBusy (F.win.getD 0) true (as.map (fun x => (x.addr, x.addr + 8))) = false ∧ P.requests = [] ∧ F.entries.length < 128 :=
  ⟨by decide, runs (by decide), runs (by decide), ⟨by decide, by decide⟩, by decide, fun a h => permitted ((by decide :
    ∀ a ∈ accesses false C (globalAt F 20 0xFFF8), permitted? P F true true 8 a.addr = true) a h), runs (by decide), by decide, by decide,
    by decide, by decide⟩

/-! ## Statements about special registers and traps -/

theorem test_witness_SystemRegisters :
    let s := st F; let g := wordGallery State.reset 1
    C.act ≠ [] ∧ mget s.galleries F.gallery = some g ∧ Runs s F C (regsD 20 1 false 0 F) ∧ Runs s F C (regsD 20 2 false 0 F)
      ∧ Runs s F C (regsS [(20, 1)] [] false 0 F) ∧ (∀ x ∈ C.act, (0x0D, F.index, 0) ∈ placeRegisters s F g x)
      ∧ (∀ x ∈ C.act, ∀ k < 3, (0x0E, k) ∈ otherRegisters s F g C x k)
      ∧ (0x10F, { F.ctl with ordscope := 4 }) ∈ writtenControl F.narrow F.ctl 4 :=
  ⟨by decide, by decide, runs (by decide), runs (by decide), runs (by decide), by decide, by decide, by decide⟩

/-- The module whose core has loaded macro 63, and traces context 0. -/
def traced : State :=
  let s := (st F).setCore 0 { (st F).core 0 with store := some ⟨0, 0, [(63, [0])]⟩ }
  s.setDie 0 { s.die 0 with trace := { (s.die 0).trace with flags := 1, context := 0 } }

theorem test_witness_MacrosTraceAndPrefetch :
    C.act ≠ [] ∧ Runs traced F C (regs0 0 F) ∧ C.body = none ∧ (traced.core F.core).store = some ⟨0, 0, [(63, [0])]⟩ ∧ F.context = 0
      ∧ (mget traced.galleries F.gallery).map (·.desc.macros) = some 0
      ∧ mget [(63, [0])] 63 = some [0] ∧ (∀ x ∈ C.group, (F.thread x).fromBody = none)
      ∧ Runs traced F C (regsS [(20, 1)] [] false 0 F) ∧ (traced.die 0).trace.flags.testBit 0 = true
      ∧ Runs (st F) F C (regsS [(20, 1)] [] false 0 F) ∧ ((st F).die 0).trace.flags.testBit 0 = false
      ∧ Runs traced F C (regsS [(20, 2)] [] false 0 F) :=
  ⟨by decide, runs (by decide), by decide, by decide, by decide, by decide, by decide, by decide, runs (by decide), by decide,
    runs (by decide), by decide, runs (by decide)⟩

theorem test_witness_TrapsFreezeTheFlight :
    (C.act ≠ [] ∧ C.body = none) ∧ Runs (st F) F C (regs0 0 F) ∧ ((st F).core F.core).store = none
      ∧ (let f := inHandler; Runs (st f) f C (regs0 0 f) ∧ (∃ x ∈ C.act, (f.thread x).handler = true)
        ∧ Runs (st f) f C (regsS [(20, 1), (21, 1)] [] false 0 f) ∧ Runs (st f) f C (regsS [(20, 2), (22, 1)] [] false 0 f))
      ∧ (let f := withReg F 20 2; Runs (st f) f C ⟨[20, 21], [], [], false, 0⟩
        ∧ C.act.filter (fun x => (targetFrom f x 20).1.toNat % 4 ≠ 0) = [0])
      ∧ (let f := withReg F 21 4; Runs (st f) f C ⟨[20, 21], [], [], false, 0⟩
        ∧ C.act.filter (fun x => (targetFrom f x 20).1.toNat % 4 ≠ 0) = []
        ∧ C.act.filter (fun x => !((st f).inRegion f (targetFrom f x 20).1.toNat)) = [0])
      ∧ (∀ link : Bool, Runs (st F) F C ⟨[], if link then [14, 15] else [], [], false, 0⟩)
      ∧ C.act.filter (fun x => (15 : BitVec 4) == 15 || xor (predOf F 15 x) false) ≠ []
      ∧ ¬InRegion (st F) F (BitVec.ofInt 64 (C.addr.toNat + 4 * (-1025))) :=
  ⟨by decide, runs (by decide), by decide, ⟨runs (by decide), by decide, runs (by decide), runs (by decide)⟩,
    ⟨runs (by decide), by decide⟩, ⟨runs (by decide), by decide, by decide⟩, fun link => by cases link <;> exact runs (by decide),
    by decide, by unfold InRegion; decide⟩

/-- The state with some bytes listed in memory. -/
def holding (cells : List Host.Cell) (s : State) : State := { s with mem := cells }
/-- The failures of a 4-byte load of the small flight in a state. -/
def failing (s : State) (f : Flight) : List (Nat × TrapCode × Nat × Option MissKey) :=
  (accesses false C (globalAt f 20 0)).filterMap (fun x => firstFailing s f true false 4 x.addr)

/-- Each check of R127, its key missed, already missed or in a full table, the two checks of the store, and a flight that the permission
count holds or not. -/
theorem test_witness_AccessChecksInOrder :
    (C.act ≠ [] ∧ C.body = none) ∧ Runs (st F) F C ⟨F.block 20 2, F.block 24 1, [], false, 0⟩
      ∧ failing (st (withReg F 21 0x01000000)) (withReg F 21 0x01000000) = [(0, .translation, 0, none)]
      ∧ failing (st (withReg F 20 1)) (withReg F 20 1) = [(1, .misaligned, 0, none)]
      ∧ failing (st F) F = [(2, .translation, 0, some (.page 0 0))]
      ∧ failing (holding [(0, 1#8), (7, 0x10#8)] (st F)) F = [(2, .translation, 1, some (.page 0 0))]
      ∧ failing (paged 0x37 (st F)) F = [(3, .privilege, 0, none)] ∧ failing (paged 0x25 (st F)) F = [(4, .permission, 0, none)]
      ∧ (st F).missOf 0 (.page 0 0) = none
      ∧ (∀ n < 2, let s := (st F).setQuarter 0 0 { (st F).quarter 0 0 with perm := n }
        Runs s F C ⟨F.block 20 2, F.block 24 1, [], false, 0⟩ ∧ (s.throttled 1 F C = true ↔ n = 0))
      ∧ (let s := (st F).setDie 0 { (st F).die 0 with miss := [⟨.page 0 0, []⟩] }
        Runs s F C ⟨F.block 20 2, F.block 24 1, [], false, 0⟩ ∧ s.missOf 0 (.page 0 0) = some ⟨.page 0 0, []⟩)
      ∧ (let s := (st F).setDie 0 { (st F).die 0 with miss := List.replicate 512 ⟨.page 1 0, []⟩ }
        Runs s F C ⟨F.block 20 2, F.block 24 1, [], false, 0⟩ ∧ (s.missOf 0 (.page 0 0)).isNone = true ∧ 512 ≤ (s.die 0).miss.length)
      ∧ (∀ v ∈ [1#32, 65536#32], let f := withReg F 20 v; Runs (st f) f C (regsS [(20, 1)] [] false 0 f)
        ∧ (accesses false C (offsetAt f 20 0)).map (·.addr) = [v.toNat]) :=
  ⟨by decide, runs (by decide), by decide, by decide, by decide, by decide, by decide, by decide, by decide, fun n h => by
      obtain rfl | rfl : n = 0 ∨ n = 1 := by omega
      all_goals exact ⟨runs (by decide), by decide⟩, ⟨runs (by decide), by decide⟩,
    ⟨runs (by decide), by
      rw [Option.isNone_iff_eq_none]
      exact List.find?_eq_none.2 fun x hx => by rw [List.eq_of_mem_replicate hx] <;> decide, Nat.le_of_eq (List.length_replicate ..).symm⟩, by
      intro v h
      simp only [List.mem_cons, List.not_mem_nil, or_false] at h
      obtain rfl | rfl := h <;> exact ⟨runs (by decide), by decide⟩⟩

/-- A flight that a trap of a code has frozen. -/
def iced (code : TrapCode) : Flight := { F with frozen := some ⟨code, 1, [], none⟩ }

/-- An engine operation of one chunk of 16 bytes between address 0 and offset 0. -/
def moving (kind : EngKind) : Engine :=
  { Engine.empty kind with
    win := 1, len16 := 1, rows := 1, total := 1, groups := 4, n0 := if kind = .g2v then [(0, 20), (1, 21), (2, 22), (3, 23)] else []
    per := if kind = .gath then [(0, [0, 0])] else [(0, [0])] }

/-- An entry of class I or K of clause 0x1000, to be issued again. -/
def waiting (cls : EClass) (word : Nat) (pay : Payload) : Entry := { ent cls pay with replay := true, word := word, addrs := [(0, 0)] }

/-- A breakpoint at the start of a clause, an illegal clause, a K entry, an LDS and an LD that traps on an odd page, and an entry resumed past. -/
theorem test_witness_ReturnFromTraps_entries :
    (∀ code ∈ [TrapCode.bkpt, .illegal], let z : Frozen := ⟨code, 0, List.replicate 64 0#8, none⟩
      let f := { F with clause := none, frozen := some z }
      mget (st f).flights 1 = some f ∧ f.frozen = some z ∧ z.entry = none ∧ z.op = 0 ∧ f.clause = none
        ∧ f.entries.find? (·.replay) = none ∧ (st f).hallArrived 1 f = 0)
      ∧ (∀ e ∈ [waiting .k 0 (.engine (moving .g2s)), waiting .i 0xA4540200 (.load .b32 false [21] []), waiting .i 0x9C548200 (.load .b32 false [21] [])],
        ∀ z ∈ [(none : Option Nat), some 9], let f := { busy e with frozen := some ⟨.trap, 1, [], z⟩ }; let s := st f
        mget s.flights 1 = some f ∧ f.frozen = some ⟨.trap, 1, [], z⟩ ∧ f.entry? e.id = some e ∧ (f.entries.map (·.id)).Nodup
          ∧ s.hallArrived 1 f = 0 ∧ f.entries.find? (·.replay) = some e ∧ (∀ x ∈ f.entries, x.replay = true → x.id = e.id)
          ∧ s.hallHeld f = true ∧ (z = none ∨ z = some e.id) ∧ e.cls ≠ .b ∧ (∀ x ∈ f.entries, x.id ≠ e.id → x.replay = false))
      ∧ matrixEntry (waiting .k 0 (.engine (moving .g2s))) = false
      ∧ (decodeWord 0xA4540200).toOption = some (.lds false 21 0 .b32 0) ∧ (decodeWord 0x9C548200).toOption = some (.ld false 21 16 .b32 .plain 0)
      ∧ (st F).againBusy 1 [(0, 4)] = false ∧ (st F).atomsAhead 1 [0] [(0, 4)] = false
      ∧ mget (st F).windows 1 = some ⟨1, 0, 0, 65536, [], [], false⟩ ∧ F.win = some 1
      ∧ firstFailing (paged 0x37 (st F)) F true false 4 0 = some (3, .privilege, 0, none) :=
  ⟨by decide, by decide, by decide, by decide, by decide, by decide, by decide, by decide, by decide, by decide⟩

theorem test_witness_ReturnFromTraps :
    (∀ code ∈ [TrapCode.trap, .late, .instC, .instD, .instZ], mget (st (iced code)).flights 1 = some (iced code)
      ∧ (iced code).frozen = some ⟨code, 1, [], none⟩ ∧ (∀ e ∈ (iced code).entries, e.replay = false) ∧ ¬(code = .bkpt ∧ (1 : Nat) = 0)
      ∧ (iced code).clause = some C)
      ∧ TrapCode.trap ∉ [TrapCode.instC, .instD, .instZ, .late] ∧ msorted (st F).flights = true
      ∧ mget (st F).flights 1 = some F ∧ F.context ≠ 5 ∧ (F.entries.map (·.id)).Nodup := by decide

/-! ## Statements about phases and waits -/

theorem test_witness_PhasesPublishAndRefresh :
    Runs (st F) F C (regs0 0 F) ∧ (st F).fabricUp = false ∧ F.pubWait = none ∧ (st F).answered F = true
      ∧ (st F).canBound F.core true = true ∧ msorted (st F).co = true ∧ OwnPending (st F) F.core
      ∧ ((st F).boundary 1 F (some 0) none).1 = []
      ∧ (∀ wait ∈ [none, some [9]], let f := far wait; let s := reaching f
        Runs s f C (regs0 0 f) ∧ msorted s.co = true ∧ OwnPending s f.core ∧ s.answered f = true ∧ s.canBound f.core true = true
          ∧ (4 : BitVec 5).toNat = 4 ∧ (s.boundary 1 f (some 4) none).1 ≠ [])
      ∧ (let f := far (some [9]); let s := { reaching f with fabricOut := [(9, ⟨0, []⟩)] }
        Runs s f C (regs0 0 f) ∧ msorted s.co = true ∧ OwnPending s f.core ∧ s.answered f = false) := by
  refine ⟨runs (by decide), by decide, by decide, by decide, by decide, by decide, by decide, by decide, ?_, runs (by decide), by decide,
    by decide, by decide⟩
  intro wait h
  simp only [List.mem_cons, List.not_mem_nil, or_false] at h
  obtain rfl | rfl := h
  all_goals exact ⟨runs (by decide), by decide, by decide, by decide, by decide, by decide, by decide +kernel⟩

/-- One thread of one, and one thread of two, arrive. -/
theorem test_witness_BarrierArrivals :
    ∀ ts ∈ [[(0, F.thread 0)], [(0, F.thread 0), (1, F.thread 0)]], let f := { F with threads := ts }; let s := st f
      Runs s f C (regs0 0 f) ∧ C.body = none ∧ f.entries.length < 128 ∧ C.act ≠ [] ∧ C.act.Nodup
      ∧ (∀ x ∈ C.act, x ∈ f.live ∧ (f.thread x).handler = false ∧ (f.thread x).barred = false ∧ (f.thread x).awaiting = none)
      ∧ (∀ q ∈ s.flights, ∀ p ∈ q.2.threads, p.2.barred = false)
      ∧ msorted s.flights = true ∧ msorted f.threads = true ∧ s.canBound f.core true = true
      ∧ (s.hallArrived 1 f + C.act.length = s.hallLive 1 f ↔ ts.length = 1) := by
  intro ts h
  simp only [List.mem_cons, List.not_mem_nil, or_false] at h
  obtain rfl | rfl := h
  all_goals exact ⟨runs (by decide), by decide, by decide, by decide, by decide, by decide, by decide, by decide, by decide, by decide,
    by decide⟩

/-- The last word of the store, with the counts at which AWAIT lets a thread on and no longer does. -/
theorem test_witness_StoreWordWaits :
    ∀ n ∈ [0x80000001#32, 0x80000000#32], let f := withReg (withReg F 20 65532) 21 n; let s := st f
      let as := accesses false C (offsetAt f 20 0)
      F.win = some 1 ∧ mget s.windows 1 = some ⟨1, 0, 0, 65536, [], [], false⟩ ∧ C.body = none ∧ C.act.Nodup
      ∧ s.canBound f.core true = true ∧ s.canBound f.core false = true ∧ s.requests = []
      ∧ s.atomsAhead 1 C.act (as.map (fun x => (x.addr, x.addr + 4))) = false ∧ memWf ([] : List Host.Cell) = true
      ∧ Runs s f C (regsS [(20, 1)] [] false 0 f) ∧ (∀ q ∈ s.flights, ∀ p ∈ q.2.threads, p.2.awaiting = none)
      ∧ (∀ x ∈ as, x.unanimous = true ∧ x.addr % 4 = 0 ∧ x.addr + 4 ≤ f.winSize)
      ∧ s.storeBusy 1 true (as.map (fun x => (x.addr, x.addr + 4))) = false
      ∧ s.storeBusy 1 false (as.map (fun x => (x.addr, x.addr + 4))) = false
      ∧ Runs s f C (regsS [(20, 1), (21, 1)] [] false 0 f) ∧ (∀ x ∈ C.act, x ∈ f.live ∧ (f.thread x).handler = false)
      ∧ ((2 ^ 32 - (majorityOf (f.opnd 0 21)).toNat) % 2 ^ 32 < 2 ^ 31 ↔ n = 0x80000001#32) := by
  intro n h
  simp only [List.mem_cons, List.not_mem_nil, or_false] at h
  obtain rfl | rfl := h
  all_goals exact ⟨by decide, by decide, by decide, by decide, by decide, by decide, by decide, by decide, by decide, runs (by decide),
    by decide, by decide, by decide, by decide, runs (by decide), by decide, by decide⟩

theorem test_witness_GlobalPolls :
    (Runs P F C (regsS [(20, 2), (22, 1)] [] false 0 F) ∧ C.body = none ∧ P.canBound F.core false = true
      ∧ (P.boundary 1 F none (some 0)).2.requests = [] ∧ P.throttled 1 F C = false
      ∧ (∀ x ∈ C.act, x ∈ F.live ∧ (F.thread x).handler = false)
      ∧ ∀ x ∈ accesses false C (globalAt F 20 0), x.unanimous = true ∧ Permitted P F true false 4 x.addr)
      ∧ ∀ pass ∈ [[], [0]], let f := { F with pollsOut := [(5, ⟨0x1000, [0], pass, 0x1008, none, none⟩)] }
        mget (st f).flights 1 = some f ∧ mget f.pollsOut 5 = some ⟨0x1000, [0], pass, 0x1008, none, none⟩
        ∧ ∀ x ∈ [0] ++ pass, x ∈ f.live :=
  ⟨⟨runs (by decide), by decide, by decide, by decide, by decide, by decide, fun a h => ⟨(by decide :
    ∀ a ∈ accesses false C (globalAt F 20 0), a.unanimous = true) a h, permitted ((by decide :
    ∀ a ∈ accesses false C (globalAt F 20 0), permitted? P F true false 4 a.addr = true) a h)⟩⟩, by decide⟩

/-- The last thread of a hall of two flights arrives, the other flight's having arrived. -/
theorem test_witness_BarrierArrivals_whole :
    let other := { withThread F { F.thread 0 with st := .blocked, barred := true, next := 0x1008 } with clause := none, index := 1, quarter := 1 }
    let s := { st F with flights := [(1, F), (2, other)], nextId := 3 }
    Runs s F C (regs0 0 F) ∧ (∀ q ∈ s.flights, ∀ p ∈ q.2.threads, p.2.barred = true → p.2.awaiting = none) ∧ msorted s.flights = true
      ∧ s.canBound F.core true = true ∧ s.hallArrived 1 F + C.act.length = s.hallLive 1 F
      ∧ sameHall 1 F (2, other) = true ∧ (other.thread 0).barred = true :=
  ⟨runs (by decide), by decide, by decide, by decide, by decide, by decide, by decide⟩

/-! ## Statements about the engines -/

/-- A flight whose registers 28 and 29 give a shape of one row of 16 bytes, and as index and control of GATH one of 64 KiB. -/
def shaped : Flight := withReg (withReg F 28 0x00010001) 29 4096

theorem test_witness_CopiesAndGathersIssue :
    let f := shaped; let s := paged 0x27 (st f)
    (C.act ≠ [] ∧ C.act.Nodup) ∧ s.throttled 1 f C = false ∧ s.sliceUse f.core < 256 ∧ (f.entries.length < 128 ∧ s.requests = [])
      ∧ (∀ p ∈ [(EngKind.g2s, true, false), (.s2g, false, true), (.s2s, false, false)],
        Runs s f C (regsS [(20, if p.2.2 then 2 else 1), (24, if p.2.1 then 2 else 1), (28, 2)] [] false 0 f)
        ∧ copyReaches f (copyEngine s f C p.1 p.2.1 p.2.2 20 24 28) p.2.1 p.2.2
        ∧ (copyEngine s f C p.1 p.2.1 p.2.2 20 24 28).per = [(0, [0])])
      ∧ Runs s f C ⟨inOrder [f.block 24 2, f.block 28 2], f.block 20 4, [], false, 0⟩
      ∧ (uniform f C true 28).1 % 2 ^ 16 = 1 ∧ (20 : BitVec 7).toNat % 4 = 0 ∧ f.level ≠ 3
      ∧ Runs s f C (regsS [(20, 1), (24, 2), (28, 2)] [] false 0 f) ∧ (uniform f C false (28 + 1)).1 % 2 ^ 16 = 4096
      ∧ isCanonical (uniform f C true 24).1 ∧ (majorityOf (f.opnd 0 20)).toNat + 16 * 4096 ≤ f.winSize := by
  refine ⟨by decide, by decide, by decide, by decide, ?_, runs (by decide), by decide, by decide, by decide, runs (by decide), by decide, by
    unfold isCanonical; decide, by decide⟩
  intro p h
  simp only [List.mem_cons, List.not_mem_nil, or_false] at h
  obtain rfl | rfl | rfl := h
  all_goals exact ⟨runs (by decide), by unfold copyReaches isCanonical; decide, by decide⟩

/-- A plane set is free, and another is held; every operand of the unit is legal. -/
theorem test_witness_MatrixOperationsQueue :
    (∀ p ∈ [(F, 0), ({ F with planes := some 7 }, 7)], let f := p.1; let s := st f; let q := s.quarter f.core f.quarter
      (C.act ≠ [] ∧ C.act.Nodup) ∧ Runs s f C (regs0 0 f) ∧ (q.mq.filter (fun p => !(s.begun p))).length < 4 ∧ f.entries.length < 128
      ∧ (s.sliceUse f.core < 256 ∧ s.requests = []) ∧ PlaneOf s 1 f p.2 ∧ (f.planes = none ∨ f.planes = some 7)
      ∧ Runs s f C (regsS [(48, 2)] [] false 0 f) ∧ (∀ x ∈ C.act, x ∈ f.live))
      ∧ (let f := F; let s := st F
        descriptorFits (mdesc (uniform f C true 48).1) f ((mdesc (uniform f C true 48).1).units
          ((ownedPlanes f.lane (owning f C)).map (fun p => (16 * p.1 * (mdesc (uniform f C true 48).1).tpitch, p.2.1))) 128)
        ∧ Runs s f C ⟨inOrder [f.block 32 (formBytes .f32 / 4), f.block 48 2, []], [], [], false, 0⟩
        ∧ mmaReaches f C .mma .v .f32 32 48 ∧ Runs s f C ⟨inOrder [f.block 32 2, f.block 48 4, f.block 16 2], [], [], false, 0⟩
        ∧ mmaReaches f C .mmag .s .bx8 32 48) := by
  refine ⟨?_, ⟨by decide, by decide, by decide⟩, runs (by decide), ⟨⟨by decide, by decide, by decide +kernel⟩, (fun h => nomatch h), (fun h => nomatch h)⟩,
    runs (by decide), ⟨⟨by decide, by decide, by decide +kernel⟩, fun _ => ⟨by decide, by decide, by decide +kernel⟩, by decide⟩⟩
  intro p h
  simp only [List.mem_cons, List.not_mem_nil, or_false] at h
  obtain rfl | rfl := h
  all_goals exact ⟨by decide, runs (by decide), by decide, by decide, by decide, by unfold PlaneOf; decide, by decide, runs (by decide),
    by decide⟩

/-- A gallery bound to a collective of one chunk, which every hall fires. -/
def firing : Gallery :=
  { wordGallery State.reset 1 with
    coll := some 1
    launch := { wordLaunch with coll := List.replicate 24 0#8 ++ [1#8] ++ List.replicate 39 0#8 } }
/-- Its collective. -/
def coll0 : Coll :=
  { gallery := 1, context := 0, peers := 0, number := 0, count := 2, rank := 0, members := [0, 1], ckind := 1, cop := 0, ctype := 2, ccls := 2
    tbase := 0, tpitch := 64, tbytes := 64, nchunk := 1, rbase := 64, fired := [], read := [], written := [], data := [], failed := none
    holds := [], aged := [], waitFrom := [], turn := [] }
/-- The module with it, a task table, a task frame at 0 and a legal record in v20 to v27. -/
def tasking : State :=
  { holding [(0, 1#8), (61, 1#8), (0x8008, 6#8)] (paged 0xC27 (st (withReg F 27 0x100))) with
    contexts := [(0, { State.reset.ctxt 0 with tasks := 0x8000 })], galleries := [(1, firing)], colls := [(1, coll0)] }

/-- A flight of threads 0 and 1 with the join blocks at 0 and 64. -/
def joinF : Flight := { twoF 1 with regs := [(16, .lanes [(0, 0), (1, 0), (2, 0), (3, 64), (4, 64), (5, 64)])] }
/-- The module with it. -/
def joining : State := { tasking with flights := [(1, joinF)] }

/-- TJOIN of two threads. -/
theorem test_witness_TasksAndFiring_joining :
    let s0 := (joining.boundary 1 joinF (some 3) none).2; let as := accesses false two (globalAt joinF 16 0)
    let s1 := s0.usePagesAs joinF joinF.core false true (as.map (·.addr))
    Runs joining joinF two (regsS [(16, 2)] [] false 0 joinF) ∧ two.act = [0, 1] ∧ joinF.entries.length < 128
      ∧ joining.canBound joinF.core true = true ∧ msorted joining.co = true ∧ OwnPending joining joinF.core
      ∧ (∀ x ∈ as, Permitted joining joinF true true 64 x.addr) ∧ as.map (·.addr) = [0, 64]
      ∧ joining.nextTag joinF ∉ (joining.ctxt joinF.context).live ∧ (∀ q ∈ joining.sessions, q.2.running = false)
      ∧ memWf joining.mem = true ∧ s0.requests = [] ∧ RecordRoom s1 two.act.length := by
  refine ⟨runs (by decide), by decide, by decide, by decide, by decide, by decide, fun x hx => permitted ?_, by decide, by decide, by decide,
    by decide, by decide, recordRoom (by decide)⟩
  revert x; decide

theorem test_witness_TasksAndFiring :
    let f := withReg F 27 0x100; let s := tasking
    let s1 := (s.boundary 1 f (some 3) none).2.usePages f true [0]
    (C.act = [0] ∧ f.entries.length < 128 ∧ s.canBound f.core true = true ∧ msorted s.co = true ∧ OwnPending s f.core
      ∧ (s.boundary 1 f (some 3) none).2.requests = [] ∧ s1.canRecord (s1.locate f 0).pa = true) ∧ Runs s f C (regsS [(20, 8)] [] false 0 f) ∧ (s.taskSlot f.context (dieOf f.core) 0).isSome = true
      ∧ (let r := leBytes 32 (wordsNat ((List.range 8).map fun i => (f.operand 0 (20 + i)).get 0))
        leNat (r.take 8) % 4 = 0 ∧ leNat ((r.drop 16).take 8) % 64 = 0 ∧ leNat ((r.drop 28).take 1) ≤ 31
        ∧ leNat ((r.drop 29).take 1) = 1 ∧ leNat ((r.drop 30).take 2) = 0 ∧ s.inRegion f (leNat (r.take 8)) = true)
      ∧ Runs s f C (regsS [(16, 2)] [] false 0 f) ∧ Permitted s f true true 64 (globalAt f 16 0 0).1
      ∧ s.nextTag f ∉ (s.ctxt f.context).live ∧ (∀ q ∈ s.sessions, q.2.running = false)
      ∧ memWf s.mem = true ∧ leNat (memRead s1.mem 0 4) = 1 ∧ (s1.taskSlot 0 0 0).isSome = true ∧ recordBad f.lane (memRead s1.mem 32 32) = false
      ∧ (∀ slot ∈ s1.taskSlot 0 0 0, (s1.taskQ 0 0 0).open_ slot = true)
      ∧ mget s.galleries f.gallery = some firing ∧ firing.coll = some 1 ∧ mget s.colls 1 = some coll0 ∧ hallChunk firing f.hall = some 0
      ∧ Runs s f C (regs0 0 f) ∧ Runs s f C (regsS [(20, 1)] [] false 0 f)
      ∧ (uniform f C false 20).1 < leNat ((firing.launch.coll.drop 24).take 4) :=
  ⟨by decide, runs (by decide), by decide, by decide, runs (by decide), permitted (by decide), by decide, by decide, by decide,
    by decide, by decide, by decide, by decide, by decide, by decide, by decide, by decide, runs (by decide), runs (by decide), by decide⟩

/-! ## Statements about clauses and the scheduler -/

/-- What a fetch brought. -/
def words? : Fetch → Option (Nat × List Nat)
  | .clause hw ws _ => some (hw, ws)
  | _ => none

theorem fetched {x : Fetch} {hw : Nat} {ws : List Nat} (h : words? x = some (hw, ws)) : ∃ s, x = .clause hw ws s := by
  cases x <;> simp [words?] at h
  exact ⟨_, by rw [h.1, h.2]⟩

/-- A flight at a clause boundary, with f0 at n. -/
def between (n : Nat) : Flight := { F with clause := none, flags := [(0, n)] }
/-- The module with a clause of one word at 0x1000. -/
def coded (n : Nat) (hw w : Word) : State :=
  let s := paged 0x42F (st (between n))
  let cell := fun a (v : Byte) => if v = 0 then [] else [(a, v)]
  let bytes := fun (a : Nat) (v : Word) => (List.range 4).flatMap fun i => cell (a + i) (v.extractLsb' (8 * i) 8)
  holding (bytes 0x1000 hw ++ bytes 0x1004 w) (s.setCluster 0 { s.cluster 0 with icache := [0x40] })

/-- A clause that starts, an illegal one, one that waits for f0, one whose f0 is full, and one that no thread takes. -/
theorem test_witness_ClausesStart :
    (∀ p ∈ [(0, 0x1FFE0#32, 0x78000000#32), (0, 0x1FFE1#32, 0x78000000#32), (1, 0x3FFE0#32, 0x78000000#32), (63, 0x1FE0#32, 0x9C548200#32),
        (0, 0x1FE00#32, 0x78000000#32)], let s := coded p.1 p.2.1 p.2.2; let f := between p.1
      s.cur = some 1 ∧ mget s.flights 1 = some f ∧ f.clause = none ∧ f.body = none ∧ s.chosen 1 f = true
      ∧ f.issueAddr = some 0x1000 ∧ (deliverable f = false ∧ s.requests = []) ∧ pollBlocks s f 0x1000 = false
      ∧ (∃ s1, fetchClause s f (f.choice.filter (fun i => (f.thread i).pc.toNat = 0x1000)) 0x1000 = .clause p.2.1.toNat [p.2.2.toNat] s1)
      ∧ (∀ l ∈ f.late, (Clause.header p.2.1.toNat).wait.testBit l.flag = false ∨ 12 ≤ l.flag) ∧ (s.ctxt f.context).bps = [])
      ∧ (Clause.decode 4 false 0x1FFE1 [0x78000000]).isOk = false ∧ (Clause.decode 4 false 0x1FFE0 [0x78000000]).isOk = true
      ∧ (Clause.decode 4 false 0x3FFE0 [0x78000000]).isOk = true ∧ (Clause.header 0x3FFE0).wait.testBit 0 = true ∧ (between 1).flagCount 0 ≠ 0
      ∧ (Clause.decode 4 false 0x1FE0 [0x9C548200]).isOk = true ∧ (Clause.header 0x1FE0).seta = 0 ∧ ¬((between 63).flagCount 0 + 1 ≤ 63)
      ∧ (Clause.decode 4 false 0x1FE00 [0x78000000]).isOk = true ∧ (Clause.header 0x1FE00).guard = 0 ∧ (F.thread 0).preds = 0 := by
  refine ⟨?_, by decide, by decide, by decide, by decide, by decide, by decide, by decide, by decide, by decide, by decide, by decide⟩
  intro p h
  simp only [List.mem_cons, List.not_mem_nil, or_false] at h
  obtain rfl | rfl | rfl | rfl | rfl := h
  all_goals exact ⟨by decide, by decide, by decide, by decide, by decide, by decide, by decide, by decide, fetched (by decide), by decide,
    by decide⟩

/-- A late fault whose flag the clause waits for is delivered before a later one, and a breakpoint lies at the clause, met or just met. -/
theorem test_witness_ClausesStart_stopped :
    (let l : LateFault := ⟨0, 5, [], []⟩; let m : LateFault := ⟨0, 6, [], []⟩; let f := { between 0 with late := [m, l] }
      let s := { coded 0 0x3FFE0#32 0x78000000#32 with flights := [(1, f)] }
      s.chosen 1 f = true ∧ f.issueAddr = some 0x1000 ∧ deliverable f = false ∧ s.requests = [] ∧ pollBlocks s f 0x1000 = false
        ∧ words? (fetchClause s f (f.choice.filter (fun i => (f.thread i).pc.toNat = 0x1000)) 0x1000) = some (0x3FFE0, [0x78000000])
        ∧ l ∈ f.late ∧ (Clause.header 0x3FFE0).wait.testBit l.flag = true ∧ l.flag < 12
        ∧ (∀ x ∈ f.late, (Clause.header 0x3FFE0).wait.testBit x.flag = true → x.flag < 12 → x = l ∨ l.order < x.order)
        ∧ ∀ k < 12, f.flagSeen (s.cycAt f.core) k = 0)
      ∧ ∀ skip ∈ [[], [(2, 0x1000)]], let f := { between 0 with bpSkip := skip }
        let s0 := coded 0 0x1FFE0#32 0x78000000#32
        let s := { s0 with flights := [(1, f)], contexts := [(0, { s0.ctxt 0 with bps := [(1, ⟨0x2000, 2 ^ 32 - 1⟩), (2, ⟨0x1000, 0⟩)] })] }
        s.chosen 1 f = true ∧ f.issueAddr = some 0x1000 ∧ deliverable f = false ∧ s.requests = [] ∧ pollBlocks s f 0x1000 = false
          ∧ words? (fetchClause s f (f.choice.filter (fun i => (f.thread i).pc.toNat = 0x1000)) 0x1000) = some (0x1FFE0, [0x78000000])
          ∧ f.late = [] ∧ f.task = none ∧ f.hall = 0 ∧ ((2, 0x1000) ∉ f.bpSkip ↔ skip = []) := by decide +kernel

/-- Two groups of threads, with the turn base below and above the higher one; and one group. -/
theorem test_witness_FairnessAndSchedulerClocks :
    (let at' := fun (pc : BitVec 64) => { F.thread 0 with pc := pc }
      ∀ p ∈ [(0, [0, 1]), (0x3000, [0, 1]), (0, [0]), (0, [])], let rn : List Nat := p.2
        let f := { F with threads := [(0, at' 0x1000), (1, at' 0x2000)], fairDue := some rn, turnBase := p.1 }
        (st f).cur = some 1 ∧ mget (st f).flights 1 = some f ∧ f.fairDue = some rn
          ∧ (rn ≠ [] → (∃ i ∈ rn, (f.thread i).pc.toNat = 0x1000) ∧ ∀ i ∈ rn, 0x1000 ≤ (f.thread i).pc.toNat)
          ∧ (rn = [0, 1] → ((f.thread 1).pc.toNat = 0x2000 ∧ ((max 0x1000 p.1 < 0x2000 ↔ p.1 = 0)
            ∧ ((∀ i ∈ rn, (f.thread i).pc.toNat ≤ max 0x1000 p.1) ↔ p.1 = 0x3000)))))
      ∧ (let f := { withThread F { F.thread 0 with st := .napping, napEnd := 64 } with
            yieldEnd := 64, waiting := 4096, overdue := false, slip := true }
        let s := { st f with time := 64 }
        mget s.flights 1 = some f ∧ (∃ p ∈ f.threads, p.2.st = .napping ∧ p.2.napEnd ≤ s.cycAt f.core) ∧ f.yieldEnd ≠ 0
          ∧ f.yieldEnd ≤ s.cycAt f.core ∧ 4096 ≤ f.waiting ∧ f.overdue = false ∧ f.slip = true)
      ∧ ∀ score ∈ [0, 31, 32, 127, 128], let s := { st { F with score := score } with time := 1024 }
        (s.quarter 0 0).windowStart + 1024 ≤ s.cycAt 0
          ∧ ((s.flights.filter (fun p => p.2.core = 0 && p.2.quarter = 0)).map (fun p => p.2.score)).sum = score := by
  refine ⟨?_, by decide, by decide⟩
  intro at' p h
  simp only [List.mem_cons, List.not_mem_nil, or_false] at h
  obtain rfl | rfl | rfl | rfl := h
  all_goals decide

/-- A flight at a clause boundary whose thread is masked with its record, and its gallery with a handler or without one. -/
theorem test_witness_InstabilityRecordsAreDelivered :
    ∀ handler ∈ [0, 0x2000],
      let f := { withThread F { F.thread 0 with st := .masked, inst := some ⟨3, 0x1000, 1, 0, 0, 0x1000, 2, none⟩ } with clause := none }
      let own := { wordGallery State.reset 1 with desc := { wordDesc with handler := handler } }
      let s := { st f with galleries := [(1, own)] }
      mget s.flights 1 = some f ∧ mget s.galleries f.gallery = some own ∧ msorted f.threads = true ∧ f.clause = none ∧ f.frozen = none
        ∧ f.debugFrozen = false ∧ f.pyield = false ∧ f.started = true
        ∧ (∀ p ∈ f.threads, p.2.st ≠ .ready ∧ (p.2.handler = true → p.2.st = .exited))
        ∧ (∃ x, (f.thread x).st = .masked ∧ (f.thread x).handler = false ∧ (f.thread x).inst.isSome = true)
        ∧ (∀ p ∈ f.threads, p.1 < slots f) ∧ s.chosen 1 f = true ∧ s.canMap 1 f (f.footprint + (f.unmapped [14, 15]).length) = true := by
  intro handler h
  simp only [List.mem_cons, List.not_mem_nil, or_false] at h
  obtain rfl | rfl := h
  all_goals exact ⟨by decide, by decide, by decide, by decide, by decide, by decide, by decide, by decide, by decide, ⟨0, by decide⟩, by decide,
    by decide, by decide⟩

/-! ## Statements about outstanding work -/

theorem test_witness_LoadsAndAtomicsComplete :
    (∀ p ∈ [(EClass.i, Payload.load .b32 false [20] [(0, [[1], [2], [3]])]), (.i, .load .b32 true [20] [(0, [[1], [1], [1]])]),
        (.i, .bindLoad [20, 21] [(0, [[1, 0], [1, 0], [1, 0]])] []), (.t, .atom false .add32 .comm [20] [req false]),
        (.t, .atom true .add32 .comm [] [req false]), (.i, .atoms .add32 .comm [20] 1 [req false]),
        (.t, .atom false .add32 .nord [20] [req true]), (.i, .atoms .add32 .comm [20] 1 [req true]),
        (.t, .atom false .add32 .spec [20, 21] [req false]), (.i, .atoms .add32 .spec [20, 21] 1 [req false])],
      let e := ent p.1 p.2; let f := busy e; let s := st f
      mget s.flights 1 = some f ∧ f.entry? e.id = some e ∧ e.replay = false ∧ e.discards = [] ∧ e.resent = false
      ∧ (∀ r ∈ s.requests, r.flight = 1 ∧ r.entry = e.id ∨ ∀ q ∈ entryRequests 1 f e, s.before r q = false) ∧ RecordRoom s 1
      ∧ (s.core f.core).pend = [] ∧ s.storeBusy 1 true [(0, 4)] = false ∧ e.isUniform = false ∧ e.mask = [0]
      ∧ mget s.windows 1 = some ⟨1, 0, 0, 65536, [], [], false⟩ ∧ msorted s.flights = true)
      ∧ (∀ q ∈ (st F).sessions, q.2.running = false) ∧ (∀ q ∈ (st F).flights, ∀ p ∈ q.2.threads, p.2.awaiting = none)
      ∧ (req false).done = false ∧ (req false).refused = false ∧ (req true).done = true ∧ AtomUse.comm ≠ .spec := by
  refine ⟨?_, by decide, by decide, by decide, by decide, by decide, by decide⟩
  intro p h
  simp only [List.mem_cons, List.not_mem_nil, or_false] at h
  obtain rfl | rfl | rfl | rfl | rfl | rfl | rfl | rfl | rfl | rfl := h
  all_goals exact ⟨by decide, by decide, by decide, by decide, by decide, by decide, recordRoom (by decide), by decide, by decide, by decide, by decide,
    by decide, by decide⟩

/-- A `.quant` POST waits for a phase boundary of its core, which another flight of the core executes; an ATOM of another flight that is no
older goes after. -/
theorem test_witness_LoadsAndAtomicsComplete_held :
    (let e := ent .t (.atom true .add32 .quant [] [req false]); let h := { F with slot := 1 }
      let s := { st (busy e) with flights := [(1, busy e), (2, h)], cur := some 2, nextId := 20 }
      Issuing s 2 h C ∧ Ready s 2 h C (regs0 0 h) ∧ h.core = (busy e).core ∧ (3 : BitVec 5).toNat ≤ 3 ∧ s.answered h = true ∧ h.pubWait = none
        ∧ (req false).done = false ∧ (req false).refused = false ∧ e.resent = false ∧ e.acked = false
        ∧ (∀ r ∈ s.requests, r.flight = 1 ∧ r.entry = e.id) ∧ (s.core 0).pend = [] ∧ RecordRoom s 1
        ∧ msorted s.flights = true ∧ (∀ q ∈ s.sessions, q.2.running = false))
      ∧ (let e := ent .t (.atom false .add32 .comm [20] [req false]); let x := { e with id := 10, issued := 1 }
        let s := { st (busy e) with flights := [(1, busy e), (2, busy x)], nextId := 20 }
        ∃ r ∈ s.requests, ¬(r.flight = 1 ∧ r.entry = e.id) ∧ ∀ q ∈ entryRequests 1 (busy e) e, s.before r q = false) := by
  refine ⟨⟨⟨by decide, by decide, by decide⟩, ⟨by decide, by decide, .inl (by decide), by decide⟩, by decide, by decide, by decide, by decide,
    by decide, by decide, by decide, by decide, by decide, by decide, recordRoom (by decide), by decide, by decide⟩, by decide⟩

/-- Chunks of each kind on a page that may be read and written, a GATH row without index, and chunks that fail: on a missing page,
and on one that may not be reached. -/
theorem test_witness_EngineChunksMoveRows :
    (∀ kind ∈ [EngKind.g2s, .s2g, .g2v, .s2s, .gath], let x := ent .k (.engine (moving kind)); let f := busy x
      let e := moving kind
      (∀ s ∈ [st f, paged 0x27 (st f), paged 0x37 (st f)],
        mget s.flights 1 = some f ∧ f.entry? x.id = some x ∧ x.pay = .engine e ∧ e.kind ∈ [.g2s, .s2g, .s2s, .gath, .g2v] ∧ x.parked = none
        ∧ x.replay = false ∧ x.discards = [] ∧ x.done < e.total ∧ s.engineBlocked f.core x.id e = false
        ∧ (∀ q ∈ s.flights, ∀ p ∈ q.2.threads, p.2.awaiting = none) ∧ s.requests = []
        ∧ mget s.windows e.win = some ⟨1, 0, 0, 65536, [], [], false⟩ ∧ (f.entries.map (·.id)).Nodup)
      ∧ 0 < e.len16 ∧ e.n0.length ≤ e.groups ∧ (e.n0.map (·.2)).Nodup ∧ (e.aBlk.map (·.1)).Nodup ∧ msorted e.out = true
      ∧ (globalSpan e 0 = if kind = .s2s then none else some (16, 0)) ∧ (kind ≠ .s2g → kind ≠ .g2v → storeAt e 0 = some 0)
      ∧ (∀ i < 16, Permitted (paged 0x27 (st f)) f (decide (kind ≠ .s2g)) (decide (kind = .s2g)) 1 ((0 + i) % 2 ^ 64))
      ∧ firstFailing (st f) f (decide (kind ≠ .s2g)) (decide (kind = .s2g)) 1 0 = some (2, .translation, 0, some (.page 0 0))
      ∧ firstFailing (paged 0x37 (st f)) f (decide (kind ≠ .s2g)) (decide (kind = .s2g)) 1 0 = some (3, .privilege, 0, none)
      ∧ (st f).missFull (dieOf f.core) = false)
      ∧ (let e := { moving .gath with per := [(0, [32])] }; globalSpan e 0 = none ∧ storeAt e 0 = some 32) := by
  refine ⟨?_, by decide⟩
  intro kind h
  simp only [List.mem_cons, List.not_mem_nil, or_false] at h
  obtain rfl | rfl | rfl | rfl | rfl := h
  all_goals
    refine ⟨?_, by decide, by decide, by decide, by decide, by decide, by decide, by decide, fun i h => permitted ?_, by decide, by decide,
      by decide⟩
    · intro s h
      simp only [List.mem_cons, List.not_mem_nil, or_false] at h
      obtain rfl | rfl | rfl := h
      all_goals exact ⟨by decide, by decide, by decide, by decide, by decide, by decide, by decide, by decide, by decide, by decide, by decide,
        by decide, by decide⟩
    · revert i; decide

/-- An operation of the matrix unit on plane set 0. -/
def unitOp (kind : EngKind) (started : Bool) : Engine :=
  { moving kind with started := started, plane := some 0, total := if kind = .mma ∨ kind = .mmag then 4 else 1 }
/-- The unit with it at the head of its queue. -/
def unit (kind : EngKind) (started : Bool) : State :=
  (st (busy (ent .k (.engine (unitOp kind started))))).setQuarter 0 0
    { (st F).quarter 0 0 with mq := [(1, 9)], planes := [(0, ⟨1, []⟩)] }

/-- Each kind of operation, before and after it begins. -/
theorem test_witness_MatrixUnitPerformsItsQueue :
    ∀ kind ∈ [EngKind.mzero, .mfree, .mld, .mst, .mma, .mmag], ∀ started : Bool, let s := unit kind started; let old := s.quarter 0 0
      let e := unitOp kind started; let x := ent .k (.engine e); let f := busy x
      old.mq = (1, x.id) :: [] ∧ old.busyUntil ≤ s.cycAt 0 ∧ mget s.flights 1 = some f ∧ f.core = 0 ∧ f.quarter = 0
        ∧ f.entry? x.id = some x ∧ x.replay = false ∧ x.discards = [] ∧ s.engineBlocked 0 x.id e = false
        ∧ (∀ p ∈ s.flights, ∀ t ∈ p.2.threads, t.2.awaiting = none) ∧ (∀ p ∈ old.planes, msorted p.2.elems = true) ∧ e.started = started
        ∧ x.done < e.total ∧ (∀ p ∈ e.per, p.1 < slots f) ∧ (e.per.map (·.1)).Nodup ∧ e.kind = kind ∧ e.plane = some 0
        ∧ mget s.windows e.win = some ⟨1, 0, 0, 65536, [], [], false⟩ ∧ msorted old.planes = true
        ∧ (f.entries.map (·.id)).Nodup := by
  intro kind h started
  simp only [List.mem_cons, List.not_mem_nil, or_false] at h
  obtain rfl | rfl | rfl | rfl | rfl | rfl := h <;> cases started
  all_goals decide

/-! ## Statements about queues and galleries -/

/-- n bytes of which some are given. -/
def bytes (n : Nat) (given : NMap Nat) : List Byte := (List.range n).map (fun i => BitVec.ofNat 8 (mgetD given i 0))
/-- Tables that map the first GiB of context 0 to itself, and more cells below them. -/
def mapping (low : List Host.Cell) : List Host.Cell :=
  low ++ [(0x100000, 1#8), (0x100001, 0x10#8), (0x100002, 0x10#8), (0x101000, 1#8), (0x101001, 0x20#8), (0x101002, 0x10#8),
    (0x102000, 0x2F#8), (0x102001, 0x0C#8)]
/-- A kernel descriptor at 0x100. -/
def descCells : List Host.Cell :=
  [(0x100, 0x44#8), (0x101, 0x4B#8), (0x102, 1#8), (0x104, 4#8), (0x105, 1#8), (0x106, 1#8)]
/-- The module in service with one queue that holds a record. -/
def queued (raw : List Byte) : State :=
  { State.reset with
    mem := mapping descCells, contexts := [(0, { State.reset.ctxt 0 with root := 0x100000 })]
    boot := { State.reset.boot with stage := .running, numbered := true, agreed := some 1 }
    queues := [(0, { State.reset.queue 0 with enabled := true, lg := 4, cpl := 0x1000, recs := [raw] })] }
/-- A launch of one thread. -/
def launching (more : NMap Nat) : List Byte :=
  bytes 128 (more ++ [(0, 2), (1, 1), (8, 1), (10, 1), (12, 1), (14, 1), (16, 1), (18, 1), (20, 1), (22, 1), (23, 1), (24, 1), (33, 1)])

theorem test_witness_QueuesTakeTheirRecords_doorbell :
    (∀ tail ∈ [16, 17], let s := { State.reset with mem := [(8, 4#8)] }; let x := s.readQueue 0
      memWf s.mem = true ∧ s.requests = [] ∧ x.enabled = true ∧ (((tail + 2 ^ 32 - x.tail) % 2 ^ 32 + (x.tail + 2 ^ 32 - x.head) % 2 ^ 32 ≤ 2 ^ x.lg) ↔ tail = 16)) := by
  decide +kernel

/-- Records of no version, of a launch that passes, one that fails and one that meets a missing page, and of barriers and signals
that are good and bad. -/
def someRecords : List (List Byte) :=
  [launching [(0, 9)], launching [], launching [(8, 0)], launching [(35, 0x40)], bytes 128 [(0, 1), (1, 2)],
    bytes 128 [(0, 1), (1, 2), (2, 2)], bytes 128 [(0, 1), (1, 3), (8, 8), (2, 2)], bytes 128 [(0, 1), (1, 3), (2, 4)]]

theorem test_witness_QueuesTakeTheirRecords_takeable :
    ∀ raw ∈ someRecords, (queued raw).nextRecord 0 = some raw ∧ (queued raw).requests = [] ∧ memWf (queued raw).mem = true ∧ (queued raw).inService = true
      ∧ ((queued raw).queue 0).taken = [] := by
  decide +kernel

theorem test_witness_QueuesTakeTheirRecords_kinds :
    someRecords.map recordKind = [.other, .launch, .launch, .launch, .barrier, .barrier, .signal, .signal]
      ∧ barrierBad (bytes 128 [(0, 1), (1, 2)]) = false ∧ barrierBad (bytes 128 [(0, 1), (1, 2), (2, 2)]) = true
      ∧ signalBad (bytes 128 [(0, 1), (1, 3), (8, 8), (2, 2)]) = false ∧ signalBad (bytes 128 [(0, 1), (1, 3), (2, 4)]) = true := by
  decide +kernel

/-- The checks of a launch record in a queue. -/
def checked (raw : List Byte) : Check := checkLaunch (queued raw) 0 raw (launchOf raw)

theorem test_witness_QueuesTakeTheirRecords_accepted :
    (checked (launching [])).bad = [] ∧ (checked (launching [])).miss = [] ∧ (checked (launching [])).blocks.desc.isSome = true := by
  decide +kernel

theorem test_witness_QueuesTakeTheirRecords_refused : (checked (launching [(8, 0)])).bad ≠ [] := by decide +kernel

theorem test_witness_QueuesTakeTheirRecords_held :
    (checked (launching [(35, 0x40)])).bad = [] ∧ (checked (launching [(35, 0x40)])).miss = [.page 0 0x40000]
      ∧ (queued (launching [(35, 0x40)])).missFull 0 = false := by
  decide +kernel

/-- The entry of a walk. -/
def entryOf : XRes → Option TlbEnt
  | .ok e => some e
  | _ => none

theorem test_witness_QueuesTakeTheirRecords_signal :
    (entryOf (((queued (bytes 128 [(0, 1), (1, 3), (8, 8), (2, 2)])).takeRecord 0 3).walk 0 0)).map
      (fun e => (e.pte.testBit 2, e.pte.testBit 4)) = some (true, false) := by
  decide +kernel

/-- A gallery of two halls, the first placed and not started. -/
def half : Gallery :=
  { wordGallery State.reset 1 with
    launch := { wordLaunch with gx := 2, cls := 3 }, nextWing := 1, halls := [(0, ⟨0, some 1, false, false, [1]⟩)] }
/-- A record of the gallery of queue 0, sequence 0, in the task queue of context 0 on die 0. -/
def popping : State :=
  (st F).setDie 0 { (st F).die 0 with taskqs := [(0, ⟨[bytes 32 [(28, 31), (29, 128)]], 0, 1, 0, 0⟩)] }

theorem test_witness_GalleriesArePlacedRunAndComplete_placing :
    let s := { st { F with started := false } with galleries := [(1, half)], time := 2000000, nextId := 100 }
    mget s.galleries 1 = some half ∧ s.servedBefore 1 half = false ∧ (s.placement 1 half).isSome = true
      ∧ (∀ p ∈ s.flights, p.1 < s.nextId ∧ p.2.age < s.nextId) ∧ mget half.halls 0 = some ⟨0, some 1, false, false, [1]⟩
      ∧ mget s.flights 1 = some { F with started := false } ∧ 0 < half.launch.gx * half.launch.gy * half.launch.gz
      ∧ s.canBound 0 false = true ∧ (∀ q ∈ s.flights, ∀ p ∈ q.2.threads, p.2.awaiting = none)
      ∧ half.launch.cls = 3 ∧ half.aged = false ∧ half.unplaced = true ∧ half.acceptTime + 2000000 ≤ s.dieCyc 0 := by
  decide +kernel

theorem test_witness_GalleriesArePlacedRunAndComplete_popping :
    (popping.popReady 0 0 0).isSome = true ∧ popping.canBound 0 false = true ∧ popping.requests = []
      ∧ ∀ p ∈ popping.flights, p.1 < popping.nextId := by
  decide +kernel

/-- A flight without live threads, with a late fault or without. -/
theorem test_witness_GalleriesArePlacedRunAndComplete_retiring :
    ∀ late ∈ [[], [LateFault.mk 0 1 [] []]], let f := { withThread F { F.thread 0 with st := .exited } with clause := none, late := late }
      let s := st f
      mget s.flights 1 = some f ∧ msorted s.flights = true ∧ f.live = [] ∧ f.clause = none ∧ f.frozen = none ∧ f.debugFrozen = false
        ∧ f.sb = [] ∧ (∀ p ∈ f.flags, p.2 = 0) ∧ (∀ e ∈ f.entries, e.replay = false) ∧ f.started = true ∧ f.task = none
        ∧ mget s.galleries f.gallery = some (wordGallery State.reset 1)
        ∧ mget (wordGallery State.reset 1).halls f.hall = some ⟨0, some 1, true, false, [1]⟩
        ∧ s.canBound f.core true = true ∧ msorted s.co = true ∧ OwnPending s f.core ∧ allAcked f = true ∧ f.leaving = false
        ∧ allAcked (busy (ent .t .sts)) = false := by
  decide +kernel

/-- A gallery that ended, one whose writes are acknowledged and one whose halls have exited. -/
theorem test_witness_GalleriesArePlacedRunAndComplete_completing :
    let done := { wordGallery State.reset 1 with halls := [(0, ⟨0, some 1, true, true, []⟩)] }
    ∀ g ∈ [{ done with ended := some 7 }, { done with pubs := some [5] }, done], let s := { State.reset with galleries := [(1, g)] }
      mget s.galleries 1 = some g ∧ msorted s.galleries = true ∧ memWf s.mem = true ∧ s.inSession 1 = false ∧ mget s.fabricOut 5 = none
        ∧ g.coll = none ∧ s.allDone 1 g = true ∧ s.fabricUp = false ∧ (∀ q ∈ s.sessions, q.2.running = false) ∧ s.requests = []
        ∧ (let g1 := if g.ended = none ∧ g.completed = false then { g with completed := true } else g
          let s1 := if g.ended = none ∧ g.completed = false then (s.setGallery 1 g1).setDead g.context else s
          s1.recordedWell (s1.publishGallery g1).2 = true)
        ∧ (∀ c ∈ g.ran, OwnPending s c) := by
  decide +kernel

/-! ## Statements about preemption, misses and errors -/

/-- A context with a flight saved, or part of it. -/
def withSaved (s : State) (v : Saved) (deadline : Option Nat) : State :=
  { s with contexts := [(0, { State.reset.ctxt 0 with saved := some v, deadline := deadline })] }
/-- A saved store that awaits its acknowledgement, or has it. -/
def storing (acked : Bool) : Entry := { ent .t (.store [(0, 1#8)] []) with acked := acked }
/-- What is saved of one flight. -/
def savedOne (f : Flight) : Saved := { flights := [(1, f)], light := [], windows := [(1, ⟨1, 0, 0, 65536, [], [], false⟩)], planes := [], reported := true }

theorem test_witness_ContextsAreSavedAndResumed_saving :
    (let f := busy (ent .i (.load .b32 false [20] [(0, [[1], [1], [1]])])); let s := { st f with
        contexts := [(0, { State.reset.ctxt 0 with deadline := some 64 })], time := 64 }
      (s.ctxt 0).deadline = some 64 ∧ 64 ≤ s.time ∧ msorted s.flights = true ∧ memWf s.mem = true ∧ mget s.flights 1 = some f ∧ f.context = 0
        ∧ (∀ q ∈ s.flights, ∀ p ∈ q.2.threads, p.2.awaiting = none))
      ∧ (let f := { F with clause := none, pyield := true }; mget (st f).flights 1 = some f ∧ lightReady f = true ∧ f.entries = [] ∧ msorted (st f).flights = true)
      ∧ (let v := { savedOne (busy (storing true)) with reported := false }; let s := { withSaved (st F) v none with flights := [] }
        (s.ctxt 0).saved = some v ∧ v.reported = false ∧ (∀ p ∈ s.flights, p.2.context ≠ 0)
          ∧ (∀ p ∈ v.flights, ∀ e ∈ p.2.entries, (e.storeClass = true → e.acked = true) ∧ ∀ r ∈ atomRequests e, r.done = true)
          ∧ (storing true).storeClass = true ∧ (s.settleSaved v).isSome = true) := by
  decide +kernel

/-- What is outstanding at a save or a resumption may be recorded: nothing that a bank records, or an ATOM. -/
theorem test_witness_ContextsAreSavedAndResumed_room :
    RingRoom (st (busy (ent .i (.load .b32 false [20] [])))) ∧ RingRoom (st (busy (ent .t (.atom false .add32 .comm [20] [req false])))) :=
  ⟨.inl (by decide), .inr (recordRoom (by decide))⟩

/-- A flight with a load outstanding has neither an ATOMS nor a COPY.G2V that the matrix unit began. -/
theorem test_witness_ContextsAreSavedAndResumed_registers :
    ∀ e ∈ (busy (ent .i (.load .b32 false [20] [(0, [[1], [1], [1]])]))).entries,
      (∀ op use dests win rs, e.pay ≠ .atoms op use dests win rs) ∧ ∀ x, e.pay = .engine x → x.kind = .g2v → x.started = false := by
  intro e he
  rw [List.mem_singleton.mp he]
  exact ⟨fun _ _ _ _ _ => Payload.noConfusion, fun _ h => Payload.noConfusion h⟩

theorem test_witness_ContextsAreSavedAndResumed_acknowledging :
    let f := busy (storing false); let e := storing false
    f.entry? e.id = some e ∧ e.acked = false ∧ e.replay = false ∧ e.storeClass = true ∧ mget (st f).flights 1 = some f
      ∧ e.sent = [] ∧ atomRequests e = [] ∧ (st f).pending f.core e.id [(0, 1#8)] = false
      ∧ (let s := { withSaved (st f) (savedOne f) none with flights := [] }
        let s1 := s.settleWrite f.core e.id [(0, 1#8)]
        mget s.flights 1 = none ∧ s.savedIn 1 = some (0, s.ctxt 0, savedOne f, f) ∧ s1.pending f.core e.id [(0, 1#8)] = false
          ∧ s.recordedWell s1 = true) := by
  decide +kernel

theorem test_witness_ContextsAreSavedAndResumed_resuming :
    let v := savedOne (busy (storing true))
    ∀ cells ∈ [[(0, 1#8), (48, 0x80#8), (129, 1#8), (256, 1#8)], []],
      let s := holding cells { withSaved (st F) v none with flights := [], windows := [] }
      (s.resumable 0).map (·.1) = some v ∧ (s.ctxt 0).deadline = none ∧ msorted v.flights = true
        ∧ (s.areaGood 0 v = true ↔ cells ≠ [])
        ∧ ((s.resumable 0).bind fun p => (p.2.placeSaved v (s.ctxt 0).sys 383 (State.hallGroups v)).map fun t =>
            (List.range 384).all (fun k => t.canBound k false)) = some true := by
  decide +kernel

/-- A store and an atomic whose receipt holds the old value 7, to be issued again. -/
theorem test_witness_ContextsAreSavedAndResumed_resending :
    ∀ pay ∈ [Payload.store [(0, 1#8)] [], .atom false .add32 .comm [20] [req false], .sts],
      let e := { ent .t pay with replay := true, resent := true }; let f := { busy e with frozen := none }
      let s := { st f with nextId := 100 }
      let s := s.setDie 0 { s.die 0 with books := [(State.homeBank 0, [⟨0, 0, 7⟩])] }
      mget s.flights 1 = some f ∧ f.entries.find? (·.replay) = some e ∧ f.entry? e.id = some e ∧ e.cls = .t ∧ f.frozen = none
        ∧ (f.entries.map (·.id)).Nodup ∧ (∀ x ∈ f.entries, x.replay = true → x.id = e.id) ∧ (∀ q ∈ s.sessions, q.2.running = false)
        ∧ memWf s.mem = true ∧ msorted [(0, 1#8)] = true ∧ s.receiptsOf e.tag 0 = [⟨0, 0, 7⟩] ∧ (st f).receiptsOf e.tag 0 = []
        ∧ s.hallHeld f = true ∧ (∀ p ∈ f.threads, p.2.barred = false) ∧ s.requests = [] ∧ (s.core f.core).pend = [] ∧ e.id < s.nextId
        ∧ s.recordedWell (s.resend 1 f e) = true := by
  decide +kernel

/-- A flight, an engine operation, a binding load and a record, each parked behind a key. -/
theorem test_witness_MissesInvalidationsAndErrors_parked :
    (∀ m ∈ [⟨.page 0 0, []⟩, ⟨.page 0 0, [.flight 1 [1#8]]⟩, ⟨.page 0 0, [.engine 1 9]⟩, (⟨.page 0 0, [.queue 0 0]⟩ : MissEnt)],
        let s := (st F).setDie 0 { (st F).die 0 with miss := [m] }
        s.missOf 0 m.key = some m ∧ msorted s.colls = true ∧ s.recordedWell ((s.releaseKey m.key 0).freeColls m.key) = true)
      ∧ (let f := { F with frozen := some ⟨.translation, 1, [], none⟩ }; mget (st f).flights 1 = some f ∧ ∀ e ∈ f.entries, e.replay = false)
      ∧ (let x := ent .k (.engine (moving .g2s)); mget (st (busy x)).flights 1 = some (busy x) ∧ (busy x).entry? 9 = some x)
      ∧ (let s := { st F with colls := [(1, { coll0 with holds := [(0, true, .page 0 0), (0, false, .page 0 1)] })] }
        (∃ p ∈ s.colls, ∃ h ∈ p.2.holds, h.2.2 = .page 0 0) ∧ coll0.failed = none) := by
  decide +kernel

theorem test_witness_MissesInvalidationsAndErrors_slots :
    let e := ent .i (.bindLoad [20, 21] [] [(0, 0)])
    let m : MissEnt := ⟨.slot 0 0, [.bind 1 9 0]⟩
    let g := { wordGallery State.reset 1 with desc := { wordDesc with bindings := 0x100 }, nslot := 1 }
    let f := busy { e with addrs := [(0, 0x108)] }
    let s := holding (mapping []) { (st f).setDie 0 { (st f).die 0 with miss := [m] } with
      galleries := [(1, g)], contexts := [(0, { State.reset.ctxt 0 with root := 0x100000 })] }
    mget s.galleries 1 = some g ∧ slotAddr s g 0 = some 0x108 ∧ memWf s.mem = true ∧ s.missOf 0 (.slot 0 0) = some m
      ∧ (∀ d < 4, d ≠ 0 → s.missOf d (.slot 0 0) = none) ∧ (st F).missOf 0 (.slot 0 0) = none ∧ mget s.flights 1 = some f
      ∧ f.entry? 9 = some { e with addrs := [(0, 0x108)] } ∧ ((s.externalWrite 0x108 (leBytes 8 5)).locate f 0x108).pa = 0x108
      ∧ (s.core f.core).pend = [] ∧ s.requests = []
      ∧ (let s1 := s.externalWrite 0x108 (leBytes 8 5)
        s.recordedWell ((s1.diesWith (.slot 0 0)).foldl (fun s d => s.releaseKey (.slot 0 0) d) s1) = true) := by
  decide +kernel

theorem test_witness_MissesInvalidationsAndErrors_errors :
    mget [(3, Inval.mk 0 0 4096)] 3 = some (Inval.mk 0 0 4096)
      ∧ (let c := oneWord 0x9C548200; let f := { F with clause := some c }; mget (st f).flights 1 = some f ∧ c.body = none ∧ f.frozen = none
        ∧ (match decodeWord c.word with | .ok i => (dataRead f c i).isSome | .error _ => false) = true)
      ∧ msorted (st F).flights = true := by
  decide +kernel

/-! ## Statements about collectives and agents outside the cores -/

/-- A collective with a chunk to read, and with one to write. -/
def reading : Coll := { coll0 with fired := [(0, 0, 0)] }
/-- Its segments at hand. -/
def combining : Coll :=
  { reading with read := [(0, 1)], data := [(0, 0, 0, List.replicate 64 1#8), (1, 0, 0, List.replicate 64 2#8)] }
/-- The module with one collective of context 0, on tables or on none. -/
def gathering (c : Coll) (cells : List Host.Cell) : State :=
  { State.reset with mem := cells, contexts := [(0, { State.reset.ctxt 0 with root := 0x100000 })], colls := [(1, c)] }
/-- Tables whose one page is for the system alone. -/
def sysMapping : List Host.Cell := (mapping []).map (fun p => if p.1 = 0x102000 then (p.1, 0x3F#8) else p)
/-- The pages of a block. -/
def pagesOf : Pages → Option (NMap Nat)
  | .ok m => some m
  | _ => none

theorem test_witness_CollectivesGoOnAndFail_reading :
    (∀ cells ∈ [mapping [], sysMapping, []], (gathering reading cells).nextColl 0 = some (1, reading, [.read 0])
        ∧ (gathering reading cells).Canonical ∧ (gathering reading cells).requests = [] ∧ msorted (gathering reading cells).colls = true)
      ∧ reading.failed = none
      ∧ (pagesOf (findBlock (gathering reading (mapping [])) 0 Want.load false [] 0 64)).isSome = true
      ∧ findBlock (gathering reading sysMapping) 0 Want.load false [] 0 64 = .bad
      ∧ findBlock (gathering reading []) 0 Want.load false [] 0 64 = .miss (.page 0 0) := by
  unfold State.Canonical
  decide +kernel

theorem test_witness_CollectivesGoOnAndFail_writing :
    let s := gathering combining (mapping [])
    s.nextColl 0 = some (1, combining, [.write 0 0 0]) ∧ s.requests = [] ∧ s.Canonical ∧ s.co = [] ∧ s.sessions = [] ∧ combining.result 0 0 0 = some (List.replicate 64 3#8)
      ∧ (pagesOf (findBlock s 0 Want.store false [] 0 64)).isSome = true ∧ combining.ckind ≤ 2 ∧ combining.cop < 3 ∧ combining.ctype < 3
      ∧ (List.range combining.count).map (fun q => combining.segData q 0 0) =
          (List.replicate 64 1#8 :: [List.replicate 64 2#8]).map some := by
  unfold State.Canonical
  decide +kernel

theorem test_witness_CollectivesGoOnAndFail_others :
    (let c := { reading with ccls := 3 }; let s := { gathering c [] with time := 2000000 }
      mget s.colls 1 = some c ∧ c.ccls = 3 ∧ c.fired = [(0, 0, 0)] ∧ c.ended = false
        ∧ mgetD c.aged 0 false = false ∧ mgetD c.waitFrom 0 0 + 2000000 ≤ s.dieCyc 0)
      ∧ msorted (gathering reading []).colls = true ∧ (gathering reading []).collAt 0 0 = some (1, reading)
      ∧ (gathering { reading with failed := some 5 } []).collAt 0 0 = some (1, { reading with failed := some 5 })
      ∧ State.reset.collAt 0 0 = none := by
  decide +kernel

/-- The firmware runs, and has agreed on version 1. -/
def serving (s : State) : State := { s with boot := { s.boot with stage := .running, agreed := some 1 } }

/-- A window of a queue pair or a host over the first GiB. -/
def window0 : MemWin := ⟨0, 0x40000000, true, true⟩
/-- A module whose port 0 trained, whose queue pair 0 and host window 0 reach context 0, and whose route table is set. -/
def joined : State :=
  { gathering coll0 (mapping []) with
    qpairs := [(0, ⟨0, [window0]⟩)], hostWins := [(0, (0, window0))], ports := [(0, ⟨true, false, 0, 0, 0, false⟩)]
    boot := { State.reset.boot with pcieEndpoint := true }, tables := ⟨0, 0, 0x200000⟩, fabricOut := [(3, ⟨0, []⟩)]
    clusters := [(0, { State.reset.cluster 0 with leases := [⟨5, 0, true⟩] })]
    wire := [(7, ⟨1, 0, 0, .failure 0 0 5⟩)] }

theorem test_witness_AgentsOutsideWriteReadAndJoin :
    joined.Canonical ∧ State.inMap 0 8 = true ∧ mget joined.fabricOut 3 = some ⟨0, []⟩ ∧ mget joined.qpairs 0 = some ⟨0, [window0]⟩
      ∧ mget joined.qpairs 1 = none ∧ joined.boot.pcieEndpoint = true ∧ mget joined.hostWins 0 = some (0, window0)
      ∧ mget joined.hostWins 1 = none ∧ (window0.base ≤ 0 ∧ 0 + 8 ≤ window0.base + window0.len ∧ window0.read = true ∧ window0.write = true)
      ∧ ¬(0x3FFFFFFC + 8 ≤ window0.base + window0.len)
      ∧ (pagesOf (findBlock joined 0 Want.store false [] 0 8)).isSome = true ∧ (pagesOf (findBlock joined 0 Want.load false [] 0 8)).isSome = true
      ∧ (joined.port 17).trained = false ∧ (joined.port 0).trained = true ∧ (joined.port 0).up = false ∧ joined.tables.routes ≠ 0
      ∧ joined.requests = [] ∧ msorted joined.wire = true ∧ (∃ q ∈ joined.wire, q.2.port = 0)
      ∧ (∀ m ∈ pagesOf (findBlock joined 0 Want.store false [] 0 8), ∀ p ∈ m, hidden joined p.2 4096 = false)
      ∧ (serving joined).boot.stage = .running ∧ joined.recordedWell (joined.performWhere .recall (fun _ => false)) = true
      ∧ ∃ l ∈ (joined.cluster 0).leases, l.line = 5 ∧ l.recalled = true := by
  unfold State.Canonical
  decide +kernel

theorem test_witness_AgentsOutsideWriteReadAndJoin_pages :
    (serving joined).boot.stage = .running ∧ (∀ page : Nat, page ≤ page ∧ page + 4096 ≤ page + 4096)
      ∧ (Config.identityPage + 4096 ≤ Config.doorbellPage ∨ Config.doorbellPage + 4096 ≤ Config.identityPage) := by
  refine ⟨by decide, fun _ => ⟨Nat.le_refl _, Nat.le_refl _⟩, ?_⟩
  simp only [Config.identityPage, Config.doorbellPage]
  omega

/-! ## Statements about the firmware, tracing and debugging -/

/-- Without an image boot halts; that one verifies rests on the free values, and where the first does, boot goes on with it. -/
theorem test_witness_BootMeasuresAndServicesAnswer :
    State.reset.boot.stage = .off ∧ State.reset.boot.flash = []
      ∧ (∀ image backup, let s := { State.reset with boot := { State.reset.boot with flash := [image, backup] } }
        s.boot.verifies image = true →
          s.boot.flash = ([(image, backup)].map (fun p => [p.1, p.2])).flatten
          ∧ [(image, backup)].map (fun p => if s.boot.verifies p.1 then some (imageDigest p.1)
              else if s.boot.verifies p.2 then some (imageDigest p.2) else none) = [imageDigest image].map some)
      ∧ (serving State.reset).boot.stage = .running ∧ (serving State.reset).boot.numbered = false
      ∧ (serving State.reset).boot.agreed = some 1 ∧ (serving State.reset).boot.agreed ≠ some 2
      ∧ (47 < 48 ∧ 3 < 4 ∧ 47 / 12 = 3) :=
  ⟨by decide, by decide, fun image backup h => ⟨by simp, by simp [h]⟩, by decide, by decide, by decide, by decide, by decide⟩

/-- A trace block that keeps the table of R326, and a session block that keeps that of R312. -/
def blocks : List Host.Cell := [(0x1008, 28#8), (0x1009, 15#8), (0x2000, 1#8), (0x2001, 8#8), (0x2002, 63#8), (0x2010, 0xFF#8), (0x2011, 1#8)]

theorem test_witness_TraceCoresAndSessionsRun_blocks :
    let s := serving { State.reset with mem := blocks }
    s.boot.stage = .running ∧ s.boot.agreed = some 1 ∧ State.inMap 0x1000 64 = true ∧ State.inMap 0x2000 128 = true ∧ 0x2000 % 128 = 0
      ∧ (let b := s.readLatest 0x1000 64; let fld := fun (a n : Nat) => leNat ((b.drop a).take n)
        fld 0 8 % 4096 = 0 ∧ 8 ≤ fld 8 1 ∧ fld 8 1 ≤ 28 ∧ fld 9 1 < 16 ∧ fld 10 2 < 4096 ∧ fld 12 4 = 0 ∧ fld 16 8 = 0 ∧ fld 26 6 = 0
          ∧ (∀ k < 8, fld (32 + k) 1 < 16) ∧ fld 40 24 = 0 ∧ State.inMap (fld 0 8) (16 * 2 ^ fld 8 1) = true ∧ (s.die 3).trace.queue = [])
      ∧ (let b := s.readLatest 0x2000 128; let fld := fun (a n : Nat) => leNat ((b.drop a).take n)
        fld 0 1 = 1 ∧ fld 1 1 = 8 ∧ fld 2 1 = 63 ∧ fld 3 1 < 2 ∧ fld 4 4 = 0 ∧ fld 8 8 % 4096 = 0 ∧ fld 16 4 = 511 ∧ fld 20 4 = 0
          ∧ fld 24 8 % 64 = 0 ∧ (∀ i < 32, fld (32 + i) 1 ≤ 63) ∧ fld 64 64 = 0 ∧ mget s.sessions 63 = none) := by
  decide +kernel

/-- Records to sieve: kept with room, kept without room, after others were lost with and without room for them, after a gap, past the
sieve and dropped; and a lost record, with room and without. -/
theorem test_witness_TraceCoresAndSessionsRun_sieving :
    (∀ p ∈ [(0, 0, false, 0xD001, false, 0), (256, 0, false, 0xD001, false, 0), (0, 5, false, 0xD001, false, 0), (254, 5, false, 0xD001, false, 0),
        (0, 0, true, 0xD001, false, 0), (0, 0, false, 0xD000, true, 0), (0, 0, false, 0xD000, false, 0), (0, 0, false, 0xD000, false, 4),
        (255, 3, false, 0xD000, false, 4)],
      let r : TraceRec := ⟨9, 0, 0, 0, 0, p.2.2.2.2.2, 0, 0, 0, p.2.2.2.2.1⟩
      let k := { State.reset.die 0 with trace := { (State.reset.die 0).trace with
        queue := [r], windex := p.1, lost := p.2.1, gap := p.2.2.1, lg := 8, last := some 8, sieve := [p.2.2.2.1] } }
      let s := { State.reset.setDie 0 k with time := 10 }
      let run := sieveRun k.trace.sieve 0 ⟨[0x10, 0, 0, 0, 0, 0, k.trace.w6, k.trace.w7], k.trace.counters, []⟩
      (s.die 0).trace.queue = [r] ∧ r.stamp < s.time ∧ s.Canonical ∧ s.requests = [] ∧ k.trace.armed = false ∧ 2 ≤ k.trace.lg
        ∧ run.1.fired = [] ∧ (run.2 = true ↔ p.2.2.2.1 = 0xD001)) ∧ (∀ v, (sieveRun [0xD000] 0 v).2 = false) := by
  unfold State.Canonical
  exact ⟨by decide +kernel, fun v => rfl⟩

/-- A session of two passes on the small gallery: before its first pass, between the passes, and at the end of each. -/
def session (pass : Nat) (running : Bool) : Session :=
  { block := 0x2000, passes := 2, queue := 0, sig := true, wsarea := 0x10000, wsmax := 2, results := 0x20000, evsel := List.replicate 32 0
    gallery := some 1, pass := pass, running := running, cores := [0], shared := [], granules := [0x30000], ids := [], overflow := false, writtenBack := 0
    firstSigs := [], sigs := [], pins := [(0, 0)], status := 0 }
/-- The module with it. -/
def sessioned (z : Session) : State :=
  { State.reset with
    sessions := [(0, z)]
    galleries := [(1, { wordGallery State.reset 1 with session := true, halls := [(0, ⟨0, some 1, true, true, []⟩)] })] }

theorem test_witness_TraceCoresAndSessionsRun_sessions :
    (∀ pass ∈ [0, 1], let z := session pass false; let s := sessioned z
      s.sessionOf (fun z => !z.running && z.gallery.isSome) = some (0, z) ∧ (mget s.galleries 1).isSome = true ∧ memWf s.mem = true
        ∧ s.requests = [] ∧ s.ownerOf 0 = some (0, z) ∧ z.cores.Nodup ∧ s.sessionOf (fun z => z.block == 0x2000) = some (0, z) ∧ (∀ q ∈ s.sessions, q.2.block ≠ 0x3000)
        ∧ (∀ g ∈ mget s.galleries 1, pass = 0 ∨ s.pinsFree 1 (g.again z (s.dieCyc 0)) = true)
        ∧ (∀ x ∈ z.granules, x % 4096 = 0 ∧ ∀ j < z.granules.length, x ≠ z.wsarea + 4096 * (j + 1)) ∧ z.wsarea % 4096 = 0 ∧ z.granules.Nodup)
      ∧ (∀ pass ∈ [1, 2], let z := session pass true; let s := sessioned z
        s.sessionOf (fun z => z.running && (match z.gallery.bind (fun g => (mget s.galleries g).map (fun x => (g, x))) with
          | some (i, x) => x.ended.isSome || s.allDone i x
          | none => false)) = some (0, z)
        ∧ ((z.pass = z.passes ∨ z.overflow = true ∨ ∃ g ∈ mget s.galleries 1, s.statusOf g ≠ 0) ↔ pass = 2) ∧ mismatches z = []) := by
  decide +kernel

/-- A flight that a debugger holds, with v20 mapped and v21 not. -/
def held : Flight := withReg { F with debugFrozen := true } 20 5

theorem test_witness_DebuggersCountersAndTheClock :
    (let s := serving (st held);
      s.boot.stage = .running ∧ s.boot.agreed = some 1 ∧ mget s.flights 1 = some held ∧ held.context = 0 ∧ held.debugFrozen = true
        ∧ (mget held.threads 0).isSome = true ∧ msorted held.regs = true ∧ held.level ≠ 3 ∧ (mget held.regs 20).isSome = true
        ∧ held.footprint ≤ held.peak ∧ mget held.regs 511 = none ∧ held.footprint < held.peak ∧ s.canMap 1 held (held.footprint + 1) = true
        ∧ ({ held with peak := 1 }).peak < held.footprint + 1 ∧ byteState 5 = some .exited ∧ byteState 7 = none ∧ 480 % 16 = 0
        ∧ (0x10F, { held.ctl with ordscope := 4 }) ∈ writtenControl held.narrow held.ctl ((4 : BitVec 64).setWidth 32)
        ∧ (∀ q ∈ s.sessions, 383 ∉ q.2.cores) ∧ (∀ p ∈ s.flights, ∀ t ∈ p.2.threads, t.2.barred = false))
      ∧ (mget (st F).flights 1 = some F ∧ F.debugFrozen = false ∧ F.frozen = none ∧ F.context ≠ 1)
      ∧ (∃ q ∈ (sessioned (session 0 false)).sessions, 0 ∈ q.2.cores ∧ 0 ∉ q.2.shared)
      ∧ (let m : Monitor := { setup := ⟨6, 0, 0, 1⟩, count := 0, min := 0, max := 0, sum := 0, bins := [] }
        let s := { State.reset.setCore 383 { State.reset.core 383 with monitors := [(3, m)] } with time := 64 }
        mget (s.core 383).monitors 3 = some m ∧ 64 * ((s.core 383).samples + 1) ≤ s.cycAt 383 ∧ m.setup.filter.getLsbD 0 = true)
      ∧ (let v := savedOne held; ((withSaved (st F) v none).ctxt 0).saved = some v)
      ∧ (∀ p ∈ (st F).flights, (∀ e ∈ p.2.entries, e.replay = false) ∧ ∀ t ∈ p.2.threads, t.2.barred = false ∧ t.2.awaiting = none)
      ∧ (State.reset.cluster 47).mhz = 1000 ∧ (State.reset.cluster 47).since ≤ State.reset.time := by
  decide +kernel

/-- A saved flight that a debugger holds, and a core whose counters run. -/
theorem test_witness_DebuggersCountersAndTheClock_more :
    (let v := savedOne held; let s := { withSaved (st F) v none with flights := [] }
      mget s.flights 1 = none ∧ s.savedIn 1 = some (0, s.ctxt 0, v, held) ∧ (s.ctxt 0).saved = some v ∧ held.debugFrozen = true)
      ∧ (let s := (st F).setCore 0 { (st F).core 0 with cntCtl := 1 }
        (s.core 0).cntCtl.getLsbD 0 = true
          ∧ ∀ p ∈ s.flights, (∀ e ∈ p.2.entries, e.replay = false) ∧ ∀ t ∈ p.2.threads, t.2.barred = false ∧ t.2.awaiting = none) := by
  decide +kernel

/-! ## Statements about decoding, steps and the whole module -/

theorem test_witness_EveryOperationDecodesFromItsWord :
    (Instr.iadd true 127 0 64 true false).wf = true ∧ (encode (.iadd true 127 0 64 true false)).isSome = true
      ∧ (decodeWord 0x78000000).toOption = some .solo ∧ encode .arithmeticClockCycle = none := by decide

theorem test_witness_AStepRunsTheDecodedOperation :
    (let f := { F with clause := some (oneWord 0x78000000), stall := some .clear }; let s := { st f with cur := none }
      ({ s with agenda := [.issue 1] }.agenda = [.issue 1] ∧ s.agenda = [] ∧ msorted s.flights = true ∧ mget s.flights 1 = some f
        ∧ s.chosen 1 f = true ∧ (∀ p ∈ s.flights, p.2.fairDue = none) ∧ (∀ p ∈ s.flights, s.ready p.2 = true → p.2.stall ≠ none)
        ∧ s.flights.find? (fun p => s.chosen p.1 p.2) = some (1, f))
      ∧ (decodeWord (oneWord 0x78000000).word).toOption = some .solo)
      ∧ (coded 0 0x1FFE0 0x78000000).chosen 1 (between 0) = true ∧ (between 0).clause = none ∧ deliverable (between 0) = false
      ∧ { State.reset with agenda := [.event .arithmeticClockCycle] }.agenda = [.event .arithmeticClockCycle]
      ∧ Instr.isStep .arithmeticClockCycle = true ∧ Instr.wf .arithmeticClockCycle = true
      ∧ Instr.isStep .solo = false ∧ Instr.wf (.launchRecord 64) = false
      ∧ 0xFFFFFFFF < 2 ^ 32 := by decide +kernel

/-- What is noted after a step: of a flight that issued, of one that the attempt left held, and of one whose fetch slipped; and a cycle of
the clock that waits for a sample. -/
theorem test_witness_AStepRunsTheDecodedOperation_noting :
    (∀ g ∈ [F, { F with stall := some .clear }, { F with stall := some .memory }, { F with slip := true }],
      mget (st g).flights 1 = some g ∧ (st g).undone = 0)
      ∧ (let m : Monitor := { setup := ⟨6, 0, 0, 1⟩, count := 0, min := 0, max := 0, sum := 0, bins := [] }
        let s := { State.reset.setCore 383 { State.reset.core 383 with monitors := [(3, m)] } with
          time := 64, agenda := [.event .arithmeticClockCycle] }
        (s.cores.find? (fun p => s.sampleDue p.1)).map (·.1) = some 383 ∧ ∀ p ∈ s.flights, s.ready p.2 = true → p.2.stall ≠ none) := by
  decide +kernel

/-- SOLO placed after reset is run by the very next step. -/
theorem test_witness_MemoryStaysCanonical :
    State.reset.Canonical ∧ (State.reset.withFetchWord 32 0x78000000).Canonical
      ∧ (match step (State.reset.withFetchWord 32 0x78000000) with
        | .next t => (mget t.flights 1).map (fun f => (f.thread 0).solo)
        | _ => none) = some true := by
  unfold State.Canonical
  decide +kernel

/-! ## Ill-formed operations that WellFormed refuses -/

/-- Each check of the operands of an operation: pairs and blocks, predicates, types, sizes, uses and numbers. -/
theorem test_ill_formed_operations :
    ([.iadd64 false 21 22 24 false false, .isub64 false 20 23 24 false false, .dadd false 20 22 25 false false, .dsub false 21 22 24 false false,
      .dmul false 20 23 24 false false, .dfma false 20 22 25 false false, .ddiv false 21 22 24 false false, .dmin false 20 23 24 false false,
      .dmax false 20 22 25 false false, .imulw false 21 22 23 false false, .shl64 false 20 23 24 false false, .dsqrt false 21 22 false,
      .lea false 20 23 24 0 false false, .sel false 20 21 22 12, .icmp false .set 12 20 21 .eq, .fcmp false .set 15 20 21 .eq,
      .dcmp false .set 12 20 22 .eq, .dcmp false .set 0 21 22 .eq, .dcmp false .set 0 20 23 .eq, .pand 12 0 0, .por 0 12 0, .pxor 0 0 12,
      .pnot 12 0, .pnot 0 12, .voteAny 12 0, .voteAll 0 12, .voteBallot 20 12, .voteCount 20 15, .cvt false 21 22 6 false,
      .cvt false 20 23 8 false, .digits 20 23 .f64 false, .chkd 23 .f64 0 false, .mean 21 22 .f64 false, .sib 20 21 .f32 3 false,
      .sib 21 22 .f64 0 false, .bra 12 false 0, .call 15 true 0, .brx 21, .tjoin 21, .ipf 21, .mld 21, .mst 21, .win 31] : List Instr).all
      (fun i => !i.wf) = true := by decide

/-- The same of memory, engines, the system and the bounds of the steps. -/
theorem test_ill_formed_memory_and_steps :
    ([.ld false 20 17 .b32 .plain 0, .ld false 22 16 .b128 .plain 0, .st false 21 16 .b64 .plain 0, .st false 20 16 .s8 .plain 0,
      .lds false 21 16 .b64 0, .ldc false 22 16 .b128 0, .sts false 20 16 .s16 0, .sts false 21 16 .b64 0, .atom .add32 .unp 20 17 0,
      .atom .add64 .unp 21 16 0, .atom .cas32 .comm 20 16 0, .atom .add32 .spec 21 16 0, .atoms .cas64 .unp 22 16 0, .atoms .exch32 .quant 20 16 0,
      .post .exch32 .unp 20 16 0, .post .add32 .spec 20 16 0, .post .cas64 .nord 20 16 0, .waitge 0 17 20, .copyG2s 20 21 22, .copyG2s 20 22 23,
      .copyS2g 21 20 22, .copyS2g 20 20 23, .copyG2v 20 21 22, .copyS2s 20 21 23, .gath 20 21 22, .gath 20 22 23, .mma .v .f32 33 48 0 false,
      .mma .s .f32 33 48 0 false, .mma .v .f32 32 49 0 false, .mma .v .f32 32 48 1 false, .mma .v .f16 32 48 0 true, .mmag .v .bx8 32 50 0 false,
      .spawn 20 0, .srd 20 0x29, .srd 20 0xFF, .srd 20 0x110, .swr 20 0x28, .swr 20 0x110, .time 21, .leaseRecall 48 0, .matrixUnitOperation 384 0,
      .throttleWindowEnd 0 4, .taskPop 0 0 4, .doorbell 64 .control 16 0 0, .launchRecord 64, .barrierRecord 64, .signalRecord 64,
      .contextResume 0 384, .translationKeyResolved 4 (.page 0 0), .translationKeyDeclined 4 (.page 0 0), .correctableError 4 0 none,
      .collectiveSegment 4, .linkTrained 18, .bringupFrame 18 0 0 0 0, .linkFailure 18, .measurementExtend 1 1 0, .measurementExtend 1 8 0,
      .traceBlockLoad 1 4 0, .traceStatusRead 1 4, .sieveCountersRead 1 4 false, .sieveRun 4, .breakpointSet 1 0 4 0 0,
      .counterProgram 1 384 true ⟨none, none, []⟩, .monitorProgram 1 0 4 none, .stallHistogramRead 1 384, .monitorSample 384] : List Instr).all
      (fun i => !i.wf) = true := by decide

/-- What a level-3 and a lane kernel may not run (R5, R35). -/
theorem test_illegal_at_a_level_or_in_lanes :
    ([.win 0, .gath 20 22 24, .mmag .v .f32 32 48 0 false, .spawn 24 0, .tjoin 20, .tend, .cfire, .cfireIdx 20, .mcall 0 0 0 0,
      .atom .add32 .comm 20 16 0, .atoms .add32 .nord 20 16 0, .post .add32 .quant 20 16 0, .qbx .bx8 .h16 20 21 22,
      .mma .v .bx8h16 32 48 0 false] : List Instr).all (fun i => i.wf && !(i.legalIn 3 false) && i.legalIn 4 true) = true
      ∧ ([.solo, .trio] : List Instr).all (fun i => !(i.legalIn 4 true) && i.legalIn 4 false) = true := by decide

/-! ## Words of the spec's encodings

Put together bit by bit from the formats and tables of spec/01_words.md (R16 to R36), for every operation. -/

/-- Each word decodes to the operation beside it. -/
def decodes (ps : List (Nat × Instr)) : Bool := ps.all (fun p => decide ((decodeWord p.1).toOption = some p.2))

/-- Words that are no operation: majors 0 and 0x39, a minor, a condition, a size and a `use` outside their tables, and a field that
must be zero (R21, R22, R27, R30, R31, R32). -/
theorem test_decode_refuses :
    [0x00000000, 0xE4000000, 0xFFFFFFFF, 0x3000F000, 0x2850A968, 0x2400A15A, 0x9C508700, 0xB02A0000, 0xBC000020, 0x78000001, 0x80000000 + 2 ^ 25,
      0x600000D0].all (fun w => (decodeWord w).toOption.isNone) = true := by decide +kernel

/-- Integer operations (R16, R21, R22, R23). -/
theorem test_decode_integer_1 :
    decodes [(0x0654B881, .iadd true 21 23 8 false true), (0x0458F0D4, .isub false 22 30 13 false false),
      (0x065D292A, .imin true 23 37 18 true false), (0x0461617D, .imax false 24 44 23 false true),
      (0x0A6599C0, .imul true 25 51 28 false false), (0x0869D216, .imulh false 26 58 33 true false),
      (0x0A6E0A69, .imulhu true 27 65 38 false true), (0x087242BC, .imad false 28 72 43 false false),
      (0x0E767B02, .iaddmin true 29 79 48 true false), (0x0C7AB355, .iaddmax false 30 86 53 false true),
      (0x0E7EEBA8, .iabsd true 31 93 58 false false), (0x0C8323FE, .iminu false 32 100 63 true false),
      (0x12875C41, .andR true 33 107 68 false true), (0x108B9494, .orR false 34 114 73 false false),
      (0x128CACEA, .xorR true 35 21 78 true false), (0x1090E53D, .andn false 36 28 83 false true),
      (0x16951D80, .shl true 37 35 88 false false), (0x149955D6, .shr false 38 42 93 true false),
      (0x169D8E29, .sar true 39 49 98 false true), (0x14A1C67C, .rol false 40 56 103 false false),
      (0x1AA5FECE, .bfx true 41 63 108 true false), (0x1CAA303D, .bfi false 42 70 3 false true),
      (0x1AAE6800, .popc true 43 77 false), (0x18B2A006, .clz false 44 84 true)] = true := by decide +kernel

/-- Integer operations (R16, R21, R22, R23). -/
theorem test_decode_integer_2 :
    decodes [(0x1AB6D808, .brev true 45 91 false), (0x1CBB1002, .mov false 46 98 true)] = true := by decide +kernel

/-- Predicates and compares (R23, R27). -/
theorem test_decode_moves :
    decodes [(0x1D340004, .movp 77), (0x1C03180A, .pmov 99 true), (0x2250A96B, .sel true 20 21 22 11),
      (0x26AFF819, .icmp true .or 11 127 1 .hs), (0x2454A966, .icmp false .and 5 21 22 .lo),
      (0x284CA967, .fcmp false .and 3 21 22 .uno), (0x2E10A165, .dcmp true .set 4 20 22 .ge), (0x302C0050, .pand 11 0 5),
      (0x30041034, .por 1 2 3), (0x301C4098, .pxor 7 8 9), (0x3028300C, .pnot 10 6)] = true := by decide +kernel

/-- Wide, immediate and moving operations (R23, R28). -/
theorem test_decode_wide :
    decodes [(0x3450B190, .lea false 20 22 25 0 false false), (0x3650B194, .lea true 20 22 25 1 false false),
      (0x3450B19A, .lea false 20 22 25 2 true false), (0x3650B19E, .lea true 20 22 25 3 true false),
      (0x3A50B181, .iadd64 true 20 22 24 false true), (0x3A50B185, .isub64 true 20 22 24 false true),
      (0x3850B99B, .imulw false 20 23 25 true true), (0x3850B19E, .shl64 false 20 22 25 true false),
      (0x3E50AC03, .iaddi true 20 21 0x201 true), (0x4250AC03, .andi true 20 21 0x201 true),
      (0x4650AC03, .ori true 20 21 0x201 true), (0x4A50AC03, .xori true 20 21 0x201 true),
      (0x4C50A820, .shli false 20 21 16 false), (0x4C50AA22, .shri false 20 21 17 false),
      (0x4C50AC24, .sari false 20 21 18 false), (0x4C50AE26, .roli false 20 21 19 false), (0x5252ABCD, .movi true 20 0x2ABCD),
      (0x54543ABC, .movh false 21 0x3ABC)] = true := by decide +kernel

/-- Floating point (R23, R24, R25). -/
theorem test_decode_floating_1 :
    decodes [(0x5ABF49C2, .fadd true 47 105 28 true false), (0x58C38215, .fsub false 48 112 33 false true),
      (0x5AC49A68, .fmul true 49 19 38 false false), (0x58C8D2BE, .fmin false 50 26 43 true false),
      (0x5ECD0B01, .fmax true 51 33 48 false true), (0x5CD14354, .ffma false 52 40 53 false false),
      (0x5ED57BAA, .ffms true 53 47 58 true false), (0x5CD9B3FD, .fdiv false 54 54 63 false true),
      (0x6EDDEC40, .hadd2 true 55 61 68 false false), (0x6CE22496, .hmul2 false 56 68 73 true false),
      (0x6EE65CE9, .hfma2 true 57 75 78 false true), (0x6CEA953C, .bfma2 false 58 82 83 false false),
      (0x6453F402, .dadd false 20 126 64 true false), (0x6453F406, .dsub false 20 126 64 true false),
      (0x6453F40A, .dmul false 20 126 64 true false), (0x6453F40E, .dfma false 20 126 64 true false),
      (0x6853F402, .ddiv false 20 126 64 true false), (0x6853F40A, .dmin false 20 126 64 true false),
      (0x6853F40E, .dmax false 20 126 64 true false), (0x6250B002, .fsqrt true 20 22 true),
      (0x6250B012, .frcp true 20 22 true), (0x6250B022, .frsq true 20 22 true), (0x6250B032, .fexp2 true 20 22 true),
      (0x6250B042, .flog2 true 20 22 true)] = true := by decide +kernel

/-- Floating point (R23, R24, R25). -/
theorem test_decode_floating_2 :
    decodes [(0x6250B052, .fsin true 20 22 true), (0x6250B062, .fcos true 20 22 true), (0x6250B072, .fabs true 20 22 true),
      (0x6250B082, .fneg true 20 22 true), (0x6250B092, .ffloor true 20 22 true), (0x6250B0A2, .fceil true 20 22 true),
      (0x6250B0B2, .ftrunc true 20 22 true), (0x6250B0C2, .frint true 20 22 true), (0x6A50B006, .dsqrt true 20 22 true),
      (0x7250B1F2, .cvt true 20 22 31 true)] = true := by decide +kernel

/-- Siblings and blocks (R26, R32, R33). -/
theorem test_decode_siblings :
    decodes [(0x7454B202, .digits 21 22 .f64 true), (0x7454BE08, .mean 21 23 .bf16 false), (0x7454BC26, .sib 21 23 .f16 2 true),
      (0x7400B9FC, .chkd 23 .f32 31 false), (0x78000000, .solo), (0x78200000, .trio), (0x7D450A96, .qbx .bx4 .h32 20 21 22),
      (0x7E85CA16, .dqbx .bx6 23 20 22)] = true := by decide +kernel

/-- Operations across the flight (R23). -/
theorem test_decode_lanes :
    decodes [(0x8050A962, .shflIdx 20 21 22 true false), (0x8050A966, .shflUp 20 21 22 true false),
      (0x8050A96A, .shflDn 20 21 22 true false), (0x8050A96E, .shflXor 20 21 22 true false), (0x842C1800, .voteAny 11 3),
      (0x842C1804, .voteAll 11 3), (0x858C1808, .voteBallot 99 3), (0x858C180C, .voteCount 99 3),
      (0x8850A802, .xadd 20 21 true), (0x8850A806, .xmin 20 21 true), (0x8850A80A, .xmax 20 21 true),
      (0x8850A80E, .xscan 20 21 true)] = true := by decide +kernel

/-- Transfers (R29, R32). -/
theorem test_decode_control :
    decodes [(0x8EFFFFFF, .bra 11 true 0x1FFFFF), (0x92FFFFFF, .call 11 true 0x1FFFFF), (0x94000B00, .brx 22), (0x94200000, .ret),
      (0x98000000, .exit), (0x98200000, .yield), (0x9840007F, .nap 127), (0x9860001E, .win 30)] = true := by decide +kernel

/-- Synchronisation and the system (R32, R36). -/
theorem test_decode_system :
    decodes [(0xBC200000, .bar), (0xE0E00000, .pyield), (0xBC00001F, .phase 31), (0xBC400980, .arrive 19), (0xBC600994, .await 19 20),
      (0xBC87C915, .waitge 31 18 21), (0xDFF2857E, .mcall 63 20 21 62), (0xE0050028, .srd 20 0x28),
      (0xE005410F, .srd 21 0x10F), (0xE0250100, .swr 20 0x100), (0xE040007F, .trap 127), (0xE0600001, .bkpt 1),
      (0xE0800AFF, .trc 21 127), (0xE0A58000, .time 22), (0xE0C5C000, .preq 23), (0xE1000C00, .ipf 24)] = true := by decide +kernel

/-- Engines and tasks (R32, R33, R34). -/
theorem test_decode_engines_1 :
    decodes [(0xD0000000, .mzero), (0xD0600000, .mfree), (0xD4400000, .tend), (0xD8000000, .cfire), (0xC004CA16, .copyG2s 19 20 22),
      (0xC0250996, .copyS2g 20 19 22), (0xC0460A16, .copyG2v 24 20 22), (0xC064CA96, .copyS2s 19 21 22),
      (0xC404CA16, .gath 19 20 22), (0xC8081851, .mma .v .bx8 32 48 20 true), (0xCC281854, .mmag .v .bx8h16 32 48 21 false),
      (0xCA481858, .mma .s .bx8h32 32 48 22 false), (0xCE68185D, .mmag .s .bx6 32 48 23 true),
      (0xC8881860, .mma .v .bx6h16 32 48 24 false), (0xCCA81864, .mmag .v .bx6h32 32 48 25 false),
      (0xCAC81869, .mma .s .bx4 32 48 26 true), (0xCEE8186C, .mmag .s .bx4h16 32 48 27 false),
      (0xC9081870, .mma .v .bx4h32 32 48 28 false), (0xCD281800, .mmag .v .f16 32 48 0 false),
      (0xCB481800, .mma .s .bf16 32 48 0 false), (0xCF681800, .mmag .s .f32 32 48 0 false), (0xD0200900, .mld 18),
      (0xD0400A00, .mst 20), (0xD4000C07, .spawn 24 7)] = true := by decide +kernel

/-- Engines and tasks (R32, R33, R34). -/
theorem test_decode_engines_2 :
    decodes [(0xD4200B00, .tjoin 22), (0xD8200B80, .cfireIdx 23)] = true := by decide +kernel

/-- Memory (R30, R31). -/
theorem test_decode_memory :
    decodes [(0x9E5096BF, .ld true 20 18 .s16 .str 63), (0x9C50937E, .ld false 20 18 .b64 .sync 62),
      (0xA250947D, .st true 20 18 .b128 .sync 61), (0xA05090BC, .st false 20 18 .b8 .str 60),
      (0xA6509D3F, .lds true 20 19 .s8 63), (0xAA50993F, .sts true 20 19 .b16 63), (0xAE509C3F, .ldc true 20 19 .b128 63),
      (0xB02182DF, .atom .add32 .spec 24 22 31), (0xB44982DE, .atoms .add64 .comm 24 22 30),
      (0xB89182DD, .post .smin32 .nord 24 22 29), (0xB0D982DC, .atom .smax32 .quant 24 22 28),
      (0xB50182DB, .atoms .umin32 .unp 24 22 27), (0xB16182DA, .atom .umax32 .spec 24 22 26),
      (0xB18982D9, .atom .and32 .comm 24 22 25), (0xB5D182D8, .atoms .or32 .nord 24 22 24),
      (0xBA1982D7, .post .xor32 .quant 24 22 23), (0xB24182D6, .atom .exch32 .unp 24 22 22),
      (0xB6A182D5, .atoms .exch64 .spec 24 22 21), (0xB2D182D4, .atom .cas32 .nord 24 22 20),
      (0xB31182D3, .atom .cas64 .nord 24 22 19), (0xB75982D2, .atoms .fadd32 .quant 24 22 18),
      (0xBB8182D1, .post .fmin32 .unp 24 22 17), (0xB3E182D0, .atom .fmax32 .spec 24 22 16)] = true := by decide +kernel

/-! ## Single steps -/

/-- What copy k of a register of thread 0 holds after an operation. -/
def after (i : Instr) (f : Flight) (n k : Nat) : Option Word :=
  match exec i (st f) with
  | .next t => (mget t.flights 1).map (fun g => g.readReg n 0 k)
  | _ => none

/-- 0xFFFFFFFF + 1 wraps (R84); the destination is a source of IMAD, which multiplies before it adds (R84). -/
theorem test_iadd_wraps :
    after (.iadd false 20 21 22 false false) (withReg (withReg F 21 0xFFFFFFFF) 22 1) 20 2 = some 0
      ∧ after (.imad false 20 20 20 false false) (withReg F 20 3) 20 0 = some 12 := by decide +kernel

/-- A shift by 32 gives 0, and an arithmetic one the sign (R85). -/
theorem test_shifts_by_the_width :
    after (.shl false 20 21 22 false false) (withReg (withReg F 21 0x80000001) 22 32) 20 0 = some 0
      ∧ after (.sar false 20 21 22 false false) (withReg (withReg F 21 0x80000001) 22 255) 20 0 = some 0xFFFFFFFF := by decide +kernel

/-- 1 + 2 = 3 and 1 / 4 in FP32, both exact (R98); −0 from FNEG of 0 (R99). -/
theorem test_floats :
    after (.fadd false 20 21 22 false false) (withReg (withReg F 21 0x3F800000) 22 0x40000000) 20 1 = some 0x40400000
      ∧ after (.fdiv false 20 21 22 false false) (withReg (withReg F 21 0x3F800000) 22 0x40800000) 20 0 = some 0x3E800000
      ∧ after (.fneg false 20 21 false) F 20 0 = some 0x80000000 := by decide +kernel

/-- PREQ without a request writes 0, SRD of the flight's width 32 (R171, R177). -/
theorem test_special_registers :
    after (.preq 20) (withReg F 20 5) 20 0 = some 0 ∧ after (.srd 20 0x0C) F 20 2 = some 32 := by decide +kernel

end Sys2Proof.Tests
end

section
namespace Sys2Proof.Machine

/-! ## Operations that leave memory alone

One equation for each shared operation that places no write, in the order of the model; the setters of the state, and what is made of them
alone, leave memory alone by definition. -/

theorem Busy.mem {f : Flight} {s t : State} (h : Busy f s t) : t.mem = s.mem := by rw [h.rest]

/-! ### Events, traps and the end of an operation -/

theorem offer_mem (s : State) (f : Flight) (r : TraceRec) : (s.offer f r).mem = s.mem := by
  unfold State.offer
  dsimp only
  split
  · rfl
  · split
    · exact (count_mem ..).trans (count_mem ..)
    · exact count_mem ..

theorem flightEvent_mem (s : State) (f : Flight) (kind value : Nat) : (s.flightEvent f kind value).mem = s.mem := by
  unfold State.flightEvent
  split
  · rfl
  · exact offer_mem ..

theorem raiseTrap_mem (s : State) (f : Flight) (code : TrapCode) (r : List Byte) : (s.raiseTrap f code r).mem = s.mem :=
  (flightEvent_mem ..).trans (count_mem ..)

theorem freezeTrap_mem (s : State) (u : Nat) (f : Flight) (t : Trap) (op : Nat) (body : Option Nat) (word pc : Nat)
    (ops : List Word) : (s.freezeTrap u f t op body word pc ops).mem = s.mem := raiseTrap_mem ..

theorem takeTrap_mem (s : State) (u : Nat) (f : Flight) (c : ClauseRun) (srcs : List Nat) (t : Trap) :
    (s.takeTrap u f c srcs t).mem = s.mem := freezeTrap_mem ..

theorem deliverLate_mem (s : State) (u : Nat) (f : Flight) (l : LateFault) (op : Nat) : (s.deliverLate u f l op).mem = s.mem :=
  (raiseTrap_mem ..).trans (count_mem ..)

theorem finishOp_mem (s : State) (u : Nat) : (s.finishOp u).mem = s.mem := by
  unfold State.finishOp
  split
  · rfl
  · split <;> rfl

theorem occupyAs_mem (s : State) (f : Flight) (c : ClauseRun) (r : OpRegs) (all : Bool) : (s.occupyAs f c r all).mem = s.mem :=
  (count_mem ..).trans <| (count_mem ..).trans <| (count_mem ..).trans <| (count_mem ..).trans <| (count_mem ..).trans (count_mem ..)

theorem occupy_mem (s : State) (f : Flight) (c : ClauseRun) (r : OpRegs) : (s.occupy f c r).mem = s.mem := (busy_occupy ..).mem

theorem countMeets_mem (s : State) (f : Flight) (ms : List (Nat × Meet)) : (s.countMeets f ms).mem = s.mem :=
  (busy_countMeets f f s ms).mem

theorem unfreezeTrap_mem (s : State) (u : Nat) (f : Flight) (how : ResumeHow) : (s.unfreezeTrap u f how).mem = s.mem := by
  unfold State.unfreezeTrap
  dsimp only
  split <;> rfl

/-! ### Receipts, snapshots and reads -/

theorem recordStore_mem (s : State) (tag : Nat) (pas : List Nat) : (s.recordStore tag pas).mem = s.mem :=
  foldl_keeps State.mem _ (fun _ _ => recordUnit_mem ..) _ _

theorem noteSession_mem (s : State) (gallery id : Nat) : (s.noteSession gallery id).mem = s.mem := by
  unfold State.noteSession
  split <;> rfl

theorem readUnit_mem (s : State) (low : Nat) (pas : List Nat) : (s.readUnit low pas).2.mem = s.mem := pick_mem ..

theorem readSince_mem (s : State) (pa stamp : Nat) : (s.readSince pa stamp).2.mem = s.mem := pick_mem ..

theorem readSinceN_mem (stamp : Nat) : ∀ (pas : List Nat) (s : State), (s.readSinceN stamp pas).2.mem = s.mem
  | [], _ => rfl
  | _ :: pas, _ => (readSinceN_mem stamp pas _).trans (readSince_mem ..)

theorem adopt_mem (s : State) (c id : Nat) (bytes : NMap Byte) : (s.adopt c id bytes).mem = s.mem := by
  refine foldl_keeps State.mem _ (fun s p => ?_) _ _
  split
  · exact raiseFloor_mem ..
  · rfl

theorem showOwed_mem (s : State) (core : Nat) (owed : List (Nat × Nat)) : (s.showOwed core owed).mem = s.mem :=
  foldl_keeps State.mem _ (fun _ _ => by rfl) _ _

theorem l1Fill_mem (s : State) (f : Flight) (line : Nat) : (s.l1Fill f line).mem = s.mem := by
  unfold State.l1Fill
  dsimp only
  split
  · rfl
  · exact count_mem ..

/-! ### Misses and in-flight entries -/

theorem countMiss_mem (s : State) (f : Flight) (core : Nat) (data walks : Bool) (va : Nat) :
    (s.countMiss f core data walks va).mem = s.mem := by
  have first : (if data then s.countAt core f 0x14 1 else s).mem = s.mem := by
    split
    · exact countAt_mem ..
    · rfl
  unfold State.countMiss
  dsimp only
  split
  · rfl
  · split
    · exact first
    · exact (countAt_mem ..).trans ((countAt_mem ..).trans first)

theorem missTrap_mem (s : State) (u : Nat) (f : Flight) (t : Trap) (key : MissKey) (core op : Nat) (body : Option Nat)
    (word pc : Nat) (ops : List Word) : (missTrap s u f t key core op body word pc ops).mem = s.mem := by
  unfold missTrap
  dsimp only
  split
  · exact (countAt_mem ..).trans (countMiss_mem ..)
  · split
    · rfl
    · exact (freezeTrap_mem ..).trans (countMiss_mem ..)

theorem releaseT_mem (s : State) (u : Nat) : (s.releaseT u).mem = s.mem := by
  unfold State.releaseT
  split
  · rfl
  · exact foldl_keeps State.mem _ (fun _ _ => by rfl) _ _

theorem fixLoads_mem (s : State) (u : Nat) (window : Bool) (ivs : List (Nat × Nat)) : (s.fixLoads u window ivs).mem = s.mem := by
  unfold State.fixLoads
  split <;> rfl

theorem issueEntry_mem (s : State) (u : Nat) (f : Flight) (c : ClauseRun) (r : OpRegs) (cls : EClass) (tagged : Bool) (flag : Nat)
    (pay : Payload) (as : List AddrOf) (dests : List Nat) : (issueEntry s u f c r cls tagged flag pay as dests).2.mem = s.mem := by
  refine (countMeets_mem ..).trans ((occupy_mem ..).trans ((noteSession_mem ..).trans ?_))
  dsimp only [State.fresh]
  split <;> rfl

theorem noteTransfer_mem (s : State) (u : Nat) (f : Flight) (taken : List Nat) : (s.noteTransfer u f taken).mem = s.mem := by
  unfold State.noteTransfer
  dsimp only
  split
  · exact (count_mem ..).trans (count_mem ..)
  · exact (count_mem ..).trans (count_mem ..)

theorem parkBind_mem (s : State) (u : Nat) (f : Flight) (core id slot k : Nat) (report : List Byte) :
    (parkBind s u f core id slot k report).mem = s.mem := by
  have raised : ∀ b : Bool, (if b then s else s.raiseTrap f .binding report).mem = s.mem := fun b => by
    cases b
    · exact raiseTrap_mem ..
    · rfl
  unfold parkBind
  dsimp only
  split
  · exact (countAt_mem ..).trans (raised _)
  · exact raised _

theorem ldcReads_mem (g : Gallery) (size : MemSize) : ∀ (as : List AddrOf) (s : State), (ldcReads g size as s).2.mem = s.mem
  | [], _ => rfl
  | _ :: as, _ => (ldcReads_mem g size as _).trans (readSinceN_mem ..)

end Sys2Proof.Machine
end

section
namespace Sys2Proof.Machine

/-! ### Engines and the matrix unit -/

theorem takeSb_mem (s : State) (f : Flight) (u id : Nat) (e : Engine) : (s.takeSb f u id e).mem = s.mem := by
  unfold State.takeSb
  split <;> rfl

/-- An answer where a condition refuses comes from the other branch. -/
theorem ok_of_ite {ε α : Type} {b : Prop} [Decidable b] {r : ε} {x p : α} (h : (if b then Except.error r else .ok x) = .ok p) :
    x = p := by
  split at h
  · cases h
  · exact Except.ok.inj h

theorem issueEngine_mem {s : State} {u : Nat} {f : Flight} {c : ClauseRun} {r : OpRegs} {cls : EClass} {flag : Nat} {e : Engine}
    {ms : List (Nat × Meet)} {dests : List Nat} {p : Nat × State} (h : issueEngine s u f c r cls flag e ms dests = .ok p) :
    p.2.mem = s.mem := by
  unfold issueEngine at h
  extract_lets footprint at h
  cases ok_of_ite h
  exact (countMeets_mem ..).trans <| (occupy_mem ..).trans <| (takeSb_mem ..).trans <| (fixLoads_mem ..).trans (noteSession_mem ..)

theorem joinWrites_mem (s : State) (u : Nat) (f : Flight) (out : NMap Byte) : (s.joinWrites u f out).mem = s.mem := by
  unfold State.joinWrites
  split
  · rfl
  · exact (ownWrites_mem ..).trans ((fixLoads_mem ..).trans (noteSession_mem ..))

theorem finishEngine_mem (s : State) (u id : Nat) : (s.finishEngine u id).mem = s.mem := by
  unfold State.finishEngine
  split
  · rfl
  · split
    · exact joinWrites_mem ..
    · rfl

theorem stopEngine_mem (s : State) (u id cause addr elem : Nat) : (s.stopEngine u id cause addr elem).mem = s.mem := by
  unfold State.stopEngine
  split
  · rfl
  · exact finishEngine_mem ..

theorem parkEngine_mem (s : State) (u id : Nat) (key : MissKey) (addr elem cause : Nat) :
    (s.parkEngine u id key addr elem cause).mem = s.mem := by
  unfold State.parkEngine
  split
  · rfl
  · dsimp only
    split
    · exact (countAt_mem ..).trans (countMiss_mem ..)
    · split
      · rfl
      · exact (raiseTrap_mem ..).trans (countMiss_mem ..)

theorem engineUnit_mem (core id : Nat) (pas : List Nat) (s : State) : (engineUnit core id pas s).2.mem = s.mem := readUnit_mem ..

theorem engineReadN_mem (core id : Nat) : ∀ (n : Nat) (pas : List Nat) (s : State), (engineReadN core id n pas s).2.mem = s.mem
  | 0, _, _ => rfl
  | _ + 1, [], _ => rfl
  | n + 1, _ :: _, _ => (engineReadN_mem core id n _ _).trans (engineUnit_mem ..)

theorem engineRead_mem (core id : Nat) (pas : List Nat) (s : State) : (engineRead core id pas s).2.mem = s.mem := engineReadN_mem ..

theorem mstRow_mem (s : State) (f : Flight) (e : Engine) (i : Nat) (set : PlaneSet) : (mstRow s f e i set).mem = s.mem :=
  foldl_keeps State.mem _ (fun _ _ => foldl_keeps State.mem _ (fun _ _ => winWrite_mem ..) _ _) _ _

theorem matrixChunk_mem (s : State) (u : Nat) (f : Flight) (core : Nat) (e : Engine) (n : Nat) :
    (matrixChunk s u f core e n).2.mem = s.mem := by
  unfold matrixChunk
  extract_lets k set row
  split
  · rfl
  · rfl
  · exact countAt_mem ..
  · exact (countAt_mem ..).trans (mstRow_mem ..)
  · exact countAt_mem ..

theorem finishIfLast_mem (s : State) (u : Nat) (x : Entry) (e : Engine) : (s.finishIfLast u x e).mem = s.mem := by
  unfold State.finishIfLast
  split
  · exact finishEngine_mem ..
  · rfl

theorem startFetches_mem (s : State) (core : Nat) : (s.startFetches core).mem = s.mem := by
  refine foldl_keeps State.mem _ (fun s i => foldl_keeps State.mem _ (fun s q => foldl_keeps State.mem _ (fun s p => ?_) _ _) _ _) _ _
  split
  · split
    · split <;> rfl
    · rfl
  · rfl

/-! ### Tasks and firing -/

theorem softwarePush_mem (s : State) (pa : Nat) (data : List Byte) : (s.softwarePush pa data).mem = s.mem := by
  unfold State.softwarePush
  dsimp only
  split <;> rfl

theorem fire_mem (s : State) (gid chunk die : Nat) : (s.fire gid chunk die).2.mem = s.mem := by
  unfold State.fire
  split
  · rfl
  · split
    · rfl
    · dsimp only
      split
      · rfl
      · exact noteSession_mem ..

theorem fireRest_mem (s : State) (gid : Nat) (g : Gallery) : (s.fireRest gid g).mem = s.mem := by
  unfold State.fireRest
  split
  · rfl
  · exact foldl_keeps State.mem _ (fun _ _ => fire_mem ..) _ _

/-! ### The start of a clause -/

theorem codeWords_mem (f : Flight) : ∀ (n va : Nat) (s : State), (codeWords f va n s).2.mem = s.mem
  | 0, _, _ => rfl
  | n + 1, _, _ => codeWords_mem f n _ _

theorem startTrap_mem (s : State) (u : Nat) (f : Flight) (k : Candidate) (t : Trap) (index : Nat) :
    (startTrap s u f k t index).mem = s.mem := freezeTrap_mem ..

theorem markStarted_mem (s : State) (f : Flight) : (s.markStarted f).mem = s.mem := by
  unfold State.markStarted
  split
  · split <;> rfl
  · rfl

theorem beginClause_mem (s : State) (u : Nat) (f : Flight) (k : Candidate) (h : Header) (active : List Nat) :
    (beginClause s u f k h active).mem = s.mem := by
  have begun : ∀ f g n v, (((((s.count f 0x01 1).count f 0x0A n).sample f.core f.context 3 v).markStarted g).mem = s.mem) :=
    fun f g n v => (markStarted_mem ..).trans ((count_mem ..).trans (count_mem ..))
  unfold beginClause
  dsimp only
  split
  · exact begun ..
  · exact begun ..

theorem tryStart_mem (s : State) (u : Nat) (f : Flight) (k : Candidate) : (tryStart s u f k).mem = s.mem := by
  unfold tryStart
  split
  · exact startTrap_mem ..
  · dsimp only
    split
    · rfl
    · split
      · exact deliverLate_mem ..
      · split
        · rfl
        · split
          · exact startTrap_mem ..
          · exact beginClause_mem ..

theorem startBody_mem (s : State) (u : Nat) (f : Flight) (b : BodyRun) : (startBody s u f b).mem = s.mem := by
  unfold startBody
  dsimp only
  split
  · rfl
  · split
    · exact freezeTrap_mem ..
    · exact tryStart_mem ..

theorem reportRecords_mem (s : State) (u : Nat) (code : TrapCode) : (reportRecords s u code).mem = s.mem := by
  unfold reportRecords
  split
  · rfl
  · dsimp only
    split
    · rfl
    · exact freezeTrap_mem ..

theorem issued_mem (s : State) (u : Nat) (f : Flight) : (s.issued u f).mem = s.mem := by
  unfold State.issued
  split
  · split <;> rfl
  · rfl

/-! ### Completions -/

theorem modSaved_mem (s : State) (context u : Nat) (g : Flight → Flight) : (s.modSaved context u g).mem = s.mem := by
  unfold State.modSaved
  dsimp only
  split <;> rfl

theorem seeAtom_mem (s : State) (f : Flight) (e : Entry) : (s.seeAtom f e).mem = s.mem := by
  refine foldl_keeps State.mem _ (fun s b => ?_) _ _
  split
  · exact raiseFloor_mem ..
  · rfl

theorem returnAtom_mem (s : State) (u : Nat) (f : Flight) (e : Entry) : (s.returnAtom u f e).mem = s.mem := by
  unfold State.returnAtom
  dsimp only
  split
  · exact seeAtom_mem ..
  · exact seeAtom_mem ..

theorem reached_mem (s : State) (e : Entry) : (s.reached e).mem = s.mem := by
  unfold State.reached
  split
  · exact recordStore_mem ..
  · rfl

/-! ### Placement and retirement -/

theorem takeIn_mem {s : State} {f : Flight} {p : Nat × State} (h : s.takeIn f = some p) : p.2.mem = s.mem := by
  unfold State.takeIn at h
  split at h
  · cases h
  · cases h
    exact count_mem ..

theorem admitHall_mem {gid : Nat} {g : Gallery} {hall core : Nat} {win : Option Nat} : ∀ {n i : Nat} {s : State} {p : List Nat × State},
    s.admitHall gid g hall core win i n = some p → p.2.mem = s.mem
  | 0, _, _, _, h => by cases h; rfl
  | n + 1, i, s, p, h => by
    unfold State.admitHall at h
    dsimp only at h
    split at h
    · cases h
    · next taken =>
      split at h
      · cases h
      · next rest =>
        cases h
        exact (admitHall_mem rest).trans (takeIn_mem taken)

theorem loadStore_mem (s : State) (core : Nat) (g : Gallery) : (s.loadStore core g).mem = s.mem := by
  unfold State.loadStore
  split <;> rfl

theorem dropStore_mem (s : State) (core : Nat) : (s.dropStore core).mem = s.mem := by
  unfold State.dropStore
  split
  · rfl
  · dsimp only
    split <;> rfl

theorem joinSession_mem (s : State) (gid core : Nat) : (s.joinSession gid core).mem = s.mem := by
  unfold State.joinSession
  split <;> rfl

theorem placeHalls_mem (gid : Nat) (win : Option Nat) : ∀ (hs : List (Nat × Nat)) (g : Gallery) (s : State),
    (s.placeHalls gid g win hs).2.mem = s.mem
  | [], _, _ => rfl
  | (h, c) :: hs, g, s => by
    have joined : (let t := (s.joinSession gid c).comeTo gid c
        if (t.core c).store.isNone then t.loadStore c g else t).mem = s.mem := by
      dsimp only
      split
      · exact (loadStore_mem ..).trans (joinSession_mem ..)
      · exact joinSession_mem ..
    unfold State.placeHalls
    dsimp only
    split
    · exact (placeHalls_mem gid win hs _ _).trans joined
    · next placed => exact (placeHalls_mem gid win hs _ _).trans ((admitHall_mem placed).trans joined)

theorem dropWindow_mem (s : State) (w : Nat) : (s.dropWindow w).mem = s.mem := by
  unfold State.dropWindow
  split
  · rfl
  · extract_lets halls
    split <;> rfl

theorem keepSig_mem (s : State) (f : Flight) : (s.keepSig f).mem = s.mem := by
  unfold State.keepSig
  split <;> rfl

theorem releaseUnit_mem (s : State) (u : Nat) (f : Flight) : (s.releaseUnit u f).mem = s.mem := by
  unfold State.releaseUnit
  exact startFetches_mem ..

end Sys2Proof.Machine
end

section
namespace Sys2Proof.Machine

theorem leaveHall_mem (s : State) (u : Nat) (f : Flight) : (s.leaveHall u f).mem = s.mem := by
  unfold State.leaveHall
  split
  · split
    · exact dropWindow_mem ..
    · rfl
  · next g _ _ =>
    split
    · rfl
    · extract_lets us t v
      have fired : v.mem = s.mem := by
        unfold v
        split
        · next k _ _ =>
          split
          · rfl
          · split
            next fired w e =>
              have h : w.mem = t.mem := by rw [← fire_mem t f.gallery k (dieOf f.core), e]
              split
              · exact (count_mem ..).trans h
              · exact h
        · rfl
      split
      · rfl
      · split
        · exact (dropWindow_mem ..).trans fired
        · exact fired
  · rfl

/-! ### Records and members of collectives -/

theorem parkRecord_mem {s t : State} {q seq : Nat} {key : MissKey} (h : s.parkRecord q seq key = some t) : t.mem = s.mem := by
  unfold State.parkRecord at h
  split at h
  · cases h; rfl
  · split at h
    · cases h
    · cases h; rfl

theorem tellMembers_mem (s : State) (peers number status : Nat) (members : List Nat) :
    (s.tellMembers peers number status members).mem = s.mem := foldl_keeps State.mem _ (fun _ _ => sendPacket_mem ..) _ _

theorem failColl_mem (s : State) (id : Nat) (c : Coll) (status : Nat) : (s.failColl id c status).mem = s.mem := by
  unfold State.failColl
  split
  · rfl
  · exact tellMembers_mem ..

theorem takeSegment_mem (s : State) (id : Nat) (e : Early) : (s.takeSegment id e).mem = s.mem := by
  unfold State.takeSegment
  split
  · rfl
  · split
    · exact failColl_mem ..
    · rfl

theorem meetEarly_mem (s : State) (id : Nat) (c : Coll) : (s.meetEarly id c).mem = s.mem := by
  have taken : ∀ es : List Early, (es.foldl (fun s e => s.takeSegment id e) s).mem = s.mem :=
    fun es => foldl_keeps State.mem _ (fun _ _ => takeSegment_mem ..) es s
  unfold State.meetEarly
  extract_lets mine told s1 s2
  split
  · split
    · exact taken _
    · exact taken _
  · exact taken _

theorem armSession_mem (s : State) (q gid : Nat) : (s.armSession q gid).mem = s.mem := by
  unfold State.armSession
  split
  · split <;> rfl
  · rfl

theorem spendSession_mem (s : State) (q : Nat) : (s.spendSession q).mem = s.mem := by
  unfold State.spendSession
  split
  · split <;> rfl
  · rfl

theorem announceRefusal_mem (s : State) (raw : List Byte) : (s.announceRefusal raw).mem = s.mem := by
  unfold State.announceRefusal
  split
  · rfl
  · dsimp only
    split
    · exact tellMembers_mem ..
    · rfl

theorem sendSegment_mem (s : State) (c : Coll) (chunk seg : Nat) (bs : List Byte) : (s.sendSegment c chunk seg bs).mem = s.mem :=
  foldl_keeps State.mem _ (fun _ _ => sendPacket_mem ..) _ _

theorem readTile_mem (fired : Nat) : ∀ (n : Nat) (pas : List Nat) (s : State), (State.readTile fired n pas s).2.mem = s.mem
  | 0, _, _ => rfl
  | _ + 1, [], _ => rfl
  | n + 1, _ :: _, _ => (readTile_mem fired n _ _).trans (readUnit_mem ..)

theorem sendAgain_mem (s : State) (n : Nat) (x : Transit) : (s.sendAgain n x).mem = s.mem := by
  unfold State.sendAgain
  split
  · rfl
  · exact pick_mem ..

/-! ### Saving and placing contexts -/

theorem saveWindow_mem (s : State) (context w : Nat) : (s.saveWindow context w).mem = s.mem := by
  unfold State.saveWindow
  split
  · rfl
  · split <;> rfl

theorem admitSaved_mem {v : Saved} {core : Nat} : ∀ {us : List Nat} {s t : State}, s.admitSaved v core us = some t → t.mem = s.mem
  | [], _, _, h => by cases h; rfl
  | u :: us, s, t, h => by
    unfold State.admitSaved at h
    split at h
    · exact admitSaved_mem h
    · extract_lets quarter planes free set at h
      clear_value planes set
      split at h
      · cases h
      · split at h
        · cases h
        · refine (admitSaved_mem h).trans ((count_mem ..).trans ?_)
          split <;> rfl

theorem restoreWindow_mem {s t : State} {v : Saved} {cl : Nat} {us : List Nat} (h : s.restoreWindow v cl us = some t) :
    t.mem = s.mem := by
  unfold State.restoreWindow at h
  split at h
  · cases h; rfl
  · split at h
    · split at h
      · cases h; rfl
      · cases h
    · split at h
      · cases h; rfl
      · cases h
    · cases h; rfl

theorem seatGroup_mem (s : State) (us : List Nat) (f : Flight) (c : Nat) : (s.seatGroup us f c).mem = s.mem := by
  unfold State.seatGroup
  split
  · rfl
  · extract_lets seat halls t v
    refine (foldl_keeps State.mem _ (fun _ _ => by rfl) _ _).trans ?_
    unfold v
    split
    · exact joinSession_mem ..
    · exact (loadStore_mem ..).trans (joinSession_mem ..)

theorem reage_mem (s : State) (us : List Nat) : (s.reage us).mem = s.mem := foldl_keeps State.mem _ (fun _ _ => by rfl) _ _

theorem placeGroup_mem {v : Saved} {us : List Nat} : ∀ {cs : List Nat} {s t : State}, s.placeGroup v us cs = some t → t.mem = s.mem
  | [], _, _, h => by cases h
  | c :: cs, s, t, h => by
    unfold State.placeGroup at h
    split at h
    · cases h; rfl
    · extract_lets here at h
      rcases seated : here with _ | t'
      · rw [seated] at h
        exact placeGroup_mem h
      · rw [seated] at h
        cases h
        refine (seatGroup_mem ..).trans ?_
        unfold here at seated
        split at seated
        · obtain ⟨w, restored, admitted⟩ := Option.bind_eq_some_iff.mp seated
          exact (admitSaved_mem admitted).trans (restoreWindow_mem restored)
        · cases seated

theorem placeSaved_mem {v : Saved} {sys : Bool} {core : Nat} : ∀ {gs : List (List Nat)} {s t : State},
    s.placeSaved v sys core gs = some t → t.mem = s.mem
  | [], _, _, h => by cases h; rfl
  | us :: gs, s, t, h => by
    unfold State.placeSaved at h
    dsimp only at h
    split at h
    · next placed => exact (placeSaved_mem h).trans (placeGroup_mem placed)
    · cases h

theorem takeAgain_mem (s : State) (u : Nat) (f : Flight) (e : Entry) : (s.takeAgain u f e).mem = s.mem := by
  unfold State.takeAgain
  split
  · exact takeSb_mem ..
  · rfl

theorem takeDue_mem (s : State) (u : Nat) : (s.takeDue u).mem = s.mem := by
  unfold State.takeDue
  split
  · rfl
  · refine foldl_keeps State.mem _ (fun s e => ?_) _ _
    split
    · rfl
    · exact takeAgain_mem ..

theorem markAgain_mem (s : State) (u : Nat) (f : Flight) (e : Entry) (pay : Payload) : (s.markAgain u f e pay).mem = s.mem := by
  unfold State.markAgain
  dsimp only
  split
  · rfl
  · exact countAt_mem ..

theorem againTrap_mem (s : State) (u : Nat) (f : Flight) (e : Entry) (t : Trap) (key : Option MissKey) :
    (s.againTrap u f e t key).mem = s.mem := by
  cases key with
  | none => exact freezeTrap_mem ..
  | some k => exact missTrap_mem ..

theorem endContext_mem (s : State) (context : Nat) : (s.endContext context).mem = s.mem := by
  unfold State.endContext
  extract_lets us s1 mine gone s2 s3
  have failed : s3.mem = s2.mem := foldl_keeps State.mem _ (fun _ _ => failColl_mem ..) _ _
  refine failed.trans (foldl_keeps State.mem _ (fun s u => ?_) us s)
  split
  · rw [dropStore_mem]
    dsimp only [State.unparkFlight]
    exact releaseUnit_mem ..
  · rfl

/-! ### Parked work and errors -/

theorem dropColls_mem (s : State) (key : MissKey) : (s.dropColls key).mem = s.mem :=
  foldl_keeps State.mem _ (fun _ _ => failColl_mem ..) _ _

theorem ownTrap_mem (s : State) (u : Nat) (report : List Byte) : (s.ownTrap u report).mem = s.mem := by
  unfold State.ownTrap
  split
  · split
    · rfl
    · exact raiseTrap_mem ..
  · rfl

theorem zeroSlot_mem (s : State) (u id slot k : Nat) : (s.zeroSlot u id slot k).mem = s.mem := by
  unfold State.zeroSlot
  split <;> rfl

/-! ### Clocks, trace and sessions -/

theorem clockRecord_mem (s : State) (mhz core : Nat) : (s.clockRecord mhz core).mem = s.mem := by
  unfold State.clockRecord
  dsimp only
  split <;> rfl

theorem countLost_mem (s : State) (context : Nat) (r : TraceRec) : (s.countLost context r).mem = s.mem := by
  unfold State.countLost
  split <;> rfl

theorem fireTrigger_mem (s : State) (die k : Nat) : (s.fireTrigger die k).mem = s.mem := by
  unfold State.fireTrigger
  extract_lets t a s1 k s2
  have frozen : s1.mem = s.mem := by unfold s1; split <;> rfl
  have armed : s2.mem = s1.mem := by unfold s2; split <;> rfl
  split
  · exact armed.trans frozen
  · exact armed.trans frozen

theorem endSession_mem (s : State) (q : Nat) (z : Session) : (s.endSession q z).mem = s.mem := by
  unfold State.endSession
  dsimp only
  split <;> rfl

theorem chargeQuarter_mem (s : State) (core n q : Nat) : (s.chargeQuarter core n q).mem = s.mem := by
  unfold State.chargeQuarter
  extract_lets on e s1
  have binned : s1.mem = s.mem := by unfold s1; split <;> rfl
  split
  · exact binned
  · split
    · exact binned
    · split
      · exact binned
      · refine (count_mem ..).trans ?_
        split
        · exact binned
        · exact binned

theorem countCycles_mem (s : State) (core ev n : Nat) (p : Flight → Bool) : (s.countCycles core ev n p).mem = s.mem := by
  unfold State.countCycles
  split
  · exact count_mem ..
  · rfl

theorem countMatrix_mem (s : State) (core n q : Nat) : (s.countMatrix core n q).mem = s.mem := by
  unfold State.countMatrix
  dsimp only
  split
  · split
    · split
      · exact count_mem ..
      · rfl
    · rfl
  · rfl

theorem coreCycles_mem (s : State) (n core : Nat) : (s.coreCycles n core).mem = s.mem := by
  unfold State.coreCycles
  extract_lets s1 s2 s3 s4 s5
  have charged : s1.mem = s.mem := foldl_keeps State.mem _ (fun _ _ => chargeQuarter_mem ..) _ _
  have matrix : s5.mem = s4.mem := foldl_keeps State.mem _ (fun _ _ => countMatrix_mem ..) _ _
  have all : s5.mem = s.mem :=
    matrix.trans <| (countCycles_mem ..).trans <| (countCycles_mem ..).trans <| (countCycles_mem ..).trans charged
  split
  · exact (countAll_mem ..).trans all
  · exact all

theorem newCycle_mem (s : State) (core : Nat) : (s.newCycle core).mem = s.mem := foldl_keeps State.mem _ (fun _ _ => by rfl) _ _

end Sys2Proof.Machine
end

section
namespace Sys2Proof.Machine

/-! ## Operations that place writes

Each keeps the canonical form of memory (R6, R227, R363, R364; log 1). -/

theorem canonical_ite {b : Prop} [Decidable b] {s t : State} (hs : s.Canonical) (ht : t.Canonical) :
    (if b then s else t).Canonical := by
  split
  · exact hs
  · exact ht

theorem canonical_ite_snd {α : Type} {b : Prop} [Decidable b] {p q : α × State} (hp : p.2.Canonical) (hq : q.2.Canonical) :
    (if b then p else q).2.Canonical := by
  split
  · exact hp
  · exact hq

section
variable {s : State} (h : s.Canonical)
include h

theorem modFlight_canonical (u : Nat) (g : Flight → Flight) : (s.modFlight u g).Canonical := h

/-! ### Pages and boundaries -/

theorem externalUpdate_canonical (pa : Nat) (g : Byte → Byte) : (s.externalUpdate pa g).Canonical :=
  agentWrite_canonical _ _ _ (reachAll_canonical h ..)

theorem useEntry_canonical (core : Nat) (e : TlbEnt) (write : Bool) : (s.useEntry core e write).Canonical :=
  canonical_ite h (externalUpdate_canonical h ..)

theorem usePage_canonical (f : Flight) (core : Nat) (data write : Bool) (va : Nat) :
    (s.usePage f core data write va).Canonical := by
  have counted : ∀ walks, (s.countMiss f core data walks va).Canonical := fun _ => canonical_of_mem (countMiss_mem ..) h
  unfold State.usePage
  split
  · exact useEntry_canonical (counted true) ..
  · exact counted true

theorem usePagesAs_canonical (f : Flight) (core : Nat) (data write : Bool) (vas : List Nat) :
    (s.usePagesAs f core data write vas).Canonical := foldl_canonical _ (fun _ _ h => usePage_canonical h ..) _ _ h

theorem usePages_canonical (f : Flight) (write : Bool) (vas : List Nat) : (s.usePages f write vas).Canonical :=
  usePagesAs_canonical h ..

theorem codePage_canonical (f : Flight) (va : Nat) : (s.codePage f va).Canonical := usePage_canonical h ..

theorem drain_canonical (core : Nat) : (s.drain core).Canonical :=
  canonical_of_mem (showOwed_mem ..) (performWhere_canonical h ..)

theorem publishAt_canonical (gallery sc c : Nat) : (s.publishAt gallery sc c).Canonical :=
  canonical_ite (publish_canonical h ..) (foldl_canonical _ (fun _ _ h => canonical_of_mem (showUpTo_mem ..) h) _ _ (publish_canonical h ..))

theorem boundaryStep_canonical (u : Nat) (f : Flight) (pub ref : Option Nat) : (s.boundaryStep u f pub ref).2.Canonical := by
  have released : ∀ {b : Bool} {v : State}, v.Canonical → (if b then v.releaseT u else v).Canonical :=
    fun hv => canonical_ite (canonical_of_mem (releaseT_mem ..) hv) hv
  unfold State.boundaryStep
  extract_lets sc s1 wide
  have drained : s1.Canonical := canonical_of_mem ((count_mem ..).trans (showOwed_mem ..)) (drain_canonical h f.core)
  clear_value s1
  split
  next ids t e =>
    have published : t.Canonical := by
      obtain rfl : _ = t := congrArg Prod.snd e
      cases pub with
      | none => exact drained
      | some n =>
        have counted : (if n == 3 || n == 4 then s1.count f 0x3B 1 else s1).Canonical :=
          canonical_ite (canonical_of_mem (count_mem ..) drained) drained
        exact canonical_ite_snd (publish4_canonical counted ..) (publishAt_canonical counted ..)
    cases ref with
    | none => exact released published
    | some n => exact released (refresh_canonical published ..)

theorem passAwait_canonical (u : Nat) (f : Flight) (pass : List Nat) : (s.passAwait u f pass).Canonical :=
  boundaryStep_canonical (by exact h) ..

omit h in
theorem retestN_canonical : ∀ (n : Nat) {s : State}, s.Canonical → (s.retestN n).Canonical
  | 0, _, h => h
  | n + 1, s, h => by
    unfold State.retestN
    split
    · split
      · exact retestN_canonical n (passAwait_canonical h ..)
      · exact h
    · exact h

theorem retest_canonical : s.retest.Canonical := retestN_canonical _ h

theorem performAll_canonical (core : Nat) : (s.performAll core).Canonical :=
  canonical_ite (retest_canonical (drain_canonical h core)) (drain_canonical h core)

/-- A phase boundary keeps the canonical form (R136, R232). -/
theorem boundary_canonical (u : Nat) (f : Flight) (pub ref : Option Nat) : (s.boundary u f pub ref).2.Canonical :=
  canonical_ite (retest_canonical (boundaryStep_canonical h ..)) (boundaryStep_canonical h ..)

theorem performEntry_canonical (u id : Nat) : (s.performEntry u id).Canonical := retest_canonical (performWhere_canonical h ..)

theorem settle_canonical (c limit : Nat) (pas : List Nat) : (s.settle c limit pas).Canonical :=
  canonical_ite h (placePends_canonical (performWhere_canonical h ..) ..)

theorem settleWrite_canonical (c id : Nat) (bytes : NMap Byte) : (s.settleWrite c id bytes).Canonical :=
  canonical_ite (settle_canonical h ..) h

theorem engineWrite_canonical (id pa : Nat) (b : Byte) : (s.engineWrite id pa b).Canonical := place_canonical h ..

theorem publishWhole_canonical (c : Nat) : (s.publishWhole c).2.Canonical := by
  unfold State.publishWhole
  extract_lets set p ws t
  have published : p.2.Canonical := publish4_canonical h c set
  have shown : t.Canonical := foldl_canonical _ (fun _ _ h => by exact h) _ _ published
  have sent := sendWrites_mem c (ws.map (fun w => (w.1, w.2.val))) t.destinations t
  clear_value t
  split
  · dsimp only
    exact canonical_of_mem sent shown
  · exact shown

/-- An access of a flight to a line reaches the line's bank where it misses (R265). -/
theorem l1Touch_canonical (u : Nat) (f : Flight) (load alloc : Bool) (line : Nat) : (s.l1Touch u f load alloc line).Canonical := by
  have counted : ∀ {b : Bool} {e n : Nat} {v : State}, v.Canonical → (if b then v.count f e n else v).Canonical :=
    fun hv => canonical_ite (canonical_of_mem (count_mem ..) hv) hv
  have scored : ∀ {b : Bool} {e n : Nat} {g : Flight → Flight} {v : State}, v.Canonical →
      (if b then (v.modFlight u g).count f e n else v).Canonical :=
    fun hv => canonical_ite (canonical_of_mem (count_mem ..) hv) hv
  unfold State.l1Touch
  dsimp only
  split
  · exact counted h
  · exact canonical_ite (canonical_of_mem (l1Fill_mem ..) (reach_canonical (scored (counted h)) ..))
      (reach_canonical (scored (counted h)) ..)

/-! ### Barriers and exits -/

theorem barrierCheck_canonical (u : Nat) (f : Flight) : (s.barrierCheck u f).Canonical :=
  canonical_ite h (canonical_of_mem (count_mem ..) (boundary_canonical h ..))

theorem exitThreads_canonical (u : Nat) (f : Flight) (c : ClauseRun) : (s.exitThreads u f c).Canonical :=
  barrierCheck_canonical (by exact h) ..

theorem completeBarrier_canonical (u : Nat) : (s.completeBarrier u).Canonical := by
  unfold State.completeBarrier
  split
  · exact canonical_ite (barrierCheck_canonical h ..) h
  · exact h

/-! ### Binding loads -/

theorem readSlot_canonical (core pa : Nat) : (readSlot s core pa).2.Canonical := by
  unfold readSlot
  dsimp only
  refine foldl_canonical _ (fun t b ht => ?_) _ _ (settle_canonical h core s.nextId (locBytes pa 8))
  split
  · exact canonical_of_mem (raiseFloor_mem ..) ht
  · exact ht

omit h in
theorem bindReads_canonical (f : Flight) (size : MemSize) : ∀ (as : List AddrOf) {s : State}, s.Canonical →
    (bindReads f size as s).2.2.Canonical
  | [], _, h => h
  | a :: as, s, h => by
    unfold bindReads
    split
    · exact bindReads_canonical f size as h
    · have rest := bindReads_canonical f size as (readSlot_canonical h f.core (s.locate f a.addr).pa)
      dsimp only
      split
      · exact rest
      · exact rest

end
end Sys2Proof.Machine
end

section
namespace Sys2Proof.Machine

/-! ## Operations of a flight

Each leaves memory in canonical form, however its attempt to issue ends. -/

/-- Memory is in canonical form where a step answers a next state. -/
def ResCanonical : Res → Prop
  | .next t => t.Canonical
  | _ => True

/-- Memory is in canonical form in the state that an attempt to issue leaves. -/
def EffCanonical : Eff → Prop
  | .done t => t.Canonical
  | .stay t => t.Canonical
  | _ => True

theorem resCanonical_ite {b : Prop} [Decidable b] {p q : Res} (hp : ResCanonical p) (hq : ResCanonical q) :
    ResCanonical (if b then p else q) := by
  split
  · exact hp
  · exact hq

theorem effCanonical_ite {b : Prop} [Decidable b] {p q : Eff} (hp : EffCanonical p) (hq : EffCanonical q) :
    EffCanonical (if b then p else q) := by
  split
  · exact hp
  · exact hq

theorem canonical_snd {α : Type} {p : α × State} {a : α} {t : State} (e : p = (a, t)) (hp : p.2.Canonical) : t.Canonical := by
  subst e
  exact hp

section
variable {s : State} (h : s.Canonical)
include h

theorem settleEff_canonical (u : Nat) (f : Flight) (c : ClauseRun) (srcs : List Nat) {e : Eff} (he : EffCanonical e) :
    ResCanonical (Sys2Proof.Machine.settle s u f c srcs e) := by
  cases e with
  | done t => exact canonical_of_mem (finishOp_mem ..) he
  | stay t => exact he
  | hold r => exact h
  | trap t => exact canonical_of_mem (takeTrap_mem ..) h

theorem regCheck_canonical (u : Nat) (f : Flight) (c : ClauseRun) (r : OpRegs) {e : Eff} (he : EffCanonical e) :
    EffCanonical ((regCheck s u f c r).getD e) := by
  unfold regCheck
  split
  · exact canonical_of_mem (deliverLate_mem ..) h
  · split
    · trivial
    · dsimp only
      split
      · trivial
      · split
        · trivial
        · exact he

/-- An operation whose own effect keeps the canonical form keeps it (R13, R77). -/
theorem runOp_canonical {regs : Flight → OpRegs} {k : Nat → Flight → ClauseRun → Eff} (hk : ∀ u f c, EffCanonical (k u f c)) :
    ResCanonical (runOp s regs k) := by
  unfold runOp
  split
  · trivial
  · split
    · trivial
    · split
      · trivial
      · exact settleEff_canonical h _ _ _ _ (regCheck_canonical h _ _ _ _ (hk _ _ _))

/-- An operation on registers leaves memory alone (R81). -/
theorem regOp_canonical (regs : Flight → OpRegs) (g : Flight → Nat → List (Tri Word)) : ResCanonical (regOp s regs g) :=
  runOp_canonical h fun _ _ _ => canonical_of_mem (occupy_mem ..) h

theorem predOp_canonical (regs : Flight → OpRegs) (p : BitVec 4) (g : Flight → ClauseRun → Nat → Bool) :
    ResCanonical (predOp s regs p g) := runOp_canonical h fun _ _ _ => canonical_of_mem (occupy_mem ..) h

theorem laneOp_canonical (regs : Flight → OpRegs) (g : Flight → ClauseRun → Nat → Tri Word) : ResCanonical (laneOp s regs g) :=
  runOp_canonical h fun _ _ _ => canonical_of_mem (occupy_mem ..) h

theorem fpOp_canonical (regs : Flight → OpRegs) (draws : Nat) (g : Flight → Nat → Nat → SibOut)
    (cond : Flight → Nat → Tri SibOut → Option Meet) : ResCanonical (fpOp s regs draws g cond) :=
  runOp_canonical h fun _ _ _ => canonical_of_mem ((countMeets_mem ..).trans (occupy_mem ..)) h

theorem fltCmp_canonical (fmt : Fmt) (regs : Flight → OpRegs) (mode : CombMode) (p : BitVec 4) (cond : FltCond)
    (vals : Flight → Nat → Tri (Nat × Nat)) : ResCanonical (fltCmp s fmt regs mode p cond vals) :=
  runOp_canonical h fun _ _ _ => canonical_of_mem ((countMeets_mem ..).trans (occupy_mem ..)) h

theorem branch_canonical (link : Bool) (p : BitVec 4) (sense : Bool) (off : BitVec 21) : ResCanonical (branch link p sense off s) := by
  refine runOp_canonical h fun u f c => ?_
  dsimp only
  split
  · trivial
  · exact canonical_of_mem ((noteTransfer_mem ..).trans (occupyAs_mem ..)) h

theorem indirect_canonical (isRet : Bool) (name : Flight → Nat) : ResCanonical (indirect isRet name s) := by
  refine runOp_canonical h fun u f c => ?_
  dsimp only
  split
  · trivial
  · trivial
  · exact canonical_of_mem ((noteTransfer_mem ..).trans ((countMeets_mem ..).trans (occupyAs_mem ..))) h

theorem failEff_canonical (u : Nat) (f : Flight) (c : ClauseRun) (srcs : List Nat) (x : Trap × Option MissKey) :
    EffCanonical (failEff s u f c srcs x) := by
  unfold failEff
  split
  · trivial
  · exact canonical_of_mem (missTrap_mem ..) h

/-! ### Global memory -/

theorem issueLoad_canonical (u : Nat) (f : Flight) (c : ClauseRun) (r : OpRegs) (size : MemSize) (order : MemOrder)
    (as : List AddrOf) : EffCanonical (issueLoad s u f c r size order as) := by
  unfold issueLoad
  extract_lets s0 g
  have bounded : s0.Canonical := canonical_ite (boundary_canonical h ..) h
  clear_value s0 g
  have slots := bindReads_canonical g size as (usePages_canonical bounded g false (as.map (·.addr)))
  generalize bindReads g size as (s0.usePages g false (as.map (·.addr))) = p at slots ⊢
  obtain ⟨got, parked, t⟩ := p
  dsimp only at slots ⊢
  refine effCanonical_ite trivial (effCanonical_ite ?_ trivial)
  refine foldl_canonical _ (fun _ _ h => l1Touch_canonical h ..) _ _ ?_
  refine foldl_canonical _ (fun v q hv => ?_) _ _ (canonical_of_mem (issueEntry_mem ..) slots)
  split
  · exact canonical_of_mem (parkBind_mem ..) hv
  · exact hv

theorem issueStore_canonical (u : Nat) (f : Flight) (c : ClauseRun) (r : OpRegs) (d : BitVec 7) (size : MemSize)
    (order : MemOrder) (as : List AddrOf) : (issueStore s u f c r d size order as).Canonical := by
  unfold issueStore
  extract_lets s1 bytes sc
  have used : s1.Canonical := usePages_canonical h ..
  clear_value s1 bytes
  split
  next id t e =>
    have issued : t.Canonical := canonical_snd e (canonical_of_mem (issueEntry_mem ..) used)
    extract_lets t1 t2 t3 p
    have joined : t3.Canonical := canonical_of_mem (count_mem ..) <|
      foldl_canonical _ (fun _ _ h => l1Touch_canonical h ..) _ _
        (canonical_of_mem ((ownWrites_mem ..).trans (fixLoads_mem ..)) issued)
    clear_value t3
    refine canonical_ite (canonical_ite ?_ (publishAt_canonical joined ..)) joined
    unfold p
    exact modFlight_canonical (publish4_canonical joined ..) ..

theorem execLd_canonical (u : Bool) (d base : BitVec 7) (size : MemSize) (order : MemOrder) (off : BitVec 6) :
    ResCanonical (execLd u d base size order off s) := by
  refine runOp_canonical h fun w f c => ?_
  dsimp only
  refine effCanonical_ite trivial ?_
  split
  · exact failEff_canonical h ..
  · exact effCanonical_ite trivial (issueLoad_canonical h ..)

theorem execSt_canonical (u : Bool) (d base : BitVec 7) (size : MemSize) (order : MemOrder) (off : BitVec 6) :
    ResCanonical (execSt u d base size order off s) := by
  refine runOp_canonical h fun w f c => ?_
  extract_lets r as
  refine effCanonical_ite trivial ?_
  split
  · exact failEff_canonical h ..
  · refine effCanonical_ite trivial ?_
    generalize hp : (if order != .sync then ([], s) else if f.pubWait.isNone then s.boundary w f (some f.ctl.ordscope.toNat) none
      else ([], (s.setFlight w { f with pubWait := none }).performAll f.core)) = p
    obtain ⟨ids, t⟩ := p
    have bounded : t.Canonical :=
      canonical_snd hp (canonical_ite_snd h (canonical_ite_snd (boundary_canonical h ..) (performAll_canonical (by exact h) ..)))
    exact effCanonical_ite bounded (effCanonical_ite (issueStore_canonical bounded ..) trivial)

end
end Sys2Proof.Machine
end

section
namespace Sys2Proof.Machine

section
variable {s : State} (h : s.Canonical)
include h

omit h in
theorem canonical_of_done {e : Eff} (is : e = .done s) (he : EffCanonical e) : s.Canonical := by
  subst is
  exact he

theorem atomOp_canonical (post : Bool) (aop : AtomOp) (use : AtomUse) (d a : BitVec 7) (off : BitVec 5) :
    ResCanonical (atomOp post aop use d a off s) := by
  refine runOp_canonical h fun u f c => ?_
  extract_lets r as s1 reqs flag s2
  refine effCanonical_ite trivial ?_
  split
  · exact failEff_canonical h ..
  · refine effCanonical_ite trivial ?_
    have used : s1.Canonical := usePages_canonical h ..
    have recalled : s2.Canonical := foldl_canonical _ (fun _ _ h => by exact h) _ _ used
    clear_value s2
    split
    next id t e =>
      have issued : t.Canonical := canonical_snd e (canonical_of_mem (issueEntry_mem ..) recalled)
      have fixed := canonical_of_mem (fixLoads_mem t u false (reqs.map (fun q => (q.pa, q.pa + aop.bytes)))) issued
      exact effCanonical_ite (canonical_of_mem (count_mem ..) (canonical_ite fixed fixed)) trivial

theorem execAtoms_canonical (aop : AtomOp) (use : AtomUse) (d a : BitVec 7) (off : BitVec 5) :
    ResCanonical (execAtoms aop use d a off s) := by
  refine runOp_canonical h fun u f c => ?_
  extract_lets r as win reqs
  split
  · trivial
  · refine effCanonical_ite trivial ?_
    split
    next id t e =>
      have issued : t.Canonical := canonical_snd e (canonical_of_mem (issueEntry_mem ..) h)
      have fixed := canonical_of_mem (fixLoads_mem t u true (spans aop.bytes as)) issued
      exact canonical_of_mem (count_mem ..) (canonical_ite fixed fixed)

/-! ### The cluster store and constant space -/

theorem execLds_canonical (u : Bool) (d base : BitVec 7) (size : MemSize) (off : BitVec 6) :
    ResCanonical (execLds u d base size off s) := by
  refine runOp_canonical h fun u f c => ?_
  extract_lets r as
  split
  · trivial
  · refine effCanonical_ite trivial ?_
    exact canonical_of_mem ((count_mem ..).trans (issueEntry_mem ..)) h

theorem execSts_canonical (u : Bool) (d base : BitVec 7) (size : MemSize) (off : BitVec 6) :
    ResCanonical (execSts u d base size off s) := by
  refine runOp_canonical h fun w f c => ?_
  extract_lets r as win bytes
  split
  · trivial
  · refine effCanonical_ite trivial ?_
    split
    next id t e =>
      have issued : t.Canonical := canonical_snd e (canonical_of_mem (issueEntry_mem ..) h)
      refine retest_canonical (canonical_of_mem (count_mem ..) ?_)
      exact foldl_canonical _ (fun _ _ h => canonical_of_mem (winWrite_mem ..) h) _ _ (canonical_of_mem (fixLoads_mem ..) issued)

theorem execLdc_canonical (u : Bool) (d base : BitVec 7) (size : MemSize) (off : BitVec 6) :
    ResCanonical (execLdc u d base size off s) := by
  refine runOp_canonical h fun w f c => ?_
  extract_lets r as
  split
  · trivial
  · split
    · trivial
    · refine effCanonical_ite trivial ?_
      exact canonical_of_mem ((issueEntry_mem ..).trans (ldcReads_mem ..)) h

/-! ### Phases, barriers, arrivals and polls -/

theorem execPhase_canonical (scope : BitVec 5) : ResCanonical (execPhase scope s) := by
  refine runOp_canonical h fun u f c => ?_
  extract_lets n set finish
  have finished : ∀ {v : State}, v.Canonical → EffCanonical (finish v) :=
    fun hv => canonical_of_mem ((occupy_mem ..).trans (refresh_mem ..)) hv
  clear_value finish
  refine effCanonical_ite trivial (effCanonical_ite (finished h) (effCanonical_ite trivial ?_))
  split
  next ids t e =>
    have bounded : t.Canonical := canonical_snd e (boundary_canonical h ..)
    exact effCanonical_ite (finished bounded) bounded

theorem execBar_canonical : ResCanonical (execBar s) := by
  refine runOp_canonical h fun u f c => ?_
  refine effCanonical_ite trivial (effCanonical_ite trivial ?_)
  extract_lets s1 f1 go
  have bounded : s1.Canonical := boundary_canonical h ..
  clear_value s1 f1
  have numbered : s1.fresh.2.Canonical := bounded
  split
  next id t e =>
    have placed : t.Canonical := canonical_snd e numbered
    extract_lets entry f2
    clear_value f2
    exact barrierCheck_canonical (canonical_of_mem (occupy_mem ..) (by exact placed)) ..

theorem execExit_canonical : ResCanonical (execExit s) :=
  runOp_canonical h fun _ _ _ => exitThreads_canonical (canonical_of_mem (occupy_mem ..) h) ..

theorem execNap_canonical (n : BitVec 7) : ResCanonical (execNap n s) :=
  runOp_canonical h fun _ _ _ => effCanonical_ite trivial (canonical_of_mem (occupy_mem ..) h)

theorem execArrive_canonical (a : BitVec 7) : ResCanonical (execArrive a s) := by
  refine runOp_canonical h fun u f c => ?_
  extract_lets as win ahead s0 s1 s2 ms
  split
  · trivial
  · have performed : s0.Canonical := performWhere_canonical h ..
    have fixed : s1.Canonical := canonical_of_mem (fixLoads_mem ..) (boundary_canonical performed ..)
    clear_value s1
    have written : s2.Canonical := foldl_canonical _ (fun _ _ h => canonical_of_mem (winWrite_mem ..) h) _ _ fixed
    clear_value s2
    refine effCanonical_ite trivial (retest_canonical (canonical_of_mem ((countMeets_mem ..).trans (occupy_mem ..)) written))

theorem execAwait_canonical (a b : BitVec 7) : ResCanonical (execAwait a b s) := by
  refine runOp_canonical h fun u f c => ?_
  extract_lets as win go pass ms stays wait f1 f2 s1
  refine effCanonical_ite trivial ?_
  split
  · trivial
  · refine effCanonical_ite trivial ?_
    have left : s1.Canonical := canonical_of_mem ((countMeets_mem ..).trans (occupy_mem ..)) h
    clear_value s1
    refine effCanonical_ite trivial (canonical_ite ?_ left)
    split
    · exact boundary_canonical left ..
    · exact left

theorem execWaitge_canonical (scope : BitVec 5) (a b : BitVec 7) : ResCanonical (execWaitge scope a b s) := by
  refine runOp_canonical h fun u f c => ?_
  extract_lets as s1 f1 s2
  refine effCanonical_ite trivial (effCanonical_ite trivial ?_)
  split
  · exact failEff_canonical h ..
  · refine effCanonical_ite trivial ?_
    have used : s2.Canonical := usePages_canonical (boundary_canonical h ..) ..
    clear_value s2
    refine effCanonical_ite ?_ trivial
    exact foldl_canonical _ (fun _ _ h => l1Touch_canonical h ..) _ _
      (canonical_of_mem ((countMeets_mem ..).trans (occupy_mem ..)) used)

/-! ### Engines, tasks and collectives -/

theorem engEff_canonical (u : Nat) (f : Flight) (c : ClauseRun) (r : OpRegs) (cls : EClass) (flag : Nat) (e : Engine)
    (ms : List (Nat × Meet)) (dests : List Nat) : EffCanonical (engEff (issueEngine s u f c r cls flag e ms dests)) := by
  unfold engEff
  split
  · trivial
  · next issued => exact canonical_of_mem (issueEngine_mem issued) h

theorem copyRows_canonical (kind : EngKind) (gsrc gdst : Bool) (d a b : BitVec 7) :
    ResCanonical (copyRows kind gsrc gdst d a b s) := by
  refine runOp_canonical h fun u f c => effCanonical_ite trivial ?_
  split
  · trivial
  · exact engEff_canonical h ..

theorem execCopyG2v_canonical (d a b : BitVec 7) : ResCanonical (execCopyG2v d a b s) := by
  refine runOp_canonical h fun u f c => ?_
  extract_lets
  split
  refine effCanonical_ite trivial (effCanonical_ite trivial ?_)
  extract_lets
  split
  · trivial
  · trivial
  · exact engEff_canonical h ..

theorem execGath_canonical (d a b : BitVec 7) : ResCanonical (execGath d a b s) := by
  refine runOp_canonical h fun u f c => effCanonical_ite trivial ?_
  split
  · trivial
  · exact engEff_canonical h ..

theorem issueMatrix_canonical (u : Nat) (f : Flight) (c : ClauseRun) (r : OpRegs) (flag : Nat) (e : Engine)
    (ms : List (Nat × Meet)) (acquire : Bool) (after : Flight → Flight) :
    EffCanonical (issueMatrix s u f c r flag e ms acquire after) := by
  unfold issueMatrix
  refine effCanonical_ite trivial ?_
  split
  · exact h
  · extract_lets k s1
    have planes : s1.Canonical := canonical_ite h h
    clear_value s1
    split
    · trivial
    · next issued => exact canonical_of_mem (issueEngine_mem issued) planes

theorem execMfree_canonical : ResCanonical (execMfree s) := by
  refine runOp_canonical h fun u f c => ?_
  split
  · exact canonical_of_mem (occupy_mem ..) h
  · exact issueMatrix_canonical h ..

theorem moveOp_canonical (store : Bool) (a : BitVec 7) : ResCanonical (moveOp store a s) := by
  refine runOp_canonical h fun u f c => ?_
  dsimp only
  split
  · trivial
  · exact issueMatrix_canonical h ..

theorem mmaOp_canonical (kind : EngKind) (src : ASource) (form : MmaForm) (d a : BitVec 7) (scale : BitVec 5) (q : Bool) :
    ResCanonical (mmaOp kind src form d a scale q s) := by
  refine runOp_canonical h fun u f c => ?_
  extract_lets bd b ad am g owned rows tiles sRows us ar au aBad badCount trap nch e0 e adv
  clear_value trap e adv
  cases trap with
  | some t => trivial
  | none =>
    dsimp only
    split
    · next issued => exact canonical_of_mem (count_mem ..) (canonical_of_done issued (issueMatrix_canonical h ..))
    · exact issueMatrix_canonical h ..

theorem execSpawn_canonical (a : BitVec 7) (q : BitVec 3) : ResCanonical (execSpawn a q s) := by
  refine runOp_canonical h fun u f c => effCanonical_ite trivial (effCanonical_ite trivial ?_)
  split
  · trivial
  · exact effCanonical_ite trivial (engEff_canonical (boundary_canonical h ..) ..)

theorem fireOp_canonical (regs : Flight → OpRegs) (chunkOf : Gallery → Flight → ClauseRun → Option Nat) (indexed : Bool) :
    ResCanonical (fireOp s regs chunkOf indexed) := by
  refine runOp_canonical h fun u f c => ?_
  split
  · trivial
  · refine effCanonical_ite trivial (effCanonical_ite trivial ?_)
    extract_lets s1 f1 e
    have bounded : s1.Canonical := boundary_canonical h ..
    clear_value s1
    split
    · trivial
    · next issued =>
      have begun := canonical_of_mem (issueEngine_mem issued) bounded
      split
      · exact begun
      · split
        next fired t e =>
          have done : t.Canonical := canonical_snd e (canonical_of_mem (fire_mem ..) begun)
          exact canonical_ite (canonical_of_mem (count_mem ..) (by exact done)) done

/-! ### System operations -/

theorem execMcall_canonical (mac : BitVec 6) (p0 p1 : BitVec 7) (p2 : BitVec 6) : ResCanonical (execMcall mac p0 p1 p2 s) := by
  refine runOp_canonical h fun u f c => ?_
  split
  · trivial
  · exact canonical_of_mem (occupy_mem ..) h

theorem trapOp_canonical (code : TrapCode) (n : BitVec 7) : ResCanonical (trapOp code n s) :=
  runOp_canonical h fun _ _ _ => canonical_of_mem ((takeTrap_mem ..).trans (occupy_mem ..)) h

theorem execTrc_canonical (a : BitVec 7) (kind : BitVec 7) : ResCanonical (execTrc a kind s) :=
  runOp_canonical h fun _ _ _ => canonical_of_mem (occupy_mem ..) (foldl_canonical _ (fun _ _ h => canonical_of_mem (offer_mem ..) h) _ _ h)

theorem execPyield_canonical : ResCanonical (execPyield s) :=
  runOp_canonical h fun _ _ _ => effCanonical_ite trivial (canonical_of_mem (occupy_mem ..) h)

theorem execIpf_canonical (a : BitVec 7) : ResCanonical (execIpf a s) := by
  refine runOp_canonical h fun u f c => ?_
  extract_lets va reads
  split
  next drop t e =>
    have picked : t.Canonical := canonical_snd e (canonical_of_mem (pick_mem ..) h)
    exact effCanonical_ite (canonical_of_mem ((count_mem ..).trans (occupy_mem ..)) picked)
      (canonical_of_mem (occupy_mem ..) (by exact picked))

theorem execChkd_canonical (a : BitVec 7) (ty : SibType) (need : BitVec 5) (la : Bool) : ResCanonical (execChkd a ty need la s) :=
  runOp_canonical h fun _ _ _ => canonical_of_mem ((countMeets_mem ..).trans (occupy_mem ..)) h

end
end Sys2Proof.Machine
end

section
namespace Sys2Proof.Machine

/-! ## Task rings, engines and the fetch of code -/

section
variable {s : State} (h : s.Canonical)
include h

theorem writeRing_canonical (owner : Option Nat) (at_ : Nat) (r : List Byte) : (s.writeRing owner at_ r).Canonical :=
  placeBytes_canonical 384 r at_ (captureFor_canonical (captureFor_canonical h ..) ..)

theorem pushRing_canonical (owner : Option Nat) (context die q : Nat) (x : TaskSlot) (r : List Byte) :
    (s.pushRing owner context die q x r).Canonical := writeRing_canonical h ..

theorem refill_canonical (context die q : Nat) (x : TaskSlot) : (s.refill context die q x).Canonical :=
  canonical_ite (pushRing_canonical (by exact h) ..) h

theorem popRing_canonical (context die q : Nat) : (s.popRing context die q).Canonical := by
  unfold State.popRing
  dsimp only
  split
  · exact h
  · exact refill_canonical (by exact h) ..

theorem spawnPush_canonical {f : Flight} {core q : Nat} {r : List Byte} {t : State} (pushed : s.spawnPush f core q r = some t) :
    t.Canonical := by
  unfold State.spawnPush at pushed
  dsimp only at pushed
  split at pushed
  · split at pushed
    · cases pushed
      exact canonical_of_mem (countAt_mem ..) (pushRing_canonical h ..)
    · cases pushed
  · cases pushed

theorem spawnChunk_canonical {f : Flight} {core : Nat} {e : Engine} {n : Nat} {t : State}
    (pushed : spawnChunk s f core e n = some t) : t.Canonical := by
  unfold spawnChunk at pushed
  split at pushed
  · exact spawnPush_canonical h pushed
  · cases pushed
    exact h

theorem joinPush_canonical (f : Flight) (die q joinAt : Nat) (r : List Byte) : (s.joinPush f die q joinAt r).Canonical := by
  unfold State.joinPush
  split
  · refine canonical_ite h (canonical_ite (pushRing_canonical h ..) (canonical_ite ?_ h))
    exact canonical_ite (writeRing_canonical h ..) (writeRing_canonical h ..)
  · exact h

theorem tjoinOne_canonical (f : Flight) (e : Entry) (rs : List AtomReq) (ix : Nat) (r : AtomReq) :
    (tjoinOne f e rs s ix r).2.Canonical := by
  refine canonical_ite_snd h ?_
  have reached : (s.reach (clusterOf f.core) (r.pa / 64)).Canonical := reach_canonical h ..
  dsimp only
  split
  · exact reached
  · have performed := performAt_canonical reached f e .add32 true r
    generalize (s.reach (clusterOf f.core) (r.pa / 64)).performAt f e .add32 true r = p at performed ⊢
    exact canonical_ite_snd performed (joinPush_canonical performed ..)

omit h in
theorem tjoinAll_canonical (f : Flight) (e : Entry) (rs : List AtomReq) : ∀ (todo : List AtomReq) (n : Nat) {s : State},
    s.Canonical → (tjoinAll f e rs n todo s).2.Canonical
  | [], _, _, h => h
  | r :: rest, n, _, h => tjoinAll_canonical f e rs rest (n + 1) (tjoinOne_canonical h f e rs n r)

theorem performJoin_canonical (u id : Nat) : (s.performJoin u id).Canonical := by
  unfold State.performJoin
  split
  · exact h
  · split
    · exact tjoinAll_canonical _ _ _ _ 0 h
    · exact h

theorem execTjoin_canonical (a : BitVec 7) : ResCanonical (execTjoin a s) := by
  refine runOp_canonical h fun u f c => ?_
  extract_lets as s1 f1 s2 reqs
  split
  · exact failEff_canonical h ..
  · refine effCanonical_ite trivial ?_
    have used : s2.Canonical := usePagesAs_canonical (boundary_canonical h ..) ..
    clear_value s2
    split
    next id t e =>
      have issued : t.Canonical := canonical_snd e (canonical_of_mem (issueEntry_mem ..) used)
      exact effCanonical_ite (performJoin_canonical (canonical_of_mem (fixLoads_mem ..) issued) ..) trivial

/-! ### Chunks of the engines -/

theorem engineReach_canonical (f : Flight) (x : Entry) (pas vas : List Nat) : (s.engineReach f x pas vas).Canonical :=
  reachAll_canonical (usePagesAs_canonical h ..) ..

omit h in
/-- Memory is in canonical form where a chunk moves its bytes. -/
def ChunkCanonical : Chunk → Prop
  | .next _ t => t.Canonical
  | _ => True

theorem engineRead_canonical (core id : Nat) (pas : List Nat) : (engineRead core id pas s).2.Canonical :=
  canonical_of_mem (engineRead_mem ..) h

theorem winChunk_canonical (core : Nat) (f : Flight) (win off ev : Nat) (bs : List Byte) :
    ((s.winWrite win off bs).countAt core f ev 1).Canonical := canonical_of_mem ((countAt_mem ..).trans (winWrite_mem ..)) h

theorem copyChunk_canonical (f : Flight) (x : Entry) (e : Engine) (n : Nat) : ChunkCanonical (copyChunk s f x e n) := by
  unfold copyChunk
  extract_lets parts own row off len src dst
  split
  · split
    · exact winChunk_canonical (engineRead_canonical (engineReach_canonical h ..) ..) ..
    · trivial
    · trivial
  · split
    · exact canonical_of_mem (countAt_mem ..) (usePagesAs_canonical h ..)
    · trivial
    · trivial
  · exact winChunk_canonical h ..

theorem gathChunk_canonical (f : Flight) (x : Entry) (e : Engine) (n : Nat) : ChunkCanonical (gathChunk s f x e n) := by
  unfold gathChunk
  extract_lets len
  split
  · split
    · exact winChunk_canonical (engineRead_canonical (engineReach_canonical h ..) ..) ..
    · trivial
    · trivial
  · exact winChunk_canonical h ..
  · exact h

theorem g2vChunk_canonical (f : Flight) (x : Entry) (e : Engine) (n : Nat) : ChunkCanonical (g2vChunk s f x e n) := by
  unfold g2vChunk
  split
  · dsimp only
    split
    · exact canonical_of_mem (countAt_mem ..) (engineRead_canonical (engineReach_canonical h ..) ..)
    · trivial
    · trivial
  · exact h

theorem chunkEnd_canonical {u : Nat} {f : Flight} {x : Entry} {k : Chunk} (hk : ChunkCanonical k) {t : State}
    (ended : s.chunkEnd u f x k = some t) : t.Canonical := by
  cases k with
  | next e v =>
    obtain rfl := Option.some.inj ended
    exact retest_canonical (canonical_of_mem ((startFetches_mem ..).trans (finishIfLast_mem ..)) (by exact hk))
  | miss key a cause =>
    obtain ⟨_, parked⟩ := Option.ite_none_left_eq_some.mp ended
    obtain rfl := Option.some.inj parked
    exact canonical_of_mem (parkEngine_mem ..) h
  | stop code a =>
    obtain rfl := Option.some.inj ended
    exact retest_canonical (canonical_of_mem ((startFetches_mem ..).trans (stopEngine_mem ..)) h)

/-- A step of an engine keeps the canonical form, whatever it copies (R238, R291). -/
theorem engineStep_canonical {u : Nat} {f : Flight} {x : Entry} {e : Engine} {t : State}
    (stepped : s.engineStep u f x e = some t) : t.Canonical := by
  have finished : (s.finishEngine u x.id).Canonical := canonical_of_mem (finishEngine_mem ..) h
  unfold State.engineStep at stepped
  split at stepped
  · split at stepped
    · cases stepped
      exact finished
    · cases stepped
  · split at stepped
    · cases stepped
      exact finished
    · split at stepped
      · exact chunkEnd_canonical h (copyChunk_canonical h ..) stepped
      · exact chunkEnd_canonical h (copyChunk_canonical h ..) stepped
      · exact chunkEnd_canonical h (copyChunk_canonical h ..) stepped
      · exact chunkEnd_canonical h (gathChunk_canonical h ..) stepped
      · exact chunkEnd_canonical h (g2vChunk_canonical h ..) stepped
      · obtain ⟨v, pushed, rfl⟩ := Option.map_eq_some_iff.mp stepped
        have moved : v.Canonical := spawnChunk_canonical h pushed
        exact canonical_of_mem (finishIfLast_mem ..) (by exact moved)
      · cases stepped

theorem performChunk_canonical (u core q : Nat) (f : Flight) (x : Entry) (e : Engine) : (s.performChunk u core q f x e).Canonical := by
  unfold State.performChunk
  extract_lets moved p
  have kept : p.2.Canonical := by
    unfold p
    refine canonical_ite_snd h ?_
    exact canonical_of_mem (matrixChunk_mem s u f x.core e x.done) h
  clear_value p
  exact canonical_ite (retest_canonical (canonical_of_mem ((startFetches_mem ..).trans (finishEngine_mem ..)) (by exact kept))) kept

theorem stepMatrix_canonical (u core q : Nat) (f : Flight) (x : Entry) (e : Engine) : (s.stepMatrix u core q f x e).Canonical :=
  canonical_ite (performChunk_canonical h ..) (performChunk_canonical h ..)

theorem performSaved_canonical (f : Flight) (e : Entry) : (s.performSaved f e).2.Canonical := by
  unfold State.performSaved
  split
  · refine List.foldlRecOn (motive := fun a : List AtomReq × State => a.2.Canonical) _ _ h fun a ha p _ => ?_
    refine canonical_ite_snd ha ?_
    split
    · exact ha
    · exact performAt_canonical (reach_canonical ha ..) ..
  · exact h

/-! ### The fetch of code -/

omit h in
/-- Memory is in canonical form after a fetch that reads its clause or slips. -/
def FetchCanonical : Fetch → Prop
  | .clause _ _ t => t.Canonical
  | .slip t => t.Canonical
  | .fail _ => True

theorem codeWords_canonical (f : Flight) (va n : Nat) : (codeWords f va n s).2.Canonical := canonical_of_mem (codeWords_mem ..) h

theorem fetchClause_canonical (f : Flight) (group : List Nat) (va : Nat) : FetchCanonical (fetchClause s f group va) := by
  unfold fetchClause
  split
  · trivial
  · extract_lets s1
    have header : s1.Canonical := codePage_canonical h ..
    clear_value s1
    split
    · exact header
    · split
      next hw t e =>
        have read : t.Canonical := canonical_snd e (codeWords_canonical header ..)
        extract_lets w n s2
        have rest : s2.Canonical := codePage_canonical read ..
        clear_value s2
        split
        · trivial
        · split
          · exact rest
          · have words := codeWords_canonical rest f (va + 4) n
            generalize codeWords f (va + 4) n s2 = p at words ⊢
            exact words

theorem startAt_canonical (u : Nat) (f : Flight) (addr : Nat) : (startAt s u f addr).Canonical := by
  unfold startAt
  extract_lets group
  clear_value group
  split
  · exact h
  have fetched := fetchClause_canonical h f group addr
  generalize fetchClause s f group addr = p at fetched ⊢
  match p, fetched with
  | .fail (t, none), _ => exact canonical_of_mem (freezeTrap_mem ..) h
  | .fail (t, some key), _ => exact canonical_of_mem (missTrap_mem ..) h
  | .slip t, slipped => exact canonical_of_mem (count_mem ..) (by exact slipped)
  | .clause hw ws t, read => exact canonical_of_mem (tryStart_mem ..) read

/-- The start of a flight's next clause keeps the canonical form (R68). -/
theorem startNext_canonical (u : Nat) (f : Flight) : (startNext s u f).Canonical := by
  unfold startNext
  dsimp only
  split
  · exact canonical_of_mem (startBody_mem ..) h
  · exact startAt_canonical h ..
  · exact h

end
end Sys2Proof.Machine
end

section
namespace Sys2Proof.Machine

/-! ## The life of flights, galleries and contexts -/

section
variable {s : State} (h : s.Canonical)
include h

/-! ### Start and retirement -/

theorem retire_canonical (u : Nat) (f : Flight) : (s.retire u f).Canonical := by
  unfold State.retire
  extract_lets s1 f1 s2 s3
  have bounded : s1.Canonical := boundary_canonical h ..
  have left : s2.Canonical :=
    canonical_of_mem ((keepSig_mem ..).trans ((flightEvent_mem ..).trans ((count_mem ..).trans (releaseUnit_mem ..)))) bounded
  have gone : s3.Canonical := left
  clear_value s3
  exact canonical_of_mem ((dropStore_mem ..).trans (leaveHall_mem ..)) gone

theorem startFlight_canonical (u : Nat) : (s.startFlight u).Canonical := by
  unfold State.startFlight
  split
  · exact h
  · exact canonical_of_mem (flightEvent_mem ..) (by exact boundary_canonical h ..)

/-! ### Queue records -/

theorem takeRecord_canonical (q kind : Nat) : (s.takeRecord q kind).Canonical :=
  externalWrite_canonical (by exact h) ..

theorem completeRecord_canonical (q : Nat) (d : Done) : (s.completeRecord q d).Canonical := by
  unfold State.completeRecord
  extract_lets x e s1
  have written : s1.Canonical := externalWrite_canonical h ..
  clear_value s1
  exact written

theorem refuseRecord_canonical (q kind tag status : Nat) : (s.refuseRecord q kind tag status).Canonical :=
  completeRecord_canonical (takeRecord_canonical h ..) ..

theorem refuseLaunch_canonical (q : Nat) (raw : List Byte) (bad : List Nat) : (s.refuseLaunch q raw bad).Canonical := by
  unfold State.refuseLaunch
  split
  next i t e =>
    have picked : t.Canonical := canonical_snd e (canonical_of_mem (pick_mem ..) h)
    exact refuseRecord_canonical (canonical_of_mem ((announceRefusal_mem ..).trans (spendSession_mem ..)) picked) ..

theorem markPages_canonical (context : Nat) (write : Bool) (m : NMap Nat) : (markPages s context write m).Canonical := by
  refine foldl_canonical _ (fun t p ht => ?_) _ _ h
  dsimp only
  split
  · exact canonical_ite ht (externalUpdate_canonical ht ..)
  · exact ht

theorem acceptLaunch_canonical (q : Nat) (raw : List Byte) (r : LaunchRec) (d : Desc) (b : Blocks) :
    (s.acceptLaunch q raw r d b).Canonical := by
  unfold State.acceptLaunch
  extract_lets x
  split
  next gid t e =>
    have marked : t.Canonical := canonical_snd e (by exact markPages_canonical h ..)
    extract_lets s2
    have placed : s2.Canonical := by
      unfold s2
      split
      · exact marked
      · exact canonical_of_mem (meetEarly_mem ..) (by exact marked)
    clear_value s2
    exact takeRecord_canonical (by exact canonical_of_mem (armSession_mem ..) placed) ..

theorem actSignal_canonical {q : Nat} {r : Taken} {t : State} (acted : s.actSignal q r = some t) : t.Canonical := by
  unfold State.actSignal at acted
  extract_lets x addr declined at acted
  split at acted
  · obtain rfl := Option.some.inj acted
    exact completeRecord_canonical h ..
  · exact canonical_of_mem (parkRecord_mem acted) h
  · next m _ =>
    extract_lets s1 s2 at acted
    have written : s1.Canonical := externalWrite_canonical (markPages_canonical h ..) ..
    clear_value s1
    have told : s2.Canonical := canonical_ite written written
    clear_value s2
    obtain rfl := Option.some.inj acted
    exact completeRecord_canonical told ..

/-! ### Galleries -/

theorem settleRaces_canonical (id : Nat) : (s.settleRaces id).Canonical := by
  unfold State.settleRaces
  extract_lets raced
  refine foldl_canonical _ (fun t u ht => ?_) _ _ h
  split
  next i v e =>
    have picked : v.Canonical := canonical_snd e (canonical_of_mem (pick_mem ..) ht)
    exact canonical_ite picked (foldl_canonical _ (fun _ _ h => engineWrite_canonical h ..) _ _ picked)

theorem finishGallery_canonical (gid : Nat) (g : Gallery) (status : Nat) : (s.finishGallery gid g status).Canonical := by
  unfold State.finishGallery
  extract_lets s1 s2 mine s3
  have raced : s1.Canonical := by
    unfold s1
    split
    · exact settleRaces_canonical h ..
    · exact h
  clear_value s1
  have completed : s2.Canonical := completeRecord_canonical raced ..
  clear_value s2
  exact completed

theorem publishGallery_canonical (g : Gallery) : (s.publishGallery g).2.Canonical := by
  unfold State.publishGallery
  exact List.foldlRecOn (motive := fun p : List Nat × State => p.2.Canonical) _ _ h fun p hp c _ => by
    dsimp only
    exact publishWhole_canonical hp c

theorem publishThenFinish_canonical (gid : Nat) (g : Gallery) : (s.publishThenFinish gid g).Canonical := by
  unfold State.publishThenFinish
  extract_lets p
  have published : p.2.Canonical := publishGallery_canonical h g
  clear_value p
  exact canonical_ite h (canonical_ite (finishGallery_canonical published ..) published)

/-! ### Saved contexts -/

theorem settleAtomics_canonical (u : Nat) (f : Flight) : (s.settleAtomics u f).Canonical := by
  unfold State.settleAtomics
  extract_lets s1 p
  have performed : s1.Canonical := performWhere_canonical h ..
  exact performed

theorem settleAtoms_canonical (u : Nat) (f : Flight) : (s.settleAtoms u f).Canonical := by
  refine retest_canonical (foldl_canonical _ (fun t e ht => ?_) _ _ (performWhere_canonical h ..))
  split
  · exact canonical_of_mem (returnAtom_mem ..) ht
  · exact ht

theorem settleMatrix_canonical (u : Nat) (f : Flight) : (s.settleMatrix u f).Canonical := by
  unfold State.settleMatrix
  split
  · refine canonical_ite h ?_
    split
    · split
      · exact canonical_ite (performChunk_canonical h ..) h
      · exact h
    · exact h
  · exact h

theorem settleWrites_canonical (f : Flight) : (s.settleWrites f).Canonical :=
  foldl_canonical _ (fun _ _ h => settleWrite_canonical h ..) _ _ h

theorem saveFlight_canonical (light : Bool) (u : Nat) : (s.saveFlight light u).Canonical := by
  unfold State.saveFlight
  split
  · exact h
  · next f0 _ =>
    extract_lets s1 s2 s3 f planes s4 v v1 s5 s6
    have atomics : s1.Canonical := settleAtomics_canonical h ..
    have atoms : s2.Canonical := settleAtoms_canonical atomics ..
    have matrix : s3.Canonical := settleMatrix_canonical atoms ..
    clear_value s3 f
    have settled : (s3.settleWrites f).Canonical := settleWrites_canonical matrix f
    have writes : s4.Canonical :=
      canonical_of_mem ((flightEvent_mem ..).trans (releaseUnit_mem ..)) (by exact settled)
    have removed : s5.Canonical := writes
    clear_value s5
    have windows : s6.Canonical := by
      unfold s6
      split
      · exact canonical_of_mem (saveWindow_mem ..) removed
      · exact removed
    clear_value s6
    exact canonical_of_mem (dropStore_mem ..) windows

theorem writeArea_canonical (context : Nat) : (s.writeArea context).Canonical := by
  unfold State.writeArea
  split
  · exact h
  · exact externalWrite_canonical h ..

theorem settleSaved_canonical {v : Saved} {t : State} (settled : s.settleSaved v = some t) : t.Canonical := by
  obtain ⟨_, is⟩ := Option.ite_none_right_eq_some.mp settled
  obtain rfl := Option.some.inj is
  exact foldl_canonical _ (fun _ _ h => settleWrites_canonical h ..) _ _ h

theorem resumable_canonical {context : Nat} {v : Saved} {t : State} (may : s.resumable context = some (v, t)) : t.Canonical := by
  unfold State.resumable at may
  extract_lets x alone older reported current live at may
  clear_value current reported
  split at may
  · cases may
    exact h
  · split at may
    · split at may
      · obtain ⟨w, settled, is⟩ := Option.map_eq_some_iff.mp may
        cases is
        exact settleSaved_canonical h settled
      · cases may
    · cases may

theorem rejoin_canonical (u : Nat) : (s.rejoin u).Canonical := by
  unfold State.rejoin
  split
  · exact h
  · next f _ =>
    extract_lets s1 s2
    have refreshed : s1.Canonical := refresh_canonical (drain_canonical h ..) ..
    clear_value s1
    have adopted : s2.Canonical := foldl_canonical _ (fun _ _ h => canonical_of_mem (adopt_mem ..) h) _ _ refreshed
    clear_value s2
    exact canonical_of_mem (flightEvent_mem ..) (by exact adopted)

end
end Sys2Proof.Machine
end

section
namespace Sys2Proof.Machine

/-! ## Resumption, missing pages, collectives and the fabric -/

section
variable {s : State} (h : s.Canonical)
include h

/-! ### Replay of held entries -/

omit h in
/-- Memory is in canonical form after an entry that is performed again. -/
def AgainCanonical : Again → Prop
  | .ok _ t => t.Canonical
  | _ => True

omit h in
theorem againCanonical_ite {b : Prop} [Decidable b] {p q : Again} (hp : AgainCanonical p) (hq : AgainCanonical q) :
    AgainCanonical (if b then p else q) := by
  split
  · exact hp
  · exact hq

theorem againLd_canonical (u : Nat) (f : Flight) (e : Entry) (size : MemSize) (order : MemOrder) (uni : Bool) (dests : List Nat) :
    AgainCanonical (againLd s u f e size order uni dests) := by
  unfold againLd
  extract_lets as t
  split
  · trivial
  · refine againCanonical_ite trivial ?_
    have bounded : t.Canonical := canonical_ite (boundary_canonical h ..) h
    clear_value t
    have slots := bindReads_canonical f size as (usePagesAs_canonical bounded f e.core true false (as.map (·.addr)))
    generalize bindReads f size as (t.usePagesAs f e.core true false (as.map (·.addr))) = p at slots ⊢
    obtain ⟨got, parked, v⟩ := p
    refine againCanonical_ite trivial ?_
    exact foldl_canonical _ (fun _ _ h => canonical_of_mem (parkBind_mem ..) h) _ _ slots

theorem againI_canonical (u : Nat) (f : Flight) (e : Entry) : AgainCanonical (againI s u f e) := by
  unfold againI
  extract_lets dests
  split
  · exact h
  · exact againLd_canonical h ..
  · exact againCanonical_ite trivial h
  · split
    · exact h
    · exact canonical_of_mem (ldcReads_mem ..) h
  · exact h

omit h in
theorem replayOn_canonical (u : Nat) : ∀ (n : Nat) {s : State}, s.Canonical → (s.replayOn u n).Canonical
  | 0, _, h => h
  | n + 1, s, h => by
    have marked : ∀ {v : State} (f : Flight) (e : Entry) (pay : Payload), v.Canonical → (v.markAgain u f e pay).Canonical :=
      fun _ _ _ hv => canonical_of_mem (markAgain_mem ..) hv
    unfold State.replayOn
    split
    · exact h
    · next f e _ =>
      refine canonical_ite h ?_
      split
      · exact h
      · exact replayOn_canonical u n (marked f e e.pay h)
      · extract_lets q s1 s2
        have held : s1.Canonical := marked f e e.pay h
        clear_value s1
        have queued : s2.Canonical := canonical_ite (canonical_of_mem (startFetches_mem ..) (by exact held)) held
        clear_value s2
        exact canonical_ite h (replayOn_canonical u n queued)
      · have again := againI_canonical h u f e
        generalize againI s u f e = a at again ⊢
        cases a with
        | ok pay t => exact replayOn_canonical u n (marked f e pay again)
        | fail t key => exact canonical_of_mem (againTrap_mem ..) h
        | none => exact h

theorem replay_canonical (u : Nat) : (s.replay u).Canonical := by
  unfold State.replay
  split
  · exact h
  · exact completeBarrier_canonical (replayOn_canonical u _ h) u

/-- What waits is tried again (R247). -/
theorem retryWaits_canonical : s.retryWaits.Canonical := by
  unfold State.retryWaits
  extract_lets us s1 waits
  have due : (us.foldl State.takeDue s).Canonical := foldl_canonical _ (fun _ _ h => canonical_of_mem (takeDue_mem ..) h) _ _ h
  have replayed : s1.Canonical := foldl_canonical _ (fun _ _ h => replay_canonical h _) _ _ due
  clear_value s1
  exact retest_canonical (foldl_canonical _ (fun _ _ h => completeBarrier_canonical h _) _ _ replayed)

theorem resend_canonical (u : Nat) (f : Flight) (e : Entry) : (s.resend u f e).Canonical := by
  unfold State.resend
  extract_lets x put
  have held : ∀ y, (put s y).Canonical := fun _ => h
  clear_value put
  split
  · dsimp only
    exact settle_canonical (canonical_of_mem ((ownWrites_mem ..).trans (adopt_mem ..)) (held _)) ..
  · exact performWhere_canonical (held _) ..
  · exact performJoin_canonical (held _) ..
  · exact held _

/-! ### Missing pages -/

theorem thaw_canonical (u : Nat) : (s.thaw u).Canonical := by
  unfold State.thaw
  split
  · exact canonical_ite (replay_canonical (canonical_of_mem (unfreezeTrap_mem ..) h) ..) h
  · split
    · exact canonical_ite h h
    · exact h

theorem rereadSlot_canonical (u id slot : Nat) : (s.rereadSlot u id slot).Canonical := by
  unfold State.rereadSlot
  split
  · extract_lets p
    have read : p.2.Canonical := readSlot_canonical h ..
    clear_value p
    exact read
  · exact h

theorem releaseParked_canonical (p : Parked) : (s.releaseParked p).Canonical := by
  cases p with
  | flight u r => exact thaw_canonical h u
  | engine u id => exact h
  | bind u id slot => exact rereadSlot_canonical h ..
  | queue q n => exact h

theorem releaseKey_canonical (key : MissKey) (die : Nat) : (s.releaseKey key die).Canonical :=
  foldl_canonical _ (fun _ _ h => releaseParked_canonical h _) _ _ (by exact h)

theorem stopNext_canonical (u id : Nat) (code : TrapCode) : (s.stopNext u id code).Canonical := by
  unfold State.stopNext
  split
  · split
    · exact retest_canonical (canonical_of_mem ((startFetches_mem ..).trans (stopEngine_mem ..)) h)
    · exact h
  · exact h

theorem declineParked_canonical (key : MissKey) (p : Parked) : (s.declineParked key p).Canonical := by
  cases p with
  | flight u r => exact canonical_of_mem (ownTrap_mem ..) h
  | engine u id => exact stopNext_canonical h ..
  | bind u id slot => exact canonical_of_mem (zeroSlot_mem ..) h
  | queue q n => exact h

theorem declineKey_canonical (key : MissKey) (die : Nat) : (s.declineKey key die).Canonical :=
  foldl_canonical _ (fun _ _ h => declineParked_canonical h ..) _ _ (by exact h)

/-! ### Collectives -/

theorem readSegment_canonical (die id : Nat) (c : Coll) (chunk : Nat) : (s.readSegment die id c chunk).Canonical := by
  unfold State.readSegment
  extract_lets g va n
  split
  · exact canonical_of_mem (failColl_mem ..) h
  · exact h
  · next m _ =>
    extract_lets s1
    have reached : s1.Canonical := reachAll_canonical (markPages_canonical h ..) ..
    clear_value s1
    split
    next bs t e =>
      have read : t.Canonical := canonical_snd e (canonical_of_mem (readTile_mem ..) reached)
      exact canonical_of_mem (sendSegment_mem ..) read

omit h in
theorem writeTile_canonical (id fired : Nat) : ∀ (n : Nat) (bs : List (Nat × Byte)) {s : State}, s.Canonical →
    (State.writeTile id fired n bs s).Canonical
  | 0, _, _, h => h
  | _ + 1, [], _, h => h
  | n + 1, b :: bs, s, h => by
    unfold State.writeTile
    extract_lets us raced
    split
    next i t e =>
      have picked : t.Canonical := canonical_snd e (canonical_of_mem (pick_mem ..) h)
      exact writeTile_canonical id fired n _
        (canonical_ite (foldl_canonical _ (fun _ _ h => engineWrite_canonical h ..) _ _ picked) picked)

theorem writeSegment_canonical (die id : Nat) (c : Coll) (rank chunk addr : Nat) :
    (s.writeSegment die id c rank chunk addr).Canonical := by
  unfold State.writeSegment
  extract_lets key g va gone
  split
  · exact canonical_of_mem (failColl_mem ..) h
  · exact h
  · extract_lets cells s1 s2
    have reached : s1.Canonical := reachAll_canonical (markPages_canonical h ..) ..
    have written : s2.Canonical := writeTile_canonical _ _ _ _ reached
    clear_value s2
    exact written
  · exact h

theorem doWork_canonical (die id : Nat) (c : Coll) (w : Work) : (s.doWork die id c w).Canonical := by
  cases w with
  | read k => exact readSegment_canonical h ..
  | write r k a => exact writeSegment_canonical h ..

/-! ### The fabric and its windows -/

theorem dropRoute_canonical (port : Nat) : (s.dropRoute port).Canonical :=
  canonical_ite h (foldl_canonical _ (fun _ _ h => externalUpdate_canonical h ..) _ _ h)

omit h in
theorem pageWrite_canonical (m : NMap Nat) : ∀ (bs : List Byte) (va : Nat) {s : State}, s.Canonical → (s.pageWrite m va bs).Canonical
  | [], _, _, h => h
  | _ :: bs, _, _, h => pageWrite_canonical m bs _ (agentWrite_canonical _ _ _ h)

theorem windowWrite_canonical (ident context : Nat) (ws : List MemWin) (va : Nat) (data : List Byte) :
    (windowWrite s ident context ws va data).Canonical := by
  unfold windowWrite
  split
  · exact pageWrite_canonical _ _ _ (reachAll_canonical (markPages_canonical h ..) ..)
  · exact h

theorem windowRead_canonical (ident context : Nat) (ws : List MemWin) (va n : Nat) : (windowRead s ident context ws va n).Canonical := by
  unfold windowRead
  split
  · extract_lets t
    have reached : t.Canonical := reachAll_canonical (markPages_canonical h ..) ..
    clear_value t
    exact reached
  · exact h

/-! ### Sessions and the trace -/

theorem preparePass_canonical (q : Nat) (z : Session) (gid : Nat) (g : Gallery) : (s.preparePass q z gid g).Canonical := by
  unfold State.preparePass
  extract_lets p s1 taken s2 s3 s4 z1
  have restored : s2.Canonical :=
    canonical_ite (externalWrite_canonical (by exact h) ..) (foldl_canonical _ (fun _ _ h => externalWrite_canonical h ..) _ _ h)
  have dropped : s3.Canonical := restored
  clear_value s3
  have cold : s4.Canonical := foldl_canonical _ (fun _ _ h => by exact h) _ _ dropped
  exact cold

theorem putRecord_canonical (die stamp : Nat) (ws : List Nat) : (s.putRecord die stamp ws).Canonical := by
  unfold State.putRecord
  extract_lets k t s1
  have written : s1.Canonical := externalWrite_canonical h ..
  clear_value s1
  exact written

theorem putTimed_canonical (die stamp w0 w1 w2 w3 : Nat) : (s.putTimed die stamp w0 w1 w2 w3).Canonical :=
  putRecord_canonical (canonical_ite (putRecord_canonical h ..) h) ..

theorem flushLost_canonical (die stamp : Nat) : (s.flushLost die stamp).Canonical := by
  unfold State.flushLost
  extract_lets t s1 k
  have timed : s1.Canonical := putTimed_canonical h ..
  clear_value s1
  exact canonical_ite h timed

theorem writeRecord_canonical (die : Nat) (r : TraceRec) : (s.writeRecord die r).Canonical := by
  unfold State.writeRecord
  extract_lets t s1 k1 k
  have timed : s1.Canonical := putTimed_canonical h ..
  clear_value s1
  exact canonical_ite timed (canonical_of_mem (countLost_mem ..) h)

theorem sieveRecord_canonical (die : Nat) (r : TraceRec) : (s.sieveRecord die r).Canonical := by
  unfold State.sieveRecord
  extract_lets k t
  split
  split
  extract_lets s1 s2 s3
  have fired : s2.Canonical := foldl_canonical _ (fun _ _ h => canonical_of_mem (fireTrigger_mem ..) h) _ _ (by exact h)
  clear_value s2
  have kept : s3.Canonical := canonical_ite (writeRecord_canonical fired ..) fired
  clear_value s3
  exact canonical_ite kept kept

/-! ## What a step answers -/

theorem banked_canonical {t : State} (ht : t.Canonical) : ResCanonical (s.banked t) := resCanonical_ite ht h

theorem onFlight_canonical (u : Nat) (ok : Flight → Bool) {k : Flight → State} (hk : ∀ f, (k f).Canonical) :
    ResCanonical (onFlight s u ok k) := by
  unfold onFlight
  split
  · exact h
  · exact resCanonical_ite (hk _) h

theorem onEntry_canonical (u id : Nat) (ok : Flight → Entry → Bool) {k : Flight → Entry → State} (hk : ∀ f e, (k f e).Canonical) :
    ResCanonical (onEntry s u id ok k) := by
  unfold onEntry
  split
  · exact h
  · exact resCanonical_ite (hk _ _) h

/-- A service of the control core that does not run leaves memory alone; one that does is what its own step makes of the state. -/
theorem service_canonical (ver : Nat) {k : State → State} (hk : (k s).Canonical) : ResCanonical (service s ver k) :=
  resCanonical_ite h (canonical_ite hk h)

theorem onHeld_canonical (ver flight : Nat) {k : State → Option Nat → Flight → State} (hk : ∀ o f, (k s o f).Canonical) :
    ResCanonical (onHeld s ver flight k) := by
  refine service_canonical h ver ?_
  split
  · exact canonical_ite (hk _ _) h
  · exact canonical_ite (hk _ _) h
  · exact h

theorem readError_canonical (u : Nat) : ResCanonical (readError s u) := by
  unfold readError
  split
  · exact h
  · split
    · exact h
    · split
      · split
        · exact canonical_of_mem (takeTrap_mem ..) h
        · exact h
      · exact h

theorem freezeService_canonical (ver context : Nat) (flight : Option Nat) (on : Bool) :
    ResCanonical (freezeService ver context flight on s) := by
  refine service_canonical h ver (canonical_ite h ?_)
  split
  · exact h
  · split
    · exact canonical_ite h h
    · exact canonical_ite h h
    · exact h

end
end Sys2Proof.Machine
end

section
namespace Sys2Proof.Machine

/-! ## Steps of the cores, the queues and the contexts -/

section
variable {s : State} (h : s.Canonical)
include h

/-! ### Flights -/

theorem execClauseStart_canonical : ResCanonical (execClauseStart s) := by
  unfold execClauseStart
  split
  · exact h
  · exact resCanonical_ite h (startNext_canonical h ..)

theorem execFairnessTimerExpiry_canonical : ResCanonical (execFairnessTimerExpiry s) := by
  unfold execFairnessTimerExpiry
  split
  · exact h
  · split
    · exact h
    · extract_lets g
      split
      · exact h
      · exact canonical_of_mem (count_mem ..) h

theorem execLoadComplete_canonical (flight entry : Nat) : ResCanonical (execLoadComplete flight entry s) :=
  onEntry_canonical h _ _ _ fun _ _ => canonical_ite h h

theorem execAtomicPerform_canonical (flight entry : Nat) : ResCanonical (execAtomicPerform flight entry s) := by
  unfold execAtomicPerform
  split
  · exact resCanonical_ite (performEntry_canonical h ..) h
  · split
    · exact h
    · split
      · exact h
      · extract_lets p q
        have performed : p.2.Canonical := performSaved_canonical h ..
        clear_value p
        exact resCanonical_ite (canonical_of_mem (modSaved_mem ..) (by exact performed)) h

theorem execAtomReturn_canonical (flight entry : Nat) : ResCanonical (execAtomReturn flight entry s) :=
  onEntry_canonical h _ _ _ fun _ _ => canonical_of_mem (returnAtom_mem ..) h

theorem execLeaseRecall_canonical (cluster line : Nat) : ResCanonical (execLeaseRecall cluster line s) := by
  refine resCanonical_ite h ?_
  extract_lets t k
  have performed : t.Canonical := performWhere_canonical h ..
  clear_value t
  exact resCanonical_ite performed h

theorem execEngineChunk_canonical (flight entry : Nat) : ResCanonical (execEngineChunk flight entry s) := by
  unfold execEngineChunk
  split
  · exact h
  · split
    · refine resCanonical_ite h ?_
      split
      · next t stepped =>
        have moved : t.Canonical := engineStep_canonical h stepped
        exact banked_canonical h (by exact moved)
      · exact h
    · exact h

theorem execMatrixUnitOperation_canonical (core quarter : Nat) : ResCanonical (execMatrixUnitOperation core quarter s) := by
  unfold execMatrixUnitOperation
  extract_lets k
  split
  · exact h
  · refine resCanonical_ite h ?_
    split
    · exact h
    · split
      · exact resCanonical_ite h (resCanonical_ite h (stepMatrix_canonical h ..))
      · exact h

theorem execNapEnd_canonical (flight : Nat) : ResCanonical (execNapEnd flight s) := onFlight_canonical h _ _ fun _ => h

theorem execFlightOverdue_canonical (flight : Nat) : ResCanonical (execFlightOverdue flight s) := onFlight_canonical h _ _ fun _ => h

theorem execThrottleWindowEnd_canonical (core quarter : Nat) : ResCanonical (execThrottleWindowEnd core quarter s) :=
  resCanonical_ite h h

theorem execIcacheFill_canonical (flight : Nat) : ResCanonical (execIcacheFill flight s) := by
  refine onFlight_canonical h _ _ fun f => ?_
  extract_lets s1
  have filled : s1.Canonical := by
    unfold s1
    split
    · exact h
    · exact h
  exact filled

theorem execInstabilityDelivery_canonical (flight : Nat) : ResCanonical (execInstabilityDelivery flight s) := by
  refine onFlight_canonical h _ _ fun f => ?_
  extract_lets handler n g exp s1
  have reported : ∀ c (t : State), t.Canonical → (reportRecords t flight c).Canonical :=
    fun _ _ ht => canonical_of_mem (reportRecords_mem ..) ht
  have counted : s1.Canonical := canonical_of_mem ((count_mem ..).trans (count_mem ..)) h
  clear_value s1
  exact canonical_ite (foldl_canonical _ (fun t c ht => reported c t ht) _ _ (by exact h)) (canonical_ite h counted)

theorem execFlightRetirement_canonical (flight : Nat) : ResCanonical (execFlightRetirement flight s) := by
  refine onFlight_canonical h _ _ fun f => ?_
  split
  · exact canonical_of_mem (deliverLate_mem ..) h
  · exact canonical_ite h (canonical_ite (retire_canonical h ..) (canonical_ite h (boundary_canonical h ..)))

theorem execWaitgePollReturn_canonical (flight poll : Nat) : ResCanonical (execWaitgePollReturn flight poll s) := by
  unfold execWaitgePollReturn
  split
  · exact h
  · extract_lets stay g hold s1 s2
    have sampled : s2.Canonical := foldl_canonical _ (fun _ _ h => by exact h) _ _ (by exact h)
    clear_value s2
    exact canonical_of_mem (count_mem ..) sampled

theorem execStoreAcknowledgement_canonical (flight entry : Nat) : ResCanonical (execStoreAcknowledgement flight entry s) := by
  unfold execStoreAcknowledgement
  split
  · exact onEntry_canonical h _ _ _ fun _ _ => canonical_of_mem (reached_mem ..) h
  · split
    · exact h
    · split
      · exact h
      · extract_lets t settled
        have done : t.Canonical := by
          unfold t
          split
          · exact settleWrite_canonical h ..
          · exact h
        clear_value t
        clear_value settled
        exact resCanonical_ite (canonical_of_mem (modSaved_mem ..) done) h

theorem execYieldPeriodEnd_canonical (flight : Nat) : ResCanonical (execYieldPeriodEnd flight s) := onFlight_canonical h _ _ fun _ => h

/-! ### Queues and galleries -/

theorem execDoorbell_canonical (q : Nat) (origin : DoorbellOrigin) (nbytes : Nat) (tail : BitVec 32) (key : BitVec 64) :
    ResCanonical (execDoorbell q origin nbytes tail key s) := by
  unfold execDoorbell
  extract_lets x t n s0 s1 k s2
  clear_value t n x
  have reached : s0.Canonical := reachAll_canonical h ..
  clear_value s0
  have taken : s1.Canonical := canonical_of_mem (State.setQueue_mem ..) reached
  clear_value s1
  have tasked : s2.Canonical := canonical_ite (canonical_of_mem (State.setCtxt_mem ..) taken) taken
  clear_value s2
  refine resCanonical_ite h (resCanonical_ite ?_ h)
  exact banked_canonical h (externalWrite_canonical tasked ..)

theorem execLaunchRecord_canonical (q : Nat) : ResCanonical (execLaunchRecord q s) := by
  unfold execLaunchRecord
  split
  · exact h
  · refine resCanonical_ite h ?_
    split
    · exact banked_canonical h (refuseRecord_canonical (canonical_ite (canonical_of_mem (spendSession_mem ..) h) h) ..)
    · extract_lets r k
      split
      · exact banked_canonical h (refuseLaunch_canonical h ..)
      · split
        · next parked => exact canonical_of_mem (parkRecord_mem parked) h
        · exact h
      · exact banked_canonical h (acceptLaunch_canonical h ..)
      · exact banked_canonical h (refuseLaunch_canonical h ..)
    · exact h

theorem execBarrierRecord_canonical (q : Nat) : ResCanonical (execBarrierRecord q s) := by
  unfold execBarrierRecord
  split
  · exact resCanonical_ite (banked_canonical h (completeRecord_canonical h ..)) h
  · split
    · exact h
    · refine resCanonical_ite h (resCanonical_ite (banked_canonical h (refuseRecord_canonical h ..)) ?_)
      have taken := takeRecord_canonical h q 2
      exact banked_canonical h (canonical_ite (completeRecord_canonical taken ..) taken)

theorem execSignalRecord_canonical (q : Nat) : ResCanonical (execSignalRecord q s) := by
  have acted : ∀ {v t : State}, v.Canonical → (v.signalReady q).bind (v.actSignal q) = some t → t.Canonical := by
    intro v t hv is
    obtain ⟨_, _, act⟩ := Option.bind_eq_some_iff.mp is
    exact actSignal_canonical hv act
  unfold execSignalRecord
  split
  · next act => exact banked_canonical h (acted h act)
  · split
    · exact h
    · refine resCanonical_ite h (resCanonical_ite (banked_canonical h (refuseRecord_canonical h ..)) ?_)
      extract_lets s1
      have taken : s1.Canonical := takeRecord_canonical h q 3
      clear_value s1
      refine banked_canonical h ?_
      cases act : (s1.signalReady q).bind (s1.actSignal q) with
      | none => exact taken
      | some t => exact acted taken act

theorem execWingPlacement_canonical (gallery : Nat) : ResCanonical (execWingPlacement gallery s) := by
  unfold execWingPlacement
  split
  · exact h
  · refine resCanonical_ite h ?_
    split
    · exact h
    · split
      next w t e =>
        have numbered : t.Canonical := canonical_snd e (by exact h)
        extract_lets win s2
        have windowed : s2.Canonical := canonical_ite numbered numbered
        clear_value s2 win
        split
        next g1 t3 e3 =>
          have placed : t3.Canonical := canonical_snd e3 (canonical_of_mem (placeHalls_mem ..) windowed)
          exact placed

theorem execHallStart_canonical (gallery hall : Nat) : ResCanonical (execHallStart gallery hall s) := by
  unfold execHallStart
  split
  · exact h
  · extract_lets waiting
    clear_value waiting
    have started := foldl_canonical State.startFlight (fun _ _ h => startFlight_canonical h _)
    exact resCanonical_ite (started _ _ h) h

theorem execBulkGalleryAgeing_canonical (gallery : Nat) : ResCanonical (execBulkGalleryAgeing gallery s) := by
  unfold execBulkGalleryAgeing
  split
  · exact h
  · exact resCanonical_ite h h

theorem execTaskPop_canonical (context core quarter : Nat) : ResCanonical (execTaskPop context core quarter s) := by
  unfold execTaskPop
  split
  · exact h
  · extract_lets s1
    have popped : s1.Canonical := popRing_canonical h ..
    clear_value s1
    split
    next win t e =>
      have windowed : t.Canonical := canonical_snd e (by
        split
        · exact popped
        · exact popped
        · exact popped)
      extract_lets f
      clear_value f
      split
      · exact h
      · next u t3 seated =>
        obtain ⟨_, took⟩ := Option.ite_none_right_eq_some.mp seated
        have taken : t3.Canonical := canonical_of_mem (takeIn_mem took) windowed
        extract_lets s4 s5
        have joined : s4.Canonical := by
          unfold s4
          split
          · exact taken
          · exact taken
        have begun : s5.Canonical := joined
        clear_value s5
        exact canonical_of_mem (count_mem ..) (startFlight_canonical begun u)

theorem execGalleryCompletion_canonical (gallery : Nat) : ResCanonical (execGalleryCompletion gallery s) := by
  have published : ∀ {v : State} (g : Gallery), v.Canonical → ResCanonical (s.banked (v.publishThenFinish gallery g)) :=
    fun g hv => banked_canonical h (publishThenFinish_canonical hv gallery g)
  unfold execGalleryCompletion
  split
  · exact h
  · next g _ =>
    refine resCanonical_ite h ?_
    split
    · exact resCanonical_ite (banked_canonical h (finishGallery_canonical h ..)) h
    · refine resCanonical_ite (published g h) (resCanonical_ite h (resCanonical_ite ?_ ?_))
      · split
        · exact resCanonical_ite (published g h) h
        · exact published g h
      · extract_lets s1 g0 g1 s2
        have fired : s1.Canonical := canonical_of_mem (fireRest_mem ..) h
        have completed : s2.Canonical := fired
        clear_value s2 g1
        split
        · exact banked_canonical h (canonical_ite (publishThenFinish_canonical completed ..) completed)
        · exact published g1 completed

/-! ### Contexts -/

theorem execPreemptionRequest_canonical (context : Nat) : ResCanonical (execPreemptionRequest context s) := by
  unfold execPreemptionRequest
  dsimp only
  split
  · exact h
  · exact h

theorem execForcedSave_canonical (context : Nat) : ResCanonical (execForcedSave context s) := by
  unfold execForcedSave
  extract_lets x us s1 s2 c s3
  clear_value x
  split
  · exact h
  · refine resCanonical_ite h ?_
    have saved : s1.Canonical := foldl_canonical _ (fun _ _ h => saveFlight_canonical h ..) _ _ h
    have noted : s3.Canonical := saved
    clear_value s3
    exact banked_canonical h (writeArea_canonical noted _)

theorem execLightSave_canonical (flight : Nat) : ResCanonical (execLightSave flight s) := by
  unfold execLightSave
  split
  · exact h
  · exact resCanonical_ite (banked_canonical h (writeArea_canonical (saveFlight_canonical h ..) _)) h

theorem execContextSavedReport_canonical (context : Nat) : ResCanonical (execContextSavedReport context s) := by
  unfold execContextSavedReport
  split
  · exact h
  · refine resCanonical_ite h ?_
    split
    · exact h
    · next t settled =>
      have done : t.Canonical := settleSaved_canonical h settled
      exact done

theorem execContextResume_canonical (context core : Nat) : ResCanonical (execContextResume context core s) := by
  unfold execContextResume
  extract_lets x
  split
  · next v s0 may _ =>
    have settled : s0.Canonical := resumable_canonical h may
    refine resCanonical_ite h (resCanonical_ite (canonical_of_mem (endContext_mem ..) h) ?_)
    split
    · exact h
    · next placed seated =>
      extract_lets us s1 cores c s2 s3 t
      refine resCanonical_ite h ?_
      have set : s1.Canonical := canonical_of_mem ((reage_mem ..).trans (placeSaved_mem seated)) settled
      have emptied : s2.Canonical := set
      clear_value s2
      have joined : (us.foldl State.rejoin s2).Canonical := foldl_canonical _ (fun _ _ h => rejoin_canonical h _) _ _ emptied
      have due : s3.Canonical := foldl_canonical _ (fun _ _ h => canonical_of_mem (takeDue_mem ..) h) _ _ joined
      clear_value s3
      have resumed : t.Canonical := retest_canonical (foldl_canonical _ (fun _ u h => replay_canonical h u) us _ due)
      clear_value t
      exact resCanonical_ite resumed h
  · exact h

theorem execTEntryResend_canonical (flight entry : Nat) : ResCanonical (execTEntryResend flight entry s) := by
  unfold execTEntryResend
  split
  · exact h
  · refine resCanonical_ite h ?_
    extract_lets t
    have sent : t.Canonical := resend_canonical h ..
    clear_value t
    exact resCanonical_ite (replay_canonical (canonical_of_mem (countAt_mem ..) sent) flight) h

theorem execFlightResume_canonical (flight : Nat) (how : ResumeHow) : ResCanonical (execFlightResume flight how s) := by
  unfold execFlightResume
  split
  · exact h
  · split
    · exact h
    · extract_lets skip g0 g1 g s1
      have resumed : s1.Canonical := by
        unfold s1
        split
        · exact h
        · exact h
        · exact h
        · exact canonical_ite h (canonical_of_mem (unfreezeTrap_mem ..) h)
      clear_value s1
      exact replay_canonical resumed flight

/-! ### Missing pages and invalidation -/

theorem execTranslationKeyResolved_canonical (die : Nat) (key : MissKey) : ResCanonical (execTranslationKeyResolved die key s) := by
  unfold execTranslationKeyResolved
  extract_lets t
  have released : t.Canonical := releaseKey_canonical h key die
  clear_value t
  exact resCanonical_ite released h

theorem execTranslationKeyDeclined_canonical (die : Nat) (key : MissKey) : ResCanonical (execTranslationKeyDeclined die key s) :=
  resCanonical_ite (canonical_of_mem (dropColls_mem ..) (declineKey_canonical h key die)) h

theorem execBindingSlotResolve_canonical (gallery slot : Nat) (value : BitVec 64) :
    ResCanonical (execBindingSlotResolve gallery slot value s) := by
  unfold execBindingSlotResolve
  split
  · exact h
  · split
    · exact h
    · refine resCanonical_ite h ?_
      extract_lets key t
      have released : t.Canonical := foldl_canonical _ (fun _ _ h => releaseKey_canonical h ..) _ _ (externalWrite_canonical h ..)
      clear_value t
      exact resCanonical_ite released h

theorem execBindingSlotDecline_canonical (gallery slot : Nat) : ResCanonical (execBindingSlotDecline gallery slot s) := by
  unfold execBindingSlotDecline
  split
  · exact h
  · extract_lets key
    split
    · exact h
    · exact foldl_canonical _ (fun _ _ h => declineKey_canonical h ..) _ _ h

end
end Sys2Proof.Machine
end

section
namespace Sys2Proof.Machine

/-! ## Steps of the module's units -/

section
variable {s : State} (h : s.Canonical)
include h

/-! ### Errors -/

theorem execInvalidationEffect_canonical (ident : Nat) : ResCanonical (execInvalidationEffect ident s) := by
  unfold execInvalidationEffect
  split
  · exact h
  · exact h

theorem execUncorrectableError_canonical (target : ErrTarget) : ResCanonical (execUncorrectableError target s) := by
  unfold execUncorrectableError
  cases target with
  | read u => exact readError_canonical h u
  | engine u id =>
    dsimp only
    split
    · exact h
    · split
      · exact stopNext_canonical h ..
      · exact h
  | owned c => exact canonical_of_mem (endContext_mem ..) h
  | bank b => exact foldl_canonical _ (fun _ _ h => canonical_of_mem (endContext_mem ..) h) _ _ h
  | collective i =>
    dsimp only
    split
    · exact canonical_of_mem (failColl_mem ..) h
    · exact h

theorem execCorrectableError_canonical (die cls : Nat) (core : Option Nat) : ResCanonical (execCorrectableError die cls core s) := by
  cases core with
  | none => exact h
  | some c => exact canonical_of_mem (countAll_mem ..) h

/-! ### Collectives -/

theorem execCollectiveSegment_canonical (die : Nat) : ResCanonical (execCollectiveSegment die s) := by
  unfold execCollectiveSegment
  split
  · exact h
  · split
    next i t e =>
      have picked : t.Canonical := canonical_snd e (canonical_of_mem (pick_mem ..) h)
      split
      · exact h
      · exact banked_canonical h (doWork_canonical picked ..)

theorem execCollectiveAgeing_canonical (ident : Nat) : ResCanonical (execCollectiveAgeing ident s) := by
  unfold execCollectiveAgeing
  split
  · exact h
  · exact resCanonical_ite h h

theorem execCollectiveTrafficArrival_canonical (peers number rank chunk segment : Nat) (digest : BitVec 64) (data : List (BitVec 8)) :
    ResCanonical (execCollectiveTrafficArrival peers number rank chunk segment digest data s) := by
  unfold execCollectiveTrafficArrival
  dsimp only
  split
  · exact canonical_ite h (canonical_of_mem (takeSegment_mem ..) h)
  · exact resCanonical_ite h h

theorem execCollectiveRefusalAnnouncement_canonical (peers : Nat) (failure : CollFailure) :
    ResCanonical (execCollectiveRefusalAnnouncement peers failure s) := by
  unfold execCollectiveRefusalAnnouncement
  split
  · exact canonical_ite h h
  · exact resCanonical_ite h h

theorem execMemberLost_canonical (member : Nat) : ResCanonical (execMemberLost member s) :=
  foldl_canonical (fun (t : State) (p : Nat × Coll) => t.failColl p.1 p.2 7) (fun _ _ h => canonical_of_mem (failColl_mem ..) h) _ _ h

/-! ### Links and the fabric -/

theorem execLinkTrained_canonical (port : Nat) : ResCanonical (execLinkTrained port s) := resCanonical_ite h (canonical_ite h h)

theorem execBringupFrame_canonical (port linkmin linkmax peer peerPort : Nat) :
    ResCanonical (execBringupFrame port linkmin linkmax peer peerPort s) := by
  refine resCanonical_ite h ?_
  split
  · exact h
  · exact h

theorem execLinkFailure_canonical (port : Nat) : ResCanonical (execLinkFailure port s) := by
  refine resCanonical_ite h ?_
  extract_lets p t t1
  have dropped : t.Canonical := dropRoute_canonical (by exact h) port
  have unreached : t1.Canonical := dropped
  clear_value t1
  exact banked_canonical h (foldl_canonical (fun (v : State) (p : Nat × Transit) => v.sendAgain p.1 p.2)
    (fun _ _ h => canonical_of_mem (sendAgain_mem ..) h) _ _ unreached)

theorem execRdmaWrite_canonical (qp va : Nat) (data : List (BitVec 8)) : ResCanonical (execRdmaWrite qp va data s) := by
  unfold execRdmaWrite
  split
  · exact banked_canonical h (windowWrite_canonical h ..)
  · exact h

theorem execRdmaRead_canonical (qp va len : Nat) : ResCanonical (execRdmaRead qp va len s) := by
  unfold execRdmaRead
  split
  · exact banked_canonical h (windowRead_canonical h ..)
  · exact h

theorem execSend_canonical (qp : Nat) (request : PortRequest) : ResCanonical (execSend qp request s) := by
  unfold execSend
  split
  · exact h
  · exact h

theorem execFabricWriteArrival_canonical (pa : Nat) (data : List (BitVec 8)) : ResCanonical (execFabricWriteArrival pa data s) :=
  resCanonical_ite (banked_canonical h (agentWrite_canonical _ _ _ (reachAll_canonical h ..))) h

theorem execFabricWriteAcknowledgement_canonical (ident : Nat) : ResCanonical (execFabricWriteAcknowledgement ident s) := by
  unfold execFabricWriteAcknowledgement
  split
  · exact h
  · exact h

theorem execControlCoreWrite_canonical (pa : Nat) (access : Access) : ResCanonical (execControlCoreWrite pa access s) := by
  cases access with
  | write data => exact resCanonical_ite (banked_canonical h (canonical_of_mem (softwarePush_mem ..) (externalWrite_canonical h ..))) h
  | read n =>
    refine resCanonical_ite ?_ (resCanonical_ite h (resCanonical_ite h (resCanonical_ite h h)))
    exact banked_canonical h (by exact reachAll_canonical h 48 (State.lineSpan pa n))

theorem execPcieHostWrite_canonical (window va : Nat) (access : Access) : ResCanonical (execPcieHostWrite window va access s) := by
  refine resCanonical_ite h ?_
  split
  · exact banked_canonical h (windowWrite_canonical h ..)
  · exact banked_canonical h (windowRead_canonical h ..)
  · exact h

/-! ### The control core -/

theorem execPowerOn_canonical : ResCanonical (execPowerOn s) := by
  refine resCanonical_ite h ?_
  dsimp only
  split
  · exact h
  · exact h

theorem execClockChange_canonical (target : ClockTarget) (mhz : Nat) : ResCanonical (execClockChange target mhz s) := by
  unfold execClockChange
  extract_lets there s1 s2
  clear_value there
  refine resCanonical_ite h ?_
  have timed : s1.Canonical := by
    unfold s1
    split
    · exact h
    · exact h
  clear_value s1
  have clocked : s2.Canonical := foldl_canonical _ (fun _ _ h => by exact h) _ _ timed
  clear_value s2
  exact foldl_canonical _ (fun _ _ h => canonical_of_mem (clockRecord_mem ..) h) _ _ clocked

theorem execModuleNumberWrite_canonical (n : BitVec 22) : ResCanonical (execModuleNumberWrite n s) := by
  refine resCanonical_ite h ?_
  extract_lets b s1
  have numbered : s1.Canonical := h
  clear_value s1
  exact foldl_canonical (fun (t : State) (p : Nat × Port) => t.sendBringup p.1) (fun _ _ h => by exact h) _ _ numbered

theorem execFirmwareHandshake_canonical (version : Nat) : ResCanonical (execFirmwareHandshake version s) :=
  resCanonical_ite h (resCanonical_ite h h)

theorem execMeasurementExtend_canonical (ver reg : Nat) (digest : BitVec 384) :
    ResCanonical (execMeasurementExtend ver reg digest s) := service_canonical h ver (canonical_ite h h)

theorem execAttestationReport_canonical (ver : Nat) (nonce : BitVec 384) : ResCanonical (execAttestationReport ver nonce s) :=
  service_canonical h ver h

/-! ### The trace and sessions -/

theorem execTraceBlockLoad_canonical (ver die addr : Nat) : ResCanonical (execTraceBlockLoad ver die addr s) :=
  service_canonical h ver (canonical_ite h (canonical_ite h (canonical_ite h h)))

theorem execTraceStatusRead_canonical (ver die : Nat) : ResCanonical (execTraceStatusRead ver die s) :=
  service_canonical h ver (canonical_ite h h)

theorem execSieveCountersRead_canonical (ver die : Nat) (clear : Bool) : ResCanonical (execSieveCountersRead ver die clear s) :=
  service_canonical h ver (canonical_ite h (by exact canonical_ite h h))

theorem execSieveRun_canonical (die : Nat) : ResCanonical (execSieveRun die s) := by
  unfold execSieveRun
  extract_lets k
  split
  · exact h
  · refine resCanonical_ite h ?_
    extract_lets n s1
    have flushed : s1.Canonical := flushLost_canonical (by exact h) ..
    clear_value s1
    exact banked_canonical h
      (canonical_ite flushed (canonical_ite (writeRecord_canonical flushed ..) (sieveRecord_canonical flushed ..)))

theorem execSessionArm_canonical (ver addr : Nat) : ResCanonical (execSessionArm ver addr s) :=
  service_canonical h ver (canonical_ite h (canonical_ite h h))

theorem execSessionCancel_canonical (ver addr : Nat) : ResCanonical (execSessionCancel ver addr s) := by
  refine service_canonical h ver ?_
  split
  · exact canonical_of_mem (endSession_mem ..) h
  · exact h

theorem execSessionPassStart_canonical : ResCanonical (execSessionPassStart s) := by
  unfold execSessionPassStart
  split
  · exact h
  · split
    · exact h
    · refine resCanonical_ite (banked_canonical h (preparePass_canonical h ..)) ?_
      exact resCanonical_ite (banked_canonical h (preparePass_canonical (by exact h) ..)) h

theorem execSessionPassEnd_canonical : ResCanonical (execSessionPassEnd s) := by
  unfold execSessionPassEnd
  extract_lets isOver
  split
  · exact h
  · split
    · exact h
    · extract_lets n s1 z1
      have written : s1.Canonical := externalWrite_canonical h ..
      clear_value s1
      exact resCanonical_ite (banked_canonical h (canonical_of_mem (endSession_mem ..) written)) (banked_canonical h written)

/-! ### Debugger, counters and the clock -/

theorem execDebugRead_canonical (ver flight : Nat) (item : DebugItem) (thread : Nat) (sibs : BitVec 3) :
    ResCanonical (execDebugRead ver flight item thread sibs s) := by
  refine onHeld_canonical h _ _ fun _ f => ?_
  split
  · exact h
  · exact h

theorem execDebugWrite_canonical (ver flight : Nat) (item : DebugItem) (thread : Nat) (sibs : BitVec 3) (value : BitVec 64) :
    ResCanonical (execDebugWrite ver flight item thread sibs value s) := by
  refine onHeld_canonical h _ _ fun _ f => ?_
  split
  · exact h
  · exact canonical_of_mem (modSaved_mem ..) h
  · refine canonical_ite ?_ h
    extract_lets s1
    have counted : s1.Canonical := canonical_of_mem ((count_mem ..).trans (count_mem ..)) h
    clear_value s1
    exact barrierCheck_canonical (by exact counted) ..

theorem execBreakpointSet_canonical (ver context index : Nat) (addr : BitVec 64) (hall : BitVec 32) :
    ResCanonical (execBreakpointSet ver context index addr hall s) := service_canonical h ver (canonical_ite h h)

theorem execCounterProgram_canonical (ver core : Nat) (sys : Bool) (setup : CounterSetup) :
    ResCanonical (execCounterProgram ver core sys setup s) := service_canonical h ver (canonical_ite h (canonical_ite h h))

theorem execMonitorProgram_canonical (ver core index : Nat) (setup : Option MonitorSetup) :
    ResCanonical (execMonitorProgram ver core index setup s) := by
  refine service_canonical h ver (canonical_ite h ?_)
  extract_lets k
  split
  · exact h
  · exact h
  · exact h

theorem execStallHistogramRead_canonical (ver core : Nat) : ResCanonical (execStallHistogramRead ver core s) := by
  refine service_canonical h ver (canonical_ite h ?_)
  extract_lets vs s1
  have cleared : s1.Canonical := foldl_canonical _ (fun _ _ h => by exact h) _ _ h
  clear_value s1
  exact cleared

theorem execMonitorSample_canonical (core : Nat) : ResCanonical (execMonitorSample core s) := resCanonical_ite h h

theorem execArithmeticClockCycle_canonical : ResCanonical (execArithmeticClockCycle s) := by
  unfold execArithmeticClockCycle
  extract_lets ticks s1
  have cycled : s1.Canonical :=
    foldl_canonical _ (fun _ _ h => canonical_of_mem ((newCycle_mem ..).trans (coreCycles_mem ..)) h) _ _ h
  clear_value s1
  exact retryWaits_canonical (by exact cycled)

end
end Sys2Proof.Machine
end

section
namespace Sys2Proof.Machine

/-! ## One step of the module (log 2) -/

section
variable {s : State} (h : s.Canonical)
include h

/-- An operation that only changes its flight leaves memory alone. -/
theorem occupied_canonical (regs : Flight → OpRegs) (g : Nat → Flight → ClauseRun → Flight) (r : Flight → ClauseRun → OpRegs) :
    ResCanonical (runOp s regs fun u f c => .done ((s.setFlight u (g u f c)).occupy f c (r f c))) :=
  runOp_canonical h fun _ _ _ => canonical_of_mem (occupy_mem ..) h

theorem fp2_canonical (u : Bool) (d a : BitVec 7) (la : Bool) (occ draws : Nat) (g : Rnd → Nat → FRes) (cond : Tri Nat → Option Meet) :
    ResCanonical (fp2 s u d a la occ draws g cond) := by
  unfold fp2
  exact fpOp_canonical h ..

theorem execMzero_canonical : ResCanonical (execMzero s) := runOp_canonical h fun _ _ _ => issueMatrix_canonical h ..

/-- Every instruction and every step of a unit keeps the canonical form of memory. -/
theorem exec_canonical (i : Instr) : ResCanonical (exec i s) := by
  cases i with
  | iadd | isub | imin | imax | imul | imulh | imulhu | imad | iaddmin | iaddmax | iabsd | iminu | andR | orR | xorR | andn
  | shl | shr | sar | rol | popc | clz | brev | bfx | mov | movp | bfi | sel | lea | iadd64 | isub64 | imulw | shl64 | iaddi
  | andi | ori | xori | shli | shri | sari | roli | movi | movh | digits | sib | dqbx | shflIdx | shflUp | shflDn | shflXor
  | srd | time | preq => exact regOp_canonical h ..
  | pmov | mean | solo | trio | qbx | yield | win | swr => exact occupied_canonical h ..
  | icmp | pand | por | pxor | pnot | voteAny | voteAll => exact predOp_canonical h ..
  | fcmp =>
    rw [exec_fcmp]
    exact fltCmp_canonical h ..
  | dcmp =>
    rw [exec_dcmp]
    exact fltCmp_canonical h ..
  | fadd | fsub | fmul | fmin | fmax | ffma | ffms | fdiv | dadd | dsub | dmul | dfma | ddiv | dsqrt | dmin | dmax | hadd2
  | hmul2 | hfma2 | bfma2 | cvt => exact fpOp_canonical h ..
  | fsqrt | frcp | frsq | fexp2 | flog2 | fsin | fcos | frint => exact fp2_canonical h ..
  | fabs =>
    rw [exec_fabs]
    exact fp2_canonical h ..
  | fneg =>
    rw [exec_fneg]
    exact fp2_canonical h ..
  | ffloor =>
    rw [exec_ffloor]
    exact fp2_canonical h ..
  | fceil =>
    rw [exec_fceil]
    exact fp2_canonical h ..
  | ftrunc =>
    rw [exec_ftrunc]
    exact fp2_canonical h ..
  | chkd => exact execChkd_canonical h ..
  | voteBallot | voteCount | xadd | xmin | xmax | xscan => exact laneOp_canonical h ..
  | bra | call => exact branch_canonical h ..
  | brx | ret => exact indirect_canonical h ..
  | exit | tend => exact execExit_canonical h
  | nap => exact execNap_canonical h ..
  | ld => exact execLd_canonical h ..
  | st => exact execSt_canonical h ..
  | lds => exact execLds_canonical h ..
  | sts => exact execSts_canonical h ..
  | ldc => exact execLdc_canonical h ..
  | atom | post => exact atomOp_canonical h ..
  | atoms => exact execAtoms_canonical h ..
  | phase => exact execPhase_canonical h ..
  | bar => exact execBar_canonical h
  | arrive => exact execArrive_canonical h ..
  | await => exact execAwait_canonical h ..
  | waitge => exact execWaitge_canonical h ..
  | copyG2s | copyS2g | copyS2s => exact copyRows_canonical h ..
  | copyG2v => exact execCopyG2v_canonical h ..
  | gath => exact execGath_canonical h ..
  | mma | mmag => exact mmaOp_canonical h ..
  | mzero => exact execMzero_canonical h
  | mld | mst => exact moveOp_canonical h ..
  | mfree => exact execMfree_canonical h
  | spawn => exact execSpawn_canonical h ..
  | tjoin => exact execTjoin_canonical h ..
  | cfire | cfireIdx => exact fireOp_canonical h ..
  | mcall => exact execMcall_canonical h ..
  | trap | bkpt => exact trapOp_canonical h ..
  | trc => exact execTrc_canonical h ..
  | pyield => exact execPyield_canonical h
  | ipf => exact execIpf_canonical h ..
  | clauseStart => exact execClauseStart_canonical h
  | fairnessTimerExpiry => exact execFairnessTimerExpiry_canonical h
  | loadComplete => exact execLoadComplete_canonical h ..
  | atomicPerform => exact execAtomicPerform_canonical h ..
  | atomReturn => exact execAtomReturn_canonical h ..
  | leaseRecall => exact execLeaseRecall_canonical h ..
  | engineChunk => exact execEngineChunk_canonical h ..
  | matrixUnitOperation => exact execMatrixUnitOperation_canonical h ..
  | napEnd => exact execNapEnd_canonical h ..
  | flightOverdue => exact execFlightOverdue_canonical h ..
  | throttleWindowEnd => exact execThrottleWindowEnd_canonical h ..
  | icacheFill => exact execIcacheFill_canonical h ..
  | instabilityDelivery => exact execInstabilityDelivery_canonical h ..
  | flightRetirement => exact execFlightRetirement_canonical h ..
  | doorbell => exact execDoorbell_canonical h ..
  | launchRecord => exact execLaunchRecord_canonical h ..
  | barrierRecord => exact execBarrierRecord_canonical h ..
  | signalRecord => exact execSignalRecord_canonical h ..
  | wingPlacement => exact execWingPlacement_canonical h ..
  | hallStart => exact execHallStart_canonical h ..
  | bulkGalleryAgeing => exact execBulkGalleryAgeing_canonical h ..
  | taskPop => exact execTaskPop_canonical h ..
  | galleryCompletion => exact execGalleryCompletion_canonical h ..
  | preemptionRequest => exact execPreemptionRequest_canonical h ..
  | preemptionWithdrawal | invalidation => exact h
  | forcedSave => exact execForcedSave_canonical h ..
  | lightSave => exact execLightSave_canonical h ..
  | contextSavedReport => exact execContextSavedReport_canonical h ..
  | contextResume => exact execContextResume_canonical h ..
  | tEntryResend => exact execTEntryResend_canonical h ..
  | flightResume => exact execFlightResume_canonical h ..
  | contextEnd => exact canonical_of_mem (endContext_mem ..) h
  | translationKeyResolved => exact execTranslationKeyResolved_canonical h ..
  | translationKeyDeclined => exact execTranslationKeyDeclined_canonical h ..
  | bindingSlotResolve => exact execBindingSlotResolve_canonical h ..
  | bindingSlotDecline => exact execBindingSlotDecline_canonical h ..
  | invalidationEffect => exact execInvalidationEffect_canonical h ..
  | uncorrectableError => exact execUncorrectableError_canonical h ..
  | correctableError => exact execCorrectableError_canonical h ..
  | collectiveSegment => exact execCollectiveSegment_canonical h ..
  | collectiveAgeing => exact execCollectiveAgeing_canonical h ..
  | collectiveTrafficArrival => exact execCollectiveTrafficArrival_canonical h ..
  | collectiveRefusalAnnouncement => exact execCollectiveRefusalAnnouncement_canonical h ..
  | memberLost => exact execMemberLost_canonical h ..
  | linkTrained => exact execLinkTrained_canonical h ..
  | bringupFrame => exact execBringupFrame_canonical h ..
  | linkFailure => exact execLinkFailure_canonical h ..
  | rdmaWrite => exact execRdmaWrite_canonical h ..
  | rdmaRead => exact execRdmaRead_canonical h ..
  | send => exact execSend_canonical h ..
  | powerOn => exact execPowerOn_canonical h
  | clockChange => exact execClockChange_canonical h ..
  | moduleNumberWrite => exact execModuleNumberWrite_canonical h ..
  | firmwareHandshake => exact execFirmwareHandshake_canonical h ..
  | measurementExtend => exact execMeasurementExtend_canonical h ..
  | attestationReport => exact execAttestationReport_canonical h ..
  | traceBlockLoad => exact execTraceBlockLoad_canonical h ..
  | traceStatusRead => exact execTraceStatusRead_canonical h ..
  | sieveCountersRead => exact execSieveCountersRead_canonical h ..
  | sessionArm => exact execSessionArm_canonical h ..
  | sessionCancel => exact execSessionCancel_canonical h ..
  | sessionPassStart => exact execSessionPassStart_canonical h
  | sessionPassEnd => exact execSessionPassEnd_canonical h
  | freeze | unfreeze => exact freezeService_canonical h ..
  | debugRead => exact execDebugRead_canonical h ..
  | debugWrite => exact execDebugWrite_canonical h ..
  | breakpointSet => exact execBreakpointSet_canonical h ..
  | counterProgram => exact execCounterProgram_canonical h ..
  | monitorProgram => exact execMonitorProgram_canonical h ..
  | stallHistogramRead => exact execStallHistogramRead_canonical h ..
  | monitorSample => exact execMonitorSample_canonical h ..
  | sieveRun => exact execSieveRun_canonical h ..
  | waitgePollReturn => exact execWaitgePollReturn_canonical h ..
  | storeAcknowledgement => exact execStoreAcknowledgement_canonical h ..
  | yieldPeriodEnd => exact execYieldPeriodEnd_canonical h ..
  | fabricWriteArrival => exact execFabricWriteArrival_canonical h ..
  | fabricWriteAcknowledgement => exact execFabricWriteAcknowledgement_canonical h ..
  | controlCoreWrite => exact execControlCoreWrite_canonical h ..
  | pcieHostWrite => exact execPcieHostWrite_canonical h ..
  | arithmeticClockCycle => exact execArithmeticClockCycle_canonical h

/-! ### Issues -/

omit h in
theorem noteIssue_canonical (u : Nat) (f : Flight) (n : Nat) {r : Res} (hr : ResCanonical r) : ResCanonical (noteIssue u f n r) := by
  cases r with
  | next t => exact resCanonical_ite (canonical_of_mem (issued_mem ..) hr) hr
  | fault _ => trivial
  | refused _ => trivial

theorem issueOp_canonical (u : Nat) (f : Flight) (c : ClauseRun) : ResCanonical (issueOp u f c s) := by
  unfold issueOp
  split
  · exact exec_canonical (by exact h) _
  · exact canonical_of_mem (takeTrap_mem ..) h

theorem issueNext_canonical (u : Nat) : ResCanonical (issueNext u s) := by
  unfold issueNext
  split
  · exact h
  · refine resCanonical_ite h (noteIssue_canonical _ _ _ (resCanonical_ite (exec_canonical h _) ?_))
    split
    · exact exec_canonical (by exact h) _
    · exact issueOp_canonical h ..

theorem eventStep_canonical (i : Instr) : ResCanonical (eventStep i s) := by
  unfold eventStep
  split
  · exact exec_canonical h i
  · split
    · exact exec_canonical h i
    · exact noteIssue_canonical _ _ _ (exec_canonical h i)

theorem lookAt_canonical (u : Nat) (f : Flight) : (lookAt u f s).Canonical := by
  unfold lookAt
  extract_lets looked free tried
  have freed : free.Canonical := h
  clear_value free
  refine canonical_ite freed ?_
  have attempt : ResCanonical tried := by
    unfold tried
    split
    · exact startNext_canonical h ..
    · exact issueOp_canonical h ..
  clear_value tried
  split
  · split
    · exact canonical_ite attempt freed
    · exact freed
  · exact freed

/-! ### The module left to itself -/

theorem firstStep_canonical : ∀ {is : List Instr} {r : Res}, firstStep s is = some r → ResCanonical r
  | [], _, made => nomatch made
  | i :: is, r, made => by
    have stepped := exec_canonical h i
    unfold firstStep at made
    split at made
    · next t e =>
      rw [e] at stepped
      split at made
      · obtain rfl := Option.some.inj made
        exact stepped
      · exact firstStep_canonical made
    · exact firstStep_canonical made

theorem beforeCycle_canonical {r : Res} (made : beforeCycle s = some r) : ResCanonical r := by
  unfold beforeCycle at made
  split at made
  · obtain rfl := Option.some.inj made
    exact lookAt_canonical h ..
  · obtain ⟨p, _, rfl⟩ := Option.map_eq_some_iff.mp made
    exact exec_canonical h _

omit h in
theorem getD_canonical {o : Option Res} {r : Res} (ho : ∀ x, o = some x → ResCanonical x) (hr : ResCanonical r) :
    ResCanonical (o.getD r) := by
  cases o with
  | none => exact hr
  | some x => exact ho x rfl

theorem ownStep_canonical : ResCanonical (ownStep s) := by
  unfold ownStep
  split
  · exact exec_canonical (by exact h) _
  · split
    · exact lookAt_canonical h ..
    · split
      · exact issueNext_canonical h _
      · exact getD_canonical (fun _ => firstStep_canonical h) (exec_canonical h _)

theorem nextStep_canonical : ResCanonical (nextStep s) := by
  unfold nextStep
  split
  · exact getD_canonical (fun _ => beforeCycle_canonical h) (exec_canonical (by exact h) _)
  · exact resCanonical_ite (eventStep_canonical (by exact h) _) h
  · exact issueNext_canonical (by exact h) _
  · exact ownStep_canonical h

end

/-- Settles O60: `State.placeRaw` is the only writer of memory and keeps its cells in canonical form (log 1), so every operation of a
flight and every step of a unit does (R6, R227, R363, R364). -/
theorem memoryStaysCanonical : Obligations.MemoryStaysCanonical := by
  intro s t canonical stepped
  have kept : ResCanonical (step s) := nextStep_canonical canonical
  rw [stepped] at kept
  exact kept

end Sys2Proof.Machine
end

section
namespace Sys2Proof.Machine

/-! ## Reset -/

/-- Settles O59: reset gives each of these its value outright (R3, R250, R260, R265, R332, R360, R365). The empty memory,
which reads zero, is in canonical form (log 1). -/
theorem theModuleAfterReset : Obligations.TheModuleAfterReset :=
  have doorbells : ∀ q, (State.reset.queue q).tail = 0 := fun _ => rfl
  have permissions : ∀ c q, (State.reset.quarter c q).perm = 16 := fun _ _ => rfl
  have counters : ∀ c, (State.reset.core c).cntSel = 0 ∧ (State.reset.core c).cntCtl = 0
      ∧ ∀ i, mgetD (State.reset.core c).cntV i 0 = 0 := fun _ => ⟨rfl, rfl, fun _ => rfl⟩
  have clocks : ∀ cl, (State.reset.cluster cl).mhz = 1000 := fun _ => rfl
  have measurements : ∀ r, mgetD State.reset.boot.meas r 0 = 0 := fun _ => rfl
  have canonical : State.reset.Canonical := memWf_nil
  have unwritten : ∀ a, memGet State.reset.mem a = 0 := fun _ => rfl
  ⟨doorbells, rfl, permissions, counters, clocks, measurements, rfl, rfl, canonical, unwritten⟩

end Sys2Proof.Machine
end

section
namespace Sys2Proof.Machine

/-! ## Values in storage: words, merged stores and coined words (R70 to R73, R128, R129) -/

/-! ### Words -/

theorem sum_map_mul_left (r : Nat) (g : Nat → Nat) : ∀ l : List Nat, (l.map fun i => r * g i).sum = r * (l.map g).sum
  | [] => rfl
  | i :: l => by rw [List.map_cons, List.map_cons, List.sum_cons, List.sum_cons, sum_map_mul_left r g l, Nat.mul_add]

theorem wordsNat_map_range : ∀ (n : Nat) (g : Nat → Word),
    wordsNat ((List.range n).map g) = ((List.range n).map fun i => (g i).toNat * 2 ^ (32 * i)).sum
  | 0, _ => rfl
  | n + 1, g => by
    have shift : ∀ i, (g (i + 1)).toNat * 2 ^ (32 * (i + 1)) = 2 ^ 32 * ((g (i + 1)).toNat * 2 ^ (32 * i)) := fun i => by
      rw [Nat.mul_succ, Nat.pow_add, ← Nat.mul_assoc, Nat.mul_comm]
    simp only [List.range_succ_eq_map, List.map_cons, List.map_map, List.sum_cons, wordsNat]
    rw [Function.comp_def, wordsNat_map_range n, Function.comp_def]
    simp only [Nat.succ_eq_add_one, shift, sum_map_mul_left, Nat.mul_zero, Nat.pow_zero, Nat.mul_one]

theorem natWords_eq_map_range : ∀ n v : Nat, natWords n v = (List.range n).map fun i => BitVec.ofNat 32 (v / 2 ^ (32 * i))
  | 0, _ => rfl
  | n + 1, v => by
    have shift : ∀ i, v / 2 ^ 32 / 2 ^ (32 * i) = v / 2 ^ (32 * (i + 1)) := fun i => by
      rw [Nat.div_div_eq_div_mul, ← Nat.pow_add, Nat.mul_add, Nat.add_comm, Nat.mul_one]
    simp only [List.range_succ_eq_map, List.map_cons, List.map_map, natWords, natWords_eq_map_range n, shift, Nat.mul_zero,
      Nat.pow_zero, Nat.div_one, Function.comp_def, Nat.succ_eq_add_one]

theorem widen_eq (size : MemSize) (v : Nat) : widen size v = widened size v := by
  cases size with
  | b128 => exact natWords_eq_map_range 4 v
  | b8 | b16 | b32 | b64 | s8 | s16 => rfl

theorem storeOperand_eq (f : Flight) (x : Nat) (d : BitVec 7) (size : MemSize) :
    storeOperand f x d size = Tri.of (storedOf f x d size) := by
  simp only [storeOperand, Flight.opndBlock, Flight.block, Tri.map, Tri.of, storedOf, List.map_map, Function.comp_def,
    wordsNat_map_range]

/-! ### Merged values -/

theorem tri_maj_fst {α : Type} [DecidableEq α] (t : Tri α) : t.maj.1 = majorityOf t := by
  unfold Tri.maj majority majorityOf
  grind

/-- The value of R71 for an access of at most 64 bits. -/
theorem plainValue_eq {n : Nat} (h : n ∈ [1, 2, 4, 8]) (v : Nat → Nat) : plainValue n (Tri.of v) = mergedOf n v := by
  unfold plainValue mergedOf
  by_cases agree : v 0 = v 1 ∨ v 0 = v 2 ∨ v 1 = v 2
  · have merged : majorityOf (Tri.of v) = if v 0 = v 1 ∨ v 0 = v 2 then v 0 else v 1 := by
      unfold majorityOf Tri.of
      grind
    rw [if_pos (by simpa [Tri.of, or_assoc] using agree), tri_maj_fst, merged]
    split
    · rfl
    · next differ => rw [if_pos (by grind)]
  · simp only [not_or] at agree
    obtain ⟨differ01, differ02, differ12⟩ := agree
    simp only [Tri.of, differ01, differ02, differ12, beq_iff_eq, Bool.or_eq_true, or_self, if_false]
    simp only [List.mem_cons, List.not_mem_nil, or_false] at h
    obtain rfl | rfl | rfl | rfl := h <;> rfl

theorem plainStore_eq (f : Flight) (x : Nat) (d : BitVec 7) (size : MemSize) :
    plainStore (f.single x) size.bytes (storeOperand f x d size) = plainOf f x d size := by
  rw [storeOperand_eq]
  unfold plainStore plainOf
  by_cases one : f.single x = true
  · rw [if_pos one, if_pos one]; rfl
  rw [if_neg one, if_neg one]
  by_cases wide : size.bytes = 16
  · have word : ∀ i, (Tri.of (storedOf f x d size)).map (fun v => v / 2 ^ (32 * i) % 2 ^ 32) =
        Tri.of fun k => storedOf f x d size k / 2 ^ (32 * i) % 2 ^ 32 := fun _ => rfl
    simp only [wide, BEq.rfl, if_true, wordsNat_map_range, word, plainValue_eq (n := 4) (by decide), BitVec.toNat_ofNat]
  · have narrow : size.bytes ∈ [1, 2, 4, 8] := by cases size <;> simp [MemSize.bytes] at wide ⊢
    rw [if_neg (by simpa using wide), if_neg wide, plainValue_eq narrow]

/-! ### Coined words -/

theorem coin_eq (wide one : Bool) (x0 x1 x2 : Nat) :
    coin wide one x0 x1 x2 = coinedMean wide one x0 x1 x2 * 2 ^ (if wide then 6 else 5) +
      let most := if wide then 47 else 19
      if one then most else min most (digits (if wide then fp64 else fp32) x0 x1 x2) := by
  unfold coin coinedMean
  cases wide <;> cases one <;>
    simp only [coinParams, if_true, Bool.false_eq_true, if_false, Nat.min_comm] <;> rfl

/-- A pattern is a zero where exponent and fraction are zero. -/
theorem isZero_eq_true_iff (f : Fmt) (x : Nat) : isZero f x = true ↔ x / 2 ^ f.fbits % 2 ^ f.ebits = 0 ∧ x % 2 ^ f.fbits = 0 := by
  have split : x % f.signW = x % 2 ^ f.fbits + 2 ^ f.fbits * (x / 2 ^ f.fbits % 2 ^ f.ebits) := by
    rw [Fmt.signW, Nat.add_comm f.ebits, Nat.pow_add, Nat.mod_mul]
  rw [isZero, beq_iff_eq, split, Nat.add_eq_zero_iff, Nat.mul_eq_zero]
  simp [and_comm]

theorem isZero_of_unpack_fin {f : Fmt} {x m : Nat} {neg : Bool} {e : Int} (h : unpack f x = .fin neg m e) :
    isZero f x = (m == 0) := by
  rw [Bool.eq_iff_iff, isZero_eq_true_iff, beq_iff_eq]
  unfold unpack at h
  dsimp only at h
  split at h
  · split at h <;> cases h
  · split at h
    · next subnormal =>
      cases h
      simpa using fun _ => subnormal
    · next normal =>
      cases h
      have hidden := Nat.two_pow_pos f.fbits
      simp only [beq_iff_eq] at normal
      constructor
      · exact fun zero => absurd zero.1 normal
      · omega

theorem Dy.ofMag_natAbs (neg : Bool) (m : Nat) (e : Int) : (Dy.ofMag neg m e).m.natAbs = m := by
  cases neg <;> simp [Dy.ofMag]

theorem uncoin_eq (wide one : Bool) (w : Nat) : uncoin wide one w = uncoined wide one w := by
  have cleared : ∀ n, w / 2 ^ n * 2 ^ n = w - w % 2 ^ n := fun n => Nat.div_mul_self_eq_mod_sub_self
  unfold uncoin uncoined
  cases one with
  | true => cases wide <;> simp only [coinParams, cleared] <;> rfl
  | false =>
    cases wide
    all_goals
      simp only [coinParams, cleared, if_true, if_false, Bool.false_eq_true, false_or]
      split
      · next h => rw [if_pos (by simp only [isFinite, h])]
      · next h => rw [if_pos (by simp only [isFinite, h])]
      · next neg m e h =>
        simp only [isFinite, h, isZero_of_unpack_fin h, Dy.ofMag_natAbs, FVal.dy, beq_iff_eq, Bool.true_eq_false, if_false]
        rfl

theorem coinedWidth_iff (form n : Nat) : coinedWidth form n = true ↔ form = 2 ∧ n = 4 ∨ form = 3 ∧ n = 8 := by
  simp [coinedWidth]

/-! ### Stores -/

theorem storeFrames_triple (f : Flight) (x : Nat) (d : BitVec 7) (size : MemSize) :
    storeFrames f x d size 1 =
      (List.range 3).map fun k => (k, if f.single x then storedOf f x d size 0 else storedOf f x d size k) := by
  unfold storeFrames
  rw [storeOperand_eq]
  cases f.single x <;> rfl

theorem storeFrames_coined {form : Nat} {size : MemSize} (h : coinedWidth form size.bytes = true) (f : Flight) (x : Nat)
    (d : BitVec 7) : storeFrames f x d size form =
      [(0, coin (form == 3) (f.single x) (storedOf f x d size 0) (storedOf f x d size 1) (storedOf f x d size 2))] := by
  have other : (form == 1) = false := by rw [coinedWidth_iff] at h; grind
  unfold storeFrames
  rw [storeOperand_eq]
  simp only [other, h, if_true, Bool.false_eq_true, if_false, Tri.of]

theorem storeFrames_plain {form : Nat} {size : MemSize} (other : form ≠ 1) (h : ¬coinedWidth form size.bytes = true) (f : Flight)
    (x : Nat) (d : BitVec 7) : storeFrames f x d size form = [(0, plainOf f x d size)] := by
  unfold storeFrames
  simp only [beq_iff_eq, other, h, Bool.false_eq_true, if_false, plainStore_eq]

/-! ### Loads -/

theorem tri_toList {α : Type} (t : Tri α) : t.toList = (List.range 3).map t.get := rfl

/-- A load delivers to each sibling the value that it loads, widened. -/
theorem loadVals_eq (s : State) (f : Flight) (x : Nat) (size : MemSize) (l : Located) :
    loadVals s f x size l = (List.range 3).map fun k => widened size (loadedAt s f x size l k) := by
  unfold loadVals
  dsimp only
  rw [tri_toList]
  refine List.map_congr_left fun k hk => ?_
  rw [tri_map_get _ _ (List.mem_range.1 hk), widen_eq]
  refine congrArg (widened size) ?_
  unfold loadedAt
  by_cases triple : l.form = 1
  · have plain : ¬(l.form = 2 ∧ size.bytes = 4 ∨ l.form = 3 ∧ size.bytes = 8) := by omega
    cases f.single x
    · simp only [triple, BEq.rfl, if_true, and_self, Bool.false_eq_true, if_false, tri_of_get _ (List.mem_range.1 hk)]
    · simp only [triple, BEq.rfl, if_true, Bool.true_eq_false, and_false, if_false, tri_rep_get]
      rw [if_neg (by omega)]
  · simp only [beq_iff_eq, triple, if_false, false_and, coinedWidth_iff]
    split
    · rfl
    · exact tri_rep_get _ _

theorem loadedAt_triple (s : State) (f : Flight) (x pa page k : Nat) (size : MemSize) :
    loadedAt s f x size ⟨pa, page, 1⟩ k = leNat (s.snapRead f.core (pa + (if f.single x then 0 else k) * page) size.bytes) := by
  cases one : f.single x <;> simp [loadedAt, one]

theorem loadedAt_coined {form : Nat} {size : MemSize} (h : form = 2 ∧ size.bytes = 4 ∨ form = 3 ∧ size.bytes = 8) (s : State)
    (f : Flight) (x pa page k : Nat) : loadedAt s f x size ⟨pa, page, form⟩ k =
      (uncoined (decide (form = 3)) (f.single x) (leNat (s.snapRead f.core pa size.bytes))).get k := by
  have other : ¬(form = 1 ∧ f.single x = false) := by omega
  simp only [loadedAt, other, h, if_true, if_false, Nat.zero_mul, Nat.add_zero, uncoin_eq]

theorem loadedAt_plain {form : Nat} {size : MemSize} (other : form ≠ 1)
    (h : ¬(form = 2 ∧ size.bytes = 4 ∨ form = 3 ∧ size.bytes = 8)) (s : State) (f : Flight) (x pa page k : Nat) :
    loadedAt s f x size ⟨pa, page, form⟩ k = leNat (s.snapRead f.core pa size.bytes) := by
  simp only [loadedAt, other, h, false_and, if_false, Nat.zero_mul, Nat.add_zero]

/-- Settles O23: storing an operand and loading it back go by the page's form (R70), whose plain, triple and coined cases are the lemmas
above (R71 to R73). -/
theorem storedValues : Obligations.StoredValues := by
  intro s f x d size
  refine ⟨fun form other h => storeFrames_plain other (by rwa [coinedWidth_iff]) f x d, storeFrames_triple f x d size,
    fun form h => ?_, fun pa page => ⟨fun form other h => ?_, ?_, fun form h => ?_⟩⟩
  · refine ⟨_, _, ?_, rfl, rfl⟩
    have wide : (form == 3) = decide (form = 3) := rfl
    rw [storeFrames_coined ((coinedWidth_iff ..).2 h), coin_eq, wide]
  · simp only [loadVals_eq, loadedAt_plain other h]
    rfl
  · simp only [loadVals_eq, loadedAt_triple]
  · simp only [loadVals_eq, loadedAt_coined h]

end Sys2Proof.Machine
end

section
namespace Sys2Proof.Machine

/-! ## System registers (R62, R130, R170 to R173, R176, R177, R209, R301) -/

/-! ### Which table a number is read from -/

section
variable {s : State} {f : Flight} {x k num : Nat}

theorem regRead_sib : regRead s f x k 0x0E = BitVec.ofNat 32 (if f.single x then 0 else k) := rfl

theorem regRead_place (h : num ≤ 0x0D ∨ 0x10 ≤ num ∧ num ≤ 0x13) :
    regRead s f x k num = BitVec.ofNat 32 (placeReg s f x num) := by
  have notSib : num ≠ 0x0E := by omega
  have notCtl : ¬0x100 ≤ num := by omega
  have notTrap : ¬0x20 ≤ num := by omega
  simp only [regRead, beq_iff_eq, Nat.ble_eq, Bool.or_eq_true, Bool.and_eq_true, notSib, notCtl, notTrap, h, if_false, if_true]

theorem regRead_state (h : num = 0x0F ∨ 0x14 ≤ num ∧ num ≤ 0x1F) :
    regRead s f x k num = BitVec.ofNat 32 (stateReg s f x num) := by
  have notSib : num ≠ 0x0E := by omega
  have notCtl : ¬0x100 ≤ num := by omega
  have notTrap : ¬0x20 ≤ num := by omega
  have notPlace : ¬(num ≤ 0x0D ∨ 0x10 ≤ num ∧ num ≤ 0x13) := by omega
  simp only [regRead, beq_iff_eq, Nat.ble_eq, Bool.or_eq_true, Bool.and_eq_true, notSib, notCtl, notTrap, notPlace, if_false]

theorem regRead_trap (h : 0x20 ≤ num ∧ num ≤ 0xFF) : regRead s f x k num = BitVec.ofNat 32 (trapReg f x k num) := by
  have notSib : num ≠ 0x0E := by omega
  have notCtl : ¬0x100 ≤ num := by omega
  simp only [regRead, beq_iff_eq, Nat.ble_eq, notSib, notCtl, h.1, if_false, if_true]

theorem regRead_ctl (h : 0x100 ≤ num) : regRead s f x k num = BitVec.ofNat 32 (ctlReg s f num) := by
  have notSib : num ≠ 0x0E := by omega
  simp only [regRead, beq_iff_eq, Nat.ble_eq, notSib, h, if_false, if_true]

end

/-! ### What each table holds -/

section
variable {s : State} {f : Flight} {g : Gallery} {c : ClauseRun} {x k : Nat}

theorem launchOf_eq (hg : mget s.galleries f.gallery = some g) : s.launchOf f = some g.launch := by
  rw [State.launchOf, hg, Option.map_some]

/-- The wing of a hall, or of the wing window that a task runs in (R165, R183, R221). -/
theorem wingReg_eq (hg : mget s.galleries f.gallery = some g) : wingReg s f =
    taskElse f ((f.win.bind (mget s.windows)).elim 0xFFFFFFFF fun z => if z.isTask then 0xFFFFFFFF else z.index)
      (wingOf g.launch f.hall) := by
  unfold wingReg taskElse State.windowOf
  rw [launchOf_eq hg]
  cases f.task with
  | none => rfl
  | some _ =>
    cases f.win with
    | none => rfl
    | some w => cases h : mget s.windows w <;> simp [h]

theorem hallThreads_eq (hg : mget s.galleries f.gallery = some g) :
    s.hallThreads f = taskElse f f.threads.length (g.launch.tx * g.launch.ty * g.launch.tz) := by
  unfold State.hallThreads taskElse
  rw [hg]
  cases f.task <;> rfl

theorem taskElse_same (v : Nat) : taskElse f v v = v := ite_self _

/-- The place registers as the tables of R171 and R172 give them. -/
theorem placeRegisters_read (hg : mget s.galleries f.gallery = some g) :
    ∀ p ∈ placeRegisters s f g x, p.1 ≤ 0x0D ∧ placeReg s f x p.1 = taskElse f p.2.2 p.2.1 := by
  simp only [placeRegisters, List.forall_mem_cons, List.not_mem_nil, false_imp_iff, implies_true, and_true, Nat.reduceLeDiff,
    true_and]
  unfold placeReg
  rw [launchOf_eq hg, wingReg_eq hg, hallThreads_eq hg]
  have same : ∀ v, v = taskElse f v v := fun v => (taskElse_same v).symm
  refine ⟨rfl, same _, rfl, rfl, rfl, rfl, rfl, ?_, same _, same _, same _, rfl, same _, rfl⟩
  cases f.win.bind (mget s.windows) <;> rfl

theorem flagField_succ (f : Flight) (n m : Nat) :
    flagField f n (m + 1) = flagField f n m + f.flagCount (n + m) % 64 * 2 ^ (6 * m) := by
  simp only [flagField, List.range_succ, List.map_append, List.sum_append, List.map_cons, List.map_nil, List.sum_singleton]

theorem flagField_two (f : Flight) (n : Nat) : flagField f n 2 = f.flagCount n % 64 + f.flagCount (n + 1) % 64 * 2 ^ 6 := by
  rw [flagField_succ, flagField_succ, Nat.mul_zero, Nat.pow_zero, Nat.mul_one]
  simp only [flagField, List.range_zero, List.map_nil, List.sum_nil, Nat.zero_add, Nat.add_zero, Nat.mul_one]

theorem flagField_five (f : Flight) (n : Nat) : flagField f n 5 = f.flagCount n % 64 + f.flagCount (n + 1) % 64 * 2 ^ 6
    + f.flagCount (n + 2) % 64 * 2 ^ 12 + f.flagCount (n + 3) % 64 * 2 ^ 18 + f.flagCount (n + 4) % 64 * 2 ^ 24 := by
  rw [flagField_succ, flagField_succ, flagField_succ, flagField_two]

/-- The numbers of the other registers. -/
theorem otherRegisters_number : ∀ p ∈ otherRegisters s f g c x k, 0x0E ≤ p.1 ∧ p.1 ≤ 0x10F := by
  simp only [otherRegisters, List.forall_mem_cons, List.not_mem_nil, false_imp_iff, implies_true, Nat.reduceLeDiff, and_self]

theorem otherRegisters_sib :
    ∀ p ∈ otherRegisters s f g c x k, p.1 = 0x0E → p.2 = if f.single x then 0 else k := by
  simp only [otherRegisters, List.forall_mem_cons, List.not_mem_nil, false_imp_iff, implies_true, Nat.reduceEqDiff, and_self]

theorem otherRegisters_place : ∀ p ∈ otherRegisters s f g c x k, 0x10 ≤ p.1 ∧ p.1 ≤ 0x13 → placeReg s f x p.1 = p.2 := by
  simp only [otherRegisters, List.forall_mem_cons, List.not_mem_nil, false_imp_iff, implies_true, and_true, Nat.reduceLeDiff,
    true_and, and_false, forall_const]
  exact ⟨rfl, rfl, rfl, rfl⟩

theorem otherRegisters_state (hc : f.clause = some c) :
    ∀ p ∈ otherRegisters s f g c x k, p.1 = 0x0F ∨ 0x14 ≤ p.1 ∧ p.1 ≤ 0x1F → stateReg s f x p.1 = p.2 := by
  simp only [otherRegisters, List.forall_mem_cons, List.not_mem_nil, false_imp_iff, implies_true, and_true, Nat.reduceLeDiff,
    Nat.reduceEqDiff, true_and, and_false, or_false, or_true, forall_const]
  unfold stateReg
  rw [hc]
  refine ⟨rfl, rfl, rfl, rfl, rfl, rfl, flagField_five f 0, flagField_five f 5, flagField_two f 10, ?_, rfl, rfl, rfl⟩
  cases f.task <;> rfl

theorem otherRegisters_trap : ∀ p ∈ otherRegisters s f g c x k, 0x20 ≤ p.1 ∧ p.1 ≤ 0xFF → trapReg f x k p.1 = p.2 := by
  simp only [otherRegisters, List.forall_mem_cons, List.not_mem_nil, false_imp_iff, implies_true, and_true, Nat.reduceLeDiff,
    true_and, and_false, forall_const]
  simp only [trapReg]
  cases (f.thread x).handler with
  | false => exact ⟨rfl, rfl, rfl, rfl, rfl, rfl, rfl, rfl, rfl⟩
  | true => cases (f.thread x).inst <;> exact ⟨rfl, rfl, rfl, rfl, rfl, rfl, rfl, rfl, rfl⟩

theorem otherRegisters_ctl (hg : mget s.galleries f.gallery = some g) :
    ∀ p ∈ otherRegisters s f g c x k, 0x100 ≤ p.1 → ctlReg s f p.1 = p.2 := by
  simp only [otherRegisters, List.forall_mem_cons, List.not_mem_nil, false_imp_iff, implies_true, and_true, Nat.reduceLeDiff,
    true_and, forall_const]
  simp only [ctlReg, launchOf_eq hg, Option.map_some, Option.getD_some, and_self]

/-- Every other register is read as the tables give it (R62, R130, R171, R173, R209, R301). -/
theorem otherRegisters_read (hc : f.clause = some c) (hg : mget s.galleries f.gallery = some g) :
    ∀ p ∈ otherRegisters s f g c x k, regRead s f x k p.1 = BitVec.ofNat 32 p.2 := by
  intro p hp
  obtain ⟨low, high⟩ := otherRegisters_number p hp
  have range : p.1 = 0x0E ∨ (0x10 ≤ p.1 ∧ p.1 ≤ 0x13) ∨ (p.1 = 0x0F ∨ 0x14 ≤ p.1 ∧ p.1 ≤ 0x1F) ∨ (0x20 ≤ p.1 ∧ p.1 ≤ 0xFF)
      ∨ 0x100 ≤ p.1 := by omega
  obtain sib | place | state | trap | ctl := range
  · rw [otherRegisters_sib p hp sib, sib, regRead_sib]
  · rw [regRead_place (.inr place), otherRegisters_place p hp place]
  · rw [regRead_state state, otherRegisters_state hc p hp state]
  · rw [regRead_trap trap, otherRegisters_trap p hp trap]
  · rw [regRead_ctl ctl, otherRegisters_ctl hg p hp ctl]

end

/-! ### Reading -/

/-- The values of an operation may be given otherwise for threads that are not active. -/
theorem Does.congr_active {i : Instr} {s : State} {u : Nat} {f own : Flight} {c : ClauseRun} {r : OpRegs} {thr : Nat → Thread}
    {v w : Nat → Nat → Tri Word} (h : Does i s u f c r v thr own)
    (e : ∀ j, ∀ x ∈ c.act, ∀ k < 3, (v j (computes r.u c x)).get k = (w j (computes r.u c x)).get k) :
    Does i s u f c r w thr own := by
  obtain ⟨t, g, next, flight, holds, rest⟩ := h
  refine ⟨t, g, next, flight, fun j n hn hl x hx k hk => ?_, rest⟩
  rw [holds j n hn hl x hx k hk, e j x hx _ (shown_lt hk)]

/-- SRD writes what a register of a legal number reads (R170). -/
theorem srd_writes {s : State} {w : Nat} {f : Flight} {c : ClauseRun} {d : BitVec 7} {num : Nat} (a : Issuing s w f c)
    (h : Ready s w f c (regsD d 1 false 0 f)) (legal : num < 2 ^ 14) {v : Nat → Tri Word}
    (hv : ∀ x ∈ c.act, ∀ k < 3, regRead s f x k num = (v x).get k) :
    WritesRegs (.srd d (BitVec.ofNat 14 num)) s w f c (regsD d 1 false 0 f) (fun _ => v) := by
  have number : (BitVec.ofNat 14 num).toNat = num := by rw [BitVec.toNat_ofNat, Nat.mod_eq_of_lt legal]
  have reads : WritesRegs (.srd d (BitVec.ofNat 14 num)) s w f c (regsD d 1 false 0 f)
      (fun _ x => Tri.of fun k => regRead s f x k num) := by
    refine regOp_gives a h (exec_srd s) rfl fun j x k hj _ => ?_
    obtain rfl : j = 0 := Nat.lt_one_iff.1 hj
    rw [nth_one, number]
  refine Does.congr_active reads fun _ x hx k hk => ?_
  rw [tri_of_get _ hk]
  exact hv x hx k hk

/-! ### Writing control registers -/

theorem pairOf_toNat (lo hi : Word) : (pairOf lo hi).toNat = hi.toNat * 2 ^ 32 + lo.toNat := by
  rw [pairOf, BitVec.toNat_append, ← Nat.shiftLeft_add_eq_or_of_lt lo.isLt, Nat.shiftLeft_eq]

theorem loHalf_toNat (x : DWord) : (loHalf x).toNat = x.toNat % 2 ^ 32 := BitVec.toNat_setWidth ..

theorem hiHalf_toNat (x : DWord) : (hiHalf x).toNat = x.toNat / 2 ^ 32 := by
  have := x.isLt
  rw [hiHalf, BitVec.toNat_setWidth, BitVec.toNat_ushiftRight, Nat.shiftRight_eq_div_pow]
  omega

theorem setWidth_ushiftRight_eq {w : Nat} (v : BitVec w) (n m : Nat) : (v >>> n).setWidth m = BitVec.ofNat m (v.toNat / 2 ^ n) := by
  rw [← BitVec.ofNat_toNat, BitVec.toNat_ushiftRight, Nat.shiftRight_eq_div_pow]

/-- A write gives the control registers of the tables (R62, R130, R173, R301). -/
theorem writtenControl_written (narrow : Bool) (k : Ctl) (v : Word) :
    ∀ p ∈ writtenControl narrow k v, p.1 < 2 ^ 14 ∧ ctlWrite narrow k p.1 v = p.2 := by
  have low : pairOf v (hiHalf k.rpat) = BitVec.ofNat 64 (k.rpat.toNat / 2 ^ 32 * 2 ^ 32 + v.toNat) := by
    rw [← hiHalf_toNat, ← pairOf_toNat, BitVec.ofNat_toNat, BitVec.setWidth_eq]
  have high : pairOf (loHalf k.rpat) v = BitVec.ofNat 64 (k.rpat.toNat % 2 ^ 32 + v.toNat * 2 ^ 32) := by
    rw [← loHalf_toNat, Nat.add_comm, ← pairOf_toNat, BitVec.ofNat_toNat, BitVec.setWidth_eq]
  simp only [writtenControl, List.forall_mem_cons, List.not_mem_nil, false_imp_iff, implies_true, and_true, ctlWrite, low, high,
    setWidth_ushiftRight_eq, BitVec.ofNat_toNat]
  decide

/-- SWR changes the control registers of its flight alone (R170). -/
theorem swr_does {s : State} {w : Nat} {f : Flight} {c : ClauseRun} {d : BitVec 7} {num : BitVec 14} (a : Issuing s w f c)
    (h : Ready s w f c (regsS [(d, 1)] [] false 0 f)) (val : Nat → Nat → Tri Word) :
    Does (.swr d num) s w f c (regsS [(d, 1)] [] false 0 f) val f.thread
      { f with ctl := ctlWrite f.narrow f.ctl num.toNat (majorityOf (f.opnd (lowest c) d)) } := by
  have majority : (f.majReg (lowest c) d).1 = majorityOf (f.opnd (lowest c) d) := tri_maj_fst _
  rw [← majority]
  refine Does.occ (r := regsS [(d, 1)] [] false 2 f) ?_ rfl
  refine does_of a.flight (c' := c) ((exec_swr s).trans (runOp_done a (h.occ rfl) rfl)) (busy_occupy ..) a.clause
    ⟨rfl, fun _ _ => rfl⟩ rfl (fun hy => clause_yielded a hy) ?_ ?_ ⟨fun _ _ _ => rfl, fun _ _ _ _ _ _ _ => rfl⟩
    (fun _ _ => Moved.refl _) (fun _ => trivial)
  · intro j n hn
    simp [regsS] at hn
  · intro _ _ n hn
    simp [regsS] at hn

/-! ### Time and pre-emption -/

theorem halves_eq (x : DWord) {j : Nat} (h : j < 2) :
    nth ((halves x).map Tri.rep) j = Tri.rep (BitVec.ofNat 32 (x.toNat / 2 ^ (32 * j))) := by
  match j, h with
  | 0, _ => exact congrArg Tri.rep (by rw [loHalf, Nat.mul_zero, Nat.pow_zero, Nat.div_one, BitVec.ofNat_toNat])
  | 1, _ => exact congrArg Tri.rep (setWidth_ushiftRight_eq x 32 32)

/-- The nanoseconds left before a deadline, at least 1 and saturating (R177). -/
theorem nanosecondsLeft_eq (deadline now : Nat) : max 1 (min (2 ^ 32 - 1) (deadline - now)) =
    if deadline ≤ now then 1 else if deadline - now < 2 ^ 32 then deadline - now else 2 ^ 32 - 1 := by
  split
  · omega
  · split <;> omega

/-- Settles O29: reading goes by the number's table (R170 to R173, R209), a write by the table of R62, and TIME and PREQ give the time
base and what is left of the deadline (R176, R177). -/
theorem systemRegisters : Obligations.SystemRegisters := by
  intro s w f c a active
  obtain ⟨x₀, active₀⟩ := List.exists_mem_of_ne_nil _ active
  refine ⟨fun d g hg h => ⟨fun num hall task mem => ?_, fun num val mem => ?_⟩, fun d h p hp => ?_, fun d h => ?_, fun d h => ?_⟩
  · have legal := (placeRegisters_read hg _ (mem x₀ active₀)).1
    refine srd_writes a h (by omega) fun x hx k _ => ?_
    rw [regRead_place (.inl legal), (placeRegisters_read hg _ (mem x hx)).2, tri_rep_get, taskElse]
  · have legal := (otherRegisters_number _ (mem x₀ active₀ 0 (by decide))).2
    refine srd_writes a h (by omega) fun x hx k hk => ?_
    rw [otherRegisters_read a.clause hg _ (mem x hx k hk), tri_of_get _ hk]
  · obtain ⟨legal, written⟩ := writtenControl_written _ _ _ p hp
    have done := swr_does (num := BitVec.ofNat 14 p.1) a h fun _ _ => Tri.rep 0
    rwa [BitVec.toNat_ofNat, Nat.mod_eq_of_lt legal, written] at done
  · refine regOp_gives a h (exec_time s) rfl fun j _ _ hj _ => ?_
    rw [halves_eq _ hj, BitVec.toNat_ofNat]
  · refine regOp_gives a h (exec_preq s) rfl fun j _ _ hj _ => ?_
    obtain rfl : j = 0 := Nat.lt_one_iff.1 hj
    rw [nth_one, preqValue]
    cases (s.ctxt f.context).deadline with
    | none => rfl
    | some t => simp only [nanosecondsLeft_eq]

end Sys2Proof.Machine
end

section
namespace Sys2Proof.Machine

/-! ## Integers, logic and bit fields (R84 to R92) -/

/-! ### Words from numbers -/

theorem ofInt_sub_toNat {w : Nat} (a b : BitVec w) : BitVec.ofInt w ((a.toNat : Int) - b.toNat) = a - b := by
  rw [Int.sub_eq_add_neg, BitVec.ofInt_add, BitVec.ofInt_neg, BitVec.ofInt_natCast, BitVec.ofInt_natCast, BitVec.ofNat_toNat,
    BitVec.ofNat_toNat, BitVec.setWidth_eq, BitVec.setWidth_eq, BitVec.sub_eq_add_neg]

theorem two_pow_cast (n : Nat) : ((2 ^ n : Nat) : Int) = 2 ^ n := Int.natCast_pow 2 n

theorem two_pow_ne_zero (n : Nat) : (2 : Int) ^ n ≠ 0 := Int.ne_of_gt (Int.pow_pos (by decide))

/-- Bits [p + l - 1 : p] of a number are bits of what is left of it modulo a greater power of two. -/
theorem emod_ediv_emod_two_pow {p l n : Nat} (h : p + l ≤ n) (x : Int) :
    x % 2 ^ n / 2 ^ p % 2 ^ l = x / 2 ^ p % 2 ^ l := by
  have above : (2 : Int) ^ n = 2 ^ p * (2 ^ l * 2 ^ (n - (p + l))) := by
    rw [← Int.pow_add, ← Int.pow_add]
    exact congrArg _ (by omega)
  have whole : x / 2 ^ p = x % 2 ^ n / 2 ^ p + 2 ^ l * (2 ^ (n - (p + l)) * (x / 2 ^ n)) := by
    have parts : x / 2 ^ p = (x % 2 ^ n + 2 ^ n * (x / 2 ^ n)) / 2 ^ p := by rw [Int.emod_add_mul_ediv]
    rw [parts, above, Int.mul_assoc, Int.add_mul_ediv_left _ _ (two_pow_ne_zero p), Int.mul_assoc]
  rw [whole, Int.add_mul_emod_self_left]

/-- A field of the pattern of a number, as a number. -/
theorem field_ofInt {p l n : Nat} (h : p + l ≤ n) (x : Int) :
    (((BitVec.ofInt n x >>> p).toNat % 2 ^ l : Nat) : Int) = x / 2 ^ p % 2 ^ l := by
  have low : ((x % 2 ^ n).toNat : Int) = x % 2 ^ n := Int.toNat_of_nonneg (Int.emod_nonneg _ (two_pow_ne_zero n))
  rw [BitVec.toNat_ushiftRight, Nat.shiftRight_eq_div_pow, BitVec.toNat_ofInt, Int.natCast_emod, Int.natCast_ediv, two_pow_cast,
    two_pow_cast, two_pow_cast, low, emod_ediv_emod_two_pow h]

theorem extractLsb'_ofInt {p l n : Nat} (h : p + l ≤ n) (x : Int) :
    (BitVec.ofInt n x).extractLsb' p l = BitVec.ofInt l (x / 2 ^ p) := by
  apply BitVec.eq_of_toNat_eq
  rw [BitVec.extractLsb'_toNat, BitVec.toNat_ofInt (x / 2 ^ p), two_pow_cast, ← field_ofInt h, Int.toNat_natCast,
    BitVec.toNat_ushiftRight]

/-! ### Arithmetic -/

theorem ofNat_add_toNat {w : Nat} (a b : BitVec w) : BitVec.ofNat w (a.toNat + b.toNat) = a + b := by
  simp only [BitVec.ofNat_add, BitVec.ofNat_toNat, BitVec.setWidth_eq]

theorem ofNat_mul_toNat {w : Nat} (a b : BitVec w) : BitVec.ofNat w (a.toNat * b.toNat) = a * b := by
  simp only [BitVec.ofNat_mul, BitVec.ofNat_toNat, BitVec.setWidth_eq]

theorem ofNat_add_mul_toNat {w : Nat} (d a b : BitVec w) : BitVec.ofNat w (d.toNat + a.toNat * b.toNat) = d + a * b := by
  simp only [BitVec.ofNat_add, BitVec.ofNat_mul, BitVec.ofNat_toNat, BitVec.setWidth_eq]

theorem sat32_eq_clamp32 (x : Int) : sat32 x = clamp32 x := by
  unfold sat32 clamp32
  split
  · omega
  · split <;> omega

theorem imulh_word (a b : Word) :
    BitVec.ofInt 32 (sval a * sval b / 2 ^ 32) = (BitVec.ofInt 64 (a.toInt * b.toInt)).extractLsb' 32 32 :=
  (extractLsb'_ofInt (p := 32) (l := 32) (n := 64) (by decide) _).symm

/-! ### Shifts -/

theorem shlW_eq (a : Word) (n : Nat) : shlW a n = BitVec.ofNat 32 (a.toNat * 2 ^ n) := by
  apply BitVec.eq_of_toNat_eq
  rw [shlW, BitVec.toNat_shiftLeft, Nat.shiftLeft_eq, BitVec.toNat_ofNat]

theorem shrW_eq (a : Word) (n : Nat) : shrW a n = BitVec.ofNat 32 (a.toNat / 2 ^ n) := by
  rw [shrW, ← setWidth_ushiftRight_eq, BitVec.setWidth_eq]

theorem sarW_eq (a : Word) (n : Nat) : sarW a n = BitVec.ofInt 32 (a.toInt / 2 ^ min n 31) := by
  rw [sarW, ← BitVec.ofInt_toInt (x := a.sshiftRight _), BitVec.toInt_sshiftRight, Int.shiftRight_eq_div_pow]
  norm_cast

theorem rolW_eq {n : Nat} (h : n < 32) (a : Word) :
    rolW a n = BitVec.ofNat 32 (a.toNat * 2 ^ n) ||| BitVec.ofNat 32 (a.toNat / 2 ^ (32 - n)) := by
  rw [rolW, BitVec.rotateLeft_def, Nat.mod_eq_of_lt h, ← shlW_eq, ← shrW_eq]
  rfl

/-! ### Counting bits -/

theorem popcount_eq (a : Word) : ∀ n, popcount a n = ((List.range n).filter fun i => a.getLsbD i).length
  | 0 => rfl
  | n + 1 => by
    rw [popcount, popcount_eq a n, List.range_succ, List.filter_append, List.length_append, List.filter_cons, List.filter_nil]
    cases a.getLsbD n <;> rfl

/-- Looking down from the top bit; p says which bits are zero. -/
theorem leadingZeros_eq (a : Word) : ∀ (n : Nat) (p : Nat → Bool), (∀ i < n, p i = !a.getLsbD (n - 1 - i)) →
    leadingZeros a n = ((List.range n).takeWhile p).length
  | 0, _, _ => rfl
  | n + 1, p, h => by
    have first : p 0 = !a.getLsbD n := h 0 (Nat.succ_pos n)
    have ih := leadingZeros_eq a n (p ∘ Nat.succ) fun i hi => by
      rw [Function.comp_apply, h _ (Nat.succ_lt_succ hi), Nat.sub_sub n, Nat.add_comm 1]; rfl
    rw [leadingZeros, ih, List.range_succ_eq_map, List.takeWhile_cons, List.takeWhile_map, first]
    cases a.getLsbD n <;> simp

theorem clz_eq (a : Word) : leadingZeros a 32 = ((List.range 32).takeWhile fun i => !a.getMsbD i).length :=
  leadingZeros_eq a 32 _ fun i hi => by rw [BitVec.getMsbD_eq_getLsbD, decide_eq_true hi, Bool.true_and]

theorem sum_bits_lt (p : Nat → Bool) : ∀ n, ((List.range n).map fun i => if p i then 2 ^ i else 0).sum < 2 ^ n
  | 0 => Nat.one_pos
  | n + 1 => by
    have below := sum_bits_lt p n
    rw [List.range_succ, List.map_append, List.sum_append, List.map_singleton, List.sum_singleton, Nat.two_pow_succ]
    split <;> omega

/-- A sum of distinct powers of two has their bits. -/
theorem testBit_sum_bits (p : Nat → Bool) {j : Nat} : ∀ {n : Nat}, j < n →
    ((List.range n).map fun i => if p i then 2 ^ i else 0).sum.testBit j = p j
  | n + 1, h => by
    have below := sum_bits_lt p n
    rw [List.range_succ, List.map_append, List.sum_append, List.map_singleton, List.sum_singleton, Nat.add_comm]
    obtain before | rfl := Nat.lt_succ_iff_lt_or_eq.1 h
    · have ih := testBit_sum_bits p before
      split
      · rw [Nat.testBit_two_pow_add_gt before, ih]
      · rw [Nat.zero_add, ih]
    · split
      · next set => rw [Nat.testBit_two_pow_add_eq, Nat.testBit_lt_two_pow below, set]; rfl
      · next clear => rw [Nat.zero_add, Nat.testBit_lt_two_pow below, Bool.eq_false_iff.2 clear]

/-- A word given by the sum of its bits. -/
theorem getLsbD_sum_bits (p : Nat → Bool) {j n : Nat} (h : j < n) :
    (BitVec.ofNat n ((List.range n).map fun i => if p i then 2 ^ i else 0).sum).getLsbD j = p j := by
  rw [BitVec.getLsbD_ofNat, testBit_sum_bits p h, decide_eq_true h, Bool.true_and]

theorem brevW_eq (a : Word) :
    brevW a = BitVec.ofNat 32 ((List.range 32).map fun i => if a.getLsbD (31 - i) then 2 ^ i else 0).sum := by
  refine BitVec.eq_of_getLsbD_eq fun i hi => ?_
  rw [getLsbD_sum_bits (fun i => a.getLsbD (31 - i)) hi, brevW, BitVec.getLsbD_reverse, BitVec.getMsbD_eq_getLsbD,
    decide_eq_true hi, Bool.true_and]

/-! ### Bit fields -/

theorem bits_pos (b : Word) : bits b.toNat 4 0 = b.toNat % 32 := congrArg (· % 32) (Nat.div_one b.toNat)

theorem bits_len (b : Word) : bits b.toNat 12 8 = b.toNat / 2 ^ 8 % 32 := rfl

theorem testBit_top {f n : Nat} (h : f < 2 ^ (n + 1)) : f.testBit n = decide (2 ^ n ≤ f) := by
  have pos := Nat.two_pow_pos n
  have quotient : f / 2 ^ n < 2 := Nat.div_lt_of_lt_mul (by rwa [Nat.two_pow_succ, ← Nat.mul_two] at h)
  have one : 1 ≤ f / 2 ^ n ↔ 2 ^ n ≤ f := by rw [Nat.le_div_iff_mul_le pos, Nat.one_mul]
  rw [Nat.testBit_eq_decide_div_mod_eq, decide_eq_decide, ← one]
  generalize f / 2 ^ n = q at quotient
  omega

theorem bfxW_eq (a b : Word) :
    bfxW a b = BitVec.ofInt 32 (fieldOf a (b.toNat % 32) (b.toNat / 2 ^ 8 % 32 + 1) (b.getLsbD 16)) := by
  have room : b.toNat % 32 + (b.toNat / 2 ^ 8 % 32 + 1) ≤ 64 := by omega
  have source : (if b.getLsbD 16 then a.signExtend 64 else a.setWidth 64) =
      BitVec.ofInt 64 (if b.getLsbD 16 then a.toInt else a.toNat) := by
    split
    · rfl
    · rw [BitVec.ofInt_natCast, BitVec.ofNat_toNat]
  unfold bfxW fieldOf
  dsimp only
  rw [bits_pos, bits_len, source, ← field_ofInt room, Nat.add_sub_cancel, testBit_top (Nat.mod_lt _ (Nat.two_pow_pos _))]
  rw [apply_ite (BitVec.ofInt 32), BitVec.ofInt_natCast]
  norm_cast

theorem bfiW_eq (d a b : Word) : bfiW d a b = inserted d a b := by
  unfold bfiW inserted
  dsimp only
  rw [bits_pos, bits_len, ← shlW_eq, shlW]

/-! ### Format T on single registers -/

/-- Executing an instruction of format T gives d, in each sibling, g of d, a and b. -/
def Gives3 (mk : FormT) (acc : Bool) (g : Word → Word → Word → Word) : Prop :=
  ∃ occ, ∀ u d a b la lb s, exec (mk u d a b la lb) s = int3 s u d a b la lb acc occ g

theorem Gives3.congr {mk : FormT} {acc : Bool} {g g' : Word → Word → Word → Word} (h : Gives3 mk acc g)
    (e : ∀ d a b, g d a b = g' d a b) : Gives3 mk acc g' := by
  have same : g = g' := funext fun d => funext fun a => funext (e d a)
  rwa [← same]

theorem Gives3.writes {mk : FormT} {acc : Bool} {g : Word → Word → Word → Word} (h : Gives3 mk acc g) (u d a b la lb s w f c)
    (q : Issuing s w f c) (ready : Ready s w f c (regs3 u d a b 1 1 1 la lb acc 0 f)) :
    WritesRegs (mk u d a b la lb) s w f c (regs3 u d a b 1 1 1 la lb acc 0 f) fun _ x =>
      Tri.of fun k => g ((f.opnd x d).get k) ((f.opnd x a).get k) ((f.opnd x b).get k) := by
  obtain ⟨occ, e⟩ := h
  exact int3_gives q ready (e u d a b la lb s) fun x k hk => tri_of_get _ hk

theorem arithmetic_gives : ∀ p ∈ arithmetic, Gives3 p.1 false fun _ => p.2 := by
  simp only [arithmetic, List.forall_mem_cons, List.not_mem_nil, false_imp_iff, implies_true, and_true]
  refine ⟨?iadd, ?isub, ?imin, ?imax, ?imul, ?imulh, ?imulhu, ?iabsd, ?iminu⟩
  case iadd => exact .congr ⟨2, fun _ _ _ _ _ _ => exec_iadd⟩ fun _ a b => (ofNat_add_toNat a b).symm
  case isub => exact .congr ⟨2, fun _ _ _ _ _ _ => exec_isub⟩ fun _ a b => (ofInt_sub_toNat a b).symm
  case imin => exact ⟨2, fun _ _ _ _ _ _ => exec_imin⟩
  case imax => exact ⟨2, fun _ _ _ _ _ _ => exec_imax⟩
  case imul => exact .congr ⟨4, fun _ _ _ _ _ _ => exec_imul⟩ fun _ a b => (ofNat_mul_toNat a b).symm
  case imulh => exact .congr ⟨4, fun _ _ _ _ _ _ => exec_imulh⟩ fun _ => imulh_word
  case imulhu => exact ⟨4, fun _ _ _ _ _ _ => exec_imulhu⟩
  case iabsd => exact ⟨2, fun _ _ _ _ _ _ => exec_iabsd⟩
  case iminu => exact ⟨2, fun _ _ _ _ _ _ => exec_iminu⟩

theorem accumulating_gives : ∀ p ∈ accumulating, Gives3 p.1 true p.2 := by
  simp only [accumulating, List.forall_mem_cons, List.not_mem_nil, false_imp_iff, implies_true, and_true]
  refine ⟨?imad, ?iaddmin, ?iaddmax⟩
  case imad => exact .congr ⟨4, fun _ _ _ _ _ _ => exec_imad⟩ fun d a b => (ofNat_add_mul_toNat d a b).symm
  case iaddmin => exact .congr ⟨2, fun _ _ _ _ _ _ => exec_iaddmin⟩ fun d a b => by rw [sat32_eq_clamp32]; rfl
  case iaddmax => exact .congr ⟨2, fun _ _ _ _ _ _ => exec_iaddmax⟩ fun d a b => by rw [sat32_eq_clamp32]; rfl

theorem logic_gives : ∀ p ∈ logic, Gives3 p.1 false fun _ => p.2 := by
  simp only [logic, List.forall_mem_cons, List.not_mem_nil, false_imp_iff, implies_true, and_true]
  refine ⟨?and, ?or, ?xor, ?andn, ?shl, ?shr, ?sar, ?rol, ?bfx⟩
  case and => exact ⟨2, fun _ _ _ _ _ _ => exec_andR⟩
  case or => exact ⟨2, fun _ _ _ _ _ _ => exec_orR⟩
  case xor => exact ⟨2, fun _ _ _ _ _ _ => exec_xorR⟩
  case andn => exact ⟨2, fun _ _ _ _ _ _ => exec_andn⟩
  case shl => exact .congr ⟨2, fun _ _ _ _ _ _ => exec_shl⟩ fun _ a b => shlW_eq a _
  case shr => exact .congr ⟨2, fun _ _ _ _ _ _ => exec_shr⟩ fun _ a b => shrW_eq a _
  case sar => exact .congr ⟨2, fun _ _ _ _ _ _ => exec_sar⟩ fun _ a b => sarW_eq a _
  case rol => exact .congr ⟨2, fun _ _ _ _ _ _ => exec_rol⟩ fun _ a b => rolW_eq (Nat.mod_lt _ (by decide)) a
  case bfx => exact .congr ⟨2, fun _ _ _ _ _ _ => exec_bfx⟩ fun _ => bfxW_eq

/-- Settles O1: each instruction of R84 computes what the table gives (its words agree by the lemmas above), written as an
integer operation of format T writes. -/
theorem integerArithmetic : Obligations.IntegerArithmetic :=
  ⟨fun p hp => (arithmetic_gives p hp).writes, fun p hp => (accumulating_gives p hp).writes⟩

/-! ### One register operand -/

/-- An integer operation of one register operand writes what `op` gives for each sibling's a. -/
theorem int2_maps {i : Instr} {u d a la occ} {g : Word → Word → Word} {op : Word → Word} {s w f c} (q : Issuing s w f c)
    (h : Ready s w f c (regs2 u d a 1 1 la false 0 f)) (e : exec i s = int2 s u d a la false occ g)
    (same : ∀ d a, g d a = op a) :
    WritesRegs i s w f c (regs2 u d a 1 1 la false 0 f) fun _ x => (f.opnd x a).map op :=
  int2_gives q h e fun x k hk => by rw [tri_map_get op _ hk, same]

/-- Settles O2: by the tables of R85 and R86, the words agreeing by the lemmas above. -/
theorem logicShiftsAndBitFields : Obligations.LogicShiftsAndBitFields := by
  refine ⟨fun p hp => (logic_gives p hp).writes, ?counting, ?bfi⟩
  case counting =>
    simp only [counting, List.forall_mem_cons, List.not_mem_nil, false_imp_iff, implies_true, and_true]
    exact ⟨fun u d a la s w f c q h => int2_maps q h (exec_popc s) fun _ a => by rw [popcount_eq],
      fun u d a la s w f c q h => int2_maps q h (exec_clz s) fun _ a => by rw [clz_eq],
      fun u d a la s w f c q h => int2_maps q h (exec_brev s) fun _ => brevW_eq⟩
  case bfi =>
    exact Gives3.writes (.congr ⟨2, fun _ _ _ _ _ _ => exec_bfi⟩ bfiW_eq)

theorem movhW_eq (d : Word) (imm : BitVec 14) : movhW d imm = BitVec.ofNat 32 (imm.toNat * 2 ^ 18 + d.toNat % 2 ^ 18) := by
  apply BitVec.eq_of_toNat_eq
  have low : d.toNat % 2 ^ 18 < 2 ^ 18 := Nat.mod_lt _ (by decide)
  have high : (imm.setWidth 32 <<< 18).toNat = imm.toNat <<< 18 := by
    have size := imm.isLt
    rw [BitVec.toNat_shiftLeft, BitVec.toNat_setWidth, Nat.mod_eq_of_lt (a := imm.toNat) (by omega), Nat.shiftLeft_eq,
      Nat.mod_eq_of_lt (by omega)]
  have kept : (d &&& 0x0003FFFF#32).toNat = d.toNat % 2 ^ 18 := by
    rw [BitVec.toNat_and, ← Nat.and_two_pow_sub_one_eq_mod]
    rfl
  have fits : imm.toNat * 2 ^ 18 + d.toNat % 2 ^ 18 < 2 ^ 32 := by
    have size := imm.isLt
    omega
  rw [movhW, BitVec.toNat_or, high, kept, BitVec.toNat_ofNat, Nat.mod_eq_of_lt fits, ← Nat.shiftLeft_add_eq_or_of_lt low,
    Nat.shiftLeft_eq]

/-- PMOV's predicates below the n-th are the majorities, the others stand. -/
theorem pmovBits_getLsbD (t : Tri Word) : ∀ n, ∀ (x : BitVec 12), ∀ j < 12, (pmovBits t n x).getLsbD j =
    if j < n then majorityOf (t.map fun v => v.getLsbD j) else x.getLsbD j
  | 0, _, _, _ => rfl
  | n + 1, x, j, hj => by
    have bit : ∀ v, (setPredBit x n v).getLsbD j = if j = n then v else x.getLsbD j := fun v => by
      unfold setPredBit
      cases v <;> simp [hj]
      all_goals grind
    rw [pmovBits, pmovBits_getLsbD t n _ j hj, bit, tri_maj_fst]
    grind

theorem pmovBits_eq (t : Tri Word) (x : BitVec 12) : pmovBits t 12 x = majorityBits t :=
  BitVec.eq_of_getLsbD_eq fun j hj => by
    rw [pmovBits_getLsbD t 12 x j hj, if_pos hj, majorityBits, getLsbD_sum_bits _ hj]

/-- PMOV gives each active thread the majorities of its siblings' bits. -/
theorem pmov_does {s : State} {w : Nat} {f : Flight} {c : ClauseRun} {a : BitVec 7} {la : Bool} (q : Issuing s w f c)
    (h : Ready s w f c (regsS [(a, 1)] (if la then [a] else []) false 0 f)) :
    Does (.pmov a la) s w f c (regsS [(a, 1)] (if la then [a] else []) false 0 f) (fun _ _ => Tri.rep 0)
      (fun x => if x ∈ c.act then { f.thread x with preds := majorityBits (f.opnd x a) } else f.thread x) f := by
  have writes := threads_does (i := .pmov a la) (r := regsS [(a, 1)] (if la then [a] else []) false 2 f) q rfl
    (fun i t => { t with preds := pmovBits (f.opnd i a) 12 t.preds }) (.inr fun i t => by simp only [pmovBits_eq])
    ((exec_pmov s).trans (runOp_done q (h.occ rfl) rfl)) (busy_occupy ..) (fun _ _ => Tri.rep 0)
  simp only [pmovBits_eq] at writes
  exact Does.occ writes rfl

/-- Settles O3: the immediate forms compute with the sign-extended immediate or the amount (R88), and the moves write what R87
gives. -/
theorem immediateFormsAndMoves : Obligations.ImmediateFormsAndMoves := by
  refine ⟨⟨?immediates, ?shifts⟩, ?mov, ?movp, fun a la s w f c q h => pmov_does q h, ?movi, ?movh⟩
  case immediates =>
    simp only [immediates, List.forall_mem_cons, List.not_mem_nil, false_imp_iff, implies_true, and_true]
    exact ⟨fun u d a imm la s w f c q h => int2_maps q h (exec_iaddi s) fun _ _ => rfl,
      fun u d a imm la s w f c q h => int2_maps q h (exec_andi s) fun _ _ => rfl,
      fun u d a imm la s w f c q h => int2_maps q h (exec_ori s) fun _ _ => rfl,
      fun u d a imm la s w f c q h => int2_maps q h (exec_xori s) fun _ _ => rfl⟩
  case shifts =>
    simp only [immediateShifts, List.forall_mem_cons, List.not_mem_nil, false_imp_iff, implies_true, and_true]
    refine ⟨fun u d a amt la s w f c q h => int2_maps q h (exec_shli s) fun _ a => shlW_eq a _,
      fun u d a amt la s w f c q h => int2_maps q h (exec_shri s) fun _ a => shrW_eq a _,
      fun u d a amt la s w f c q h => int2_maps q h (exec_sari s) fun _ a => ?_,
      fun u d a amt la s w f c q h => int2_maps q h (exec_roli s) fun _ a => rolW_eq amt.isLt a⟩
    rw [sarW_eq, Nat.min_eq_left (Nat.le_of_lt_succ amt.isLt)]
  case mov => exact fun u d a la s w f c q h => int2_maps (op := id) q h (exec_mov s) fun _ _ => rfl
  case movp =>
    refine fun d s w f c q h => regOp_gives q h (exec_movp s) rfl fun j x k hj _ => ?_
    obtain rfl : j = 0 := Nat.lt_one_iff.1 hj
    rw [nth_one, BitVec.ofNat_toNat]
  case movi =>
    refine fun u d imm s w f c q h => regOp_gives q h (exec_movi s) rfl fun j x k hj _ => ?_
    obtain rfl : j = 0 := Nat.lt_one_iff.1 hj
    rw [nth_one]
    rfl
  case movh =>
    refine fun u d imm s w f c q h => regOp_gives q h (exec_movh s) rfl fun j x k hj _ => ?_
    obtain rfl : j = 0 := Nat.lt_one_iff.1 hj
    simp only [nth_one, movhW_eq]

/-! ### Pairs -/

theorem extractLsb'_eq_ofNat {w : Nat} (x : BitVec w) (p l : Nat) : x.extractLsb' p l = BitVec.ofNat l (x.toNat / 2 ^ p) :=
  congrArg (BitVec.ofNat l) (Nat.shiftRight_eq_div_pow ..)

theorem loHalf_eq_extractLsb' (x : DWord) : loHalf x = x.extractLsb' (32 * 0) 32 := by
  rw [extractLsb'_eq_ofNat, loHalf, ← BitVec.ofNat_toNat, Nat.mul_zero, Nat.pow_zero, Nat.div_one]

theorem hiHalf_eq_extractLsb' (x : DWord) : hiHalf x = x.extractLsb' (32 * 1) 32 := by
  rw [extractLsb'_eq_ofNat, hiHalf, setWidth_ushiftRight_eq]

/-- A 64-bit operation that computes v modulo 2^64 fills the pair with its halves. -/
theorem int64_gives {i : Instr} {u d a b wa wb la lb} {g : Flight → Nat → Nat → DWord} {s w f c} (q : Issuing s w f c)
    (h : Ready s w f c (regs3 u d a b 2 wa wb la lb false 0 f)) (e : exec i s = int64 s u d a b wa wb la lb g)
    {v : Nat → Nat → Int} (same : ∀ x, ∀ k < 3, g f x k = BitVec.ofInt 64 (v x k)) :
    WritesRegs i s w f c (regs3 u d a b 2 wa wb la lb false 0 f) fun j x => pairOut (v x) j := by
  refine regOp_gives q h e rfl fun j x k hj hk => ?_
  have half : j = 0 ∨ j = 1 := Nat.le_one_iff_eq_zero_or_eq_one.1 (Nat.le_of_lt_succ hj)
  have kth : ∀ t : DWord → Word, ((Tri.of (g f x)).map t).get (shown f k) = t (BitVec.ofInt 64 (v x (shown f k))) := fun t => by
    rw [tri_map_get _ _ (shown_lt hk), tri_of_get _ (shown_lt hk), same _ _ (shown_lt hk)]
  rw [pairOut, tri_of_get _ (shown_lt hk)]
  obtain rfl | rfl := half
  · exact (kth loHalf).trans (loHalf_eq_extractLsb' _)
  · exact (kth hiHalf).trans (hiHalf_eq_extractLsb' _)

theorem opndPair_get (f : Flight) (x : Nat) (a : BitVec 7) {k : Nat} (h : k < 3) :
    (f.opndPair x a).get k = BitVec.ofInt 64 (pairVal f x a k) := by
  have number : pairVal f x a k =
      (pairOf ((f.operand x (f.regName a.toNat)).get k) ((f.operand x (f.regName (a.toNat + 1))).get k)).toNat := by
    rw [pairOf_toNat, Nat.add_comm, Nat.mul_comm]
    rfl
  rw [Flight.opndPair, tri_zip_get _ _ _ h, number, BitVec.ofInt_natCast, BitVec.ofNat_toNat, BitVec.setWidth_eq]

theorem ofInt_mul_two_pow (v : Int) (n : Nat) : BitVec.ofInt 64 (v * 2 ^ n) = BitVec.ofInt 64 v <<< n := by
  have power : BitVec.ofInt 64 (2 ^ n) = BitVec.twoPow 64 n := by
    apply BitVec.eq_of_toNat_eq
    rw [BitVec.toNat_twoPow, ← BitVec.toNat_ofNat, ← BitVec.ofInt_natCast, two_pow_cast]
  rw [BitVec.ofInt_mul, BitVec.shiftLeft_eq_mul_twoPow, power]

/-- Settles O4: each of the five computes the exact result of R89 modulo 2^64, and a 64-bit operation writes its halves. -/
theorem sixtyFourBitIntegers : Obligations.SixtyFourBitIntegers := by
  refine ⟨fun u d a b sh la lb s w f c q h => int64_gives q h (exec_lea s) fun x k hk => ?lea,
    fun u d a b la lb s w f c q h => ⟨int64_gives q h (exec_iadd64 s) fun x k hk => ?add,
      int64_gives q h (exec_isub64 s) fun x k hk => ?sub⟩,
    fun u d a b la lb s w f c q h => int64_gives q h (exec_imulw s) fun x k hk => ?mul,
    fun u d a b la lb s w f c q h => int64_gives q h (exec_shl64 s) fun x k hk => ?shl⟩
  case lea =>
    rw [BitVec.ofInt_add, ofInt_mul_two_pow, ← opndPair_get f x a hk]
    rfl
  case add => rw [BitVec.ofInt_add, ← opndPair_get f x a hk, ← opndPair_get f x b hk]
  case sub =>
    rw [Int.sub_eq_add_neg, BitVec.ofInt_add, BitVec.ofInt_neg, ← opndPair_get f x a hk, ← opndPair_get f x b hk,
      BitVec.sub_eq_add_neg]
  case mul =>
    rw [BitVec.ofInt_mul]
    rfl
  case shl => rw [ofInt_mul_two_pow, ← opndPair_get f x a hk]

/-! ### Predicates -/

/-- Settles O5: SEL is a register operation that picks an operand by the predicate (R90). -/
theorem selectByPredicate : Obligations.SelectByPredicate := by
  intro u d a b p s w f c q h
  refine regOp_gives q h (exec_sel s) rfl fun j x k hj _ => ?_
  obtain rfl : j = 0 := Nat.lt_one_iff.1 hj
  rw [nth_one, Flight.pred]

theorem combine_eq (m : CombMode) (old new : Bool) : combine m old new = combined m old new := by cases m <;> rfl

theorem intHolds_eq (cond : IntCond) (a b : Word) : intHolds cond a b = compares cond a b := by
  cases cond with
  | ne => exact decide_not.symm
  | lo | ls | hi | hs =>
    rw [Bool.eq_iff_iff]
    simp [intHolds, compares, uval]
  | eq | lt | le | gt | ge => rfl

/-- Settles O6: ICMP and the logic of predicates write one predicate of each active thread and nothing else (R91, R92). -/
theorem compareIntegersAndPredicateLogic : Obligations.CompareIntegersAndPredicateLogic := by
  refine ⟨fun u mode p a b cond s w f c q h => ?icmp, fun d a b s w f c q h => ?logic⟩
  case icmp =>
    have writes := predOp_does (i := .icmp u mode p a b cond) q h (exec_icmp s) rfl rfl fun _ _ => Tri.rep 0
    simp only [tri_maj_fst, combine_eq, funext fun x => funext (intHolds_eq cond x)] at writes
    exact writes
  case logic =>
    exact ⟨predOp_does q h (exec_pand s) rfl rfl _, predOp_does q h (exec_por s) rfl rfl _,
      predOp_does q h (exec_pxor s) rfl rfl _, predOp_does q h (exec_pnot s) rfl rfl _⟩

end Sys2Proof.Machine
end
section
namespace Sys2Proof.Machine

/-! ## An atomic that its engine's lease holds up (R237, R238) -/

/-! ### What ATOMIC_PERFORM leaves not performed -/

theorem undone_of_flight {t : State} {u id : Nat} {g : Flight} (flight : mget t.flights u = some g)
    (all : ∀ x, g.entry? id = some x → (atomRequests x).all (·.done) = true) : undone t u id = 0 := by
  unfold undone
  rw [flight, Option.bind_some]
  cases entry : g.entry? id with
  | none => rfl
  | some x =>
    have done := List.all_eq_true.1 (all x entry)
    rw [List.length_eq_zero_iff, List.filter_eq_nil_iff]
    intro r hr
    simp [done r hr]

theorem undone_wake (s : State) (u id : Nat) : undone s.wake u id = undone s u id := by
  unfold undone
  rw [State.wake_flights, mget_mmapv]
  cases mget s.flights u <;> rfl

/-- ATOMIC_PERFORM of a resident flight performs its entry or does not happen. -/
theorem atomicPerform_next {s t : State} {u id : Nat} {f : Flight} (flight : mget s.flights u = some f)
    (next : exec (.atomicPerform u id) s = .next t) : t = (s.performEntry u id).wake ∨ t = s.idle := by
  rw [exec_atomicPerform, execAtomicPerform, flight] at next
  dsimp only at next
  generalize (!_ && _ && _ : Bool) = happens at next
  cases happens with
  | true => exact .inl (Host.Outcome.next.inj next).symm
  | false => exact .inr (Host.Outcome.next.inj next).symm

/-- A request behind another that is not performed is left alone (R237). -/
theorem performOne_behind {w : Occasion} {all : List Request} {s : State} {r : Request} (notSaved : r.win = none)
    (ahead : (s.live w).any (fun p => s.before p r) = true) : State.performOne w all s r = s := by
  unfold State.performOne
  split
  · rfl
  · dsimp only
    rw [notSaved, ahead]
    exact if_pos rfl

/-- A request on global memory with nothing before it, at a bank with room, is performed. -/
theorem performOne_first {w : Occasion} {all : List Request} {s : State} {r : Request} {f : Flight} {e : Entry} {post op use dests}
    {rs : List AtomReq} {q : AtomReq} (flight : mget s.flights r.flight = some f) (entry : f.entry? r.entry = some e)
    (pay : e.pay = .atom post op use dests rs) (request : rs[r.ix]? = some q) (waits : q.done = false)
    (first : (s.live w).any (fun p => s.before p r) = false) (room : s.canRecord q.pa = true) :
    State.performOne w all s r = (s.performGlobal w all f e r rs q).2.modFlight r.flight fun g =>
      g.setEntry { e with pay := .atom post op use dests (rs.set r.ix (s.performGlobal w all f e r rs q).1) } := by
  unfold State.performOne
  rw [flight, Option.bind_some, entry, Option.map_some]
  dsimp only
  rw [first, Bool.and_false, if_neg Bool.false_ne_true, pay]
  dsimp only
  rw [request]
  dsimp only
  rw [waits, room, Bool.not_true, Bool.and_false, Bool.false_and, Bool.or_false, if_neg Bool.false_ne_true]

theorem canRecord_of_spill_nil {s : State} {pa : Nat} (h : (s.die (State.homeDie pa)).spill = []) : s.canRecord pa = true := by
  rw [State.canRecord, h, Nat.blt_eq]
  exact Nat.succ_pos _

/-! ### Two ATOMs of one cluster -/

/-- A thread's request to add 1 at an address. -/
def addOne (slot pa : Nat) : AtomReq := ⟨slot, pa, 1, 0, false, 0, false⟩

/-- An ATOM that adds, with the cycle and the core where it issued. -/
def addEntry (id issued core : Nat) (rs : List AtomReq) : Entry :=
  { id := id, cls := .t, flag := 0, op := 1, body := none, word := 0, pc := 0x1000, tag := id, mask := rs.map (·.slot), done := 0, opnds := []
    addrs := rs.map fun r => (r.slot, r.pa), pay := .atom false .add32 .unp [20] rs, issued := issued, acked := false, parked := none
    discards := [], replay := false, resent := false, sent := [], fixed := [], core := core }

/-- A flight of two threads with an outstanding entry. -/
def adding (core : Nat) (e : Entry) : Flight :=
  { wordFlight State.reset 1 0 with
    core := core, entries := [e], threads := [(0, Thread.start 0 0 0x1000), (1, Thread.start 1 0 0x1000)] }

/-- The younger ATOM: its threads add at addresses 8 and 0 of one line. -/
def younger : Entry := addEntry 9 1 1 [addOne 0 8, addOne 1 0]

/-- Two cores of cluster 0 have each an ATOM outstanding on the line of address 0, which no engine has leased; the older one adds at
address 0. -/
def contended : State :=
  { State.reset with nextId := 10, flights := [(1, adding 0 (addEntry 8 0 0 [addOne 0 0])), (2, adding 1 younger)] }

/-- The request of one of the younger ATOM's threads. -/
def youngerRequest (ix pa : Nat) : Request := ⟨2, 9, ix, ix, 1, [1, 1, 0, 0, 9, ix], none, pa, 4, false, .add32, .unp⟩

theorem contended_first : ∀ r ∈ contended.requests, r.flight = 2 ∧ r.entry = younger.id ∨
    ∀ q ∈ entryRequests 2 (adding 1 younger) younger, contended.before r q = false := by
  decide

theorem contended_room : RecordRoom contended 2 := fun _ _ => ⟨Nat.succ_pos _, .inr fun _ _ => (by decide : 0 + 2 ≤ 1024)⟩

/-- Once thread 0's request is performed; its cluster has the lease. -/
def leasedBy0 : State :=
  let p := contended.performGlobal .agent (contended.live .agent) (adding 1 younger) younger (youngerRequest 0 8) [addOne 0 8, addOne 1 0] (addOne 0 8)
  p.2.modFlight 2 fun g => g.setEntry { younger with pay := .atom false .add32 .unp [20] ([addOne 0 8, addOne 1 0].set 0 p.1) }

theorem performOne_thread0 : State.performOne .agent (contended.live .agent) contended (youngerRequest 0 8) = leasedBy0 :=
  performOne_first (r := youngerRequest 0 8) (f := adding 1 younger) rfl rfl rfl rfl rfl (by decide) (canRecord_of_spill_nil rfl)

/-- The lease puts the older ATOM before thread 1's request. -/
theorem leasedBy0_before : (leasedBy0.live .agent).any (fun p => leasedBy0.before p (youngerRequest 1 0)) = true := by decide

theorem contended_performEntry : contended.performEntry 2 younger.id = leasedBy0.retest := by
  have requests : contended.behind .agent (fun r => r.flight == 2 && r.entry == younger.id) = [youngerRequest 0 8, youngerRequest 1 0] := by
    decide
  unfold State.performEntry State.performWhere
  dsimp only
  rw [requests, List.foldl_cons, performOne_thread0, List.foldl_cons, performOne_behind rfl leasedBy0_before, List.foldl_nil]

theorem contended_undone : undone (contended.performEntry 2 younger.id) 2 younger.id = 1 := by
  rw [contended_performEntry]
  decide

/-- Refutes O44: in `contended` no request is before one of the younger ATOM's. Performing its first request takes the lease of the
line for the cluster (R238), so that the older ATOM of the other core goes before the second (R237), which the step does not perform. -/
theorem not_loadsAndAtomicsComplete : ¬ Obligations.LoadsAndAtomicsComplete := by
  intro h
  obtain ⟨-, performs, -⟩ := h contended 2 (adding 1 younger) younger rfl rfl rfl rfl
  obtain ⟨t, g, next, flight, finished, -⟩ := performs false .add32 .unp [20] [addOne 0 8, addOne 1 0] rfl (by decide) (by decide)
    (by decide) rfl contended_room (by decide) (by decide) contended_first (by decide) (by decide)
  have none_left : undone t 2 younger.id = 0 := undone_of_flight flight fun x hx => (finished x hx).1
  obtain rfl | rfl := atomicPerform_next (f := adding 1 younger) rfl next
  · rw [undone_wake, contended_undone] at none_left
    cases none_left
  · exact absurd none_left (by decide)

end Sys2Proof.Machine
end
section
namespace Sys2Proof.Machine

/-! ## Floating-point arithmetic, functions and conversions (R94 to R105) -/

/-! ### Siblings that compute one value -/

theorem operand_single {f : Flight} {x : Nat} (one : f.single x = true) (n k : Nat) :
    (f.operand x n).get k = (f.operand x n).get 0 := by
  unfold Flight.operand
  dsimp only
  rw [if_pos one, tri_rep_get, tri_rep_get]

theorem opnd_single {f : Flight} {x : Nat} (one : f.single x = true) (a : BitVec 7) (k : Nat) :
    (f.opnd x a).get k = (f.opnd x a).get 0 := operand_single one _ k

theorem pairVal_single {f : Flight} {x : Nat} (one : f.single x = true) (a : BitVec 7) (k : Nat) :
    pairVal f x a k = pairVal f x a 0 := by
  unfold pairVal
  rw [operand_single one _ k, operand_single one _ k]

theorem operandVals_one (f : Flight) (x : Nat) (a : BitVec 7) {k : Nat} (h : k < 3) :
    (operandVals f x a 1).get k = ((f.opnd x a).get k).toNat := tri_of_get _ h

theorem operandVals_two (f : Flight) (x : Nat) (a : BitVec 7) {k : Nat} (h : k < 3) :
    (operandVals f x a 2).get k = pairVal f x a k := tri_of_get _ h

theorem operandVals_single {f : Flight} {x : Nat} (one : f.single x = true) (a : BitVec 7) (n k : Nat) :
    (operandVals f x a n).get k = (operandVals f x a n).get 0 := by
  have same : operandVals f x a n = Tri.rep (if n = 2 then pairVal f x a 0 else ((f.opnd x a).get 0).toNat) := by
    simp only [operandVals, Tri.of, Tri.rep, pairVal_single one a 1, pairVal_single one a 2, opnd_single one a 1, opnd_single one a 2]
  rw [same, tri_rep_get, tri_rep_get]

theorem rnd_single {f : Flight} {x : Nat} (one : f.single x = true) (k i : Nat) : f.rnd x k i = f.rnd x 0 i := by
  unfold Flight.rnd
  rw [if_pos one, if_pos one]

/-- Where a thread computes one value, so does each of its siblings. -/
theorem sibOuts_eq {f : Flight} {x : Nat} {g : Nat → SibOut} (one : f.single x = true → ∀ k < 3, g k = g 0) :
    sibOuts f x g = Tri.of g := by
  unfold sibOuts
  split
  · next h => simp only [Tri.of, Tri.rep, one h 1 (by decide), one h 2 (by decide)]
  · rfl

/-- A floating-point operation, with each sibling's words and flags as the rules give them. -/
theorem fpOp_gives {i : Instr} {s : State} {w : Nat} {f : Flight} {c : ClauseRun} {r : OpRegs} (q : Issuing s w f c)
    (distinct : c.act.Nodup) (h : Ready s w f c r) {regs : Flight → OpRegs} {draws : Nat} {g : Flight → Nat → Nat → SibOut}
    {cond : Flight → Nat → Tri SibOut → Option Meet} (e : exec i s = fpOp s regs draws g cond)
    (hr : regs f = { r with occ := (regs f).occ }) {out : Nat → Nat → List Word × Flags} {test : Nat → Met}
    (same : ∀ x, ∀ k < 3, g f x k = ⟨(out x k).1, (out x k).2⟩)
    (one : ∀ x, f.single x = true → ∀ k < 3, g f x k = g f x 0)
    (tests : ∀ x, cond f x (Tri.of (g f x)) = test x) : Computes i s w f c r draws out test := by
  have outs : ∀ x, sibOuts f x (g f x) = Tri.of (g f x) := fun x => sibOuts_eq (one x)
  refine fpOp_computes q distinct h e hr (fun x k j hk _ => ?words) (fun x => ?flags) (fun x _ => ?conditions)
  case words => rw [outs, tri_of_get _ hk, same x k hk]
  case flags => simp only [outs, outFlags, Tri.of, same x 0 (by decide), same x 1 (by decide), same x 2 (by decide)]
  case conditions => rw [outs, tests]

/-! ### Results as register words -/

theorem halves_ofNat (n : Nat) : halves (BitVec.ofNat 64 n) = [BitVec.ofNat 32 n, BitVec.ofNat 32 (n / 2 ^ 32)] := by
  have high : hiHalf (BitVec.ofNat 64 n) = BitVec.ofNat 32 (n / 2 ^ 32) := by
    apply BitVec.eq_of_toNat_eq
    rw [hiHalf_toNat, BitVec.toNat_ofNat, BitVec.toNat_ofNat]
    omega
  rw [halves, high, loHalf, BitVec.setWidth_ofNat_of_le (by decide)]

theorem FRes.two_eq (r : FRes) : r.two = ⟨[BitVec.ofNat 32 r.pat, BitVec.ofNat 32 (r.pat / 2 ^ 32)], r.fl⟩ := by
  rw [FRes.two, halves_ofNat]

theorem FRes.one_pat (r : FRes) : r.one.pat = r.pat % 2 ^ 32 := by
  simp [FRes.one, SibOut.pat, wordsNat]

theorem FRes.two_pat (r : FRes) : r.two.pat = r.pat % 2 ^ 64 := by
  simp only [FRes.two_eq, SibOut.pat, wordsNat, BitVec.toNat_ofNat]
  omega

theorem opndPair_toNat (f : Flight) (x : Nat) (a : BitVec 7) {k : Nat} (h : k < 3) :
    ((f.opndPair x a).get k).toNat = pairVal f x a k := by
  rw [Flight.opndPair, tri_zip_get _ _ _ h, pairOf_toNat, pairVal, Nat.add_comm, Nat.mul_comm]

theorem natTri64_opndPair (f : Flight) (x : Nat) (a : BitVec 7) : natTri64 (f.opndPair x a) = operandVals f x a 2 := by
  have pair := fun k => opndPair_toNat f x a (k := k)
  exact congr (congr (congrArg Tri.mk (pair 0 (by decide))) (pair 1 (by decide))) (pair 2 (by decide))

/-! ### Instability conditions (R60) -/

theorem condC_eq (fmt : Fmt) (f : Flight) (ops : List (Tri Nat)) (least : Nat) (out : Tri SibOut) :
    condC fmt f ops least out = cancelled fmt f.ctl.canc.toNat ops least (out.map SibOut.pat) := by
  have finite : finTri fmt = fun t => t.toList.all (isFinite fmt) := funext fun t => by
    simp [finTri, Tri.toList, Bool.and_assoc]
  have beyond : ∀ d, Nat.blt f.ctl.canc.toNat (least - d) = Nat.blt (d + f.ctl.canc.toNat) least := fun d => by
    rw [Bool.eq_iff_iff, Nat.blt_eq, Nat.blt_eq]
    omega
  simp only [condC, cancelled, finite, digTri, beyond, List.all_cons]
  rw [Bool.and_comm (ops.all _)]
  rfl

/-- What a floating-point operation of two operands tests on d, a, b and its results. -/
abbrev FloatCond := Flight → Tri Nat → Tri Nat → Tri Nat → Tri SibOut → Option Meet

/-- The shape of fp3 and fp3d: the fields of format T, whether d is read, the occupancy, the draws, the function and the condition. -/
abbrev FloatOp := State → Bool → BitVec 7 → BitVec 7 → BitVec 7 → Bool → Bool → Bool → Nat → Nat →
  (Rnd → Nat → Nat → Nat → FRes) → FloatCond → Res

/-- A condition of the model is a test of the spec. -/
def Tests (cond : FloatCond) (test : FTest) : Prop :=
  ∀ f d a b out, cond f d a b out = test f.ctl.canc.toNat d a b (out.map SibOut.pat)

theorem noCond3_tests : Tests noCond3 untested := fun _ _ _ _ _ => rfl

theorem sumCond_tests (fmt : Fmt) : Tests (sumCond fmt) (sumTest fmt) := fun f _ a b out => condC_eq fmt f [a, b] _ out

theorem cancelled_perm (fmt : Fmt) {canc least : Nat} {ops ops' : List (Tri Nat)} (h : ops.Perm ops') (res : Tri Nat) :
    cancelled fmt canc ops least res = cancelled fmt canc ops' least res := by
  unfold cancelled
  rw [(h.cons res).all_eq]

theorem fusedCond_tests (fmt : Fmt) : Tests (fusedCond fmt) (fusedTest fmt) := fun f d a b out =>
  (condC_eq fmt f [a, b, d] _ out).trans (cancelled_perm fmt (List.perm_append_comm (l₁ := [a, b]) (l₂ := [d])) _)

theorem condZ_eq (fmt : Fmt) (t : Tri Nat) : condZ fmt t = zeroTest fmt t := by
  simp only [condZ, zeroTest, beq_iff_eq]

theorem divCond_tests (fmt : Fmt) : Tests (divCond fmt) fun _ _ _ b _ => zeroTest fmt b := fun _ _ _ b _ => condZ_eq fmt b

/-! ### Two operands -/

/-- A rounded operation on operands of n registers, whose results fill registers as `res` says. -/
def floatOp (n : Nat) (res : FRes → SibOut) (s : State) (u : Bool) (d a b : BitVec 7) (la lb acc : Bool) (occ draws : Nat)
    (g : Rnd → Nat → Nat → Nat → FRes) (cond : FloatCond) : Res :=
  fpOp s (regs3 u d a b n n n la lb acc (halfIf u occ)) draws
    (fun f x k => res (g (f.rnd x k 0) ((operandVals f x d n).get k) ((operandVals f x a n).get k) ((operandVals f x b n).get k)))
    (fun f x out => cond f (operandVals f x d n) (operandVals f x a n) (operandVals f x b n) out)

theorem fp3_eq : fp3 = floatOp 1 FRes.one := rfl

theorem fp3d_eq : fp3d = floatOp 2 FRes.two := by
  funext s u d a b la lb acc occ draws g cond
  simp only [fp3d, floatOp, natTri64_opndPair]

/-- Executing a row's instruction is an operation of `op` that computes and tests what the row says. -/
def PerformedBy (op : FloatOp) (p : FloatRow) : Prop :=
  ∃ occ cond, (∀ u d a b la lb s, exec (p.1 u d a b la lb) s = op s u d a b la lb p.2.1 occ p.2.2.1 p.2.2.2.1 cond)
    ∧ Tests cond p.2.2.2.2

/-- What an instruction of a row gives, where v are the values of its operands. -/
theorem PerformedBy.computes {n : Nat} {res : FRes → SibOut} {p : FloatRow} (h : PerformedBy (floatOp n res) p) {u d a b la lb s w f c}
    (distinct : c.act.Nodup) (q : Issuing s w f c) (ready : Ready s w f c (regs3 u d a b n n n la lb p.2.1 0 f))
    {v : Nat → BitVec 7 → Nat → Nat} (operands : ∀ x r, ∀ k < 3, (operandVals f x r n).get k = v x r k) :
    let out := fun x k => res (p.2.2.2.1 (f.rnd x k 0) (v x d k) (v x a k) (v x b k))
    Computes (p.1 u d a b la lb) s w f c (regs3 u d a b n n n la lb p.2.1 0 f) p.2.2.1 (fun x k => ((out x k).words, (out x k).fl))
      (fun x => p.2.2.2.2 f.ctl.canc.toNat (operandVals f x d n) (operandVals f x a n) (operandVals f x b n)
        (Tri.of fun k => (out x k).pat)) := by
  obtain ⟨occ, cond, e, tests⟩ := h
  have outs : ∀ x, ∀ k < 3, res (p.2.2.2.1 (f.rnd x k 0) ((operandVals f x d n).get k) ((operandVals f x a n).get k)
      ((operandVals f x b n).get k)) = res (p.2.2.2.1 (f.rnd x k 0) (v x d k) (v x a k) (v x b k)) := fun x k hk => by
    rw [operands x d k hk, operands x a k hk, operands x b k hk]
  refine fpOp_gives q distinct ready (e u d a b la lb s) rfl outs (fun x one k hk => ?one) fun x => ?test
  case one => simp only [rnd_single one k, operandVals_single one _ n k]
  case test =>
    rw [tests]
    simp only [Tri.of, Tri.map, outs x 0 (by decide), outs x 1 (by decide), outs x 2 (by decide)]

theorem floats32_performed : ∀ p ∈ floats32, PerformedBy fp3 p := by
  simp only [floats32, List.forall_mem_cons, List.not_mem_nil, false_imp_iff, implies_true, and_true]
  refine ⟨?fadd, ?fsub, ?fmul, ?fmin, ?fmax, ?ffma, ?ffms, ?fdiv⟩
  case fadd => exact ⟨2, _, fun _ _ _ _ _ _ => exec_fadd, sumCond_tests fp32⟩
  case fsub => exact ⟨2, _, fun _ _ _ _ _ _ => exec_fsub, sumCond_tests fp32⟩
  case fmul => exact ⟨2, _, fun _ _ _ _ _ _ => exec_fmul, noCond3_tests⟩
  case fmin => exact ⟨2, _, fun _ _ _ _ _ _ => exec_fmin, noCond3_tests⟩
  case fmax => exact ⟨2, _, fun _ _ _ _ _ _ => exec_fmax, noCond3_tests⟩
  case ffma => exact ⟨2, _, fun _ _ _ _ _ _ => exec_ffma, fusedCond_tests fp32⟩
  case ffms => exact ⟨2, _, fun _ _ _ _ _ _ => exec_ffms, fusedCond_tests fp32⟩
  case fdiv => exact ⟨8, _, fun _ _ _ _ _ _ => exec_fdiv, divCond_tests fp32⟩

theorem floats64_performed : ∀ p ∈ floats64, PerformedBy fp3d p := by
  simp only [floats64, List.forall_mem_cons, List.not_mem_nil, false_imp_iff, implies_true, and_true]
  refine ⟨?dadd, ?dsub, ?dmul, ?dmin, ?dmax, ?dfma, ?ddiv⟩
  case dadd => exact ⟨4, _, fun _ _ _ _ _ _ => exec_dadd, sumCond_tests fp64⟩
  case dsub => exact ⟨4, _, fun _ _ _ _ _ _ => exec_dsub, sumCond_tests fp64⟩
  case dmul => exact ⟨4, _, fun _ _ _ _ _ _ => exec_dmul, noCond3_tests⟩
  case dmin => exact ⟨4, _, fun _ _ _ _ _ _ => exec_dmin, noCond3_tests⟩
  case dmax => exact ⟨4, _, fun _ _ _ _ _ _ => exec_dmax, noCond3_tests⟩
  case dfma => exact ⟨4, _, fun _ _ _ _ _ _ => exec_dfma, fusedCond_tests fp64⟩
  case ddiv => exact ⟨32, _, fun _ _ _ _ _ _ => exec_ddiv, divCond_tests fp64⟩

/-- Settles O7: each row's operation is fp3 or fp3d with the row's function and test (R98, R101), and siblings that compute one value
have one operand and one rounding. -/
theorem floatingArithmetic : Obligations.FloatingArithmetic := by
  refine ⟨fun p hp u d a b la lb s w f c distinct q ready => ?single, fun p hp u d a b la lb s w f c distinct q ready => ?double⟩
  case single =>
    have gives := (fp3_eq ▸ floats32_performed p hp).computes distinct q ready (v := fun x r k => ((f.opnd x r).get k).toNat)
      fun x r k hk => operandVals_one f x r hk
    simp only [FRes.one_pat] at gives
    exact gives
  case double =>
    have gives := (fp3d_eq ▸ floats64_performed p hp).computes distinct q ready (v := pairVal f)
      fun x r k hk => operandVals_two f x r hk
    simp only [FRes.two_pat] at gives
    simp only [FRes.two_eq] at gives
    exact gives

/-! ### One operand -/

theorem flipSign_fp32 {x : Nat} (h : x < 2 ^ 32) : flipSign fp32 x = (x + 2 ^ 31) % 2 ^ 32 := by
  have weight : fp32.signW = 2 ^ 31 := rfl
  simp only [flipSign, signOf, weight, beq_iff_eq]
  split <;> omega

theorem fp2_eq (s : State) (u : Bool) (d a : BitVec 7) (la : Bool) (occ draws : Nat) (g : Rnd → Nat → FRes)
    (cond : Tri Nat → Option Meet) : fp2 s u d a la occ draws g cond =
      fpOp s (regs2 u d a 1 1 la false (halfIf u occ)) draws (fun f x k => (g (f.rnd x k 0) ((operandVals f x a 1).get k)).one)
        (fun f x _ => cond (operandVals f x a 1)) := rfl

/-- An FP32 function gives `res` of the operand, and meets what `test` says of it. -/
theorem fp2_computes {i : Instr} {u d a la occ draws} {g res : Rnd → Nat → FRes} {cond : Tri Nat → Option Meet} {test : Tri Nat → Met}
    {s w f c} (distinct : c.act.Nodup) (q : Issuing s w f c) (ready : Ready s w f c (regs2 u d a 1 1 la false 0 f))
    (e : exec i s = fp2 s u d a la occ draws g cond) (same : ∀ r, ∀ v < 2 ^ 32, g r v = res r v) (tests : ∀ t, cond t = test t) :
    let out := fun x k => res (f.rnd x k 0) ((f.opnd x a).get k).toNat
    Computes i s w f c (regs2 u d a 1 1 la false 0 f) draws (fun x k => ([BitVec.ofNat 32 (out x k).pat], (out x k).fl))
      (fun x => test (operandVals f x a 1)) := by
  intro out
  refine fpOp_gives q distinct ready (e.trans (fp2_eq ..)) rfl (fun x k hk => ?result) (fun x one k hk => ?one) fun x => tests _
  case result => rw [operandVals_one f x a hk, same _ _ (BitVec.isLt _), FRes.one]
  case one => rw [rnd_single one k, operandVals_single one a 1 k]

/-- Executing a row's instruction is an FP32 function of one operand that computes and tests what the row says. -/
def GivesFunction (p : FormU × Nat × (Rnd → Nat → FRes) × (Tri Nat → Met)) : Prop :=
  ∃ occ g cond, (∀ u d a la s, exec (p.1 u d a la) s = fp2 s u d a la occ p.2.1 g cond)
    ∧ (∀ r, ∀ v < 2 ^ 32, g r v = p.2.2.1 r v) ∧ ∀ t, cond t = p.2.2.2 t

theorem functions_give : ∀ p ∈ functions, GivesFunction p := by
  simp only [functions, List.forall_mem_cons, List.not_mem_nil, false_imp_iff, implies_true, and_true]
  refine ⟨?fsqrt, ?frcp, ?frsq, ?fexp2, ?flog2, ?fsin, ?fcos, ?fabs, ?fneg, ?ffloor, ?fceil, ?ftrunc, ?frint⟩
  case fsqrt => exact ⟨8, _, _, fun _ _ _ _ => exec_fsqrt, fun _ _ _ => rfl, fun _ => rfl⟩
  case frcp => exact ⟨8, _, _, fun _ _ _ _ => exec_frcp, fun _ _ _ => rfl, condZ_eq fp32⟩
  case frsq => exact ⟨8, _, _, fun _ _ _ _ => exec_frsq, fun _ _ _ => rfl, condZ_eq fp32⟩
  case fexp2 => exact ⟨8, _, _, fun _ _ _ _ => exec_fexp2, fun _ _ _ => rfl, fun _ => rfl⟩
  case flog2 => exact ⟨8, _, _, fun _ _ _ _ => exec_flog2, fun _ _ _ => rfl, fun _ => rfl⟩
  case fsin => exact ⟨8, _, _, fun _ _ _ _ => exec_fsin, fun _ _ _ => rfl, fun _ => rfl⟩
  case fcos => exact ⟨8, _, _, fun _ _ _ _ => exec_fcos, fun _ _ _ => rfl, fun _ => rfl⟩
  case fabs => exact ⟨2, _, _, fun _ _ _ _ => exec_fabs, fun _ _ _ => rfl, fun _ => rfl⟩
  case fneg => exact ⟨2, _, _, fun _ _ _ _ => exec_fneg, fun _ _ h => congrArg (FRes.mk · _) (flipSign_fp32 h), fun _ => rfl⟩
  case ffloor => exact ⟨2, _, _, fun _ _ _ _ => exec_ffloor, fun _ _ _ => rfl, fun _ => rfl⟩
  case fceil => exact ⟨2, _, _, fun _ _ _ _ => exec_fceil, fun _ _ _ => rfl, fun _ => rfl⟩
  case ftrunc => exact ⟨2, _, _, fun _ _ _ _ => exec_ftrunc, fun _ _ _ => rfl, fun _ => rfl⟩
  case frint => exact ⟨2, _, _, fun _ _ _ _ => exec_frint, fun _ _ _ => rfl, fun _ => rfl⟩

/-- Settles O8: each function is fp2 with the row's function and test (R99), and DSQRT fills a pair (R101). -/
theorem functionUnit : Obligations.FunctionUnit := by
  refine ⟨fun p hp u d a la s w f c distinct q ready => ?function, fun u d a la s w f c distinct q ready => ?dsqrt⟩
  case function =>
    obtain ⟨occ, g, cond, e, same, tests⟩ := functions_give p hp
    exact fp2_computes distinct q ready (e u d a la s) same tests
  case dsqrt =>
    refine fpOp_gives q distinct ready (exec_dsqrt s) rfl (fun x k hk => ?result) (fun x one k hk => ?one) fun _ => rfl
    case result => rw [opndPair_toNat f x a hk, FRes.two_eq]
    case one => rw [opndPair_toNat f x a hk, opndPair_toNat f x a (by decide), pairVal_single one, rnd_single one k]

/-! ### Packed arithmetic and conversions -/

/-- Executing a row's instruction is a packed operation that computes what the row says, in a format of 16 bits. -/
def PackedBy (p : FormT × Bool × Fmt × (Rnd → Nat → Nat → Nat → FRes)) : Prop :=
  p.2.2.1.width = 16 ∧ ∀ u d a b la lb s, exec (p.1 u d a b la lb) s = packed s p.2.2.1 u d a b la lb p.2.1 p.2.2.2

theorem packedOps_packed : ∀ p ∈ packedOps, PackedBy p := by
  simp only [packedOps, List.forall_mem_cons, List.not_mem_nil, false_imp_iff, implies_true, and_true]
  exact ⟨⟨rfl, fun _ _ _ _ _ _ => exec_hadd2⟩, ⟨rfl, fun _ _ _ _ _ _ => exec_hmul2⟩, ⟨rfl, fun _ _ _ _ _ _ => exec_hfma2⟩,
    ⟨rfl, fun _ _ _ _ _ _ => exec_bfma2⟩⟩

theorem cvtWidths_snd (code : Nat) : (cvtWidths code).2 = 1 ∨ (cvtWidths code).2 = 2 := by
  unfold cvtWidths
  repeat' split
  all_goals simp

theorem opndBlock_value (f : Flight) (x : Nat) (a : BitVec 7) {n k : Nat} (hn : n = 1 ∨ n = 2) (hk : k < 3) :
    wordsNat ((f.opndBlock x a n).get k) = (operandVals f x a n).get k := by
  rw [Flight.opndBlock, tri_of_get _ hk]
  obtain rfl | rfl := hn
  · rw [operandVals_one f x a hk, Flight.block_one]
    rfl
  · rw [operandVals_two f x a hk, Flight.block_two]
    rfl

theorem cvt_draws (code : BitVec 5) :
    (if code.toNat = 24 ∨ code.toNat = 25 then 2 else 1) = if code == 24 || code == 25 then 2 else 1 := by
  simp [← BitVec.toNat_inj]

/-- Settles O9: packed operations compute each half apart (R102), and CVT computes by its code (R105). -/
theorem packedArithmeticAndConversions : Obligations.PackedArithmeticAndConversions := by
  refine ⟨fun p hp u d a b la lb s w f c distinct q ready => ?packed, fun u d a code la s w f c distinct q => ?cvt⟩
  case packed =>
    obtain ⟨width, e⟩ := packedOps_packed p hp
    have upper : ∀ v : Word, v.toNat / 2 ^ (16 * 1) % 2 ^ 16 = v.toNat / 2 ^ 16 := fun v => by
      have := v.isLt
      omega
    refine fpOp_gives q distinct ready (e u d a b la lb s) rfl (fun x k _ => ?halves) (fun x one k hk => ?one) fun _ => rfl
    case halves => simp only [width, upper, Nat.mul_zero, Nat.pow_zero, Nat.div_one]
    case one => simp only [rnd_single one k, opnd_single one _ k]
  case cvt =>
    intro n ready out
    have value : ∀ x, ∀ k < 3, wordsNat ((f.opndBlock x a n.2).get k) = (operandVals f x a n.2).get k := fun x k hk =>
      opndBlock_value f x a (cvtWidths_snd _) hk
    rw [cvt_draws]
    refine fpOp_gives q distinct ready (exec_cvt s) rfl (fun x k hk => ?result) (fun x one k hk => ?one) fun _ => rfl
    case result => rw [value x k hk]
    case one => rw [value x k hk, value x 0 (by decide), operandVals_single one, rnd_single one k, rnd_single one k]

end Sys2Proof.Machine
end

section
namespace Sys2Proof.Machine

/-! ## Compares, the siblings, solo bits and blocks (R103 to R113) -/

/-! ### Flights before their conditions are met -/

theorem Holds.congr {f g : Flight} (lane : g.lane = f.lane) (regs : g.regs = f.regs) {n : Nat} {act : List Nat} {v : Nat → Tri Word}
    (h : Holds f n act v) : Holds g n act v := fun a ha k hk => by
  rw [Flight.readReg_congr lane (by rw [regs]), h a ha k hk, shown, shown, lane]

theorem RegsKept.congr {f g h : Flight} {c : ClauseRun} {r : OpRegs} (lane : h.lane = g.lane) (regs : h.regs = g.regs)
    (kept : RegsKept f g c r) : RegsKept f h c r :=
  ⟨fun n hd hr => by rw [regs]; exact kept.name n hd hr,
    fun i hl ha hs n k hk => by rw [Flight.readReg_congr lane (by rw [regs])]; exact kept.thread i hl ha hs n k hk⟩

/-- What the flight of an operation is before its conditions are met: the destinations hold `val`, flags `fl` are raised, and an
active thread x has become `F x`. -/
structure Worked (f : Flight) (c : ClauseRun) (r : OpRegs) (val : Nat → List (Tri Word)) (F : Nat → Thread) (fl : Flags) (g : Flight) :
    Prop where
  rest : g = { f with regs := g.regs, threads := g.threads, ctl := g.ctl }
  regs : g.regs = (writeDests f c r (spread r.u c.act val)).regs
  ctl : g.ctl = { f.ctl with fexc := f.ctl.fexc ||| fl }
  thread : ∀ x, (x ∈ c.act → x ∈ f.live) → g.thread x = if x ∈ c.act then F x else f.thread x

theorem writeDests_threads (f : Flight) (c : ClauseRun) (r : OpRegs) (vals : List (Nat × List (Tri Word))) :
    (writeDests f c r vals).threads = f.threads := by rw [writeDests_rest]

theorem Flight.thread_congr {f g : Flight} (h : g.threads = f.threads) (x : Nat) : g.thread x = f.thread x := by
  rw [Flight.thread, h, Flight.thread]

section
variable {f g : Flight} {c : ClauseRun} {r : OpRegs} {val : Nat → List (Tri Word)} {F : Nat → Thread} {fl : Flags}

theorem worked_writeDests : Worked f c r val f.thread 0 (writeDests f c r (spread r.u c.act val)) where
  rest := by rw [writeDests_rest]
  regs := rfl
  ctl := by rw [writeDests_rest, show f.ctl.fexc ||| 0 = f.ctl.fexc from BitVec.or_zero]
  thread x _ := by rw [ite_self, Flight.thread_congr (writeDests_threads ..)]

/-- An operation without destinations only releases its last reads. -/
theorem worked_released (hd : r.dsts = []) : Worked f c r (fun _ => []) f.thread 0 (released f c r) := by
  have none_written : writeDests f c r (spread r.u c.act fun _ => []) = released f c r := by
    unfold writeDests
    rw [hd]
    rfl
  rw [← none_written]
  exact worked_writeDests

theorem Worked.raise (h : Worked f c r val F 0 g) (x : Flags) : Worked f c r val F x (g.raise x) where
  rest := by
    rw [Flight.raise]
    exact congrArg (fun k : Flight => { k with ctl := { g.ctl with fexc := g.ctl.fexc ||| x } }) h.rest
  regs := h.regs
  ctl := by rw [Flight.raise_ctl, h.ctl, show f.ctl.fexc ||| 0 = f.ctl.fexc from BitVec.or_zero]
  thread := h.thread

/-- The active threads of a flight that differs in no thread yet change each by its own `G`. -/
theorem Worked.modThreads (distinct : c.act.Nodup) (h : Worked f c r val f.thread fl g) (same : g.threads = f.threads)
    (G : Nat → Thread → Thread) :
    Worked f c r val (fun x => G x (f.thread x)) fl (c.act.foldl (fun (g : Flight) i => g.modThread i (G i)) g) where
  rest := by
    rw [Flight.foldMod_rest]
    exact congrArg (fun k : Flight => { k with threads := (c.act.foldl (fun (g : Flight) i => g.modThread i (G i)) g).threads }) h.rest
  regs := by
    rw [Flight.foldMod_rest]
    exact h.regs
  ctl := by
    rw [Flight.foldMod_rest]
    exact h.ctl
  thread x live := by
    rw [Flight.foldMod_thread G c.act g x (.inl distinct), Flight.thread_congr same, same]
    by_cases active : x ∈ c.act
    · rw [if_pos active, if_pos ⟨active, Flight.live_some (live active)⟩]
    · rw [if_neg active, if_neg fun both => active both.1]

/-! ### Meeting the conditions -/

/-- The conditions that the active threads meet, each with its thread. -/
def metBy (c : ClauseRun) (met : Nat → Met) : List (Nat × Meet) := c.act.filterMap fun x => (met x).map fun m => (x, m)

theorem metBy_conditions (c : ClauseRun) (met : Nat → Met) : (metBy c met).map (·.2) = c.act.filterMap met := by
  rw [metBy, List.map_filterMap]
  congr 1
  funext x
  rw [Option.map_map]
  exact Option.map_id'

theorem metBy_threads (c : ClauseRun) (met : Nat → Met) : (metBy c met).map (·.1) = c.act.filter fun x => (met x).isSome := by
  rw [metBy, List.map_filterMap, ← List.filterMap_eq_filter]
  congr 1
  funext x
  rw [Option.map_map, Option.guard]
  cases met x <;> rfl

theorem met_none (c : ClauseRun) : c.act.filterMap (fun _ => (none : Met)) = [] := List.filterMap_eq_nil_iff.2 fun _ _ => rfl

theorem metBy_none (c : ClauseRun) : metBy c (fun _ => none) = [] := List.filterMap_eq_nil_iff.2 fun _ _ => rfl

theorem metThread_metBy (k : Ctl) (c : ClauseRun) (met : Nat → Met) (x : Nat) (t : Thread) :
    metThread k c (metBy c met) x t = if x ∈ c.act then afterMet k c t (met x) else t := by
  rw [metThread, metBy, find_met]
  by_cases active : x ∈ c.act
  · rw [if_pos active, if_pos active]
    cases met x <;> rfl
  · rw [if_neg active, if_neg active]

theorem afterMet_enabled {k l : Ctl} (h : ∀ n, k.enabled n = l.enabled n) (c : ClauseRun) (t : Thread) (m : Met) :
    afterMet k c t m = afterMet l c t m := by
  cases m with
  | none => rfl
  | some m => rw [afterMet, afterMet, h]

/-- An operation that has worked on its flight, and whose threads then meet conditions, does what its work and R61 say. -/
theorem Worked.does (h : Worked f c r val F fl g) (distinct : c.act.Nodup) {met : Nat → Met} {i : Instr} {s t : State} {w : Nat}
    (q : Issuing s w f c) (e : exec i s = .next (t.finishOp w)) (b : Busy f (s.setFlight w (g.meets (metBy c met))) t) :
    Does i s w f c r (fun j x => nth (val x) j) (fun x => if x ∈ c.act then afterMet f.ctl c (F x) (met x) else f.thread x)
      { f with ctl := counted f.ctl fl (c.act.filterMap met) } := by
  have clause : g.clause = some c := by
    rw [h.rest]
    exact q.clause
  obtain ⟨rest, ⟨d, clause', same⟩, thread⟩ := Flight.meets_met (metBy c met) g c c clause rfl
  have regs : (g.meets (metBy c met)).regs = (writeDests f c r (spread r.u c.act val)).regs := by
    rw [rest]
    exact h.regs
  have lane : (g.meets (metBy c met)).lane = (writeDests f c r (spread r.u c.act val)).lane := by
    rw [rest, writeDests_rest, h.rest]
  have ctl : g.ctl.counts (metBy c met) = counted f.ctl fl (c.act.filterMap met) := by
    rw [Ctl.counts_eq, metBy_conditions, h.ctl]
    simp [counted]
  have own : Onward { f with ctl := counted f.ctl fl (c.act.filterMap met) } (g.meets (metBy c met)) := by
    rw [ctl] at rest
    exact onward_ctl (rest.trans (congrArg (fun k : Flight => { k with
      threads := (g.meets (metBy c met)).threads, clause := (g.meets (metBy c met)).clause
      ctl := counted f.ctl fl (c.act.filterMap met) }) h.rest))
  obtain ⟨holds, releases, kept⟩ := writeDests_spec f c r val
  refine does_of q.flight e b clause' own rfl (fun unyielded => ?yielded) (fun j n hn last => (holds j n hn last).congr lane regs)
    (fun all sorted n hn hd => ?releases) (kept.congr lane regs) (fun x live => ?thread) fun _ => trivial
  case yielded => exact (congrArg (·.yielded) same).trans (clause_yielded q unyielded)
  case releases =>
    rw [regs]
    exact releases all sorted n hn hd
  case thread =>
    have enabled : ∀ n, g.ctl.enabled n = f.ctl.enabled n := fun n => by
      rw [h.ctl]
      cases n <;> rfl
    have nodup : ((metBy c met).map (·.1)).Nodup := by
      rw [metBy_threads]
      exact distinct.filter _
    rw [thread nodup, metThread_metBy, h.thread x live, afterMet_enabled enabled]
    split <;> exact Moved.refl _

/-- An operation that has worked on its flight and tests no condition. -/
theorem Worked.does_untested (h : Worked f c r val F fl g) (distinct : c.act.Nodup) {i : Instr} {s t : State} {w : Nat}
    (q : Issuing s w f c) (e : exec i s = .next (t.finishOp w)) (b : Busy f (s.setFlight w g) t) :
    Does i s w f c r (fun j x => nth (val x) j) (fun x => if x ∈ c.act then F x else f.thread x)
      { f with ctl := counted f.ctl fl [] } := by
  have does := h.does distinct (met := fun _ => none) q e (by rw [metBy_none]; exact b)
  rw [met_none] at does
  exact does

end

/-! ### Floating compares -/

theorem fltHolds_eq (cond : FltCond) (o : FOrd) : fltHolds cond o = fltTrue cond o := by
  cases cond <;> cases o <;> rfl

theorem cmpFlags_eq (fmt : Fmt) (cond : FltCond) (a b : Nat) : cmpFlags fmt cond a b = fltFlags fmt cond a b := by
  cases cond <;> rfl

theorem tri_maj_snd {α : Type} [DecidableEq α] (t : Tri α) : t.maj.2 = true ↔ t.x0 = t.x1 ∧ t.x1 = t.x2 := by
  unfold Tri.maj majority
  grind

theorem released_nothing (f : Flight) (c : ClauseRun) {r : OpRegs} (h : r.rels = []) : released f c r = f := by
  rw [released, h]
  exact ite_self _

/-- An operation that writes a predicate, raises flags and has its threads meet conditions (R103, R61). -/
theorem setPreds_does {i : Instr} {s : State} {w : Nat} {f : Flight} {c : ClauseRun} {r : OpRegs} {p : BitVec 4}
    {v : Nat → Bool} {fl : Flags} {met : Nat → Met} (distinct : c.act.Nodup) (q : Issuing s w f c) (dsts : r.dsts = []) (rels : r.rels = [])
    (e : exec i s = .next ((((s.setFlight w (((f.setPreds p (c.act.map fun x => (x, v x))).raise fl).meets (metBy c met))).occupy f c
      r).countMeets f (metBy c met)).finishOp w)) :
    Does i s w f c r (fun _ _ => Tri.rep 0)
      (fun x => if x ∈ c.act then afterMet f.ctl c (withPred (f.thread x) p (v x)) (met x) else f.thread x)
      { f with ctl := counted f.ctl fl (c.act.filterMap met) } := by
  have start : Worked f c r (fun _ => []) f.thread 0 (released f c r) := worked_released dsts
  rw [released_nothing f c rels] at start
  have preds := start.modThreads distinct rfl fun x t => withPred t p (v x)
  have written : f.setPreds p (c.act.map fun x => (x, v x)) =
      c.act.foldl (fun (g : Flight) x => g.modThread x fun t => withPred t p (v x)) f := Flight.setPreds_eq p v c.act f
  rw [← written] at preds
  exact (preds.raise fl).does distinct q e ((busy_occupy ..).trans (busy_countMeets ..))

/-- A floating compare of operands of n registers combines the majority outcome and meets D where outcomes differ. -/
theorem fltCmp_compares {i : Instr} {fmt : Fmt} {n : Nat} {u mode p a b cond occ s w f c} {vals : Flight → Nat → Tri (Nat × Nat)}
    (distinct : c.act.Nodup) (q : Issuing s w f c) (ready : Ready s w f c (regsS [(a, n), (b, n)] [] u 0 f))
    (e : exec i s = fltCmp s fmt (regsS [(a, n), (b, n)] [] u occ) mode p cond vals)
    (operands : ∀ x, vals f x = (operandVals f x a n).zip (fun v w => (v, w)) (operandVals f x b n)) :
    ComparesFloats i s w f c fmt n u mode p a b cond := by
  have flags : ∀ x, ((vals f x).map fun v => cmpFlags fmt cond v.1 v.2) = Tri.of fun k =>
      fltFlags fmt cond ((operandVals f x a n).get k) ((operandVals f x b n).get k) := fun x => by
    simp only [operands, cmpFlags_eq]
    rfl
  have outcomes : ∀ x, ((vals f x).map fun v => fltHolds cond (fOrd fmt v.1 v.2)) = Tri.of fun k =>
      fltTrue cond (fOrd fmt ((operandVals f x a n).get k) ((operandVals f x b n).get k)) := fun x => by
    simp only [operands, fltHolds_eq]
    rfl
  unfold ComparesFloats
  dsimp only
  refine Does.occ (r := regsS [(a, n), (b, n)] [] u occ f) (setPreds_does distinct q rfl rfl
    (e.trans ((runOp_done q (ready.occ rfl) rfl).trans ?_))) rfl
  simp only [meetsOf_eq, show flNone = (0 : Flags) from rfl, computing_flags, flags, outcomes, tri_maj_fst, tri_maj_snd, combine_eq]
  rfl

/-- Settles O10: FCMP and DCMP are floating compares of registers and of pairs (R103). -/
theorem floatingCompares : Obligations.FloatingCompares := fun u mode p a b cond s w f c distinct q =>
  ⟨fun ready => fltCmp_compares distinct q ready (exec_fcmp s) fun _ => rfl,
    fun ready => fltCmp_compares distinct q ready (exec_dcmp s) fun x => by
      rw [← natTri64_opndPair, ← natTri64_opndPair]
      rfl⟩

/-! ### Reading the siblings -/

theorem sibRegs_eq (ty : SibType) : (if ty = .f64 then 2 else 1) = sibRegs ty := by cases ty <;> rfl

theorem sibVals_eq (f : Flight) (x : Nat) (ty : SibType) (a : BitVec 7) : f.sibVals x ty a = Tri.of (copiesOf f x ty a) := by
  have copy : ∀ k, wordsNat ((f.block a.toNat (sibRegs ty)).map fun n => f.readReg n x k) % 2 ^ (sibFmt ty).width =
      copiesOf f x ty a k := fun k => by
    have low := (f.readReg (f.regName a.toNat) x k).isLt
    have high := (f.readReg (f.regName (a.toNat + 1)) x k).isLt
    cases ty with
    | f64 =>
      show ((f.readReg (f.regName a.toNat) x k).toNat +
        2 ^ 32 * ((f.readReg (f.regName (a.toNat + 1)) x k).toNat + 2 ^ 32 * 0)) % 2 ^ 64 =
        (f.readReg (f.regName a.toNat) x k).toNat + 2 ^ 32 * (f.readReg (f.regName (a.toNat + 1)) x k).toNat
      omega
    | f32 =>
      show ((f.readReg (f.regName a.toNat) x k).toNat + 2 ^ 32 * 0) % 2 ^ 32 = (f.readReg (f.regName a.toNat) x k).toNat
      omega
    | f16 | bf16 => rfl
  rw [Flight.sibVals, Tri.of, Tri.of, copy, copy, copy]

theorem nth_natWords {j n : Nat} (h : j < n) (v : Nat) :
    nth ((natWords n v).map Tri.rep) j = Tri.rep (BitVec.ofNat 32 (v / 2 ^ (32 * j))) := by
  rw [nth, natWords_eq_map_range, List.map_map, List.getElem?_map, List.getElem?_range h]
  rfl

section
variable {d a : BitVec 7} {ty : SibType} {la : Bool} {s : State} {w : Nat} {f : Flight} {c : ClauseRun}

theorem digits_writes (q : Issuing s w f c) (ready : Ready s w f c (regs2 false d a 1 (sibRegs ty) la false 0 f)) :
    WritesRegs (.digits d a ty la) s w f c (regs2 false d a 1 (sibRegs ty) la false 0 f) fun _ x =>
      Tri.rep (BitVec.ofNat 32 (digits (sibFmt ty) (copiesOf f x ty a 0) (copiesOf f x ty a 1) (copiesOf f x ty a 2))) := by
  refine regOp_gives q ready (exec_digits s) rfl fun j x k hj _ => ?_
  obtain rfl : j = 0 := Nat.lt_one_iff.1 hj
  rw [nth_one, sibVals_eq]
  rfl

theorem sib_writes (q : Issuing s w f c) (ready : Ready s w f c (regs2 false d a (sibRegs ty) (sibRegs ty) la false 0 f)) {k : BitVec 2}
    (hk : k.toNat < 3) :
    WritesRegs (.sib d a ty k la) s w f c (regs2 false d a (sibRegs ty) (sibRegs ty) la false 0 f) fun j x =>
      Tri.rep (BitVec.ofNat 32 (copiesOf f x ty a k.toNat / 2 ^ (32 * j))) := by
  refine regOp_gives q ready (exec_sib s) rfl fun j x _ hj _ => ?_
  rw [nth_natWords (by rwa [← Flight.block_length f d.toNat (sibRegs ty)]), sibVals_eq, tri_of_get _ hk]

/-- The mean of a thread's copies (R108). -/
def meanOf (f : Flight) (ty : SibType) (a : BitVec 7) (x : Nat) : FRes :=
  mean3 (sibFmt ty) (copiesOf f x ty a 0) (copiesOf f x ty a 1) (copiesOf f x ty a 2)

theorem mean_does (distinct : c.act.Nodup) (q : Issuing s w f c)
    (ready : Ready s w f c (regs2 false d a (sibRegs ty) (sibRegs ty) la false 0 f)) :
    Does (.mean d a ty la) s w f c (regs2 false d a (sibRegs ty) (sibRegs ty) la false 0 f)
      (fun j x => Tri.rep (BitVec.ofNat 32 ((meanOf f ty a x).pat / 2 ^ (32 * j))))
      (fun x => if x ∈ c.act then { f.thread x with rcount := (f.thread x).rcount + 1 } else f.thread x)
      { f with ctl := counted f.ctl (c.act.foldl (fun acc x => acc ||| (meanOf f ty a x).fl) 0) [] } := by
  have means : ∀ x, mean3 (sibFmt ty) (f.sibVals x ty a).x0 (f.sibVals x ty a).x1 (f.sibVals x ty a).x2 = meanOf f ty a x :=
    fun x => by
      rw [sibVals_eq]
      rfl
  have e := (exec_mean (d := d) (a := a) (ty := ty) (la := la) s).trans (runOp_done q (ready.occ rfl) rfl)
  simp only [means] at e
  have written := worked_writeDests (f := f) (c := c) (r := regs2 false d a (sibRegs ty) (sibRegs ty) la false 4 f)
    (val := fun x => (natWords (sibRegs ty) (meanOf f ty a x).pat).map Tri.rep)
  have work := (written.raise (c.act.foldl (fun acc x => acc ||| (meanOf f ty a x).fl) 0)).modThreads distinct
    (writeDests_threads ..) fun _ t => { t with rcount := t.rcount + 1 }
  refine Does.congr (Does.occ (work.does_untested distinct q e (busy_occupy ..)) rfl) fun j x k hj _ => ?_
  rw [nth_natWords (by rwa [← Flight.block_length f d.toNat (sibRegs ty)])]

/-- What CHKD finds of a thread's copies (R109). -/
def checkedOf (f : Flight) (ty : SibType) (a : BitVec 7) (need : BitVec 5) (x : Nat) : Met :=
  let v := copiesOf f x ty a
  let g := digits (sibFmt ty) (v 0) (v 1) (v 2)
  if f.single x then none
  else if need = 0 then (if v 0 = v 1 ∧ v 1 = v 2 then none else some ⟨.D, false, true, g⟩)
  else if g < need.toNat then some ⟨.C, false, true, g⟩ else none

theorem chkd_does (distinct : c.act.Nodup) (q : Issuing s w f c) (need : BitVec 5)
    (ready : Ready s w f c ⟨f.block a.toNat (sibRegs ty), [], relOf la (f.block a.toNat (sibRegs ty)), false, 0⟩) :
    Does (.chkd a ty need la) s w f c ⟨f.block a.toNat (sibRegs ty), [], relOf la (f.block a.toNat (sibRegs ty)), false, 0⟩
      (fun _ _ => Tri.rep 0)
      (fun x => if x ∈ c.act then afterMet f.ctl c (f.thread x) (checkedOf f ty a need x) else f.thread x)
      { f with ctl := counted f.ctl 0 (c.act.filterMap (checkedOf f ty a need)) } := by
  have e := (exec_chkd (a := a) (ty := ty) (c := need) (la := la) s).trans (runOp_done q (ready.occ rfl) rfl)
  simp only [meetsOf_eq, sibVals_eq, tri_maj_snd, beq_iff_eq, Nat.blt_eq] at e
  exact Does.occ (r := ⟨_, [], _, false, 4⟩) ((worked_released rfl).does distinct (met := checkedOf f ty a need) q e
    ((busy_occupy ..).trans (busy_countMeets ..))) rfl

end

/-- Settles O11: each of the four reads the copies as they stand (R106), for a value of one register or a pair. -/
theorem readingTheSiblings : Obligations.ReadingTheSiblings := by
  intro d a ty la s w f c distinct q
  simp only [sibRegs_eq]
  exact ⟨digits_writes q, fun ready => ⟨fun k => sib_writes q ready, mean_does distinct q ready⟩, chkd_does distinct q⟩

/-! ### Solo bits -/

/-- An operation that sets the solo bit of its active threads to v. -/
theorem solo_does {i : Instr} {s : State} {w : Nat} {f : Flight} {c : ClauseRun} (q : Issuing s w f c) (ready : Ready s w f c (regs0 0 f))
    (v : Bool) (e : exec i s = runOp s (regs0 2) fun u f c =>
      .done ((s.setFlight u (f.modThreads c.act fun t => { t with solo := v })).occupy f c (regs0 2 f))) :
    Does i s w f c (regs0 0 f) (fun _ _ => Tri.rep 0) (fun x => if x ∈ c.act then { f.thread x with solo := v } else f.thread x) f := by
  refine Does.occ (r := regs0 2 f) (threads_does q rfl (fun _ t => { t with solo := v }) (.inr fun _ _ => rfl)
    (e.trans (runOp_done q (ready.occ rfl) rfl)) ?_ _) rfl
  rw [released_nothing f c rfl]
  exact busy_occupy ..

/-- Settles O12: SOLO and TRIO change the solo bit of the active threads alone (R110). -/
theorem soloBits : Obligations.SoloBits := fun s _ _ _ q ready =>
  ⟨solo_does q ready true (exec_solo s), solo_does q ready false (exec_trio s)⟩

/-! ### Block quantization -/

theorem bxBitsF_eq (fmt : BxFmt) : bxBitsF fmt = if fmt = .bx8 then 6 else if fmt = .bx6 then 4 else 2 := by cases fmt <;> rfl

theorem dqbx_writes {fmt : BxFmt} {d a b : BitVec 7} {s : State} {w : Nat} {f : Flight} {c : ClauseRun} (q : Issuing s w f c)
    (ready : Ready s w f c (regs3 false d a b 1 1 1 false false false 0 f)) :
    WritesRegs (.dqbx fmt d a b) s w f c (regs3 false d a b 1 1 1 false false false 0 f) fun _ x =>
      (f.opnd x a).zip (fun code pair => BitVec.ofNat 32
        (bxPattern (bxBitsF fmt) (code.toNat % 2 ^ (bxBitsF fmt + 2)) (pair.toNat % 256) (pair.toNat / 2 ^ 8 % 256))) (f.opnd x b) := by
  refine regOp_gives q ready (exec_dqbx s) rfl fun j x k hj _ => ?_
  obtain rfl : j = 0 := Nat.lt_one_iff.1 hj
  exact congrArg (Tri.get · (shown f k)) (nth_one _)

/-- Values of an operation with two destinations, given otherwise for the active threads. -/
theorem Does.congr_two {i : Instr} {s : State} {u : Nat} {f own : Flight} {c : ClauseRun} {r : OpRegs} {thr : Nat → Thread}
    {g : Nat → List (Tri Word)} {v : Nat → Nat → Tri Word} (h : Does i s u f c r (fun j x => nth (g x) j) thr own)
    (two : r.dsts.length = 2) (each : r.u = false) (e : ∀ x ∈ c.act, g x = [v 0 x, v 1 x]) : Does i s u f c r v thr own := by
  have active : Does i s u f c r (fun j x => nth [v 0 x, v 1 x] j) thr own := Does.congr_active h fun j x hx k _ => by
    have one : computes r.u c x = x := by rw [each]; rfl
    rw [one, e x hx]
  refine Does.congr active fun j x k hj _ => ?_
  rw [two] at hj
  match j, hj with
  | 0, _ => rfl
  | 1, _ => rfl

/-- The blocks of QBX that have an active thread. -/
def activeBlocks (f : Flight) (c : ClauseRun) : List (List Nat) := f.qbxBlocks.filter fun sl => sl.any fun y => c.act.contains y

/-- An active thread's block is among those with an active thread. -/
theorem find_activeBlocks {c : ClauseRun} {x : Nat} (f : Flight) (hx : x ∈ c.act) :
    (activeBlocks f c).find? (fun sl => sl.contains x) = f.qbxBlocks.find? fun sl => sl.contains x := by
  have active : ∀ sl : List Nat, sl.contains x = true → (sl.any fun y => c.act.contains y) = true := fun sl h =>
    List.any_eq_true.2 ⟨x, List.contains_iff_mem.1 h, List.contains_iff_mem.2 hx⟩
  rw [activeBlocks, List.find?_filter]
  congr 1
  funext sl
  rw [Bool.eq_iff_iff, decide_eq_true_eq]
  exact and_iff_right_of_imp (active sl)

/-- The three siblings' blocks over some slots; a lane kernel has one (R112). -/
def siblingBlocks (f : Flight) (c : ClauseRun) (fmt : BxFmt) (had : Hadamard) (a : BitVec 7) (sl : List Nat) : Tri BxBlock :=
  if f.lane then Tri.rep (qbxOf f c.act fmt had a 0 sl) else Tri.of fun k => qbxOf f c.act fmt had a k sl

/-- What a thread's siblings read of its slots' blocks. -/
theorem siblingBlocks_read (f : Flight) (c : ClauseRun) (fmt : BxFmt) (had : Hadamard) (a : BitVec 7) (sl : List Nat) (x : Nat) :
    (if f.single x then Tri.rep (siblingBlocks f c fmt had a sl).x0 else siblingBlocks f c fmt had a sl) =
      Tri.of fun k => qbxOf f c.act fmt had a (if f.single x then 0 else k) sl := by
  unfold siblingBlocks
  cases lane : f.lane with
  | true =>
    have one : f.single x = true := by rw [Flight.single, lane, Bool.true_or]
    simp only [one, if_true]
    rfl
  | false => cases f.single x <;> rfl

/-- The slots of each block that QBX quantizes, with its siblings' blocks. -/
def quantizedBlocks (f : Flight) (c : ClauseRun) (fmt : BxFmt) (had : Hadamard) (a : BitVec 7) : List (List Nat × Tri BxBlock) :=
  (activeBlocks f c).map fun sl => (sl, siblingBlocks f c fmt had a sl)

/-- The element codes and exponent pairs that QBX gives a thread. -/
def qbxValues (f : Flight) (c : ClauseRun) (fmt : BxFmt) (had : Hadamard) (a : BitVec 7) (x : Nat) : List (Tri Word) :=
  match (quantizedBlocks f c fmt had a).find? (fun p => p.1.contains x) with
  | none => [Tri.rep 0, Tri.rep 0]
  | some p =>
    let t := if f.single x then Tri.rep p.2.x0 else p.2
    [t.map (fun b => BitVec.ofNat 32 ((b.codes[p.1.findIdx (· == x)]?).getD 0)), t.map (fun b => BitVec.ofNat 32 (b.e0 + 256 * b.e1))]

theorem qbxValues_active {f : Flight} {c : ClauseRun} {fmt : BxFmt} {had : Hadamard} {a : BitVec 7} {x : Nat} (hx : x ∈ c.act) :
    qbxValues f c fmt had a x = [Tri.of fun k => BitVec.ofNat 32 (quantized f c fmt had a x k).1,
      Tri.of fun k => BitVec.ofNat 32 (quantized f c fmt had a x k).2] := by
  unfold qbxValues quantized quantizedBlocks
  rw [List.find?_map, Function.comp_def, find_activeBlocks f hx]
  cases f.qbxBlocks.find? fun sl => sl.contains x with
  | none => rfl
  | some sl =>
    dsimp only [Option.map_some]
    rw [siblingBlocks_read]
    rfl

/-- The flags that QBX raises: those of every block with an active thread. -/
def qbxFlags (f : Flight) (c : ClauseRun) (fmt : BxFmt) (had : Hadamard) (a : BitVec 7) : Flags :=
  (quantizedBlocks f c fmt had a).foldl (fun acc p => acc ||| p.2.x0.fl ||| p.2.x1.fl ||| p.2.x2.fl) 0

theorem qbxFlags_eq (f : Flight) (c : ClauseRun) (fmt : BxFmt) (had : Hadamard) (a : BitVec 7) :
    qbxFlags f c fmt had a = (f.qbxBlocks.filter fun sl => sl.any fun y => decide (y ∈ c.act)).foldl
      (fun acc sl => (List.range 3).foldl (fun acc k => acc ||| (qbxOf f c.act fmt had a (if f.lane then 0 else k) sl).fl) acc) 0 := by
  have each : ∀ (acc : Flags) sl, acc ||| (siblingBlocks f c fmt had a sl).x0.fl ||| (siblingBlocks f c fmt had a sl).x1.fl
      ||| (siblingBlocks f c fmt had a sl).x2.fl =
      (List.range 3).foldl (fun acc k => acc ||| (qbxOf f c.act fmt had a (if f.lane then 0 else k) sl).fl) acc := fun acc sl => by
    unfold siblingBlocks
    cases f.lane <;> rfl
  simp only [qbxFlags, quantizedBlocks, activeBlocks, List.foldl_map, each, List.contains_eq_mem]

theorem qbx_does {fmt : BxFmt} {had : Hadamard} {d a b : BitVec 7} {s : State} {w : Nat} {f : Flight} {c : ClauseRun}
    (distinct : c.act.Nodup) (q : Issuing s w f c)
    (ready : Ready s w f c ⟨[f.regName a.toNat], [f.regName d.toNat, f.regName b.toNat], [], false, 0⟩) :
    Does (.qbx fmt had d a b) s w f c ⟨[f.regName a.toNat], [f.regName d.toNat, f.regName b.toNat], [], false, 0⟩
      (fun j x => Tri.of fun k => BitVec.ofNat 32
        (if j = 0 then (quantized f c fmt had a x k).1 else (quantized f c fmt had a x k).2))
      (fun x => if x ∈ c.act then { f.thread x with rcount := (f.thread x).rcount + 32 } else f.thread x)
      { f with ctl := counted f.ctl (qbxFlags f c fmt had a) [] } := by
  have work := (worked_writeDests (f := f) (c := c) (val := qbxValues f c fmt had a)
      (r := ⟨[f.regName a.toNat], [f.regName d.toNat, f.regName b.toNat], [], false, if had = .none then 8 else 12⟩)).raise
    (qbxFlags f c fmt had a) |>.modThreads distinct (writeDests_threads ..) fun _ t => { t with rcount := t.rcount + 32 }
  have e := (exec_qbx (fmt := fmt) (had := had) (d := d) (a := a) (b := b) s).trans (runOp_done q (ready.occ rfl) rfl)
  exact Does.congr_two (Does.occ (work.does_untested distinct q e (busy_occupy ..)) rfl) rfl rfl fun x hx => qbxValues_active hx

/-- Settles O13: QBX works block by block (R112), and DQBX decodes an element of each sibling (R113). -/
theorem blockQuantization : Obligations.BlockQuantization := by
  refine ⟨fun fmt had d a b s w f c distinct q ready => ?qbx, fun fmt d a b s w f c q ready => ?dqbx⟩
  case qbx =>
    have does := qbx_does (fmt := fmt) (had := had) distinct q ready
    rw [qbxFlags_eq] at does
    exact does
  case dqbx =>
    have writes := dqbx_writes (fmt := fmt) q ready
    rw [bxBitsF_eq] at writes
    exact writes

end Sys2Proof.Machine
end
